-- ==== Sys2Proof/Word.lean ====
section
/-! DEFINITION. The word types of the model: bytes, sparse tables, sparse memories, owner tags, digests. -/

namespace Sys2Proof

/-- A byte. -/
abbrev Byte := BitVec 8

/-- A byte string, first byte first. -/
abbrev Bytes := List (BitVec 8)

/-- A sparse table: keys strictly rising, no entry that holds the table's default value. -/
abbrev Tab (α : Type) := List (Nat × α)

/-- A sparse memory: strictly rising addresses, no entry equal to 0, what an unlisted address reads as. -/
abbrev Mem := List Host.Cell

/-- A 13-bit owner tag (R226). -/
abbrev Tag := BitVec 13

/-- A SHA-256 digest or a 256-bit key, as one number. -/
abbrev Digest := BitVec 256

end Sys2Proof
end

