-- ==== Sys2Proof/Syntax.lean ====
section
/-! DEFINITION. The commands of the block: one constructor of Instr per row of spec/opcode_table.json, with the row's operands. -/

namespace Sys2Proof

/-- The two instruction streams of a glade (R131, R139). -/
inductive Engine where
  | ae   -- access engine
  | xe   -- execute engine
  deriving DecidableEq, Repr

/-- A glade instruction as its engine issues it: the fields of R131 except OPC, which the constructor of `Instr` names.
`rsv` holds the reserved bits [15:13] (low) and [63:57] (high). -/
structure GI where
  glade : Fin 128
  eng   : Engine
  guard : BitVec 5 := 0
  rsv   : BitVec 10 := 0
  flags : BitVec 8 := 0
  ta    : BitVec 6 := 0
  tb    : BitVec 6 := 0
  tc    : BitVec 6 := 0
  sa    : BitVec 5 := 0
  sb    : BitVec 5 := 0
  sc    : BitVec 5 := 0
  imm   : BitVec 64 := 0
  deriving DecidableEq, Repr

/-- The header of a fabric cell (R343), with `auth` telling whether its GCM tag verifies under the pair's key of its epoch. -/
structure CellHdr where
  lseq : BitVec 16
  vc   : BitVec 2
  dst  : BitVec 16
  src  : BitVec 16
  ep   : Bool
  kind : BitVec 2
  pctr : BitVec 32
  tag  : BitVec 13
  cidx : BitVec 19
  auth : Bool
  deriving DecidableEq, Repr

/-- The fields at the start of a head cell's payload (R357). -/
structure Head where
  jobId    : BitVec 32
  kind     : Byte
  flags    : Byte
  fmt      : Byte
  raddr    : BitVec 64
  len      : BitVec 64
  rcnt     : BitVec 64
  rstep    : BitVec 64
  stepWord : BitVec 64
  owner    : Tag
  oldTag   : BitVec 13
  oldValid : Bool
  start    : BitVec 19
  seed     : BitVec 64
  digest   : Digest
  deriving DecidableEq, Repr

/-- A received link cell (R340): whether its CRC-32 holds, and its counts. -/
structure LinkCell where
  crcOk : Bool
  ack   : BitVec 16
  nak   : BitVec 16
  nakv  : Bool
  cred  : BitVec 64
  deriving DecidableEq, Repr

/-- What the boot ROM finds on the two flash banks (R426): 0 pass, else the FAIL code of R465 (1, 2, 3 or 5). The security
version is compared by the model. -/
structure BankChecks where
  bank0 : Fin 6
  bank1 : Fin 6
  deriving DecidableEq, Repr

/-- What the tests of the boot sequence find (R459, R460): the failing dies (encoded as DIE of R476), the failing channels,
the ports whose test fails and the ports whose link came up. -/
structure BootTests where
  banks     : BankChecks
  failDies  : BitVec 24
  failChans : BitVec 32
  failPorts : BitVec 32
  portsUp   : BitVec 32
  deriving DecidableEq, Repr

/-- A binding or mask message of a peer (R351). -/
structure Binding where
  jobId   : BitVec 32
  jobSt   : BitVec 3
  digestA : Digest
  digestB : Digest
  mask    : BitVec 32
  deriving DecidableEq, Repr

/-- A peer's part of a key exchange (R347): whether its chain ends at the vendor root, whether its signature holds, its security version,
its ECDH share and its nonce. -/
structure PeerCheck where
  chainOk : Bool
  sigOk   : Bool
  svn     : BitVec 7
  share   : Bytes := []
  nonce   : BitVec 256 := 0
  deriving DecidableEq, Repr

/-- A cell that arrives at a port, by its header. -/
structure CellAt where
  port : Fin 32
  h    : CellHdr
  deriving DecidableEq, Repr

/-- A slot that a port lost (R339), and whether it is the first of its codeword (R371). -/
structure LostSlot where
  port    : Fin 32
  newWord : Bool
  deriving DecidableEq, Repr

/-- An SPDM message inside a session: whether it came over MCTP (R453), and the session. -/
structure SpdmAt where
  mctp    : Bool
  session : BitVec 32
  deriving DecidableEq, Repr

/-- The requester's part of a KEY_EXCHANGE (R453): its nonce and its ECDH share. -/
structure KeyShare where
  nonce : Digest
  share : Bytes
  deriving DecidableEq, Repr

/-- A root-cause key of the error collector (R495, R497): unit kind, the die, glade, channel, port or half, and the row,
column, lane or wavelength. -/
structure ErrKey where
  unit : Fin 10
  num  : BitVec 16
  sub  : BitVec 16
  deriving DecidableEq, Repr

/-- What an error report says (R497): its class, or for a GDDR7 line the number of erroneous symbols that its code has found (R188). -/
inductive ErrClass where
  | corrected | uncorrectable | timeout | staleEpoch
  | symbols (n : Nat)
  deriving DecidableEq, Repr

/-- Who asks for a die reset (R466, R472): a host write to HUB_RST_CTL, or the hub. -/
inductive DieCause where
  | host (value : BitVec 64)
  | hub  (die : Fin 24)
  deriving DecidableEq, Repr

/-- One power domain's measurement of Weathervane (R530, R531): the needed supply in mV at each clock point (points 0 to 3),
the domain's maximum voltage, the present value's decline over the last 1,000 hours in 0.1 units, and the hours observed. For a
horizon photonic domain `need0` and `vmax` are the bias current and its largest value in 0.1 mA. -/
structure WvReading where
  pd      : Fin 50
  need0   : Nat
  need1   : Nat
  need2   : Nat
  need3   : Nat
  vmax    : Nat
  decline : Nat
  hours   : Nat
  deriving DecidableEq, Repr

/-- A reading of the junction sensors (R526): one temperature per power domain in °C, keyed by domain, and the module's input
power in W. -/
structure ThermalReading where
  temps : Tab (BitVec 8)
  power : BitVec 12
  deriving DecidableEq, Repr

/-- The commands: one constructor per row of the opcode table. A ring opcode names its accepted descriptor by its acceptance
sequence number `acc` (R394). -/
inductive Instr where
  -- glade instructions (R139) and glade events
  | nop (i : GI)
  | halt (i : GI)
  | haltDone (g : Fin 128) (e : Engine)
  | br (i : GI)
  | loop (i : GI)
  | call (i : GI)
  | ret (i : GI)
  | meet (i : GI)
  | meetRelease (g : Fin 128) (e : Engine)
  | meetTimeout (g : Fin 128) (e : Engine)
  | signal (i : GI)
  | tokenEnter (g : Fin 128) (e : Engine) (q : Fin 8)
  | wait (i : GI)
  | tokenReceive (g : Fin 128) (e : Engine)
  | deadlock (g : Fin 128)
  | mov (i : GI)
  | alu (i : GI)
  | cmp (i : GI)
  | tdset (i : GI)
  | tdadd (i : GI)
  | tdcpy (i : GI)
  | lds (i : GI)
  | sts (i : GI)
  | ldT (i : GI)
  | stT (i : GI)
  | ldG (i : GI)
  | pf (i : GI)
  | xfer (i : GI)
  | wld (i : GI)
  | mm (i : GI)
  | mmG (i : GI)
  | cvt (i : GI)
  | vop (i : GI)
  | sel (i : GI)
  | sfu (i : GI)
  | statRd (i : GI)
  | route (i : GI)
  | routeF (i : GI)
  | red (i : GI)
  | gladeStop (g : Fin 128)
  -- rings
  | doorbellWrite (ring : Fin 256) (visible : List Host.Cell) (sqTail cqHead : BitVec 32)
  | descriptorAccept (ring : Fin 256)
  | completionRelease (ring : Fin 256)
  -- data opcodes
  | run (acc : BitVec 64)
  | admitSeq (acc : BitVec 64)
  | retire (acc : BitVec 64)
  | frame (acc : BitVec 64)
  | update (acc : BitVec 64)
  | install (acc : BitVec 64)
  | hostXfer (acc : BitVec 64)
  | adapterPrefetch (acc : BitVec 64)
  | adapterEvict (acc : BitVec 64)
  | checkpointOut (acc : BitVec 64)
  | checkpointIn (acc : BitVec 64)
  | fence (acc : BitVec 64)
  | mark (acc : BitVec 64)
  -- control opcodes and their later halves
  | jobOpen (acc : BitVec 64)
  | jobClose (acc : BitVec 64)
  | jobCloseAbort (acc : BitVec 64)
  | jobPreempt (acc : BitVec 64)
  | preemptDrainEnd
  | preemptSaveDone
  | jobResume (acc : BitVec 64)
  | segSet (acc : BitVec 64)
  | progLoad (acc : BitVec 64)
  | baseLoad (acc : BitVec 64)
  | baseRetire (acc : BitVec 64)
  | adapterLoad (acc : BitVec 64)
  | adapterSwitch (acc : BitVec 64)
  | adapterRelease (acc : BitVec 64)
  | slotReleaseDone (slot : Fin 65536)
  | slotBind (acc : BitVec 64)
  | slotRevoke (acc : BitVec 64)
  | tenantSlotFree (t : Fin 4096)
  | streamSet (acc : BitVec 64)
  | domainSet (acc : BitVec 64)
  -- serving
  | stepBoundary
  | stepStart
  | parkLimitExpiry (acc : BitVec 64)
  | adapterFetchDone (slot : Fin 65536)
  | frameRelease (acc : BitVec 64)
  | frameDispatch (acc : BitVec 64)
  | frameProgramEnd (acc : BitVec 64)
  -- fabric
  | transferStart (id : Nat)
  | pairBringUp (addr : BitVec 16)
  | pairUp (x : CellAt) (c : PeerCheck)
  | pairRekey (addr : BitVec 16)
  | oldKeyDiscard (addr : BitVec 16)
  | jobBinding (x : CellAt) (b : Binding)
  | portMask (x : CellAt) (mask : BitVec 32)
  | headCellReceive (port : Fin 32) (h : CellHdr) (d : Head)
  | readRequestReceive (port : Fin 32) (h : CellHdr) (d : Head)
  | dataCellReceive (port : Fin 32) (h : CellHdr) (payload : Bytes)
  | responseCellReceive (port : Fin 32) (h : CellHdr) (owner : Tag) (digest : Digest) (payload : Bytes)
  | completionResponse (port : Fin 32) (h : CellHdr) (dropped strict : Bool)
  | refusalReceive (port : Fin 32) (h : CellHdr) (status : Byte) (last : BitVec 19)
  | targetPreemptedAnswer (port : Fin 32) (h : CellHdr) (last : BitVec 19)
  | preemptedRetryTimer (id : Nat)
  | positionQuery (port : Fin 32) (h : CellHdr) (cancel : Bool)
  | positionAnswer (port : Fin 32) (h : CellHdr) (last : BitVec 19)
  | completionTimeout (id : Nat)
  | positionQueryTimeout (id : Nat)
  | transferRecordTimeout (src : BitVec 16) (tag : BitVec 13)
  | linkCellSend (port : Fin 32)
  | linkCellReceive (port : Fin 32) (c : LinkCell)
  | slotLost (x : LostSlot)
  | replayTimeout (port : Fin 32)
  | wavelengthLockLost (port : Fin 32) (k : Fin 8)
  | wavelengthRelock (port : Fin 32)
  | portDown (port : Fin 32)
  | portUp (port : Fin 32)
  | creditReturn (die : Fin 4) (cls : Fin 7)
  -- CXL.mem, configuration, management
  | stagingWrite (addr : BitVec 30) (data : Bytes)
  | stagingRead (addr : BitVec 30) (len : Nat)
  | configRequest
  | fruRead (offset len : Nat)
  | mctpTelemetry
  -- Ranger messages
  | report
  | sessionOpen
  | sessionClose
  | setPolicy
  | setCkptKey
  | adapterList
  | progTable
  | jobConfig
  | certChain
  | fwStage
  | fwActivate (check : Fin 6)
  | fwAbandon
  | fwCommitSvn
  -- SPDM and TDISP
  | getVersion (mctp : Bool)
  | getCapabilities (mctp : Bool)
  | getDigests (mctp : Bool)
  | getCertificate (mctp : Bool) (slot : Byte) (offset len : BitVec 16)
  | challenge (mctp : Bool) (slot : Byte) (nonce : Digest)
  | getMeasurements (mctp : Bool) (block : Byte) (nonce : Digest)
  | keyExchange (mctp : Bool) (reqSession : BitVec 16) (k : KeyShare)
  | finish (mctp : Bool) (session : BitVec 32) (macOk : Bool)
  | heartbeat (mctp : Bool) (session : BitVec 32)
  | keyUpdate (x : SpdmAt) (op : Byte)
  | endSession (mctp : Bool) (session : BitVec 32)
  | ideKm (x : SpdmAt) (stream : Byte) (key : Digest)
  | spdmUnsupportedRequest (mctp : Bool) (code : Byte)
  | getTdispVersion (x : SpdmAt)
  | getTdispCapabilities (x : SpdmAt)
  | lockInterfaceRequest (x : SpdmAt)
  | getDeviceInterfaceReport (x : SpdmAt)
  | getDeviceInterfaceState (x : SpdmAt)
  | startInterfaceRequest (x : SpdmAt) (nonce : Digest)
  | stopInterfaceRequest (x : SpdmAt)
  -- registers
  | registerWrite (offset : BitVec 26) (size : Nat) (value : BitVec 64)
  | ringEnable (value : BitVec 64)
  | ringDisable (value : BitVec 64)
  | ringReset (value : BitVec 64)
  | jobReset (value : BitVec 64)
  | shutdown (value : BitVec 64)
  | dieReset (c : DieCause)
  | dieResetDone (die : Fin 24) (pass : Bool)
  | restartScan (value : BitVec 64)
  | portEnable (value : BitVec 64)
  | portDisable (value : BitVec 64)
  | pdModeOn (value : BitVec 64)
  | pdModeAuto (value : BitVec 64)
  | pdModeOff (value : BitVec 64)
  | pdPowerOff (pd : Fin 50)
  | pdClockStop (pd : Fin 50)
  | pdWakeReady (pd : Fin 50)
  | wvCap (value : BitVec 64)
  | clockPointChange (die : Fin 16)
  | wvMeasure (r : List WvReading)
  | wvPlanSave
  | thermalSample (r : ThermalReading)
  | throttleLower
  | throttleRaise
  | alternateIssueInterval (die : Fin 16)
  | thermalTrip
  -- faults
  | errorReport (k : ErrKey) (c : ErrClass) (poisoned : Option (BitVec 48)) (acc : BitVec 64)
  | errRecordClose (k : ErrKey)
  | errRecordWrite
  | selfTestDone (k : ErrKey) (pass : Bool)
  | leaseGrant
  | leaseLapse (half : Fin 2)
  | leaseAck (half : Fin 2) (epoch : BitVec 64)
  | halfResync (half : Fin 2)
  | hubFault
  | drbgReseed
  | ephemeralKeyExpiry
  -- pins and resets
  | modPwrEnAssert
  | modPwrEnDeassert
  | perstAssert
  | perstDeassert (t : BootTests)
  | inputFault
  | warmReset (b : BankChecks) (missed : BitVec 128)
  | restoreDone
  deriving DecidableEq, Repr

end Sys2Proof
end

