-- ==== Sys2Proof/Decode.lean ====
section
/-! DEFINITION. Words and commands: the glade instruction word (R131, R139) with its encoder, the ring opcodes (R389, R390), and the host's decoder of opcode-table rows. -/

namespace Sys2Proof

/-- The opcode table gives no row any bits, so no word spells a command (log 27). -/
def decodeTableWord (_nbits _w : Nat) : Option Instr := none

/-- A glade instruction's opcode and fields (R139); none for every other command. -/
def gladeParts : Instr → Option (BitVec 8 × GI)
  | .nop i => some (0x00, i)
  | .halt i => some (0x01, i)
  | .br i => some (0x02, i)
  | .loop i => some (0x03, i)
  | .call i => some (0x04, i)
  | .ret i => some (0x05, i)
  | .meet i => some (0x06, i)
  | .signal i => some (0x08, i)
  | .wait i => some (0x09, i)
  | .mov i => some (0x10, i)
  | .alu i => some (0x11, i)
  | .cmp i => some (0x12, i)
  | .tdset i => some (0x14, i)
  | .tdadd i => some (0x15, i)
  | .tdcpy i => some (0x16, i)
  | .lds i => some (0x17, i)
  | .sts i => some (0x18, i)
  | .ldT i => some (0x20, i)
  | .stT i => some (0x21, i)
  | .ldG i => some (0x22, i)
  | .pf i => some (0x23, i)
  | .xfer i => some (0x24, i)
  | .wld i => some (0x30, i)
  | .mm i => some (0x31, i)
  | .mmG i => some (0x32, i)
  | .cvt i => some (0x33, i)
  | .vop i => some (0x34, i)
  | .sel i => some (0x35, i)
  | .sfu i => some (0x36, i)
  | .statRd i => some (0x37, i)
  | .route i => some (0x38, i)
  | .routeF i => some (0x39, i)
  | .red i => some (0x3A, i)
  | _ => none

/-- The instruction with an opcode of R139; none for a reserved opcode. -/
def gladeInstr (opc : BitVec 8) (i : GI) : Option Instr :=
  match opc.toNat with
  | 0x00 => some (.nop i)
  | 0x01 => some (.halt i)
  | 0x02 => some (.br i)
  | 0x03 => some (.loop i)
  | 0x04 => some (.call i)
  | 0x05 => some (.ret i)
  | 0x06 => some (.meet i)
  | 0x08 => some (.signal i)
  | 0x09 => some (.wait i)
  | 0x10 => some (.mov i)
  | 0x11 => some (.alu i)
  | 0x12 => some (.cmp i)
  | 0x14 => some (.tdset i)
  | 0x15 => some (.tdadd i)
  | 0x16 => some (.tdcpy i)
  | 0x17 => some (.lds i)
  | 0x18 => some (.sts i)
  | 0x20 => some (.ldT i)
  | 0x21 => some (.stT i)
  | 0x22 => some (.ldG i)
  | 0x23 => some (.pf i)
  | 0x24 => some (.xfer i)
  | 0x30 => some (.wld i)
  | 0x31 => some (.mm i)
  | 0x32 => some (.mmG i)
  | 0x33 => some (.cvt i)
  | 0x34 => some (.vop i)
  | 0x35 => some (.sel i)
  | 0x36 => some (.sfu i)
  | 0x37 => some (.statRd i)
  | 0x38 => some (.route i)
  | 0x39 => some (.routeF i)
  | 0x3A => some (.red i)
  | _ => none

/-- The 128-bit word of an opcode and its fields (R131). -/
def instrWord (opc : BitVec 8) (i : GI) : BitVec 128 :=
  i.imm ++ i.rsv.extractLsb' 3 7 ++ i.sc ++ i.sb ++ i.sa ++ i.tc ++ i.tb ++ i.ta ++ i.flags ++ i.rsv.extractLsb' 0 3 ++ i.guard ++ opc

/-- The opcode of a word (R131). -/
def wordOpc (w : BitVec 128) : BitVec 8 := w.extractLsb' 0 8

/-- The fields of a word as an engine of a glade issues it (R131). -/
def wordFields (g : Fin 128) (e : Engine) (w : BitVec 128) : GI :=
  { glade := g, eng := e,
    guard := w.extractLsb' 8 5,
    rsv := w.extractLsb' 57 7 ++ w.extractLsb' 13 3,
    flags := w.extractLsb' 16 8,
    ta := w.extractLsb' 24 6, tb := w.extractLsb' 30 6, tc := w.extractLsb' 36 6,
    sa := w.extractLsb' 42 5, sb := w.extractLsb' 47 5, sc := w.extractLsb' 52 5,
    imm := w.extractLsb' 64 64 }

/-- Decode a glade instruction word; none for a reserved opcode (R132). -/
def decodeGlade (g : Fin 128) (e : Engine) (w : BitVec 128) : Option Instr := gladeInstr (wordOpc w) (wordFields g e w)

/-- Encode a glade instruction; none for every other command. -/
def encodeGlade (c : Instr) : Option (BitVec 128) := (gladeParts c).map (fun p => instrWord p.1 p.2)

/-- The opcode a ring descriptor carries for a command (R389, R390); none for commands that no descriptor names. -/
def ringOpcode : Instr → Option (BitVec 8)
  | .run _ => some 0x01
  | .admitSeq _ => some 0x02
  | .retire _ => some 0x03
  | .frame _ => some 0x04
  | .update _ => some 0x05
  | .install _ => some 0x05
  | .hostXfer _ => some 0x06
  | .adapterPrefetch _ => some 0x07
  | .adapterEvict _ => some 0x08
  | .checkpointOut _ => some 0x09
  | .checkpointIn _ => some 0x0A
  | .fence _ => some 0x0B
  | .mark _ => some 0x0C
  | .jobOpen _ => some 0x40
  | .jobClose _ => some 0x41
  | .jobCloseAbort _ => some 0x41
  | .jobPreempt _ => some 0x42
  | .jobResume _ => some 0x43
  | .segSet _ => some 0x44
  | .progLoad _ => some 0x45
  | .baseLoad _ => some 0x46
  | .baseRetire _ => some 0x46
  | .adapterLoad _ => some 0x47
  | .adapterSwitch _ => some 0x47
  | .adapterRelease _ => some 0x47
  | .slotBind _ => some 0x48
  | .slotRevoke _ => some 0x49
  | .streamSet _ => some 0x4A
  | .domainSet _ => some 0x4B
  | _ => none

end Sys2Proof
end

