-- ==== Sys2Proof/Config.lean ====
section
/-! DEFINITION. What one part fixes and the values the manual leaves open: constants without a body, so that no proof can see a value. -/

namespace Sys2Proof.Config

/-- The fused device root secret (R413). Log 4. -/
opaque root : Digest
/-- The fused device identifier (R413, R551). Log 4. -/
opaque deviceId : BitVec 128
/-- SHA-256 digest of the vendor root public key (R413). Log 4. -/
opaque vrootHash : Digest
/-- The module's serial number and manufacturing date, as the FRU EEPROM holds them (R561). Log 4. -/
opaque fruSerial : Bytes
/-- The four DER certificates of the chain (R417), the last signed with the identity key for the alias key: the two private scalars. Log 7. -/
opaque certChain : Nat → Nat → Bytes
/-- The digest of the boot ROM, fixed at manufacture (R425). Log 4. -/
opaque bootRomDigest : Digest

/-- The security version in the manifest of a firmware bank's image, whose layout no rule gives (R426), 0 to 64 (R427): a free value. Log 53. -/
opaque manifestSvn : List Host.Cell → Fin 65
/-- The digest of a component in that manifest, by the index of R425: a free value. Log 53. -/
opaque manifestDigest : List Host.Cell → Nat → Digest
/-- Whether an image part staged so far holds its manifest (R435): a free value. Log 53. -/
opaque manifestStaged : List Host.Cell → Bool

/-- The n-th value drawn from Ranger's random source (R414): a free value. Log 14. -/
opaque random : Nat → BitVec 256
/-- SHA-256, named by standard only (R123, R415). Log 7. -/
opaque sha256 : Bytes → Digest
/-- HKDF-Extract and HKDF-Expand with SHA-256 (R415, R442): salt, key material, info string, length. Log 7. -/
opaque hkdf : Bytes → Bytes → Bytes → Nat → Bytes
/-- AES-256-XTS over a data unit of one 256-byte line (R419): 64-byte key, data unit sequence number; a permutation of the line's values, as
a block cipher is. Log 7. -/
opaque xts : Bytes → BitVec 128 → Equiv.Perm (BitVec 2048)
/-- AES-CMAC (R420): 32-byte key, message; 16 bytes. Log 7. -/
opaque cmac : Bytes → Bytes → Bytes
/-- The set of its die's cache region, or of a tile buffer's cache part, that a line falls in (R196, R211): the number of sets and the line
give a free choice. Log 12. -/
opaque cacheSet : Nat → Nat → Nat
/-- AES-256-GCM seal (R433, R444): key, IV, additional data, plaintext; ciphertext followed by the 16-byte tag. Log 7. -/
opaque gcmSeal : Digest → Bytes → Bytes → Bytes → Bytes
/-- AES-256-GCM open (R433, R444): key, IV, additional data, ciphertext with tag; the plaintext if the tag verifies. Log 7. -/
opaque gcmOpen : Digest → Bytes → Bytes → Bytes → Option Bytes
/-- ECDSA P-256 verification (R440): public key, message digest, signature. Log 7. -/
opaque ecdsaVerify : Bytes → Digest → Bytes → Bool
/-- ECDSA P-256 signing by a private scalar (R415, R435), with its nonce's number in the random source. Log 7. -/
opaque ecdsaSign : Nat → Digest → Nat → Bytes
/-- The public share of the n-th ephemeral P-256 key (R435). Log 7. -/
opaque ephPublic : Nat → Bytes
/-- The X coordinate of the ECDH product of the n-th ephemeral key and a peer's share (R442). Log 7. -/
opaque ecdh : Nat → Bytes → Bytes

/-- The payload bytes of a fabric message whose layout no rule gives (R347, R351, R359, R364 to R368): its kind and its fields. Log 42. -/
opaque msgBytes : Nat → List Nat → Bytes
/-- The special-function unit's result on an input (R165): code, W32 input; codes 6 to 8 are those of the conversion stage (R116). The
model takes it only where it keeps the code's bound. Log 9. -/
opaque sfuOut : Nat → BitVec 32 → BitVec 32
/-- The base's model width D, by generation: a property of the base's image (R242). Log 10. -/
opaque modelWidth : Nat → Nat
/-- Where a stationary tile of a base expert's projection lies in its copy (R154, R391): base tag, layer, projection, expert, copy,
contraction tile, output tile; the tile's format code, block code, rows, columns, element offset, element pitch, scale offset and
scale pitch. Log 10. -/
opaque projTile : Nat → Nat → Nat → Nat → Bool → Nat → Nat → List Nat
/-- How many contraction and output tiles a base expert's projection has (R156). Log 10. -/
opaque projDims : Nat → Nat → Nat → Nat → Nat × Nat
/-- The n-th byte of a KV page's contents, which no rule gives (R312, R313): a free value. Log 28. -/
opaque fill : Nat → BitVec 8
/-- The seed of a serving step's stochastic rounding, by step number: the step has no descriptor (R57, R312). Log 28. -/
opaque stepSeed : Nat → BitVec 64
/-- A choice the manual leaves to the hub or to arrival (R173, R356, R402): the n-th such choice. Log 14. -/
opaque choice : Nat → Nat

end Sys2Proof.Config
end

