-- ==== Sys2Proof/Machine/State.lean ====
section
/-! DEFINITION. The state of the block: every register, table, buffer, queue and pin the spec gives it, as plain data, and the state after reset. -/

namespace Sys2Proof.Machine

/-- Why the block stops. No command of the block stops it: the device raises no trap (chapter "Number formats"), and each of its
own faults is a status of a command. -/
inductive Fault where
  /-- Raised by nobody; safe. -/
  | halted
  deriving DecidableEq, Repr

/-- A command without a meaning. -/
inductive Refusal where
  /-- Raised by an arm of exec whose command has no meaning yet; safe. -/
  | notModelled (mnemonic : String)
  deriving DecidableEq, Repr

/-- The module's pins and supply (R559, R564); `true` means asserted, or in range. -/
structure Pins where
  perst     : Bool := true
  pwrEn     : Bool := false
  pwrGood   : Bool := false
  alert     : Bool := false
  thermTrip : Bool := false
  inputOk   : Bool := true
  latched   : Bool := false
  deriving DecidableEq, Repr

/-- HUB_BOOT (R465). -/
structure Boot where
  stage    : BitVec 4 := 0
  cfgReady : Bool := false
  devReady : Bool := false
  fail     : BitVec 8 := 0
  fallback : Bool := false
  deriving DecidableEq, Repr

/-- HUB_RST_CTL, HUB_RST_STATUS (R476), the die-reset count (R435), HUB_RESTART_ADDR and HUB_RESTART_CTL (R486, R487), and
whether an orderly shutdown has stopped acceptance (R479). -/
structure Resets where
  last        : BitVec 3 := 0
  safe        : Bool := false
  jobBusy     : Bool := false
  dieBusy     : Bool := false
  held        : BitVec 24 := 0
  warmCnt     : BitVec 16 := 0
  dieResets   : BitVec 32 := 0
  dieField    : BitVec 5 := 0
  restartAddr : BitVec 56 := 0
  rsBusy      : Bool := false
  rsDone      : Bool := false
  rsTrunc     : Bool := false
  rsLimit     : BitVec 16 := 0
  rsGen       : BitVec 16 := 0
  stopping    : Bool := false
  deriving DecidableEq, Repr

/-- One firmware bank in flash (R425 to R428): valid, and its image bytes, from which its manifest's values come (log 53). -/
structure Bank where
  valid   : Bool := true
  image   : Mem := []
  deriving DecidableEq, Repr

/-- A power domain's stored margin plan (R531, R533): margin, end, limit and the supply planned. -/
structure Plan where
  margin  : BitVec 16 := 0
  endDays : BitVec 16 := 0xFFFF
  limit   : BitVec 2 := 0
  volt    : BitVec 12 := 0
  deriving DecidableEq, Repr

/-- What survives every reset (R394, R413, R426, R533): the cold-reset generation, the two banks, the active bank, the mark,
the stored plan, the fused SVN. -/
structure Flash where
  coldGen  : BitVec 16 := 0
  bank0    : Bank := {}
  bank1    : Bank := {}
  active   : Bool := false
  marked   : Bool := false
  plan     : Tab Plan := []
  fusedSvn : BitVec 7 := 0
  deriving DecidableEq, Repr

/-- The hub's own registers: HUB_TIME (R525), the count of HUB_ACC_NEXT (R395), HUB_CXL_WIN (R213), HUB_EGR_BASE (R447),
HUB_CNP_WMARK (R218), HUB_PARK (R259), HUB_FAB_ADDR (R353), REKEYS of HUB_FAB_PEERS (R372), HUB_FROZEN_DROP (R510),
HUB_EXC_CNT_n (R74), HUB_PWR (R529), what R217 holds back (data rings and the staging window; request and bulk cells, by
canopy die), and the hub fault (R507). -/
structure Hub where
  time         : BitVec 64 := 0
  accCount     : BitVec 48 := 1
  split        : BitVec 10 := 0
  winBase      : BitVec 34 := 0
  egr          : BitVec 40 := 0
  hostOn       : BitVec 11 := 256
  hostOff      : BitVec 11 := 512
  orxOn        : BitVec 11 := 512
  orxOff       : BitVec 11 := 1024
  parkLimit    : BitVec 16 := 50
  parkTimeouts : BitVec 16 := 0
  parkFull     : BitVec 16 := 0
  fabAddr      : BitVec 16 := 0
  fabSet       : Bool := false
  rekeys       : BitVec 32 := 0
  frozenDrop   : BitVec 64 := 0
  exc          : Tab (BitVec 64) := []
  capW         : BitVec 12 := 0
  hostHold     : Bool := false
  orxHold      : BitVec 4 := 0
  powerW       : BitVec 12 := 0
  maxTemp      : BitVec 8 := 0
  throttling   : Bool := false
  thermEvt     : Bool := false
  pwrEvt       : Bool := false
  fault        : Bool := false
  deriving DecidableEq, Repr

/-- HUB_FENCE_DIE and HUB_FENCE_IO (R501), and the fenced channels that the mapping in force leaves out (R191, R500). -/
structure Fences where
  grove   : BitVec 16 := 0
  canopy  : BitVec 4 := 0
  horizon : BitVec 4 := 0
  chan    : BitVec 32 := 0
  port    : BitVec 32 := 0
  unmapped : BitVec 32 := 0
  deriving DecidableEq, Repr

/-- The select registers (R545, R546). -/
structure Sels where
  ring   : BitVec 16 := 0
  glade  : BitVec 16 := 0
  chan   : BitVec 16 := 0
  port   : BitVec 16 := 0
  dom    : BitVec 16 := 0
  stream : BitVec 16 := 0
  pd     : BitVec 16 := 0
  deriving DecidableEq, Repr

/-- State of a ring (R386). -/
inductive RingSt where
  | disabled | enabled | draining
  deriving DecidableEq, Repr

/-- A ring pair (R384 to R387, R380, R476): its registers, the doorbell counts last read, and whether a released record asked
for an interrupt (R475). -/
structure Ring where
  st        : RingSt := .disabled
  size      : BitVec 4 := 6
  vector    : BitVec 8 := 0
  sq        : BitVec 52 := 0
  cq        : BitVec 52 := 0
  jnl       : BitVec 52 := 0
  db        : BitVec 58 := 0
  dbRange   : Bool := false
  accepted  : BitVec 32 := 0
  released  : BitVec 32 := 0
  sqTail    : BitVec 32 := 0
  cqHead    : BitVec 32 := 0
  resetDone : Bool := false
  irqSeen   : Bool := false
  deriving DecidableEq, Repr

/-- How far an accepted command is: accepted, started, or finished and waiting for its record's release. -/
inductive CmdPh where
  | accepted | running | done
  deriving DecidableEq, Repr

/-- An accepted command that the hub holds (R396, R470) with what its completion record will carry (R397, R398). `excEntries`
lists the glades that logged and their entries' running numbers (R70), `excLost` counts its entries overwritten before its release
(R74), `faults` keeps each faulting glade's status (R182), `frozen` and `strictHit` say that a write of it was dropped (R509). A
command whose `job` is not current is held with its saved job. -/
structure Cmd where
  acc       : BitVec 64
  ring      : Nat
  index     : BitVec 32
  desc      : Bytes
  job       : BitVec 32 := 0
  ph        : CmdPh := .accepted
  status    : Byte := 0
  summary   : BitVec 5 := 0
  vanish    : BitVec 32 := 0
  excCount  : Nat := 0
  excIndex  : BitVec 16 := 0
  excEntries : List (Nat × Nat) := []
  excLost   : Nat := 0
  throttled : Bool := false
  result    : Bytes := []
  glades    : List Nat := []
  slot      : Byte := 0
  faults    : Tab Byte := []
  frozen    : Bool := false
  strictHit : Bool := false
  warn      : Bool := false
  progress  : Nat := 0
  release   : Option (BitVec 64) := none
  started   : BitVec 64 := 0
  fallback  : Bool := false
  opened    : BitVec 64 := 0
  deriving DecidableEq, Repr

/-- Engine states, in the order of their codes (R183). -/
inductive EngSt where
  | idle | running | waitToken | waitMeet | waitMem | stopped | halted | faulted
  deriving DecidableEq, Repr

/-- A tile descriptor (R129). -/
structure Td where
  base   : BitVec 48 := 0
  space  : BitVec 2 := 0
  fmt    : BitVec 4 := 0
  blk    : BitVec 2 := 0
  grad   : Bool := false
  copy   : Bool := false
  rows   : BitVec 12 := 0
  cols   : BitVec 12 := 0
  pitch  : BitVec 32 := 0
  sbase  : BitVec 48 := 0
  sspace : BitVec 2 := 0
  spitch : BitVec 32 := 0
  deriving DecidableEq, Repr

/-- One engine of a glade (R125): program counter, progress word, scalar registers (s0 is never stored), tile descriptors,
predicates, call stack, state, and what a stalled WAIT or MEET waits for. `sectEnd` and `sectStart` are its section's bounds; `routed`
lists the experts that a ROUTE or ROUTE_F cut by a stop has met so far (R126, log 11). -/
structure Eng where
  pc        : BitVec 20 := 0
  progress  : BitVec 64 := 0
  s         : Tab (BitVec 64) := []
  td        : Tab Td := []
  p         : BitVec 8 := 0
  stack     : List (BitVec 20) := []
  st        : EngSt := .idle
  resumeSt  : EngSt := .idle
  waitQ     : Nat := 0
  waitSa    : BitVec 5 := 0
  meetAddr  : BitVec 64 := 0
  meetGoal  : BitVec 64 := 0
  stalledAt : BitVec 64 := 0
  sectStart : Nat := 0
  sectEnd   : Nat := 0
  routed    : List Nat := []
  deriving DecidableEq, Repr

/-- A stationary tile in the weight registers (R150, R102): format, cell packing, contraction depth, columns, block size, for
each output column its element codes and its scale bytes, the tag, and the mark for an infinity or NaN. -/
structure STile where
  fmt    : BitVec 4
  pack   : BitVec 2
  rows   : Nat
  cols   : Nat
  blk    : Nat
  codes  : List (List Nat)
  scales : List (List Nat)
  tag    : Tag
  marked : Bool
  deriving DecidableEq, Repr

/-- A statistics slot (R118). -/
structure Stat where
  amax   : BitVec 32 := 0
  vanish : BitVec 32 := 0
  tag    : Tag := 0x1000
  deriving DecidableEq, Repr

/-- A line of a cache: its number, the die of its home (0 in a tile buffer), set and way, and whether memory still has to be written
(R196, R197, R211). -/
structure CLine where
  line  : Nat
  die   : Nat
  set   : Nat
  way   : Nat
  dirty : Bool := false
  deriving DecidableEq, Repr

/-- A glade (R78, R125): its engines, the command and program slot it runs, token queues 0 to 7 (access to execute) and 8 to 15
(execute to access) with tokens signalled and not yet entered, the tile buffer and accumulator window with line and row tags and
row modes, weight registers, statistics slots, rounding counter, the lines of its cache part (the last used first), last fault (R183),
and stop requests. -/
structure Glade where
  ae       : Eng := {}
  xe       : Eng := {}
  cmd      : BitVec 64 := 0
  slot     : Byte := 0
  queues   : Tab (List (BitVec 32)) := []
  sent     : Tab (List (BitVec 32)) := []
  mem      : Mem := []
  tags     : Tab Tag := []
  pair     : Tab Bool := []
  shadow   : Option STile := none
  active   : Option STile := none
  stats    : Tab Stat := []
  rcnt     : BitVec 25 := 0
  cache    : List CLine := []
  faultSt  : Byte := 0
  faultXe  : Bool := false
  faultPc  : BitVec 20 := 0
  stopReq  : Bool := false
  stopped  : Bool := false
  deriving DecidableEq, Repr

/-- A GDDR7 channel (R192): its memory tags are never held between steps (log 13). -/
structure Chan where
  st      : BitVec 2 := 0
  rate    : BitVec 6 := 40
  density : BitVec 2 := 1
  selfref : Bool := false
  corr    : BitVec 32 := 0
  deriving DecidableEq, Repr

/-- What a cell carries beside its header (R343 to R345, R351, R357 to R369). -/
inductive Body where
  | head (h : Head)
  | data (b : Bytes)
  | readData (owner : Tag) (digest : Digest) (b : Bytes)
  | completion (dropped strict : Bool)
  | refusal (status : Byte) (last : BitVec 19)
  | preempted (last : BitVec 19)
  | position (last : BitVec 19)
  | query (cancel : Bool)
  | exchange (epoch : Nat) (nonce : BitVec 256) (share chain sig : Bytes)
  | binding (b : Binding)
  | mask (m : BitVec 32)
  | idle
  deriving DecidableEq, Repr

/-- A cell to send or resend on a port: its header's fields (R343), what it carries, and its 512 bytes as they leave. -/
structure Cell where
  vc   : BitVec 2
  dst  : BitVec 16
  tag  : BitVec 13
  cidx : BitVec 19
  pctr : BitVec 32
  ep   : Bool
  body : Body
  kind : BitVec 2 := 3
  lseq : BitVec 16 := 0
  src  : BitVec 16 := 0
  wire : Bytes := []
  deriving DecidableEq, Repr

/-- An optical port (R371) and its link layer (R337 to R342, R345): link sequence numbers, the replay buffer of unacknowledged
cells (the oldest first) with the replays of the oldest, the next number expected, a pending NAK, cumulative freed counts
per channel, those last sent to the peer and received from it, cells sent per channel, cells waiting for a credit, the slot within
the superframe, the time ACK last advanced, whether a link cell has been sent since the port came up, the data cells sent since then or
since the last one (R338), the time of the last good link cell received and of the last lock lost (R342). -/
structure Port where
  enable   : Bool := true
  st       : BitVec 3 := 0
  lock     : BitVec 8 := 0
  corr     : BitVec 32 := 0
  uncorr   : BitVec 32 := 0
  replay   : BitVec 32 := 0
  authFail : BitVec 16 := 0
  misrout  : BitVec 16 := 0
  txSeq    : BitVec 16 := 0
  unacked  : List (BitVec 16 × Cell) := []
  replays  : Nat := 0
  rxNext   : BitVec 16 := 0
  rxLost   : Bool := false
  nak      : Bool := false
  freed    : Tab (BitVec 16) := []
  credSent : Tab (BitVec 16) := []
  txq      : List Cell := []
  peerCred : Tab (BitVec 16) := []
  sentVc   : Tab (BitVec 16) := []
  linkSlot : Nat := 0
  ackAt    : BitVec 64 := 0
  linked   : Bool := false
  slots    : Nat := 0
  linkAt   : BitVec 64 := 0
  lostAt   : BitVec 64 := 0
  deriving DecidableEq, Repr

/-- A power domain (R534), with the throttle's limit on the clock point, why it stands (R526), and alternate issue (grove compute
domains). -/
structure Pd where
  mode     : BitVec 2 := 0
  st       : BitVec 3 := 0
  pending  : Bool := false
  point    : BitVec 2 := 0
  volt     : BitVec 12 := 0
  temp     : BitVec 8 := 0
  cause    : BitVec 4 := 0
  margin   : BitVec 16 := 0
  endDays  : BitVec 16 := 0xFFFF
  limit    : BitVec 2 := 0
  lowered  : BitVec 2 := 0
  byTemp   : Bool := false
  byPower  : Bool := false
  alt      : Bool := false
  issueOff : Bool := false
  deriving DecidableEq, Repr

/-- Weathervane and the throttle beside the domains: WV_CAP (R535), which dies a throttle condition acts on now by temperature
and by power, which of them are at the severe level, and since when every die has been cool. -/
structure Wv where
  cap       : BitVec 32 := 0
  condTemp  : BitVec 16 := 0
  condPower : BitVec 16 := 0
  severe    : BitVec 16 := 0
  coolSince : Option (BitVec 64) := none
  loweredAt : BitVec 64 := 0
  deriving DecidableEq, Repr

/-- An open record of the error collector (R495). -/
structure EOpen where
  key     : ErrKey
  cls     : ErrClass
  time    : BitVec 64
  witness : Nat
  acc     : BitVec 64
  deriving DecidableEq, Repr

/-- A targeted self-test (R493), with the SEQ of its FIRST record once that is queued, its witnesses and late reports (R497), and its
outcome where it has ended before the record closed. -/
structure ETest where
  key   : ErrKey
  cls   : ErrClass
  time  : BitVec 64
  first : Option Nat := none
  witness : Nat := 0
  late  : Nat := 0
  acc   : BitVec 64
  ended : Option Byte := none
  deriving DecidableEq, Repr

/-- A record of the collector, as R497 lays it out. -/
structure ERec where
  seq     : Nat
  time    : BitVec 64
  kind    : Byte
  cls     : ErrClass
  outcome : Byte
  key     : ErrKey
  witness : Nat
  late    : Nat
  acc     : BitVec 64
  link    : Nat
  deriving DecidableEq, Repr

/-- The error collector (R494 to R497): its registers, open records, running tests, records held, the next record number and the
times of passed tests. -/
structure Errs where
  enable  : Bool := false
  size    : BitVec 4 := 6
  vector  : BitVec 8 := 0
  lost    : Bool := false
  base    : BitVec 52 := 0
  head    : BitVec 32 := 0
  tail    : BitVec 32 := 0
  opened  : List EOpen := []
  tests   : List ETest := []
  heldRec : List ERec := []
  nextSeq : Nat := 0
  passes  : List (ErrKey × BitVec 64) := []
  deriving DecidableEq, Repr

/-- A half sequencer (R503 to R506): its epoch, the time of its lease's grant, whether its glades have stopped for a lapse, the
successive stale acknowledgements, whether the hub withholds its lease, and commands that lost a write. -/
structure Half where
  epoch    : BitVec 64 := 0
  lease    : Option (BitVec 64) := none
  stopped  : Bool := false
  stale    : Nat := 0
  withheld : Bool := false
  lostCmds : List (BitVec 64) := []
  deriving DecidableEq, Repr

/-- A session (R440 to R442): role, tenant slot, identifier, its keys, CIV, the last request SEQ, and the egress IV's prefix and
counter (R445). -/
structure Session where
  role   : Nat
  tenant : Nat
  sid    : BitVec 64
  upKey  : Digest
  egrKey : Digest
  reqKey : Digest
  rspKey : Digest
  civ    : Bytes
  seq    : BitVec 64
  iv     : Bytes
  ivCnt  : BitVec 64
  deriving DecidableEq, Repr

/-- An ephemeral key held for a report (R441): the report's nonce and digest, its time, and the key's number. -/
structure Eph where
  nonce  : Bytes
  report : Bytes
  time   : BitVec 64
  num    : Nat
  deriving DecidableEq, Repr

/-- Ranger: the mailbox registers (R430, R431), the device state's UPDATING part and running values (R432), ephemeral keys and
sessions (R441 to R443), random requests since the last reseed (R414), the alias key's private scalar (0: none) and the device's
certificate chain (R415, R417). -/
structure Ranger where
  mbAddr   : BitVec 49 := 0
  mbVector : BitVec 8 := 0
  busy     : Bool := false
  done     : Bool := false
  result   : BitVec 8 := 0
  respLen  : BitVec 16 := 0
  seq      : BitVec 32 := 0
  updating : Bool := false
  runSvn   : BitVec 7 := 0
  bank     : Bool := false
  ephs     : List Eph := []
  sessions : List Session := []
  drbg     : Nat := 0
  aliasKey : Nat := 0
  chain    : Bytes := []
  ownA     : Option Digest := none
  ownB     : Option Digest := none
  deriving DecidableEq, Repr

/-- The TDI's state (R454). -/
inductive TdiSt where
  | unlocked | locked | run | error
  deriving DecidableEq, Repr

/-- An SPDM session (R453): its identifier, whether FINISH has established it, the keys of its two directions, and the records it has sent. -/
structure SpdmSes where
  sid    : BitVec 32
  est    : Bool := false
  reqKey : Bytes := []
  rspKey : Bytes := []
  sent   : BitVec 64 := 0
  deriving DecidableEq, Repr

/-- SPDM sessions, CXL IDE keys by stream, and the TDI with its start nonce (R453, R454); `relock` says that it has been in ERROR and has not
been locked since. -/
structure Spdm where
  sessions : List SpdmSes := []
  ide      : Tab Digest := []
  tdi      : TdiSt := .unlocked
  nonce    : Digest := 0
  relock   : Bool := false
  deriving DecidableEq, Repr

/-- What a pair's keys of an epoch come from (R348): the ECDH secret, the initiator's and the responder's nonce. -/
structure PairSec where
  z  : Bytes := []
  ni : BitVec 256 := 0
  nr : BitVec 256 := 0
  deriving DecidableEq, Repr

/-- A device pair (R347 to R352): peer address, whether it is up, whether an exchange is running, the epoch, whether the earlier
epoch's key is still held and since when, the ports that delivered under the new key, the peer's latest binding, the next PCTR by
port and channel, the last PCTR accepted by epoch parity, port and channel, the time of last use; the secrets of the epoch and of the
earlier one, whether this device began the exchange, and its ephemeral key's number and nonce in an exchange that runs. -/
structure Pair where
  addr     : BitVec 16
  up       : Bool := false
  exchange : Bool := true
  epoch    : Nat := 0
  oldKey   : Bool := false
  rekeyAt  : BitVec 64 := 0
  newPorts : BitVec 32 := 0
  bind     : Option Binding := none
  tx       : Tab (BitVec 32) := []
  rx       : Tab (BitVec 32) := []
  lastUse  : BitVec 64 := 0
  sec      : PairSec := {}
  oldSec   : PairSec := {}
  init     : Bool := true
  eph      : Nat := 0
  nonce    : BitVec 256 := 0
  deriving DecidableEq, Repr

/-- How far an outgoing transfer is (R356, R364 to R369). -/
inductive XferSt where
  | waiting | sent | queried | preempted | resend
  deriving DecidableEq, Repr

/-- An outgoing transfer: number, issuing command, issuing glade (none: the host), descriptor, seed, owner tag, port and tag held,
state, queries sent, the time of the last event, since when target-pre-empted answers refuse it, the cell to go on from, the old
tag to name, the step word read at its issue (R357), the read cells received, and whether it has found no free tag (R220). -/
structure Xfer where
  id        : Nat
  acc       : BitVec 64
  glade     : Option Nat
  desc      : Bytes
  seed      : BitVec 64
  owner     : Tag := 0x1000
  port      : Nat := 0
  tag       : BitVec 13 := 0
  st        : XferSt := .waiting
  queries   : Nat := 0
  since     : BitVec 64 := 0
  preSince  : Option (BitVec 64) := none
  start     : BitVec 19 := 1
  oldTag    : Option (BitVec 13) := none
  stepWord  : BitVec 64 := 0
  rxLast    : BitVec 19 := 0
  waitsTag  : Bool := false
  deriving DecidableEq, Repr

/-- How far an incoming transfer is (R366): open, closed after 1 ms without a cell or a refusal, cancelled (R329), or complete. -/
inductive InSt where
  | opened | closed | cancelled | complete
  deriving DecidableEq, Repr

/-- An incoming transfer's record (R366): source, tag, head, last cell applied, whether its writes are dropped (frozen target, with
the job's STRICT), whether a gap has been answered, its state, and the time of its last cell. -/
structure InRec where
  src     : BitVec 16
  tag     : BitVec 13
  head    : Head
  last    : BitVec 19
  frozen  : Bool := false
  strict  : Bool := false
  lost    : Bool := false
  st      : InSt := .opened
  time    : BitVec 64 := 0
  deriving DecidableEq, Repr

/-- The fabric side of the device: pairs, outgoing transfers and their next number, incoming records, and source and tag pairs
whose later cells are discarded (R370). -/
structure Fab where
  pairs  : List Pair := []
  xfers  : List Xfer := []
  nextId : Nat := 0
  recs   : List InRec := []
  dead   : List (BitVec 16 × BitVec 13) := []
  deriving DecidableEq, Repr

/-- A segment-table entry (R201); an absent entry is VALID 0. -/
structure Seg where
  base   : BitVec 48 := 0
  owner  : Tag := 0
  access : BitVec 2 := 0
  valid  : Bool := false
  len    : BitVec 48 := 0
  dom    : BitVec 3 := 0
  enc    : Bool := false
  vsrc   : BitVec 2 := 0
  home   : BitVec 2 := 0
  rowlog : BitVec 4 := 0
  vbase  : BitVec 48 := 0
  deriving DecidableEq, Repr

/-- A program slot's image and digest (R121, R123). -/
structure Prog where
  image  : Mem := []
  size   : Nat := 0
  digest : Digest := 0
  deriving DecidableEq, Repr

/-- An entry of the base expert table, from the base directory (R391). -/
structure BaseEnt where
  layer  : Nat
  proj   : Nat
  expert : Nat
  offset : Nat
  deriving DecidableEq, Repr

/-- A base tag's generation (R260 to R262, R391, R441): generation number, loaded, CURRENT, plaintext digest, base-owner digest
recorded, base expert table, and where its copies lie. -/
structure BaseGen where
  num     : BitVec 32 := 0
  loaded  : Bool := false
  current : Bool := false
  digest  : Digest := 0
  owner   : Option Digest := none
  table   : List BaseEnt := []
  nat     : BitVec 48 := 0
  trn     : BitVec 48 := 0
  nlen    : Nat := 0
  keyOwn  : Digest := 0
  deriving DecidableEq, Repr

/-- State of a tenant slot (R237). -/
inductive TenSt where
  | free | bound | revoking
  deriving DecidableEq, Repr

/-- A tenant slot record (R237), with the acceptance number of its revocation (R239), its egress policy and checkpoint key (R451,
R452). EXPERTS and PARKED are counts of the slot table and of the sequences. -/
structure Tenant where
  st      : TenSt := .free
  digest  : Digest := 0
  dom     : BitVec 3 := 0
  resCap  : BitVec 16 := 0
  revAcc  : BitVec 64 := 0
  policy  : Bytes := []
  ckpt    : Option Digest := none
  ckptIv  : Bytes := []
  ckptCnt : BitVec 64 := 0
  deriving DecidableEq, Repr

/-- State of a private-expert slot (R240). -/
inductive SlotSt where
  | free | loading | ready | releasing
  deriving DecidableEq, Repr

/-- Residency of a serving copy (R250). -/
inductive Res where
  | home | fetching | cached | hot
  deriving DecidableEq, Repr

/-- The seal of a stored line (R418 to R421): the owner tag and version that its integrity tag covers, and the HKDF info string of the
owner's memory key (R415). -/
structure Seal where
  owner : Tag
  key   : Bytes
  ver   : BitVec 32
  deriving DecidableEq, Repr

/-- A private-expert slot (R240), with the copy held in the pool or Canopy and the seal of its lines (R252), the steps that last dispatched it (R253), a refetch
already made (R255), the plaintext of a load waiting for its switch (R247), the generation a fill started at, the residency a command has asked for, and the command that releases it. -/
structure Slot where
  st       : SlotSt := .free
  owner    : BitVec 12 := 0
  layer    : BitVec 8 := 0
  width    : BitVec 6 := 0
  blk      : BitVec 2 := 0
  tcopy    : Bool := false
  gen      : BitVec 32 := 0
  home     : BitVec 48 := 0
  res      : Res := .home
  pin      : BitVec 2 := 0
  use      : BitVec 16 := 0
  digest   : Digest := 0
  copy     : Mem := []
  copySeal : Option Seal := none
  lastStep : Nat := 0
  prevStep : Nat := 0
  refetch  : Bool := false
  staged   : Bytes := []
  fillGen  : BitVec 32 := 0
  want     : Res := .home
  relAcc   : BitVec 64 := 0
  size     : Nat := 0
  deriving DecidableEq, Repr

/-- A domain (R208, R209, R251, R308): quads, ways, valid, adapter and KV pools in GiB, and free pages (R316). -/
structure Dom where
  quads  : BitVec 8 := 0
  cways  : BitVec 16 := 0
  tways  : BitVec 16 := 0
  valid  : Bool := false
  apool  : BitVec 8 := 0
  kvpool : BitVec 8 := 0
  free   : Nat := 0
  deriving DecidableEq, Repr

/-- A stream (R318, R322, R325): its settings, the monitor's means and deviations, its counts and its last release. -/
structure Stream where
  enabled  : Bool := false
  main     : Byte := 0
  fallback : Byte := 0
  tenant   : BitVec 12 := 0
  k        : BitVec 8 := 0
  period   : BitVec 32 := 0
  deadline : BitVec 32 := 0
  initMain : BitVec 32 := 0
  initFb   : BitVec 32 := 0
  glades   : BitVec 128 := 0
  eMain    : Int := 0
  dMain    : Int := 0
  eFb      : Int := 0
  dFb      : Int := 0
  falls    : BitVec 32 := 0
  lates    : BitVec 32 := 0
  lastRel  : Option (BitVec 64) := none
  deriving DecidableEq, Repr

/-- State of a sequence (R312). -/
inductive SeqSt where
  | queued | parked | running | spilled
  deriving DecidableEq, Repr

/-- A sequence admitted by ADMIT (R309, R312): tokens in the cache, tokens generated, pages held, when it parked and with which
limit, bytes of OUT used, whether it ended or was retired and with which status. -/
structure Sequence where
  acc     : BitVec 64
  tenant  : Nat
  st      : SeqSt := .queued
  prompt  : Bytes
  plen    : Nat
  maxNew  : Nat
  pos     : Nat := 0
  tokens  : Nat := 0
  pages   : Nat := 0
  parkAt  : BitVec 64 := 0
  limit   : BitVec 16 := 0
  out     : BitVec 64
  outLen  : Nat
  outUsed : Nat := 0
  spill   : BitVec 48
  user    : BitVec 64
  ended   : Option Byte := none
  inStep  : Nat := 0
  fresh   : Bool := false
  deriving DecidableEq, Repr

/-- A staged contribution of an ordered reduction (R178): glade, command, target tile, seed, rounding counter, and its rows in W32,
each with the tags of its data for the target's lines (none where they do not join). -/
structure RedPart where
  glade : Nat
  acc   : BitVec 64
  td    : Td
  seed  : BitVec 64
  rcnt  : BitVec 25
  rows  : List (List (BitVec 32) × List (Option Tag))
  deriving DecidableEq, Repr

/-- An open reduction (R178): target base address, contributions asked for, ordered mode, meeting counter (0: none), contributions
made, those staged, and the glades of those already added or dropped. -/
structure Red where
  base    : BitVec 48
  n       : Nat
  ordered : Bool
  counter : BitVec 64 := 0
  count   : Nat := 0
  parts   : List RedPart := []
  done    : List Nat := []
  deriving DecidableEq, Repr

/-- A job (R300 to R303): its parameter block, tables and bindings, the progress of its serving step, and when its last glade stopped for
a pre-emption (R327). -/
structure Job where
  id         : BitVec 32
  st         : BitVec 3 := 2
  pblock     : Bytes
  preempt    : Bool := false
  strict     : Bool := false
  fixed      : Bool := false
  waySize    : Nat := 0
  stepSlot   : Byte := 0
  exclog     : Nat := 8
  managed    : List Nat := []
  meetMs     : Nat := 1000
  drainUs    : Nat := 200
  stepRows   : Nat := 1
  chunk      : Nat := 1
  pageKib    : Nat := 0
  periodUs   : Nat := 0
  excBase    : BitVec 48 := 0
  fcast      : BitVec 48 := 0
  rowTab     : BitVec 48 := 0
  saveHome   : BitVec 48 := 0
  stepGlades : BitVec 128 := 0
  rings      : BitVec 256 := 0
  egr        : BitVec 40 := 0
  nonce      : Digest := 0
  saveCount  : Nat := 0
  segs       : Tab Seg := []
  progs      : Tab Prog := []
  baseA      : BaseGen := {}
  baseB      : BaseGen := {}
  tenants    : Tab Tenant := []
  slots      : Tab Slot := []
  doms       : Tab Dom := []
  streams    : Tab Stream := []
  seqs       : List Sequence := []
  reds       : List Red := []
  excNext    : Nat := 0
  boundary   : Nat := 0
  stepping   : Bool := false
  stepReady  : Bool := false
  stepStart  : Option (BitVec 64) := none
  stepFaults : Tab Byte := []
  restAt     : BitVec 64 := 0
  deriving DecidableEq, Repr

/-- A saved job (R328): the job, its glades, the Canopy's bytes, tags and poisoned lines, its remote transfers, its counters
(HUB_EXC_CNT_n, HUB_FROZEN_DROP, TIMEOUTS and FULL of HUB_PARK), its Ranger sessions (R443), the time it was saved, whether the
image lies in the save area, the cache region's lines with the seals of its window lines, whether a fenced channel lost part of it (R500), and whether somebody has written into its SAVE_HOME range
(R304, R423). -/
structure Saved where
  job    : Job
  glades : Tab Glade
  mem    : Mem
  tags   : Tab Tag
  poison : List Nat
  xfers  : List Xfer
  exc    : Tab (BitVec 64) := []
  drops  : BitVec 64 := 0
  parkTo : BitVec 16 := 0
  parkFu : BitVec 16 := 0
  sess   : List Session := []
  time   : BitVec 64 := 0
  inArea : Bool
  lost   : Bool := false
  spoiled : Bool := false
  ccache : List CLine := []
  seals  : Tab (Option Seal) := []
  deriving DecidableEq, Repr

/-- What the device asks of the CXL link besides its records: a back-invalidate snoop of a staging line (R376), a write of a window line by
CXL.cache or by Unordered I/O at a host address (R197, R212). -/
inductive LinkReq where
  | snoop (line : Nat)
  | cache (addr : Nat)
  | uio (addr : Nat)
  deriving DecidableEq, Repr

/-- What the block sends out. -/
inductive Out where
  | msix (vector : Byte)
  | cell (port : Nat) (c : Cell)
  | link (port : Nat) (b : Bytes)
  | loopback (c : Cell)
  | retry
  | configDone
  | readData (b : Bytes)
  | poisoned
  | fru (b : Bytes)
  | telemetry (b : Bytes)
  | spdm (code : Byte) (b : Bytes)
  | secured (sid : BitVec 32) (b : Bytes)
  deriving DecidableEq, Repr

/-- The state of the block. `pending` is the queue of waiting commands, first in first out; `free` counts the free values drawn
(log 14); `out` lists what left the device, oldest first (log 16), and `link` its requests on the CXL link. `raw` lists window lines that
the host has changed since the device last wrote them; `ccache` holds the lines of the Canopy cache region and `kcache` the expanded keys
of each die's key cache (R455), the last used first; `domShow` is what the domain registers show (R209, R256, R316). -/
structure State where
  pins    : Pins := {}
  boot    : Boot := {}
  rst     : Resets := {}
  flash   : Flash := {}
  hub     : Hub := {}
  fences  : Fences := {}
  sels    : Sels := {}
  msix    : Mem := []
  pba     : BitVec 256 := 0
  rings   : Tab Ring := []
  cmds    : List Cmd := []
  glades  : Tab Glade := []
  chans   : Tab Chan := []
  ports   : Tab Port := []
  pds     : Tab Pd := []
  wv      : Wv := {}
  errs    : Errs := {}
  epoch   : BitVec 64 := 0
  halves  : Tab Half := []
  rgr     : Ranger := {}
  spdm    : Spdm := {}
  fab     : Fab := {}
  credits : Tab Nat := []
  job     : Option Job := none
  saved   : List Saved := []
  mem     : Mem := []
  tags    : Tab Tag := []
  seals   : Tab (Option Seal) := []
  poison  : List Nat := []
  raw     : List Nat := []
  kcache  : Tab (List Bytes) := []
  link    : List LinkReq := []
  domShow : Tab Dom := []
  ccache  : List CLine := []
  host    : Mem := []
  out     : List Out := []
  free    : Nat := 0
  pending : List Instr := []
  deriving DecidableEq, Repr

/-- The state after a cold reset, before PERST_N is deasserted: every field at its default (log 3, log 4). -/
def State.reset : State := {}

end Sys2Proof.Machine
end

