-- ==== Sys2Proof/Machine/Bits.lean ====
section
/-! DEFINITION. Bit fields, byte order, sparse tables and sparse memories: the helpers every other file of the machine uses. -/

namespace Sys2Proof.Machine

/-- The entry of a sparse table, `d` where none is listed. -/
def tget {α : Type} (d : α) : Tab α → Nat → α
  | [], _ => d
  | e :: r, k => if e.1 = k then e.2 else tget d r k

/-- Remove a key. -/
def tdel {α : Type} (t : Tab α) (k : Nat) : Tab α := t.filter (fun e => e.1 ≠ k)

/-- Insert an entry at its place, before the first greater key. -/
def tins {α : Type} : Tab α → Nat → α → Tab α
  | [], k, v => [(k, v)]
  | e :: r, k, v => if k < e.1 then (k, v) :: e :: r else e :: tins r k v

/-- Write an entry; writing the default removes it, so that equal tables are equal lists. -/
def tset {α : Type} [DecidableEq α] (d : α) (t : Tab α) (k : Nat) (v : α) : Tab α :=
  if v = d then tdel t k else tins (tdel t k) k v

/-- Keys strictly rising and no entry at the default. -/
def twf {α : Type} [DecidableEq α] (d : α) : Tab α → Bool
  | [] => true
  | e :: r => decide (e.2 ≠ d) && r.all (fun f => decide (e.1 < f.1)) && twf d r

/-- The canonical form of a memory. -/
def Memory.wf (m : Mem) : Bool := twf 0 m

/-- Read one byte of a memory. -/
def rd1 (m : Mem) (a : Nat) : Byte := tget 0 m a

/-- Write one byte of a memory. -/
def wr1 (m : Mem) (a : Nat) (b : Byte) : Mem := tset 0 m a b

/-- Read `n` bytes from address `a` upward. -/
def rdBytes (m : Mem) (a n : Nat) : Bytes := (List.range n).map (fun i => rd1 m (a + i))

/-- Write bytes from address `a` upward. -/
def wrBytes (m : Mem) (a : Nat) : Bytes → Mem
  | [] => m
  | b :: r => wrBytes (wr1 m a b) (a + 1) r

/-- Drop every byte from address `a` up to `a + n - 1`. -/
def clearRange (m : Mem) (a n : Nat) : Mem := m.filter (fun c => c.1 < a || a + n ≤ c.1)

/-- Drop a table's keys from `a` up to `a + n - 1`. -/
def tclear {α : Type} (t : Tab α) (a n : Nat) : Tab α := t.filter (fun c => c.1 < a || a + n ≤ c.1)

/-- Little-endian value of a byte string (R6). -/
def leNat : Bytes → Nat
  | [] => 0
  | b :: r => b.toNat + 256 * leNat r

/-- `k` little-endian bytes of a number (R6). -/
def natLe (n : Nat) : Nat → Bytes
  | 0 => []
  | k + 1 => BitVec.ofNat 8 n :: natLe (n / 256) k

/-- Bytes of a bit vector, little-endian. -/
def bvLe {w : Nat} (v : BitVec w) (k : Nat) : Bytes := natLe v.toNat k

/-- The `n`-byte little-endian field at byte `off` of a structure. -/
def fieldLe (b : Bytes) (off n : Nat) : Nat := leNat ((b.drop off).take n)

/-- The same field as a bit vector. -/
def fieldBv (b : Bytes) (off n w : Nat) : BitVec w := BitVec.ofNat w (fieldLe b off n)

/-- Bit `i` of byte `off`. -/
def flagAt (b : Bytes) (off i : Nat) : Bool := (b.getD off 0).getLsbD i

/-- Bits [lo + len - 1 : lo] of a number. -/
def bitsOf (n lo len : Nat) : Nat := (n >>> lo) % 2 ^ len

/-- A byte string of `n` zeros. -/
def zeros (n : Nat) : Bytes := List.replicate n 0

/-- All bytes from `off` for `n` are 0. -/
def zeroAt (b : Bytes) (off n : Nat) : Bool := ((b.drop off).take n).all (fun x => x = 0)

/-- Pad or cut to exactly `n` bytes. -/
def padTo (b : Bytes) (n : Nat) : Bytes := (b ++ zeros n).take n

/-- A saturating increment of a `w`-bit count by `n`. -/
def satAdd {w : Nat} (x : BitVec w) (n : Nat) : BitVec w :=
  if 2 ^ w ≤ x.toNat + n then BitVec.ofNat w (2 ^ w - 1) else BitVec.ofNat w (x.toNat + n)

/-- A Boolean as one bit. -/
def bit (b : Bool) : BitVec 1 := if b then 1 else 0

/-- The set bits of a number below `n`, ascending. -/
def bitsSet (v n : Nat) : List Nat := (List.range n).filter (fun i => v.testBit i)

/-- Round up to a multiple of `k`. -/
def alignUp (n k : Nat) : Nat := (n + k - 1) / k * k

/-- Ceiling of a quotient. -/
def ceilDiv (n k : Nat) : Nat := (n + k - 1) / k

/-- The ASCII bytes of a string, for the info strings of chapter "Security and attestation". -/
def ascii (s : String) : Bytes := s.toList.map (fun c => BitVec.ofNat 8 c.toNat)

/-- CRC-32 of IEEE 802.3, reflected, over one byte and over a byte string (R340). -/
def crcByte (c : Nat) (b : Byte) : Nat :=
  (List.range 8).foldl (fun c _ => if c % 2 = 1 then Nat.xor (c / 2) 0xEDB88320 else c / 2) (Nat.xor c b.toNat)
def crc32 (b : Bytes) : Nat := Nat.xor (b.foldl crcByte 0xFFFFFFFF) 0xFFFFFFFF

/-- The last element before which a predicate first fails, as a count. -/
def countWhile {α : Type} (p : α → Bool) : List α → Nat
  | [] => 0
  | x :: r => if p x then countWhile p r + 1 else 0

end Sys2Proof.Machine
end

