-- ==== Sys2Proof/Machine/Formats.lean ====
section
/-! DEFINITION. The eight number formats (R32 to R62): decoding to exact values, W32 arithmetic, conversions and block scales. -/

namespace Sys2Proof.Machine

/-- An exact value: NaN, a signed infinity, or (−1)^neg × m × 2^e. A zero has `m = 0` and keeps its sign (R34). -/
inductive Val where
  | nan
  | inf (neg : Bool)
  | fin (neg : Bool) (m : Nat) (e : Int)
  deriving DecidableEq, Repr

/-- A sign–exponent–fraction format (R32): exponent bits, fraction bits, bias, and whether the all-ones exponent is reserved (R33). -/
structure FFmt where
  eb      : Nat
  fb      : Nat
  bias    : Int
  special : Bool
  deriving DecidableEq, Repr

def fM8  : FFmt := ⟨4, 3, 8, false⟩
def fG8  : FFmt := ⟨5, 2, 16, true⟩
def fM12 : FFmt := ⟨5, 6, 15, true⟩
def fM16 : FFmt := ⟨6, 9, 31, true⟩
def fW24 : FFmt := ⟨8, 15, 127, true⟩
def fW32 : FFmt := ⟨9, 22, 255, true⟩

/-- Width in bits. -/
def fWidth (f : FFmt) : Nat := 1 + f.eb + f.fb

/-- Decode a code (R33). -/
def fDecode (f : FFmt) (c : Nat) : Val :=
  let neg := c.testBit (f.eb + f.fb)
  let ex := (c >>> f.fb) % 2 ^ f.eb
  let fr := c % 2 ^ f.fb
  if ex = 0 then .fin neg fr (1 - f.bias - f.fb)
  else if f.special && ex = 2 ^ f.eb - 1 then (if fr = 0 then .inf neg else .nan)
  else .fin neg (2 ^ f.fb + fr) (ex - f.bias - f.fb)

/-- The exponent of the leading bit of m × 2^e, for m above 0. -/
def lead (m : Nat) (e : Int) : Int := Nat.log2 m + e

/-- The code of the largest finite magnitude (R37). -/
def fMaxCode (f : FFmt) : Nat := if f.special then (2 ^ f.eb - 1) * 2 ^ f.fb - 1 else 2 ^ (f.eb + f.fb) - 1

/-- The code of +infinity. -/
def fInfCode (f : FFmt) : Nat := (2 ^ f.eb - 1) * 2 ^ f.fb

/-- The canonical NaN (R35). -/
def fNanCode (f : FFmt) : Nat := 2 ^ (f.eb + f.fb) - 1

/-- Put a sign on a magnitude code. -/
def fSign (f : FFmt) (neg : Bool) (c : Nat) : Nat := if neg then 2 ^ (f.eb + f.fb) + c else c

/-- The magnitude codes that bracket m × 2^e, m above 0: the lower code, and the remainder and its denominator in units of the
spacing there (R36, R56). -/
def fBracket (f : FFmt) (m : Nat) (e : Int) : Nat × Nat × Nat :=
  let p := max (lead m e) (1 - f.bias)
  let d := e - (p - f.fb)
  let top := ((p + f.bias - 1).toNat) * 2 ^ f.fb
  if 0 ≤ d then (top + m * 2 ^ d.toNat, 0, 1)
  else
    let k := (-d).toNat
    (top + m / 2 ^ k, m % 2 ^ k, 2 ^ k)

/-- The magnitude code nearest to m × 2^e, ties to the even code; it may pass the largest finite code. -/
def fNearest (f : FFmt) (m : Nat) (e : Int) : Nat :=
  if m = 0 then 0
  else
    let b := fBracket f m e
    if b.2.2 < 2 * b.2.1 || (2 * b.2.1 = b.2.2 && b.1 % 2 = 1) then b.1 + 1 else b.1

/-- Compare magnitudes m1 × 2^e1 and m2 × 2^e2. -/
def magLe (m1 : Nat) (e1 : Int) (m2 : Nat) (e2 : Int) : Bool :=
  let e := min e1 e2
  m1 * 2 ^ (e1 - e).toNat ≤ m2 * 2 ^ (e2 - e).toNat

/-- Whether an exact finite magnitude is too large for a format (R58). -/
def fTooLarge (f : FFmt) (m : Nat) (e : Int) : Bool :=
  match fDecode f (fMaxCode f) with
  | .fin _ mm me => !magLe m e mm me
  | _ => false

/-- The 16 random bits of a position word (R57). -/
def randBits (x seed : BitVec 64) : Nat :=
  let z := x + seed
  let z := (z ^^^ (z >>> 30)) * 0xBF58476D1CE4E5B9
  let z := (z ^^^ (z >>> 27)) * 0x94D049BB133111EB
  let z := z ^^^ (z >>> 31)
  z.toNat % 65536

/-- The counter word of a glade's conversion (R57). -/
def gladeWord (glade n row col : Nat) : BitVec 64 :=
  BitVec.ofNat 64 (glade * 2 ^ 57 + (n % 2 ^ 25) * 2 ^ 32 + (row % 2 ^ 16) * 2 ^ 16 + col % 2 ^ 16)

/-- How a conversion rounds (R54): nearest-even, or stochastically with these 16 bits. -/
inductive Rounding where
  | nearest
  | stoch (r : Nat)
  deriving DecidableEq, Repr

/-- Exception flags of R67, as a 5-bit summary. -/
def flInvalid : BitVec 5 := 1
def flInfIn   : BitVec 5 := 2
def flNanOut  : BitVec 5 := 4
def flSat     : BitVec 5 := 8
def flVanish  : BitVec 5 := 16

/-- Convert an exact value to a stand-alone format (R54, R56, R58, R62): the code and the flags raised. -/
def fConvert (f : FFmt) (r : Rounding) (v : Val) : Nat × BitVec 5 :=
  match v with
  | .nan => (fNanCode f, flNanOut)
  | .inf neg => (fSign f neg (fInfCode f), 0)
  | .fin neg m e =>
    if m = 0 then (fSign f neg 0, 0)
    else if fTooLarge f m e then (fSign f neg (fMaxCode f), flSat)
    else
      let c := match r with
        | .nearest => fNearest f m e
        | .stoch b =>
          let k := fBracket f m e
          if k.2.1 = 0 then k.1 else if 65536 ≤ 65536 * k.2.1 / k.2.2 + b then k.1 + 1 else k.1
      (fSign f neg c, if c = 0 then flVanish else 0)

/-! ### W32 arithmetic under nearest-even (R59, R65) -/

/-- A W32 result with the flags it raised and the CAUSE of an INVALID event (R73; 0 for none). -/
structure R32 where
  v     : BitVec 32
  fl    : BitVec 5 := 0
  cause : Nat := 0
  deriving DecidableEq, Repr

def nan32 : BitVec 32 := 0x7FFFFFFF
def inf32 (neg : Bool) : BitVec 32 := if neg then 0xFFC00000 else 0x7FC00000
def one32 : BitVec 32 := 0x3FC00000
def negZero32 : BitVec 32 := 0x80000000

/-- Decode a W32 code. -/
def dec32 (c : BitVec 32) : Val := fDecode fW32 c.toNat

/-- Round an exact value to W32 (R59). -/
def rnd32 (v : Val) : R32 :=
  match v with
  | .nan => ⟨nan32, 0, 0⟩
  | .inf neg => ⟨inf32 neg, 0, 0⟩
  | .fin neg m e =>
    let c := fNearest fW32 m e
    if fInfCode fW32 ≤ c then ⟨inf32 neg, flSat, 0⟩ else ⟨BitVec.ofNat 32 (fSign fW32 neg c), 0, 0⟩

/-- Continue with a result, joining flags; the first cause stands. -/
def R32.andThen (r : R32) (k : BitVec 32 → R32) : R32 :=
  let q := k r.v
  ⟨q.v, r.fl ||| q.fl, if r.cause ≠ 0 then r.cause else q.cause⟩

/-- Flush a subnormal W32 result to signed zero (R60). -/
def flush32 (c : BitVec 32) : BitVec 32 := if c.extractLsb' 22 9 = 0 then c &&& 0x80000000 else c

/-- Whether a code is NaN, or infinite. -/
def isNan32 (c : BitVec 32) : Bool := dec32 c = .nan
def isInf32 (c : BitVec 32) : Bool := c &&& 0x7FFFFFFF = 0x7FC00000
def isNeg32 (c : BitVec 32) : Bool := c.getLsbD 31
def isZero32 (c : BitVec 32) : Bool := c &&& 0x7FFFFFFF = 0

/-- INF_IN of an operand read (R67). -/
def infIn (c : BitVec 32) : BitVec 5 := if isNan32 c || isInf32 c then flInfIn else 0

/-- An exact signed sum of two finite values; a zero sum is +0 unless both are −0 (R34). -/
def addFin (n1 : Bool) (m1 : Nat) (e1 : Int) (n2 : Bool) (m2 : Nat) (e2 : Int) : Val :=
  let e := min e1 e2
  let a : Int := (if n1 then -1 else 1) * (m1 * 2 ^ (e1 - e).toNat : Nat)
  let b : Int := (if n2 then -1 else 1) * (m2 * 2 ^ (e2 - e).toNat : Nat)
  let s := a + b
  if s = 0 then .fin (n1 && n2 && m1 = 0 && m2 = 0) 0 e else .fin (s < 0) s.natAbs e

/-- Exact sum of two values, with CAUSE 0x02 for infinity − infinity (R65, R73). -/
def addVal (x y : Val) : Val × Nat :=
  match x, y with
  | .nan, _ => (.nan, 0)
  | _, .nan => (.nan, 0)
  | .inf a, .inf b => if a = b then (.inf a, 0) else (.nan, 2)
  | .inf a, _ => (.inf a, 0)
  | _, .inf b => (.inf b, 0)
  | .fin n1 m1 e1, .fin n2 m2 e2 => (addFin n1 m1 e1 n2 m2 e2, 0)

/-- Exact product of two values, with CAUSE 0x01 for zero × infinity (R65, R73). -/
def mulVal (x y : Val) : Val × Nat :=
  match x, y with
  | .nan, _ => (.nan, 0)
  | _, .nan => (.nan, 0)
  | .inf a, .inf b => (.inf (a != b), 0)
  | .inf a, .fin b m _ => if m = 0 then (.nan, 1) else (.inf (a != b), 0)
  | .fin a m _, .inf b => if m = 0 then (.nan, 1) else (.inf (a != b), 0)
  | .fin n1 m1 e1, .fin n2 m2 e2 => (.fin (n1 != n2) (m1 * m2) (e1 + e2), 0)

/-- A rounded result from an exact value and cause. -/
def rndC (p : Val × Nat) : R32 :=
  let r := rnd32 p.1
  if p.2 = 0 then r else { r with fl := r.fl ||| flInvalid, cause := p.2 }

def negVal : Val → Val
  | .nan => .nan
  | .inf n => .inf (!n)
  | .fin n m e => .fin (!n) m e

def absVal : Val → Val
  | .nan => .nan
  | .inf _ => .inf false
  | .fin _ m e => .fin false m e

/-- W32 sum, difference, product, and product plus addend rounded once. The last is one operation of three operands: a NaN addend is an
operand that was NaN, so it raises no INVALID (R67). -/
def add32 (a b : BitVec 32) : R32 := rndC (addVal (dec32 a) (dec32 b))
def sub32 (a b : BitVec 32) : R32 := rndC (addVal (dec32 a) (negVal (dec32 b)))
def mul32 (a b : BitVec 32) : R32 := rndC (mulVal (dec32 a) (dec32 b))
def fma32 (a b c : BitVec 32) : R32 :=
  let p := mulVal (dec32 a) (dec32 b)
  let q := addVal p.1 (dec32 c)
  rndC (q.1, if isNan32 c then 0 else if p.2 ≠ 0 then p.2 else q.2)

/-- A negative NaN is made canonical; otherwise the sign is turned. -/
def neg32 (a : BitVec 32) : BitVec 32 := if isNan32 a then nan32 else a ^^^ 0x80000000
def abs32 (a : BitVec 32) : BitVec 32 := if isNan32 a then nan32 else a &&& 0x7FFFFFFF

/-- A total order key of non-NaN codes, −0 below +0 (R161). -/
def ordKey (a : BitVec 32) : Int := if isNeg32 a then -((a &&& 0x7FFFFFFF).toNat : Int) - 1 else (a.toNat : Int)

/-- Numeric comparison: +0 and −0 are equal; a NaN compares false (R34, R161). -/
def lt32 (a b : BitVec 32) : Bool :=
  if isNan32 a || isNan32 b then false else if isZero32 a && isZero32 b then false else ordKey a < ordKey b
def eq32 (a b : BitVec 32) : Bool :=
  if isNan32 a || isNan32 b then false else a = b || (isZero32 a && isZero32 b)

/-- Minimum and maximum of IEEE 754-2019 (R161). -/
def min32 (a b : BitVec 32) : BitVec 32 :=
  if isNan32 a || isNan32 b then nan32 else if ordKey a ≤ ordKey b then a else b
def max32 (a b : BitVec 32) : BitVec 32 :=
  if isNan32 a || isNan32 b then nan32 else if ordKey a ≤ ordKey b then b else a

/-- Quotient of two non-negative naturals rounded to W32, for the schedule of R276. -/
def divNat32 (a b : Nat) : BitVec 32 :=
  if b = 0 then 0
  else
    let sh := 64 + Nat.log2 b
    let q := a * 2 ^ sh / b
    let sticky := if a * 2 ^ sh % b = 0 then 0 else 1
    (rnd32 (.fin false (2 * q + sticky) (-(sh : Int) - 1))).v

/-- Quotient of two W32 values rounded to W32. -/
def div32 (a b : BitVec 32) : R32 :=
  match dec32 a, dec32 b with
  | .nan, _ => ⟨nan32, 0, 0⟩
  | _, .nan => ⟨nan32, 0, 0⟩
  | .inf _, .inf _ => ⟨nan32, flInvalid, 0⟩
  | .inf n, .fin k _ _ => ⟨inf32 (n != k), 0, 0⟩
  | .fin n _ _, .inf k => ⟨BitVec.ofNat 32 (fSign fW32 (n != k) 0), 0, 0⟩
  | .fin n m e, .fin k m' e' =>
    if m' = 0 then (if m = 0 then ⟨nan32, flInvalid, 0⟩ else ⟨inf32 (n != k), 0, 0⟩)
    else
      let sh := 64 + Nat.log2 m'
      let q := m * 2 ^ sh / m'
      let sticky := if m * 2 ^ sh % m' = 0 then 0 else 1
      if m = 0 then ⟨BitVec.ofNat 32 (fSign fW32 (n != k) 0), 0, 0⟩
      else rnd32 (.fin (n != k) (2 * q + sticky) (e - e' - sh - 1))

/-- A natural number as W32. -/
def ofNat32 (n : Nat) : BitVec 32 := (rnd32 (.fin false n 0)).v

/-! ### L4 and the element formats -/

/-- The W32 constant K, √2 rounded to nearest-even (R42). -/
def k32 : BitVec 32 := 0x3FDA827A

/-- The exact value of an L4 element as the vector unit reads it (R40, R42, R43). -/
def l4Val (c : Nat) : Val :=
  let code := c % 8
  let neg := c.testBit 3
  if code = 0 then .fin false 0 0
  else if code % 2 = 1 then .fin neg 1 (((code : Int) - 7) / 2)
  else
    match dec32 k32 with
    | .fin _ m e => .fin neg m (e + ((code : Int) - 8) / 2)
    | v => v

/-- √2 × 2^200, rounded down: enough to order L4 magnitudes against W32 values exactly. -/
def root2 : Nat := Nat.sqrt (2 * 2 ^ 400)

/-- The magnitude of L4 code c times 2^203 (R40). -/
def l4Mag (c : Nat) : Nat :=
  if c = 0 then 0
  else if c % 2 = 1 then 2 ^ (203 - (7 - c) / 2) else root2 * 2 ^ 3 / 2 ^ ((8 - c) / 2)

/-- The largest code whose magnitude is at most `x` (in units of 2^−203). -/
def l4Floor (x : Nat) : Nat := (List.range 8).foldl (fun b c => if l4Mag c ≤ x then c else b) 0

/-- Encode a finite magnitude as an L4 code (R55, R56, R58): code and flags. Values below 2^−203 fall to code 0 unless rounded up. -/
def l4Encode (r : Rounding) (neg : Bool) (m : Nat) (e : Int) : Nat × BitVec 5 :=
  if m = 0 then (0, 0)
  else if !magLe m e 1 0 then ((if neg then 8 else 0) + 7, flSat)
  else
    let x := if -203 ≤ e then m * 2 ^ (e + 203).toNat else m / 2 ^ (-(e + 203)).toNat
    let a := l4Floor x
    let c := if l4Mag a = x || a = 7 then a else
      match r with
      | .nearest =>
        let twice := 2 * x
        let mid := l4Mag a + l4Mag (a + 1)
        if mid < twice then a + 1 else if twice < mid then a else if a % 2 = 0 then a else a + 1
      | .stoch b => if 65536 ≤ 65536 * (x - l4Mag a) / (l4Mag (a + 1) - l4Mag a) + b then a + 1 else a
    (if c = 0 then 0 else (if neg then 8 else 0) + c, if c = 0 then flVanish else 0)

/-- Format codes of a tile descriptor (R129). -/
def fmtL4 : Nat := 1
def fmtM8 : Nat := 2
def fmtG8 : Nat := 3
def fmtM12 : Nat := 4
def fmtM16 : Nat := 5
def fmtW24 : Nat := 6
def fmtW32 : Nat := 7
def fmtF8 : Nat := 8

/-- A block-scaled format (R44, R45). -/
def isBlock (fmt : Nat) : Bool := fmt = 1 || fmt = 2 || fmt = 3

/-- Bits of one element (R32). -/
def fmtBits (fmt : Nat) : Nat :=
  match fmt with
  | 1 => 4 | 2 => 8 | 3 => 8 | 4 => 12 | 5 => 16 | 6 => 24 | 7 => 32 | 8 => 8 | _ => 0

/-- The sign–exponent–fraction layout of a format code. -/
def fmtF (fmt : Nat) : FFmt :=
  match fmt with
  | 2 => fM8 | 3 => fG8 | 4 => fM12 | 5 => fM16 | 6 => fW24 | _ => fW32

/-- Block size of a BLK code (R129). -/
def blkSize (code : Nat) : Nat := 16 * 2 ^ (code % 4)

/-- The element code at column `c` of a row's bytes (R32, R43, R272). -/
def elemCode (fmt : Nat) (row : Bytes) (c : Nat) : Nat :=
  let w := fmtBits fmt
  bitsOf (fieldLe row (c * w / 8) ((w + 7) / 8 + 1)) (c * w % 8) w

/-- Pack element codes into a row's bytes (R43, R272). -/
def packCodes (fmt : Nat) (codes : List Nat) : Bytes :=
  let w := fmtBits fmt
  let n := (codes.foldr (fun c acc => c % 2 ^ w + 2 ^ w * acc) 0)
  natLe n ((codes.length * w + 7) / 8)

/-- The exact value of an element under its scale byte (R39, R42, R47). -/
def elemVal (fmt code scale : Nat) : Val :=
  let base := if fmt = 1 then l4Val code else fDecode (fmtF fmt) code
  if isBlock fmt then
    if scale = 0 then .fin false 0 0
    else if scale = 255 then .nan
    else
      match base with
      | .fin n m e => .fin n m (e + scale - 127)
      | v => v
  else base

/-- The element as a W32 code, exactly (R39). -/
def elem32 (fmt code scale : Nat) : BitVec 32 := (rnd32 (elemVal fmt code scale)).v

/-- INF_IN of reading an element: infinite, NaN, or any element of a block with S = 255 (R67). -/
def elemInf (fmt code scale : Nat) : BitVec 5 :=
  match elemVal fmt code scale with
  | .fin _ _ _ => 0
  | _ => flInfIn

/-- The largest finite magnitude of a block format: 1, 240 or 28,672 (R49). -/
def emax (fmt : Nat) : Nat := if fmt = 1 then 1 else if fmt = 2 then 240 else 28672

/-- The smallest scale from 1 to 254 under which magnitude m × 2^e fits, or 254 (R49, R51). -/
def fitScale (fmt : Nat) (m : Nat) (e : Int) : Nat :=
  let s0 := lead m e - Nat.log2 (emax fmt) + 127
  let s := if magLe m e (emax fmt) (s0 - 127) then s0 else s0 + 1
  if s < 1 then 1 else if 254 < s then 254 else s.toNat

/-- The scale byte of a block of W32 source values (R49). -/
def blockScale (fmt : Nat) (src : List (BitVec 32)) : Nat :=
  let anyNan := src.any isNan32
  let anyInf := src.any isInf32
  if anyNan then 255
  else if anyInf && (fmt = 1 || fmt = 2) then 255
  else
    let a := src.foldl (fun b c => if isInf32 c then b else max b (c &&& 0x7FFFFFFF).toNat) 0
    if a = 0 then (if anyInf then 127 else 0)
    else
      match fDecode fW32 a with
      | .fin _ m e => fitScale fmt m e
      | _ => 254

/-- Encode one element of a block under its scale (R48, R52, R55, R58): code and flags. -/
def encodeElem (fmt scale : Nat) (r : Rounding) (v : BitVec 32) : Nat × BitVec 5 :=
  if scale = 0 || scale = 255 then (0, 0)
  else
    match dec32 v with
    | .fin n m e => if fmt = 1 then l4Encode r n m (e - (scale - 127)) else fConvert (fmtF fmt) r (.fin n m (e - (scale - 127)))
    | w => fConvert (fmtF fmt) r w

/-- What a conversion of a run of values writes: scale bytes, element codes, flags, vanished elements. -/
structure Enc where
  scales : List Nat := []
  codes  : List Nat := []
  fl     : BitVec 5 := 0
  vanish : Nat := 0
  deriving DecidableEq, Repr

/-- Append two encodings. -/
def encAppend (a b : Enc) : Enc := ⟨a.scales ++ b.scales, a.codes ++ b.codes, a.fl ||| b.fl, a.vanish + b.vanish⟩

/-- Encode one block whose values carry their column numbers (R49 to R53). A block written with S = 255 sets NAN_OUT (R67, R68). -/
def encodeBlock (fmt : Nat) (rnd : Nat → Rounding) (src : List (Nat × BitVec 32)) : Enc :=
  let sc := blockScale fmt (src.map (·.2))
  let es := src.map (fun p => encodeElem fmt sc (rnd p.1) p.2)
  let fl := es.foldl (fun f e => f ||| e.2) (if sc = 255 then flNanOut else 0)
  ⟨[sc], es.map (·.1), fl, (es.filter (fun e => e.2 &&& flVanish ≠ 0)).length⟩

/-- Split a list into runs of `n`; fuel is the list's length. -/
def chunksAux {α : Type} (n : Nat) : Nat → List α → List (List α)
  | 0, _ => []
  | _ + 1, [] => []
  | f + 1, l => l.take n :: chunksAux n f (l.drop n)

def chunks {α : Type} (n : Nat) (l : List α) : List (List α) := chunksAux n l.length l

/-- Number a list from 0. -/
def numbered {α : Type} (l : List α) : List (Nat × α) := (List.range l.length).zip l

/-- Encode a row of W32 values in a format (R45, R49, R54): `rnd` gives each column's rounding. Padding of a last short block
takes part as zeros and needs no code of its own. -/
def encodeRow (fmt blk : Nat) (rnd : Nat → Rounding) (src : List (BitVec 32)) : Enc :=
  if isBlock fmt then
    (chunks (blkSize blk) (numbered src)).foldl (fun acc b => encAppend acc (encodeBlock fmt rnd b)) {}
  else
    let es := (numbered src).map (fun p => fConvert (fmtF fmt) (rnd p.1) (dec32 p.2))
    ⟨[], es.map (·.1), es.foldl (fun f e => f ||| e.2) 0, (es.filter (fun e => e.2 &&& flVanish ≠ 0)).length⟩

/-! ### The remainder F8 (R44, R63) -/

/-- The exponent of ulp(w) of an M16 code (R36). -/
def ulpM16 (w : Nat) : Int := max (((w >>> 9) % 64 : Nat) : Int) 1 - 31 - 9

/-- The effective weight w + q × 2^−8 × ulp(w) (R44). An infinite or NaN weight has no remainder. -/
def effective (w : Nat) (q : BitVec 8) : Val :=
  match fDecode fM16 w with
  | .fin n m e => addFin n m e (q.toInt < 0) q.toInt.natAbs (ulpM16 w - 8)
  | v => v

/-- The new weight and remainder of an updated effective weight (R63, R64): M16 code, F8 byte, flags. A remainder that rounds to 0 is no vanished
element: it is what the weight's rounding leaves (DEDUCED, log 69). -/
def splitWeight (v : BitVec 32) : Nat × BitVec 8 × BitVec 5 :=
  let w := fConvert fM16 .nearest (dec32 v)
  match fDecode fM16 w.1, dec32 v with
  | .fin n m e, .fin n' m' e' =>
    match addFin n' m' e' (!n) m e with
    | .fin s dm de =>
      let sh := de - (ulpM16 w.1 - 8)
      let q := if 0 ≤ sh then dm * 2 ^ sh.toNat else
        let k := (-sh).toNat
        let q0 := dm / 2 ^ k
        let rem := dm % 2 ^ k
        if 2 ^ k < 2 * rem || (2 * rem = 2 ^ k && q0 % 2 = 1) then q0 + 1 else q0
      let i : Int := if s then -(q : Int) else q
      (w.1, BitVec.ofInt 8 (max (-128) (min 127 i)), w.2)
    | _ => (w.1, 0, w.2)
  | _, _ => (w.1, 0, w.2)

end Sys2Proof.Machine
end

