-- ==== Sys2Proof/Machine/Ops.lean ====
section
/-! DEFINITION. The named operations over the state: tables, commands and their completion, owner tags, segments, and every read and write of device memory. -/

namespace Sys2Proof.Machine

/-! ### Status codes (R410) -/

def stOk : Byte := 0x00
def stWarn : Byte := 0x01
def stFallback : Byte := 0x02
def stLate : Byte := 0x03
def stAlready : Byte := 0x04
def stAborted : Byte := 0x10
def stRevoked : Byte := 0x11
def stSlotOwned : Byte := 0x20
def stOwnerMix : Byte := 0x21
def stFrozen : Byte := 0x22
def stStepSkew : Byte := 0x23
def stIntegrity : Byte := 0x24
def stSegment : Byte := 0x25
def stProgram : Byte := 0x26
def stEgress : Byte := 0x27
def stNotResident : Byte := 0x28
def stPolicy : Byte := 0x29
def stDevice : Byte := 0x30

/-! ### Owner tags (R226, R228) -/

def tagPublic : Tag := 0x1000
def tagBaseA : Tag := 0x1001
def tagBaseB : Tag := 0x1002
/-- The mark, in the tag table of a glade, of a tile-buffer line or window row that holds an uncorrectable error (R492): no line carries
this reserved tag (R226). -/
def tagPoison : Tag := 0x1FFF
/-- The tag BASE_g of a generation number 0 (A) or 1 (B). -/
def tagBase (g : Nat) : Tag := if g = 0 then tagBaseA else tagBaseB
def isTenant (t : Tag) : Bool := t.toNat < 0x1000
def isBase (t : Tag) : Bool := t = tagBaseA || t = tagBaseB
def tagTenant (t : Nat) : Tag := BitVec.ofNat 13 (t % 4096)

/-- The join of two tags; none where it fails (R228). -/
def join (x y : Tag) : Option Tag :=
  if isTenant x then
    if isTenant y then (if x = y then some x else none) else some x
  else if isTenant y then some y
  else if isBase x then
    if isBase y then (if x = y then some x else none) else some x
  else if isBase y then some y
  else some tagPublic

/-- The join of a set of tags (R228): it fails on two tenants, or on both base tags and no tenant. -/
def joinAll (l : List Tag) : Option Tag :=
  match l.filter isTenant with
  | t :: r => if r.all (fun u => u = t) then some t else none
  | [] =>
    match l.filter isBase with
    | b :: r => if r.all (fun u => u = b) then some b else none
    | [] => some tagPublic

/-! ### Objects of the state -/

def ringOf (s : State) (r : Nat) : Ring := tget {} s.rings r
def setRing (s : State) (r : Nat) (v : Ring) : State := { s with rings := tset {} s.rings r v }
def gladeOf (s : State) (g : Nat) : Glade := tget {} s.glades g
def setGlade (s : State) (g : Nat) (v : Glade) : State := { s with glades := tset {} s.glades g v }
def chanOf (s : State) (c : Nat) : Chan := tget {} s.chans c
def setChan (s : State) (c : Nat) (v : Chan) : State := { s with chans := tset {} s.chans c v }
def portOf (s : State) (p : Nat) : Port := tget {} s.ports p
def setPort (s : State) (p : Nat) (v : Port) : State := { s with ports := tset {} s.ports p v }
/-- A power domain at reset: MODE 1 for domains 0 to 31, 0 for others (R534). -/
def pdInit (i : Nat) : Pd := if i < 32 then { mode := 1 } else {}
def pdOf (s : State) (i : Nat) : Pd := tget (pdInit i) s.pds i
def setPd (s : State) (i : Nat) (v : Pd) : State := { s with pds := tset (pdInit i) s.pds i v }
def halfOf (s : State) (h : Nat) : Half := tget {} s.halves h
def setHalf (s : State) (h : Nat) (v : Half) : State := { s with halves := tset {} s.halves h v }

/-- One engine of a glade, and its replacement. -/
def engOf (g : Glade) (e : Engine) : Eng := match e with | .ae => g.ae | .xe => g.xe
def setEng (g : Glade) (e : Engine) (v : Eng) : Glade := match e with | .ae => { g with ae := v } | .xe => { g with xe := v }

/-- Send something out of the device. -/
def emit (s : State) (o : Out) : State := { s with out := s.out ++ [o] }

/-- The job, or a job without segments where none is current. -/
def jobOf (s : State) : Job := s.job.getD { id := 0, pblock := [] }

/-- Whether the hub's main logic runs: power good, PERST_N deasserted, no hub fault, no stopped boot (R459, R461, R507). -/
def hubUp (s : State) : Bool := s.pins.pwrGood && !s.pins.perst && !s.hub.fault && s.boot.stage ≠ 10

/-- A unit is under a targeted self-test that holds it out of service (R493). -/
def underTest (s : State) (unit num : Nat) : Bool :=
  s.errs.tests.any (fun t => t.key.unit.val = unit && t.key.num.toNat = num && t.ended.isNone)

/-- A timed event says that its time has come: the hub-local counter, which never decreases (R523), has reached it (log 2). -/
def advanceTo (s : State) (t : Nat) : State :=
  if t ≤ s.hub.time.toNat then s else { s with hub := { s.hub with time := BitVec.ofNat 64 t } }

/-- An idle step: one hclk passes in the hub-local counter while the hub runs (R523, log 2). -/
def idle (s : State) : State :=
  if hubUp s then { s with hub := { s.hub with time := s.hub.time + 1 } } else s

/-- The next value of the random source, and the state that has drawn it (R414). -/
def nextRandom (s : State) : BitVec 256 := Config.random s.free
def drawRandom (s : State) : State := { s with free := s.free + 1, rgr := { s.rgr with drbg := s.rgr.drbg + 1 } }

/-- A byte of the MSI-X table (R536): PCIe sets each entry's mask, bit 0 of its byte 12, at reset (log 38). -/
def msixByte (s : State) (o : Nat) : Byte := rd1 s.msix o ^^^ (if o % 16 = 12 then 1 else 0)
def vectorMasked (s : State) (v : Nat) : Bool := (msixByte s (16 * v + 12)).getLsbD 0

/-- Send an MSI-X vector (R401); a masked vector becomes pending, as PCIe defines (log 38). -/
def sendVector (s : State) (v : Byte) : State :=
  if vectorMasked s v.toNat then { s with pba := s.pba ||| ((1 : BitVec 256) <<< v.toNat) } else emit s (.msix v)

/-! ### Commands -/

/-- The accepted command with an acceptance sequence number. -/
def findCmd (s : State) (acc : BitVec 64) : Option Cmd := s.cmds.find? (fun c => c.acc = acc)

/-- Change one command. -/
def updCmd (s : State) (acc : BitVec 64) (f : Cmd → Cmd) : State :=
  { s with cmds := s.cmds.map (fun c => if c.acc = acc then f c else c) }

def setJob (s : State) (j : Job) : State := { s with job := some j }

/-- The status a finished command carries (R511): a fault or check status first, then FROZEN_TARGET, the opcode's own status,
OK_WARN for a drop or a noted condition, OK. -/
def finalStatus (c : Cmd) (st : Byte) : Byte :=
  if 0x10 ≤ st.toNat then st
  else if c.strictHit then stFrozen
  else if st ≠ 0 then st
  else if c.frozen || c.warn then stWarn else stOk

/-- Finish a command: its record waits for its release (R400). -/
def finish (s : State) (acc : BitVec 64) (st : Byte) : State :=
  updCmd s acc (fun c => if c.ph = .done then c else { c with ph := .done, status := finalStatus c st })

/-- Finish a command with the bytes of its RESULT field (R398). -/
def finishWith (s : State) (acc : BitVec 64) (st : Byte) (res : Bytes) : State :=
  finish (updCmd s acc (fun c => if c.ph = .done then c else { c with result := res })) acc st

/-- A write aimed at a frozen segment is dropped and counted once for the command's instruction (R509). -/
def noteFrozen (s : State) (acc : BitVec 64) (strict : Bool) : State :=
  updCmd { s with hub := { s.hub with frozenDrop := satAdd s.hub.frozenDrop 1 } } acc
    (fun c => { c with frozen := true, strictHit := c.strictHit || strict })

/-- Operand byte `b` of a descriptor is descriptor byte 8 + b (R388). -/
def opN (c : Cmd) (off n : Nat) : Nat := fieldLe c.desc (8 + off) n
def opB (c : Cmd) (off n w : Nat) : BitVec w := BitVec.ofNat w (opN c off n)
def opcOf (c : Cmd) : Byte := c.desc.getD 0 0
def hdrFlag (c : Cmd) (i : Nat) : Bool := flagAt c.desc 1 i
/-- The tenant slot in a descriptor's header (R388). -/
def hdrTenant (c : Cmd) : Nat := fieldLe c.desc 2 2 % 4096

/-- A command that counts as accepted and uncompleted. -/
def live (c : Cmd) : Bool := c.ph ≠ .done

/-- Every command accepted before `acc`, on any ring, has completed (R207, R247, R262). -/
def earlierDone (s : State) (acc : BitVec 64) (jobId : BitVec 32) : Bool :=
  s.cmds.all (fun c => !(c.acc.toNat < acc.toNat && c.job = jobId && c.ring ≠ 0) || c.ph = .done)

/-! ### Tables of the job -/

def segOf (j : Job) (i : Nat) : Seg := tget {} j.segs i
def progOf (j : Job) (i : Nat) : Prog := tget {} j.progs i
def tenOf (j : Job) (t : Nat) : Tenant := tget {} j.tenants t
def setTen (j : Job) (t : Nat) (v : Tenant) : Job := { j with tenants := tset {} j.tenants t v }
def slotOf (j : Job) (i : Nat) : Slot := tget {} j.slots i
def setSlot (j : Job) (i : Nat) (v : Slot) : Job := { j with slots := tset {} j.slots i v }
def domOf (j : Job) (d : Nat) : Dom := tget {} j.doms d
def setDom (j : Job) (d : Nat) (v : Dom) : Job := { j with doms := tset {} j.doms d v }
def streamOf (j : Job) (i : Nat) : Stream := tget {} j.streams i
def setStream (j : Job) (i : Nat) (v : Stream) : Job := { j with streams := tset {} j.streams i v }
def baseOf (j : Job) (g : Nat) : BaseGen := if g = 0 then j.baseA else j.baseB
def setBase (j : Job) (g : Nat) (v : BaseGen) : Job := if g = 0 then { j with baseA := v } else { j with baseB := v }

/-- Bound in the sense of R237. -/
def isBound (j : Job) (t : Nat) : Bool := (tenOf j t).st = .bound

/-- A tenant that a command of an acceptance number may still use: BOUND, or REVOKING since later (R239, R508). -/
def tenantServes (j : Job) (t : Nat) (acc : BitVec 64) : Bool :=
  (tenOf j t).st = .bound || ((tenOf j t).st = .revoking && acc.toNat < (tenOf j t).revAcc.toNat)

/-- Private-expert slots a tenant owns: every slot not FREE that names it (R237, R243). -/
def slotsOwned (j : Job) (t : Nat) : List (Nat × Slot) :=
  j.slots.filter (fun e => e.2.st ≠ .free && e.2.owner.toNat = t)

/-- The acceptance number that marks glades running the serving step, which no command has (log 28). -/
def stepAcc : BitVec 64 := BitVec.ofNat 64 (2 ^ 64 - 1)

/-- The acceptance number that counts for a tenant's slots: a command's own, and in a serving step that of the tenant's first request in
it. -/
def servesFor (j : Job) (acc : BitVec 64) (t : Nat) : Nat :=
  if acc = stepAcc then ((j.seqs.filter (fun q => q.inStep ≠ 0 && q.tenant = t)).map (·.acc.toNat)).foldl min stepAcc.toNat else acc.toNat

/-- A slot that is READY for a command: one being released stays READY for commands accepted before the release (R248). -/
def readyFor (j : Job) (acc : BitVec 64) (v : Slot) : Bool :=
  v.st = .ready || (v.st = .releasing && servesFor j acc v.owner.toNat < v.relAcc.toNat)

/-- READY slots of a tenant in a layer, ascending (R248, R249). -/
def readySlots (j : Job) (acc : BitVec 64) (t layer : Nat) : List (Nat × Slot) :=
  (slotsOwned j t).filter (fun e => readyFor j acc e.2 && e.2.layer.toNat = layer)

/-- Every private expert of a tenant that is READY for a command is resident (R250, R257). -/
def expertsResident (j : Job) (acc : BitVec 64) (t : Nat) : Bool :=
  (slotsOwned j t).all (fun e => !readyFor j acc e.2 || e.2.res = .cached || e.2.res = .hot)

/-! ### Device addresses (R184, R186, R187, R191, R193) -/

def gib : Nat := 2 ^ 30
def quadSize : Nat := 0x5A0000000
def canopyBase : Nat := 0x4000000000
def canopySlice : Nat := 0x50000000
def cxlBase : Nat := 0x8000000000
def cxlTag : Nat := 0xFC00000000

def isGddr (a : Nat) : Bool := a < 8 * quadSize
def isCanopy (a : Nat) : Bool := canopyBase ≤ a && a < canopyBase + 4 * canopySlice
def isCxl (a : Nat) : Bool := cxlBase ≤ a && a < cxlBase + 512 * gib
def quadOf (a : Nat) : Nat := a / quadSize
def lineOf (a : Nat) : Nat := a / 256

/-- The channels of a quad that the mapping in force uses, ascending (R187, R191). -/
def quadChans (s : State) (q : Nat) : List Nat :=
  (List.range 4).filterMap (fun i => if s.fences.unmapped.getLsbD (4 * q + i) then none else some (4 * q + i))

/-- The channel that holds a GDDR7 address (R187). -/
def chanAt (s : State) (a : Nat) : Nat :=
  let q := quadOf a
  let l := (a - q * quadSize) / 256
  let cs := quadChans s q
  let j := if cs.length = 4 then (Nat.xor (Nat.xor l (l / 4)) (l / 16)) % 4 else if cs.length = 0 then 0 else l % cs.length
  cs.getD j (4 * q)

/-- Size of the backed part of a quad: 5.625 GiB for each channel of the mapping (R191); a fenced canopy die's quads are out of service
(R499). -/
def backedSize (s : State) (q : Nat) : Nat :=
  if s.fences.canopy.getLsbD (q / 2) then 0 else (quadChans s q).length * (quadSize / 4)

/-- An address in the backed part of its quad. -/
def backed (s : State) (a : Nat) : Bool := a - quadOf a * quadSize < backedSize s (quadOf a)

/-- An address inside the job's managed region (R193). -/
def inManaged (j : Job) (a : Nat) : Bool :=
  isCanopy a && (a - canopyBase) % canopySlice < j.managed.getD ((a - canopyBase) / canopySlice) 0 * 2 ^ 26

/-- The canopy die of a Canopy address. -/
def sliceOf (a : Nat) : Nat := (a - canopyBase) / canopySlice

/-- A whole range inside the managed region (R193); it runs on into the next die where a die's slice is all managed. -/
def rangeManaged (j : Job) (a n : Nat) : Bool :=
  decide (0 < n) && inManaged j a && inManaged j (a + n - 1) &&
  (List.range 4).all (fun d => !(decide (sliceOf a ≤ d) && decide (d < sliceOf (a + n - 1))) || decide (j.managed.getD d 0 = 20))

/-- The plaintext staging window (R190). -/
def isStaging (a : Nat) : Bool := a < gib

/-- The line of its channel that holds a GDDR7 address, and that line's bank (R187). -/
def chanLine (s : State) (a : Nat) : Nat :=
  let k := (quadChans s (quadOf a)).length
  (a - quadOf a * quadSize) / 256 / (if k = 0 then 1 else k)
def chanBank (s : State) (a : Nat) : Nat := chanLine s a / 8 % 32

/-- The bank that holds a managed line at an offset within its die's slice (R194). -/
def canopyBank (o : Nat) : Nat := Nat.xor (Nat.xor (o / 2 ^ 8) (o / 2 ^ 15)) (o / 2 ^ 22) % 128

/-- The home canopy die of an address (R195, R499). -/
def homeDie (s : State) (seg : Seg) (a : Nat) : Nat :=
  if isCanopy a then (a - canopyBase) / canopySlice
  else if isGddr a then quadOf a / 2
  else
    let up := fun ds => ds.filter (fun d => !s.fences.canopy.getLsbD d)
    let ds := match seg.home.toNat with
      | 1 => up [0, 1] | 2 => up [2, 3] | _ => up [0, 1, 2, 3]
    ds.getD (lineOf a % max 1 ds.length) 0

/-! ### Segments (R185, R201, R203, R206, R286) -/

/-- The valid segment that covers an address. -/
def segAt (j : Job) (a : Nat) : Option Seg :=
  (j.segs.find? (fun e => e.2.valid && e.2.base.toNat ≤ a && a < e.2.base.toNat + e.2.len.toNat)).map (·.2)

/-- Bytes of a segment's step-counter table (R203). -/
def counterBytes (g : Seg) : Nat :=
  if g.vsrc = 1 then 4 * (g.len.toNat / 4096)
  else if g.vsrc = 2 then 4 * ceilDiv g.len.toNat (2 ^ (g.rowlog.toNat + 8)) else 0

/-- An address inside a range that a valid segment uses as its counter table (R286). -/
def inCounters (j : Job) (a n : Nat) : Bool :=
  j.segs.any (fun e => e.2.valid && counterBytes e.2 ≠ 0 && a < e.2.vbase.toNat + counterBytes e.2 && e.2.vbase.toNat < a + n)

/-- The address of a line's step counter (R203). -/
def counterAddr (g : Seg) (a : Nat) : Nat :=
  g.vbase.toNat + 4 * ((a - g.base.toNat) / (if g.vsrc = 1 then 4096 else 2 ^ (g.rowlog.toNat + 8)))

/-- The private-expert slot whose home copy holds a window address (R252, R421). -/
def homeSlot (j : Job) (a : Nat) : Option Slot :=
  if isCxl a then
    (j.slots.find? (fun e => e.2.st ≠ .free && e.2.home.toNat ≤ a && a < e.2.home.toNat + e.2.size)).map (·.2)
  else none

/-- The version of a line (R421): the GEN of the slot whose home copy it is, else its segment's version source. -/
def versionOf (s : State) (j : Job) (g : Seg) (a : Nat) : BitVec 32 :=
  match homeSlot j a with
  | some v => v.gen
  | none =>
    if g.vsrc = 1 || g.vsrc = 2 then BitVec.ofNat 32 (leNat (rdBytes s.mem (counterAddr g a) 4))
    else if g.vsrc = 3 then (baseOf j (if g.owner = tagBaseA then 0 else 1)).num
    else 0

/-! ### Memory keys, ciphertext and integrity tags (R415, R418 to R420) -/

/-- The info strings of the memory keys (R415). -/
def tenantInfo (t : Nat) (d : Digest) : Bytes := ascii "LYM-TMEM" ++ natLe t 2 ++ bvLe d 32
def baseInfo (t : Tag) (num : BitVec 32) (d : Digest) : Bytes := ascii "LYM-BASE" ++ bvLe t 2 ++ bvLe num 4 ++ bvLe d 32
def jobInfo (j : Job) : Bytes := ascii "LYM-JOB" ++ bvLe j.id 4 ++ bvLe j.nonce 32

/-- A key derived from the root (R414, R415): `n` bytes for an info string, with DEVICE_ID as salt. -/
def rootKey (info : Bytes) (n : Nat) : Bytes := padTo (Config.hkdf (bvLe Config.deviceId 16) (bvLe Config.root 32) info n) n

/-- The info string of an owner's memory key while the device holds that key (R415): the tenant's while its slot is not FREE, since the
commands of a slot that is REVOKING complete normally (R239, log 72); the base's while the generation is loaded. -/
def keyOf (j : Job) (t : Tag) : Option Bytes :=
  if isTenant t then (if (tenOf j t.toNat).st = .free then none else some (tenantInfo t.toNat (tenOf j t.toNat).digest))
  else if isBase t then
    let b := baseOf j (if t = tagBaseA then 0 else 1)
    if b.loaded then some (baseInfo t b.num b.keyOwn) else none
  else some (jobInfo j)

/-- The seal a line of a segment must carry (R418 to R421); none where its key is not held. -/
def sealFor (s : State) (j : Job) (g : Seg) (a : Nat) : Option Seal :=
  (keyOf j g.owner).map (fun k => ⟨g.owner, k, versionOf s j g a⟩)

/-- The ciphertext of a line's plaintext, and the plaintext of its ciphertext (R418, R419): the data unit is the line, numbered by its
device address divided by 256. -/
def cipherLine (q : Seal) (l : Nat) (b : Bytes) : Bytes :=
  natLe (Config.xts ((rootKey q.key 96).take 64) (BitVec.ofNat 128 l) (BitVec.ofNat 2048 (leNat b))).toNat 256
def plainLine (q : Seal) (l : Nat) (b : Bytes) : Bytes :=
  natLe ((Config.xts ((rootKey q.key 96).take 64) (BitVec.ofNat 128 l)).symm (BitVec.ofNat 2048 (leNat b))).toNat 256

/-- The integrity tag of a ciphertext line: 64 bits of the CMAC over its 272-byte message (R420). -/
def integrityTag (q : Seal) (l : Nat) (c : Bytes) : Bytes :=
  padTo (Config.cmac ((rootKey q.key 96).drop 64) (c ++ natLe (256 * l) 8 ++ bvLe q.ver 4 ++ bvLe q.owner 2 ++ zeros 2)) 8

def sealOf (s : State) (l : Nat) : Option Seal := tget none s.seals l
def setSeal (s : State) (l : Nat) (v : Option Seal) : State := { s with seals := tset none s.seals l v }

/-- Host addresses of a window line and of its tag (R212, R422). -/
def hostLineAt (s : State) (l : Nat) : Nat := s.hub.winBase.toNat * gib + (256 * l - cxlBase)
def hostTagAt (s : State) (l : Nat) : Nat := s.hub.winBase.toNat * gib + 496 * gib + 8 * (l - cxlBase / 256)

/-- A window line whose bytes and tag are only what host memory holds (R212): the host has changed it, or the device has not written it
since BASE was set. -/
def hostHeld (s : State) (l : Nat) : Bool := isCxl (256 * l) && (s.raw.contains l || (sealOf s l).isNone)

/-- The bytes and the tag that memory holds for a line (R418, R422): what host memory holds for a window line, ciphertext and its tag
for a sealed line, else the bytes as they stand. State keeps the plaintext of a line that the device has sealed (log 6). -/
def storedLine (s : State) (l : Nat) : Bytes :=
  if hostHeld s l then rdBytes s.host (hostLineAt s l) 256
  else match sealOf s l with
    | some q => cipherLine q l (rdBytes s.mem (256 * l) 256)
    | none => rdBytes s.mem (256 * l) 256
def storedTag (s : State) (l : Nat) : Bytes :=
  if hostHeld s l then rdBytes s.host (hostTagAt s l) 8
  else match sealOf s l with
    | some q => integrityTag q l (cipherLine q l (rdBytes s.mem (256 * l) 256))
    | none => zeros 8

/-- A line that the Canopy cache region holds (R196). -/
def cached (s : State) (l : Nat) : Bool := s.ccache.any (fun c => c.line = l)

/-- The owner tag stored with a Canopy line (R227, R230). -/
def tagOf (s : State) (l : Nat) : Tag := tget tagPublic s.tags l
def setTag (s : State) (l : Nat) (t : Tag) : State := { s with tags := tset tagPublic s.tags l t }

/-- A line on a channel that is fenced but still mapped (R500). -/
def onFenced (s : State) (a : Nat) : Bool := isGddr a && s.fences.chan.getLsbD (chanAt s a)

/-! ### Reading and writing device memory on the job's behalf -/

/-- A line's stored tag is the one that the seal it must carry gives (R420, R423); the Canopy serves a line it holds as it was cached
(R198). -/
def tagHolds (s : State) (l : Nat) (q : Option Seal) : Bool :=
  match q with
  | none => false
  | some q =>
    if hostHeld s l && !cached s l then integrityTag q l (storedLine s l) = storedTag s l else sealOf s l = some q

/-- Whether a read of the line at `a` succeeds, and with which tag (R185, R204, R423, R492, R500). -/
def readLine (s : State) (j : Job) (a : Nat) : Except Byte Tag :=
  match segAt j a with
  | none => .error stSegment
  | some g =>
    if isGddr a && !backed s a then .error stSegment
    else if s.poison.contains (lineOf a) || onFenced s a then .error stDevice
    else if isCanopy a then .ok (tagOf s (lineOf a))
    else if !g.enc then .ok g.owner
    else if tagHolds s (lineOf a) (sealFor s j g a) then .ok g.owner
    else .error stIntegrity

/-- The lines a range touches, as addresses. -/
def linesOf (a n : Nat) : List Nat :=
  if n = 0 then [] else (List.range (lineOf (a + n - 1) - lineOf a + 1)).map (fun i => 256 * (lineOf a + i))

/-- Read every line of a range and collect the tags (R227); the first failing line decides. -/
def lineTags (s : State) (j : Job) : List Nat → Except Byte (List Tag)
  | [] => .ok []
  | a :: r => match readLine s j a with
    | .error e => .error e
    | .ok t => match lineTags s j r with
      | .error e => .error e
      | .ok l => .ok (t :: l)

/-- A line that only host memory holds, decrypted under the seal it must carry (R418). -/
def openLine (s : State) (j : Job) (m : Mem) (a : Nat) : Mem :=
  match segAt j a with
  | some g => match sealFor s j g a with
    | some q => wrBytes m (256 * lineOf a) (plainLine q (lineOf a) (storedLine s (lineOf a)))
    | none => m
  | none => m

/-- Memory as a read of some lines sees it. -/
def seenMem (s : State) (j : Job) (l : List Nat) : Mem :=
  (l.filter (fun a => hostHeld s (lineOf a) && !cached s (lineOf a))).foldl (openLine s j) s.mem

/-- An owner's key becomes the last used of a canopy die's 512 expanded keys, replacing the least recently used (R455). -/
def useKey (s : State) (die : Nat) (k : Bytes) : State :=
  { s with kcache := tset [] s.kcache die ((k :: (tget [] s.kcache die).filter (fun x => x ≠ k)).take 512) }

/-- A line that has been read from host memory stands in State as its plaintext and seal. -/
def adoptLine (s : State) (j : Job) (a : Nat) : State :=
  match segAt j a with
  | some g =>
    if hostHeld s (lineOf a) && !cached s (lineOf a) then
      { setSeal s (lineOf a) (sealFor s j g a) with mem := seenMem s j [a], raw := s.raw.filter (fun l => l ≠ lineOf a) }
    else s
  | none => s

/-- Read `n` bytes at a device address with the join of the lines' tags. -/
def devRead (s : State) (j : Job) (a n : Nat) : Except Byte (Bytes × Tag) :=
  match lineTags s j (linesOf a n) with
  | .error e => .error e
  | .ok l => match joinAll l with
    | none => .error stOwnerMix
    | some t => .ok (rdBytes (seenMem s j (linesOf a n)) a n, t)

/-- The hub's own write of whole lines under a seal, in the window, a pool or a home copy (R252, R418). -/
def sealRange (s : State) (a : Nat) (b : Bytes) (q : Seal) : State :=
  let ls := linesOf a b.length
  let out := fun (l : Nat) => !ls.contains (256 * l)
  { s with mem := wrBytes s.mem a b, seals := ls.foldl (fun t l => tset none t (lineOf l) (some q)) s.seals,
           raw := s.raw.filter out, poison := s.poison.filter out }

/-- The hub's own read of whole lines that must carry a seal: none where a line's tag does not hold or a line is poisoned. -/
def openRange (s : State) (a n : Nat) (q : Seal) : Option Bytes :=
  let ls := linesOf a n
  if ls.all (fun l => tagHolds s (lineOf l) (some q) && !s.poison.contains (lineOf l)) then
    some (rdBytes ((ls.filter (fun l => hostHeld s (lineOf l) && !cached s (lineOf l))).foldl
      (fun m l => wrBytes m (256 * lineOf l) (plainLine q (lineOf l) (storedLine s (lineOf l)))) s.mem) a n)
  else none

/-- The outcome of a write: done, dropped at a frozen segment, or refused with a status. -/
inductive WRes where
  | ok (s : State)
  | frozen
  | err (st : Byte)
  deriving DecidableEq, Repr

/-- What a write of `n` bytes at `a`, inside one line, with data of tag `t` would do, before anything is written (R185, R205,
R206, R229, R234, R286, R294, R500): the tag the line takes. `eval` marks an eval-flagged run. A line of an owner whose key is not held
cannot be encrypted and is not written (R415, R418, log 72). -/
def writeCheck (s : State) (j : Job) (eval : Bool) (a n : Nat) (t : Tag) : Except Byte (Option Tag) :=
  match segAt j a with
  | none => .error stSegment
  | some g =>
    if isGddr a && !backed s a then .error stSegment
    else if g.access = 0 then .error stSegment
    else if inCounters j a n then .error stSegment
    else if eval && (g.vsrc = 1 || g.vsrc = 2) then .error stSegment
    else if g.access = 2 then .ok none
    else if onFenced s a then .error stDevice
    else if isCanopy a then
      if n = 256 then .ok (some t)
      else if s.poison.contains (lineOf a) then .error stDevice
      else match join (tagOf s (lineOf a)) t with
        | none => .error stOwnerMix
        | some u => .ok (some u)
    else match join t g.owner with
      | none => .error stOwnerMix
      | some u =>
        if u ≠ g.owner || isBase t then .error stEgress
        else if g.enc && (keyOf j g.owner).isNone then .error stIntegrity
        else if n = 256 then .ok (some u)
        else match readLine s j a with
          | .error e => .error e
          | .ok _ => .ok (some u)

/-- The requests on the CXL link of a device write to a line: a back-invalidate snoop before a staging line (R376), a write through of
a window line, by CXL.cache below SPLIT and by Unordered I/O above (R197, R212). -/
def linkReqs (s : State) (a : Nat) : List LinkReq :=
  if isStaging a then [.snoop (lineOf a)]
  else if isCxl a then
    let x := a - cxlBase
    let h := s.hub.winBase.toNat * gib + x
    [if x < s.hub.split.toNat * gib then .cache h else .uio h]
  else []

/-- A cached GDDR7 line that is written is dirty until its eviction (R197). -/
def markDirty (s : State) (a : Nat) : State :=
  { s with ccache := s.ccache.map (fun c => if c.line = lineOf a && isGddr a then { c with dirty := true } else c) }

/-- Store bytes inside one line that has passed `writeCheck`, with the tag or seal it takes. A whole line clears poison (R492); part of a
line keeps the rest of what a read sees. -/
def storeLine (s : State) (j : Job) (a : Nat) (b : Bytes) (t : Tag) : State :=
  let s1 := { s with mem := wrBytes (seenMem s j [a]) a b,
                     poison := if b.length = 256 then s.poison.filter (fun l => l ≠ lineOf a) else s.poison,
                     raw := s.raw.filter (fun l => l ≠ lineOf a), link := s.link ++ linkReqs s a }
  if isCanopy a then setTag s1 (lineOf a) t
  else match segAt j a with
    | some g =>
      if g.enc then useKey (setSeal (markDirty s1 a) (lineOf a) (sealFor s j g a)) (homeDie s g a) ((keyOf j g.owner).getD []) else s1
    | none => s1

/-- Write bytes inside one line. -/
def writeLine (s : State) (j : Job) (eval : Bool) (a : Nat) (b : Bytes) (t : Tag) : WRes :=
  match writeCheck s j eval a b.length t with
  | .error e => .err e
  | .ok none => .frozen
  | .ok (some u) => .ok (storeLine s j a b u)

/-- The pieces of a range line by line: address and bytes; fuel is the length. -/
def piecesAux : Nat → Nat → Bytes → List (Nat × Bytes)
  | 0, _, _ => []
  | _ + 1, _, [] => []
  | f + 1, a, b =>
    let n := 256 - a % 256
    (a, b.take n) :: piecesAux f (a + n) (b.drop n)

def pieces (a : Nat) (b : Bytes) : List (Nat × Bytes) := piecesAux b.length a b

/-- Check every piece of a write before any of it: none where some line lies in a frozen segment. -/
def checkPieces (s : State) (j : Job) (eval : Bool) (t : Tag) : List (Nat × Bytes) → Except Byte Bool
  | [] => .ok true
  | p :: r => match writeCheck s j eval p.1 p.2.length t with
    | .error e => .error e
    | .ok none => .ok false
    | .ok (some _) => checkPieces s j eval t r

/-- Store every piece, each line taking its own tag or seal. -/
def storePieces (s : State) (j : Job) (eval : Bool) (t : Tag) : List (Nat × Bytes) → State
  | [] => s
  | p :: r => match writeLine s j eval p.1 p.2 t with
    | .ok s' => storePieces s' j eval t r
    | _ => storePieces s j eval t r

/-- Write a whole range, checking every line first. -/
def devWrite (s : State) (j : Job) (eval : Bool) (a : Nat) (b : Bytes) (t : Tag) : WRes :=
  match checkPieces s j eval t (pieces a b) with
  | .error e => .err e
  | .ok false => .frozen
  | .ok true => .ok (storePieces s j eval t (pieces a b))

/-- The tag that a line of the managed region takes from a write of `n` of its bytes: the data's, or for part of the line the join with
its old tag (R229); where that join fails the data's, and the line's other bytes are dropped (log 70). -/
def hubTag (old t : Tag) (n : Nat) : Tag := if n = 256 then t else (join old t).getD t
def hubDrops (s : State) (p : Nat × Bytes) (t : Tag) : Bool := p.2.length ≠ 256 && (join (tagOf s (lineOf p.1)) t).isNone

/-- The hub's own write into a structure that needs no segment (R185): bytes and tag in the managed region. -/
def hubWrite (s : State) (a : Nat) (b : Bytes) (t : Tag) : State :=
  { s with
    mem := wrBytes ((pieces a b).foldl (fun m p => if hubDrops s p t then clearRange m (256 * lineOf p.1) 256 else m) s.mem) a b,
    tags := (pieces a b).foldl (fun ts p => tset tagPublic ts (lineOf p.1) (hubTag (tagOf s (lineOf p.1)) t p.2.length)) s.tags }

/-- The hub's own read of such a structure. -/
def hubRead (s : State) (a n : Nat) : Bytes := rdBytes s.mem a n

/-- A read-write segment of a given owner covers a whole range. -/
def coveredBy (j : Job) (p : Seg → Bool) (a n : Nat) : Bool :=
  0 < n && (linesOf a n).all (fun l => match segAt j (max l a) with | some g => p g | none => false)

/-- Add 1 to a 64-bit meeting counter (R179). -/
def bumpCounter (s : State) (a : Nat) : State :=
  { s with mem := wrBytes s.mem a (natLe ((leNat (rdBytes s.mem a 8) + 1) % 2 ^ 64) 8) }

/-- A counter or step word that may be named: 8-byte aligned, on a PUBLIC line of the managed region (R179, R269, R355). -/
def wordPlace (s : State) (j : Job) (a : Nat) : Bool := a % 8 = 0 && inManaged j a && tagOf s (lineOf a) = tagPublic

/-- A counter or step word that a write may reach: in a read-write segment and in no counter table (R185, R286). -/
def wordWritable (j : Job) (a : Nat) : Bool :=
  (match segAt j a with | some g => g.access = 1 | none => false) && !inCounters j a 8

/-! ### Reset of stores -/

/-- A glade as a job's opening, closing and reset leave it: stores zero, its last fault kept (R183). -/
def gladeCleared (g : Glade) : Glade := { faultSt := g.faultSt, faultXe := g.faultXe, faultPc := g.faultPc }

/-- Lines of a range no longer hold what they held: no byte, seal or cached copy of it is left (log 6). -/
def clearLines (s : State) (a n : Nat) : State :=
  let out := fun (l : Nat) => !(a ≤ 256 * l && 256 * l < a + n)
  { s with mem := clearRange s.mem a n, seals := s.seals.filter (fun e => out e.1), raw := s.raw.filter out,
           poison := s.poison.filter out, ccache := s.ccache.filter (fun c => out c.line) }

/-- Zero the Canopy and every glade store, as a job's opening, closing and reset leave them (R95, R118, R230, R306). -/
def zeroStores (s : State) : State :=
  { s with mem := clearRange s.mem canopyBase (4 * canopySlice),
           tags := [], ccache := [],
           poison := s.poison.filter (fun l => !isCanopy (256 * l)),
           glades := s.glades.foldl (fun t e => tset {} t e.1 (gladeCleared e.2)) [] }

end Sys2Proof.Machine
end

