-- ==== Sys2Proof/Machine/Operands.lean ====
section
/-! DEFINITION. Operand forms of the glade instructions: scalar registers, tile descriptors and their checks (R129, R130), and reading and writing the rows of a tile in any space. -/

namespace Sys2Proof.Machine

/-! ### Scalar registers (R125, R127) -/

/-- A scalar register; s0 reads 0. -/
def sGet (e : Eng) (r : Nat) : BitVec 64 := if r = 0 then 0 else tget 0 e.s r

/-- Write a scalar register; a write to s0 is discarded. -/
def sSet (e : Eng) (r : Nat) (v : BitVec 64) : Eng := if r = 0 then e else { e with s := tset 0 e.s r v }

/-- A tile descriptor of an engine. -/
def tdGet (e : Eng) (i : Nat) : Td := tget {} e.td i
def tdSet (e : Eng) (i : Nat) (t : Td) : Eng := { e with td := tset {} e.td i t }

/-! ### The tile-buffer address space (R89, R90, R210) -/

def bufSize : Nat := 0xC00000
def winBase : Nat := 0x1000000
def winSize : Nat := 0x400000
/-- The scratch part's size; the job holds the way size in bytes. -/
def scratchSize (j : Job) : Nat := bufSize - 16 * j.waySize
def inWindow (a : Nat) : Bool := winBase ≤ a
/-- A range inside the scratch part, or inside the window. -/
def inScratch (j : Job) (a n : Nat) : Bool := a + n ≤ scratchSize j
def inWin (a n : Nat) : Bool := winBase ≤ a && a + n ≤ winBase + winSize
def inGladeSpace (j : Job) (a n : Nat) : Bool := inScratch j a n || inWin a n

/-- The unit that carries one tag: a 256-byte line of the tile buffer, or a 1,024-byte window row (key 65,536 + row) (R91, R227). -/
def unitOf (a : Nat) : Nat := if inWindow a then 65536 + (a - winBase) / 1024 else a / 256
def unitSize (a : Nat) : Nat := if inWindow a then 1024 else 256
def winRow (a : Nat) : Nat := (a - winBase) / 1024

def gTag (g : Glade) (a : Nat) : Tag := tget tagPublic g.tags (unitOf a)
def gSetTag (g : Glade) (a : Nat) (t : Tag) : Glade := { g with tags := tset tagPublic g.tags (unitOf a) t }

/-- Cut a range at tag units: addresses and lengths; the fuel bounds the number of pieces. -/
def unitsAux : Nat → Nat → Nat → List (Nat × Nat)
  | 0, _, _ => []
  | f + 1, a, n =>
    if n = 0 then [] else
    let k := min n (unitSize a - a % unitSize a)
    (a, k) :: unitsAux f (a + k) (n - k)
def unitsOf (a n : Nat) : List (Nat × Nat) := unitsAux (n / 256 + 2) a n

/-- The tag a write of `k` bytes gives the unit at `a`: the data's for a whole unit, else the join with the old (R229, R91). -/
def gNewTag (g : Glade) (a k : Nat) (t : Tag) : Option Tag :=
  if k = unitSize a then some t else join (gTag g a) t

/-- Every unit a write touches can take the data's tag. -/
def gCheck (g : Glade) (a n : Nat) (t : Tag) : Bool := (unitsOf a n).all (fun u => (gNewTag g u.1 u.2 t).isSome)

/-- Store bytes in the tile-buffer space and tag every unit they touch; called after `gCheck`. -/
def gStore (g : Glade) (a : Nat) (b : Bytes) (t : Tag) : Glade :=
  (unitsOf a b.length).foldl (fun h u => match gNewTag g u.1 u.2 t with | some v => gSetTag h u.1 v | none => h)
    { g with mem := wrBytes g.mem a b }

/-- The tags of the units a range touches. -/
def gTags (g : Glade) (a n : Nat) : List Tag := (unitsOf a n).map (fun u => gTag g u.1)

/-- A poisoned unit lies in a range (R492). -/
def gPoisoned (g : Glade) (a n : Nat) : Bool := (gTags g a n).contains tagPoison

/-- A write would cover part of a poisoned unit, which it would have to read (R492, log 67). -/
def gSpoiled (g : Glade) (a n : Nat) : Bool := (unitsOf a n).any (fun u => u.2 ≠ unitSize u.1 && gTag g u.1 = tagPoison)

/-! ### Ranges in a space (R129 SPACE: 0 tile buffer, 1 device, 2 program image) -/

/-- A glade's place: the job, its glade number, its program and whether its command is an eval run (R293). -/
structure Place where
  j    : Job
  gi   : Nat
  prog : Prog
  eval : Bool
  deriving DecidableEq, Repr

/-- Bounds of the image's constant section (R121). -/
def constStart (p : Prog) : Nat := leNat (rdBytes p.image 32 4)
def constSize (p : Prog) : Nat := leNat (rdBytes p.image 36 4)
def inConst (p : Prog) (a n : Nat) : Bool := constStart p ≤ a && a + n ≤ constStart p + constSize p

/-- Read a range in a space with the tags of its units. -/
def spanTags (s : State) (pl : Place) (space a n : Nat) : Except Byte (Bytes × List Tag) :=
  match space with
  | 0 => if gPoisoned (gladeOf s pl.gi) a n then .error stDevice
    else .ok (rdBytes (gladeOf s pl.gi).mem a n, gTags (gladeOf s pl.gi) a n)
  | 1 => match lineTags s pl.j (linesOf a n) with
    | .error e => .error e
    | .ok l => .ok (rdBytes (seenMem s pl.j (linesOf a n)) a n, l)
  | _ => .ok (rdBytes pl.prog.image a n, [tagPublic])

/-- Read a range in a space with the join of its units' tags (R228). -/
def spanRead (s : State) (pl : Place) (space a n : Nat) : Except Byte (Bytes × Tag) :=
  match spanTags s pl space a n with
  | .error e => .error e
  | .ok (b, l) => match joinAll l with
    | none => .error stOwnerMix
    | some t => .ok (b, t)

/-- Whether a range may be written with data of a tag: `.ok false` where it lies in a frozen segment (R509). -/
def spanCheck (s : State) (pl : Place) (space a n : Nat) (t : Tag) : Except Byte Bool :=
  match space with
  | 0 => if gSpoiled (gladeOf s pl.gi) a n then .error stDevice
    else if gCheck (gladeOf s pl.gi) a n t then .ok true else .error stOwnerMix
  | 1 => checkPieces s pl.j pl.eval t (pieces a (zeros n))
  | _ => .error stProgram

/-- The half of a glade: 0 west, 1 east (R22, R23). -/
def halfOfGlade (g : Nat) : Nat := if g < 64 then 0 else 1

/-- A half whose epoch is below the device's (R505). -/
def staleHalf (s : State) (h : Nat) : Bool := (halfOf s h).epoch.toNat < s.epoch.toNat

/-- A write of a stale half is discarded, and its command remembered (R505, R506). -/
def loseWrite (s : State) (gi : Nat) : State :=
  let h := halfOfGlade gi
  let c := (gladeOf s gi).cmd
  if (halfOf s h).lostCmds.contains c then s else setHalf s h { halfOf s h with lostCmds := (halfOf s h).lostCmds ++ [c] }

/-- Write a range that `spanCheck` has passed; a device write of a stale half is discarded (R505). -/
def spanStore (s : State) (pl : Place) (space a : Nat) (b : Bytes) (t : Tag) : State :=
  match space with
  | 0 => setGlade s pl.gi (gStore (gladeOf s pl.gi) a b t)
  | 1 => if staleHalf s (halfOfGlade pl.gi) then loseWrite s pl.gi else storePieces s pl.j pl.eval t (pieces a b)
  | _ => s

/-! ### Tile descriptors (R129, R130) -/

def tRows (t : Td) : Nat := t.rows.toNat + 1
def tCols (t : Td) : Nat := t.cols.toNat + 1
def tFmt (t : Td) : Nat := t.fmt.toNat
def tBlk (t : Td) : Nat := blkSize t.blk.toNat
def tBase (t : Td) : Nat := t.base.toNat
def tSpace (t : Td) : Nat := t.space.toNat
/-- Bytes of one row of `cols` elements. -/
def bytesFor (fmt cols : Nat) : Nat := ceilDiv (cols * fmtBits fmt) 8
def rowBytes (t : Td) : Nat := bytesFor (tFmt t) (tCols t)
def nBlocks (t : Td) : Nat := ceilDiv (tCols t) (tBlk t)
def rowAddr (t : Td) (r : Nat) : Nat := tBase t + r * t.pitch.toNat
def scaleAddr (t : Td) (r : Nat) : Nat := t.sbase.toNat + r * t.spitch.toNat
def tWindow (t : Td) : Bool := tSpace t = 0 && inWindow (tBase t)
/-- First window column a tile addresses (R90). -/
def tCol0 (t : Td) : Nat := tBase t % 1024 / 4

/-- A plane of rows lies in one space (R130). -/
def planeOk (j : Job) (p : Prog) (space base pitch rows n : Nat) (scale : Bool) : Bool :=
  let len := (rows - 1) * pitch + n
  match space with
  | 0 => inScratch j base len || (!scale && inWin base len)
  | 1 => base + len ≤ 2 ^ 48
  | 2 => inConst p base len
  | _ => false

/-- The conditions of R130 for a tile of `rows` stored rows of `cols` elements. -/
def tileOk (j : Job) (p : Prog) (t : Td) (rows cols : Nat) : Bool :=
  let n := bytesFor (tFmt t) cols
  1 ≤ tFmt t && tFmt t ≤ 8 && tBase t % 256 = 0 && t.pitch.toNat % 256 = 0 && n ≤ t.pitch.toNat &&
  (tFmt t ≠ fmtM12 || cols % 2 = 0) &&
  planeOk j p (tSpace t) (tBase t) t.pitch.toNat rows n false &&
  (!tWindow t || (tFmt t = fmtW32 && t.pitch = 1024 && tCol0 t + cols ≤ 256)) &&
  (!isBlock (tFmt t) ||
    (t.sbase.toNat % 256 = 0 && t.spitch.toNat % 256 = 0 && ceilDiv cols (tBlk t) ≤ t.spitch.toNat &&
     planeOk j p t.sspace.toNat t.sbase.toNat t.spitch.toNat rows (ceilDiv cols (tBlk t)) true))

/-- A descriptor that an instruction may use as it stands. -/
def tdOk (pl : Place) (t : Td) : Bool := tileOk pl.j pl.prog t (tRows t) (tCols t)
/-- A destination: not in the program image, which is read only. -/
def tdDst (pl : Place) (t : Td) : Bool := tdOk pl t && tSpace t ≠ 2 && (!isBlock (tFmt t) || t.sspace ≠ 2)

/-! ### Rows of a tile -/

/-- One row read from a tile: element codes, scale bytes, and the join of its lines' tags (R227). -/
structure RowIn where
  codes  : List Nat
  scales : List Nat
  tag    : Tag
  deriving DecidableEq, Repr

/-- Read `cols` elements of stored row `r`: the row's tag is the join of its element and scale lines' tags (R227). -/
def readRowN (s : State) (pl : Place) (t : Td) (r cols : Nat) : Except Byte RowIn :=
  match spanTags s pl (tSpace t) (rowAddr t r) (bytesFor (tFmt t) cols) with
  | .error e => .error e
  | .ok (b, l) =>
    match (if isBlock (tFmt t) then spanTags s pl t.sspace.toNat (scaleAddr t r) (ceilDiv cols (tBlk t)) else .ok ([], [])) with
    | .error e => .error e
    | .ok (sb, m) => match joinAll (l ++ m) with
      | none => .error stOwnerMix
      | some u => .ok ⟨(List.range cols).map (elemCode (tFmt t) b), sb.map (·.toNat), u⟩

/-- Read a row of a tile. -/
def readRow (s : State) (pl : Place) (t : Td) (r : Nat) : Except Byte RowIn := readRowN s pl t r (tCols t)

/-- Number, code and scale byte of each element of a row. -/
def rowElems (t : Td) (x : RowIn) : List (Nat × Nat × Nat) :=
  (numbered x.codes).map (fun e => (e.1, e.2, x.scales.getD (e.1 / tBlk t) 0))

/-- The W32 values of a row, exact for every format (R39). -/
def rowVals (t : Td) (x : RowIn) : List (BitVec 32) := (rowElems t x).map (fun e => elem32 (tFmt t) e.2.1 e.2.2)

/-- INF_IN over a row (R67). -/
def rowInf (t : Td) (x : RowIn) : BitVec 5 := (rowElems t x).foldl (fun f e => f ||| elemInf (tFmt t) e.2.1 e.2.2) 0

/-- Check the destination row `r` for element codes and scales of a tag. -/
def rowCheck (s : State) (pl : Place) (t : Td) (r : Nat) (tg : Tag) : Except Byte Bool :=
  match spanCheck s pl (tSpace t) (rowAddr t r) (rowBytes t) tg with
  | .error e => .error e
  | .ok a =>
    if isBlock (tFmt t) then
      match spanCheck s pl t.sspace.toNat (scaleAddr t r) (nBlocks t) tg with
      | .error e => .error e
      | .ok b => .ok (a && b)
    else .ok a

/-- The outcome of writing one row: the state, or a status; `frozen` where the write was dropped (R509). -/
inductive RowRes where
  | ok (s : State)
  | frozen
  | err (st : Byte)
  deriving DecidableEq, Repr

/-- Write a whole row of a tile: every line checked before any is written (R126). -/
def writeRow (s : State) (pl : Place) (t : Td) (r : Nat) (codes scales : List Nat) (tg : Tag) : RowRes :=
  match rowCheck s pl t r tg with
  | .error e => .err e
  | .ok false => .frozen
  | .ok true =>
    let s1 := spanStore s pl (tSpace t) (rowAddr t r) (packCodes (tFmt t) codes) tg
    .ok (if isBlock (tFmt t) then spanStore s1 pl t.sspace.toNat (scaleAddr t r) (scales.map (BitVec.ofNat 8)) tg else s1)

/-- Cut a column list into runs of neighbours, for a write of part of a row. -/
def runsOf : List (Nat × Nat) → List (Nat × List Nat)
  | [] => []
  | (c, v) :: r =>
    match runsOf r with
    | (c', vs) :: q => if c + 1 = c' then (c, v :: vs) :: q else (c, [v]) :: (c', vs) :: q
    | [] => [(c, [v])]

/-- The byte spans that writing some elements of a row in a whole-byte format covers, with the codes merged into the bytes that
are there for L4 and M12. -/
def partSpans (t : Td) (old : Bytes) (r : Nat) (es : List (Nat × Nat)) : List (Nat × Bytes) :=
  let w := fmtBits (tFmt t)
  (runsOf es).map (fun run =>
    let lo := run.1 * w / 8
    let hi := ceilDiv ((run.1 + run.2.length) * w) 8
    let oldv := fieldLe old lo (hi - lo)
    let sh := run.1 * w - lo * 8
    let n := run.2.length * w
    let keep := oldv % 2 ^ sh + oldv / 2 ^ (sh + n) * 2 ^ (sh + n)
    let v := run.2.foldr (fun c acc => c % 2 ^ w + 2 ^ w * acc) 0
    (rowAddr t r + lo, natLe (keep + v * 2 ^ sh) (hi - lo)))

/-- Check and write several spans of one space, all checked before any is written, taking partial-unit tags by the whole set of
bytes written in the unit. -/
def spansCheck (s : State) (pl : Place) (space : Nat) (tg : Tag) : List (Nat × Bytes) → Except Byte Bool
  | [] => .ok true
  | p :: q => match spanCheck s pl space p.1 p.2.length tg with
    | .error e => .error e
    | .ok a => match spansCheck s pl space tg q with
      | .error e => .error e
      | .ok b => .ok (a && b)
def spansStore (s : State) (pl : Place) (space : Nat) (tg : Tag) (ps : List (Nat × Bytes)) : State :=
  ps.foldl (fun s p => spanStore s pl space p.1 p.2 tg) s

/-- The bytes present at a range, whatever their tags: for merging a partly written byte. -/
def spanPeek (s : State) (pl : Place) (space a n : Nat) : Bytes :=
  match space with
  | 0 => rdBytes (gladeOf s pl.gi).mem a n
  | 1 => rdBytes (seenMem s pl.j (linesOf a n)) a n
  | _ => rdBytes pl.prog.image a n

/-- Write some elements of a row, by column, and for a block format some scale bytes, by block. -/
def writePart (s : State) (pl : Place) (t : Td) (r : Nat) (es scs : List (Nat × Nat)) (tg : Tag) : RowRes :=
  let eb := partSpans t (spanPeek s pl (tSpace t) (rowAddr t r) (rowBytes t)) r es
  let sb := (runsOf scs).map (fun run => (scaleAddr t r + run.1, run.2.map (BitVec.ofNat 8)))
  match spansCheck s pl (tSpace t) tg eb with
  | .error e => .err e
  | .ok a => match spansCheck s pl t.sspace.toNat tg (if isBlock (tFmt t) then sb else []) with
    | .error e => .err e
    | .ok b =>
      if a && b then
        let s1 := spansStore s pl (tSpace t) tg eb
        .ok (if isBlock (tFmt t) then spansStore s1 pl t.sspace.toNat tg sb else s1)
      else .frozen

/-! ### Glade numbers and rounding (R54, R57) -/

/-- Whether a destination tile rounds stochastically. -/
def tStoch (t : Td) : Bool := tFmt t = fmtG8 || t.grad

/-- The rounding of a destination tile's element. -/
def tRound (t : Td) (gi : Nat) (n : BitVec 25) (seed : BitVec 64) (r c : Nat) : Rounding :=
  if tStoch t then .stoch (randBits (gladeWord gi n.toNat r c) seed) else .nearest

end Sys2Proof.Machine
end

