-- ==== Sys2Proof/Machine/Flags.lean ====
section
/-! DEFINITION. Exception flags, the vanish count and the exception log (R65 to R73), and the accumulator that a multi-step glade instruction carries from row to row. -/

namespace Sys2Proof.Machine

/-- An INVALID event as a log entry describes it (R73). -/
structure LogEv where
  cause : Nat
  row   : Nat
  col   : Nat
  block : Nat := 0xFFFF
  tag   : Tag
  deriving DecidableEq, Repr

/-- What a glade instruction has done so far: the state, a fault status (0: none), a dropped write (R509), steps completed (R126), the
steps that were complete when an earlier stop cut the instruction, the step at which a stop cuts it now and whether it has, flags,
vanished elements, the first INVALID event in issue order (R69). -/
structure Acc where
  s     : State
  err   : Byte := 0
  frz   : Bool := false
  steps : Nat := 0
  skip  : Nat := 0
  quota : Option Nat := none
  cut   : Bool := false
  fl    : BitVec 5 := 0
  van   : Nat := 0
  inv   : Option LogEv := none
  deriving DecidableEq, Repr

/-- Add flags and vanished elements. -/
def Acc.note (a : Acc) (fl : BitVec 5) (van : Nat) : Acc := { a with fl := a.fl ||| fl, van := a.van + van }

/-- Record an INVALID event unless one is recorded. -/
def Acc.event (a : Acc) (e : Option LogEv) : Acc := { a with inv := if a.inv.isSome then a.inv else e }

/-- Stop with a fault status. -/
def Acc.fail (a : Acc) (st : Byte) : Acc := { a with err := st }

/-- Take a row's outcome. -/
def Acc.took (a : Acc) (r : RowRes) : Acc :=
  match r with
  | .ok s => { a with s := s }
  | .frozen => { a with frz := true }
  | .err e => { a with err := e }

/-- One step: passed over after a fault, after a stop, and where it was complete before an earlier stop; a stop that falls due cuts the
instruction before it (R126, R182). -/
def oneStep (f : Acc → Acc) (a : Acc) : Acc :=
  if a.err ≠ 0 || a.cut then a
  else if a.steps < a.skip then { a with steps := a.steps + 1 }
  else if a.quota = some a.steps then { a with cut := true }
  else
    let b := f a
    { b with steps := if b.err ≠ 0 then a.steps else a.steps + 1, skip := a.skip, quota := a.quota, cut := false }

/-- Run the steps of an instruction in order until one faults or a stop cuts them (R126, R182). -/
def runSteps {α : Type} (f : α → Acc → Acc) (l : List α) (a : Acc) : Acc := l.foldl (fun a x => oneStep (f x) a) a

/-- Run one step for each of `n` rows. -/
def runRows (f : Nat → Acc → Acc) (n : Nat) (a : Acc) : Acc := runSteps f (List.range n) a

/-- Entries of the job's exception log (R69, R302). -/
def excSize (j : Job) : Nat := 2 ^ j.exclog

/-- Device address of the log entry with a running number (R70). -/
def excAddr (j : Job) (n : Nat) : Nat := j.excBase.toNat + 32 * (n % excSize j)

/-- The 32 bytes of a log entry (R73). -/
def excEntry (c : Cmd) (gi : Nat) (pc : BitVec 20) (e : LogEv) : Bytes :=
  bvLe c.acc 8 ++ [BitVec.ofNat 8 c.ring, c.slot] ++ bvLe e.tag 2 ++ [BitVec.ofNat 8 gi, BitVec.ofNat 8 e.cause] ++
  natLe e.row 2 ++ natLe e.col 2 ++ natLe e.block 2 ++ bvLe pc 4 ++ zeros 8

/-- Write a glade's log entry for its first INVALID event in a command (R69 to R72). An entry that would fall in a counter table is
not written and its index counts as used (R286, log 29). The entry that it overwrites counts against its own command of the same job
(R74). A serving step is no command: its events have no ACC_SEQ, RING or SLOT, write no entry and reach no summary (log 28). -/
def logInvalid (s : State) (acc : BitVec 64) (gi : Nat) (pc : BitVec 20) (e : LogEv) : State :=
  match findCmd s acc, s.job with
  | some c, some j =>
    if c.excEntries.any (fun x => x.1 = gi) then s
    else
      let n := j.excNext
      let a := excAddr j n
      let s1 := if inCounters j a 32 then s else hubWrite s a (excEntry c gi pc e) e.tag
      let s2 : State := { s1 with
        job := some { j with excNext := n + 1 },
        cmds := s1.cmds.map (fun d =>
          if d.job = c.job && d.excEntries.any (fun x => x.2 + excSize j = n) then { d with excLost := d.excLost + 1 } else d) }
      updCmd s2 acc (fun d => { d with
        excCount := d.excCount + 1,
        excIndex := if d.excEntries.all (fun x => gi < x.1) then BitVec.ofNat 16 (n % excSize j) else d.excIndex,
        excEntries := d.excEntries ++ [(gi, n)] })
  | _, _ => s

/-- Join flags and vanished elements into a command's summary (R53, R67). -/
def raise (s : State) (acc : BitVec 64) (fl : BitVec 5) (van : Nat) : State :=
  updCmd s acc (fun c => { c with summary := c.summary ||| fl, vanish := satAdd c.vanish van })

end Sys2Proof.Machine
end

