-- ==== Sys2Proof/Machine/Glade.lean ====
section
/-! DEFINITION. How a glade runs: starting a command (R127), issuing an instruction (R131, R132), faults and stops (R181, R182), tokens, meetings, halting, and the glade events. -/

namespace Sys2Proof.Machine

/-! ### Starting and ending -/

/-- An engine at the start of a command (R127): s1 to s11 set, everything else 0, FMT 0 in every descriptor. An engine whose section
is empty has halted (R122, R138). -/
def startEng (entry fin g rank n : Nat) (args : List (BitVec 64)) : Eng :=
  let regs := [(1, BitVec.ofNat 64 g), (2, BitVec.ofNat 64 rank), (3, BitVec.ofNat 64 n)] ++
    (numbered args).map (fun x => (4 + x.1, x.2))
  { pc := BitVec.ofNat 20 entry, sectStart := entry, sectEnd := fin,
    s := regs.foldl (fun t r => tset 0 t r.1 r.2) [],
    st := if entry = fin then .halted else .running }

/-- A glade at the start of a command: tile buffer, window and statistics slots keep their contents, the weight registers are empty
(log 30), queues are empty and the rounding counter is 0 (R57, R127). -/
def startGlade (s : State) (p : Prog) (acc : BitVec 64) (slot : Byte) (g rank n : Nat) (args : List (BitVec 64)) : State :=
  let w := fun o => leNat (rdBytes p.image o 4)
  setGlade s g { gladeOf s g with
    ae := startEng (w 16) (w 20) g rank n args, xe := startEng (w 24) (w 28) g rank n args,
    cmd := acc, slot := slot, queues := [], sent := [], shadow := none, active := none, rcnt := 0,
    stopReq := false, stopped := false }

/-- Start every glade of a set, ranks by ascending index (R124, R127). -/
def startGlades (s : State) (p : Prog) (acc : BitVec 64) (slot : Byte) (gs : List Nat) (args : List (BitVec 64)) : State :=
  (numbered gs).foldl (fun s x => startGlade s p acc slot x.2 x.1 gs.length args) s

/-- An engine that will issue nothing more. -/
def engHalted (e : Eng) : Bool := e.st = .halted
def gladeFaulted (g : Glade) : Bool := g.ae.st = .faulted || g.xe.st = .faulted
/-- A glade that will do nothing more for its command. -/
def gladeEnded (g : Glade) : Bool := g.stopped || gladeFaulted g || (engHalted g.ae && engHalted g.xe)

/-- Glades that run for a command number. -/
def gladesOf (s : State) (acc : BitVec 64) : List Nat := (s.glades.filter (fun e => e.2.cmd = acc)).map (·.1)

/-- Release a glade from its command: its engines are idle, but a faulted glade keeps the states its engines stood in (R137, R183,
log 31). -/
def releaseGlade (g : Glade) : Glade :=
  let f := fun (e : Eng) => if gladeFaulted g then e else { e with st := EngSt.idle }
  { g with cmd := 0, slot := 0, ae := f g.ae, xe := f g.xe, queues := [], sent := [], stopReq := false, stopped := false }

def releaseGlades (s : State) (acc : BitVec 64) : State :=
  (gladesOf s acc).foldl (fun s g => setGlade s g (releaseGlade (gladeOf s g))) s

/-- The serving step's run has ended: its glades are free, and each expert of its tenants is used by one step less (R253). -/
def stepEnded (s : State) : State :=
  let s1 := releaseGlades s stepAcc
  { s1 with job := s1.job.map (fun j =>
      let ts := (j.seqs.filter (fun q => q.inStep ≠ 0)).map (·.tenant)
      { j with stepping := false,
               slots := j.slots.map (fun e => if ts.contains e.2.owner.toNat && e.2.use ≠ 0 then (e.1, { e.2 with use := e.2.use - 1 }) else e) }) }

/-- Once every glade of a command with a fault has ended, the command completes with the status of the lowest faulting glade
(R182); a faulted serving step just ends (log 28). -/
def settle (s : State) (acc : BitVec 64) : State :=
  if (gladesOf s acc).all (fun g => gladeEnded (gladeOf s g)) then
    if acc = stepAcc then (if (jobOf s).stepFaults = [] then s else stepEnded s) else
    match findCmd s acc with
    | some c => match c.faults with
      | [] => s
      | f :: _ => finish (releaseGlades s acc) acc f.2
    | none => s
  else s

/-- An engine's instruction faults (R181, R182, R183): the glade keeps the fault, every other glade of the command is asked to stop
at its next step boundary. -/
def faultGlade (s : State) (g : Nat) (e : Engine) (st : Byte) : State :=
  let gl := gladeOf s g
  let en := engOf gl e
  let acc := gl.cmd
  let s1 := setGlade s g { setEng gl e { en with st := .faulted } with
    faultSt := st, faultXe := e = .xe, faultPc := en.pc }
  let s2 := if acc = stepAcc then
      { s1 with job := s1.job.map (fun j => { j with stepFaults := tset 0 j.stepFaults g st }) }
    else updCmd s1 acc (fun c => { c with faults := tset 0 c.faults g st })
  let s3 := (gladesOf s2 acc).foldl (fun s o =>
    if o = g || gladeEnded (gladeOf s o) then s else setGlade s o { gladeOf s o with stopReq := true }) s2
  settle s3 acc

/-! ### Issuing -/

/-- What an issued instruction does next. -/
inductive GOut where
  | done (s : State)
  | jump (s : State) (target : Int)
  | wait (s : State)
  | fault (st : Byte) (s : State)
  deriving DecidableEq, Repr

/-- The fields an opcode uses (R139): every other field, and every other bit of FLAGS and IMM, must be 0 (R132); and whether a stop may
fall between its steps (R126, log 11). -/
structure Use where
  flags : BitVec 8 := 0
  ta : Bool := false
  tb : Bool := false
  tc : Bool := false
  sa : Bool := false
  sb : Bool := false
  sc : Bool := false
  imm : BitVec 64 := 0
  only : Option Engine := none
  steps : Bool := false
  deriving DecidableEq, Repr

def allImm : BitVec 64 := BitVec.ofNat 64 (2 ^ 64 - 1)

/-- The encoding of an instruction is one its engine may run (R131, R132). -/
def encOk (i : GI) (u : Use) : Bool :=
  i.guard.toNat ≤ 16 && i.rsv = 0 && i.flags &&& ~~~u.flags = 0 && (u.ta || i.ta = 0) && (u.tb || i.tb = 0) && (u.tc || i.tc = 0) &&
  (u.sa || i.sa = 0) && (u.sb || i.sb = 0) && (u.sc || i.sc = 0) && i.imm &&& ~~~u.imm = 0 &&
  (match u.only with | none => true | some e => e = i.eng)

/-- The truth of a guard (R131). -/
def guardTrue (e : Eng) (g : Nat) : Bool :=
  if g = 0 then true else if g ≤ 8 then e.p.getLsbD (g - 1) else !e.p.getLsbD (g - 9)

/-- The engine that issues. -/
def curEng (s : State) (i : GI) : Eng := engOf (gladeOf s i.glade.val) i.eng
def setCur (s : State) (i : GI) (e : Eng) : State := setGlade s i.glade.val (setEng (gladeOf s i.glade.val) i.eng e)

/-- The place of a glade: its job, its program and whether its command is an eval run. -/
def placeOf (s : State) (g : Nat) : Place :=
  let j := jobOf s
  let gl := gladeOf s g
  { j := j, gi := g, prog := progOf j gl.slot.toNat,
    eval := match findCmd s gl.cmd with | some c => opcOf c = 0x01 && hdrFlag c 0 | none => false }

/-- The word an engine stands at (R121, R131). -/
def wordAt (s : State) (g : Nat) (e : Engine) : BitVec 128 :=
  BitVec.ofNat 128 (leNat (rdBytes (placeOf s g).prog.image (16 * (engOf (gladeOf s g) e).pc.toNat) 16))

/-- A glade whose engine may issue: running, no fault on the glade, no stop asked for or made, not in an interval without issue (R526), no
array column under test (R493). -/
def mayIssue (s : State) (i : GI) : Bool :=
  let g := gladeOf s i.glade.val
  (curEng s i).st = .running && !gladeFaulted g && !g.stopReq && !g.stopped && g.cmd ≠ 0 &&
  !(pdOf s (2 * (i.glade.val / 8))).issueOff && !underTest s 2 i.glade.val

/-- An instruction of several steps that is under way when its glade is asked to stop (R126): it runs on to a step boundary. -/
def mayBreak (s : State) (i : GI) : Bool :=
  let g := gladeOf s i.glade.val
  (curEng s i).st = .running && !gladeFaulted g && g.stopReq && !g.stopped && g.cmd ≠ 0 &&
  !(pdOf s (2 * (i.glade.val / 8))).issueOff && !underTest s 2 i.glade.val

/-- An instruction's steps at their start: those before the progress word are complete, and a stop that has been asked for cuts the
instruction at a free step boundary after its next step (R125, R126, log 11). -/
def startAcc (i : GI) (s : State) : Acc :=
  let k := (curEng s i).progress.toNat
  if (gladeOf s i.glade.val).stopReq then
    { s := { s with free := s.free + 1 }, skip := k, quota := some (k + 1 + Config.choice s.free % 4096) }
  else { s := s, skip := k }

/-- Move an engine to an address; outside its section the command faults (R139). -/
def goTo (s : State) (i : GI) (t : Int) : State :=
  let e := curEng s i
  let s1 := setCur s i { e with pc := BitVec.ofInt 20 t, progress := 0 }
  if (e.sectStart : Int) ≤ t && t < e.sectEnd then s1 else faultGlade s1 i.glade.val i.eng stProgram

/-- A branch: outside the section the branching instruction faults where it stands (R139). -/
def branchTo (s : State) (i : GI) (t : Int) : State :=
  let e := curEng s i
  if (e.sectStart : Int) ≤ t && t < e.sectEnd then setCur s i { e with pc := BitVec.ofInt 20 t, progress := 0 }
  else faultGlade s i.glade.val i.eng stProgram

/-- Apply an instruction's outcome. -/
def settleOut (i : GI) (o : GOut) : State :=
  match o with
  | .done s => goTo s i ((curEng s i).pc.toNat + 1)
  | .jump s t => branchTo s i t
  | .wait s => s
  | .fault st s => faultGlade s i.glade.val i.eng st

/-- Issue an instruction (R131, R132). The command has no effect unless the engine runs and stands at that very word; at a word with
a reserved opcode any instruction of the engine meets the reserved opcode instead (log 32). -/
def issue (opc : BitVec 8) (i : GI) (u : Use) (body : State → GOut) (s : State) : State :=
  if !mayIssue s i && !(u.steps && mayBreak s i) then s
  else
    let w := wordAt s i.glade.val i.eng
    if (decodeGlade i.glade i.eng w).isNone then faultGlade s i.glade.val i.eng stProgram
    else if w ≠ instrWord opc i then s
    else if !encOk i u then faultGlade s i.glade.val i.eng stProgram
    else if !guardTrue (curEng s i) i.guard.toNat then settleOut i (.done s)
    else settleOut i (body s)

/-- An engine stopped at the step boundary that it has reached (R126, R327). -/
def haltedAt (e : Eng) : Eng := { e with resumeSt := e.st, st := .stopped }

/-- Close a multi-step instruction: flags, log entry, dropped writes, rounding counter, then the next instruction, the fault, or the stop
that has cut it, with the next step in the progress word (R57, R67, R69, R126, R182, R509). `rc` says that the instruction's destination rounds stochastically. -/
def closeAcc (i : GI) (rc : Bool) (a : Acc) : GOut :=
  let g := i.glade.val
  let acc := (gladeOf a.s g).cmd
  let s1 := raise a.s acc (a.fl ||| (if a.inv.isSome then flInvalid else 0)) a.van
  let s2 := match a.inv with | some e => logInvalid s1 acc g (curEng s1 i).pc e | none => s1
  let s3 := if a.frz then noteFrozen s2 acc (jobOf s2).strict else s2
  if a.err ≠ 0 then
    .fault a.err (setCur s3 i { curEng s3 i with progress := BitVec.ofNat 64 a.steps })
  else if a.cut then .wait (setCur s3 i { haltedAt (curEng s3 i) with progress := BitVec.ofNat 64 a.steps })
  else
    let s4 := if a.quota.isSome then setCur s3 i (haltedAt (curEng s3 i)) else s3
    .done (if rc then setGlade s4 g { gladeOf s4 g with rcnt := (gladeOf s4 g).rcnt + 1 } else s4)

/-! ### Token queues (R134 to R136): 0 to 7 from access to execute, 8 to 15 from execute to access -/

def outQueue (e : Engine) (q : Nat) : Nat := match e with | .ae => q | .xe => 8 + q
def inQueue (e : Engine) (q : Nat) : Nat := match e with | .ae => 8 + q | .xe => q
def otherEng (e : Engine) : Engine := match e with | .ae => .xe | .xe => .ae
def queueOf (g : Glade) (q : Nat) : List (BitVec 32) := tget [] g.queues q
def sentOf (g : Glade) (q : Nat) : List (BitVec 32) := tget [] g.sent q
/-- Entries of a queue in use: tokens in it and entries reserved by SIGNAL (R135). -/
def queueUsed (g : Glade) (q : Nat) : Nat := (queueOf g q).length + (sentOf g q).length

/-- An engine waits to receive on a queue, or to signal into one. -/
def waitsOn (g : Glade) (e : Engine) (q : Nat) : Bool := (engOf g e).st = .waitToken && (engOf g e).waitQ = q

/-- Remove a queue's oldest token; a signaller that waits for a free entry of it issues again (R135, R136). -/
def takeToken (g : Glade) (e : Engine) (q : Nat) : Glade :=
  let g1 := { g with queues := tset [] g.queues q (queueOf g q).tail }
  let o := otherEng e
  if waitsOn g1 o q then setEng g1 o { engOf g1 o with st := .running } else g1

/-! ### The glade events -/

/-- A receiver stalled on its queue takes the token that has come (R136). -/
def execTokenReceive (gi : Fin 128) (e : Engine) (s : State) : Host.Outcome State Fault Refusal :=
  let g := gladeOf s gi.val
  let en := engOf g e
  if waitsOn g e en.waitQ && inQueue e (en.waitQ % 8) = en.waitQ && !g.stopReq && !g.stopped && !gladeFaulted g then
    match queueOf g en.waitQ with
    | [] => .next s
    | t :: _ =>
      let g1 := takeToken g e en.waitQ
      let s1 := setGlade s gi.val (setEng g1 e (sSet { engOf g1 e with st := .running } en.waitSa.toNat (t.setWidth 64)))
      .next (goTo s1 { glade := gi, eng := e } (en.pc.toNat + 1))
  else .next s

/-- A signalled token enters its queue, the oldest first (R135). -/
def execTokenEnter (gi : Fin 128) (e : Engine) (q : Fin 8) (s : State) : Host.Outcome State Fault Refusal :=
  let g := gladeOf s gi.val
  let k := outQueue e q.val
  match sentOf g k with
  | [] => .next s
  | t :: r => .next (setGlade s gi.val { g with sent := tset [] g.sent k r, queues := tset [] g.queues k (queueOf g k ++ [t]) })

/-- A meeting counter's value (R179). -/
def counterAt (s : State) (a : BitVec 64) : BitVec 64 := BitVec.ofNat 64 (leNat (rdBytes s.mem a.toNat 8))

/-- An engine stalled in MEET goes on once its counter has reached the goal (R179). -/
def execMeetRelease (gi : Fin 128) (e : Engine) (s : State) : Host.Outcome State Fault Refusal :=
  let g := gladeOf s gi.val
  let en := engOf g e
  if en.st = .waitMeet && !g.stopReq && !g.stopped && !gladeFaulted g && en.meetGoal.toNat ≤ (counterAt s en.meetAddr).toNat then
    let s1 := setGlade s gi.val (setEng g e { en with st := .running })
    .next (goTo s1 { glade := gi, eng := e } (en.pc.toNat + 1))
  else .next s

/-- The job's meet limit has passed for a stalled MEET (R180). -/
def execMeetTimeout (gi : Fin 128) (e : Engine) (s : State) : Host.Outcome State Fault Refusal :=
  let g := gladeOf s gi.val
  let en := engOf g e
  if en.st = .waitMeet && !g.stopped && !gladeFaulted g && !(en.meetGoal.toNat ≤ (counterAt s en.meetAddr).toNat) then
    .next (faultGlade (advanceTo s (en.stalledAt.toNat + (jobOf s).meetMs * 1000000)) gi.val e stProgram)
  else .next s

/-- An engine of a deadlocked glade (R137): halted, waiting on an empty queue with no token on its way, or signalling into a full
queue. -/
def cannotProceed (g : Glade) (e : Engine) : Bool :=
  let en := engOf g e
  en.st = .halted ||
  (en.st = .waitToken &&
    (if inQueue e (en.waitQ % 8) = en.waitQ then queueUsed g en.waitQ = 0 else 64 ≤ queueUsed g en.waitQ))

/-- Both engines of a glade are stalled and neither can proceed: PROGRAM_FAULT against the execute engine, or the access engine where
the execute engine had halted (R137). -/
def execDeadlock (gi : Fin 128) (s : State) : Host.Outcome State Fault Refusal :=
  let g := gladeOf s gi.val
  if g.cmd ≠ 0 && !g.stopped && cannotProceed g .ae && cannotProceed g .xe && !(engHalted g.ae && engHalted g.xe) then
    .next (faultGlade s gi.val (if engHalted g.xe then .ae else .xe) stProgram)
  else .next s

/-- Stop an engine at its step boundary, remembering what it was doing (R126, R327). -/
def stopEng (e : Eng) : Eng :=
  if e.st = .halted || e.st = .faulted || e.st = .idle || e.st = .stopped then e else haltedAt e

/-- The time at which a glade of a job being pre-empted has stopped (R327 step 2). -/
def markRest (s : State) : State :=
  { s with job := s.job.map (fun j => if j.st = 3 then { j with restAt := s.hub.time } else j) }

/-- A glade that was asked to stop reaches its next step boundary: after a fault of its command (R182), for an abort (R306) or for a
pre-emption (R327). -/
def execGladeStop (gi : Fin 128) (s : State) : Host.Outcome State Fault Refusal :=
  let g := gladeOf s gi.val
  if g.stopReq && !g.stopped then
    .next (settle (setGlade (markRest s) gi.val { g with ae := stopEng g.ae, xe := stopEng g.xe, stopReq := false, stopped := true }) g.cmd)
  else .next s

end Sys2Proof.Machine
end

