-- ==== Sys2Proof/Machine/Array.lean ====
section
/-! DEFINITION. The cell array: WLD, MM and MM_G (R78 to R103, R150 to R158). -/

namespace Sys2Proof.Machine

/-! ### Operand pairs (R79 to R81, R150) -/

/-- Contraction depth of a stationary format and packing with a streaming format; none where they form no pair. -/
def pairDepth (sf pack vf : Nat) : Option Nat :=
  if sf = 1 then
    if vf = 1 then (if pack = 1 then some 1024 else none)
    else if vf = 2 || vf = 3 then (if pack = 0 then some 512 else none)
    else if 4 ≤ vf && vf ≤ 6 then (if pack = 2 then some 256 else none)
    else none
  else if 2 ≤ sf && sf ≤ 6 then
    if vf = 1 then (if 4 ≤ sf then some 256 else none)
    else if 2 ≤ vf && vf ≤ 6 then some 256 else none
  else none

/-- The deepest stationary tile a format and packing may have (R79, R150); 0 where the format is no operand format (R81). -/
def maxDepth (sf pack : Nat) : Nat :=
  if sf = 1 then (match pack with | 0 => 512 | 1 => 1024 | 2 => 256 | _ => 0)
  else if 2 ≤ sf && sf ≤ 6 then (if pack = 0 then 256 else 0) else 0

/-- Contraction elements held per cell (R82, R150). -/
def groupSize (sf pack : Nat) : Nat := if sf = 1 then (match pack with | 0 => 2 | 1 => 4 | _ => 1) else 1

/-! ### Elements and products (R60, R87) -/

/-- An element as the array reads it: subnormal M12, M16 and W24 operands flush to signed zero (R60). -/
def arrVal (fmt code scale : Nat) : Val :=
  match elemVal fmt code scale with
  | .fin n m e => if 4 ≤ fmt && fmt ≤ 6 && (code >>> (fmtF fmt).fb) % 2 ^ (fmtF fmt).eb = 0 then .fin n 0 e else .fin n m e
  | v => v

/-- An L4 element's significand with its scale, and its half-octave exponent h from −6 to 0 (R40, R87); a zero takes h = 0. -/
def l4Split (code scale : Nat) : Val × Int :=
  if scale = 255 then (.nan, 0)
  else if scale = 0 || code % 8 = 0 then (.fin false 0 0, 0)
  else (.fin (code.testBit 3) 1 ((scale : Int) - 127), ((code % 8 : Nat) : Int) - 7)

/-- The factor an operand brings and its half-octave exponent: 0 for every format but L4. -/
def operand (fmt code scale : Nat) : Val × Int := if fmt = 1 then l4Split code scale else (arrVal fmt code scale, 0)

/-- Multiply a value by 2^k. -/
def scaleVal (v : Val) (k : Int) : Val := match v with | .fin n m e => .fin n m (e + k) | w => w

/-- A product, its bin (true: odd) and its CAUSE (R87); a product with a W24 operand is rounded once (R107). -/
def product (w24 : Bool) (a b : Val × Int) : Val × Bool × R32 :=
  let h := a.2 + b.2
  let p := mulVal a.1 b.1
  let v := scaleVal p.1 (h / 2)
  let r := if w24 then rnd32 v else ⟨0, 0, 0⟩
  let fl := r.fl ||| (if p.2 ≠ 0 then flInvalid else 0)
  (if w24 then dec32 r.v else v, h % 2 = 1, ⟨0, fl, p.2⟩)

/-! ### A column's sum (R87, R88, R103) -/

/-- The partial sums of a column with the flags raised and the first INVALID event: its CAUSE and BLOCK. -/
structure Col where
  even : BitVec 32 := negZero32
  odd  : BitVec 32 := negZero32
  fl   : BitVec 5 := 0
  ev   : Option (Nat × Nat) := none
  deriving DecidableEq, Repr

/-- Note flags and the first cause. -/
def Col.note (c : Col) (r : R32) (block : Nat) : Col :=
  { c with fl := c.fl ||| r.fl, ev := if c.ev.isSome then c.ev else if r.cause = 0 then none else some (r.cause, block) }

/-- A cell adds its products for one bin to the incoming sum and rounds once, flushing a subnormal result (R60, R87). -/
def cellAdd (sum : BitVec 32) (ps : List Val) : R32 :=
  let t := ps.foldl (fun (a : Val × Nat) v => let q := addVal a.1 v; (q.1, if a.2 ≠ 0 then a.2 else q.2)) (dec32 sum, 0)
  let r := rndC t
  { r with v := flush32 r.v }

/-- One array row: the products of its element group join both bins (R82, R87). -/
def cellStep (w24 : Bool) (c : Col) (g : List (Nat × (Val × Int) × (Val × Int))) : Col :=
  let ps := g.map (fun x => (x.1, product w24 x.2.1 x.2.2))
  let c1 := ps.foldl (fun c p => c.note p.2.2.2 p.1) c
  let blk := (ps.head?.map (·.1)).getD 0
  let es := (ps.filter (fun p => !p.2.2.1)).map (·.2.1)
  let os := (ps.filter (fun p => p.2.2.1)).map (·.2.1)
  let c2 := if es = [] then c1 else let r := cellAdd c1.even es; { c1.note r blk with even := r.v }
  if os = [] then c2 else let r := cellAdd c2.odd os; { c2.note r blk with odd := r.v }

/-- Pair streaming and stationary operands with their contraction block numbers, cut into the groups of the array rows. -/
def groupsOf (g blk : Nat) (xs ys : List (Val × Int)) : List (List (Nat × (Val × Int) × (Val × Int))) :=
  chunks g ((numbered (xs.zip ys)).map (fun e => (e.1 / blk, e.2)))

/-- A column result. The odd bin times K is flushed as an accumulator result of the column is (R60, R88), while a product rounded under R107
is not (log 69). It is the sum from −0 in row order, and for a pair with L4 the two bins combined at the bottom (R87, R88, R103). -/
def colResult (l4 w24 : Bool) (g blk : Nat) (xs ys : List (Val × Int)) : R32 × Option (Nat × Nat) :=
  let c := (groupsOf g blk xs ys).foldl (cellStep w24) {}
  if l4 then
    let t := mul32 c.odd k32
    let c1 := c.note t 0xFFFF
    let r := add32 c1.even (flush32 t.v)
    let c2 := c1.note r 0xFFFF
    (⟨flush32 r.v, c2.fl, 0⟩, c2.ev)
  else (⟨c.even, c.fl, 0⟩, c.ev)

/-- A pass's results for one input vector: 256 columns, cells beyond the tile's COLS holding zero (R83, R150), with the flags and the
first event by ascending column. -/
structure PassRow where
  vals : List (BitVec 32)
  fl   : BitVec 5
  ev   : Option (Nat × Nat × Nat)
  deriving DecidableEq, Repr

/-- Operands of a stationary column. -/
def colOperands (st : STile) (j : Nat) : List (Val × Int) :=
  ((st.codes.getD j []).zip (st.scales.getD j [])).map (fun e => operand st.fmt.toNat e.1 e.2)

/-- Run one input vector against a stationary tile. Array rows beyond the tile's ROWS add nothing, no +0 product (R103, log 69). `blk` is the streaming tile's block size, by which a log entry numbers blocks
(log 35). -/
def passRow (st : STile) (vf blk : Nat) (vec : List (Nat × Nat)) : PassRow :=
  let sf := st.fmt.toNat
  let g := groupSize sf st.pack.toNat
  let l4 := sf = 1 || vf = 1
  let w24 := sf = fmtW24 || vf = fmtW24
  let xs := vec.map (fun e => operand vf e.1 e.2)
  let inf := vec.foldl (fun f e => f ||| elemInf vf e.1 e.2) (if st.marked then flInfIn else 0)
  let cols := (List.range st.cols).map (fun j => colResult l4 w24 g blk xs (colOperands st j))
  let zero := colResult l4 w24 g blk xs (xs.map (fun _ => (.fin false 0 0, 0)))
  let all := cols ++ List.replicate (256 - st.cols) zero
  { vals := all.map (·.1.v), fl := all.foldl (fun f c => f ||| c.1.fl) inf,
    ev := (numbered all).findSome? (fun c => c.2.2.map (fun e => (c.1, e.1, e.2))) }

/-! ### Window rows (R90 to R92, R96 to R98) -/

def rowVal (g : Glade) (r : Nat) : List (BitVec 32) :=
  let b := rdBytes g.mem (winBase + 1024 * r) 1024
  (List.range 256).map (fun c => BitVec.ofNat 32 (fieldLe b (4 * c) 4))
def rowTag (g : Glade) (r : Nat) : Tag := tget tagPublic g.tags (65536 + r)
def rowPair (g : Glade) (r : Nat) : Bool := tget false g.pair r

/-- A poisoned window row is among some (R492). -/
def poisonedRows (g : Glade) (rows : List Nat) : Bool := rows.any (fun r => rowTag g r = tagPoison)

/-- Write a whole window row with its tag and mode (R91, R92, R98). -/
def setRow (g : Glade) (r : Nat) (v : List (BitVec 32)) (t : Tag) (pair : Bool) : Glade :=
  { g with mem := wrBytes g.mem (winBase + 1024 * r) (v.flatMap (fun x => bvLe x 4)),
           tags := tset tagPublic g.tags (65536 + r) t, pair := tset false g.pair r pair }

/-- Change a row's tag alone (R101). -/
def setRowTag (g : Glade) (r : Nat) (t : Tag) : Glade := { g with tags := tset tagPublic g.tags (65536 + r) t }

/-- A bottom-buffer add: nearest-even with the flushing of R60 (R92). -/
def bufAdd (a b : BitVec 32) : R32 := let r := add32 a b; { r with v := flush32 r.v }

/-- The error-free two-sum of pair accumulation: new s and e, with flags and cause (R97). -/
def twoSum (s e p : BitVec 32) : BitVec 32 × BitVec 32 × BitVec 5 × Nat :=
  let s2 := bufAdd s p
  let b := bufAdd s2.v (neg32 s)
  let u := bufAdd s2.v (neg32 b.v)
  let d1 := bufAdd s (neg32 u.v)
  let d2 := bufAdd p (neg32 b.v)
  let d := bufAdd d1.v d2.v
  let e2 := bufAdd e d.v
  let all := [s2, b, u, d1, d2, d, e2]
  (s2.v, e2.v, all.foldl (fun f r => f ||| r.fl) 0, (all.findSome? (fun r => if r.cause ≠ 0 then some r.cause else none)).getD 0)

/-- What a pass does to its rows: the flags of MM and MM_G. -/
structure PassFlags where
  acc  : Bool
  skip : Bool
  pair : Bool
  deriving DecidableEq, Repr

/-- The first column in which a list of causes is not 0, as a log event of a window row. -/
def firstCause (row : Nat) (t : Tag) (cs : List Nat) : Option LogEv :=
  (numbered cs).findSome? (fun c => if c.2 = 0 then none else some { cause := c.2, row := row, col := c.1, tag := t })

/-- One input vector of a pass enters window row `row`, or pair row `row` (R91, R92, R97, R98, R100, R101): its tag joins those of the
vector, of the tile and of an accumulated row as one set (R91, R228). A poisoned tile or row is not read (R492). A pair pass that
overwrites leaves +0 in every column of the error row, whose value no rule gives (log 69). -/
def passInto (pl : Place) (pf : PassFlags) (st : STile) (vf blk row : Nat) (vec : List (Nat × Nat)) (tag : Tag) (a : Acc) : Acc :=
  let g := gladeOf a.s pl.gi
  let r0 := if pf.pair then 2 * row else row
  let rows := if pf.pair then [r0, r0 + 1] else [r0]
  let skipped := pf.skip && isBlock vf && !st.marked && vec.all (fun e => e.2 = 0)
  if st.tag = tagPoison || (pf.acc && poisonedRows g rows) then a.fail stDevice else
  match joinAll (tag :: st.tag :: (if pf.acc then rows.map (rowTag g) else [])) with
  | none => a.fail stOwnerMix
  | some t =>
    if skipped then
      if pf.acc then { a with s := setGlade a.s pl.gi (rows.foldl (fun g r => setRowTag g r t) g) }
      else { a with s := setGlade a.s pl.gi (rows.foldl (fun g r => setRow g r (List.replicate 256 0) t pf.pair) g) }
    else
      let p := passRow st vf blk vec
      let a1 := (a.note p.fl 0).event (p.ev.map (fun e => (⟨e.2.1, r0, e.1, e.2.2, t⟩ : LogEv)))
      if !pf.acc then
        let g1 := setRow g r0 p.vals t pf.pair
        { a1 with s := setGlade a1.s pl.gi (if pf.pair then setRow g1 (r0 + 1) (List.replicate 256 0) t true else g1) }
      else
        let old := rowVal g r0
        if pf.pair then
          let err := rowVal g (r0 + 1)
          let xs := ((old.zip err).zip p.vals).map (fun x => twoSum x.1.1 x.1.2 x.2)
          let fl := xs.foldl (fun f x => f ||| x.2.2.1) ((old ++ err).foldl (fun f v => f ||| infIn v) 0)
          let a2 := (a1.note fl 0).event (firstCause r0 t (xs.map (·.2.2.2)))
          { a2 with s := setGlade a2.s pl.gi (setRow (setRow g r0 (xs.map (·.1)) t true) (r0 + 1) (xs.map (·.2.1)) t true) }
        else
          let xs := (old.zip p.vals).map (fun x => bufAdd x.1 x.2)
          let fl := xs.foldl (fun f x => f ||| x.fl) (old.foldl (fun f v => f ||| infIn v) 0)
          let a2 := (a1.note fl 0).event (firstCause r0 t (xs.map (·.cause)))
          { a2 with s := setGlade a2.s pl.gi (setRow g r0 (xs.map (·.v)) t false) }

/-! ### WLD (R150) -/

/-- Read the first `n` elements of some stored rows of a tile. -/
def readRowsN (s : State) (pl : Place) (t : Td) (n : Nat) : List Nat → Except Byte (List RowIn)
  | [] => .ok []
  | r :: q => match readRowN s pl t r n with
    | .error e => .error e
    | .ok x => match readRowsN s pl t n q with
      | .error e => .error e
      | .ok l => .ok (x :: l)

/-- A stationary tile made of its stored rows, one per output column, with the join of their tags (R150, R228). -/
def tileOfRows (t : Td) (pack rows cols : Nat) (l : List RowIn) (u : Tag) : STile :=
  { fmt := t.fmt, pack := BitVec.ofNat 2 pack, rows := rows, cols := cols, blk := tBlk t,
    codes := l.map (fun x => (rowElems t x).map (·.2.1)), scales := l.map (fun x => (rowElems t x).map (·.2.2)), tag := u,
    marked := l.any (fun x => rowInf t x ≠ 0) }

/-- Read a stationary tile in stationary orientation: one stored row per output column, `rows` elements deep (R150). -/
def readSTile (s : State) (pl : Place) (t : Td) (pack rows cols : Nat) : Except Byte STile :=
  match readRowsN s pl t rows (List.range cols) with
  | .error e => .error e
  | .ok l => match joinAll (l.map (·.tag)) with
    | none => .error stOwnerMix
    | some u => .ok (tileOfRows t pack rows cols l u)

/-- WLD loads tdA into the shadow weight registers; over a loaded shadow tile it faults (R86, R102, R150). -/
def execWld (i : GI) (s : State) : Host.Outcome State Fault Refusal :=
  .next (issue 0x30 i { ta := true, flags := 3, only := some .xe } (fun s =>
    let t := tdGet (curEng s i) i.ta.toNat
    let pl := placeOf s i.glade.val
    let pack := i.flags.toNat % 4
    if (gladeOf s i.glade.val).shadow.isSome then .fault stProgram s
    else if maxDepth (tFmt t) pack < tRows t || 256 < tCols t || !tileOk pl.j pl.prog t (tCols t) (tRows t) then .fault stProgram s
    else match readSTile s pl t pack (tRows t) (tCols t) with
      | .error e => .fault e s
      | .ok st =>
        closeAcc i false { s := setGlade s i.glade.val { gladeOf s i.glade.val with shadow := some st },
                           fl := if st.marked then flInfIn else 0, steps := tCols t }) s)

/-! ### MM (R151) -/

/-- First row of a window tile, in pair rows for a pair pass (R90, R151). -/
def firstRow (t : Td) (pair : Bool) : Nat := (tBase t - winBase) / (if pair then 2048 else 1024)

/-- A window tile that an MM, MM_G or CVT may use: c0 is 0, a pair tile aligned to 2,048 and inside the window (R90, R151, R159). -/
def passTile (pl : Place) (t : Td) (pair : Bool) : Bool :=
  tdOk pl t && tWindow t && tCol0 t = 0 && (!pair || (tBase t % 2048 = 0 && firstRow t true + tRows t ≤ 2048))

/-- Every row that an accumulating pass would touch has the pass's mode (R98). -/
def modesOk (g : Glade) (pair : Bool) (first n : Nat) : Bool :=
  (List.range n).all (fun r =>
    if pair then rowPair g (2 * (first + r)) && rowPair g (2 * (first + r) + 1) else !rowPair g (first + r))

def passFlags (f : BitVec 8) : PassFlags := ⟨f.getLsbD 0, f.getLsbD 1, f.getLsbD 2⟩

/-- MM runs one pass of tdB against the shadow tile, which becomes active with its first step, into window tile tdA (R86, R91, R92, R98, R151). -/
def execMm (i : GI) (s : State) : Host.Outcome State Fault Refusal :=
  .next (issue 0x31 i { ta := true, tb := true, flags := 7, only := some .xe, steps := true } (fun s =>
    let e := curEng s i
    let a := tdGet e i.ta.toNat
    let b := tdGet e i.tb.toNat
    let pl := placeOf s i.glade.val
    let pf := passFlags i.flags
    let g := gladeOf s i.glade.val
    match (if e.progress = 0 then g.shadow else g.active) with
    | none => .fault stProgram s
    | some st =>
      if !passTile pl a pf.pair || !tdOk pl b || tCols b ≠ st.rows || tRows a ≠ tRows b ||
         (pairDepth st.fmt.toNat st.pack.toNat (tFmt b)).isNone || (pf.acc && !modesOk g pf.pair (firstRow a pf.pair) (tRows a)) then
        .fault stProgram s
      else
        let s1 := if e.progress = 0 then setGlade s i.glade.val { g with shadow := none, active := some st } else s
        closeAcc i false (runRows (fun r x =>
          match readRow x.s pl b r with
          | .error er => x.fail er
          | .ok row => passInto pl pf st (tFmt b) (tBlk b) (firstRow a pf.pair + r) ((rowElems b row).map (·.2)) row.tag x)
          (tRows b) (startAcc i s1))) s)

/-! ### MM_G (R152 to R158) -/

/-- A group entry (R152, R153). -/
structure Group where
  id    : Nat
  count : Nat
  first : Nat
  cap   : Nat
  deriving DecidableEq, Repr

def groupAt (b : Bytes) : Group := ⟨fieldLe b 0 4, fieldLe b 4 4, fieldLe b 8 4, fieldLe b 12 4⟩
def idIndex (w : Nat) : Nat := w % 65536
def idPriv (w : Nat) : Bool := w.testBit 16
def idGen (w : Nat) : Nat := if w.testBit 17 then 1 else 0

/-- Where a stationary tile lies: descriptor relative to its copy (log 10). -/
def projTd (l : List Nat) (base : Nat) (space : Nat) : Td :=
  { base := BitVec.ofNat 48 (base + l.getD 4 0), space := BitVec.ofNat 2 space, fmt := BitVec.ofNat 4 (l.getD 0 0),
    blk := BitVec.ofNat 2 (l.getD 1 0), pitch := BitVec.ofNat 32 (l.getD 5 0), sbase := BitVec.ofNat 48 (base + l.getD 6 0),
    sspace := BitVec.ofNat 2 space, spitch := BitVec.ofNat 32 (l.getD 7 0) }

/-- Cell packing MM_G's tile takes against a streaming format (R150). -/
def packFor (sf vf : Nat) : Nat := if sf = 1 then (if vf = 1 then 1 else if vf = 2 || vf = 3 then 0 else 2) else 0

/-- A base expert's entry in the base expert table (R156, R391). -/
def baseEntry (bg : BaseGen) (layer proj expert : Nat) : Option BaseEnt :=
  bg.table.find? (fun e => e.layer = layer && e.proj = proj && e.expert = expert)

/-- A stationary tile of a base expert: read from the generation's copy in device memory (R156, R267). -/
def baseTile (s : State) (pl : Place) (g layer proj expert : Nat) (copy : Bool) (vf kt col : Nat) : Except Byte STile :=
  let bg := baseOf pl.j g
  match baseEntry bg layer proj expert with
  | none => .error stProgram
  | some en =>
    let dims := Config.projDims g layer proj expert
    if (copy && !bg.current) || dims.1 ≤ kt || dims.2 ≤ col then .error stProgram
    else
      let l := Config.projTile g layer proj expert copy kt col
      let base := (if copy then bg.trn.toNat else bg.nat.toNat) + en.offset
      readSTile s pl (projTd l base 1) (packFor (l.getD 0 0) vf) (l.getD 2 0) (l.getD 3 0)

/-- The base's model width D: a property of the base's image, which no register tells (R242, log 10). -/
def modelWidth (j : Job) : Nat := Config.modelWidth (if j.baseB.current then 1 else 0)

/-- Contraction and output sizes of a private expert's projection, whose feed-forward width is 64 × WIDTH: up and gate contract over the
model width, down over the feed-forward width, and a transposed copy the other way (R110, R241, R242). -/
def privDims (d width proj : Nat) (copy : Bool) : Nat × Nat :=
  if (proj = 2) != copy then (64 * width, d) else (d, 64 * width)

/-- Bytes of a part of `n` elements of a serving copy: its elements, then a scale byte for each block, to a whole line (R242). -/
def copyPart (n b : Nat) : Nat := alignUp (n + n / b) 256

/-- The seal of the lines of a slot's home and pool copies: GEN is their version (R252, R415). -/
def homeSeal (j : Job) (t : Nat) (gen : BitVec 32) : Seal := ⟨tagTenant t, tenantInfo t (tenOf j t).digest, gen⟩

/-- A stationary tile of a private expert, which is M8 in the slot's block size and carries the owner's tag, cut out of its serving copy: the
router column, the up, gate and down projections, then the transposed ones (R241, R242). A projection's elements stand by output column,
each column's contraction run on end, as R150 reads a stationary tile (log 10). -/
def copyTile (v : Slot) (d proj : Nat) (copy : Bool) (kt col : Nat) : STile :=
  let b := blkSize v.blk.toNat
  let dims := privDims d v.width.toNat proj copy
  let part := copyPart (d * (64 * v.width.toNat)) b
  let start := copyPart d b + (proj + (if copy then 3 else 0)) * part
  let rows := min 256 (dims.1 - 256 * kt)
  let at_ := fun (jc k : Nat) => (256 * col + jc) * dims.1 + 256 * kt + k
  let cols := List.range (min 256 (dims.2 - 256 * col))
  let codes := cols.map (fun jc => (List.range rows).map (fun k => (rd1 v.copy (start + at_ jc k)).toNat))
  let scales := cols.map (fun jc => (List.range rows).map (fun k => (rd1 v.copy (start + dims.1 * dims.2 + at_ jc k / b)).toNat))
  ⟨BitVec.ofNat 4 fmtM8, 0, rows, cols.length, b, codes, scales, tagTenant v.owner.toNat, scales.any (fun c => c.contains 255)⟩

/-- A tile of a tenant's private router columns: one column per private expert of the layer, in ascending slot order (R156, R242). -/
def routerTile (j : Job) (acc : BitVec 64) (t layer kt : Nat) : STile :=
  let d := modelWidth j
  let n := min 256 (d - 256 * kt)
  let es := readySlots j acc t layer
  let codes := es.map (fun e => (List.range n).map (fun k => (rd1 e.2.copy (256 * kt + k)).toNat))
  let scales := es.map (fun e => (List.range n).map (fun k => (rd1 e.2.copy (d + (256 * kt + k) / blkSize e.2.blk.toNat)).toNat))
  ⟨2, 0, n, es.length, 32, codes, scales, tagTenant t, scales.any (fun c => c.contains 255)⟩

/-- A resident copy, or the status of a group that needs it: its lines must carry their slot's seal (R156, R252, R255). -/
def residentCopy (j : Job) (v : Slot) : Except Byte Unit :=
  if v.res ≠ .cached && v.res ≠ .hot then .error stNotResident
  else if v.copySeal ≠ some (homeSeal j v.owner.toNat v.gen) then .error stIntegrity
  else .ok ()

/-- A stationary tile of a group's expert, or the status of a group that cannot be run (R156). A slot of another layer than IMM's, and COPY 1
on a slot without transposed parts, count as a tile outside the projection (log 22). -/
def groupTile (s : State) (pl : Place) (id layer proj : Nat) (copy : Bool) (vf kt col : Nat) : Except Byte STile :=
  let ix := idIndex id
  let acc := (gladeOf s pl.gi).cmd
  let d := modelWidth pl.j
  if !idPriv id then baseTile s pl (idGen id) layer proj ix copy vf kt col
  else if proj = 3 then
    let t := ix % 4096
    match (readySlots pl.j acc t layer).findSome? (fun e => match residentCopy pl.j e.2 with | .error x => some x | .ok _ => none) with
    | some x => .error x
    | none => if 4096 ≤ ix || ceilDiv d 256 ≤ kt || col ≠ 0 then .error stProgram else .ok (routerTile pl.j acc t layer kt)
  else
    let v := slotOf pl.j ix
    if !readyFor pl.j acc v then .error stNotResident
    else match residentCopy pl.j v with
      | .error x => .error x
      | .ok _ =>
        let dims := privDims d v.width.toNat proj copy
        if dims.1 ≤ 256 * kt || dims.2 ≤ 256 * col || v.layer.toNat ≠ layer || (copy && !v.tcopy) then .error stProgram
        else .ok (copyTile v d proj copy kt col)

/-- The owner check of a streamed row (R157). -/
def groupOwnerOk (j : Job) (id proj : Nat) (t : Tag) : Bool :=
  if idPriv id then t = tagTenant (if proj = 3 then idIndex id else (slotOf j (idIndex id)).owner.toNat)
  else (join t (tagBase (idGen id))).isSome

/-- MM_G's operands beside the tiles: IMM (R155), the first index sC and the flags of MM (R154). -/
structure GroupOp where
  layer : Nat
  proj  : Nat
  copy  : Bool
  col   : Nat
  k0    : Nat
  kn    : Nat
  sc    : Nat
  pf    : PassFlags
  deriving DecidableEq, Repr

/-- The rows of one group against one contraction tile: the contraction columns of tile kt of rows FIRST − sC onward (R154). Contraction
tile kt takes the columns after those of the tiles before it, each as deep as the pair allows (R79, log 10). -/
def groupPass (pl : Place) (o : GroupOp) (a b : Td) (g : Group) (kt : Nat) (st : STile) (x : Acc) : Acc :=
  let depth := (pairDepth st.fmt.toNat st.pack.toNat (tFmt b)).getD 256
  let acc := o.pf.acc || kt ≠ o.k0
  runRows (fun r x =>
    let src := g.first - o.sc + r
    match readRow x.s pl b src with
    | .error er => x.fail er
    | .ok row =>
      if !groupOwnerOk pl.j g.id o.proj row.tag then x.fail stOwnerMix
      else
          let vec := (((rowElems b row).map (·.2)).drop (depth * kt)).take st.rows
          let dst := firstRow a o.pf.pair + src
          if acc && !modesOk (gladeOf x.s pl.gi) o.pf.pair dst 1 then x.fail stProgram
          else if vec.length ≠ st.rows then x.fail stProgram
          else passInto pl { o.pf with acc := acc } st (tFmt b) (tBlk b) dst vec row.tag x) g.count x

/-- One group: its contraction tiles in order, each fetched into the shadow registers and made active by its pass (R154). A group without
rows is passed over before any check of it (log 22), and a pass whose steps were complete before a stop is not run again (R126). -/
def groupRun (pl : Place) (o : GroupOp) (a b : Td) (g : Group) (x : Acc) : Acc :=
  if g.count = 0 then x
  else if g.first < o.sc || tRows b < g.first - o.sc + g.count || tRows a < g.first - o.sc + g.count || g.first % 64 ≠ 0 || g.cap % 64 ≠ 0 then
    x.fail stProgram
  else
    (List.range o.kn).foldl (fun x k =>
      if x.err ≠ 0 || x.cut then x
      else if x.steps + g.count ≤ x.skip then { x with steps := x.steps + g.count }
      else match groupTile x.s pl g.id o.layer o.proj o.copy (tFmt b) (o.k0 + k) o.col with
      | .error e => x.fail e
      | .ok st =>
        if (pairDepth st.fmt.toNat st.pack.toNat (tFmt b)).isNone then x.fail stProgram
        else
          let gl := gladeOf x.s pl.gi
          groupPass pl o a b g (o.k0 + k) st
            { x with s := setGlade x.s pl.gi { gl with shadow := none, active := some st } }) x

/-- MM_G runs the grouped expert products of the group list at sA (R152 to R158). -/
def execMmG (i : GI) (s : State) : Host.Outcome State Fault Refusal :=
  .next (issue 0x32 i { ta := true, tb := true, sa := true, sb := true, sc := true, flags := 7,
                        imm := ~~~(0xF800 : BitVec 64), only := some .xe, steps := true } (fun s =>
    let e := curEng s i
    let a := tdGet e i.ta.toNat
    let b := tdGet e i.tb.toNat
    let pl := placeOf s i.glade.val
    let n := (sGet e i.sb.toNat).toNat
    let list := (sGet e i.sa.toNat).toNat
    let m := i.imm.toNat
    let o : GroupOp := ⟨bitsOf m 0 8, bitsOf m 8 2, m.testBit 10, bitsOf m 16 16, bitsOf m 32 16, bitsOf m 48 16,
      (sGet e i.sc.toNat).toNat, passFlags i.flags⟩
    if !passTile pl a o.pf.pair || !tdOk pl b || n = 0 || o.kn = 0 || !inScratch pl.j list (16 * n) ||
       tFmt b = fmtW32 || tFmt b = fmtF8 then .fault stProgram s
    else if gPoisoned (gladeOf s i.glade.val) list (16 * n) then .fault stDevice s
    else
      let gs := (List.range n).map (fun k => groupAt (rdBytes (gladeOf s i.glade.val).mem (list + 16 * k) 16))
      closeAcc i false (gs.foldl (fun x g => if x.err ≠ 0 || x.cut then x else groupRun pl o a b g x) (startAcc i s))) s)

end Sys2Proof.Machine
end

