-- ==== Sys2Proof/Machine/RegRead.lean ====
section
/-! DEFINITION. The registers of BAR0: their addresses (R543 to R545) and the value each reads (chapter "Register map" and the registers' home chapters). -/

namespace Sys2Proof.Machine

/-- The registers of R544; a window register is the one of the selected object. -/
inductive Reg where
  | hubId | devidLo | devidHi | capA | capB | hubStatus | hubBoot | hubTime | accNext | fenceDie | fenceIo
  | hubJob | cxlWin | egrBase | cnpWmark | hubPark | fabAddr | fabPeers | rstCtl | rstStatus | restartAddr | restartCtl
  | frozenDrop | hubPwr | excCnt (n : Nat)
  | mbAddr | mbCtl | mbStatus | rgrState
  | wvCap | wvPeak
  | errCfg | errBase | errPtr
  | ringSel | gladeSel | chanSel | portSel | domSel | streamSel | pdSel
  | ringCfg | ringSq | ringCq | ringJnl | ringDb | ringStatus | ringCount | ringReset
  | gladeStatus | chanStatus
  | portCfg | portStatus | portCntA | portCntB
  | domCfg | domApool | domKv
  | streamCfg | streamEst | streamCnt
  | pdCtl | pdStatus | pdWv
  deriving DecidableEq, Repr

/-- The register of an offset; none for a reserved offset (R539, R543 to R545). -/
def regAt (off : Nat) : Option Reg :=
  match off with
  | 0x00000 => some .hubId | 0x00008 => some .devidLo | 0x00010 => some .devidHi | 0x00018 => some .capA
  | 0x00020 => some .capB | 0x00028 => some .hubStatus | 0x00030 => some .hubBoot | 0x00038 => some .hubTime
  | 0x00040 => some .accNext | 0x00048 => some .fenceDie | 0x00050 => some .fenceIo
  | 0x01000 => some .hubJob | 0x01008 => some .cxlWin | 0x01010 => some .egrBase | 0x01018 => some .cnpWmark
  | 0x01020 => some .hubPark | 0x01028 => some .fabAddr | 0x01030 => some .fabPeers | 0x01038 => some .rstCtl
  | 0x01040 => some .rstStatus | 0x01048 => some .restartAddr | 0x01050 => some .restartCtl | 0x01058 => some .frozenDrop
  | 0x01060 => some .hubPwr
  | 0x01080 => some (.excCnt 0) | 0x01088 => some (.excCnt 1) | 0x01090 => some (.excCnt 2) | 0x01098 => some (.excCnt 3)
  | 0x010A0 => some (.excCnt 4) | 0x010A8 => some (.excCnt 5) | 0x010B0 => some (.excCnt 6) | 0x010B8 => some (.excCnt 7)
  | 0x02000 => some .mbAddr | 0x02008 => some .mbCtl | 0x02010 => some .mbStatus | 0x02018 => some .rgrState
  | 0x03000 => some .wvCap | 0x03008 => some .wvPeak
  | 0x04000 => some .errCfg | 0x04008 => some .errBase | 0x04010 => some .errPtr
  | 0x05000 => some .ringSel | 0x05008 => some .gladeSel | 0x05010 => some .chanSel | 0x05018 => some .portSel
  | 0x05020 => some .domSel | 0x05028 => some .streamSel | 0x05030 => some .pdSel
  | 0x10000 => some .ringCfg | 0x10008 => some .ringSq | 0x10010 => some .ringCq | 0x10018 => some .ringJnl
  | 0x10020 => some .ringDb | 0x10028 => some .ringStatus | 0x10030 => some .ringCount | 0x10038 => some .ringReset
  | 0x11000 => some .gladeStatus | 0x12000 => some .chanStatus
  | 0x13000 => some .portCfg | 0x13008 => some .portStatus | 0x13010 => some .portCntA | 0x13018 => some .portCntB
  | 0x14000 => some .domCfg | 0x14008 => some .domApool | 0x14010 => some .domKv
  | 0x15000 => some .streamCfg | 0x15008 => some .streamEst | 0x15010 => some .streamCnt
  | 0x16000 => some .pdCtl | 0x16008 => some .pdStatus | 0x16010 => some .pdWv
  | _ => none

/-- A register value from its fields: low bit, width, value. -/
def pack (fs : List (Nat × Nat × Nat)) : BitVec 64 :=
  BitVec.ofNat 64 (fs.foldl (fun a f => a + f.2.2 % 2 ^ f.2.1 * 2 ^ f.1) 0)

def nat (b : Bool) : Nat := if b then 1 else 0

/-! ### Conditions that registers and completion records report -/

/-- Dies, channels and ports fenced or down (R399, R554): a die held in a die reset is down, a port down or fenced (log 37). -/
def degraded (s : State) : Bool :=
  s.fences.grove ≠ 0 || s.fences.canopy ≠ 0 || s.fences.horizon ≠ 0 || s.fences.chan ≠ 0 || s.fences.port ≠ 0 ||
  s.rst.held ≠ 0 || s.ports.any (fun p => p.2.st = 4 || p.2.st = 6)

/-- Some die is held in a die reset (R439, R473). -/
def partialNow (s : State) : Bool := s.rst.held ≠ 0

/-- A grove die in service: tested at boot, neither fenced nor held. -/
def groveUp (s : State) (d : Nat) : Bool := s.boot.devReady && !s.fences.grove.getLsbD d && !s.rst.held.getLsbD d

/-- A glade that no command can use, because its die is fenced (R392). -/
def gladeFenced (s : State) (g : Nat) : Bool := s.fences.grove.getLsbD (g / 8)
/-- A glade whose die is held in a die reset (R392). -/
def gladeHeld (s : State) (g : Nat) : Bool := s.rst.held.getLsbD (g / 8)

def gladesUp (s : State) : Nat := 8 * ((List.range 16).filter (groveUp s)).length
def countUpTo (n : Nat) (p : Nat → Bool) : Nat := ((List.range n).filter p).length

/-- The state that RGR_STATE and the report give (R432, R439): PARTIAL while a die is held, else UPDATING (log 37). -/
def rgrStateNow (s : State) : Nat := if partialNow s then 2 else if s.rgr.updating then 1 else 0

/-- HUB_JOB STATE of the current or transitioning job (R301, R307). -/
def jobSt (s : State) : BitVec 3 := match s.job with | some j => j.st | none => 0
/-- The current job is open (R301). -/
def jobOpen (s : State) : Bool := jobSt s = 2

/-- A data ring bound to the current job (R386). -/
def ringBound (s : State) (r : Nat) : Bool :=
  r ≠ 0 && (match s.job with | some j => j.rings.getLsbD r | none => false)

/-- Entries of a ring (R378). -/
def ringN (r : Ring) : Nat := 2 ^ r.size.toNat

/-- The command whose record is a ring's next to release. -/
def nextRecord (s : State) (r : Nat) : Option Cmd :=
  s.cmds.find? (fun c => c.ring = r && c.index = (ringOf s r).released)

/-- A finished record waits because the completion ring is full (R386). -/
def cqFull (s : State) (r : Nat) : Bool :=
  let g := ringOf s r
  (g.released - g.cqHead).toNat = ringN g && (match nextRecord s r with | some c => c.ph = .done | none => false)

/-- Clock points in MHz (R518). -/
def pointMhz (p : Nat) : Nat := match p with | 0 => 850 | 1 => 720 | 2 => 600 | _ => 480

/-- The point that limits a grove die's peak: the higher code of its LIMIT and its cap (R535). -/
def planPoint (s : State) (d : Nat) : Nat :=
  max (pdOf s (2 * d)).limit.toNat ((s.wv.cap.extractLsb' (2 * d) 2).toNat)

/-- The M8 × M8 peak in Top/s, rounded down (R535): a glade gives 65,536 × 2 operations a clock. -/
def peakTops (s : State) : Nat :=
  (((List.range 16).filter (groveUp s)).map (fun d => 8 * 131072 * pointMhz (planPoint s d))).sum / 1000000

/-- Requests on the park list (R258). -/
def parkUsed (s : State) : Nat := match s.job with
  | some j => (j.seqs.filter (fun q => q.st = .parked)).length | none => 0

/-- FRAMEs of a stream accepted and not completed (R325). -/
def framePending (s : State) (i : Nat) : Nat :=
  (s.cmds.filter (fun c => c.ring ≠ 0 && opcOf c = 0x04 && opN c 0 2 = i && c.ph ≠ .done && c.job = (jobOf s).id)).length

/-- An estimate E + (K × D) div 4 (R322); K 0 gives 16 (R318). -/
def estimate (k : BitVec 8) (e d : Int) : Int := e + Int.tdiv ((if k = 0 then 16 else k.toNat : Nat) * d) 4
def estBits (x : Int) : Nat := (max 0 (min x (2 ^ 32 - 1))).toNat

/-- MiB of serving copies of a domain in one of two states (R256). -/
def poolMib (j : Job) (d : Nat) (hotOnly : Bool) : Nat :=
  ceilDiv ((j.slots.filter (fun e => (tenOf j e.2.owner.toNat).dom.toNat = d && e.2.st ≠ .free &&
    (e.2.res = .hot || (!hotOnly && e.2.res = .cached)))).map (fun e => e.2.size)).sum (2 ^ 20)

/-- Remote transfer tags held on a port (R371). -/
def portTags (s : State) (p : Nat) : Nat := (s.fab.xfers.filter (fun x => x.port = p && x.st ≠ .waiting)).length

/-- A pair's peer is in the current job's peer set: its latest binding names the same JOB_ID in state OPEN or SAVED (R352). -/
def isPeer (s : State) (p : Pair) : Bool :=
  p.up && (match p.bind, s.job with | some b, some j => b.jobId = j.id && (b.jobSt = 2 || b.jobSt = 5) | _, _ => false)

/-- Backed GDDR7 capacity in MiB under the mapping in force (R553); a fenced canopy die takes its two quads with it (R499). -/
def gddrMib (s : State) : Nat := ((List.range 8).map (backedSize s)).sum / 2 ^ 20

/-- What a domain's registers show of its table entry: only DOMAIN_SET and JOB_OPEN change it (R209, R256, R316). -/
def shownDom (s : State) (d : Nat) : Dom := tget {} s.domShow d

/-- A grove compute domain (R512). -/
def isGroveCompute (i : Nat) : Bool := i < 32 && i % 2 = 0

/-! ### Reading a register -/

/-- BAR0 answers normally (R540). -/
def barAnswers (s : State) : Bool := s.boot.cfgReady && hubUp s

/-- The value a register holds. -/
def readReg (s : State) (r : Reg) : BitVec 64 :=
  let ri := s.sels.ring.toNat
  let rg := ringOf s ri
  let j := jobOf s
  match r with
  | .hubId => 0x010000B040964C59
  | .devidLo => Config.deviceId.extractLsb' 0 64
  | .devidHi => Config.deviceId.extractLsb' 64 64
  | .capA => 0x0CBFFFFF8FF8207F
  | .capB => pack [(0, 18, gddrMib s),
      (18, 6, (chanOf s 0).rate.toNat), (24, 2, (chanOf s 0).density.toNat), (32, 16, 5120), (48, 4, 4), (52, 1, 1)]
  | .hubStatus => pack [(0, 1, nat s.boot.devReady), (1, 1, nat (degraded s)), (2, 1, nat (partialNow s)),
      (3, 1, nat s.hub.throttling), (4, 1, nat (s.errs.heldRec ≠ [])), (5, 1, nat s.rst.safe),
      (8, 8, countUpTo 32 (fun p => (portOf s p).st = 3)), (16, 8, gladesUp s), (24, 6, countUpTo 32 (fun c => (chanOf s c).st = 2))]
  | .hubBoot => pack [(0, 4, s.boot.stage.toNat), (4, 1, nat s.boot.cfgReady), (5, 1, nat s.boot.devReady),
      (8, 8, s.boot.fail.toNat), (16, 1, nat s.boot.fallback)]
  | .hubTime => s.hub.time
  | .accNext => pack [(0, 48, s.hub.accCount.toNat), (48, 16, s.flash.coldGen.toNat)]
  | .fenceDie => pack [(0, 16, s.fences.grove.toNat), (16, 4, s.fences.canopy.toNat), (20, 4, s.fences.horizon.toNat)]
  | .fenceIo => pack [(0, 32, s.fences.chan.toNat), (32, 32, s.fences.port.toNat)]
  | .hubJob => pack [(0, 3, (jobSt s).toNat), (3, 3, s.saved.length), (6, 1, nat (s.saved.any (·.inArea))), (32, 32, j.id.toNat)]
  | .cxlWin => pack [(0, 10, s.hub.split.toNat), (30, 34, s.hub.winBase.toNat)]
  | .egrBase => pack [(8, 40, s.hub.egr.toNat)]
  | .cnpWmark => pack [(0, 11, s.hub.hostOn.toNat), (16, 11, s.hub.hostOff.toNat), (32, 11, s.hub.orxOn.toNat), (48, 11, s.hub.orxOff.toNat)]
  | .hubPark => pack [(0, 16, s.hub.parkLimit.toNat), (16, 13, parkUsed s), (32, 16, s.hub.parkTimeouts.toNat), (48, 16, s.hub.parkFull.toNat)]
  | .fabAddr => pack [(0, 16, s.hub.fabAddr.toNat), (16, 1, nat s.hub.fabSet)]
  | .fabPeers => pack [(0, 11, (s.fab.pairs.filter (·.up)).length), (16, 11, (s.fab.pairs.filter (isPeer s)).length), (32, 32, s.hub.rekeys.toNat)]
  | .rstCtl => pack [(8, 5, s.rst.dieField.toNat)]
  | .rstStatus => pack [(0, 3, s.rst.last.toNat), (3, 1, nat s.rst.safe), (4, 1, nat s.rst.jobBusy), (5, 1, nat s.rst.dieBusy),
      (8, 24, s.rst.held.toNat), (32, 16, s.rst.warmCnt.toNat), (48, 16, s.flash.coldGen.toNat)]
  | .restartAddr => pack [(8, 56, s.rst.restartAddr.toNat)]
  | .restartCtl => pack [(1, 1, nat s.rst.rsBusy), (2, 1, nat s.rst.rsDone), (3, 1, nat s.rst.rsTrunc), (16, 16, s.rst.rsLimit.toNat), (32, 16, s.rst.rsGen.toNat)]
  | .frozenDrop => s.hub.frozenDrop
  | .hubPwr => pack [(0, 12, s.hub.powerW.toNat), (16, 12, s.hub.capW.toNat), (32, 8, s.hub.maxTemp.toNat), (40, 1, nat s.hub.throttling),
      (41, 1, nat s.hub.thermEvt), (42, 1, nat s.hub.pwrEvt)]
  | .excCnt n => tget 0 s.hub.exc n
  | .mbAddr => pack [(15, 49, s.rgr.mbAddr.toNat)]
  | .mbCtl => pack [(8, 8, s.rgr.mbVector.toNat)]
  | .mbStatus => pack [(0, 1, nat s.rgr.busy), (1, 1, nat s.rgr.done), (8, 8, s.rgr.result.toNat), (16, 16, s.rgr.respLen.toNat), (32, 32, s.rgr.seq.toNat)]
  | .rgrState => pack [(0, 2, rgrStateNow s), (2, 7, s.flash.fusedSvn.toNat), (9, 7, s.rgr.runSvn.toNat), (16, 1, nat s.rgr.bank), (17, 1, nat s.flash.marked)]
  | .wvCap => pack [(0, 32, s.wv.cap.toNat)]
  | .wvPeak => pack [(0, 32, peakTops s), (32, 8, gladesUp s)]
  | .errCfg => pack [(0, 1, nat s.errs.enable), (1, 4, s.errs.size.toNat), (8, 8, s.errs.vector.toNat), (16, 1, nat s.errs.lost)]
  | .errBase => pack [(12, 52, s.errs.base.toNat)]
  | .errPtr => pack [(0, 32, s.errs.head.toNat), (32, 32, s.errs.tail.toNat)]
  | .ringSel => s.sels.ring.setWidth 64
  | .gladeSel => s.sels.glade.setWidth 64
  | .chanSel => s.sels.chan.setWidth 64
  | .portSel => s.sels.port.setWidth 64
  | .domSel => s.sels.dom.setWidth 64
  | .streamSel => s.sels.stream.setWidth 64
  | .pdSel => s.sels.pd.setWidth 64
  | .ringCfg => pack [(0, 1, nat (rg.st = .enabled)), (1, 4, rg.size.toNat), (8, 8, rg.vector.toNat)]
  | .ringSq => pack [(12, 52, rg.sq.toNat)]
  | .ringCq => pack [(12, 52, rg.cq.toNat)]
  | .ringJnl => pack [(12, 52, rg.jnl.toNat)]
  | .ringDb => pack [(6, 58, rg.db.toNat)]
  | .ringStatus => pack [(0, 2, match rg.st with | .disabled => 0 | .enabled => 1 | .draining => 2), (2, 1, nat (ringBound s ri)),
      (3, 1, nat (cqFull s ri)), (4, 1, nat (ri ≠ 0 && s.hub.hostHold)), (5, 1, nat rg.dbRange)]
  | .ringCount => pack [(0, 32, rg.accepted.toNat), (32, 32, rg.released.toNat)]
  | .ringReset => pack [(1, 1, nat rg.resetDone)]
  | .gladeStatus =>
      let g := gladeOf s s.sels.glade.toNat
      let code := fun (e : EngSt) => match e with
        | .idle => 0 | .running => 1 | .waitToken => 2 | .waitMeet => 3 | .waitMem => 4 | .stopped => 5 | .halted => 6 | .faulted => 7
      pack [(0, 3, code g.ae.st), (3, 3, code g.xe.st), (8, 8, if g.cmd = 0 then 0 else g.slot.toNat), (16, 8, g.faultSt.toNat),
        (24, 1, nat g.faultXe), (32, 20, g.faultPc.toNat)]
  | .chanStatus =>
      let c := chanOf s s.sels.chan.toNat
      pack [(0, 2, c.st.toNat), (2, 6, c.rate.toNat), (8, 2, c.density.toNat), (10, 1, nat c.selfref), (32, 32, c.corr.toNat)]
  | .portCfg => pack [(0, 1, nat (portOf s s.sels.port.toNat).enable)]
  | .portStatus =>
      let p := portOf s s.sels.port.toNat
      pack [(0, 3, p.st.toNat), (3, 8, p.lock.toNat), (16, 12, portTags s s.sels.port.toNat)]
  | .portCntA => pack [(0, 32, (portOf s s.sels.port.toNat).corr.toNat), (32, 32, (portOf s s.sels.port.toNat).uncorr.toNat)]
  | .portCntB =>
      let p := portOf s s.sels.port.toNat
      pack [(0, 32, p.replay.toNat), (32, 16, p.authFail.toNat), (48, 16, p.misrout.toNat)]
  | .domCfg =>
      let d := shownDom s s.sels.dom.toNat
      pack [(0, 8, d.quads.toNat), (8, 16, d.cways.toNat), (24, 16, d.tways.toNat), (40, 1, nat d.valid)]
  | .domApool => pack [(0, 8, (shownDom s s.sels.dom.toNat).apool.toNat), (8, 24, poolMib j s.sels.dom.toNat false), (32, 13, poolMib j s.sels.dom.toNat true)]
  | .domKv =>
      let d := domOf j s.sels.dom.toNat
      let spilled := (j.seqs.filter (fun q => q.st = .spilled && (tenOf j q.tenant).dom.toNat = s.sels.dom.toNat)).map (·.pages)
      pack [(0, 8, (shownDom s s.sels.dom.toNat).kvpool.toNat), (8, 28, d.free), (36, 28, spilled.sum)]
  | .streamCfg =>
      let t := streamOf j s.sels.stream.toNat
      pack [(0, 1, nat t.enabled), (8, 8, t.main.toNat), (16, 8, t.fallback.toNat), (24, 12, t.tenant.toNat),
        (48, 16, min 65535 (framePending s s.sels.stream.toNat))]
  | .streamEst =>
      let t := streamOf j s.sels.stream.toNat
      pack [(0, 32, estBits (estimate t.k t.eMain t.dMain)), (32, 32, estBits (estimate t.k t.eFb t.dFb))]
  | .streamCnt =>
      let t := streamOf j s.sels.stream.toNat
      pack [(0, 32, t.falls.toNat), (32, 32, t.lates.toNat)]
  | .pdCtl => pack [(0, 2, (pdOf s s.sels.pd.toNat).mode.toNat)]
  | .pdStatus =>
      let i := s.sels.pd.toNat
      let p := pdOf s i
      pack [(0, 3, p.st.toNat), (3, 1, nat p.pending), (4, 2, if isGroveCompute i then p.point.toNat else 0), (8, 12, p.volt.toNat),
        (20, 8, p.temp.toNat), (28, 4, p.cause.toNat)]
  | .pdWv =>
      let i := s.sels.pd.toNat
      let p := pdOf s i
      pack [(0, 16, p.margin.toNat), (16, 16, p.endDays.toNat), (32, 2, if isGroveCompute i then p.limit.toNat else 0)]

/-- A read of the 8 bytes at an aligned offset, as the host sees it (R539, R540). -/
def barRead (s : State) (off : Nat) : BitVec 64 :=
  if !barAnswers s then BitVec.ofNat 64 (2 ^ 64 - 1)
  else if 0x20000 ≤ off && off < 0x21000 then
    BitVec.ofNat 64 (leNat ((List.range 8).map (fun k => msixByte s (off - 0x20000 + k))))
  else if 0x21000 ≤ off && off < 0x21020 then (s.pba >>> (8 * (off - 0x21000))).setWidth 64
  else match regAt off with
    | some r => readReg s r
    | none => 0

end Sys2Proof.Machine
end

