-- ==== Sys2Proof/Machine/Rings.lean ====
section
/-! DEFINITION. Ring pairs: doorbells, acceptance with its checks, completion records and their release (R378 to R411, R575). -/

namespace Sys2Proof.Machine

/-! ### Places and bytes of a ring's structures (R379) -/

def sqAddr (r : Ring) (i : BitVec 32) : Nat := r.sq.toNat * 4096 + 128 * (i.toNat % ringN r)
def jnlAddr (r : Ring) (i : BitVec 32) : Nat := r.jnl.toNat * 4096 + 16 * (i.toNat % ringN r)
def cqAddr (r : Ring) (i : BitVec 32) : Nat := r.cq.toNat * 4096 + 32 * (i.toNat % ringN r)

/-- The phase bit PH(i) of a ring with `n` entries (R379). -/
def phase (n : Nat) (i : Nat) : Bool := i / n % 2 = 0

/-- Write bytes into host memory. -/
def hostWrite (s : State) (a : Nat) (b : Bytes) : State := { s with host := wrBytes s.host a b }

/-- The accept record of a descriptor (R393). -/
def acceptRecord (acc : BitVec 64) (i : BitVec 32) (opc : Byte) (ph : Bool) : Bytes :=
  bvLe acc 8 ++ bvLe i 4 ++ [opc, if ph then 0x80 else 0] ++ zeros 2

/-! ### Doorbells (R380, R381) -/

/-- The device reads a ring's doorbell line from host memory (R380, R381): a SQ_TAIL out of range is ignored and sets DB_RANGE. -/
def readDoorbell (s : State) (r : Nat) : State :=
  let g := ringOf s r
  let line := rdBytes s.host (g.db.toNat * 64) 8
  let tail := fieldBv line 0 4 32
  let head := fieldBv line 4 4 32
  if ringN g < (tail - g.accepted).toNat then setRing s r { g with cqHead := head, dbRange := true }
  else setRing s r { g with cqHead := head, sqTail := tail }

/-- The window line that a host address reaches: it lies there, or its tag does (R212, R422). -/
def windowLine (s : State) (a : Nat) : Option Nat :=
  let b := s.hub.winBase.toNat
  if a / gib < b || 512 ≤ a / gib - b then none
  else
    let x := a - b * gib
    some (if x < 496 * gib then lineOf (cxlBase + x) else lineOf cxlBase + (x - 496 * gib) / 8)

/-- The ciphertext and tag of a window line that the device has stored, as host memory holds them from now on (R212, R418, R422). -/
def exposeLine (s : State) (l : Nat) : State :=
  if hostHeld s l || !isCxl (256 * l) then s
  else { s with host := wrBytes (wrBytes s.host (hostLineAt s l) (storedLine s l)) (hostTagAt s l) (storedTag s l), raw := l :: s.raw }

/-- Every line that the device has stored in the window is only host memory's from now on: BASE moves, or the device loses its record (R212, log 6). -/
def exposeWindow (s : State) : State := clearLines ((s.seals.map (·.1)).foldl exposeLine s) cxlBase (512 * gib)

/-- A saved job's image whose SAVE_HOME range holds a line is no longer as the device wrote it (R304, R423). -/
def spoilSaved (s : State) (l : Nat) : State :=
  { s with saved := s.saved.map (fun v =>
      if !v.inArea && v.job.saveHome.toNat ≤ 256 * l && 256 * l < v.job.saveHome.toNat + 8 * gib then { v with spoiled := true } else v) }

/-- One byte of host memory written. -/
def hostByte (s : State) (c : Host.Cell) : State := { s with host := wr1 s.host c.1 c.2 }

/-- A host write of one byte of its memory. Where the CXL window reaches it, the line there holds what the host has written: its tag decides
at the next read (R212, R423, R424). -/
def hostPoke (s : State) (c : Host.Cell) : State :=
  match windowLine s c.1 with
  | none => hostByte s c
  | some l => hostByte (spoilSaved (exposeLine s l) l) c

/-- The host writes a ring's doorbell line, after making other cells of its memory visible (R380, R382, R402). A ring that is not
DISABLED reads the line again; a DRAINING ring records it and accepts nothing (R409). -/
def execDoorbellWrite (r : Fin 256) (visible : List Host.Cell) (sqTail cqHead : BitVec 32) (s : State) : Host.Outcome State Fault Refusal :=
  let s1 := visible.foldl hostPoke s
  let g := ringOf s1 r.val
  let s2 := hostWrite s1 (g.db.toNat * 64) (bvLe sqTail 4 ++ bvLe cqHead 4)
  .next (if g.st ≠ .disabled && hubUp s2 && s2.boot.devReady then readDoorbell s2 r.val else s2)

/-! ### Reserved parts of a descriptor (R388, R392, R575) -/

def isDataOpc (o : Byte) : Bool := 1 ≤ o.toNat && o.toNat ≤ 0x0C
def isCtlOpc (o : Byte) : Bool := 0x40 ≤ o.toNat && o.toNat ≤ 0x4B

/-- The header holds no reserved value, and EVAL only on RUN (R388, R392). -/
def headerOk (c : Cmd) : Bool :=
  (c.desc.getD 1 0).toNat < 4 && (c.desc.getD 3 0).toNat < 16 && zeroAt c.desc 4 4 && (!hdrFlag c 0 || opcOf c = 0x01)

/-- Operand bytes `off` for `n` are 0. -/
def opZero (c : Cmd) (off n : Nat) : Bool := zeroAt c.desc (8 + off) n

/-- The operand bytes that no table lists are 0, and no field holds a reserved value (R575): the tables of R244, R254, R270, R291,
R295, R309, R318, R354 and R390. -/
def operandsOk (c : Cmd) : Bool :=
  match (opcOf c).toNat with
  | 0x01 => opZero c 1 7 && opZero c 96 24
  | 0x02 => opN c 1 1 < 16 && opZero c 2 2 && opZero c 12 4 && opZero c 56 64
  | 0x03 => opZero c 1 7 && opZero c 16 104
  | 0x04 => opZero c 2 2 && opZero c 96 24
  | 0x05 =>
    if opN c 0 1 = 0 then opN c 1 1 ≤ 3 && opN c 2 1 < 2 && opZero c 3 1 && opZero c 60 60
    else opN c 0 1 = 1 && opZero c 1 3 && opZero c 6 2 && opZero c 24 96
  | 0x06 => opZero c 64 56
  | 0x07 => opN c 3 1 < 16 && opN c 4 1 < 8 && opZero c 5 115
  | 0x08 => opN c 3 1 < 16 && opN c 4 1 < 8 && opZero c 5 115
  | 0x09 => opN c 1 1 < 16 && opZero c 4 4 && opZero c 40 80
  | 0x0A => opN c 1 1 < 16 && opZero c 4 4 && opZero c 40 80
  | 0x0B => opN c 0 1 ≤ 1 && opZero c 1 119
  | 0x0C => opZero c 0 120
  | 0x40 => opZero c 8 112
  | 0x41 => opN c 4 1 < 2 && opZero c 5 115
  | 0x42 => opZero c 4 116
  | 0x43 => opZero c 4 116
  | 0x44 => opZero c 2 6 && opN c 15 1 / 32 % 4 ≠ 3 && opN c 23 1 < 16 && (opN c 22 1 / 64 ≠ 3) && opZero c 30 10 && opZero c 40 80
  | 0x45 => opZero c 1 7 && opZero c 24 96
  | 0x46 => opN c 0 1 ≤ 1 && opN c 1 1 < 2 && opZero c 2 6 && opZero c 48 72
  | 0x47 => opN c 3 1 < 16 && opN c 6 1 < 4 && opZero c 7 1 && opZero c 32 88
  | 0x48 => opZero c 3 1 && opZero c 6 2 && opZero c 40 80
  | 0x49 => opZero c 2 118
  | 0x4A => opN c 3 1 < 16 && opN c 4 1 < 2 && opZero c 40 80
  | 0x4B => opN c 1 1 < 2 && opZero c 3 1 && opZero c 10 110
  | _ => false

/-- A descriptor that its ring and its reserved parts let run (R383, R392, R575). -/
def descriptorOk (c : Cmd) : Bool :=
  (if c.ring = 0 then isCtlOpc (opcOf c) else isDataOpc (opcOf c)) && headerOk c && operandsOk c

/-! ### Acceptance (R381, R394, R396) -/

/-- The next acceptance sequence number (R394, R395). -/
def nextAcc (s : State) : BitVec 64 := BitVec.ofNat 64 (s.flash.coldGen.toNat * 2 ^ 48 + s.hub.accCount.toNat)

/-- Whether the device accepts a ring's next descriptor now (R381, R454, R464, R479, R507). -/
def mayAccept (s : State) (r : Nat) : Bool :=
  let g := ringOf s r
  let d := (g.sqTail - g.accepted).toNat
  hubUp s && s.boot.devReady && !s.rst.stopping && !s.spdm.relock &&
  g.st = .enabled && (r = 0 || (ringBound s r && jobOpen s)) && 1 ≤ d && d ≤ ringN g &&
  (g.accepted - g.released).toNat < ringN g && (r = 0 || !s.hub.hostHold)

/-- The accepted command of a ring's next descriptor. -/
def acceptedCmd (s : State) (r : Nat) : Cmd :=
  let g := ringOf s r
  { acc := nextAcc s, ring := r, index := g.accepted, desc := rdBytes s.host (sqAddr g g.accepted) 128,
    job := if r = 0 then 0 else (jobOf s).id, opened := s.hub.time }

/-- RESULT of an ADMIT: USER and the tokens generated (R310, R398). -/
def admitResult (user : BitVec 64) (tokens : Nat) : Bytes := bvLe user 8 ++ natLe tokens 3

/-- Tokens that an ADMIT's sequence has generated so far, in the current job or a saved one. -/
def tokensOf (s : State) (acc : BitVec 64) : Nat :=
  match (s.job.toList ++ s.saved.map (·.job)).flatMap (fun j => j.seqs.filter (fun q => q.acc = acc)) with
  | q :: _ => q.tokens
  | [] => 0

/-- RESULT of a command that ends before its own meaning ends it: an ADMIT's USER and TOKENS (R310, R398). -/
def endResult (s : State) (c : Cmd) : Bytes := if opcOf c = 0x02 then admitResult (opB c 48 8 64) (tokensOf s c.acc) else c.result

/-- A command as its acceptance leaves it: a descriptor that breaks R383, R392 or R575 ends with POLICY, an ADMIT whose tenant slot is not
BOUND at acceptance with REVOKED (R310). -/
def afterAccept (s : State) (c : Cmd) : Cmd :=
  if !descriptorOk c then { c with ph := .done, status := stPolicy, result := endResult s c }
  else if opcOf c = 0x02 && c.ring ≠ 0 && !isBound (jobOf s) (opN c 0 2 % 4096) then
    { c with ph := .done, status := stRevoked, result := endResult s c }
  else c

/-- The device accepts a ring's next descriptor: the accept record is written first (R396). -/
def execDescriptorAccept (r : Fin 256) (s : State) : Host.Outcome State Fault Refusal :=
  if !mayAccept s r.val then .next s
  else
    let g := ringOf s r.val
    let c := acceptedCmd s r.val
    let s1 := hostWrite s (jnlAddr g g.accepted) (acceptRecord c.acc g.accepted (opcOf c) (phase (ringN g) g.accepted.toNat))
    let s2 := setRing s1 r.val { g with accepted := g.accepted + 1 }
    .next { s2 with
      hub := { s2.hub with accCount := s2.hub.accCount + 1 },
      cmds := s2.cmds ++ [afterAccept s c] }

/-! ### Completion records (R397 to R401) -/

/-- The 32 bytes of a completion record (R397). -/
def completionRecord (c : Cmd) (t : BitVec 64) (deg ph : Bool) : Bytes :=
  bvLe c.acc 8 ++ [c.status, BitVec.ofNat 8 (c.summary.toNat + 32 * nat c.throttled + 64 * nat deg + 128 * nat ph),
    BitVec.ofNat 8 c.excCount] ++ bvLe (if c.excCount = 0 then 0 else c.excIndex) 2 ++ bvLe c.vanish 4 ++ bvLe (t.setWidth 32) 4 ++ padTo c.result 11

/-- The exception counters after a command's record (R74, R76). -/
def countExc (x : Tab (BitVec 64)) (c : Cmd) : Tab (BitVec 64) :=
  let add := fun (x : Tab (BitVec 64)) (k n : Nat) => tset 0 x k (satAdd (tget 0 x k) n)
  let y := (List.range 5).foldl (fun x k => if c.summary.getLsbD k then add x k 1 else x) x
  add (add (add y 5 c.vanish.toNat) 6 c.excCount) 7 c.excLost

/-- Count a released command's exceptions for its job, current or saved (R74, R76). -/
def countCmd (s : State) (c : Cmd) : State :=
  if c.ring = 0 then s
  else if s.job.any (fun j => j.id = c.job) then { s with hub := { s.hub with exc := countExc s.hub.exc c } }
  else { s with saved := s.saved.map (fun v => if v.job.id = c.job then { v with exc := countExc v.exc c } else v) }

/-- A ring whose job is SAVED: its draining pauses (R409). -/
def ringSaved (s : State) (r : Nat) : Bool := s.saved.any (fun v => v.job.rings.getLsbD r)

/-- A DRAINING ring with nothing left to release is DISABLED (R408). -/
def drained (g : Ring) : Ring := if g.st = .draining && g.released = g.accepted then { g with st := .disabled } else g

/-- The same, where the ring's job is not SAVED (R409). -/
def drainedIn (s : State) (r : Nat) (g : Ring) : Ring := if ringSaved s r then g else drained g

/-- The command whose record a ring may release now (R400). -/
def mayRelease (s : State) (r : Nat) : Option Cmd :=
  let g := ringOf s r
  if hubUp s && s.boot.devReady && (g.released - g.cqHead).toNat < ringN g && !(g.st = .draining && ringSaved s r) then
    match nextRecord s r with
    | some c => if c.ph = .done then some c else none
    | none => none
  else none

/-- The device releases a ring's next completion record (R400), counts its exceptions (R76), interrupts if asked (R401), and
disables a drained ring (R408). -/
def execCompletionRelease (r : Fin 256) (s : State) : Host.Outcome State Fault Refusal :=
  match mayRelease s r.val with
  | none => .next s
  | some c =>
    let g := ringOf s r.val
    let s1 := hostWrite s (cqAddr g g.released) (completionRecord c s.hub.time (degraded s) (phase (ringN g) g.released.toNat))
    let s2 := countCmd { s1 with cmds := s1.cmds.filter (fun d => d.acc ≠ c.acc) } c
    let s3 := setRing s2 r.val (drained { g with released := g.released + 1, irqSeen := g.irqSeen || hdrFlag c 1 })
    .next (if hdrFlag c 1 then sendVector s3 g.vector else s3)

/-! ### Starting accepted commands (R402 to R405) -/

/-- Every ring 0 command accepted before `acc` has completed (R405). -/
def ringZeroTurn (s : State) (acc : BitVec 64) : Bool :=
  s.cmds.all (fun c => !(c.ring = 0 && c.acc.toNat < acc.toNat) || c.ph = .done)

/-- No FENCE accepted before it on its ring is still unfinished (R403). -/
def fenceFree (s : State) (c : Cmd) : Bool :=
  s.cmds.all (fun d => !(d.ring = c.ring && opcOf d = 0x0B && d.acc.toNat < c.acc.toNat) || d.ph = .done)

/-- No SEG_SET accepted before it is still unfinished: a data command sees the table of every earlier SEG_SET (R207). RETIRE, FENCE and
MARK read no table. -/
def tableFree (s : State) (c : Cmd) : Bool :=
  opcOf c = 0x03 || opcOf c = 0x0B || opcOf c = 0x0C ||
  s.cmds.all (fun d => !(d.ring = 0 && opcOf d = 0x44 && d.acc.toNat < c.acc.toNat) || d.ph = .done)

/-- Nothing that its ring or the job orders before a data command holds it back (R403, R207). -/
def dataTurn (s : State) (c : Cmd) : Bool := fenceFree s c && tableFree s c

/-- The hub starts work: it runs, and its job is open or closing (R301, R327). -/
def jobWorks (s : State) (c : Cmd) : Bool :=
  match s.job with
  | some j => j.id = c.job && (j.st = 2 || j.st = 7)
  | none => false

/-- An accepted command of an opcode, not yet finished, that the hub may run now: a ring 0 command in its turn (R405), a data command
of the current job behind no FENCE and no SEG_SET (R300, R403, R207). -/
def ready (s : State) (acc : BitVec 64) (opc : Byte) : Option Cmd :=
  match findCmd s acc with
  | none => none
  | some c =>
    if hubUp s && s.boot.devReady && opcOf c = opc && c.ph ≠ .done &&
       (if c.ring = 0 then ringZeroTurn s acc else jobWorks s c && dataTurn s c) then some c else none

/-- The meaning of a ring opcode: nothing unless its command may run. -/
def onCmd (s : State) (acc : BitVec 64) (opc : Byte) (f : Cmd → State) : Host.Outcome State Fault Refusal :=
  match ready s acc opc with
  | none => .next s
  | some c => .next (f c)

/-- The same for a command of the current job, with the job. -/
def onJob (s : State) (acc : BitVec 64) (opc : Byte) (f : Cmd → Job → State) : Host.Outcome State Fault Refusal :=
  onCmd s acc opc (fun c => match s.job with
    | some j => f c j
    | none => finish s acc stPolicy)

/-! ### FENCE and MARK (R403, R404) -/

/-- Every command accepted before `c` among those `p` picks has completed. -/
def allBefore (s : State) (c : Cmd) (p : Cmd → Bool) : Bool :=
  s.cmds.all (fun d => !(p d && d.acc.toNat < c.acc.toNat) || d.ph = .done)

/-- A FENCE completes once every command accepted before it in its scope has completed (R403). -/
def execFence (acc : BitVec 64) (s : State) : Host.Outcome State Fault Refusal :=
  onCmd s acc 0x0B (fun c =>
    if allBefore s c (fun d => if opN c 0 1 = 0 then d.ring = c.ring else d.ring ≠ 0 && d.job = c.job) then finish s acc stOk else s)

/-- A MARK completes once every command accepted before it on its ring has completed, with the hub-local counter (R404, R398). -/
def execMark (acc : BitVec 64) (s : State) : Host.Outcome State Fault Refusal :=
  onCmd s acc 0x0C (fun c =>
    if allBefore s c (fun d => d.ring = c.ring) then finishWith s acc stOk (bvLe s.hub.time 8) else s)

end Sys2Proof.Machine
end

