-- ==== Sys2Proof/Machine/Wrap.lean ====
section
/-! DEFINITION. Sessions, wrapped objects and the egress records that the hub processes (R440 to R452). -/

namespace Sys2Proof.Machine

/-! ### Sessions and policies -/

/-- The session of a role (R443): 0 a tenant slot, 1 or 2 the base owner of BASE_A or BASE_B. -/
def sessionOf (s : State) (role tenant : Nat) : Option Session :=
  s.rgr.sessions.find? (fun x => x.role = role && (role ≠ 0 || x.tenant = tenant))

/-- Replace or end the session of a role (R443). -/
def setSession (s : State) (role tenant : Nat) (v : Option Session) : State :=
  { s with rgr := { s.rgr with sessions := s.rgr.sessions.filter (fun x => !(x.role = role && (role ≠ 0 || x.tenant = tenant))) ++ v.toList } }

/-- The policy that SLOT_BIND installs: MODE 0, CKPT 1, COUNT 0 (R451). -/
def defaultPolicy : Bytes := [0, 1] ++ zeros 578

/-- The digest of a stored policy (R451). -/
def policyDigest (t : Tenant) : Digest := if t.st = .free then 0 else Config.sha256 t.policy

/-- CHECKPOINT_OUT is allowed by the policy (R451). -/
def policyCkpt (t : Tenant) : Bool := flagAt t.policy 1 0

/-- An egress record of a command's program slot is allowed (R451). -/
def policyAllows (j : Job) (t : Tenant) (slot : Nat) : Bool :=
  fieldLe t.policy 0 1 = 0 ||
  (List.range (fieldLe t.policy 2 1)).any (fun k =>
    fieldLe t.policy (4 + 36 * k) 1 = slot && (progOf j slot).size ≠ 0 &&
    (t.policy.drop (8 + 36 * k)).take 32 = bvLe (progOf j slot).digest 32)

/-! ### Wrapped objects (R444, R445) -/

/-- The 64-byte header of a wrapped object (R444). -/
def wrapHeader (kind : Nat) (sid : BitVec 64) (iv : Bytes) (len : Nat) (acc : BitVec 64) (slot tenant : Nat) : Bytes :=
  natLe 0x57504D4C 4 ++ natLe 1 2 ++ natLe kind 1 ++ zeros 1 ++ bvLe sid 8 ++ padTo iv 12 ++ zeros 4 ++ natLe len 8 ++
  bvLe acc 8 ++ natLe slot 1 ++ zeros 1 ++ natLe tenant 2 ++ zeros 12

/-- A wrapped object: header, ciphertext, tag (R444). -/
def wrapObject (key : Digest) (hdr iv pt : Bytes) : Bytes := hdr ++ padTo (Config.gcmSeal key iv hdr pt) (pt.length + 16)

/-- The IV of the next object under a key: its 4-byte prefix, then its 64-bit counter (R445). -/
def nextIv (pre : Bytes) (cnt : BitVec 64) : Bytes := padTo pre 4 ++ bvLe cnt 8

/-- Unwrap an object that must be of a kind, name a session and a tenant, and verify under a key (R445). -/
def unwrapObject (key : Digest) (kind : Nat) (sid : BitVec 64) (tenant : Nat) (obj : Bytes) : Option Bytes :=
  let h := obj.take 64
  let len := fieldLe obj 32 8
  if 80 ≤ obj.length && obj.length = 80 + len && fieldLe h 0 4 = 0x57504D4C && fieldLe h 4 2 = 1 && fieldLe h 6 1 = kind &&
     zeroAt h 7 1 && fieldLe h 8 8 = sid.toNat && zeroAt h 28 4 && zeroAt h 40 8 && zeroAt h 48 2 && fieldLe h 50 2 = tenant && zeroAt h 52 12 then
    (Config.gcmOpen key ((h.drop 16).take 12) h (obj.drop 64)).map (fun b => padTo b len)
  else none

/-- Read a wrapped object from PUBLIC segments (R445): a status where it cannot be read, POLICY outside PUBLIC segments, INTEGRITY
where it does not unwrap. -/
def readWrapped (s : State) (j : Job) (key : Option (Digest × BitVec 64)) (kind tenant a n : Nat) : Except Byte Bytes :=
  if n ≠ 0 && (linesOf a n).any (fun l => match segAt j (max l a) with | some g => g.owner ≠ tagPublic | none => false) then .error stPolicy
  else match devRead s j a n with
    | .error e => .error e
    | .ok (b, _) => match key with
      | none => .error stIntegrity
      | some k => match unwrapObject k.1 kind k.2 tenant b with
        | none => .error stIntegrity
        | some p => .ok p

/-- The upload key of a role's session, with its identifier (R445). -/
def uploadKey (s : State) (role tenant : Nat) : Option (Digest × BitVec 64) :=
  (sessionOf s role tenant).map (fun x => (x.upKey, x.sid))

/-! ### Egress records (R448 to R450) -/

/-- Address of record `k` of a glade (R448). -/
def egrAddr (j : Job) (g k : Nat) : Nat := j.egr.toNat * 256 + 1024 * g + 64 * k

/-- The outcome of one record: a refusal status or 0, and the state. -/
structure EgrRes where
  st : Byte
  s  : State
  deriving DecidableEq, Repr

/-- Sequences of a job, changed by acceptance number. -/
def updSeq (s : State) (acc : BitVec 64) (f : Sequence → Sequence) : State :=
  { s with job := s.job.map (fun j => { j with seqs := j.seqs.map (fun q => if q.acc = acc then f q else q) }) }

/-- A live sequence of a tenant (R450): one that has ended leaves the list at the next step boundary. -/
def liveSeq (j : Job) (acc : BitVec 64) (t : Nat) : Option Sequence := j.seqs.find? (fun q => q.acc = acc && q.tenant = t)

/-- A sequence is to end with a status at the next step boundary, unless an earlier status of R310 and R446 already ends it. -/
def endSeq (st : Byte) (q : Sequence) : Sequence :=
  match q.ended with
  | none => { q with ended := some st }
  | some x => if x = stWarn || x = stOk then { q with ended := some st } else q

/-- Process one VALID record of a glade (R449 to R451): checks in the order of R450, then the object of 80 + LEN bytes. A record
with a reserved DEST, LEN out of range or SRC off a line is refused with EGRESS_DENIED (log 39). ACC_SEQ names the producing command
(R444), in a serving step (`acc` 0) the ADMIT that the record names. -/
def egressOne (s : State) (j : Job) (acc : BitVec 64) (slot : Nat) (frameOut : Option Nat) (r : Bytes) : EgrRes :=
  let dest := fieldLe r 1 1
  let t := fieldLe r 2 2 % 4096
  let src := fieldLe r 8 8
  let len := fieldLe r 16 8
  let dst := fieldLe r 24 8
  let seqAcc : BitVec 64 := fieldBv r 32 8 64
  let seq := if dest = 1 then liveSeq j seqAcc t else none
  let fits := match seq with | some q => q.outUsed + 80 + len ≤ q.outLen | none => true
  let a := match dest with
    | 1 => (match seq with | some q => q.out.toNat + q.outUsed | none => 0)
    | 2 => frameOut.getD 0 + dst
    | _ => dst
  let lines := linesOf src len
  let placed := (dest = 1 && seq.isNone) || (dest = 2 && frameOut.isNone) || 2 < dest || !fits ||
    coveredBy j (fun g => g.owner = tagPublic && g.access = 1) a (80 + len)
  if !placed || (0 < len && !rangeManaged j src len) then ⟨stSegment, s⟩
  else if !isBound j t then ⟨stRevoked, s⟩
  else match sessionOf s 0 t with
    | none => ⟨stEgress, s⟩
    | some ses =>
      match joinAll (lines.map (fun l => tagOf s (lineOf l))) with
      | none => ⟨stEgress, s⟩
      | some tg =>
        if len = 0 || 2 ^ 24 < len || src % 256 ≠ 0 || 2 < dest || !(tg = tagPublic || tg = tagTenant t) ||
           (dest = 1 && seq.isNone) || (dest = 2 && frameOut.isNone) || !policyAllows j (tenOf j t) slot then ⟨stEgress, s⟩
        else if lines.any (fun l => s.poison.contains (lineOf l)) then ⟨stDevice, s⟩
        else if !fits then ⟨0, updSeq s seqAcc (fun q => if q.ended.isNone then { q with ended := some stWarn } else q)⟩
        else
          let iv := nextIv ses.iv ses.ivCnt
          let hdr := wrapHeader 5 ses.sid iv len (if acc = 0 && dest = 1 then seqAcc else acc) slot t
          let obj := wrapObject ses.egrKey hdr iv (rdBytes s.mem src len)
          match devWrite s j false a obj tagPublic with
          | .ok s1 =>
            let s2 := setSession s1 0 t (some { ses with ivCnt := ses.ivCnt + 1 })
            ⟨0, if dest = 1 then updSeq s2 seqAcc (fun q => { q with outUsed := q.outUsed + 80 + len }) else s2⟩
          | .frozen => ⟨stSegment, s⟩
          | .err e => ⟨e, s⟩

/-- The sequence that a refused DEST 1 record names, a live one of its tenant, ends at the next step boundary with EGRESS_DENIED (R446). -/
def refuseSeq (s : State) (r : Bytes) : State :=
  let a : BitVec 64 := fieldBv r 32 8 64
  if fieldLe r 1 1 = 1 && (liveSeq (jobOf s) a (fieldLe r 2 2 % 4096)).isSome then updSeq s a (endSeq stEgress) else s

/-- Process the records of one glade in ascending index (R449): each VALID is cleared as its record finishes. The first refusal of a
command stops its processing. In a serving step, which no command stands for, the other records go on (R446, log 39). -/
def egressGlade (step : Bool) (acc : BitVec 64) (slot : Nat) (frameOut : Option Nat) (x : EgrRes) (g : Nat) : EgrRes :=
  (List.range 16).foldl (fun (x : EgrRes) k =>
    let j := jobOf x.s
    let a := egrAddr j g k
    let r := rdBytes x.s.mem a 64
    if x.st ≠ 0 || !flagAt r 0 0 then x
    else
      let y := egressOne x.s j acc slot frameOut r
      let s1 := { y.s with mem := wr1 y.s.mem a (r.getD 0 0 &&& 0xFE) }
      if y.st = 0 then ⟨0, s1⟩ else ⟨if step then 0 else y.st, refuseSeq s1 r⟩) x

/-- Process every record of a command's glades, in ascending glade order (R449). -/
def egress (s : State) (gs : List Nat) (step : Bool) (acc : BitVec 64) (slot : Nat) (frameOut : Option Nat) : EgrRes :=
  if (jobOf s).egr = 0 then ⟨0, s⟩ else gs.foldl (egressGlade step acc slot frameOut) ⟨0, s⟩

end Sys2Proof.Machine
end

