-- ==== Sys2Proof/Machine/Runs.lean ====
section
/-! DEFINITION. Starting and ending commands that run on glades: RUN (R124, R293, R392), and HALT_DONE with the egress it brings about (R138, R449). -/

namespace Sys2Proof.Machine

/-! ### Glade sets and their dies -/

/-- The half of a glade may act: its lease is current and the hub does not withhold it (R504, R506). -/
def halfActs (s : State) (g : Nat) : Bool := !(halfOf s (halfOfGlade g)).stopped

/-- The grove dies of a glade set, ascending. -/
def diesOf (gs : List Nat) : List Nat := (List.range 16).filter (fun d => gs.any (fun g => g / 8 = d))

/-- The power domains a grove die needs to run work (R512). -/
def dieDomains (d : Nat) : List Nat := [2 * d, 2 * d + 1]

/-- Every domain of a glade set is running (R515). -/
def domainsReady (s : State) (gs : List Nat) : Bool := ((diesOf gs).flatMap dieDomains).all (fun i => (pdOf s i).st = 0)

/-- Raise the wake request of each domain of a glade set that is stopped or off (R515); a power-off in progress completes first
(R516). -/
def wakeDomains (s : State) (gs : List Nat) : State :=
  ((diesOf gs).flatMap dieDomains).foldl (fun s i =>
    let p := pdOf s i
    if p.st = 1 || p.st = 3 then setPd s i { p with st := 4 } else s) s

/-- A grove die of the set is lowered by the throttle (R528). -/
def throttledNow (s : State) (gs : List Nat) : Bool :=
  (diesOf gs).any (fun d => (pdOf s (2 * d)).lowered ≠ 0 || (pdOf s (2 * d)).alt)

/-- Mark commands THROTTLED (R528). -/
def markThrottled (s : State) (accs : List (BitVec 64)) : State :=
  { s with cmds := s.cmds.map (fun c => if accs.contains c.acc && c.ph ≠ .done then { c with throttled := true } else c) }

/-- The commands of the requests in the serving step. -/
def stepCmds (s : State) : List (BitVec 64) := ((jobOf s).seqs.filter (fun q => q.inStep ≠ 0)).map (·.acc)

/-- Every glade of a set is free, with its half acting. -/
def gladesFree (s : State) (gs : List Nat) : Bool := gs.all (fun g => (gladeOf s g).cmd = 0 && halfActs s g)

/-- The glades of a bitmap whose dies are not fenced: a fenced die's glades leave STEP_GLADES and every stream's set (R499). -/
def gladesIn (s : State) (m : BitVec 128) : List Nat := (bitsSet m.toNat 128).filter (fun g => !gladeFenced s g)

/-- The glades that a descriptor's bitmap names. -/
def cmdGlades (c : Cmd) : List Nat := bitsSet (opN c 16 16) 128

/-- The argument words of a RUN or FRAME (R390). -/
def cmdArgs (c : Cmd) : List (BitVec 64) := (List.range 8).map (fun k => opB c (32 + 8 * k) 8 64)

/-- A released frame of the job that its ring lets start waits for one of the glades (R321). -/
def frameWaits (s : State) (j : Job) (gs : List Nat) : Bool :=
  s.cmds.any (fun d => d.ring ≠ 0 && d.job = j.id && opcOf d = 0x04 && d.ph = .accepted && dataTurn s d &&
    (match d.release with | some r => r.toNat ≤ s.hub.time.toNat | none => false) &&
    (gladesIn s (streamOf j (opN d 0 2)).glades).any (fun g => gs.contains g))

/-- A RUN accepted earlier still waits for one of the glades (R402). -/
def earlierRun (s : State) (c : Cmd) (gs : List Nat) : Bool :=
  s.cmds.any (fun d => d.ring ≠ 0 && d.job = c.job && opcOf d = 0x01 && d.ph = .accepted && d.acc.toNat < c.acc.toNat &&
    (cmdGlades d).any (fun g => gs.contains g))

/-! ### Ending -/

/-- Whether a waiting HALT may finish: nothing of the engine is outstanding (R138). A transfer of the glade holds its access
engine, a staged contribution its execute engine. -/
def mayHalt (s : State) (g : Nat) (e : Engine) : Bool :=
  let gl := gladeOf s g
  match e with
  | .ae => !s.fab.xfers.any (fun x => x.glade = some g && x.acc = gl.cmd)
  | .xe => !(jobOf s).reds.any (fun r => r.parts.any (fun p => p.glade = g && p.acc = gl.cmd))

/-- Every glade of a command has halted: its egress records are processed (R449); a RUN completes, a FRAME's program has ended, a
serving step has ended. -/
def gladesDone (s : State) (acc : BitVec 64) : State :=
  let gs := gladesOf s acc
  if gs = [] || !gs.all (fun g => engHalted (gladeOf s g).ae && engHalted (gladeOf s g).xe) then s
  else if acc = stepAcc then
    stepEnded (egress s gs true 0 (jobOf s).stepSlot.toNat none).s
  else match findCmd s acc with
    | none => s
    | some c =>
      if opcOf c = 0x04 then
        let x := egress s gs false acc c.slot.toNat (some (opN c 24 8))
        updCmd (releaseGlades x.s acc) acc (fun d => { d with progress := 1, status := x.st })
      else
        let x := egress s gs false acc c.slot.toNat none
        finish (releaseGlades x.s acc) acc x.st

/-- HALT_DONE: a waiting HALT finishes once the engine's issued work is complete and visible; the command ends with its last glade
(R138). -/
def execHaltDone (gi : Fin 128) (e : Engine) (s : State) : Host.Outcome State Fault Refusal :=
  let g := gladeOf s gi.val
  let en := engOf g e
  if en.st = .waitMem && !g.stopReq && !g.stopped && !gladeFaulted g && g.cmd ≠ 0 && mayHalt s gi.val e then
    .next (gladesDone (setGlade s gi.val (setEng g e { en with st := .halted })) g.cmd)
  else .next s

/-! ### RUN -/

/-- The tenant of an UPDATE: the owner of its slot, or of the segment that holds the first weight of its state tensor (R271, R274, R292). -/
def updateOf (s : State) (j : Job) (d : Cmd) (t : Nat) : Bool :=
  if opN d 0 1 = 1 then decide ((slotOf j (opN d 4 2)).owner.toNat = t)
  else match segAt j (leNat (rdBytes s.mem (opN d 8 8) 8)) with
    | some g => decide (g.owner = tagTenant t)
    | none => false

/-- Eval runs of a tenant wait for every UPDATE, install and CHECKPOINT_IN of the tenant accepted before them (R293). -/
def evalFree (s : State) (c : Cmd) : Bool :=
  s.cmds.all (fun d => !(d.ring ≠ 0 && d.job = c.job && d.acc.toNat < c.acc.toNat && d.ph ≠ .done &&
    ((opcOf d = 0x05 && updateOf s (jobOf s) d (hdrTenant c)) || (opcOf d = 0x0A && opN d 0 2 % 4096 = hdrTenant c))))

/-- RUN starts every glade of its set at the program's entry points (R124, R127, R390, R392, R293). -/
def execRun (acc : BitVec 64) (s : State) : Host.Outcome State Fault Refusal :=
  onJob s acc 0x01 (fun c j =>
    let gs := cmdGlades c
    let slot : Byte := opB c 0 1 8
    let p := progOf j slot.toNat
    if c.ph ≠ .accepted then s
    else if gs = [] then finish s acc stPolicy
    else if gs.any (gladeFenced s) then finish s acc stDevice
    else if hdrFlag c 0 && !tenantServes j (hdrTenant c) acc then finish s acc stRevoked
    else if p.size = 0 then finish s acc stProgram
    else if gs.any (gladeHeld s) || (hdrFlag c 0 && !evalFree s c) || !gladesFree s gs || frameWaits s j gs || earlierRun s c gs then s
    else if !domainsReady s gs then wakeDomains s gs
    else
      let s1 := updCmd s acc (fun d => { d with ph := .running, started := s.hub.time, slot := slot, glades := gs, throttled := throttledNow s gs })
      gladesDone (startGlades s1 p acc slot gs (cmdArgs c)) acc)

end Sys2Proof.Machine
end

