-- ==== Sys2Proof/Machine/Frames.lean ====
section
/-! DEFINITION. Fixed-rate streams and the deadline monitor (R318 to R325): STREAM_SET, FRAME, its release, its dispatch and its program's end. -/

namespace Sys2Proof.Machine

/-! ### Fields and times -/

/-- The stream that a FRAME or STREAM_SET names. -/
def frStream (c : Cmd) : Nat := opN c 0 2

/-- A frame's deadline: its release plus DEADLINE (R320), in ns. -/
def frDeadline (j : Job) (c : Cmd) (r : BitVec 64) : Nat := r.toNat + (streamOf j (frStream c)).deadline.toNat * 1000

/-- A FRAME or STREAM_SET of the same stream accepted earlier and unfinished, among those `p` picks. -/
def streamBusy (s : State) (c : Cmd) (opc : Byte) (p : Cmd → Bool) : Bool :=
  s.cmds.any (fun d => opcOf d = opc && frStream d = frStream c && d.acc.toNat < c.acc.toNat && d.ph ≠ .done && p d &&
    (d.ring = 0 || d.job = (jobOf s).id))

/-! ### FRAME (R320) -/

/-- Take an accepted FRAME in: its checks, and its release in acceptance order (R320). A frame of a stream with no glade left completes with
DEVICE_FAULT (R499). -/
def frameIntake (s : State) (c : Cmd) (j : Job) : State :=
  let i := frStream c
  let t := streamOf j i
  if c.ph ≠ .accepted || c.release.isSome then s
  else if 1024 ≤ i || !t.enabled then finish s c.acc stPolicy
  else if !tenantServes j t.tenant.toNat c.acc then finish s c.acc stRevoked
  else if gladesIn s t.glades = [] then finish s c.acc stDevice
  else
    let r : BitVec 64 := match t.lastRel with
      | none => c.opened
      | some p => BitVec.ofNat 64 (max c.opened.toNat (p.toNat + t.period.toNat * 1000))
    updCmd { s with job := some (setStream j i { t with lastRel := some r }) } c.acc (fun d => { d with release := some r })

/-- FRAME: a frame is taken in once every earlier STREAM_SET of its stream has completed (R508) and every earlier frame of it is taken
in. -/
def execFrame (acc : BitVec 64) (s : State) : Host.Outcome State Fault Refusal :=
  onJob s acc 0x04 (fun c j =>
    if streamBusy s c 0x4A (fun _ => true) || streamBusy s c 0x04 (fun d => d.release.isNone) then s else frameIntake s c j)

/-- FRAME_RELEASE: the hub-local counter reaches a frame's release (R320). -/
def execFrameRelease (acc : BitVec 64) (s : State) : Host.Outcome State Fault Refusal :=
  match findCmd s acc with
  | none => .next s
  | some c => match c.release with
    | some r => if c.ph = .accepted && hubUp s then .next (advanceTo s r.toNat) else .next s
    | none => .next s

/-! ### Dispatch (R321, R323) -/

/-- A frame that can be dispatched now: released, with every glade of its stream free and none held in a die reset (R321, R392). -/
def frameCan (s : State) (j : Job) (c : Cmd) : Bool :=
  let gs := gladesIn s (streamOf j (frStream c)).glades
  opcOf c = 0x04 && c.ring ≠ 0 && jobWorks s c && dataTurn s c && c.ph = .accepted &&
  (match c.release with | some r => r.toNat ≤ s.hub.time.toNat | none => false) &&
  gs ≠ [] && !gs.any (gladeHeld s) && gladesFree s gs

/-- A frame goes before another: by deadline, then by acceptance order (R321). -/
def frameBefore (j : Job) (d c : Cmd) : Bool :=
  match d.release, c.release with
  | some rd, some rc =>
    let x := frDeadline j d rd
    let y := frDeadline j c rc
    x < y || (x = y && d.acc.toNat < c.acc.toNat)
  | _, _ => false

/-- The program the deadline monitor chooses: true for FALLBACK (R323). -/
def runsFallback (s : State) (j : Job) (c : Cmd) (r : BitVec 64) : Bool :=
  let t := streamOf j (frStream c)
  let slack : Int := (frDeadline j c r : Int) - s.hub.time.toNat
  !expertsResident j c.acc t.tenant.toNat || decide (slack < estimate t.k t.eMain t.dMain)

/-- FRAME_DISPATCH: a released frame starts the program that the monitor chooses, the earliest deadline first (R321, R323). An empty
program slot completes it with PROGRAM_FAULT, as for RUN; a stream whose last glade has been fenced meanwhile with DEVICE_FAULT
(R499). -/
def execFrameDispatch (acc : BitVec 64) (s : State) : Host.Outcome State Fault Refusal :=
  onJob s acc 0x04 (fun c j =>
    let t := streamOf j (frStream c)
    let gs := gladesIn s t.glades
    if c.ph = .accepted && c.release.isSome && gs = [] then finish s acc stDevice
    else if !frameCan s j c || s.cmds.any (fun d => frameCan s j d && frameBefore j d c) then s
    else if !domainsReady s gs then wakeDomains s gs
    else match c.release with
      | none => s
      | some r =>
        let fb := runsFallback s j c r
        let slot := if fb then t.fallback else t.main
        let p := progOf j slot.toNat
        if p.size = 0 then finish s acc stProgram
        else
          let j1 := setStream j (frStream c) { t with falls := if fb then satAdd t.falls 1 else t.falls }
          let s1 := updCmd { s with job := some j1 } acc (fun d => { d with
            ph := .running, started := s.hub.time, slot := slot, glades := gs, fallback := fb, throttled := throttledNow s gs,
            result := zeros 4 ++ [BitVec.ofNat 8 (nat fb)] })
          gladesDone (startGlades s1 p acc slot gs (cmdArgs c)) acc)

/-! ### The end of a frame's program (R322, R324) -/

/-- The monitor's update of one estimate (R322): division rounds toward zero. -/
def learn (x : Nat) (e d : Int) : Int × Int :=
  let err := (x : Int) - e
  (e + err.tdiv 8, d + ((err.natAbs : Int) - d).tdiv 4)

/-- FRAME_PROGRAM_END: the frame completes with the first status of R324, and the monitor learns from a run that ended OK, FALLBACK
or LATE (R322). -/
def execFrameProgramEnd (acc : BitVec 64) (s : State) : Host.Outcome State Fault Refusal :=
  onJob s acc 0x04 (fun c j =>
    match c.release with
    | none => s
    | some r =>
      if c.ph ≠ .running || c.progress = 0 then s
      else
        let i := frStream c
        let t := streamOf j i
        let dl := frDeadline j c r
        let now := s.hub.time.toNat
        let late := decide (dl < now)
        let own := if c.status ≠ 0 then c.status else if late then stLate else if c.fallback then stFallback else stOk
        let st := finalStatus c own
        let x := now - c.started.toNat
        let t1 := if st = stOk || st = stFallback || st = stLate then
            (if c.fallback then
              let y := learn x t.eFb t.dFb
              { t with eFb := y.1, dFb := y.2 }
            else
              let y := learn x t.eMain t.dMain
              { t with eMain := y.1, dMain := y.2 })
          else t
        let t2 := if st = stLate then { t1 with lates := satAdd t1.lates 1 } else t1
        finishWith { s with job := some (setStream j i t2) } acc own
          (natLe (if st = stLate then min (now - dl) (2 ^ 32 - 1) else 0) 4 ++ [BitVec.ofNat 8 (nat c.fallback)]))

/-! ### STREAM_SET (R318, R319) -/

/-- The operands of a STREAM_SET lie in their ranges (R318). -/
def streamOk (c : Cmd) : Bool :=
  decide (frStream c < 1024) && decide (opN c 3 1 < 16) && decide (1 ≤ opN c 8 4) && decide (1 ≤ opN c 12 4) && decide (opN c 24 16 ≠ 0)

/-- STREAM_SET applies its settings once every FRAME of the stream accepted before it has completed (R319). -/
def execStreamSet (acc : BitVec 64) (s : State) : Host.Outcome State Fault Refusal :=
  onJob s acc 0x4A (fun c j =>
    let i := frStream c
    let ten := opN c 2 2 % 4096
    if streamBusy s c 0x04 (fun _ => true) then s
    else if !streamOk c || !isBound j ten then finish s acc stPolicy
    else
      let o := streamOf j i
      let main : Byte := opB c 5 1 8
      let fb : Byte := opB c 6 1 8
      let fresh := !o.enabled || main ≠ o.main || fb ≠ o.fallback
      finish { s with job := some (setStream j i { o with
        enabled := decide (opN c 4 1 % 2 = 1), main := main, fallback := fb, tenant := BitVec.ofNat 12 ten, k := opB c 7 1 8,
        period := opB c 8 4 32, deadline := opB c 12 4 32, initMain := opB c 16 4 32, initFb := opB c 20 4 32,
        glades := opB c 24 16 128,
        eMain := if fresh then (opN c 16 4 : Int) else o.eMain, dMain := if fresh then 0 else o.dMain,
        eFb := if fresh then (opN c 20 4 : Int) else o.eFb, dFb := if fresh then 0 else o.dFb,
        falls := 0, lates := 0 }) } acc stOk)

end Sys2Proof.Machine
end

