-- ==== Sys2Proof/Machine/Link.lean ====
section
/-! DEFINITION. Ports, their link layer and the device pairs (R334 to R353): what each port sends and receives, and the commands of the link and of pairs. -/

namespace Sys2Proof.Machine

/-! ### Masks, pairs, credits -/

/-- The device's port mask: ports that are up (R351). -/
def ownMask (s : State) : BitVec 32 :=
  (List.range 32).foldl (fun m p => if (portOf s p).st = 3 then m ||| ((1 : BitVec 32) <<< p) else m) 0

def pairOf (s : State) (a : BitVec 16) : Option Pair := s.fab.pairs.find? (fun p => p.addr = a)
def updPair (s : State) (a : BitVec 16) (f : Pair → Pair) : State :=
  { s with fab := { s.fab with pairs := s.fab.pairs.map (fun p => if p.addr = a then f p else p) } }

/-- The peer's latest port mask (R351); until one arrives every port may be up at the peer (log 42). -/
def peerMask (p : Pair) : BitVec 32 := match p.bind with | some b => b.mask | none => 0xFFFFFFFF

/-- A port is up at both ends of a pair (R356). -/
def upBoth (s : State) (p : Pair) (k : Nat) : Bool := (ownMask s).getLsbD k && (peerMask p).getLsbD k
def portsBoth (s : State) (p : Pair) : List Nat := (List.range 32).filter (upBoth s p)

/-- Initial credits of a virtual channel (R345). -/
def vcInit (vc : Nat) : BitVec 16 := match vc with | 0 => 768 | 1 => 192 | 2 => 1536 | _ => 64

/-- The sender holds a credit of a channel (R345). -/
def hasCredit (p : Port) (vc : Nat) : Bool := vcInit vc + tget 0 p.peerCred vc - tget 0 p.sentVc vc ≠ 0

/-- Place of a port's and channel's counter in a pair's tables (R349). -/
def ctrKey (port vc : Nat) : Nat := 4 * port + vc

/-! ### The bytes of a cell (R343, R348, R357) -/

/-- Each direction's key material of an epoch (R348): the direction byte is 0 from the initiator. -/
def pairKey (q : PairSec) (fromInit : Bool) (e : Nat) : Bytes :=
  padTo (Config.hkdf (bvLe q.ni 32 ++ bvLe q.nr 32) q.z (ascii "LYM-PAIR" ++ [if fromInit then 0 else 1] ++ natLe e 4) 40) 40

/-- The AES key of key material, and the GCM nonce of a cell: its 57-bit salt, the channel, the sending port and PCTR (R348). -/
def aesOf (m : Bytes) : Digest := BitVec.ofNat 256 (leNat (m.take 32))
def cellNonce (m : Bytes) (vc port pctr : Nat) : Bytes :=
  natLe (leNat (m.drop 32) % 2 ^ 57 * 2 ^ 39 + vc * 2 ^ 37 + port * 2 ^ 32 + pctr) 12

/-- The 16 bytes of a cell's header (R343). -/
def cellHeader (c : Cell) : Bytes :=
  natLe (c.lseq.toNat + c.vc.toNat * 2 ^ 16 + c.dst.toNat * 2 ^ 24 + c.src.toNat * 2 ^ 40 + nat c.ep * 2 ^ 56 + c.kind.toNat * 2 ^ 62 +
    c.pctr.toNat * 2 ^ 64 + c.tag.toNat * 2 ^ 96 + c.cidx.toNat * 2 ^ 109) 16

/-- The fields of a head cell's payload (R357). -/
def headBytes (h : Head) : Bytes :=
  bvLe h.jobId 4 ++ [h.kind, h.flags, h.fmt, 0] ++ bvLe h.raddr 8 ++ bvLe h.len 8 ++ bvLe h.rcnt 8 ++ bvLe h.rstep 8 ++ bvLe h.stepWord 8 ++
  bvLe h.owner 2 ++ natLe (h.oldTag.toNat + 2 ^ 15 * nat h.oldValid) 2 ++ natLe h.start.toNat 4 ++ bvLe h.seed 8 ++ bvLe h.digest 32

def natsOf (b : Bytes) : List Nat := b.map (·.toNat)

/-- The 480 payload bytes of what a cell carries; the layouts that no rule gives are free (log 42). -/
def bodyBytes : Body → Bytes
  | .head h => padTo (headBytes h) 480
  | .data b => padTo b 480
  | .readData o d b => padTo (Config.msgBytes 0 ([o.toNat, d.toNat] ++ natsOf b)) 480
  | .completion x y => padTo (Config.msgBytes 1 [nat x, nat y]) 480
  | .refusal s n => padTo (Config.msgBytes 2 [s.toNat, n.toNat]) 480
  | .preempted n => padTo (Config.msgBytes 3 [n.toNat]) 480
  | .position n => padTo (Config.msgBytes 4 [n.toNat]) 480
  | .query x => padTo (Config.msgBytes 5 [nat x]) 480
  | .exchange e n a b c => padTo (Config.msgBytes 6 ([e, n.toNat] ++ natsOf (a ++ b ++ c))) 480
  | .binding b => padTo (Config.msgBytes 7 [b.jobId.toNat, b.jobSt.toNat, b.digestA.toNat, b.digestB.toNat, b.mask.toNat]) 480
  | .mask m => padTo (Config.msgBytes 8 [m.toNat]) 480
  | .idle => zeros 480

/-- The 512 bytes of a cell as it leaves a port: under its pair's key the payload is the GCM ciphertext, with the header's bytes from bit 24
on as additional data; an idle cell, and an exchange before there is a key, carry their payload as it is and a zero tag. -/
def cellWire (q : Option Pair) (port : Nat) (c : Cell) : Bytes :=
  let h := cellHeader c
  match q with
  | some p =>
    let m := pairKey p.sec p.init p.epoch
    h ++ padTo (Config.gcmSeal (aesOf m) (cellNonce m c.vc.toNat port c.pctr.toNat) (h.drop 3) (bodyBytes c.body)) 496
  | none => h ++ bodyBytes c.body ++ zeros 16

/-! ### Sending (R337 to R345) -/

/-- The time of a transfer's last cell sent (R367). -/
def stampXfer (s : State) (c : Cell) : State :=
  if c.vc = 0 || c.vc = 2 then
    { s with fab := { s.fab with xfers := s.fab.xfers.map (fun x =>
        if x.tag = c.tag && fieldBv x.desc 4 2 16 = c.dst && x.st = .sent then { x with since := s.hub.time } else x) } }
  else s

/-- A cell leaves a port with the next link sequence number and stays in the replay buffer (R341). -/
def putCell (s : State) (k : Nat) (c : Cell) : State :=
  let p := portOf s k
  emit (setPort s k { p with txSeq := p.txSeq + 1, unacked := p.unacked ++ [(p.txSeq, c)],
                             ackAt := if p.unacked = [] then s.hub.time else p.ackAt }) (.cell k c)

/-- Send one waiting cell if its port is up, the replay buffer has room, and a credit and a pair counter are left; a cell of a pair
takes its PCTR and epoch parity as it leaves (R341, R345, R349, R350). The second part is what stays waiting. -/
def pumpOne (k : Nat) (x : State × List Cell) (c : Cell) : State × List Cell :=
  let s := x.1
  let p := portOf s k
  let vc := c.vc.toNat
  let pr := match pairOf s c.dst with | some q => if q.up then some q else none | none => none
  let ctr : BitVec 32 := match pr with | some q => tget 0 q.tx (ctrKey k vc) | none => 0
  if p.st ≠ 3 || underTest s 5 k || underTest s 6 k || 2560 ≤ p.unacked.length || !hasCredit p vc || ctr.toNat + 1 = 2 ^ 32 then (s, x.2 ++ [c])
  else
    let c1 : Cell := { c with lseq := p.txSeq, src := s.hub.fabAddr, pctr := if pr.isSome then ctr + 1 else 0,
                              ep := match pr with | some q => decide (q.epoch % 2 = 1) | none => false }
    let s1 := putCell s k { c1 with wire := cellWire pr k c1 }
    let p1 := portOf s1 k
    let s2 := stampXfer (setPort s1 k { p1 with sentVc := tset 0 p1.sentVc vc (tget 0 p1.sentVc vc + 1), slots := p1.slots + 1 }) c
    (if pr.isSome then updPair s2 c.dst (fun q => { q with tx := tset 0 q.tx (ctrKey k vc) (ctr + 1), lastUse := s.hub.time }) else s2, x.2)

/-- Send what a port may send of the cells that wait on it. -/
def pump (s : State) (k : Nat) : State :=
  let q := (portOf s k).txq
  let x := q.foldl (pumpOne k) (setPort s k { portOf s k with txq := [] }, [])
  setPort x.1 k { portOf x.1 k with txq := x.2 }

/-- Queue cells on a port and send what may go. -/
def sendCells (s : State) (k : Nat) (cs : List Cell) : State :=
  pump (setPort s k { portOf s k with txq := (portOf s k).txq ++ cs }) k

/-- KIND of a cell by what it carries (R343). -/
def bodyKind : Body → BitVec 2
  | .head _ => 0
  | .data _ => 1
  | .readData _ _ _ | .completion _ _ | .refusal _ _ | .preempted _ | .position _ => 2
  | .query _ | .exchange _ _ _ _ _ | .binding _ | .mask _ => 3
  | .idle => 0

def mkCell (vc : BitVec 2) (dst : BitVec 16) (tag : BitVec 13) (cidx : BitVec 19) (b : Body) : Cell :=
  { vc := vc, dst := dst, tag := tag, cidx := cidx, pctr := 0, ep := false, body := b, kind := bodyKind b }

/-- An idle cell fills a slot in which nothing waits (R338, R343): it takes no credit. -/
def idleCell (s : State) (k : Nat) : State :=
  let c : Cell := { mkCell 0 0 0 0 .idle with lseq := (portOf s k).txSeq }
  putCell s k { c with wire := cellWire none k c }

/-- Send a control cell to a peer on the lowest port that is up at both ends; where none is up it is not sent (log 42). -/
def sendCtl (s : State) (p : Pair) (tag : BitVec 13) (b : Body) : State :=
  match portsBoth s p with
  | [] => s
  | k :: _ => sendCells s k [mkCell 3 p.addr tag 0 b]

/-! ### Job bindings and port masks (R351) -/

/-- This device's job binding (R351). -/
def ownBinding (s : State) : Binding :=
  let j := jobOf s
  { jobId := j.id, jobSt := jobSt s, digestA := if j.baseA.loaded then j.baseA.digest else 0,
    digestB := if j.baseB.loaded then j.baseB.digest else 0, mask := ownMask s }

/-- Send every pair that is up a message. -/
def toPairs (s : State) (b : Body) : State := (s.fab.pairs.filter (·.up)).foldl (fun s p => sendCtl s p 0 b) s
def sendBindings (s : State) : State := toPairs s (.binding (ownBinding s))
def sendMasks (s : State) : State := toPairs s (.mask (ownMask s))

/-! ### Receiving -/

/-- The link layer takes a cell (R341): the number expected next is in order; any other is discarded and asked for again. -/
def linkTake (s : State) (k : Nat) (seq : BitVec 16) : State × Bool :=
  let p := portOf s k
  if seq = p.rxNext then (setPort s k { p with rxNext := p.rxNext + 1, rxLost := false, nak := false }, true)
  else (setPort s k { p with rxLost := true, nak := true }, false)

/-- The cell's buffer is freed (R345). -/
def freeBuf (s : State) (k vc : Nat) : State :=
  let p := portOf s k
  setPort s k { p with freed := tset 0 p.freed vc (tget 0 p.freed vc + 1) }

/-- The epoch whose parity a cell names, while its key is held (R349, R350). -/
def cellEpoch (p : Pair) (ep : Bool) : Option Nat :=
  if (p.epoch % 2 = 1) = ep then some p.epoch else if p.oldKey then some (p.epoch - 1) else none

/-- Place of the last PCTR accepted, by epoch parity, port and channel (R349). -/
def rxKey (ep : Bool) (k vc : Nat) : Nat := 128 * nat ep + ctrKey k vc

/-- A cell arrives at a port: out of order it is asked for again (R341); an idle cell, with VC 0, DST 0 and a zero payload, is discarded at
once (R343); any other frees its buffer (R345), is discarded unread for another device (R344), and else goes to `f`. -/
def arrive (s : State) (k : Nat) (h : CellHdr) (zero : Bool) (f : State → State) : State :=
  if !hubUp s || (portOf s k).st ≠ 3 then s
  else
    let t := linkTake s k h.lseq
    if !t.2 then t.1
    else if h.dst = 0 && h.vc = 0 && zero then t.1
    else
      let s1 := freeBuf t.1 k h.vc.toNat
      let p1 := portOf s1 k
      if h.dst ≠ s.hub.fabAddr || !s.hub.fabSet then setPort s1 k { p1 with misrout := satAdd p1.misrout 1 } else f s1

/-- A cell that fails its authentication is counted (R344). -/
def authFails (s : State) (k : Nat) : State := setPort s k { portOf s k with authFail := satAdd (portOf s k).authFail 1 }

/-- Take a received cell as far as its authentication (R344, R349): discarded for a failed GCM check or a counter not above the last; `f`
handles an accepted cell of a pair. -/
def takeCell (s : State) (k : Nat) (h : CellHdr) (zero : Bool) (f : State → Pair → State) : State :=
  arrive s k h zero (fun s1 => match pairOf s1 h.src with
    | none => authFails s1 k
    | some q =>
      let key := rxKey h.ep k h.vc.toNat
      if !q.up || !h.auth || (cellEpoch q h.ep).isNone || h.pctr.toNat ≤ (tget 0 q.rx key).toNat then authFails s1 k
      else
        let q1 := { q with rx := tset 0 q.rx key h.pctr, lastUse := s.hub.time,
                           newPorts := if (q.epoch % 2 = 1) = h.ep then q.newPorts ||| ((1 : BitVec 32) <<< k) else q.newPorts }
        f (updPair s1 h.src (fun _ => q1)) q1)

/-- Answer a peer on the port its cell came on (R334, R357). -/
def answer (s : State) (k : Nat) (vc : BitVec 2) (h : CellHdr) (cidx : BitVec 19) (b : Body) : State :=
  sendCells s k [mkCell vc h.src h.tag cidx b]

/-! ### Link cells (R338 to R341) -/

/-- The half whose canopy dies hold back a port's request and bulk credits (R217, R346). -/
def portHeld (s : State) (k : Nat) : Bool :=
  if k < 16 then s.hub.orxHold.getLsbD 0 || s.hub.orxHold.getLsbD 1 else s.hub.orxHold.getLsbD 2 || s.hub.orxHold.getLsbD 3

/-- The freed counts a port advertises now (R340, R346). -/
def credits (s : State) (k : Nat) : List (Nat × BitVec 16) :=
  let p := portOf s k
  (List.range 4).map (fun vc => (vc, if portHeld s k && (vc = 0 || vc = 2) then tget 0 p.credSent vc else tget 0 p.freed vc))

/-- The 512 bytes of a link cell (R340). -/
def linkBytes (mark : Bool) (ack nak : BitVec 16) (nakv : Bool) (cred : BitVec 64) : Bytes :=
  let b := natLe (if mark then 0x4C4B4345 else 0) 4 ++ bvLe ack 2 ++ bvLe nak 2 ++ [BitVec.ofNat 8 (nat nakv)] ++ zeros 7 ++ bvLe cred 8 ++ zeros 484
  b ++ natLe (crc32 b) 4

/-- Slots between a link cell at a slot of the superframe and the one before it, none before the first (R338). -/
def slotsBefore (p : Port) : Nat := if !p.linked then 0 else if p.linkSlot = 0 then 19 else 79

/-- Idle cells for the slots since the last link cell that no other cell took, as far as the replay buffer has room (R338, R341). -/
def fillIdle (s : State) (k : Nat) : State :=
  let p := portOf s k
  (List.range (min (slotsBefore p - p.slots) (2560 - p.unacked.length))).foldl (fun s _ => idleCell s k) s

/-- A port sends a link cell (R338, R340): the slot-0 mark, the cumulative ACK, a NAK, and the credit counts. -/
def execLinkCellSend (k : Fin 32) (s : State) : Host.Outcome State Fault Refusal :=
  let p := portOf s k.val
  if p.st ≠ 3 || !hubUp s then .next s
  else
    let cs := credits s k.val
    let cred : BitVec 64 := BitVec.ofNat 64 (cs.foldl (fun a c => a + c.2.toNat * 2 ^ (16 * c.1)) 0)
    let s0 := fillIdle s k.val
    let s1 := setPort s0 k.val { portOf s0 k.val with
      linkSlot := if p.linkSlot = 5120 then 0 else p.linkSlot + 80, linked := true, slots := 0,
      credSent := cs.foldl (fun t c => tset 0 t c.1 c.2) p.credSent }
    .next (emit s1 (.link k.val (linkBytes (p.linkSlot = 0) p.rxNext p.rxNext p.nak cred)))

/-- Replay the unacknowledged cells from a link sequence number, with the same bytes (R341). -/
def replayFrom (s : State) (k : Nat) (n : BitVec 16) : State :=
  let p := portOf s k
  let cs := p.unacked.dropWhile (fun c => c.1 ≠ n)
  let s1 := setPort s k { p with replay := satAdd p.replay cs.length, replays := p.replays + (if cs.length = p.unacked.length && cs ≠ [] then 1 else 0),
                                 ackAt := s.hub.time }
  cs.foldl (fun s c => emit s (.cell k c.2)) s1

/-- A cell slot is lost to an uncorrectable codeword (R339, R341). A codeword overlaps two or three slots: UNCORR counts it with the first
of them, which `newWord` marks (R371). -/
def execSlotLost (x : LostSlot) (s : State) : Host.Outcome State Fault Refusal :=
  let p := portOf s x.port.val
  if p.st ≠ 3 || !hubUp s then .next s
  else .next (setPort s x.port.val { p with uncorr := if x.newWord then satAdd p.uncorr 1 else p.uncorr, rxLost := true, nak := true })

/-! ### Lock, port down and port up (R336, R342) -/

/-- A port's horizon die is in service with its power domains on. -/
def horizonUp (s : State) (h : Nat) : Bool :=
  !s.fences.horizon.getLsbD h && !s.rst.held.getLsbD (20 + h) && (pdOf s (40 + 2 * h)).st = 0 && (pdOf s (41 + 2 * h)).st = 0

/-- A wavelength loses lock (R336). -/
def execWavelengthLockLost (k : Fin 32) (w : Fin 8) (s : State) : Host.Outcome State Fault Refusal :=
  let p := portOf s k.val
  .next (setPort s k.val { p with lock := p.lock &&& ~~~((1 : BitVec 8) <<< w.val), lostAt := if p.lock = 0xFF then s.hub.time else p.lostAt })

/-- A port's wavelengths lock again without software action (R336); only a port that may come up on a die in service locks. A port that is not
up then trains (R342). -/
def execWavelengthRelock (k : Fin 32) (s : State) : Host.Outcome State Fault Refusal :=
  let p := portOf s k.val
  if hubUp s && p.enable && p.st ≠ 5 && p.st ≠ 6 && horizonUp s (k.val / 8) then
    .next (setPort s k.val { p with lock := 0xFF, st := if p.st = 1 || p.st = 0 || p.st = 4 then 2 else p.st })
  else .next s

/-- The link state of a port that has just gone down: nothing waits, nothing is unacknowledged. -/
def linkCleared (p : Port) : Port :=
  { p with unacked := [], txq := [], replays := 0, rxLost := false, nak := false, txSeq := 0, rxNext := 0, freed := [], credSent := [],
           peerCred := [], sentVc := [], linkSlot := 0, linked := false, slots := 0 }

/-- A port comes up (R342): all eight wavelengths locked, on a die in service. Every pair is sent the new mask (R351). -/
def execPortUp (k : Fin 32) (s : State) : Host.Outcome State Fault Refusal :=
  let p := portOf s k.val
  if hubUp s && p.enable && p.lock = 0xFF && (p.st = 1 || p.st = 2 || p.st = 4) && horizonUp s (k.val / 8) then
    .next (sendMasks (setPort s k.val { linkCleared p with st := 3, ackAt := s.hub.time, linkAt := s.hub.time }))
  else .next s

/-! ### Pairs (R347 to R352) -/

/-- The state in which Ranger starts a new secret (R439). -/
def rangerReady (s : State) : Bool := hubUp s && s.boot.devReady && rgrStateNow s = 0

/-- A pair with no transfer in either direction (R347). -/
def pairIdle (s : State) (a : BitVec 16) : Bool :=
  !s.fab.xfers.any (fun x => fieldBv x.desc 4 2 16 = a) && !s.fab.recs.any (fun r => r.src = a && r.st = .opened)

/-- The least recently used idle pair (R347). -/
def lruPair (s : State) : Option Pair :=
  (s.fab.pairs.filter (fun p => pairIdle s p.addr)).foldl (fun m p => match m with
    | none => some p
    | some q => if p.lastUse.toNat < q.lastUse.toNat then some p else m) none

/-- Whether an exchange with a peer may start. -/
def mayPair (s : State) (a : BitVec 16) : Bool :=
  s.hub.fabSet && a ≠ s.hub.fabAddr && a ≠ 0 && a ≠ 0xFFFF && ownMask s ≠ 0

/-- This device's part of an exchange leaves on the control channel (R347): its certificate chain, a fresh ephemeral share signed with the
alias key, and a fresh nonce. `init` says that this device begins the exchange. -/
def startExchange (s : State) (a : BitVec 16) (e : Nat) (init : Bool) : State :=
  let share := Config.ephPublic s.free
  let nonce := Config.random (s.free + 1)
  let sig := Config.ecdsaSign s.rgr.aliasKey (Config.sha256 share) (s.free + 2)
  let s1 := updPair (drawRandom (drawRandom (drawRandom s))) a (fun q => { q with exchange := true, init := init, eph := s.free, nonce := nonce })
  match pairOf s1 a with
  | none => s
  | some p => sendCtl s1 p 0 (.exchange e nonce share s.rgr.chain sig)

/-- The secret of an exchange, from both parts of it (R348). -/
def exchangeSec (p : Pair) (c : PeerCheck) : PairSec :=
  { z := Config.ecdh p.eph c.share, ni := if p.init then p.nonce else c.nonce, nr := if p.init then c.nonce else p.nonce }

/-- The new pair's own binding is sent once it is up (R351). -/
def bindPair (s : State) (a : BitVec 16) : State :=
  match pairOf s a with
  | none => s
  | some p => sendCtl s p 0 (.binding (ownBinding s))

/-- Drop a pair. -/
def dropPair (s : State) (a : BitVec 16) : State := { s with fab := { s.fab with pairs := s.fab.pairs.filter (fun p => p.addr ≠ a) } }

/-- PAIR_REKEY: some port's counter has reached 2^31 (R350): a new exchange for the next epoch starts. -/
def execPairRekey (a : BitVec 16) (s : State) : Host.Outcome State Fault Refusal :=
  match pairOf s a with
  | none => .next s
  | some p =>
    if hubUp s && p.up && !p.exchange && p.tx.any (fun t => 2 ^ 31 ≤ t.2.toNat) then
      .next (startExchange s a (p.epoch + 1) true)
    else .next s

/-- OLD_KEY_DISCARD: every port has delivered a cell under the new key, or 1 ms has passed (R350). -/
def execOldKeyDiscard (a : BitVec 16) (s : State) : Host.Outcome State Fault Refusal :=
  match pairOf s a with
  | none => .next s
  | some p =>
    if !p.oldKey then .next s
    else
      let s1 := if p.newPorts = 0xFFFFFFFF then s else advanceTo s (p.rekeyAt.toNat + 1000000)
      .next (updPair s1 a (fun q => { q with oldKey := false }))

end Sys2Proof.Machine
end

