-- ==== Sys2Proof/Machine/Move.lean ====
section
/-! DEFINITION. Glade instructions that move data: LD_T, ST_T, LD_G and PF (R144 to R148). -/

namespace Sys2Proof.Machine

/-- One piece of a step: source space and address, destination space and address, length. -/
structure Move where
  sspace : Nat
  src    : Nat
  dspace : Nat
  dst    : Nat
  n      : Nat
  deriving DecidableEq, Repr

/-- Read every piece of a step with its own tag (R144: each line keeps its owner tag). -/
def moveReads (s : State) (pl : Place) : List Move → Except Byte (List (Move × Bytes × Tag))
  | [] => .ok []
  | m :: r => match spanRead s pl m.sspace m.src m.n with
    | .error e => .error e
    | .ok (b, t) => match moveReads s pl r with
      | .error e => .error e
      | .ok l => .ok ((m, b, t) :: l)

/-- Check the destination of every piece (R126). -/
def moveChecks (s : State) (pl : Place) : List (Move × Bytes × Tag) → Except Byte Bool
  | [] => .ok true
  | x :: r => match spanCheck s pl x.1.dspace x.1.dst x.1.n x.2.2 with
    | .error e => .error e
    | .ok a => match moveChecks s pl r with
      | .error e => .error e
      | .ok b => .ok (a && b)

/-- Store pieces that have been read and checked. -/
def moveStores (s : State) (pl : Place) (l : List (Move × Bytes × Tag)) : State :=
  l.foldl (fun s x => spanStore s pl x.1.dspace x.1.dst x.2.1 x.2.2) s

/-- One step: every source line read and every destination line checked before any is written (R126). -/
def moveStep (pl : Place) (ms : List Move) (a : Acc) : Acc :=
  match moveReads a.s pl ms with
  | .error e => a.fail e
  | .ok l => match moveChecks a.s pl l with
    | .error e => a.fail e
    | .ok false => { a with frz := true }
    | .ok true => { a with s := moveStores a.s pl l }

/-- Cut a row of `n` bytes at destination lines: 256 bytes, or a whole window row (R91, R126). -/
def rowPieces (sspace src dspace dst n : Nat) : List Move :=
  if dspace = 0 && inWindow dst then [⟨sspace, src, dspace, dst, n⟩]
  else (List.range (ceilDiv n 256)).map (fun k => ⟨sspace, src + 256 * k, dspace, dst + 256 * k, min 256 (n - 256 * k)⟩)

/-- The steps of copying row `r` of `src` to row `r'` of `dst`: one step with its scale line for a block format, else one step per
line (R126). -/
def rowMoves (src dst : Td) (r r' : Nat) : List (List Move) :=
  let es := rowPieces (tSpace src) (rowAddr src r) (tSpace dst) (rowAddr dst r') (rowBytes src)
  if isBlock (tFmt src) then
    [es ++ rowPieces src.sspace.toNat (scaleAddr src r) dst.sspace.toNat (scaleAddr dst r') (nBlocks src)]
  else es.map (fun m => [m])

/-- A cache of 16 ways after an access to a line by a domain that holds some ways (R196, R211): a hit, searched for in those ways alone,
makes the line the last used; a miss takes a free way of the line's set, or the way of the least recently used line there. Lines stand
in the order of their use. -/
def cacheTake (c : List CLine) (die nsets : Nat) (ways : List Nat) (l : Nat) : List CLine :=
  if nsets = 0 then c
  else match c.find? (fun x => x.line = l && ways.contains x.way) with
    | some x => x :: c.filter (fun y => y.line ≠ l)
    | none =>
      let set := Config.cacheSet nsets l % nsets
      let mine := c.filter (fun x => x.die = die && x.set = set && ways.contains x.way)
      match ways.find? (fun w => mine.all (fun x => x.way ≠ w)) with
      | some w => { line := l, die := die, set := set, way := w } :: c
      | none => match mine.getLast? with
        | some v => { line := l, die := die, set := set, way := v.way } :: c.filter (fun x => x ≠ v)
        | none => c

/-- Sets of a die's cache region, and of a tile buffer's cache part (R193, R196, R210). -/
def canopySets (j : Job) (die : Nat) : Nat := (20 - j.managed.getD die 0) * 16384
def tileSets (j : Job) : Nat := j.waySize / 256

/-- A line that has been read enters its home die's cache region, in the ways of its segment's domain (R196), and its owner's key is the
last used there (R455). -/
def cacheLine (j : Job) (s : State) (a : Nat) : State :=
  match segAt j a with
  | none => s
  | some g =>
    let d := homeDie s g a
    let s1 := adoptLine s j a
    let s2 := if g.enc then useKey s1 d ((keyOf j g.owner).getD []) else s1
    { s2 with ccache := cacheTake s2.ccache d (canopySets j d) (bitsSet (domOf j g.dom.toNat).cways.toNat 16) (lineOf a) }

/-- A line of a read-only or frozen segment enters a tile buffer's cache part, in the ways of its domain (R211). -/
def tileLine (j : Job) (c : List CLine) (a : Nat) : List CLine :=
  match segAt j a with
  | some g => if g.access = 1 then c else cacheTake c 0 (tileSets j) (bitsSet (domOf j g.dom.toNat).tways.toNat 16) (lineOf a)
  | none => c

/-- Lines of a device read that a load leaves in the Canopy cache region, and in the tile-buffer cache (R196, R211, log 12). -/
def cacheLines (s : State) (j : Job) (gi : Nat) (tile : Bool) (l : List Nat) : State :=
  let ok := l.filter (fun a => (readLine s j a).toOption.isSome)
  let s1 := (ok.filter (fun a => !isCanopy a)).foldl (cacheLine j) s
  let g := gladeOf s1 gi
  if tile then setGlade s1 gi { g with cache := ok.foldl (tileLine j) g.cache } else s1

/-- Lines of a tile's element and scale planes. -/
def tileLines (t : Td) : List Nat :=
  (List.range (tRows t)).flatMap (fun r =>
    (if tSpace t = 1 then linesOf (rowAddr t r) (rowBytes t) else []) ++
    (if isBlock (tFmt t) && t.sspace = 1 then linesOf (scaleAddr t r) (nBlocks t) else []))

/-- LD_T and ST_T: copy every row, each line keeping its owner tag (R144, R145). -/
def moveTile (i : GI) (store : Bool) (s : State) : GOut :=
  let e := curEng s i
  let a := tdGet e i.ta.toNat
  let b := tdGet e i.tb.toNat
  let pl := placeOf s i.glade.val
  let spaces := if store then tSpace b = 0 && tSpace a = 1 else tSpace a = 0
  if !tdDst pl a || !tdOk pl b || !spaces || a.fmt ≠ b.fmt || a.blk ≠ b.blk || a.rows ≠ b.rows || a.cols ≠ b.cols then .fault stProgram s
  else
    let steps := (List.range (tRows a)).flatMap (fun r => rowMoves b a r r)
    let x := runSteps (moveStep pl) steps (startAcc i s)
    closeAcc i false { x with s := if store || x.cut then x.s else cacheLines x.s pl.j i.glade.val true (tileLines b) }

/-- LD_T moves tile tdB into tile tdA in the tile buffer (R144). -/
def execLdT (i : GI) (s : State) : Host.Outcome State Fault Refusal :=
  .next (issue 0x20 i { ta := true, tb := true, only := some .ae, steps := true } (moveTile i false) s)

/-- ST_T moves tile tdB from the tile buffer into tile tdA at a device address (R144 to R146). -/
def execStT (i : GI) (s : State) : Host.Outcome State Fault Refusal :=
  .next (issue 0x21 i { ta := true, tb := true, only := some .ae, steps := true } (moveTile i true) s)

/-- Write a blank row: zero elements, every scale byte 0, tag PUBLIC (R147, R231). -/
def blankRow (pl : Place) (t : Td) (r : Nat) (a : Acc) : Acc :=
  a.took (writeRow a.s pl t r (List.replicate (tCols t) 0) (List.replicate (nBlocks t) 0) tagPublic)

/-- One gathered row: the index entry names the source row (R147). -/
def gatherRow (pl : Place) (dst src : Td) (list r : Nat) (a : Acc) : Acc :=
  let w := leNat (rdBytes (gladeOf a.s pl.gi).mem (list + 4 * r) 4)
  if gPoisoned (gladeOf a.s pl.gi) (list + 4 * r) 4 then a.fail stDevice
  else if w = 0xFFFFFFFF then blankRow pl dst r a
  else
    let k := w % 2 ^ 24
    if tRows src ≤ k then a.fail stProgram
    else (rowMoves src dst k r).foldl (fun a m => if a.err ≠ 0 then a else moveStep pl m a) a

/-- LD_G gathers rows of tdB into tdA by the index list at sA (R147, R576). -/
def execLdG (i : GI) (s : State) : Host.Outcome State Fault Refusal :=
  .next (issue 0x22 i { ta := true, tb := true, sa := true, sb := true, only := some .ae, steps := true } (fun s =>
    let e := curEng s i
    let a := tdGet e i.ta.toNat
    let b := tdGet e i.tb.toNat
    let pl := placeOf s i.glade.val
    let list := (sGet e i.sa.toNat).toNat
    let n := (sGet e i.sb.toNat).toNat
    if !tdDst pl a || !tdOk pl b || tSpace a ≠ 0 || a.fmt ≠ b.fmt || a.blk ≠ b.blk || a.cols ≠ b.cols ||
       tRows a < n || list % 4 ≠ 0 || !inScratch pl.j list (4 * n) then .fault stProgram s
    else
      let x := runRows (gatherRow pl a b list) n (startAcc i s)
      closeAcc i false { x with s := if x.cut then x.s else cacheLines x.s pl.j i.glade.val true (tileLines b) }) s)

/-- PF brings lines into the Canopy cache region, or the tile-buffer cache part with FLAGS[0]; it never faults and changes no result
(R148): a prefetch through a descriptor that R130 refuses is dropped (log 34). -/
def execPf (i : GI) (s : State) : Host.Outcome State Fault Refusal :=
  .next (issue 0x23 i { ta := true, flags := 1, only := some .ae } (fun s =>
    let t := tdGet (curEng s i) i.ta.toNat
    let pl := placeOf s i.glade.val
    if tdOk pl t then .done (cacheLines s pl.j i.glade.val (i.flags.getLsbD 0) (tileLines t)) else .done s) s)

end Sys2Proof.Machine
end

