-- ==== Sys2Proof/Machine/Scalar.lean ====
section
/-! DEFINITION. Glade instructions of control flow, tokens, meetings, scalars and descriptors: NOP to STS (R135 to R143, R179). -/

namespace Sys2Proof.Machine

/-- NOP has no effect and takes one issue slot (R139). -/
def execNop (i : GI) (s : State) : Host.Outcome State Fault Refusal := .next (issue 0x00 i {} .done s)

/-- HALT: the engine waits until everything it issued has completed; HALT_DONE ends it (R138). -/
def execHalt (i : GI) (s : State) : Host.Outcome State Fault Refusal :=
  .next (issue 0x01 i {} (fun s => .wait (setCur s i { curEng s i with st := .waitMem })) s)

/-- BR branches by IMM, a signed count of instructions from its own address (R139). -/
def execBr (i : GI) (s : State) : Host.Outcome State Fault Refusal :=
  .next (issue 0x02 i { imm := allImm } (fun s => .jump s ((curEng s i).pc.toNat + i.imm.toInt)) s)

/-- LOOP sets sA to sA − 1 and branches if sA is not 0; s0 reads 0 throughout (R127, R139). -/
def execLoop (i : GI) (s : State) : Host.Outcome State Fault Refusal :=
  .next (issue 0x03 i { sa := true, imm := allImm } (fun s =>
    let e := curEng s i
    let e1 := sSet e i.sa.toNat (sGet e i.sa.toNat - 1)
    let s1 := setCur s i e1
    if sGet e1 i.sa.toNat = 0 then .done s1 else .jump s1 (e.pc.toNat + i.imm.toInt)) s)

/-- CALL pushes the next address, at most 16 deep, and branches by IMM (R139). -/
def execCall (i : GI) (s : State) : Host.Outcome State Fault Refusal :=
  .next (issue 0x04 i { imm := allImm } (fun s =>
    let e := curEng s i
    let t := (e.pc.toNat : Int) + i.imm.toInt
    if 16 ≤ e.stack.length || !((e.sectStart : Int) ≤ t && t < e.sectEnd) then .fault stProgram s
    else .jump (setCur s i { e with stack := e.stack ++ [e.pc + 1] }) t) s)

/-- RET pops an address and branches to it (R139). -/
def execRet (i : GI) (s : State) : Host.Outcome State Fault Refusal :=
  .next (issue 0x05 i {} (fun s =>
    let e := curEng s i
    match e.stack.getLast? with
    | none => .fault stProgram s
    | some a =>
      if !(e.sectStart ≤ a.toNat && a.toNat < e.sectEnd) then .fault stProgram s
      else .jump (setCur s i { e with stack := e.stack.dropLast }) a.toNat) s)

/-- The statuses of naming a meeting counter for reading (R179, R180, R185): in the managed region, aligned, in a segment, on a
PUBLIC line. -/
def counterCheck (s : State) (j : Job) (a : Nat) : Byte :=
  if a % 8 ≠ 0 then stProgram
  else if !inManaged j a || (segAt j a).isNone then stSegment
  else if s.poison.contains (lineOf a) then stDevice
  else if tagOf s (lineOf a) ≠ tagPublic then stOwnerMix
  else stOk

/-- The statuses of adding to a meeting counter (R185, R286); a frozen segment drops the add (R509). -/
def counterAddCheck (s : State) (j : Job) (eval : Bool) (a : Nat) : Except Byte Bool :=
  match writeCheck s j eval a 8 tagPublic with
  | .error e => .error e
  | .ok none => .ok false
  | .ok (some _) => .ok true

/-- MEET: with FLAGS[0] add 1 to the meeting counter at sA; then stall until it is at least sB (R179, R180). -/
def execMeet (i : GI) (s : State) : Host.Outcome State Fault Refusal :=
  .next (issue 0x06 i { sa := true, sb := true, flags := 1 } (fun s =>
    let e := curEng s i
    let a := (sGet e i.sa.toNat).toNat
    let goal := sGet e i.sb.toNat
    let pl := placeOf s i.glade.val
    let st := counterCheck s pl.j a
    let acc := (gladeOf s i.glade.val).cmd
    if st ≠ stOk then .fault st s
    else
      let go := fun (s : State) =>
        if goal.toNat ≤ (counterAt s (BitVec.ofNat 64 a)).toNat then GOut.done s
        else .wait (setCur s i { curEng s i with st := .waitMeet, meetAddr := BitVec.ofNat 64 a, meetGoal := goal, stalledAt := s.hub.time })
      if i.flags.getLsbD 0 then
        match counterAddCheck s pl.j pl.eval a with
        | .error e => .fault e s
        | .ok false => go (noteFrozen s acc pl.j.strict)
        | .ok true => go (if staleHalf s (halfOfGlade i.glade.val) then loseWrite s i.glade.val else bumpCounter s a)
      else go s) s)

/-- SIGNAL q reserves an entry of the outgoing queue, or stalls while none is free; the token enters at TOKEN_ENTER (R135). -/
def execSignal (i : GI) (s : State) : Host.Outcome State Fault Refusal :=
  .next (issue 0x08 i { sa := true, flags := 7 } (fun s =>
    let g := gladeOf s i.glade.val
    let q := outQueue i.eng (i.flags.toNat % 8)
    let e := curEng s i
    if 64 ≤ queueUsed g q then .wait (setCur s i { e with st := .waitToken, waitQ := q })
    else .done (setGlade s i.glade.val
      { g with sent := tset [] g.sent q (sentOf g q ++ [(sGet e i.sa.toNat).setWidth 32]) })) s)

/-- WAIT q removes the oldest token of the incoming queue into sA, zero-extended, or stalls while it is empty (R136). -/
def execWait (i : GI) (s : State) : Host.Outcome State Fault Refusal :=
  .next (issue 0x09 i { sa := true, flags := 7 } (fun s =>
    let g := gladeOf s i.glade.val
    let q := inQueue i.eng (i.flags.toNat % 8)
    match queueOf g q with
    | [] => .wait (setCur s i { curEng s i with st := .waitToken, waitQ := q, waitSa := i.sa })
    | t :: _ =>
      let s1 := setGlade s i.glade.val (takeToken g i.eng q)
      .done (setCur s1 i (sSet (curEng s1 i) i.sa.toNat (t.setWidth 64)))) s)

/-- MOV sets sA to IMM (R139). -/
def execMov (i : GI) (s : State) : Host.Outcome State Fault Refusal :=
  .next (issue 0x10 i { sa := true, imm := allImm } (fun s => .done (setCur s i (sSet (curEng s i) i.sa.toNat i.imm))) s)

/-- The operations of ALU; none for a reserved code (R140). -/
def aluOp (op : Nat) (x y : BitVec 64) : Option (BitVec 64) :=
  match op with
  | 0 => some (x + y)
  | 1 => some (x - y)
  | 2 => some (x * y)
  | 3 => some (x &&& y)
  | 4 => some (x ||| y)
  | 5 => some (x ^^^ y)
  | 6 => some (x <<< (y.toNat % 64))
  | 7 => some (x >>> (y.toNat % 64))
  | 8 => some (x.sshiftRight (y.toNat % 64))
  | 9 => some (if x.toNat ≤ y.toNat then x else y)
  | 10 => some (if x.toNat ≤ y.toNat then y else x)
  | _ => none

/-- ALU sets sA to sB op y, y being IMM or sC (R140). -/
def execAlu (i : GI) (s : State) : Host.Outcome State Fault Refusal :=
  .next (issue 0x11 i { sa := true, sb := true, sc := true, imm := allImm, flags := 0x1F } (fun s =>
    let e := curEng s i
    let y := if i.flags.getLsbD 4 then i.imm else sGet e i.sc.toNat
    match aluOp (i.flags.toNat % 16) (sGet e i.sb.toNat) y with
    | none => .fault stProgram s
    | some v => .done (setCur s i (sSet e i.sa.toNat v))) s)

/-- The conditions of CMP; none for a reserved code (R141). -/
def cmpOp (op : Nat) (x y : BitVec 64) : Option Bool :=
  match op with
  | 0 => some (x = y)
  | 1 => some (x ≠ y)
  | 2 => some (x.toInt < y.toInt)
  | 3 => some (x.toInt ≤ y.toInt)
  | 4 => some (x.toNat < y.toNat)
  | 5 => some (x.toNat ≤ y.toNat)
  | _ => none

/-- Set one predicate. -/
def setPred (e : Eng) (k : Nat) (b : Bool) : Eng :=
  { e with p := if b then e.p ||| ((1 : BitVec 8) <<< k) else e.p &&& ~~~((1 : BitVec 8) <<< k) }

/-- CMP writes predicate p(FLAGS[6:4]) with the truth of sB cond y (R141). -/
def execCmp (i : GI) (s : State) : Host.Outcome State Fault Refusal :=
  .next (issue 0x12 i { sb := true, sc := true, imm := allImm, flags := 0xFF } (fun s =>
    let e := curEng s i
    let y := if i.flags.getLsbD 7 then i.imm else sGet e i.sc.toNat
    match cmpOp (i.flags.toNat % 16) (sGet e i.sb.toNat) y with
    | none => .fault stProgram s
    | some b => .done (setCur s i (setPred e (i.flags.toNat / 16 % 8) b))) s)

/-- Set one field of a tile descriptor, the value truncated to its width; none for a reserved code (R142). -/
def tdField (t : Td) (f : Nat) (v : BitVec 64) : Option Td :=
  match f with
  | 0 => some { t with base := v.setWidth 48 }
  | 1 => some { t with space := v.setWidth 2 }
  | 2 => some { t with fmt := v.setWidth 4 }
  | 3 => some { t with blk := v.setWidth 2 }
  | 4 => some { t with grad := v.getLsbD 0 }
  | 5 => some { t with copy := v.getLsbD 0 }
  | 6 => some { t with rows := v.setWidth 12 }
  | 7 => some { t with cols := v.setWidth 12 }
  | 8 => some { t with pitch := v.setWidth 32 }
  | 9 => some { t with sbase := v.setWidth 48 }
  | 10 => some { t with sspace := v.setWidth 2 }
  | 11 => some { t with spitch := v.setWidth 32 }
  | _ => none

/-- TDSET writes sA or IMM into one field of tdA (R142). -/
def execTdset (i : GI) (s : State) : Host.Outcome State Fault Refusal :=
  .next (issue 0x14 i { ta := true, sa := true, imm := allImm, flags := 0x1F } (fun s =>
    let e := curEng s i
    let v := if i.flags.getLsbD 4 then i.imm else sGet e i.sa.toNat
    match tdField (tdGet e i.ta.toNat) (i.flags.toNat % 16) v with
    | none => .fault stProgram s
    | some t => .done (setCur s i (tdSet e i.ta.toNat t))) s)

/-- TDADD adds sA to BASE and sB to SBASE of tdA, each truncated to 48 bits (R139). -/
def execTdadd (i : GI) (s : State) : Host.Outcome State Fault Refusal :=
  .next (issue 0x15 i { ta := true, sa := true, sb := true } (fun s =>
    let e := curEng s i
    let t := tdGet e i.ta.toNat
    .done (setCur s i (tdSet e i.ta.toNat
      { t with base := t.base + (sGet e i.sa.toNat).setWidth 48, sbase := t.sbase + (sGet e i.sb.toNat).setWidth 48 }))) s)

/-- TDCPY copies tdB into tdA (R139). -/
def execTdcpy (i : GI) (s : State) : Host.Outcome State Fault Refusal :=
  .next (issue 0x16 i { ta := true, tb := true } (fun s =>
    let e := curEng s i
    .done (setCur s i (tdSet e i.ta.toNat (tdGet e i.tb.toNat)))) s)

/-- The conditions of R143 on an 8-byte scalar access, before any segment check: in SPACE 0 one range of R89, the tile buffer with its
cache part or the window (log 33). -/
def scalarPlace (pl : Place) (space a : Nat) (store : Bool) : Bool :=
  a % 8 = 0 &&
  (match space with
   | 0 => decide (a + 8 ≤ bufSize) || inWin a 8
   | 1 => true
   | 2 => !store && inConst pl.prog a 8
   | _ => false)

/-- LDS loads the 8 bytes at sB + IMM, from a PUBLIC line only, into sA (R128, R143). -/
def execLds (i : GI) (s : State) : Host.Outcome State Fault Refusal :=
  .next (issue 0x17 i { sa := true, sb := true, imm := allImm, flags := 3 } (fun s =>
    let e := curEng s i
    let a := (sGet e i.sb.toNat + i.imm).toNat
    let pl := placeOf s i.glade.val
    let sp := i.flags.toNat % 4
    if !scalarPlace pl sp a false then .fault stProgram s
    else match spanRead s pl sp a 8 with
      | .error st => .fault st s
      | .ok (b, t) =>
        if t ≠ tagPublic then .fault stOwnerMix s
        else .done (setCur s i (sSet e i.sa.toNat (BitVec.ofNat 64 (leNat b))))) s)

/-- The tag a device line carries for an 8-byte store: a Canopy line's own, else its segment's owner (R204). -/
def lineTag (s : State) (j : Job) (a : Nat) : Tag :=
  if isCanopy a then tagOf s (lineOf a) else match segAt j a with | some g => g.owner | none => tagPublic

/-- STS stores sA as the 8 bytes at sB + IMM into a PUBLIC line; another line completes OWNER_MIX and nothing is written (R143). -/
def execSts (i : GI) (s : State) : Host.Outcome State Fault Refusal :=
  .next (issue 0x18 i { sa := true, sb := true, imm := allImm, flags := 3 } (fun s =>
    let e := curEng s i
    let a := (sGet e i.sb.toNat + i.imm).toNat
    let pl := placeOf s i.glade.val
    let sp := i.flags.toNat % 4
    let v := bvLe (sGet e i.sa.toNat) 8
    let acc := (gladeOf s i.glade.val).cmd
    if !scalarPlace pl sp a true then .fault stProgram s
    else if sp = 0 then
      if gTag (gladeOf s i.glade.val) a = tagPoison then .fault stDevice s
      else if gTag (gladeOf s i.glade.val) a ≠ tagPublic then .fault stOwnerMix s
      else .done (spanStore s pl 0 a v tagPublic)
    else match writeCheck s pl.j pl.eval a 8 tagPublic with
      | .ok none => .done (noteFrozen s acc pl.j.strict)
      | .error st => .fault st s
      | .ok (some _) =>
        if lineTag s pl.j a ≠ tagPublic then .fault stOwnerMix s else .done (spanStore s pl 1 a v tagPublic)) s)

end Sys2Proof.Machine
end

