-- ==== Sys2Proof/Machine/Special.lean ====
section
/-! DEFINITION. The special-function unit (R165): each function computed to about 2^-80 and rounded, off by a free error within the code's bound. -/

namespace Sys2Proof.Machine

/-- The magnitude of a value is at most a times 2^b. -/
def valAtMost (v : Val) (a : Nat) (b : Int) : Bool := match v with | .fin _ m e => magLe m e a b | _ => false

/-- A candidate result lies within a × 2^b of a rounded exact result (R165). -/
def within (r c : BitVec 32) (a : Nat) (b : Int) : Bool := valAtMost (addVal (dec32 c) (negVal (dec32 r))).1 a b

/-- The free result of a code on an input where it keeps the bound, measured against the exact result rounded to W32; else that rounded
result (R165, log 9). -/
def freeNear (code : Nat) (x r : BitVec 32) (a : Nat) (b : Int) : BitVec 32 :=
  if within r (Config.sfuOut code x) a b then Config.sfuOut code x else r

/-- The exponent of one ulp of a finite W32 code (R36): its spacing, that of the smallest normal for a subnormal. -/
def ulp32 (r : BitVec 32) : Int := max ((r.extractLsb' 22 9).toNat : Int) 1 - 255 - 22

/-- A result within some ulps of an exact value rounded to W32; an exact value that overflows gives infinity (R59, R165). -/
def nearUlps (code : Nat) (x : BitVec 32) (bound : Nat) (v : Val) : R32 :=
  let r := rnd32 v
  if isInf32 r.v then r else { r with v := freeNear code x r.v bound (ulp32 r.v) }

/-- A result within 2^−k of an exact value rounded to W32 (R165). -/
def nearAbs (code : Nat) (x : BitVec 32) (k : Nat) (v : Val) : R32 :=
  let r := rnd32 v
  { r with v := freeNear code x r.v 1 (-k) }

/-- 2^(f / 2^80) times 2^120, for f below 2^80: the product of the square roots that the bits of f select. -/
def exp2Frac (f : Nat) : Nat :=
  ((List.range 80).foldl (fun (a : Nat × Nat) i =>
    let c := Nat.sqrt (a.1 * 2 ^ 120)
    (c, if f.testBit (79 - i) then a.2 * c / 2 ^ 120 else a.2)) (2 * 2 ^ 120, 2 ^ 120)).2

/-- A finite value in units of 2^−80, rounded down. -/
def fixed80 (neg : Bool) (m : Nat) (e : Int) : Int :=
  let q : Int := if 0 ≤ e + 80 then ((m * 2 ^ (e + 80).toNat : Nat) : Int) else ((m / 2 ^ (-(e + 80)).toNat : Nat) : Int)
  let exact := 0 ≤ e + 80 || m % 2 ^ (-(e + 80)).toNat = 0
  if neg then (if exact then -q else -q - 1) else q

/-- The exact 2^x of a finite x, as a value. -/
def exp2Val (neg : Bool) (m : Nat) (e : Int) : Val :=
  if m = 0 then .fin false 1 0
  else if 10 ≤ lead m e then (if neg then .fin false 1 (-1024) else .fin false 1 1024)
  else
    let x := fixed80 neg m e
    let n := x / 2 ^ 80
    let f := (x % 2 ^ 80).toNat
    .fin false (exp2Frac f) (n - 120)

/-- exp2 with an error of some ulps (R165, R116). -/
def exp2Within (code bound : Nat) (x : BitVec 32) : R32 :=
  match dec32 x with
  | .nan => ⟨nan32, 0, 0⟩
  | .inf neg => if neg then ⟨0, 0, 0⟩ else ⟨inf32 false, 0, 0⟩
  | .fin neg m e => nearUlps code x bound (exp2Val neg m e)

/-- Code 0: exp2, 2 ulps. -/
def sfuExp2 (x : BitVec 32) : R32 := exp2Within 0 2 x

/-- The fraction bits of log2 of a mantissa y in [1, 2) given times 2^120: repeated squaring, in units of 2^−80. -/
def log2Frac (y : Nat) : Nat :=
  ((List.range 80).foldl (fun (a : Nat × Nat) _ =>
    let q := a.1 * a.1 / 2 ^ 120
    if 2 * 2 ^ 120 ≤ q then (q / 2, 2 * a.2 + 1) else (q, 2 * a.2)) (y, 0)).2

/-- Code 1: log2, 2 ulps, and 2^−22 absolute for x in [0.5, 2). -/
def sfuLog2 (x : BitVec 32) : R32 :=
  match dec32 x with
  | .nan => ⟨nan32, 0, 0⟩
  | .inf neg => if neg then ⟨nan32, flInvalid, 3⟩ else ⟨inf32 false, 0, 0⟩
  | .fin neg m e =>
    if m = 0 then ⟨inf32 true, 0, 0⟩
    else if neg then ⟨nan32, flInvalid, 3⟩
    else
      let k := lead m e
      let l : Int := k * 2 ^ 80 + log2Frac (m * 2 ^ 120 / 2 ^ Nat.log2 m)
      let v : Val := .fin (l < 0) l.natAbs (-80)
      if k = 0 || k = -1 then nearAbs 1 x 22 v else nearUlps 1 x 2 v

/-- Code 2: the reciprocal, 1 ulp. -/
def sfuRecip (x : BitVec 32) : R32 :=
  match dec32 x with
  | .fin neg m _ =>
    if m = 0 then ⟨inf32 neg, 0, 0⟩
    else
      let r := div32 one32 x
      if isInf32 r.v then r else { r with v := freeNear 2 x r.v 1 (ulp32 r.v) }
  | .inf neg => ⟨BitVec.ofNat 32 (fSign fW32 neg 0), 0, 0⟩
  | .nan => ⟨nan32, 0, 0⟩

/-- Code 3: the reciprocal square root, 1 ulp. -/
def sfuRsqrt (x : BitVec 32) : R32 :=
  match dec32 x with
  | .nan => ⟨nan32, 0, 0⟩
  | .inf neg => if neg then ⟨nan32, flInvalid, 3⟩ else ⟨0, 0, 0⟩
  | .fin neg m e =>
    if m = 0 then ⟨inf32 neg, 0, 0⟩
    else if neg then ⟨nan32, flInvalid, 3⟩
    else
      let m' := if e % 2 = 0 then m else 2 * m
      let e' := if e % 2 = 0 then e else e - 1
      let n := Nat.sqrt (2 ^ 240 / m')
      let v : Val := if n * n * m' = 2 ^ 240 then .fin false n (-120 - e' / 2) else .fin false (2 * n + 1) (-121 - e' / 2)
      nearUlps 3 x 1 v

/-- π times 2^100, rounded down. -/
def piFix : Nat := 3982441812995697363688351113952

/-- sin of an angle a in [0, π/2] given times 2^100, times 2^100: its Taylor series. -/
def sinFix (a : Nat) : Nat :=
  let a2 := a * a / 2 ^ 100
  let t := (List.range 16).foldl (fun (x : Int × Nat) k =>
    let t : Nat := x.2 * a2 / 2 ^ 100 / ((2 * k + 2) * (2 * k + 3))
    (if k % 2 = 0 then x.1 - (t : Int) else x.1 + (t : Int), t)) ((a : Int), a)
  t.1.toNat

/-- sin(π t / 2^80) for t in [0, 2^81), as a value. -/
def sinTurn (t : Nat) : Val :=
  let neg := 2 ^ 80 ≤ t
  let u := t % 2 ^ 80
  let w := if 2 ^ 79 < u then 2 ^ 80 - u else u
  .fin neg (sinFix (piFix * w / 2 ^ 80)) (-100)

/-- Whether m × 2^e is an integer. -/
def isInt (m : Nat) (e : Int) : Bool := 0 ≤ e || m % 2 ^ (-e).toNat = 0
/-- The integer m × 2^e, where it is one, modulo 4. -/
def intMod4 (m : Nat) (e : Int) : Nat := if 0 ≤ e then m * 2 ^ (min e 2).toNat % 4 else m / 2 ^ (-e).toNat % 4

/-- Code 4: sin(π x), 2^−21 absolute. -/
def sfuSin (x : BitVec 32) : R32 :=
  match dec32 x with
  | .nan => ⟨nan32, 0, 0⟩
  | .inf _ => ⟨nan32, flInvalid, 2⟩
  | .fin neg m e =>
    if isInt m e then ⟨if neg then negZero32 else 0, 0, 0⟩
    else if isInt m (e + 1) then
      let up := intMod4 m (e + 1) = 1
      ⟨if up != neg then one32 else one32 ||| 0x80000000, 0, 0⟩
    else nearAbs 4 x 21 (sinTurn ((fixed80 neg m e) % 2 ^ 81).toNat)

/-- Code 5: cos(π x), 2^−21 absolute. -/
def sfuCos (x : BitVec 32) : R32 :=
  match dec32 x with
  | .nan => ⟨nan32, 0, 0⟩
  | .inf _ => ⟨nan32, flInvalid, 2⟩
  | .fin neg m e =>
    if isInt m e then ⟨if intMod4 m e % 2 = 0 then one32 else one32 ||| 0x80000000, 0, 0⟩
    else if isInt m (e + 1) then ⟨0, 0, 0⟩
    else nearAbs 5 x 21 (sinTurn ((fixed80 neg m e + 2 ^ 79) % 2 ^ 81).toNat)

/-- The special function of a code; none for a reserved code (R165). -/
def sfuFn (code : Nat) : Option (BitVec 32 → R32) :=
  match code with
  | 0 => some sfuExp2
  | 1 => some sfuLog2
  | 2 => some sfuRecip
  | 3 => some sfuRsqrt
  | 4 => some sfuSin
  | 5 => some sfuCos
  | _ => none

/-! ### The conversion stage's functions (R116) -/

/-- m × 2^k, rounded down. -/
def shiftNat (m : Nat) (k : Int) : Nat := if 0 ≤ k then m * 2 ^ k.toNat else m / 2 ^ (-k).toNat

/-- x / (1 + 2^(t / 2^80)) of a finite x, as a value. -/
def logistic (neg : Bool) (m : Nat) (e t : Int) : Val :=
  let n := max (-4096) (min 4096 (t / 2 ^ 80))
  let f := exp2Frac (t % 2 ^ 80).toNat
  let d := if 120 ≤ n then 1 + f * 2 ^ (n - 120).toNat else 2 ^ (120 - n).toNat + f
  let de : Int := if 120 ≤ n then 0 else n - 120
  let sh := 128 + Nat.log2 d
  if m = 0 then .fin neg 0 e else .fin neg (2 * (m * 2 ^ sh / d) + 1) (e - sh - 1 - de)

/-- −1.442695041 × x in units of 2^−80, for the SiLU of R116; beyond ±2^10 its size does not matter. -/
def siluArg (neg : Bool) (m : Nat) (e : Int) : Int :=
  let a : Int := if 10 ≤ lead m e then 2 ^ 92 else ((shiftNat m (e + 160) * 1442695041 / (10 ^ 9 * 2 ^ 80) : Nat) : Int)
  if neg then a else -a

/-- log2 of e, times 10^50. -/
def log2eFix : Nat := 144269504088896340735992468100189213742664595415299

/-- −2 log2(e) × 0.797884561 × (x + 0.044715 x³) in units of 2^−80: with it the GELU of R116 is x / (1 + 2^t), since
1 + tanh u = 2 / (1 + e^(−2u)). -/
def geluArg (neg : Bool) (m : Nat) (e : Int) : Int :=
  let a : Int := if 10 ≤ lead m e then 2 ^ 92 else
    (((shiftNat m (e + 160) * 10 ^ 6 + 44715 * shiftNat (m * m * m) (3 * e + 160)) * (2 * 797884561 * log2eFix) / (10 ^ 65 * 2 ^ 80) : Nat) : Int)
  if neg then a else -a

/-- A function of codes 2 and 3: its limits at an infinite x, which sets INF_IN (R116); else within 5 ulps of the formula's value, the
bounds of exp2 and of the reciprocal (R165) and the 2 ulps of R116 taken together (log 9). -/
def convAct (code : Nat) (arg : Bool → Nat → Int → Int) (x : BitVec 32) : R32 :=
  match dec32 x with
  | .nan => ⟨nan32, 0, 0⟩
  | .inf neg => ⟨if neg then negZero32 else inf32 false, flInfIn, 0⟩
  | .fin neg m e => if m = 0 then ⟨x, 0, 0⟩ else nearUlps code x 5 (logistic neg m e (arg neg m e))

/-- The conversion stage's functions 0 to 4 before the clamp (R116); none for a reserved code. -/
def convFn (code : Nat) : Option (BitVec 32 → R32) :=
  match code with
  | 0 => some (fun x => ⟨x, 0, 0⟩)
  | 1 => some (fun x => ⟨x, 0, 0⟩)
  | 2 => some (convAct 7 geluArg)
  | 3 => some (convAct 8 siluArg)
  | 4 => some (exp2Within 6 4)
  | _ => none

end Sys2Proof.Machine
end

