-- ==== Sys2Proof/Machine/Convert.lean ====
section
/-! DEFINITION. The conversion stage CVT and its statistics slots (R111 to R120, R159, R160), STAT_RD (R166), and how a row of results is encoded into a tile (R162). -/

namespace Sys2Proof.Machine

/-- Element codes and scale bytes to write, by column and block, with flags and vanished elements. -/
structure RowOut where
  es  : List (Nat × Nat) := []
  scs : List (Nat × Nat) := []
  fl  : BitVec 5 := 0
  van : Nat := 0
  deriving DecidableEq, Repr

/-- Encode the selected elements of a row; a block format encodes whole each block that holds a selected element (R52, R54, R162). -/
def encodeSel (fmt blk : Nat) (rnd : Nat → Rounding) (vals : List (BitVec 32)) (sel : Nat → Bool) : RowOut :=
  if isBlock fmt then
    (numbered (chunks (blkSize blk) (numbered vals))).foldl (fun o b =>
      if b.2.any (fun x => sel x.1) then
        let e := encodeBlock fmt rnd b.2
        { es := o.es ++ (b.2.map (·.1)).zip e.codes, scs := o.scs ++ e.scales.map (fun s => (b.1, s)), fl := o.fl ||| e.fl, van := o.van + e.vanish }
      else o) {}
  else
    ((numbered vals).filter (fun x => sel x.1)).foldl (fun o x =>
      let c := fConvert (fmtF fmt) (rnd x.1) (dec32 x.2)
      { es := o.es ++ [(x.1, c.1)], scs := [], fl := o.fl ||| c.2, van := o.van + (if c.2 &&& flVanish ≠ 0 then 1 else 0) }) {}

/-- Write an encoded row: whole where every element is there, else the elements and scales listed (R162, R229). -/
def writeOut (s : State) (pl : Place) (t : Td) (r : Nat) (o : RowOut) (tg : Tag) : RowRes :=
  if o.es.length = tCols t then writeRow s pl t r (o.es.map (·.2)) (o.scs.map (·.2)) tg
  else if o.es = [] then .ok s
  else writePart s pl t r o.es o.scs tg

/-- Take a written row into the accumulator with its flags. -/
def Acc.wrote (a : Acc) (o : RowOut) (r : RowRes) : Acc := (a.note o.fl o.van).took r

/-- The rounding of a glade's destination tile at its present counter (R54, R57). -/
def roundAt (s : State) (gi : Nat) (t : Td) (r : Nat) : Nat → Rounding :=
  let g := gladeOf s gi
  let seed := match findCmd s g.cmd with | some c => opB c 8 8 64 | none => Config.stepSeed (jobOf s).boundary
  tRound t gi g.rcnt seed r

/-! ### Statistics slots (R118 to R120) -/

def statOf (g : Glade) (k : Nat) : Stat := tget {} g.stats k
def setStat (g : Glade) (k : Nat) (v : Stat) : Glade := { g with stats := tset {} g.stats k v }

/-- amax after some written elements: the largest |x|, NaN not recorded (R119). -/
def amaxOf (old : BitVec 32) (xs : List (BitVec 32)) : BitVec 32 :=
  xs.foldl (fun m x => if isNan32 x then m else if m.toNat < (abs32 x).toNat then abs32 x else m) old

/-! ### CVT -/

/-- CVT's parameters (R159, R160). -/
structure CvtOp where
  fn    : BitVec 32 → R32
  clamp : Bool
  lo    : BitVec 32
  hi    : BitVec 32
  res   : Option Td
  pair  : Bool
  block : Bytes
  btag  : Tag
  slot  : Option Nat

/-- A parameter block's per-column word, and the column mask (R160). -/
def CvtOp.scale (o : CvtOp) (c : Nat) : BitVec 32 := fieldBv o.block (4 * c) 4 32
def CvtOp.bias (o : CvtOp) (c : Nat) : BitVec 32 := fieldBv o.block (1024 + 4 * c) 4 32
def maskBit (b : Bytes) (c : Nat) : Bool := (b.getD (2048 + c / 8) 0).getLsbD (c % 8)

/-- Steps 0 to 5 of R113 for one element: the accumulator value, or s and e of a pair row, and the residual. The flags include INF_IN
of every value read (R67, R111). -/
def convElem (o : CvtOp) (c : Nat) (x : BitVec 32) (e : Option (BitVec 32)) (res : Option (BitVec 32)) : R32 :=
  let reads := [x, o.scale c, o.bias c] ++ e.toList ++ res.toList ++ (if o.clamp then [o.lo, o.hi] else [])
  let inf := reads.foldl (fun f v => f ||| infIn v) 0
  let r0 := match e with | some v => add32 x v | none => ⟨x, 0, 0⟩
  let r1 := r0.andThen (fun v => mul32 v (o.scale c))
  let r2 := r1.andThen (fun v => add32 v (o.bias c))
  let r3 := match res with | some w => r2.andThen (fun v => add32 v w) | none => r2
  let r4 := r3.andThen o.fn
  let r5 := if o.clamp then r4.andThen (fun v => ⟨min32 (max32 v o.lo) o.hi, 0, 0⟩) else r4
  { r5 with fl := r5.fl ||| inf }

/-- One row of a CVT (R113, R114, R119): nothing is written unless every tag joins. A row dropped at a frozen segment has been converted,
so its statistics slot is updated all the same (R53, R509, log 69). -/
def convRow (pl : Place) (o : CvtOp) (a b : Td) (r : Nat) (x : Acc) : Acc :=
  let g := gladeOf x.s pl.gi
  let w := firstRow a o.pair + r
  let rows := if o.pair then [2 * w, 2 * w + 1] else [w]
  let acc := (rowVal g (rows.getD 0 0)).take (tCols a)
  let err := (rowVal g (2 * w + 1)).take (tCols a)
  let res : Except Byte (Option (List (BitVec 32)) × Tag) := match o.res with
    | none => .ok (none, tagPublic)
    | some t => match readRow x.s pl t r with
      | .error e => .error e
      | .ok y => .ok (some (rowVals t y), y.tag)
  match res with
  | .error e => x.fail e
  | .ok (rv, rt) =>
    if poisonedRows g rows then x.fail stDevice else
    match joinAll (rt :: o.btag :: rows.map (rowTag g)) with
    | none => x.fail stOwnerMix
    | some tg =>
      let keep := maskBit o.block
      let rs := (List.range (tCols a)).map (fun c =>
        if keep c then convElem o c (acc.getD c 0) (if o.pair then some (err.getD c 0) else none) (rv.map (fun l => l.getD c 0))
        else ⟨0, 0, 0⟩)
      let ev := (numbered rs).findSome? (fun c => if c.2.cause = 0 then none else some (⟨c.2.cause, rows.getD 0 0, c.1, 0xFFFF, tg⟩ : LogEv))
      let out := encodeSel (tFmt b) b.blk.toNat (roundAt x.s pl.gi b r) (rs.map (·.v)) keep
      let fl := rs.foldl (fun f v => f ||| v.fl) 0
      let kept := ((numbered rs).filter (fun c => keep c.1)).map (·.2.v)
      let st := o.slot.map (statOf g)
      match st with
      | none => ((x.note fl 0).event ev).wrote out (writeOut x.s pl b r out tg)
      | some q => match join q.tag tg with
        | none => x.fail stOwnerMix
        | some u =>
          match writeOut x.s pl b r out tg with
          | .err e => ((x.note fl 0).event ev).wrote out (.err e)
          | w =>
            let s1 := match w with | .ok s1 => s1 | _ => x.s
            let g1 := gladeOf s1 pl.gi
            let q1 : Stat := { amax := amaxOf q.amax kept, vanish := satAdd q.vanish out.van, tag := u }
            let y := ((x.note fl 0).event ev).wrote out w
            { y with s := setGlade s1 pl.gi (setStat g1 (o.slot.getD 0) q1) }

/-- The mask is constant within each output block (R112); its bits at columns beyond the tile's COLS count for nothing (log 69). -/
def maskWhole (b : Bytes) (t : Td) : Bool :=
  !isBlock (tFmt t) || (chunks (tBlk t) (List.range (tCols t))).all (fun l => l.all (maskBit b) || l.all (fun c => !maskBit b c))

/-- CVT converts every row of window tile tdA into tdB (R111 to R119, R159, R160). -/
def execCvt (i : GI) (s : State) : Host.Outcome State Fault Refusal :=
  .next (issue 0x33 i { ta := true, tb := true, tc := true, sa := true, flags := 0x7F, imm := allImm, only := some .xe, steps := true } (fun s =>
    let e := curEng s i
    let a := tdGet e i.ta.toNat
    let b := tdGet e i.tb.toNat
    let c := tdGet e i.tc.toNat
    let pl := placeOf s i.glade.val
    let g := gladeOf s i.glade.val
    let pair := i.flags.getLsbD 6
    let named := i.flags.getLsbD 5
    let off := (sGet e i.sa.toNat).toNat
    match convFn (i.flags.toNat % 16) with
    | none => .fault stProgram s
    | some fn =>
      if !passTile pl a pair || !tdDst pl b || (tWindow b && tCol0 b ≠ 0) || tFmt b = fmtF8 || tRows a ≠ tRows b || tCols a ≠ tCols b ||
         (named && (!tdOk pl c || tFmt c ≠ fmtW24 || tRows a ≠ tRows c || tCols a ≠ tCols c)) ||
         off % 256 ≠ 0 || !inScratch pl.j off 2304 || !modesOk g pair (firstRow a pair) (tRows a) then .fault stProgram s
      else match spanRead s pl 0 off 2304 with
        | .error er => .fault er s
        | .ok (blk, bt) =>
          if flagAt blk 2080 6 || !zeroAt blk 2081 223 || !maskWhole blk b then .fault stProgram s
          else
            let slot := if flagAt blk 2080 7 then none else some ((blk.getD 2080 0).toNat % 64)
            let o : CvtOp := ⟨fn, i.flags.toNat % 16 ≠ 0, i.imm.extractLsb' 0 32, i.imm.extractLsb' 32 32,
              if named then some c else none, pair, blk, bt, slot⟩
            let s1 := match slot with
              | some k => if i.flags.getLsbD 4 && e.progress = 0 then setGlade s i.glade.val (setStat g k {}) else s
              | none => s
            closeAcc i (tStoch b) (runRows (convRow pl o a b) (tRows a) (startAcc i s1))) s)

/-- STAT_RD writes a statistics slot into row 0 of tdA with the slot's tag (R166). -/
def execStatRd (i : GI) (s : State) : Host.Outcome State Fault Refusal :=
  .next (issue 0x37 i { ta := true, imm := 63, only := some .xe } (fun s =>
    let t := tdGet (curEng s i) i.ta.toNat
    let pl := placeOf s i.glade.val
    if !tdDst pl t || tFmt t ≠ fmtW32 || tCols t < 2 then .fault stProgram s
    else
      let q := statOf (gladeOf s i.glade.val) (i.imm.toNat % 64)
      let codes := [q.amax.toNat, q.vanish.toNat] ++ List.replicate (tCols t - 2) 0
      closeAcc i false ({ s := s : Acc }.took (writeRow s pl t 0 codes [] q.tag))) s)

end Sys2Proof.Machine
end

