-- ==== Sys2Proof/Machine/Vector.lean ====
section
/-! DEFINITION. The vector and special-function instructions VOP, SEL and SFU (R161 to R165, R576). -/

namespace Sys2Proof.Machine

/-- A tile the vector unit reads or writes: every format but F8, which only the update engine handles (R116, R162, log 36). -/
def vecSrc (pl : Place) (t : Td) : Bool := tdOk pl t && tFmt t ≠ fmtF8
def vecDst (pl : Place) (t : Td) : Bool := tdDst pl t && tFmt t ≠ fmtF8

/-- Truth as a W32 code: 1.0 or +0. -/
def truth32 (b : Bool) : R32 := ⟨if b then one32 else 0, 0, 0⟩

/-- The elementwise operations of VOP on a, b and the existing element; none for a reserved code (R161). -/
def vopFn (op : Nat) : Option (BitVec 32 → BitVec 32 → BitVec 32 → R32) :=
  match op with
  | 0 => some (fun a b _ => add32 a b)
  | 1 => some (fun a b _ => sub32 a b)
  | 2 => some (fun a b _ => mul32 a b)
  | 3 => some (fun a b d => fma32 a b d)
  | 4 => some (fun a b _ => ⟨min32 a b, 0, 0⟩)
  | 5 => some (fun a b _ => ⟨max32 a b, 0, 0⟩)
  | 6 => some (fun a _ _ => ⟨abs32 a, 0, 0⟩)
  | 7 => some (fun a _ _ => ⟨neg32 a, 0, 0⟩)
  | 8 => some (fun a b _ => truth32 (eq32 a b))
  | 9 => some (fun a b _ => truth32 (lt32 a b))
  | 10 => some (fun a b _ => truth32 (lt32 a b || eq32 a b))
  | 11 => some (fun a _ _ => ⟨a, 0, 0⟩)
  | _ => none

/-- Whether an elementwise operation takes b (R161). -/
def vopUsesB (op : Nat) : Bool := op ≤ 5 || (8 ≤ op && op ≤ 10)

/-- One level of a row reduction's tree: neighbours combined (R163). -/
def treeLevel (f : BitVec 32 → BitVec 32 → R32) : List R32 → List R32
  | x :: y :: r =>
    let q := f x.v y.v
    ⟨q.v, x.fl ||| y.fl ||| q.fl, if x.cause ≠ 0 then x.cause else if y.cause ≠ 0 then y.cause else q.cause⟩ :: treeLevel f r
  | l => l

/-- Reduce the 256 lanes of a chunk in eight levels, lanes beyond the tile holding the identity (R163). -/
def treeReduce (f : BitVec 32 → BitVec 32 → R32) (ident : BitVec 32) (l : List (BitVec 32)) : R32 :=
  let lanes := (l ++ List.replicate (256 - l.length) ident).map (fun v => (⟨v, 0, 0⟩ : R32))
  ((List.range 8).foldl (fun xs _ => treeLevel f xs) lanes).headD ⟨ident, 0, 0⟩

/-- A row reduction: each chunk's tree, then the chunks in ascending column order (R163). -/
def rowReduce (f : BitVec 32 → BitVec 32 → R32) (ident : BitVec 32) (l : List (BitVec 32)) : R32 :=
  match (chunks 256 l).map (treeReduce f ident) with
  | [] => ⟨ident, 0, 0⟩
  | x :: r => r.foldl (fun a q => a.andThen (fun v => let z := f v q.v; ⟨z.v, q.fl ||| z.fl, if q.cause ≠ 0 then q.cause else z.cause⟩)) x

/-- The row reductions of VOP; none for a reserved code (R161). -/
def reduceFn (op : Nat) : Option (List (BitVec 32) → R32) :=
  let pure2 := fun (f : BitVec 32 → BitVec 32 → BitVec 32) a b => (⟨f a b, 0, 0⟩ : R32)
  match op with
  | 0 => some (rowReduce add32 negZero32)
  | 1 => some (rowReduce (pure2 max32) (inf32 true))
  | 2 => some (rowReduce (pure2 min32) (inf32 false))
  | 3 => some (fun l => rowReduce (pure2 max32) 0 (l.map abs32))
  | _ => none

/-- The first event of a row's results. -/
def rowEvent (r : Nat) (tg : Tag) (rs : List R32) : Option LogEv :=
  (numbered rs).findSome? (fun c => if c.2.cause = 0 then none else some (⟨c.2.cause, r, c.1 % 256, 0xFFFF, tg⟩ : LogEv))

/-- Write a row of vector results, the selected columns only: a block format reads the present row where only a part of a block is
selected, and its tag joins (R162). -/
def vecWrite (pl : Place) (t : Td) (r : Nat) (vals : List (BitVec 32)) (sel : Nat → Bool) (tg : Tag) (x : Acc) : Acc :=
  let whole := (List.range (tCols t)).all sel
  if whole || !isBlock (tFmt t) then
    let o := encodeSel (tFmt t) t.blk.toNat (roundAt x.s pl.gi t r) vals sel
    x.wrote o (writeOut x.s pl t r o tg)
  else match readRow x.s pl t r with
    | .error e => x.fail e
    | .ok old => match join tg old.tag with
      | none => x.fail stOwnerMix
      | some u =>
        let mix := (numbered ((rowVals t old).zip vals)).map (fun c => if sel c.1 then c.2.2 else c.2.1)
        let o := encodeSel (tFmt t) t.blk.toNat (roundAt x.s pl.gi t r) mix sel
        (x.note (rowInf t old) 0).wrote o (writeOut x.s pl t r o u)

/-- Where operand b comes from (R161). -/
inductive BSrc where
  | none
  | tile (t : Td)
  | scalar (v : BitVec 32)
  | bcast (t : Td)
  deriving DecidableEq, Repr

/-- A row of operand b: values, INF_IN and tag. -/
def bRow (s : State) (pl : Place) (b : BSrc) (r n : Nat) : Except Byte (List (BitVec 32) × BitVec 5 × Tag) :=
  match b with
  | .none => .ok (List.replicate n 0, 0, tagPublic)
  | .scalar v => .ok (List.replicate n v, infIn v, tagPublic)
  | .tile t => match readRow s pl t r with
    | .error e => .error e
    | .ok y => .ok (rowVals t y, rowInf t y, y.tag)
  | .bcast t => match readRow s pl t r with
    | .error e => .error e
    | .ok y =>
      let inf := match rowElems t y with | [] => 0 | x :: _ => elemInf (tFmt t) x.2.1 x.2.2
      .ok (List.replicate n ((rowVals t y).getD 0 0), inf, y.tag)

/-- One row of an elementwise VOP. -/
def vopRow (pl : Place) (f : BitVec 32 → BitVec 32 → BitVec 32 → R32) (fma : Bool) (dst a : Td) (b : BSrc) (r : Nat) (x : Acc) : Acc :=
  match readRow x.s pl a r, bRow x.s pl b r (tCols a), (if fma then bRow x.s pl (.tile dst) r (tCols a) else bRow x.s pl .none r (tCols a)) with
  | .ok ra, .ok rb, .ok rd =>
    match joinAll [ra.tag, rb.2.2, rd.2.2] with
    | none => x.fail stOwnerMix
    | some tg =>
      let rs := ((rowVals a ra).zip (rb.1.zip rd.1)).map (fun v => f v.1 v.2.1 v.2.2)
      let fl := rs.foldl (fun q v => q ||| v.fl) (rowInf a ra ||| rb.2.1 ||| rd.2.1)
      vecWrite pl dst r (rs.map (·.v)) (fun _ => true) tg ((x.note fl 0).event (rowEvent r tg rs))
  | .error e, _, _ => x.fail e
  | _, .error e, _ => x.fail e
  | _, _, .error e => x.fail e

/-- One row of a row reduction, into column 0 (R161, R163). -/
def reduceRow (pl : Place) (f : List (BitVec 32) → R32) (dst a : Td) (r : Nat) (x : Acc) : Acc :=
  match readRow x.s pl a r with
  | .error e => x.fail e
  | .ok ra =>
    let q := f (rowVals a ra)
    vecWrite pl dst r (q.v :: List.replicate (tCols dst - 1) 0) (fun c => c = 0) ra.tag
      ((x.note (rowInf a ra ||| q.fl) 0).event (rowEvent r ra.tag [q]))

/-- VOP applies an elementwise operation or a row reduction (R161 to R163, R576). -/
def execVop (i : GI) (s : State) : Host.Outcome State Fault Refusal :=
  .next (issue 0x34 i { ta := true, tb := true, tc := true, sb := true, flags := 0x7F, only := some .xe, steps := true } (fun s =>
    let e := curEng s i
    let a := tdGet e i.ta.toNat
    let b := tdGet e i.tb.toNat
    let c := tdGet e i.tc.toNat
    let pl := placeOf s i.glade.val
    let op := i.flags.toNat % 16
    if (i.flags.getLsbD 5 && i.flags.getLsbD 6) || !vecDst pl a || !vecSrc pl b || tRows a ≠ tRows b then .fault stProgram s
    else if i.flags.getLsbD 4 then
      match reduceFn op with
      | none => .fault stProgram s
      | some f => closeAcc i (tStoch a) (runRows (reduceRow pl f a b) (tRows a) (startAcc i s))
    else
      match vopFn op with
      | none => .fault stProgram s
      | some f =>
        let src : BSrc := if !vopUsesB op then .none else if i.flags.getLsbD 5 then .scalar ((sGet e i.sb.toNat).setWidth 32)
          else if i.flags.getLsbD 6 then .bcast c else .tile c
        let ok := match src with
          | .tile t => vecSrc pl t && tRows t = tRows a && tCols t = tCols a
          | .bcast t => vecSrc pl t && tRows t = tRows a
          | _ => true
        if tCols a ≠ tCols b || !ok then .fault stProgram s
        else closeAcc i (tStoch a) (runRows (vopRow pl f (op = 3) a b src) (tRows a) (startAcc i s))) s)

/-- Give every line of a row a tag that joins its own, where the row may be written: SEL's row takes the join of its three rows even in
lines that keep their elements (R164, log 71). -/
def retagRow (s : State) (pl : Place) (t : Td) (r : Nat) (tg : Tag) : State :=
  let one := fun (s : State) (space a n : Nat) =>
    if space = 0 then
      setGlade s pl.gi ((unitsOf a n).foldl (fun g u => gSetTag g u.1 ((join (gTag g u.1) tg).getD tg)) (gladeOf s pl.gi))
    else if space = 1 then
      (pieces a (zeros n)).foldl (fun s p => match writeCheck s pl.j pl.eval p.1 1 tg with
        | .ok (some u) => if isCanopy p.1 then setTag s (lineOf p.1) u else s
        | _ => s) s
    else s
  let s1 := one s (tSpace t) (rowAddr t r) (rowBytes t)
  if isBlock (tFmt t) then one s1 t.sspace.toNat (scaleAddr t r) (nBlocks t) else s1

/-- One row of SEL (R164). -/
def selRow (pl : Place) (a b c : Td) (r : Nat) (x : Acc) : Acc :=
  match readRow x.s pl a r, readRow x.s pl b r, readRow x.s pl c r with
  | .ok ra, .ok rb, .ok rc =>
    match joinAll [ra.tag, rb.tag, rc.tag] with
    | none => x.fail stOwnerMix
    | some tg =>
      let cond := (rowVals b rb).map (fun v => !isZero32 v && !isNan32 v)
      let y := vecWrite pl a r (rowVals c rc) (fun k => cond.getD k false) tg (x.note (rowInf a ra ||| rowInf b rb ||| rowInf c rc) 0)
      if y.err ≠ 0 then y else { y with s := retagRow y.s pl a r tg }
  | .error e, _, _ => x.fail e
  | _, .error e, _ => x.fail e
  | _, _, .error e => x.fail e

/-- SEL writes tdC where tdB is not zero and not NaN, else keeps tdA (R164, R576). -/
def execSel (i : GI) (s : State) : Host.Outcome State Fault Refusal :=
  .next (issue 0x35 i { ta := true, tb := true, tc := true, only := some .xe, steps := true } (fun s =>
    let e := curEng s i
    let a := tdGet e i.ta.toNat
    let b := tdGet e i.tb.toNat
    let c := tdGet e i.tc.toNat
    let pl := placeOf s i.glade.val
    if !vecDst pl a || !vecSrc pl b || !vecSrc pl c || tRows a ≠ tRows b || tRows a ≠ tRows c || tCols a ≠ tCols b || tCols a ≠ tCols c then
      .fault stProgram s
    else closeAcc i (tStoch a) (runRows (selRow pl a b c) (tRows a) (startAcc i s))) s)

/-- SFU computes a special function of tdB into tdA (R165, R576). -/
def execSfu (i : GI) (s : State) : Host.Outcome State Fault Refusal :=
  .next (issue 0x36 i { ta := true, tb := true, flags := 7, only := some .xe, steps := true } (fun s =>
    let e := curEng s i
    let a := tdGet e i.ta.toNat
    let b := tdGet e i.tb.toNat
    let pl := placeOf s i.glade.val
    match sfuFn (i.flags.toNat % 8) with
    | none => .fault stProgram s
    | some f =>
      if !vecDst pl a || !vecSrc pl b || tRows a ≠ tRows b || tCols a ≠ tCols b then .fault stProgram s
      else closeAcc i (tStoch a) (runRows (vopRow pl (fun v _ _ => f v) false a b .none) (tRows a) (startAcc i s))) s)

end Sys2Proof.Machine
end

