-- ==== Sys2Proof/Machine/Route.lean ====
section
/-! DEFINITION. Routing and reductions: ROUTE, ROUTE_F and RED (R167 to R178, R222 to R225). -/

namespace Sys2Proof.Machine

/-! ### Selection (R167 to R169) -/

/-- A candidate: identifier word and logit. -/
abbrev Cand := Nat × BitVec 32

/-- Expert identifier words (R153). -/
def baseWord (gen e : Nat) : Nat := e + gen * 2 ^ 17
def privWord (slot : Nat) : Nat := slot + 2 ^ 16
def dropBit : Nat := 2 ^ 18
def noneWord (gen : Nat) : Nat := gen * 2 ^ 17 + 2 ^ 19
def noPos : Nat := 0xFFFFFFFF

/-- `a` ranks before `b`: a NaN below every other, a higher logit first, equal logits by ascending identifier (R168). -/
def ranksBefore (a b : Cand) : Bool :=
  if isNan32 a.2 then isNan32 b.2 && a.1 < b.1
  else if isNan32 b.2 then true
  else if lt32 b.2 a.2 then true
  else if lt32 a.2 b.2 then false
  else a.1 < b.1

/-- Insert a candidate at its rank. -/
def insertCand (c : Cand) : List Cand → List Cand
  | [] => [c]
  | d :: r => if ranksBefore c d then c :: d :: r else d :: insertCand c r

/-- The K highest candidates in rank order. -/
def selectK (k : Nat) (cs : List Cand) : List Cand := (cs.foldl (fun l c => insertCand c l) []).take k

/-- Insert by ascending identifier. -/
def insertId (c : Cand) : List Cand → List Cand
  | [] => [c]
  | d :: r => if c.1 < d.1 then c :: d :: r else d :: insertId c r

/-- 1.442695041 rounded to W32 (R169). -/
def log2e32 : BitVec 32 := (div32 (ofNat32 1442695041) (ofNat32 1000000000)).v

/-- The largest logit of a set that is not NaN; NaN where every one is (R169). -/
def lmax32 (cs : List Cand) : BitVec 32 :=
  cs.foldl (fun m c => if isNan32 c.2 then m else if isNan32 m then c.2 else if lt32 m c.2 then c.2 else m) nan32

/-- Flags and the first cause joined. -/
def joinR (a b : R32) : R32 := ⟨b.v, a.fl ||| b.fl, if a.cause ≠ 0 then a.cause else b.cause⟩

/-- The softmax of a set: each member's identifier and gate, and the flags raised (R169). -/
def softmax (cs : List Cand) : List (Nat × BitVec 32) × R32 :=
  let m := lmax32 cs
  let items := cs.foldl (fun l c => insertId c l) []
  let ex := items.map (fun c =>
    let d := sub32 c.2 m
    let q := joinR d (mul32 d.v log2e32)
    (c.1, joinR q (sfuExp2 q.v)))
  match ex with
  | [] => ([], ⟨0, 0, 0⟩)
  | x :: r =>
    let sum := r.foldl (fun a y => joinR (joinR a y.2) (add32 a.v y.2.v)) x.2
    let gs := ex.map (fun y => (y.1, div32 y.2.v sum.v))
    (gs.map (fun y => (y.1, y.2.v)), gs.foldl (fun a y => joinR a y.2) sum)

/-- The lane of a softmax's first INVALID event, which takes its candidates by ascending identifier (R73, R169): the logit's column in its
tile; the infinity minus infinity of a logit and the largest one is the only event a softmax has (log 35). -/
def softLane (eb : Nat) (cs set : List Cand) : Nat :=
  let m := lmax32 set
  match (set.foldl (fun l c => insertId c l) []).find? (fun c => (sub32 c.2 m).cause ≠ 0) with
  | none => 0
  | some c =>
    let k := cs.findIdx (fun d => d.1 = c.1)
    if k < eb then k else k - eb

/-- The selections of a row: identifier word and gate, K of them, NONE filling the rest (R168, R169). -/
def routeSelect (cs : List Cand) (k norm gen : Nat) : List (Nat × BitVec 32) × R32 :=
  let sel := selectK k cs
  let sm := if norm = 0 then softmax sel else if norm = 1 then softmax cs else ([], ⟨0, 0, 0⟩)
  let gate := fun (c : Cand) => if norm = 2 then c.2 else (sm.1.find? (fun g => g.1 = c.1)).elim 0 (·.2)
  (sel.map (fun c => (c.1, gate c)) ++ List.replicate (k - sel.length) (noneWord gen, 0), sm.2)

/-! ### Dispatch (R172 to R175) -/

/-- ROUTE's operands (R171, R172). -/
structure RouteOp where
  layer : Nat
  eb    : Nat
  k     : Nat
  norm  : Nat
  gen   : Nat
  nopriv : Bool
  row0  : Nat
  dir   : Nat
  dirn  : Nat
  idx   : Nat
  deriving DecidableEq, Repr

def routeOp (m : Nat) (dir dirn idx : Nat) : RouteOp :=
  ⟨bitsOf m 0 8, bitsOf m 8 8 + 1, bitsOf m 16 4 + 1, bitsOf m 20 2, bitsOf m 22 1, m.testBit 23, bitsOf m 40 24, dir, dirn, idx⟩

/-- The directory as it stands. -/
def dirEntries (s : State) (o : RouteOp) : List Group :=
  (List.range o.dirn).map (fun k => groupAt (rdBytes s.mem (o.dir + 16 * k) 16))

def sortedIds : List Group → Bool
  | x :: y :: r => (x.id % 2 ^ 18 < y.id % 2 ^ 18) && sortedIds (y :: r)
  | _ => true

/-- The entry a selection matches: in a sorted directory the one with its ID, in another any of them or none (R172, R173). -/
def matchEntry (s : State) (es : List Group) (id : Nat) : State × Option (Nat × Group) :=
  let ms := (numbered es).filter (fun e => e.2.id % 2 ^ 18 = id % 2 ^ 18)
  if sortedIds es then (s, ms.head?)
  else ({ s with free := s.free + 1 }, (ms.map some ++ [none]).getD (Config.choice s.free % (ms.length + 1)) none)

/-- What becomes of one selection: dropped, or given a position (R172). -/
structure Disp where
  a    : Acc
  word : Nat
  gate : BitVec 32
  pos  : Nat
  deriving DecidableEq, Repr

/-- Dispatch one selection (R172, R174): the entry's COUNT and the index entry, written with the tags of R174. -/
def dispatchOne (pl : Place) (o : RouteOp) (r n : Nat) (sel : Nat × BitVec 32) (x : Acc) : Disp :=
  if o.dir = 0 || sel.1.testBit 19 then ⟨x, sel.1, sel.2, noPos⟩
  else
    let m := matchEntry x.s (dirEntries x.s o) sel.1
    let x1 := { x with s := m.1 }
    match m.2 with
    | none => ⟨x1, sel.1 + dropBit, 0, noPos⟩
    | some (k, e) =>
      if e.first % 64 ≠ 0 || e.cap % 64 ≠ 0 then ⟨x1.fail stProgram, sel.1, sel.2, noPos⟩
      else if e.cap ≤ e.count then ⟨x1, sel.1 + dropBit, 0, noPos⟩
      else
        let p := (e.first + e.count) % 2 ^ 32
        let ia := o.idx + 4 * p
        let ca := o.dir + 16 * k + 4
        let itag := if idPriv sel.1 then tagTenant (slotOf pl.j (idIndex sel.1)).owner.toNat else tagBase (idGen sel.1)
        if !inManaged pl.j ia || !inManaged pl.j (ia + 3) then ⟨x1.fail stSegment, sel.1, sel.2, noPos⟩
        else
          let cb := natLe (e.count + 1) 4
          let ib := natLe ((o.row0 + r) % 2 ^ 24 + n * 2 ^ 24) 4
          match spanCheck x1.s pl 1 ca 4 (tagBase o.gen), spanCheck x1.s pl 1 ia 4 itag with
          | .ok true, .ok true => ⟨{ x1 with s := spanStore (spanStore x1.s pl 1 ca cb (tagBase o.gen)) pl 1 ia ib itag }, sel.1, sel.2, p⟩
          | .error q, _ => ⟨x1.fail q, sel.1, sel.2, noPos⟩
          | _, .error q => ⟨x1.fail q, sel.1, sel.2, noPos⟩
          | _, _ => ⟨{ x1 with frz := true }, sel.1, sel.2, p⟩

/-- Dispatch a row's selections in order. -/
def dispatchRow (pl : Place) (o : RouteOp) (r : Nat) (sels : List (Nat × BitVec 32)) (x : Acc) : Acc × List Disp :=
  (numbered sels).foldl (fun q sel =>
    if q.1.err ≠ 0 then q else let d := dispatchOne pl o r sel.1 sel.2 q.1; (d.a, q.2 ++ [d])) (x, [])

/-- The candidates of a row (R167): base experts, and the tenant's private experts in ascending slot order, at most as many as tdB has
columns and at most 16. -/
def routeCands (pl : Place) (acc : BitVec 64) (o : RouteOp) (bl pv : List (BitVec 32)) (tg : Tag) : List Cand :=
  let base := (List.range o.eb).map (fun e => (baseWord o.gen e, bl.getD e 0))
  if isTenant tg && !o.nopriv then
    base ++ (((readySlots pl.j acc tg.toNat o.layer).take 16).map (fun e => privWord e.1)).zip pv
  else base

/-- One row of ROUTE; the base experts dispatched to are collected (R167 to R172, R224). A row that faults is a step without effect: none
of its selections stays dispatched (R126, R182). -/
def routeRow (pl : Place) (o : RouteOp) (a b c : Td) (r : Nat) (x : Acc × List Nat × Bool) : Acc × List Nat × Bool :=
  match readRow x.1.s pl a r, readRow x.1.s pl b r with
  | .ok ra, .ok rb =>
    match join ra.tag rb.tag with
    | none => (x.1.fail stOwnerMix, x.2)
    | some tg =>
      let cs := routeCands pl (gladeOf x.1.s pl.gi).cmd o (rowVals a ra) (rowVals b rb) tg
      let sel := routeSelect cs o.k o.norm o.gen
      let x0 := (x.1.note (rowInf a ra ||| rowInf b rb ||| sel.2.fl) 0).event
        (if sel.2.cause = 0 then none else
          some (⟨sel.2.cause, r, softLane o.eb cs (if o.norm = 0 then selectK o.k cs else cs), 0xFFFF, tg⟩ : LogEv))
      let d := dispatchRow pl o r sel.1 x0
      if d.1.err ≠ 0 then (x0.fail d.1.err, x.2)
      else
        let codes := d.2.map (·.word) ++ d.2.map (fun y => y.gate.toNat) ++ d.2.map (·.pos)
        let nan := if d.2.any (fun y => isNan32 y.gate) then flNanOut else 0
        let hit := (d.2.filter (fun y => y.pos ≠ noPos && !idPriv y.word)).map (fun y => idIndex y.word)
        let y := (d.1.note nan 0).took (writeRow d.1.s pl c r codes [] tg)
        if y.err ≠ 0 then (x0.fail y.err, x.2)
        else (y, x.2.1 ++ hit.filter (fun e => !x.2.1.contains e), x.2.2 || d.2.any (fun y => y.word.testBit 18))
  | .error e, _ => (x.1.fail e, x.2)
  | _, .error e => (x.1.fail e, x.2)

/-- Address of a forecast record (R222). -/
def fcastAddr (j : Job) (gen layer : Nat) : Nat := j.fcast.toNat + 64 * (256 * gen + layer)

/-- Add 1 to a 64-bit counter of the forecast record (R224), the record's line keeping the tag of its generation (R225). -/
def fcastBump (s : State) (a gen : Nat) : State :=
  hubWrite s a (natLe ((leNat (rdBytes s.mem a 8) + 1) % 2 ^ 64) 8) (tagBase gen)

/-- Check the forecast once for each distinct base expert dispatched to (R224). -/
def fcastCheck (s : State) (j : Job) (acc : BitVec 64) (o : RouteOp) (es : List Nat) : State :=
  let a := fcastAddr j o.gen o.layer
  es.foldl (fun s e =>
    if leNat (rdBytes s.mem (a + 32) 8) ≠ acc.toNat then fcastBump s (a + 56) o.gen
    else if (rd1 s.mem (a + e / 8)).getLsbD (e % 8) then fcastBump s (a + 40) o.gen
    else fcastBump s (a + 48) o.gen) s

/-- One row of ROUTE or ROUTE_F as a step, with what it collects (R126): as `oneStep`. -/
def routeStep {α : Type} (f : Acc × α → Acc × α) (x : Acc × α) : Acc × α :=
  if x.1.err ≠ 0 || x.1.cut then x
  else if x.1.steps < x.1.skip then ({ x.1 with steps := x.1.steps + 1 }, x.2)
  else if x.1.quota = some x.1.steps then ({ x.1 with cut := true }, x.2)
  else
    let z := f x
    ({ z.1 with steps := if z.1.err ≠ 0 then x.1.steps else x.1.steps + 1, skip := x.1.skip, quota := x.1.quota, cut := false }, z.2)

/-- The experts that a cut ROUTE or ROUTE_F has met stay with its engine for the rest of its rows (R126, log 11). -/
def keepRouted (i : GI) (x : Acc) (es : List Nat) : State := if x.cut then setCur x.s i { curEng x.s i with routed := es } else x.s

/-- The experts met in the rows that are complete: none at an instruction's first step (R126). -/
def routedBefore (e : Eng) : List Nat := if e.progress = 0 then [] else e.routed

/-- ROUTE's writes would reach a step-counter table: its directory, the index entries of its groups, or the forecast record that it
updates; checked when it issues (R286). -/
def routeCounters (s : State) (j : Job) (o : RouteOp) : Bool :=
  o.dir ≠ 0 && ((o.dirn ≠ 0 && inCounters j o.dir (16 * o.dirn)) ||
    (dirEntries s o).any (fun e => e.cap ≠ 0 && inCounters j (o.idx + 4 * e.first) (4 * e.cap)) ||
    inCounters j (fcastAddr j o.gen o.layer) 64)

/-- Imm bits of ROUTE and ROUTE_F (R171, R176). -/
def routeImm : BitVec 64 := ~~~(0xFFFF000000 : BitVec 64)

/-- ROUTE masks, selects and dispatches (R167 to R175, R576). -/
def execRoute (i : GI) (s : State) : Host.Outcome State Fault Refusal :=
  .next (issue 0x38 i { ta := true, tb := true, tc := true, sa := true, sb := true, sc := true, imm := routeImm, only := some .xe, steps := true } (fun s =>
    let e := curEng s i
    let a := tdGet e i.ta.toNat
    let b := tdGet e i.tb.toNat
    let c := tdGet e i.tc.toNat
    let pl := placeOf s i.glade.val
    let o := routeOp i.imm.toNat (sGet e i.sa.toNat).toNat (sGet e i.sb.toNat).toNat (sGet e i.sc.toNat).toNat
    let acc := (gladeOf s i.glade.val).cmd
    if o.norm = 3 || !tdOk pl a || !tdOk pl b || !tdDst pl c || tFmt a ≠ fmtW32 || tFmt b ≠ fmtW32 || tFmt c ≠ fmtW32 ||
       tCols c ≠ 3 * o.k || tRows a ≠ tRows b || tRows a ≠ tRows c || tCols a < o.eb then .fault stProgram s
    else if o.dir ≠ 0 && o.dirn ≠ 0 && !rangeManaged pl.j o.dir (16 * o.dirn) then .fault stSegment s
    else match (if o.dir = 0 then .ok ([], tagPublic) else devRead s pl.j o.dir (16 * o.dirn)) with
      | .error q => .fault q s
      | .ok _ =>
        if routeCounters s pl.j o then .fault stSegment s
        else
          let y := (List.range (tRows a)).foldl (fun x r => routeStep (routeRow pl o a b c r) x) (startAcc i s, routedBefore e, false)
          let s0 := keepRouted i y.1 y.2.1
          let s1 := if !y.1.cut && o.dir ≠ 0 then fcastCheck s0 pl.j acc o y.2.1 else s0
          let s2 := if y.2.2 then updCmd s1 acc (fun d => { d with warn := true }) else s1
          closeAcc i false { y.1 with s := s2 }) s)

/-! ### ROUTE_F (R176, R223) -/

/-- Bytes of a bitmap with some bits set. -/
def bitmapOr (old : Bytes) (es : List Nat) : Bytes :=
  (numbered old).map (fun x => es.foldl (fun b e => if e / 8 = x.1 then b ||| ((1 : BitVec 8) <<< (e % 8)) else b) x.2)

/-- The lines of every projection of a base expert, as far as its tiles tell (log 10). -/
def expertLines (j : Job) (gen layer e : Nat) : List Nat :=
  let bg := baseOf j gen
  ((bg.table.filter (fun x => x.layer = layer && x.expert = e && x.proj ≤ 2)).flatMap (fun en =>
    let d := Config.projDims gen layer en.proj e
    (List.range d.1).flatMap (fun kt => (List.range d.2).flatMap (fun col =>
      let l := Config.projTile gen layer en.proj e false kt col
      let t := { projTd l (bg.nat.toNat + en.offset) 1 with rows := BitVec.ofNat 12 (l.getD 3 0 - 1), cols := BitVec.ofNat 12 (l.getD 2 0 - 1) }
      tileLines t))))

/-- ROUTE_F records the union of its selections in the forecast record and prefetches the experts' projections (R176, R222, R223). -/
def execRouteF (i : GI) (s : State) : Host.Outcome State Fault Refusal :=
  .next (issue 0x39 i { ta := true, imm := 0xFFFFFF, only := some .xe, steps := true } (fun s =>
    let a := tdGet (curEng s i) i.ta.toNat
    let pl := placeOf s i.glade.val
    let o := routeOp i.imm.toNat 0 0 0
    let acc := (gladeOf s i.glade.val).cmd
    if o.norm = 3 || !tdOk pl a || tFmt a ≠ fmtW32 || tCols a < o.eb then .fault stProgram s
    else if inCounters pl.j (fcastAddr pl.j o.gen o.layer) 64 then .fault stSegment s
    else
      let y := (List.range (tRows a)).foldl (fun x r => routeStep (fun (x : Acc × List Nat) =>
        match readRow x.1.s pl a r with
        | .error q => (x.1.fail q, x.2)
        | .ok ra =>
          let cs := (List.range o.eb).map (fun e => (baseWord o.gen e, (rowVals a ra).getD e 0))
          let es := (selectK o.k cs).map (fun c => idIndex c.1)
          (x.1.note (rowInf a ra) 0, x.2 ++ es.filter (fun e => !x.2.contains e))) x) (startAcc i s, routedBefore (curEng s i))
      if y.1.err ≠ 0 || y.1.cut then closeAcc i false { y.1 with s := keepRouted i y.1 y.2 }
      else
        let ra := fcastAddr pl.j o.gen o.layer
        let mine := leNat (rdBytes y.1.s.mem (ra + 32) 8) = acc.toNat
        let map := bitmapOr (if mine then rdBytes y.1.s.mem ra 32 else zeros 32) y.2
        let s1 := hubWrite y.1.s ra (map ++ bvLe acc 8) (tagBase o.gen)
        closeAcc i false { y.1 with s := cacheLines s1 pl.j i.glade.val false (y.2.flatMap (expertLines pl.j o.gen o.layer)) }) s)

/-! ### RED (R177, R178) -/

/-- The sums of `n` elements of a target line, columns c0 to c0 + n − 1 of row r, with a contribution's values: the code, the flags and the
CAUSE of each (R178). -/
def redSums (p : RedPart) (r c0 n : Nat) (vals : List (BitVec 32)) (b : Bytes) : List (Nat × BitVec 5 × Nat) :=
  let w := fmtBits (tFmt p.td) / 8
  (List.range n).map (fun k =>
    let t := fDecode (fmtF (tFmt p.td)) (fieldLe b (k * w) w)
    let v := vals.getD (c0 + k) 0
    let q := addVal t (dec32 v)
    let inf := infIn v ||| (match t with | .fin _ _ _ => 0 | _ => flInfIn)
    if tFmt p.td = fmtW32 then
      let z := rndC q
      (z.v.toNat, z.fl ||| inf ||| (if isNan32 z.v then flNanOut else 0), z.cause)
    else
      let rd := if p.td.grad then Rounding.stoch (randBits (gladeWord p.glade p.rcnt.toNat r (c0 + k)) p.seed) else .nearest
      let z := fConvert fM16 rd q.1
      (z.1, z.2 ||| inf ||| (if q.2 ≠ 0 then flInvalid else 0), q.2))

/-- The bytes of such sums. -/
def sumBytes (t : Td) (rs : List (Nat × BitVec 5 × Nat)) : Bytes := rs.flatMap (fun z => natLe z.1 (fmtBits (tFmt t) / 8))

/-- Add one contribution to one line of the target: columns c0 to c0 + n − 1 of row r (R178). -/
def redLine (pl : Place) (p : RedPart) (r c0 n : Nat) (vals : List (BitVec 32)) (tag : Option Tag) (x : Acc) : Acc :=
  let w := fmtBits (tFmt p.td) / 8
  let a := rowAddr p.td r + c0 * w
  match readLine x.s pl.j a with
  | .error e => x.fail e
  | .ok old => match tag.bind (join old) with
    | none => x.fail stOwnerMix
    | some u =>
      let rs := redSums p r c0 n vals (rdBytes x.s.mem a (n * w))
      let fl := rs.foldl (fun f z => f ||| z.2.1) 0
      let van := (rs.filter (fun z => z.2.1 &&& flVanish ≠ 0)).length
      let ev := (numbered rs).findSome? (fun z => if z.2.2.2 = 0 then none else some (⟨z.2.2.2, r, (c0 + z.1) % 256, 0xFFFF, u⟩ : LogEv))
      let y := (x.note fl van).event ev
      if staleHalf y.s (halfOfGlade p.glade) then { y with s := loseWrite y.s p.glade }
      else match devWrite y.s pl.j pl.eval a (sumBytes p.td rs) u with
        | .ok s1 => { y with s := s1 }
        | .frozen => { y with frz := true }
        | .err e => y.fail e

/-- Columns of a target line, and the lines of a target row (R178). -/
def redPer (t : Td) : Nat := 256 / (fmtBits (tFmt t) / 8)
def redLines (t : Td) : Nat := ceilDiv (tCols t) (redPer t)

/-- Read row `r` of a contribution for a target: its W32 values, and for each of the target's lines the join of the tags of the lines
that hold the data for it (R178). -/
def redRow (s : State) (pl : Place) (src dst : Td) (r : Nat) : Except Byte (List (BitVec 32) × List (Option Tag)) :=
  match spanTags s pl (tSpace src) (rowAddr src r) (rowBytes src) with
  | .error e => .error e
  | .ok (b, _) =>
    match (if isBlock (tFmt src) then spanTags s pl src.sspace.toNat (scaleAddr src r) (nBlocks src) else .ok ([], [])) with
    | .error e => .error e
    | .ok (sb, _) =>
      let x : RowIn := ⟨(List.range (tCols src)).map (elemCode (tFmt src) b), sb.map (·.toNat), tagPublic⟩
      let w := fmtBits (tFmt src)
      .ok (rowVals src x, (List.range (redLines dst)).map (fun k =>
        let c0 := k * redPer dst
        let c1 := min (tCols src) (c0 + redPer dst)
        let lo := c0 * w / 8
        let es := (spanTags s pl (tSpace src) (rowAddr src r + lo) (ceilDiv (c1 * w) 8 - lo)).toOption.elim [] (·.2)
        let ss := if isBlock (tFmt src) then
            (spanTags s pl src.sspace.toNat (scaleAddr src r + c0 / tBlk src) (ceilDiv c1 (tBlk src) - c0 / tBlk src)).toOption.elim [] (·.2)
          else []
        joinAll (es ++ ss)))

/-- Add a row of a contribution line by line in ascending address (R178). -/
def redAddRow (pl : Place) (p : RedPart) (r : Nat) (row : List (BitVec 32) × List (Option Tag)) (x : Acc) : Acc :=
  let inf := row.1.foldl (fun f v => f ||| infIn v) 0
  (List.range (redLines p.td)).foldl (fun x k =>
    if x.err ≠ 0 then x
    else redLine pl p r (k * redPer p.td) (min (redPer p.td) (tCols p.td - k * redPer p.td)) row.1 (row.2.getD k none) x) (x.note inf 0)

/-- Add a staged contribution row by row (R178). -/
def redApply (pl : Place) (p : RedPart) (x : Acc) : Acc :=
  (numbered p.rows).foldl (fun x row => if x.err ≠ 0 then x else redAddRow pl p row.1 row.2 x) x

/-- Add a contribution as it arrives: each row is read and added as one step (R126, R178). -/
def redArrive (pl : Place) (p : RedPart) (src : Td) (x : Acc) : Acc :=
  runRows (fun r x => match redRow x.s pl src p.td r with
    | .error e => x.fail e
    | .ok row => redAddRow pl p r row x) (tRows src) x

/-- Replace the open reduction at a base, or drop it. -/
def setRed (s : State) (base : BitVec 48) (v : Option Red) : State :=
  { s with job := s.job.map (fun j => { j with reds := j.reds.filter (fun r => r.base ≠ base) ++ v.toList }) }

/-- Insert a staged contribution by ascending glade. -/
def insertPart (p : RedPart) : List RedPart → List RedPart
  | [] => [p]
  | q :: r => if p.glade < q.glade then p :: q :: r else q :: insertPart p r

/-- Close an ordered reduction: every staged contribution added in ascending glade index. A contribution whose join fails faults its
own glade and counts for nothing, so the reduction then stays open for another (R178). Flags and INVALID events of the adds count for the
command of the glade that closes the reduction, whose steps they are (R67, log 69). -/
def redClose (pl : Place) (r : Red) (x : Acc) : Acc × List RedPart :=
  r.parts.foldl (fun (q : Acc × List RedPart) p =>
    let y := redApply pl p { q.1 with err := 0 }
    if y.err ≠ 0 then ({ y with err := 0 }, q.2 ++ [p]) else (y, q.2)) (x, [])

/-- Read every row of a contribution, to stage it. -/
def redRows (s : State) (pl : Place) (src dst : Td) : List Nat → Except Byte (List (List (BitVec 32) × List (Option Tag)))
  | [] => .ok []
  | r :: q => match redRow s pl src dst r with
    | .error e => .error e
    | .ok y => match redRows s pl src dst q with
      | .error e => .error e
      | .ok l => .ok (y :: l)

/-- Whether every line of a target may be written: `.ok false` where one lies in a frozen segment (R177, R185, R286, R509). -/
def redTarget (s : State) (pl : Place) (t : Td) : Except Byte Bool :=
  (List.range (tRows t)).foldl (fun acc r =>
    match acc with
    | .error e => .error e
    | .ok b => match checkPieces s pl.j pl.eval tagPublic ((linesOf (rowAddr t r) (rowBytes t)).map (fun a => (a, zeros (min 256 (rowAddr t r + rowBytes t - a))))) with
      | .error e => .error e
      | .ok c => .ok (b && c)) (.ok true)

/-- Every row of a target lies in the managed region (R177). -/
def redManaged (j : Job) (t : Td) : Bool := (List.range (tRows t)).all (fun r => rangeManaged j (rowAddr t r) (rowBytes t))

/-- A reduction that has closed adds 1 to its meeting counter (R178). -/
def redBump (pl : Place) (acc : BitVec 64) (ctr : BitVec 64) (s : State) : State :=
  if ctr = 0 then s else
  match counterAddCheck s pl.j pl.eval ctr.toNat with
  | .ok true => bumpCounter s ctr.toNat
  | .ok false => noteFrozen s acc pl.j.strict
  | .error _ => s

/-- A contribution in ordered mode is staged; the last one closes the reduction (R178). -/
def redOrdered (i : GI) (pl : Place) (src : Td) (red : Red) (part : RedPart) (free : Bool) (s : State) : GOut :=
  let acc := (gladeOf s i.glade.val).cmd
  match redRows s pl src part.td (List.range (tRows src)) with
  | .error q => .fault q s
  | .ok rows =>
    let inf := (rows.flatMap (·.1)).foldl (fun f v => f ||| infIn v) 0
    let r1 := { red with
      count := red.count + 1,
      parts := if free then insertPart { part with rows := rows } red.parts else red.parts,
      done := if free then red.done else red.done ++ [i.glade.val] }
    let x0 : Acc := { s := s, frz := !free, fl := inf }
    if r1.count < red.n then closeAcc i false { x0 with s := setRed s red.base (some r1) }
    else
      let z := redClose pl r1 x0
      if z.2 = [] then closeAcc i false { z.1 with s := redBump pl acc red.counter (setRed z.1.s red.base none) }
      else
        let s2 := setRed z.1.s red.base (some { r1 with
          count := r1.count - z.2.length, parts := [],
          done := r1.done ++ (r1.parts.filter (fun p => !z.2.contains p)).map (·.glade) })
        let s3 := (z.2.filter (fun p => p.glade ≠ i.glade.val)).foldl (fun s p => faultGlade s p.glade .xe stOwnerMix) s2
        closeAcc i false { z.1 with s := s3, err := if z.2.any (fun p => p.glade = i.glade.val) then stOwnerMix else 0 }

/-- A contribution in arrival order is added as it arrives; one that faults or is cut short does not count yet (R178). -/
def redArrival (i : GI) (pl : Place) (src : Td) (red : Red) (part : RedPart) (free : Bool) (s : State) : GOut :=
  let acc := (gladeOf s i.glade.val).cmd
  let x := if free then redArrive pl part src (startAcc i s) else { s := s, frz := true }
  if x.cut then closeAcc i false { x with s := setRed x.s red.base (some red) }
  else if x.err ≠ 0 then closeAcc i false { x with s := if red.count = 0 then setRed x.s red.base none else setRed x.s red.base (some red) }
  else
    let r1 := { red with count := red.count + 1 }
    closeAcc i false { x with s := if r1.count < red.n then setRed x.s red.base (some r1) else redBump pl acc red.counter (setRed x.s red.base none) }

/-- RED adds tile tdA into Canopy target tdB as one of N contributions (R177, R178). -/
def execRed (i : GI) (s : State) : Host.Outcome State Fault Refusal :=
  .next (issue 0x3A i { ta := true, tb := true, sa := true, sb := true, flags := 1, only := some .xe, steps := true } (fun s =>
    let e := curEng s i
    let a := tdGet e i.ta.toNat
    let b := tdGet e i.tb.toNat
    let pl := placeOf s i.glade.val
    let g := gladeOf s i.glade.val
    let n := (sGet e i.sa.toNat).toNat
    let ctr := sGet e i.sb.toNat
    let ordered := i.flags.getLsbD 0
    if !tdOk pl a || !tdOk pl b || tSpace a ≠ 0 || tFmt a = fmtF8 || (tFmt b ≠ fmtW32 && tFmt b ≠ fmtM16) || n = 0 || 128 < n ||
       tRows a ≠ tRows b || tCols a ≠ tCols b then .fault stProgram s
    else if tSpace b ≠ 1 || !redManaged pl.j b then .fault stSegment s
    else
      let cs := if ctr = 0 then stOk else counterCheck s pl.j ctr.toNat
      if cs ≠ stOk then .fault cs s
      else match (if ctr = 0 then .ok true else counterAddCheck s pl.j pl.eval ctr.toNat), redTarget s pl b with
        | .error q, _ => .fault q s
        | _, .error q => .fault q s
        | .ok _, .ok free =>
          let red : Red := (pl.j.reds.find? (fun r => r.base = b.base)).getD { base := b.base, n := n, ordered := ordered, counter := ctr }
          if red.n ≠ n || red.ordered ≠ ordered ||
             (ordered && (red.done.contains i.glade.val || red.parts.any (fun p => p.glade = i.glade.val))) then .fault stProgram s
          else
            let seed := match findCmd s g.cmd with | some c => opB c 8 8 64 | none => Config.stepSeed pl.j.boundary
            let part : RedPart := ⟨i.glade.val, g.cmd, b, seed, g.rcnt, []⟩
            if ordered then redOrdered i pl a red part free s else redArrival i pl a red part free s) s)

end Sys2Proof.Machine
end

