-- ==== Sys2Proof/Machine/Transfer.lean ====
section
/-! DEFINITION. Transfers between devices (R149, R354 to R370): issuing, sending, the target's side, answers and losses, and the pair events that touch transfers. -/

namespace Sys2Proof.Machine

/-! ### Fields of a transfer descriptor (R354) -/

def xKind (x : Xfer) : Nat := fieldLe x.desc 0 1
def xGrad (x : Xfer) : Bool := flagAt x.desc 1 0
def xStepchk (x : Xfer) : Bool := flagAt x.desc 1 1
def xFmt (x : Xfer) : Nat := fieldLe x.desc 2 1
def xDst (x : Xfer) : BitVec 16 := fieldBv x.desc 4 2 16
def xLaddr (x : Xfer) : Nat := fieldLe x.desc 8 8
def xRaddr (x : Xfer) : Nat := fieldLe x.desc 16 8
def xLen (x : Xfer) : Nat := fieldLe x.desc 24 8
def xLcnt (x : Xfer) : Nat := fieldLe x.desc 32 8
def xRcnt (x : Xfer) : Nat := fieldLe x.desc 40 8
def xLstep (x : Xfer) : Nat := fieldLe x.desc 48 6
def xRstep (x : Xfer) : Nat := fieldLe x.desc 56 6

/-- Data cells of a transfer (R357). -/
def cellCount (len : Nat) : Nat := ceilDiv len 480

def updXfer (s : State) (id : Nat) (f : Xfer → Xfer) : State :=
  { s with fab := { s.fab with xfers := s.fab.xfers.map (fun x => if x.id = id then f x else x) } }
def dropXfer (s : State) (id : Nat) : State := { s with fab := { s.fab with xfers := s.fab.xfers.filter (fun x => x.id ≠ id) } }

/-- The place of a transfer's memory accesses: its glade's, or the host's. -/
def xPlace (s : State) (x : Xfer) : Place :=
  match x.glade with
  | some g => placeOf s g
  | none => { j := jobOf s, gi := 0, prog := {}, eval := false }

/-! ### Issuing (R149, R354) -/

/-- Give a transfer to the transfer engine; the step word that it carries is read as it is issued (R357). -/
def addXfer (s : State) (acc : BitVec 64) (g : Option Nat) (desc : Bytes) (seed : BitVec 64) : State :=
  { s with fab := { s.fab with
    nextId := s.fab.nextId + 1,
    xfers := s.fab.xfers ++ [{ id := s.fab.nextId, acc := acc, glade := g, desc := desc, seed := seed, since := s.hub.time,
                               stepWord := if flagAt desc 1 1 then fieldBv (rdBytes s.mem (fieldLe desc 48 6) 8) 0 8 64 else 0 }] } }

/-- The seed of the command that a glade runs (R57); a serving step has its own (log 28). -/
def gladeSeed (s : State) (acc : BitVec 64) : BitVec 64 :=
  match findCmd s acc with | some c => opB c 8 8 64 | none => Config.stepSeed (jobOf s).boundary

/-- XFER issues the 64-byte descriptor at scratch offset sA to the transfer engine (R149). -/
def execXfer (i : GI) (s : State) : Host.Outcome State Fault Refusal :=
  .next (issue 0x24 i { sa := true, only := some .ae } (fun s =>
    let a := (sGet (curEng s i) i.sa.toNat).toNat
    let g := gladeOf s i.glade.val
    if a % 64 ≠ 0 || !inScratch (jobOf s) a 64 then .fault stProgram s
    else if gPoisoned g a 64 then .fault stDevice s
    else .done (addXfer s g.cmd (some i.glade.val) (rdBytes g.mem a 64) (gladeSeed s g.cmd))) s)

/-- HOST_XFER issues the descriptor in its operand area (R354); it has no seed operand, and 0 is used (log 46). -/
def execHostXfer (acc : BitVec 64) (s : State) : Host.Outcome State Fault Refusal :=
  onJob s acc 0x06 (fun c _ =>
    if c.ph ≠ .accepted then s
    else addXfer (updCmd s acc (fun d => { d with ph := .running, started := s.hub.time })) acc none ((c.desc.drop 8).take 64) 0)

/-! ### Ending (R364, R365, R509) -/

/-- A transfer fails: a fault of its glade, or the status of the host's command (R365). -/
def failXfer (s : State) (x : Xfer) (st : Byte) : State :=
  let s1 := dropXfer s x.id
  match x.glade with
  | none => finish s1 x.acc st
  | some g => if (gladeOf s1 g).cmd = x.acc && !gladeFaulted (gladeOf s1 g) then faultGlade s1 g .ae st else s1

/-- A transfer completes at the sender: LCNT rises by 1 and the tag is released (R364). A drop at the target marks the command
(R509). -/
def completeXfer (s : State) (x : Xfer) (dropped strict : Bool) : State :=
  let pl := xPlace s x
  let s1 := dropXfer s x.id
  let s2 := if xLcnt x = 0 then s1 else
    match counterAddCheck s1 pl.j pl.eval (xLcnt x) with
    | .ok true => bumpCounter s1 (xLcnt x)
    | .ok false => noteFrozen s1 x.acc pl.j.strict
    | .error _ => s1
  let s3 := if dropped then updCmd s2 x.acc (fun c => { c with frozen := true, strictHit := c.strictHit || strict }) else s2
  if x.glade.isNone then finish s3 x.acc stOk else s3

/-! ### The sender's checks (R355) -/

/-- Tags of a range's lines, whole. -/
def rangeTag (s : State) (j : Job) (a n : Nat) : Except Byte Tag :=
  match lineTags s j (linesOf a n) with
  | .error e => .error e
  | .ok l => match joinAll l with | none => .error stOwnerMix | some t => .ok t

/-- A range that may be written, before its data's tag is known (R145, R185): `.ok false` where it meets a frozen segment. -/
def rangeWritable (s : State) (j : Job) (eval : Bool) (a n : Nat) : Except Byte Bool :=
  (linesOf a n).foldl (fun r l =>
    match r with
    | .error e => .error e
    | .ok b => match segAt j l with
      | none => .error stSegment
      | some g =>
        if (isGddr l && !backed s l) || g.access = 0 || inCounters j l 256 || (eval && (g.vsrc = 1 || g.vsrc = 2)) then .error stSegment
        else if onFenced s l then .error stDevice
        else .ok (b && g.access ≠ 2)) (.ok true)

/-- Counters and step words a descriptor names at this end. -/
def xWords (x : Xfer) : List Nat :=
  (if xLcnt x = 0 then [] else [xLcnt x]) ++ (if xStepchk x then [xLstep x] else [])

/-- Counters and step words it names at the target, whose lines only the target knows: the sender checks their alignment and that they lie in
a Canopy; R358 checks the rest (log 59). -/
def peerWords (x : Xfer) : List Nat :=
  (if xRcnt x = 0 then [] else [xRcnt x]) ++ (if xStepchk x then [xRstep x] else [])

/-- The first check of R355 that fails before any peer is considered; the owner tag, and false for a read whose destination is
frozen. LSTEP is read, LCNT is added to. -/
def xferCheck (s : State) (x : Xfer) : Except Byte (Tag × Bool) :=
  let pl := xPlace s x
  let j := pl.j
  let k := xKind x
  if 2 < k || 3 < fieldLe x.desc 1 1 || !zeroAt x.desc 3 1 || !zeroAt x.desc 6 2 || !zeroAt x.desc 54 2 || !zeroAt x.desc 62 2 ||
     xLen x % 256 ≠ 0 || xLaddr x % 256 ≠ 0 || xRaddr x % 256 ≠ 0 || xLen x < 256 || 2 ^ 27 < xLen x then .error stProgram
  else if (k = 2 && xFmt x ≠ 5 && xFmt x ≠ 7) || (k ≠ 2 && xFmt x ≠ 0) then .error stProgram
  else if k = 1 && xStepchk x then .error stProgram
  else if (xWords x).any (fun a => !wordPlace s j a) || (peerWords x).any (fun a => a % 8 ≠ 0 || !isCanopy a) then .error stOwnerMix
  else if (xLcnt x ≠ 0 && (match counterAddCheck s j pl.eval (xLcnt x) with | .error _ => true | .ok _ => false)) ||
          (xStepchk x && ((segAt j (xLstep x)).isNone || inCounters j (xLstep x) 8)) then .error stSegment
  else if k = 1 then
    match rangeWritable s j pl.eval (xLaddr x) (xLen x) with
    | .error e => .error e
    | .ok b => .ok (tagPublic, b)
  else match rangeTag s j (xLaddr x) (xLen x) with
    | .error e => .error e
    | .ok t => .ok (t, true)

/-! ### The target's checks (R358) -/

/-- What the target answers to a head. -/
inductive HeadRes where
  | preempted
  | refuse (st : Byte)
  | dropped
  | ok
  deriving DecidableEq, Repr

/-- The digest that must stand for a tag: the tenant's key digest, the base generation's digest, 0 for PUBLIC (R357). -/
def tagDigest (j : Job) (t : Tag) : Digest :=
  if isTenant t then (tenOf j t.toNat).digest
  else if isBase t then (let b := baseOf j (if t = tagBaseA then 0 else 1); if b.loaded then b.digest else 0)
  else 0

/-- The job that a head names is saved, or stopped for pre-emption (R330, R358). -/
def jobStopped (s : State) (id : BitVec 32) : Bool :=
  s.saved.any (fun v => v.job.id = id) || (match s.job with | some j => j.id = id && (j.st = 3 || j.st = 4 || j.st = 6) | none => false)

def headWords (h : Head) : List Nat :=
  (if h.rcnt = 0 then [] else [h.rcnt.toNat]) ++ (if h.flags.getLsbD 1 then [h.rstep.toNat] else [])

/-- The target's ordered checks of a head (R358); a read request is checked with reading in place of writing and without item 8. A
head that no sender of R355 forms is refused with PROGRAM_FAULT (log 44). `eval` marks an eval-flagged run of this device (R294). -/
def headCheck (s : State) (h : Head) (eval : Bool) : HeadRes :=
  let a := h.raddr.toNat
  let n := h.len.toNat
  if jobStopped s h.jobId then .preempted
  else match s.job with
    | none => .refuse stEgress
    | some j =>
      if j.id ≠ h.jobId || (isBase h.owner && h.digest ≠ tagDigest j h.owner) then .refuse stEgress
      else if isTenant h.owner && !(isBound j h.owner.toNat && (tenOf j h.owner.toNat).digest = h.digest) then .refuse stOwnerMix
      else if 2 < h.kind.toNat || n % 256 ≠ 0 || a % 256 ≠ 0 || n = 0 || 2 ^ 27 < n || (h.kind = 2 && h.fmt ≠ 5 && h.fmt ≠ 7) then .refuse stProgram
      else if (headWords h).any (fun w => !wordPlace s j w) then .refuse stOwnerMix
      else if h.kind = 2 && !rangeManaged j a n then .refuse stSegment
      else if h.kind = 1 then
        match rangeTag s j a n with
        | .error e => .refuse e
        | .ok _ => if (headWords h).any (fun w => !wordWritable j w) then .refuse stSegment else .ok
      else match rangeWritable s j eval a n with
        | .error e => .refuse e
        | .ok free =>
          if (headWords h).any (fun w => !wordWritable j w) then .refuse stSegment
          else if !free then .dropped
          else if h.kind = 2 then .ok
          else match (linesOf a n).findSome? (fun l => match writeCheck s j eval l 256 h.owner with | .error e => some e | .ok _ => none) with
            | some e => .refuse e
            | none => .ok

/-- The step word's update on the first head with STEPCHK (R363). -/
def stepWordUpdate (s : State) (h : Head) : State :=
  if !h.flags.getLsbD 1 then s
  else
    let a := h.rstep.toNat
    let w := leNat (rdBytes s.mem a 8)
    let c := h.stepWord.toNat
    let put := fun (v : Nat) => { s with mem := wrBytes s.mem a (natLe v 8) }
    if !c.testBit 32 || c.testBit 33 then put (w ||| 2 ^ 33)
    else if !w.testBit 32 then put ((w / 2 ^ 32 ||| 1) * 2 ^ 32 + c % 2 ^ 32)
    else if w % 2 ^ 32 ≠ c % 2 ^ 32 then put (w ||| 2 ^ 33)
    else s

/-! ### Applying cells (R359 to R362) -/

/-- One line's part of a write that arrives: the line takes the transfer's tag or seal with its first byte; where another tag stood, the bytes
still to come read 0 until they arrive (log 41). -/
def applyLine (s : State) (j : Job) (o : Tag) (a : Nat) (b : Bytes) : State :=
  let l := 256 * lineOf a
  let s1 := if isCanopy a && tagOf s (lineOf a) ≠ o then { s with mem := clearRange s.mem l 256 } else s
  let s2 := storeLine { s1 with poison := s1.poison.filter (fun k => k ≠ lineOf a) } j a b (if isCanopy a then o else tagPublic)
  s2

/-- The 16 random bits of a reduce element (R361): SRC and the element's byte offset from RADDR divided by 2. -/
def reduceBits (src : BitVec 16) (seed : BitVec 64) (off : Nat) : Nat :=
  randBits (BitVec.ofNat 64 (2 ^ 62 + src.toNat * 2 ^ 46 + off / 2)) seed

/-- What arriving bytes have done: the state, a status (0: none), and the flags and vanished elements of a reduce. -/
structure CellRes where
  s   : State
  err : Byte := 0
  fl  : BitVec 5 := 0
  van : Nat := 0
  deriving DecidableEq, Repr

/-- One element's sum, rounded once to the format, with the flags it raises (R360, R65, R67). -/
def reduceElem (fmt : Nat) (grad : Bool) (src : BitVec 16) (seed : BitVec 64) (off old new : Nat) : Nat × BitVec 5 :=
  let x := fDecode (fmtF fmt) old
  let y := fDecode (fmtF fmt) new
  let special : Val → BitVec 5 := fun v => match v with | .fin _ _ _ => 0 | _ => flInfIn
  let q := addVal x y
  let f := special x ||| special y
  if fmt = fmtW32 then
    let z := rndC q
    (z.v.toNat, z.fl ||| f ||| (if isNan32 z.v then flNanOut else 0))
  else
    let z := fConvert fM16 (if grad then .stoch (reduceBits src seed off) else .nearest) q.1
    (z.1, z.2 ||| f ||| (if q.2 ≠ 0 then flInvalid else 0))

/-- One line's part of a reduce cell: every element added; the line's tag joins the transfer's (R360). -/
def reduceLine (j : Job) (h : Head) (src : BitVec 16) (off : Nat) (a : Nat) (b : Bytes) (r : CellRes) : CellRes :=
  match readLine r.s j a with
  | .error e => { r with err := e }
  | .ok t => match join t h.owner with
    | none => { r with err := stOwnerMix }
    | some u =>
      let w := fmtBits h.fmt.toNat / 8
      let old := rdBytes r.s.mem a b.length
      let es := (List.range (b.length / w)).map (fun k =>
        reduceElem h.fmt.toNat (h.flags.getLsbD 0) src h.seed (off + k * w) (fieldLe old (k * w) w) (fieldLe b (k * w) w))
      { s := setTag { r.s with mem := wrBytes r.s.mem a (es.flatMap (fun z => natLe z.1 w)) } (lineOf a) u,
        fl := es.foldl (fun f z => f ||| z.2) r.fl, van := r.van + (es.filter (fun z => z.2 &&& flVanish ≠ 0)).length }

/-- Apply a data cell's bytes to the target range (R359, R360); `off` counts from RADDR. A line that fails stops it; the lines before it
keep their sums. -/
def applyCell (s : State) (j : Job) (h : Head) (src : BitVec 16) (off : Nat) (b : Bytes) : CellRes :=
  (pieces (h.raddr.toNat + off) b).foldl (fun r p =>
    if r.err ≠ 0 then r
    else if h.kind = 2 then reduceLine j h src (p.1 - h.raddr.toNat) p.1 p.2 r
    else { r with s := applyLine r.s j h.owner p.1 p.2 }) { s := s }

/-! ### Sending a transfer (R356, R357, R369, R370) -/

/-- The head of a transfer from a cell on. -/
def headOf (s : State) (x : Xfer) (o : Tag) : Head :=
  let j := jobOf s
  { jobId := j.id, kind := BitVec.ofNat 8 (xKind x), flags := x.desc.getD 1 0, fmt := x.desc.getD 2 0,
    raddr := fieldBv x.desc 16 8 64, len := fieldBv x.desc 24 8 64, rcnt := fieldBv x.desc 40 8 64, rstep := fieldBv x.desc 56 6 64,
    stepWord := if xStepchk x then x.stepWord else 0, owner := o,
    oldTag := x.oldTag.getD 0, oldValid := x.oldTag.isSome, start := x.start, seed := x.seed,
    digest := tagDigest j o }

/-- The data cells of a write or reduce from CIDX `k` on (R357). -/
def dataCells (s : State) (x : Xfer) (tag : BitVec 13) : List Cell :=
  let m := seenMem s (jobOf s) (linesOf (xLaddr x) (xLen x))
  (List.range (cellCount (xLen x) + 1 - x.start.toNat)).map (fun i =>
    let k := x.start.toNat + i
    let off := (k - 1) * 480
    mkCell 2 (xDst x) tag (BitVec.ofNat 19 k) (.data (padTo (rdBytes m (xLaddr x + off) (min 480 (xLen x - off))) 480)))

/-- The cells of a transfer as it is sent: with its head, or from a cell on (R357, R369). -/
def xferCells (s : State) (x : Xfer) (o : Tag) (tag : BitVec 13) (withHead : Bool) : List Cell :=
  (if withHead || xKind x = 1 then [mkCell (if xKind x = 1 then 0 else 2) (xDst x) tag 0 (.head (headOf s x o))] else []) ++
  (if xKind x = 1 then [] else dataCells s x tag)

/-- The lowest free remote transfer tag of a horizon die: 2,048 each (R220); a saved job's recorded transfers keep theirs (R329). -/
def freeTag (s : State) (h : Nat) : Option (BitVec 13) :=
  let used := fun (i : Nat) (x : Xfer) => x.st ≠ .waiting && x.tag.toNat = 2048 * h + i
  ((List.range 2048).find? (fun i => !s.fab.xfers.any (used i) && !s.saved.any (fun v => v.xfers.any (used i)))).map
    (fun i => BitVec.ofNat 13 (2048 * h + i))

/-- The ports with the fewest cells queued among some; the engine takes any of them (R356, log 14). -/
def pickPort (s : State) (ks : List Nat) : Option Nat :=
  let q := fun k => (portOf s k).txq.length + (portOf s k).unacked.length
  let m := ks.foldl (fun m k => min m (q k)) (2 ^ 20)
  let best := ks.filter (fun k => q k = m)
  best[Config.choice s.free % max 1 best.length]?

/-- A transfer issued earlier waits for a tag of a horizon die and goes first (R220). -/
def tagTaken (s : State) (x : Xfer) (h : Nat) : Bool :=
  s.fab.xfers.any (fun y => y.id < x.id && y.st = .waiting && y.waitsTag &&
    (match pairOf s (xDst y) with | some p => (portsBoth s p).any (fun k => k / 8 = h) | none => false))

/-- Send a transfer, or send it again from its next cell: on its own port or die where one is up, else under a new tag (R356, R369,
R370). A head sent again names the tag under which the transfer was last sent (R357). Without a free tag it waits (R220). -/
def launch (s : State) (x : Xfer) (p : Pair) (o : Tag) (withHead : Bool) : State :=
  let both := portsBoth s p
  let held := x.st ≠ .waiting
  let same := if held then both.filter (fun k => k / 8 = x.tag.toNat / 2048) else []
  let z := { x with st := .sent, queries := 0, since := s.hub.time, owner := o, oldTag := if held then some x.tag else none, waitsTag := false }
  if both = [] then failXfer s x stDevice
  else if held && both.contains x.port then
    sendCells (updXfer s x.id (fun _ => z)) x.port (xferCells s z o x.tag withHead)
  else if same ≠ [] then
    match pickPort s same with
    | none => s
    | some k =>
      let y := { z with port := k }
      sendCells (updXfer { s with free := s.free + 1 } x.id (fun _ => y)) k (xferCells s y o x.tag withHead)
  else
    match pickPort s (both.filter (fun k => (freeTag s (k / 8)).isSome && !tagTaken s x (k / 8))) with
    | none => updXfer s x.id (fun y => { y with waitsTag := true })
    | some k => match freeTag s (k / 8) with
      | none => s
      | some t =>
        let y := { z with port := k, tag := t }
        sendCells (updXfer { s with free := s.free + 1 } x.id (fun _ => y)) k (xferCells s y o t true)

/-- Add 1 to the counter that a transfer names at its target, dropped or not (R364, R509). -/
def arriveCount (s : State) (a : Nat) : State := if a = 0 then s else bumpCounter s a

/-- Run a transfer to the device's own address through the Canopy (R365): head, data, counters and completion at once. A reduce raises its
flags in its command's summary (R67); the engine is no glade, so an INVALID event of it writes no log entry (R69, log 46). -/
def localXfer (s : State) (x : Xfer) (o : Tag) : State :=
  let h := headOf s x o
  let j := jobOf s
  match headCheck s h (xPlace s x).eval with
  | .preempted => s
  | .refuse st => failXfer s x st
  | .dropped =>
    completeXfer (arriveCount { s with hub := { s.hub with frozenDrop := satAdd s.hub.frozenDrop 1 } } (xRcnt x)) x true j.strict
  | .ok =>
    if xKind x = 1 then
      match devRead s j (xRaddr x) (xLen x) with
      | .error e => failXfer s x e
      | .ok (b, t) =>
        if isTenant t && !isBound j t.toNat then failXfer s x stOwnerMix
        else match devWrite s j (xPlace s x).eval (xLaddr x) b t with
        | .ok s1 => completeXfer s1 x false false
        | .frozen => completeXfer (noteFrozen s x.acc j.strict) x false false
        | .err e => failXfer s x e
    else
      let s1 := if x.start = 1 then stepWordUpdate s h else s
      let r := (dataCells s x 0).foldl (fun (r : CellRes) c =>
        if r.err ≠ 0 then r
        else match c.body with
          | .data b =>
            let off := (c.cidx.toNat - 1) * 480
            let y := applyCell r.s j h s.hub.fabAddr off (b.take (xLen x - off))
            { y with fl := r.fl ||| y.fl, van := r.van + y.van }
          | _ => r) { s := s1 }
      let s2 := raise r.s x.acc r.fl r.van
      if r.err ≠ 0 then failXfer s2 x r.err else completeXfer (arriveCount s2 (xRcnt x)) x false false

/-- Whether a base-tagged line may go to a peer: its digest of the generation equals this device's (R352). -/
def baseAllowed (s : State) (p : Pair) (o : Tag) : Bool :=
  !isBase o || (match p.bind with
    | some b => (if o = tagBaseA then b.digestA else b.digestB) = tagDigest (jobOf s) o && tagDigest (jobOf s) o ≠ 0
    | none => false)

/-- TRANSFER_START: the transfer engine checks a waiting transfer and sends it (R355 to R357); a transfer to a peer without a pair, or
whose binding has not come, waits for it (log 42). A read into a frozen segment completes once the checks have passed, and writes
nothing (R145, R509). -/
def execTransferStart (id : Nat) (s : State) : Host.Outcome State Fault Refusal :=
  match s.fab.xfers.find? (fun x => x.id = id) with
  | none => .next s
  | some x =>
    if !hubUp s || !(x.st = .waiting || x.st = .resend) || !(jobSt s = 2 || jobSt s = 7) then .next s
    else match xferCheck s x with
      | .error e => .next (failXfer s x e)
      | .ok (o, free) =>
        let drop := fun (_ : Unit) => completeXfer (noteFrozen s x.acc (jobOf s).strict) x false false
        if xDst x = s.hub.fabAddr && s.hub.fabSet then .next (if free then localXfer s x o else drop ())
        else match pairOf s (xDst x) with
          | none => if mayPair s (xDst x) then .next s else .next (failXfer s x stEgress)
          | some p =>
            if !p.up || p.bind.isNone then .next s
            else if !isPeer s p || (xKind x ≠ 1 && !baseAllowed s p o) then .next (failXfer s x stEgress)
            else if portsBoth s p = [] then .next (failXfer s x stDevice)
            else if !free then .next (drop ())
            else .next (launch s x p o true)

/-! ### Pair events that touch transfers -/

/-- Fail every waiting transfer to an address. -/
def failWaiting (s : State) (a : BitVec 16) (st : Byte) : State :=
  (s.fab.xfers.filter (fun x => xDst x = a && x.st = .waiting)).foldl (fun s x => failXfer s x st) s

/-- PAIR_BRING_UP: the first transfer to or from an address with no pair starts the exchange (R347); Ranger refuses it while
UPDATING or PARTIAL, and the transfers that wait for it fail (R439). At 1,024 pairs the least recently used idle one closes. This device begins the exchange where a transfer of its own waits.
-/
def execPairBringUp (a : BitVec 16) (s : State) : Host.Outcome State Fault Refusal :=
  if (pairOf s a).isSome || !mayPair s a || !hubUp s || !s.boot.devReady then .next s
  else if !rangerReady s then .next (failWaiting s a stEgress)
  else
    let s1 := if s.fab.pairs.length < 1024 then some s else (lruPair s).map (fun p => dropPair s p.addr)
    match s1 with
    | none => .next s
    | some s2 => .next (startExchange { s2 with fab := { s2.fab with pairs := s2.fab.pairs ++ [{ addr := a, lastUse := s2.hub.time }] } } a 0
        (s2.fab.xfers.any (fun x => xDst x = a)))

/-- The two parts of an exchange are there (R347, R348, R350). A peer whose chain, signature or security version fails is refused: a new pair is
dropped with the transfers that wait for it. A rekey starts the next epoch's counters at 1 and keeps the old key for a while. -/
def endExchange (s : State) (a : BitVec 16) (p : Pair) (c : PeerCheck) : State :=
  if !c.chainOk || !c.sigOk || c.svn.toNat < s.rgr.runSvn.toNat then
    if p.up then updPair s a (fun q => { q with exchange := false }) else failWaiting (dropPair s a) a stEgress
  else if p.up then
    let par := decide ((p.epoch + 1) % 2 = 1)
    let s1 := updPair s a (fun q => { q with
      exchange := false, epoch := q.epoch + 1, oldKey := true, rekeyAt := s.hub.time, newPorts := 0,
      tx := [], rx := tclear q.rx (128 * nat par) 128, oldSec := q.sec, sec := exchangeSec p c })
    { s1 with hub := { s1.hub with rekeys := satAdd s1.hub.rekeys 1 } }
  else bindPair (updPair s a (fun q => { q with up := true, exchange := false, sec := exchangeSec p c })) a

/-- A peer's exchange has arrived: where this device began none, it answers with its own part first (R347, R350). -/
def peerExchange (s : State) (a : BitVec 16) (c : PeerCheck) : State :=
  match pairOf s a with
  | none => s
  | some p =>
    let s1 := if p.exchange then s else startExchange s a (if p.up then p.epoch + 1 else p.epoch) false
    endExchange s1 a ((pairOf s1 a).getD p) c

/-- PAIR_UP: a peer's part of an exchange arrives on the control channel; before the pair is up it is under no key, later under the pair's
(R347, R349). -/
def execPairUp (x : CellAt) (c : PeerCheck) (s : State) : Host.Outcome State Fault Refusal :=
  let f := fun (s : State) => if x.h.vc ≠ 3 || x.h.kind ≠ 3 then s else peerExchange s x.h.src c
  .next (if (pairOf s x.h.src).any (·.up) then takeCell s x.port.val x.h false (fun s _ => f s) else arrive s x.port.val x.h false f)

/-- Ask a peer where a transfer stands (R367). -/
def query (s : State) (x : Xfer) (cancel : Bool) : State :=
  let s1 := updXfer s x.id (fun y => { y with st := .queried, queries := y.queries + 1, since := s.hub.time })
  match pairOf s1 (xDst x) with
  | none => s1
  | some p => sendCtl s1 p x.tag (.query cancel)

/-- Query every transfer sent to a peer whose port the peer's mask shows down (R367). -/
def queryDown (s : State) (a : BitVec 16) : State :=
  match pairOf s a with
  | none => s
  | some p => (s.fab.xfers.filter (fun x => xDst x = a && x.st = .sent && !(peerMask p).getLsbD x.port)).foldl (fun s x => query s x false) s

/-- JOB_BINDING: a peer's binding arrives (R351, R352), with its port mask (R367). -/
def execJobBinding (x : CellAt) (b : Binding) (s : State) : Host.Outcome State Fault Refusal :=
  .next (takeCell s x.port.val x.h false (fun s _ =>
    if x.h.vc ≠ 3 || x.h.kind ≠ 3 then s else queryDown (updPair s x.h.src (fun q => { q with bind := some b })) x.h.src))

/-- PORT_MASK: a peer's new port mask arrives (R351, R367). -/
def execPortMask (x : CellAt) (m : BitVec 32) (s : State) : Host.Outcome State Fault Refusal :=
  .next (takeCell s x.port.val x.h false (fun s _ =>
    if x.h.vc ≠ 3 || x.h.kind ≠ 3 then s
    else queryDown (updPair s x.h.src (fun q => { q with bind := q.bind.map (fun b => { b with mask := m }) })) x.h.src))

/-! ### Incoming transfers (R358 to R366, R370) -/

def recOf (s : State) (src : BitVec 16) (tag : BitVec 13) : Option InRec := s.fab.recs.find? (fun r => r.src = src && r.tag = tag)
def setRec (s : State) (src : BitVec 16) (tag : BitVec 13) (v : Option InRec) : State :=
  { s with fab := { s.fab with recs := s.fab.recs.filter (fun r => !(r.src = src && r.tag = tag)) ++ v.toList } }

/-- Answer a refusal with the last cell applied (R366). -/
def refuse (s : State) (k : Nat) (h : CellHdr) (st : Byte) (last : BitVec 19) : State := answer s k 1 h 0 (.refusal st last)

/-- The record a head opens: it takes over from the record of its old tag, whose later cells are discarded (R370). -/
def openRec (s : State) (h : CellHdr) (d : Head) (frozen strict : Bool) : State :=
  let s1 := if d.oldValid then
      let s0 := setRec s h.src d.oldTag none
      { s0 with fab := { s0.fab with dead := s0.fab.dead.filter (fun x => x ≠ (h.src, d.oldTag)) ++ [(h.src, d.oldTag)] } }
    else s
  let s2 := { s1 with fab := { s1.fab with dead := s1.fab.dead.filter (fun x => x ≠ (h.src, h.tag)) } }
  setRec s2 h.src h.tag (some { src := h.src, tag := h.tag, head := d, last := d.start - 1, frozen := frozen, strict := strict, time := s.hub.time })

/-- HEAD_CELL_RECEIVE: the target checks a write, reduce or resend head and opens or refuses the transfer (R358, R363, R370). A head for
a record that is open is a duplicate (R366). -/
def execHeadCellReceive (k : Fin 32) (h : CellHdr) (d : Head) (s : State) : Host.Outcome State Fault Refusal :=
  .next (takeCell s k.val h false (fun s _ =>
    let isFirst := d.start = 1 && !d.oldValid
    let dup := isFirst && (match recOf s h.src h.tag with | some r => r.st = .opened && r.head = d | none => false)
    let last := match recOf s h.src h.tag with | some r => if isFirst then 0 else r.last | none => d.start - 1
    if d.kind = 1 || h.vc ≠ 2 || h.kind ≠ 0 then s
    else if dup then (match recOf s h.src h.tag with | some r => setRec s h.src h.tag (some { r with time := s.hub.time }) | none => s)
    else match headCheck s d false with
      | .preempted => answer s k.val 1 h 0 (.preempted last)
      | .refuse st => refuse s k.val h st (d.start - 1)
      | .dropped =>
        let j := jobOf s
        openRec { s with hub := { s.hub with frozenDrop := if isFirst then satAdd s.hub.frozenDrop 1 else s.hub.frozenDrop } } h d true j.strict
      | .ok =>
        let old := if isFirst then none else recOf s h.src (if d.oldValid then d.oldTag else h.tag)
        let s1 := if isFirst then stepWordUpdate s d else s
        openRec s1 h d (match old with | some r => r.frozen | none => false) (match old with | some r => r.strict | none => false)))

/-- READ_REQUEST_RECEIVE: the target checks a read request and sends the data from the first cell wanted, with the join of the range's
tags (R357 to R359). RCNT counts writes at the target (R364, R179), so a read adds nothing to it. -/
def execReadRequestReceive (k : Fin 32) (h : CellHdr) (d : Head) (s : State) : Host.Outcome State Fault Refusal :=
  .next (takeCell s k.val h false (fun s p =>
    if d.kind ≠ 1 || h.vc ≠ 0 || h.kind ≠ 0 then s
    else match headCheck s d false with
      | .preempted => answer s k.val 1 h 0 (.preempted (d.start - 1))
      | .refuse st => refuse s k.val h st (d.start - 1)
      | .dropped => s
      | .ok =>
        let j := jobOf s
        match devRead s j d.raddr.toNat d.len.toNat with
        | .error e => refuse s k.val h e (d.start - 1)
        | .ok (b, t) =>
          if !baseAllowed s p t then refuse s k.val h stEgress (d.start - 1)
          else
            let n := cellCount d.len.toNat
            sendCells s k.val ((List.range (n + 1 - d.start.toNat)).map (fun i =>
              let c := d.start.toNat + i
              mkCell 1 h.src h.tag (BitVec.ofNat 19 c)
                (.readData t (tagDigest j t) (padTo ((b.drop ((c - 1) * 480)).take 480) 480))))))

/-! ### Credits of the optical receive class (R214, R216, R346) -/

/-- Credits of each class on a canopy die; class 3 is optical receive for requests and bulk, class 6 the part kept for responses
and control. -/
def creditPool (cls : Nat) : Nat := match cls with | 0 => 3072 | 1 => 2048 | 2 => 1024 | 3 => 1536 | 4 => 3072 | 5 => 6144 | _ => 512
def creditsUsed (s : State) (die cls : Nat) : Nat := tget 0 s.credits (7 * die + cls)
def creditsFree (s : State) (die cls : Nat) : Nat := creditPool cls - creditsUsed s die cls

/-- The backpressure that the free credits ask for (R217): it starts at the ON mark or fewer, and ends at the OFF mark or more. -/
def backpressure (s : State) : State :=
  let hostLow := (List.range 4).any (fun d => creditsFree s d 2 ≤ s.hub.hostOn.toNat)
  let hostHigh := (List.range 4).all (fun d => s.hub.hostOff.toNat ≤ creditsFree s d 2)
  let orx := (List.range 4).foldl (fun (m : BitVec 4) d =>
    if creditsFree s d 3 ≤ s.hub.orxOn.toNat then m ||| ((1 : BitVec 4) <<< d)
    else if s.hub.orxOff.toNat ≤ creditsFree s d 3 then m &&& ~~~((1 : BitVec 4) <<< d) else m) s.hub.orxHold
  { s with hub := { s.hub with hostHold := if hostLow then true else if hostHigh then false else s.hub.hostHold, orxHold := orx } }

/-- Take a credit of a class on a die. -/
def takeCredit (s : State) (die cls : Nat) : State :=
  backpressure { s with credits := tset 0 s.credits (7 * die + cls) (creditsUsed s die cls + 1) }

/-- CREDIT_RETURN: a line leaves its staging buffer, and its credit returns to its class (R214, R217). -/
def execCreditReturn (die : Fin 4) (cls : Fin 7) (s : State) : Host.Outcome State Fault Refusal :=
  if creditsUsed s die.val cls.val = 0 then .next s
  else .next (backpressure { s with credits := tset 0 s.credits (7 * die.val + cls.val) (creditsUsed s die.val cls.val - 1) })

/-- The canopy die that a cell's line enters. -/
def cellDie (s : State) (a : Nat) : Nat :=
  match s.job with
  | some j => (match segAt j a with | some g => homeDie s g a | none => 0)
  | none => 0

/-- Apply the next cell of an open record (R359 to R364, R366). The flags of a reduce belong to no command of this device (log 46). -/
def takeData (s : State) (k : Nat) (h : CellHdr) (r : InRec) (payload : Bytes) : State :=
  let d := r.head
  let off := (h.cidx.toNat - 1) * 480
  let b := payload.take (d.len.toNat - off)
  let r1 := { r with last := h.cidx, lost := false, time := s.hub.time }
  let x : CellRes := if r.frozen then { s := s } else applyCell s (jobOf s) d h.src off b
  if x.err ≠ 0 then refuse (setRec x.s h.src h.tag (some { r with st := .closed })) k h x.err r.last
  else if h.cidx.toNat < cellCount d.len.toNat then setRec x.s h.src h.tag (some r1)
  else answer (setRec (arriveCount x.s d.rcnt.toNat) h.src h.tag (some { r1 with st := .complete })) k 1 h 0 (.completion r.frozen r.strict)

/-- The device address that a data cell's bytes begin at. -/
def cellAddr (r : InRec) (h : CellHdr) : Nat := r.head.raddr.toNat + (h.cidx.toNat - 1) * 480

/-- A data cell that its record would apply finds no optical-receive credit on its die, and waits in its port's buffer (R346). -/
def cellWaits (s : State) (h : CellHdr) : Bool :=
  h.dst = s.hub.fabAddr &&
  (match recOf s h.src h.tag with
   | some r => r.st = .opened && decide (h.cidx.toNat = r.last.toNat + 1) && decide (creditsFree s (cellDie s (cellAddr r h)) 3 = 0)
   | none => false)

/-- DATA_CELL_RECEIVE: the target applies, discards or answers a data cell by its CIDX (R366), and completes the transfer at the last
one (R364). Every cell of an open record renews its time. -/
def execDataCellReceive (k : Fin 32) (h : CellHdr) (payload : Bytes) (s : State) : Host.Outcome State Fault Refusal :=
  if cellWaits s h then .next s
  else .next (takeCell s k.val h (payload.all (fun b => b = 0)) (fun s _ =>
    if h.vc ≠ 2 || h.kind ≠ 1 || s.fab.dead.contains (h.src, h.tag) then s
    else match recOf s h.src h.tag with
      | none => s
      | some r =>
        let r0 := { r with time := s.hub.time }
        let s0 := setRec s h.src h.tag (some r0)
        if r.st ≠ .opened then s
        else if jobStopped s r.head.jobId then answer s0 k.val 1 h 0 (.preempted r.last)
        else if h.cidx.toNat ≤ r.last.toNat then s0
        else if r.last.toNat + 1 < h.cidx.toNat then
          if r.lost then s0
          else answer (setRec s h.src h.tag (some { r0 with lost := true })) k.val 1 h 0 (.position r.last)
        else takeData (takeCredit s (cellDie s (cellAddr r h)) 3) k.val h r payload))

/-- TRANSFER_RECORD_TIMEOUT: an open or cancelled record that receives no cell for 1 ms is closed with a refusal that carries the last cell applied
(R366). -/
def execTransferRecordTimeout (src : BitVec 16) (tag : BitVec 13) (s : State) : Host.Outcome State Fault Refusal :=
  match recOf s src tag, pairOf s src with
  | some r, some p =>
    if !(r.st = .opened || r.st = .cancelled) || !hubUp s then .next s
    else
      let s1 := setRec (advanceTo s (r.time.toNat + 1000000)) src tag (some { r with st := .closed })
      match portsBoth s1 p with
      | [] => .next s1
      | k :: _ => .next (sendCells s1 k [mkCell 1 src tag 0 (.refusal 0 r.last)])
  | _, _ => .next s

/-! ### Answers at the sender (R364 to R369) -/

/-- The outgoing transfer that an answer of a peer names. -/
def ourXfer (s : State) (h : CellHdr) : Option Xfer :=
  s.fab.xfers.find? (fun x => x.tag = h.tag && xDst x = h.src && x.st ≠ .waiting)

/-- A response cell's line takes one of the credits kept for responses while one is free; such a cell is always accepted (R216, R346). -/
def takeResponse (s : State) (die : Nat) : State := if creditsFree s die 6 = 0 then s else takeCredit s die 6

/-- RESPONSE_CELL_RECEIVE: data of a read (R359, R364): written at LADDR if this device holds the owner's key digest, else discarded
and the transfer fails. A gap leaves the cells after it to a later query. -/
def execResponseCellReceive (k : Fin 32) (h : CellHdr) (owner : Tag) (digest : Digest) (payload : Bytes) (s : State) : Host.Outcome State Fault Refusal :=
  .next (takeCell s k.val h (payload.all (fun b => b = 0)) (fun s _ =>
    match ourXfer s h with
    | none => s
    | some x =>
      let j := jobOf s
      let off := (h.cidx.toNat - 1) * 480
      if h.vc ≠ 1 || h.kind ≠ 2 || xKind x ≠ 1 || !(jobSt s = 2 || jobSt s = 3 || jobSt s = 7) then s
      else if h.cidx.toNat ≠ x.rxLast.toNat + 1 then s
      else if isTenant owner && !(isBound j owner.toNat && (tenOf j owner.toNat).digest = digest) then failXfer s x stOwnerMix
      else
        let d : Head := { headOf s x owner with raddr := fieldBv x.desc 8 8 64, kind := 0 }
        let bad := (pieces (xLaddr x + off) (payload.take (xLen x - off))).findSome? (fun p =>
          match writeCheck s j (xPlace s x).eval (256 * lineOf p.1) 256 owner with | .error e => some e | .ok _ => none)
        match bad with
        | some e => failXfer s x e
        | none =>
          let s1 := (applyCell (takeResponse s (cellDie s (xLaddr x + off))) j d s.hub.fabAddr off (payload.take (xLen x - off))).s
          if h.cidx.toNat < cellCount (xLen x) then updXfer s1 x.id (fun y => { y with rxLast := h.cidx, since := s.hub.time })
          else completeXfer s1 x false false))

/-- Responses to the job's own requests are accepted until step 4 of R327 (R330). -/
def hearsAnswers (s : State) : Bool := jobSt s = 2 || jobSt s = 3 || jobSt s = 7

/-- COMPLETION_RESPONSE: the transfer completes at the sender (R364); a drop at a frozen target marks the command (R509). Once the job's requests
are cancelled it is no longer accepted (R330): the peer is asked again on resume. -/
def execCompletionResponse (k : Fin 32) (h : CellHdr) (dropped strict : Bool) (s : State) : Host.Outcome State Fault Refusal :=
  .next (takeCell s k.val h false (fun s _ =>
    match ourXfer s h with
    | none => s
    | some x => if h.vc = 1 && h.kind = 2 && xKind x ≠ 1 && hearsAnswers s then completeXfer s x dropped strict else s))

/-- Send a transfer again from a cell on (R367, R369). A closed record, or a first head that was lost, needs a head (R370). -/
def resend (s : State) (x : Xfer) (start : BitVec 19) (withHead : Bool) : State :=
  let y := { x with start := if xKind x = 1 then x.rxLast + 1 else start, preSince := none }
  match pairOf s (xDst x) with
  | none => failXfer s x stDevice
  | some p => launch (updXfer s x.id (fun _ => y)) y p x.owner (withHead || start.toNat ≤ 1)

/-- The hub resends work of its job now. -/
def jobRunsNow (s : State) : Bool := jobSt s = 2 || jobSt s = 7

/-- Record where a transfer goes on, while its job is stopped (R329): a reduce after the last cell applied; reads and writes are reissued
whole. -/
def recordPos (s : State) (x : Xfer) (start : BitVec 19) : State :=
  updXfer s x.id (fun y => { y with st := .resend, start := if xKind x = 2 then start else 1, rxLast := 0 })

/-- REFUSAL_RECEIVE: a transfer fails with the target's status (R358, R365); a refusal of a closed record makes the sender go on from the
cell after the last one applied (R366, R367). -/
def execRefusalReceive (k : Fin 32) (h : CellHdr) (status : Byte) (last : BitVec 19) (s : State) : Host.Outcome State Fault Refusal :=
  .next (takeCell s k.val h false (fun s _ =>
    match ourXfer s h with
    | none => s
    | some x =>
      if h.vc ≠ 1 || h.kind ≠ 2 then s
      else if status ≠ 0 then (if hearsAnswers s then failXfer s x status else s)
      else if jobRunsNow s then resend s x (last + 1) true else recordPos s x (last + 1)))

/-- TARGET_PREEMPTED_ANSWER: the target is stopped (R368): the sender remembers the next cell and since when it is refused. -/
def execTargetPreemptedAnswer (k : Fin 32) (h : CellHdr) (last : BitVec 19) (s : State) : Host.Outcome State Fault Refusal :=
  .next (takeCell s k.val h false (fun s _ =>
    match ourXfer s h with
    | none => s
    | some x =>
      if h.vc ≠ 1 || h.kind ≠ 2 then s
      else if jobSt s = 4 then recordPos s x (last + 1)
      else updXfer s x.id (fun y => { y with st := .preempted, start := last + 1, since := s.hub.time,
                                             preSince := some (y.preSince.getD s.hub.time) })))

/-- PREEMPTED_RETRY_TIMER: 100 µs after such an answer the sender resends from the next cell; refused for longer than the meet limit,
the transfer fails with PROGRAM_FAULT (R368). -/
def execPreemptedRetryTimer (id : Nat) (s : State) : Host.Outcome State Fault Refusal :=
  match s.fab.xfers.find? (fun x => x.id = id) with
  | none => .next s
  | some x =>
    if x.st ≠ .preempted || !jobRunsNow s || !hubUp s then .next s
    else
      let s1 := advanceTo s (x.since.toNat + 100000)
      let first := (x.preSince.getD x.since).toNat
      if first + (jobOf s).meetMs * 1000000 < s1.hub.time.toNat then .next (failXfer s1 x stProgram)
      else
        let keep := x.preSince
        let s2 := resend s1 x x.start true
        .next (updXfer s2 id (fun y => { y with preSince := keep }))

/-- POSITION_QUERY: the target answers with the last cell applied (R367); a cancel makes it discard later cells until a resend (R329). A
record that is complete answers with its completion again (log 45). -/
def execPositionQuery (k : Fin 32) (h : CellHdr) (cancel : Bool) (s : State) : Host.Outcome State Fault Refusal :=
  .next (takeCell s k.val h false (fun s _ =>
    if h.vc ≠ 3 || h.kind ≠ 3 then s
    else match recOf s h.src h.tag with
      | none => answer s k.val 1 h 0 (.position 0)
      | some r =>
        match r.st with
        | .complete => answer s k.val 1 h 0 (.completion r.frozen r.strict)
        | .closed => refuse s k.val h 0 r.last
        | _ => answer (if cancel then setRec s h.src h.tag (some { r with st := .cancelled }) else s) k.val 1 h 0 (.position r.last)))

/-- POSITION_ANSWER: the sender resends from the cell after the last one applied (R367, R369); for a stopped job the point is recorded
(R329). -/
def execPositionAnswer (k : Fin 32) (h : CellHdr) (last : BitVec 19) (s : State) : Host.Outcome State Fault Refusal :=
  .next (takeCell s k.val h false (fun s _ =>
    match ourXfer s h with
    | none => s
    | some x =>
      if h.vc ≠ 1 || h.kind ≠ 2 || !(x.st = .sent || x.st = .queried) then s
      else if jobRunsNow s then resend s x (last + 1) false
      else recordPos s x (last + 1)))

/-- A cell of a transfer still waits on its port. -/
def cellsWait (s : State) (x : Xfer) : Bool := (portOf s x.port).txq.any (fun c => c.tag = x.tag && c.dst = xDst x && (c.vc = 0 || c.vc = 2))

/-- COMPLETION_TIMEOUT: no completion 1 ms after the last cell was sent (R367). -/
def execCompletionTimeout (id : Nat) (s : State) : Host.Outcome State Fault Refusal :=
  match s.fab.xfers.find? (fun x => x.id = id) with
  | none => .next s
  | some x => if x.st ≠ .sent || !hubUp s || cellsWait s x then .next s else .next (query (advanceTo s (x.since.toNat + 1000000)) x false)

/-- POSITION_QUERY_TIMEOUT: 50 µs pass without an answer (R367): the query is sent again, and the third fails the transfer with
DEVICE_FAULT. -/
def execPositionQueryTimeout (id : Nat) (s : State) : Host.Outcome State Fault Refusal :=
  match s.fab.xfers.find? (fun x => x.id = id) with
  | none => .next s
  | some x =>
    if x.st ≠ .queried || !hubUp s || !jobRunsNow s then .next s
    else
      let s1 := advanceTo s (x.since.toNat + 50000)
      if 3 ≤ x.queries then .next (failXfer s1 x stDevice) else .next (query s1 x false)

/-! ### A port goes down (R342, R367) -/

/-- A port leaves service in a state (4 down, 5 disabled, 6 fenced): its transfers are queried and every pair is sent the new mask. -/
def portLeaves (s : State) (k : Nat) (st : BitVec 3) : State :=
  let s1 := setPort s k { linkCleared (portOf s k) with st := st }
  let s2 := (s1.fab.xfers.filter (fun x => x.port = k && x.st = .sent)).foldl (fun s x => query s x false) s1
  sendMasks s2

/-- A port that must replay its oldest cell once more after 8 replays of it goes down instead (R342, log 43). -/
def replayOrDown (s : State) (k : Nat) (n : BitVec 16) : State :=
  let p := portOf s k
  if 8 ≤ p.replays && (match p.unacked with | u :: _ => u.1 = n | [] => false) then portLeaves s k 4 else replayFrom s k n

/-- A port applies a good link cell's counts (R340, R341, R345); one that fails its CRC is ignored. -/
def execLinkCellReceive (k : Fin 32) (c : LinkCell) (s : State) : Host.Outcome State Fault Refusal :=
  let p := portOf s k.val
  if p.st ≠ 3 || !hubUp s || !c.crcOk then .next s
  else
    let first := match p.unacked.head? with | some u => u.1 | none => p.txSeq
    let n := (c.ack - first).toNat
    let got := n ≤ p.unacked.length
    let s1 := setPort s k.val { p with
      unacked := if got then p.unacked.drop n else p.unacked,
      linkAt := s.hub.time,
      replays := if got && n ≠ 0 then 0 else p.replays,
      ackAt := if got && n ≠ 0 then s.hub.time else p.ackAt,
      peerCred := (List.range 4).foldl (fun t vc => tset 0 t vc (c.cred.extractLsb' (16 * vc) 16)) p.peerCred }
    let s2 := if c.nakv then replayOrDown s1 k.val c.nak else s1
    .next (pump s2 k.val)

/-- ACK has not advanced for 20 µs while cells are unacknowledged (R341): replay from the oldest. -/
def execReplayTimeout (k : Fin 32) (s : State) : Host.Outcome State Fault Refusal :=
  let p := portOf s k.val
  match p.unacked with
  | [] => .next s
  | u :: _ => if p.st ≠ 3 || !hubUp s then .next s else .next (replayOrDown (advanceTo s (p.ackAt.toNat + 20000)) k.val u.1)

/-- PORT_DOWN: a wavelength has lost its lock for more than 10 µs, or no valid link cell has come for 20 µs (R342); the third cause is
`replayOrDown`. The command says that one of them has come about, and its time passes. -/
def execPortDown (k : Fin 32) (s : State) : Host.Outcome State Fault Refusal :=
  let p := portOf s k.val
  if p.st ≠ 3 then .next s
  else .next (portLeaves (advanceTo s (if p.lock ≠ 0xFF then p.lostAt.toNat + 10000 else p.linkAt.toNat + 20000)) k.val 4)

end Sys2Proof.Machine
end

