-- ==== Sys2Proof/Machine/Jobs.lean ====
section
/-! DEFINITION. Jobs (R300 to R308, R326 to R333): opening, closing, pre-emption and resumption, and the ending of a job that resets and die resets share. -/

namespace Sys2Proof.Machine

/-! ### The parameter block (R302, R303) -/

/-- Bytes of a tile-buffer way for a WAYSIZE code (R302, R210). -/
def wayBytes (code : Nat) : Nat := match code with | 1 => 65536 | 2 => 131072 | 3 => 262144 | 4 => 524288 | _ => 0

/-- A field that takes a default where it reads 0 (R302). -/
def orDefault (n d : Nat) : Nat := if n = 0 then d else n

/-- The job that a parameter block describes (R302), with the egress base and the nonce in force (R447, R415); domain 0 holds every quad
and way (R208). -/
def jobOfBlock (b : Bytes) (egr : BitVec 40) (nonce : Digest) : Job :=
  { id := fieldBv b 0 4 32, st := 2, pblock := b, preempt := flagAt b 4 0, strict := flagAt b 4 1, fixed := flagAt b 4 2,
    waySize := wayBytes (fieldLe b 5 1), stepSlot := fieldBv b 6 1 8, exclog := fieldLe b 7 1,
    managed := (List.range 4).map (fun d => fieldLe b (8 + d) 1), meetMs := orDefault (fieldLe b 12 4) 1000,
    drainUs := orDefault (fieldLe b 16 4) 200, stepRows := fieldLe b 20 2, chunk := fieldLe b 22 2, pageKib := fieldLe b 24 4,
    periodUs := fieldLe b 28 4, excBase := fieldBv b 32 8 48, fcast := fieldBv b 40 8 48, rowTab := fieldBv b 48 8 48,
    saveHome := fieldBv b 56 8 48, stepGlades := fieldBv b 64 16 128, rings := fieldBv b 80 32 256, egr := egr, nonce := nonce,
    doms := [(0, { quads := 0xFF, cways := 0xFFFF, tways := 0xFFFF, valid := true })] }

/-- The areas that a job's opening places in the managed region (R303, R447). -/
def jobAreas (b : Bytes) (egr : BitVec 40) : List (Nat × Nat) :=
  [(fieldLe b 32 8, 32 * 2 ^ fieldLe b 7 1), (fieldLe b 40 8, 32768), (fieldLe b 48 8, 32 * fieldLe b 20 2)] ++
  (if egr = 0 then [] else [(egr.toNat * 256, 131072)])

def overlap (a m b n : Nat) : Bool := decide (a < b + n) && decide (b < a + m)

/-- No two areas of a list overlap. -/
def disjointAreas : List (Nat × Nat) → Bool
  | [] => true
  | x :: r => r.all (fun y => !overlap x.1 x.2 y.1 y.2) && disjointAreas r

/-- JOB_OPEN's conditions (R303, R447, R499). -/
def openOk (s : State) (b : Bytes) : Bool :=
  let j := jobOfBlock b s.hub.egr 0
  let home := fieldLe b 56 8
  s.job.isNone && j.id ≠ 0 && !s.saved.any (fun v => v.job.id = j.id) &&
  fieldLe b 4 1 < 8 && fieldLe b 5 1 ≤ 4 && 8 ≤ j.exclog && j.exclog ≤ 16 && j.managed.all (fun m => m ≤ 20) &&
  1 ≤ j.stepRows && j.stepRows ≤ 4096 && 1 ≤ j.chunk && j.chunk ≤ 4096 && j.pageKib % 4 = 0 && !j.rings.getLsbD 0 && zeroAt b 112 144 &&
  (jobAreas b s.hub.egr).all (fun x => rangeManaged j x.1 x.2) && disjointAreas (jobAreas b s.hub.egr) &&
  (if j.preempt then cxlBase ≤ home && home + 8 * gib ≤ cxlBase + 512 * gib else home = 0) &&
  s.saved.all (fun v => v.job.rings &&& j.rings = 0) &&
  (List.range 4).all (fun d => !(s.fences.canopy.getLsbD d) || j.managed.getD d 0 = 0)

/-! ### Ending a job (R306, R472, R474, R500) -/

/-- Finish every command of a job that is not finished (R306). -/
def finishAll (s : State) (id : BitVec 32) (st : Byte) : State :=
  { s with cmds := s.cmds.map (fun c => if c.ring ≠ 0 && c.job = id && c.ph ≠ .done then
    { c with ph := .done, status := finalStatus c st, result := endResult s c } else c) }

/-- The mapping of the channels in service takes effect once no job is current or saved (R191, R500). -/
def remapIfFree (s : State) : State :=
  if s.job.isNone && s.saved = [] then { s with fences := { s.fences with unmapped := s.fences.chan } } else s

/-- A half that acts and holds the hub's epoch adopts a raised one with the transition it carries out (R503); another stays behind. -/
def adopts (s : State) (h : Nat) : Half :=
  let x := halfOf s h
  if !x.stopped && !x.withheld && x.epoch = s.epoch then { x with epoch := s.epoch + 1 } else x

/-- The hub raises the command epoch (R503). -/
def raiseEpoch (s : State) : State := { setHalf (setHalf s 0 (adopts s 0)) 1 (adopts s 1) with epoch := s.epoch + 1 }

/-- Forget the incoming transfers of a job. -/
def dropRecs (s : State) (id : BitVec 32) : State := { s with fab := { s.fab with recs := s.fab.recs.filter (fun r => r.head.jobId ≠ id) } }

/-- The info strings of a job's memory keys (R415). -/
def jobKeys (j : Job) : List Bytes :=
  jobInfo j :: (j.tenants.map (fun e => tenantInfo e.1 e.2.digest) ++ [keyOf j tagBaseA, keyOf j tagBaseB].filterMap id)

/-- Drop a job's expanded keys from every key cache (R306). -/
def dropKeys (s : State) (j : Job) : State :=
  { s with kcache := s.kcache.foldl (fun t e => tset [] t e.1 (e.2.filter (fun k => !(jobKeys j).contains k))) [] }

/-- The current job leaves the device (R306): its stores are zeroed, its keys, sessions, rings and ranges released. -/
def releaseJob (s : State) : State :=
  let s1 := dropKeys (dropRecs (zeroStores s) (jobOf s).id) (jobOf s)
  let s2 : State := { s1 with job := none, fab := { s1.fab with xfers := [] }, rgr := { s1.rgr with sessions := [] } }
  sendBindings (raiseEpoch (remapIfFree s2))

/-- End the current job at once: its uncompleted commands finish with a status, and it is released (R306, R472, R474). -/
def endJob (s : State) (st : Byte) : State := releaseJob (finishAll s (jobOf s).id st)

/-- End a saved job: its image is discarded, its uncompleted commands finish with a status, its keys are dropped, and the stores are zeroed
where no other job is current in them (R306, R500, log 26). -/
def dropSaved (s : State) (id : BitVec 32) (st : Byte) : State :=
  let s0 := (s.saved.filter (fun v => v.job.id = id)).foldl (fun s v => dropKeys s v.job) (if s.job.isNone then zeroStores s else s)
  let s1 := dropRecs (finishAll s0 id st) id
  remapIfFree { s1 with saved := s1.saved.filter (fun v => v.job.id ≠ id) }

/-- The save area: the last 1 GiB of the backed part of each quad (R189). -/
def saveArea (s : State) : List (Nat × Nat) :=
  ((List.range 8).filter (fun q => gib ≤ backedSize s q)).map (fun q => (q * quadSize + backedSize s q - gib, gib))

/-- A saved image takes the lines of the SAVE_HOME range at `a`: what lay in the range is gone, in memory and in host memory, with its tags.
State keeps the image beside memory (log 15). -/
def homeCleared (s : State) (a : Nat) : State :=
  let s1 := clearLines s a (8 * gib)
  let b := s.hub.winBase.toNat * gib + (a - cxlBase)
  { s1 with host := clearRange (clearRange s1.host b (8 * gib)) (hostTagAt s (lineOf a)) (8 * gib / 32) }

/-- A saved job's image takes the lines of its SAVE_HOME range, under its job key and save count (R304, R418). -/
def imageHome (s : State) (v : Saved) : State :=
  let s1 := homeCleared s v.job.saveHome.toNat
  { s1 with saved := s1.saved.map (fun w => if w.job.id = v.job.id then { w with inArea := false, spoiled := false } else w) }

/-- Somebody has written into a SAVE_HOME range since the image came there (R423). -/
def imageHurt (s : State) (v : Saved) : Bool :=
  !v.inArea && (v.spoiled || s.seals.any (fun e => decide (v.job.saveHome.toNat ≤ 256 * e.1) && decide (256 * e.1 < v.job.saveHome.toNat + 8 * gib)))

/-- Move every image but one job's out of the save area (R304, R331); a job whose image lay partly on a fenced channel is ended
(R500). -/
def clearArea (s : State) (keep : BitVec 32) : State :=
  s.saved.foldl (fun s v =>
    if v.job.id = keep || !v.inArea then s
    else if v.lost then dropSaved s v.job.id stDevice
    else imageHome s v) s

/-! ### JOB_OPEN (R303, R304, R225, R230) -/

/-- The forecast table's lines carry the tag of their generation (R225). -/
def fcastTags (s : State) (base : Nat) : State :=
  (linesOf base 32768).foldl (fun s l => setTag s (lineOf l) (if l < base + 16384 then tagBaseA else tagBaseB)) s

/-- JOB_OPEN reads the parameter block from host memory and opens the job (R302 to R304): no glade has faulted in it yet (R183), and the domain
registers show its domains (R209). A base-owner digest recorded while no job was current goes with it (R441, log 54). -/
def execJobOpen (acc : BitVec 64) (s : State) : Host.Outcome State Fault Refusal :=
  onCmd s acc 0x40 (fun c =>
    let b := rdBytes s.host (opN c 0 8) 256
    if opN c 0 8 % 256 ≠ 0 || !openOk s b then finish s acc stPolicy
    else
      let j := jobOfBlock b s.hub.egr (nextRandom s)
      let s1 := zeroStores (drawRandom (clearArea s 0))
      let s2 : State := { s1 with
        job := some { j with baseA := { j.baseA with owner := s.rgr.ownA }, baseB := { j.baseB with owner := s.rgr.ownB } },
        glades := [], domShow := j.doms,
        rgr := { s1.rgr with ownA := none, ownB := none },
        hub := { s1.hub with exc := [], frozenDrop := 0, parkTimeouts := 0, parkFull := 0 } }
      finish (sendBindings (raiseEpoch (fcastTags s2 j.fcast.toNat))) acc stOk)

/-! ### JOB_CLOSE (R306) -/

/-- JOB_CLOSE of a saved job, whatever its ABORT flag; POLICY where no job has that JOB_ID (R306). -/
def closeOther (s : State) (acc : BitVec 64) (id : BitVec 32) : State :=
  if s.saved.any (fun v => v.job.id = id) then finish (sendBindings (raiseEpoch (dropSaved s id stAborted))) acc stOk
  else finish s acc stPolicy

/-- JOB_CLOSE with ABORT 0 first stops the fetching of the job's rings, with the frames already accepted taken in and every stream
disabled; it ends the job once every accepted command of it has completed (R306). -/
def execJobClose (acc : BitVec 64) (s : State) : Host.Outcome State Fault Refusal :=
  onCmd s acc 0x41 (fun c =>
    let id : BitVec 32 := opB c 0 4 32
    if opN c 4 1 ≠ 0 then s
    else match s.job with
      | none => closeOther s acc id
      | some j =>
        if j.id ≠ id then closeOther s acc id
        else if j.st ≠ 7 then
          let s1 := (s.cmds.filter (fun d => d.ring ≠ 0 && d.job = id && opcOf d = 0x04)).foldl (fun s d => frameIntake s d (jobOf s)) s
          let j1 := jobOf s1
          updCmd { s1 with job := some { j1 with st := 7, streams := j1.streams.map (fun e => (e.1, { e.2 with enabled := false })) } } acc
            (fun d => { d with ph := .running })
        else if s.cmds.all (fun d => !(d.ring ≠ 0 && d.job = id) || d.ph = .done) then finish (releaseJob s) acc stOk
        else s)

/-- JOB_CLOSE with ABORT 1: every accepted command of the job that has not completed completes with ABORTED, and the job ends (R306). -/
def execJobCloseAbort (acc : BitVec 64) (s : State) : Host.Outcome State Fault Refusal :=
  onCmd s acc 0x41 (fun c =>
    let id : BitVec 32 := opB c 0 4 32
    if opN c 4 1 = 0 then s
    else if s.job.any (fun j => j.id = id) then finish (endJob s stAborted) acc stOk
    else closeOther s acc id)

/-! ### Stopping and going on (R327, R331, R469) -/

/-- Ask every glade that works to stop at its next step boundary (R327, R468). -/
def stopGlades (s : State) (p : Nat → Bool) : State :=
  s.glades.foldl (fun s e => if e.2.cmd ≠ 0 && p e.1 && !gladeEnded e.2 then setGlade s e.1 { gladeOf s e.1 with stopReq := true } else s) s

/-- Every glade has reached its step boundary. -/
def gladesAtRest (s : State) : Bool := s.glades.all (fun e => e.2.cmd = 0 || gladeEnded e.2)

/-- An engine goes on from where it stopped, at its saved program counter and progress word (R331). -/
def goOn (e : Eng) : Eng := if e.st = .stopped then { e with st := e.resumeSt, resumeSt := .idle } else e

/-- Restart the stopped glades among some (R331, R469, R504). -/
def restartGlades (s : State) (p : Nat → Bool) : State :=
  s.glades.foldl (fun s e =>
    let g := gladeOf s e.1
    if g.cmd ≠ 0 && p e.1 then setGlade s e.1 { g with ae := goOn g.ae, xe := goOn g.xe, stopReq := false, stopped := false } else s) s

/-- Time during which a job was stopped does not count toward its meet and park limits (R180, R332, R368). -/
def shiftTimes (s : State) (dt : BitVec 64) : State :=
  let eng := fun (e : Eng) => if e.st = .waitMeet || e.resumeSt = .waitMeet then { e with stalledAt := e.stalledAt + dt } else e
  { s with
    glades := s.glades.foldl (fun t e => tset {} t e.1 { e.2 with ae := eng e.2.ae, xe := eng e.2.xe }) [],
    job := s.job.map (fun j => { j with seqs := j.seqs.map (fun q => if q.st = .parked then { q with parkAt := q.parkAt + dt } else q) }),
    fab := { s.fab with xfers := s.fab.xfers.map (fun x => { x with preSince := x.preSince.map (· + dt) }) } }

/-- The ring 0 command of an opcode that is running. -/
def runningCtl (s : State) (opc : Byte) : Option Cmd := s.cmds.find? (fun c => c.ring = 0 && opcOf c = opc && c.ph = .running)

/-! ### JOB_PREEMPT (R326 to R330) -/

/-- JOB_PREEMPT takes effect: the job starts nothing more and its glades are asked to stop (R326, R327 steps 1 and 2). -/
def execJobPreempt (acc : BitVec 64) (s : State) : Host.Outcome State Fault Refusal :=
  onCmd s acc 0x42 (fun c =>
    if c.ph ≠ .accepted then s
    else match s.job with
      | none => finish s acc stPolicy
      | some j =>
        if j.id ≠ opB c 0 4 32 || j.st ≠ 2 || !j.preempt || 4 ≤ s.saved.length then finish s acc stPolicy
        else
          let s1 := updCmd { s with job := some { j with st := 3 } } acc (fun d => { d with ph := .running, started := s.hub.time })
          raiseEpoch (stopGlades s1 (fun _ => true)))

/-- A remote request still outstanding is cancelled, and its peer is told (R329). A reduce whose peer has just answered goes on from there;
reads and writes are reissued whole. -/
def cancelXfer (s : State) (x : Xfer) : State :=
  match x.st with
  | .sent | .queried | .preempted =>
    let s1 := query s x true
    if xKind x ≠ 2 then updXfer s1 x.id (fun y => { y with st := .resend, start := 1, rxLast := 0 })
    else if x.st = .preempted then updXfer s1 x.id (fun y => { y with st := .resend })
    else s1
  | _ => s

/-- PREEMPT_DRAIN_END: every glade has stopped, and the remote requests have completed or DRAIN_US has passed since then; those left
are cancelled (R327 steps 3 and 4, R329). -/
def execPreemptDrainEnd (s : State) : Host.Outcome State Fault Refusal :=
  match s.job, runningCtl s 0x42 with
  | some j, some c =>
    if j.st ≠ 3 || !gladesAtRest s || !hubUp s then .next s
    else
      let open_ := s.fab.xfers.filter (fun x => x.st = .sent || x.st = .queried || x.st = .preempted)
      let s1 := if open_ = [] then s else advanceTo s (max c.started.toNat j.restAt.toNat + j.drainUs * 1000)
      let s2 := open_.foldl cancelXfer s1
      .next { s2 with job := s2.job.map (fun k => { k with st := 4 }) }
  | _, _ => .next s

/-- Step 4 ends with the peers' answers: a reduce still without one 50 µs after its cancel is recorded as unresolved (R327, R329). -/
def answersDue (s : State) : State :=
  (s.fab.xfers.filter (fun x => x.st = .queried)).foldl (fun s x => advanceTo s (x.since.toNat + 50000)) s

/-- The lines that the cache region holds of the window, whose contents a saved image takes along (R328). -/
def windowCached (s : State) (l : Nat) : Bool := isCxl (256 * l) && cached s l

/-- PREEMPT_SAVE_DONE: the state image has been written, to the save area or, while a channel is fenced, to SAVE_HOME (R328); the job is
SAVED and JOB_PREEMPT completes. What lay where the image goes is gone. -/
def execPreemptSaveDone (s : State) : Host.Outcome State Fault Refusal :=
  match s.job, runningCtl s 0x42 with
  | some j, some c =>
    if j.st ≠ 4 || !hubUp s then .next s
    else
      let s := answersDue s
      let j1 := { j with st := 5, saveCount := j.saveCount + 1 }
      let s0 := sendBindings { s with job := some j1 }
      let v : Saved :=
        { job := j1, glades := s.glades, mem := s.mem.filter (fun x => isCanopy x.1 || windowCached s (lineOf x.1)), tags := s.tags,
          ccache := s.ccache, seals := s.seals.filter (fun e => windowCached s e.1),
          poison := s.poison.filter (fun l => isCanopy (256 * l)), xfers := s.fab.xfers, exc := s.hub.exc, drops := s.hub.frozenDrop,
          parkTo := s.hub.parkTimeouts, parkFu := s.hub.parkFull, sess := s.rgr.sessions, time := c.started,
          inArea := s.fences.chan = 0 }
      let s2 := zeroStores s0
      let s3 : State := { s2 with saved := s2.saved ++ [v] }
      let s1 := if v.inArea then (saveArea s).foldl (fun s r => clearLines s r.1 r.2) s3 else homeCleared s3 j.saveHome.toNat
      .next (finish { s1 with job := none, fab := { s1.fab with xfers := [] }, rgr := { s1.rgr with sessions := [] } } c.acc stOk)
  | _, _ => .next s

/-! ### JOB_RESUME (R331, R472, R500) -/

/-- A window line comes back into the cache region as it was (R328): memory behind it stays as it is now. -/
def restoreLine (s : State) (e : Nat × Option Seal) : State :=
  let s1 := exposeLine s e.1
  { setSeal s1 e.1 e.2 with mem := clearRange s1.mem (256 * e.1) 256, raw := if s1.raw.contains e.1 then s1.raw else e.1 :: s1.raw }

/-- A saved job becomes the current job again, RESTORING: its glades, Canopy, registers and sessions are reloaded (R331 step 2). -/
def restoreJob (s : State) (v : Saved) : State :=
  let s1 := v.seals.foldl restoreLine (zeroStores s)
  shiftTimes { s1 with
    job := some { v.job with st := 6 },
    saved := s1.saved.filter (fun w => w.job.id ≠ v.job.id),
    glades := v.glades,
    mem := v.mem.foldl (fun m x => wr1 m x.1 x.2) s1.mem,
    tags := v.tags,
    ccache := v.ccache,
    poison := s1.poison ++ v.poison,
    fab := { s1.fab with xfers := v.xfers },
    rgr := { s1.rgr with sessions := v.sess, ownA := none, ownB := none },
    hub := { s1.hub with exc := v.exc, frozenDrop := v.drops, parkTimeouts := v.parkTo, parkFull := v.parkFu, egr := v.job.egr } }
    (s.hub.time - v.time)

/-- JOB_RESUME restores the named image, after any other image has left the save area (R331); it waits while a canopy die is held in a die
reset (R472), and a job whose image lay on a fenced channel is ended instead (R500). An image in SAVE_HOME that somebody has written into fails
its tags where the write met it, which the image's layout decides: the command then completes with INTEGRITY and the job stays saved
(R418, R423, log 15). -/
def execJobResume (acc : BitVec 64) (s : State) : Host.Outcome State Fault Refusal :=
  onCmd s acc 0x43 (fun c =>
    if c.ph ≠ .accepted then s
    else match s.saved.find? (fun v => v.job.id = opB c 0 4 32) with
      | none => finish s acc stPolicy
      | some v =>
        if s.job.isSome then finish s acc stPolicy
        else if (List.range 4).any (fun d => s.rst.held.getLsbD (16 + d)) then s
        else if v.inArea && v.lost then finish (raiseEpoch (dropSaved s v.job.id stDevice)) acc stDevice
        else if imageHurt s v && Config.choice s.free % 2 = 0 then finish { s with free := s.free + 1 } acc stIntegrity
        else updCmd (raiseEpoch (restoreJob (clearArea s v.job.id) v)) acc (fun d => { d with ph := .running, started := s.hub.time }))

/-- Glades of fenced dies fail the commands that stopped on them (R472, R498). -/
def failFenced (s : State) : State :=
  s.glades.foldl (fun s e =>
    let g := gladeOf s e.1
    if g.cmd ≠ 0 && gladeFenced s e.1 && !gladeFaulted g then faultGlade s e.1 .xe stDevice else s) s

/-- Reissue the recorded transfers: an unresolved reduce's peer is asked again (R329, R331); the others are sent by TRANSFER_START. -/
def reissue (s : State) : State :=
  (s.fab.xfers.filter (fun x => x.st = .queried)).foldl (fun s x => query s { x with queries := 0 } false)
    { s with fab := { s.fab with xfers := s.fab.xfers.map (fun x => { x with queries := 0 }) } }

/-- RESTORE_DONE: transfers are reissued, engines restart at their saved program counter and progress word, and the rings are fetched
again (R331 steps 3 to 5). -/
def execRestoreDone (s : State) : Host.Outcome State Fault Refusal :=
  match s.job, runningCtl s 0x43 with
  | some j, some c =>
    if j.st ≠ 6 || !hubUp s then .next s
    else
      let s1 := shiftTimes { s with job := some { j with st := 2 } } (s.hub.time - c.started)
      let s2 := failFenced (restartGlades (reissue s1) (halfActs s1))
      let s3 : State := { s2 with rings := s2.rings.foldl (fun t e => tset {} t e.1 (drainedIn s2 e.1 e.2)) [] }
      .next (finish (sendBindings s3) c.acc stOk)
  | _, _ => .next s

end Sys2Proof.Machine
end

