-- ==== Sys2Proof/Machine/Tables.lean ====
section
/-! DEFINITION. The control opcodes that fill the job's tables: SEG_SET, PROG_LOAD, BASE_LOAD, SLOT_BIND, SLOT_REVOKE, DOMAIN_SET (R201 to R208, R121 to R123, R260 to R262, R237 to R239, R251, R308, R391). -/

namespace Sys2Proof.Machine

/-! ### Pools, save areas and reserved ranges (R189, R251, R305, R308) -/

/-- A domain's share of a quad for its pools, in bytes. -/
def poolShare (d : Dom) : Nat := (d.apool.toNat + d.kvpool.toNat) * gib / max 1 (bitsSet d.quads.toNat 8).length

/-- Top of a quad's part that pools and segments share: its backed part without its save area while pre-emption is enabled (R189). -/
def quadTop (s : State) (j : Job) (q : Nat) : Nat := q * quadSize + backedSize s q - (if j.preempt then gib else 0)

/-- The pool ranges of a job's domains, at the top of each quad's part (R251, R308). -/
def poolRanges (s : State) (j : Job) : List (Nat × Nat) :=
  (List.range 8).flatMap (fun d =>
    let dm := domOf j d
    if dm.valid && poolShare dm ≠ 0 then (bitsSet dm.quads.toNat 8).map (fun q => (quadTop s j q - poolShare dm, poolShare dm)) else [])

/-- Every share fits below its quad's save area (R251, R308). -/
def poolsFit (s : State) (j : Job) : Bool :=
  (List.range 8).all (fun d =>
    let dm := domOf j d
    !dm.valid || (bitsSet dm.quads.toNat 8).all (fun q => poolShare dm + (if j.preempt then gib else 0) ≤ backedSize s q))

def hits (l : List (Nat × Nat)) (a n : Nat) : Bool := l.any (fun x => overlap x.1 x.2 a n)

/-- GDDR7 ranges of a job's valid segments. -/
def segRanges (j : Job) (p : Nat → Bool) : List (Nat × Nat) :=
  (j.segs.filter (fun e => e.2.valid && p e.1 && isGddr e.2.base.toNat)).map (fun e => (e.2.base.toNat, e.2.len.toNat))

/-- Ranges that saved jobs hold reserved (R305). -/
def reservedRanges (s : State) : List (Nat × Nat) :=
  s.saved.flatMap (fun v => segRanges v.job (fun _ => true) ++ poolRanges s v.job)

/-! ### SEG_SET (R201, R202, R207, R286) -/

/-- The entry of a SEG_SET (R201, R390). -/
def entryOf (c : Cmd) : Seg :=
  let w0 : BitVec 64 := opB c 8 8 64
  let w1 : BitVec 64 := opB c 16 8 64
  { base := w0.extractLsb' 0 48, owner := w0.extractLsb' 48 13, access := w0.extractLsb' 61 2, valid := w0.getLsbD 63,
    len := w1.extractLsb' 0 48, dom := w1.extractLsb' 48 3, enc := w1.getLsbD 51, vsrc := w1.extractLsb' 52 2,
    home := w1.extractLsb' 54 2, rowlog := w1.extractLsb' 56 4, vbase := opB c 24 6 48 }

/-- A range wholly inside the backed part of the quads that a domain holds, below their save areas (R202, R189). -/
def inQuads (s : State) (j : Job) (d : Dom) (a n : Nat) : Bool :=
  isGddr a && isGddr (a + n - 1) &&
  (List.range 8).all (fun q => !overlap (q * quadSize) quadSize a n ||
    (d.quads.getLsbD q && decide (min (a + n) ((q + 1) * quadSize) ≤ quadTop s j q)))

/-- The area of R202 that holds an entry's range. -/
inductive Area where
  | gddr | managed | window | outside
  deriving DecidableEq, Repr

/-- The window area leaves out the tag area (R422). -/
def areaOf (s : State) (j : Job) (g : Seg) : Area :=
  let a := g.base.toNat
  let n := g.len.toNat
  if inQuads s j (domOf j g.dom.toNat) a n then .gddr
  else if rangeManaged j a n then .managed
  else if cxlBase ≤ a && a + n ≤ cxlTag then .window
  else .outside

/-- SEG_SET's conditions on a valid entry at an index (R202, R286, R251, R305); the entry's domain must be valid (log 47). -/
def segOk (s : State) (j : Job) (ix : Nat) (g : Seg) : Bool :=
  let a := g.base.toNat
  let n := g.len.toNat
  let ar := areaOf s j g
  let cb := counterBytes g
  let others := j.segs.filter (fun e => e.1 ≠ ix && e.2.valid)
  (domOf j g.dom.toNat).valid && a % 4096 = 0 && n % 4096 = 0 && 4096 ≤ n && ar ≠ .outside &&
  others.all (fun e => !overlap e.2.base.toNat e.2.len.toNat a n) &&
  (ar = .managed || g.enc || (a = 0 && n = gib && g.owner = tagPublic)) &&
  (g.vsrc = 3) = isBase g.owner && (g.vsrc ≠ 3 || g.access = 2) &&
  (if cb = 0 then g.vbase = 0 else rangeManaged j g.vbase.toNat cb && others.all (fun e => counterBytes e.2 = 0 || !overlap e.2.vbase.toNat (counterBytes e.2) g.vbase.toNat cb)) &&
  (ar = .window || g.home = 0) &&
  !hits (poolRanges s j) a n && !hits (reservedRanges s) a n

/-- Drop the cached lines of a range from the Canopy cache region and from every tile-buffer cache (R198, R207, R211). -/
def dropCached (s : State) (a n : Nat) : State :=
  let out := fun (l : Nat) => !(lineOf a ≤ l && l < lineOf (a + n + 255))
  { s with ccache := s.ccache.filter (fun c => out c.line),
           glades := s.glades.foldl (fun t e => tset {} t e.1 { e.2 with cache := e.2.cache.filter (fun c => out c.line) }) [] }

/-- An open incoming transfer reaches a range (R359). -/
def incomingOn (s : State) (j : Job) (a n : Nat) : Bool :=
  s.fab.recs.any (fun r => r.st = .opened && r.head.jobId = j.id && overlap r.head.raddr.toNat r.head.len.toNat a n)

/-- Set every counter of a table to 0, its whole lines PUBLIC (R286). -/
def clearCounters (s : State) (a n : Nat) : State :=
  { s with mem := clearRange s.mem a n,
           tags := (linesOf a n).foldl (fun t l => if a ≤ l && l + 256 ≤ a + n then tset tagPublic t (lineOf l) tagPublic else t) s.tags }

/-- The ciphertext of a sealed line, as an unencrypted access sees it, stands in State as it is (R190, R418, log 6). -/
def scrubLine (s : State) (l : Nat) : State :=
  if (sealOf s l).isNone then s else setSeal { s with mem := wrBytes s.mem (256 * l) (storedLine s l) } l none

/-- Lines of a range that are sealed become the ciphertext they hold, as a segment with ENC 0 reads them. -/
def scrubRange (s : State) (a n : Nat) : State :=
  ((s.seals.map (·.1)).filter (fun l => decide (a ≤ 256 * l) && decide (256 * l < a + n))).foldl scrubLine s

/-- SEG_SET writes or removes an entry once every command that the job accepted before it has completed (R207) and no incoming transfer is open
on the range (R359). -/
def execSegSet (acc : BitVec 64) (s : State) : Host.Outcome State Fault Refusal :=
  onJob s acc 0x44 (fun c j =>
    let ix := opN c 0 2
    let g := entryOf c
    let o := segOf j ix
    if 4096 ≤ ix || 0x1003 ≤ g.owner.toNat then finish s acc stPolicy
    else if !earlierDone s acc j.id || (o.valid && incomingOn s j o.base.toNat o.len.toNat) ||
            (g.valid && incomingOn s j g.base.toNat g.len.toNat) then s
    else if g.valid && !segOk s j ix g then finish s acc stPolicy
    else
      let s1 := if o.valid then dropCached s o.base.toNat o.len.toNat else s
      let s2 := if g.valid then dropCached s1 g.base.toNat g.len.toNat else s1
      let s3 := if g.valid && counterBytes g ≠ 0 then clearCounters s2 g.vbase.toNat (counterBytes g) else s2
      let s4 := if g.valid && !g.enc && !isCanopy g.base.toNat then scrubRange s3 g.base.toNat g.len.toNat else s3
      finish { s4 with job := some { j with segs := tset {} j.segs ix (if g.valid then g else {}) } } acc stOk)

/-! ### PROG_LOAD (R121 to R123) -/

/-- The header conditions of R122 on an image of `n` bytes. -/
def imageOk (b : Bytes) (n : Nat) : Bool :=
  let w := fun o => fieldLe b o 4
  let secs : List (Nat × Nat × Bool) :=
    [(16 * w 16, 16 * (w 20 - w 16), decide (w 16 ≤ w 20)), (16 * w 24, 16 * (w 28 - w 24), decide (w 24 ≤ w 28)), (w 32, w 36, true)]
  w 0 = 0x4C4D4152 && w 4 = 0x00010000 && w 8 = n && zeroAt b 12 4 && zeroAt b 40 216 && w 32 % 256 = 0 &&
  secs.all (fun x => x.2.2 && decide (256 ≤ x.1) && decide (x.1 + x.2.1 ≤ n)) &&
  disjointAreas ((secs.filter (fun x => x.2.1 ≠ 0)).map (fun x => (x.1, x.2.1)))

/-- Bytes from PUBLIC segments: POLICY outside them (log 48), else the status of a line that cannot be read. -/
def readPublic (s : State) (j : Job) (a n : Nat) : Except Byte Bytes :=
  if (linesOf a n).any (fun l => match segAt j (max l a) with | some g => g.owner ≠ tagPublic | none => false) then .error stPolicy
  else match devRead s j a n with
    | .error e => .error e
    | .ok x => .ok x.1

/-- A running command of the job, or the serving step, uses a program slot (R123). -/
def progUsed (s : State) (j : Job) (slot : Byte) : Bool :=
  s.cmds.any (fun c => c.ring ≠ 0 && c.job = j.id && c.ph = .running && (opcOf c = 0x01 || opcOf c = 0x04) && c.slot = slot) ||
  (j.stepping && j.stepSlot = slot)

/-- A byte string as a memory from address 0. -/
def memOf (b : Bytes) : Mem := wrBytes [] 0 b

/-- PROG_LOAD reads, checks and measures an image, and puts it in force once no running command uses the slot (R121 to R123). -/
def execProgLoad (acc : BitVec 64) (s : State) : Host.Outcome State Fault Refusal :=
  onJob s acc 0x45 (fun c j =>
    let slot : Byte := opB c 0 1 8
    let n := opN c 16 8
    if n < 256 || 2 ^ 24 < n || n % 256 ≠ 0 then finish s acc stProgram
    else match readPublic s j (opN c 8 8) n with
      | .error e => finish s acc e
      | .ok b =>
        if !imageOk b n then finish s acc stProgram
        else if progUsed s j slot then s
        else finish { s with job := some { j with progs := tset {} j.progs slot.toNat { image := memOf b, size := n, digest := Config.sha256 b } } } acc stOk)

/-! ### BASE_LOAD (R260 to R262, R391) -/

/-- The entries of a base directory; none where an entry breaks its table (R391). -/
def baseDir (b : Bytes) : Option (List BaseEnt) :=
  let n := fieldLe b 0 8
  let ents := (List.range (min n (b.length / 16))).map (fun i => (b.drop (8 + 16 * i)).take 16)
  if b.length < 8 + 16 * n then none
  else if ents.all (fun e => decide (fieldLe e 1 1 ≤ 5) && zeroAt e 4 4 && decide (fieldLe e 8 8 % 256 = 0) && decide (fieldLe e 8 8 < b.length) &&
      (decide (fieldLe e 1 1 < 3) || decide (fieldLe e 2 2 = 0))) then
    some (ents.map (fun e => ⟨fieldLe e 0 1, fieldLe e 1 1, fieldLe e 2 2, fieldLe e 8 8⟩))
  else none

/-- A copy's place: the start of a segment of the tag, covered throughout by frozen segments of it (R390, R391). -/
def copyPlace (j : Job) (tag : Tag) (a n : Nat) : Bool :=
  j.segs.any (fun e => e.2.valid && e.2.base.toNat = a && e.2.owner = tag) && coveredBy j (fun g => g.owner = tag && g.access = 2) a n

/-- The fill of a frozen segment by its own command (R206): bytes and seals, line by line. -/
def fillLines (s : State) (j : Job) (a : Nat) (b : Bytes) : State :=
  let out := fun (l : Nat) => !(lineOf a ≤ l && l < lineOf (a + b.length + 255))
  let s1 : State := { s with mem := wrBytes s.mem a b, poison := s.poison.filter out, raw := s.raw.filter out }
  (linesOf a b.length).foldl (fun s l => match segAt j l with
    | some g => if isCanopy l then setTag s (lineOf l) g.owner else setSeal s (lineOf l) (sealFor s j g l)
    | none => s) s1

/-- BASE_LOAD unwraps an upload and loads a generation (R261, R391, R445): the tag's number rises by 1 (R260), the new generation is CURRENT
and the other OLD. -/
def execBaseLoad (acc : BitVec 64) (s : State) : Host.Outcome State Fault Refusal :=
  onJob s acc 0x46 (fun c j =>
    let k := opN c 0 1
    let tag := tagBase k
    let bg := baseOf j k
    let nat_ := opN c 24 8
    let trn := opN c 32 8
    let nlen := opN c 40 8
    if opN c 1 1 % 2 = 1 then s
    else if bg.loaded then finish s acc stPolicy
    else match readWrapped s j (uploadKey s (k + 1) 0) 2 0 (opN c 8 8) (opN c 16 8) with
      | .error e => finish s acc e
      | .ok b =>
        match baseDir (b.take nlen) with
        | none => finish s acc stPolicy
        | some tbl =>
          if b.length ≠ 2 * nlen || !copyPlace j tag nat_ nlen || !copyPlace j tag trn nlen then finish s acc stPolicy
          else if (linesOf nat_ nlen ++ linesOf trn nlen).any (onFenced s) then finish s acc stDevice
          else
            let own := bg.owner.getD 0
            let bg1 : BaseGen := { bg with
              num := bg.num + 1, loaded := true, current := true, digest := Config.sha256 b, table := tbl,
              nat := BitVec.ofNat 48 nat_, trn := BitVec.ofNat 48 trn, nlen := nlen, keyOwn := own }
            let ob := baseOf j (1 - k)
            let j1 := setBase (setBase j k bg1) (1 - k) { ob with current := false }
            let pad := fun (x : Bytes) => padTo x (alignUp nlen 256)
            let s1 := fillLines { s with job := some j1 } j1 nat_ (pad (b.take nlen))
            let s2 := fillLines s1 j1 trn (pad (b.drop nlen))
            finish (sendBindings (dropCached (dropCached s2 nat_ nlen) trn nlen)) acc stOk)

/-- BASE_LOAD with its retire flag: the tag's generation ends once every command accepted before it has completed (R262); its recorded
base-owner digest is cleared (R443) and its key is no longer held (R415). -/
def execBaseRetire (acc : BitVec 64) (s : State) : Host.Outcome State Fault Refusal :=
  onJob s acc 0x46 (fun c j =>
    let k := opN c 0 1
    if opN c 1 1 % 2 = 0 || !earlierDone s acc j.id then s
    else finish (sendBindings { s with job := some (setBase j k { num := (baseOf j k).num }) }) acc stOk)

/-! ### Tenant slots (R237 to R239) -/

/-- SLOT_BIND (R238); the default policy is installed (R451). A domain that is not valid is refused first (log 49). -/
def execSlotBind (acc : BitVec 64) (s : State) : Host.Outcome State Fault Refusal :=
  onJob s acc 0x48 (fun c j =>
    let t := opN c 0 2
    let d := opN c 2 1
    let cap : BitVec 16 := opB c 4 2 16
    let dig : Digest := opB c 8 32 256
    let o := tenOf j t
    if 4096 ≤ t || 8 ≤ d || !(domOf j d).valid then finish s acc stPolicy
    else if o.st = .free then
      finish { s with job := some (setTen j t { st := .bound, digest := dig, dom := BitVec.ofNat 3 d, resCap := cap, policy := defaultPolicy }) } acc stOk
    else if o.st = .bound && o.digest = dig then finish { s with job := some (setTen j t { o with resCap := cap }) } acc stOk
    else finish s acc stSlotOwned)

/-- The sequences of a tenant end with REVOKED (R239, R310): those outside the running step leave at once, the others at the next step
boundary. -/
def revokeSeqs (s : State) (t : Nat) : State :=
  let j := jobOf s
  let mine := fun (q : Sequence) => q.tenant = t
  let gone := j.seqs.filter (fun q => mine q && q.st ≠ .running)
  let s1 := gone.foldl (fun s q => finishWith s q.acc stRevoked (bvLe q.user 8 ++ natLe q.tokens 3)) s
  { s1 with job := s1.job.map (fun j => { j with
      seqs := (j.seqs.filter (fun q => !(mine q && q.st ≠ .running))).map (fun q => if mine q then { q with ended := some stRevoked } else q) }) }

/-- SLOT_REVOKE (R239): the slot is REVOKING, its session, policy and checkpoint key end (R443), its requests complete with REVOKED and its
experts are being released (R248). A slot that is not BOUND is refused (log 49). -/
def execSlotRevoke (acc : BitVec 64) (s : State) : Host.Outcome State Fault Refusal :=
  onJob s acc 0x49 (fun c j =>
    let t := opN c 0 2
    if 4096 ≤ t || !isBound j t then finish s acc stPolicy
    else
      let j1 := setTen j t { tenOf j t with st := .revoking, revAcc := acc, policy := [], ckpt := none, ckptIv := [], ckptCnt := 0 }
      let j2 := { j1 with slots := j1.slots.map (fun e => if e.2.st = .ready && e.2.owner.toNat = t then (e.1, { e.2 with st := .releasing, relAcc := acc }) else e) }
      finish (revokeSeqs (setSession { s with job := some j2 } 0 t none) t) acc stOk)

/-- A command that a tenant's slot still serves: an evaluation, a frame, a prefetch, a checkpoint, an update or a request (R239). -/
def tenantCmd (s : State) (j : Job) (t : Nat) (c : Cmd) : Bool :=
  c.ring ≠ 0 && c.job = j.id && c.ph ≠ .done && c.acc.toNat < (tenOf j t).revAcc.toNat &&
  (match (opcOf c).toNat with
   | 0x01 => hdrFlag c 0 && hdrTenant c = t
   | 0x04 => (streamOf j (frStream c)).tenant.toNat = t
   | 0x05 => updateOf s j c t
   | 0x02 | 0x09 | 0x0A => opN c 0 2 % 4096 = t
   | 0x07 | 0x08 => opN c 2 2 % 4096 = t
   | _ => false)

/-- TENANT_SLOT_FREE: a REVOKING slot becomes FREE once it owns no experts, holds no parked entries and no command of its tenant executes
(R239). -/
def execTenantSlotFree (t : Fin 4096) (s : State) : Host.Outcome State Fault Refusal :=
  match s.job with
  | none => .next s
  | some j =>
    if (tenOf j t.val).st = .revoking && hubUp s && slotsOwned j t.val = [] && !j.seqs.any (fun q => q.tenant = t.val) &&
       !s.cmds.any (tenantCmd s j t.val) then .next { s with job := some (setTen j t.val {}) }
    else .next s

/-! ### DOMAIN_SET (R208, R251, R308, R508) -/

/-- KV pages of a domain: the pool in pages (R308). -/
def poolPages (j : Job) (d : Dom) : Nat := if j.pageKib = 0 then 0 else d.kvpool.toNat * 2 ^ 20 / j.pageKib

/-- Pages that a domain's sequences hold. -/
def pagesHeld (j : Job) (d : Nat) : Nat :=
  ((j.seqs.filter (fun q => q.st = .running && (tenOf j q.tenant).dom.toNat = d)).map (·.pages)).sum

/-- Quads in which a domain's segments lie (R208). -/
def segQuads (j : Job) (d : Nat) : List Nat :=
  (List.range 8).filter (fun q => j.segs.any (fun e => e.2.valid && e.2.dom.toNat = d && overlap (q * quadSize) quadSize e.2.base.toNat e.2.len.toNat))

/-- The domain that a DOMAIN_SET describes (R390). -/
def domainOf (c : Cmd) : Dom :=
  if opN c 1 1 % 2 = 0 then {}
  else { quads := opB c 2 1 8, cways := opB c 4 2 16, tways := opB c 6 2 16, valid := true, apool := opB c 8 1 8, kvpool := opB c 9 1 8 }

/-- DOMAIN_SET's conditions (R208, R251, R308, R305, R499, R508). -/
def domainOk (s : State) (j : Job) (d : Nat) (v : Dom) : Bool :=
  let n := (bitsSet v.quads.toNat 8).length
  let j1 := setDom j d v
  let own := poolRanges s { j1 with doms := [(d, v)] }
  d < 8 &&
  (segQuads j d).all (fun q => v.quads.getLsbD q) &&
  (v.valid || !j.tenants.any (fun e => e.2.st ≠ .free && e.2.dom.toNat = d)) &&
  (!v.valid || (n ≠ 0 && v.cways ≠ 0 && v.tways ≠ 0 && v.apool.toNat % n = 0 && v.kvpool.toNat % n = 0 &&
    (bitsSet v.quads.toNat 8).all (fun q => !s.fences.canopy.getLsbD (q / 2)) &&
    (List.range 8).all (fun e => e = d || !(domOf j e).valid ||
      ((domOf j e).quads &&& v.quads = 0 && (domOf j e).cways &&& v.cways = 0 && (domOf j e).tways &&& v.tways = 0)) &&
    poolsFit s j1 && own.all (fun r => !hits (segRanges j (fun _ => true)) r.1 r.2 && !hits (reservedRanges s) r.1 r.2)))

/-- DOMAIN_SET gives a domain its quads, ways and pools, which its registers show from now on (R208, R209, R251, R308). -/
def execDomainSet (acc : BitVec 64) (s : State) : Host.Outcome State Fault Refusal :=
  onJob s acc 0x4B (fun c j =>
    let d := opN c 0 1
    let v := domainOf c
    if !domainOk s j d v then finish s acc stPolicy
    else finish { s with job := some (setDom j d { v with free := poolPages j v - pagesHeld j d }), domShow := tset {} s.domShow d v } acc stOk)

end Sys2Proof.Machine
end

