-- ==== Sys2Proof/Machine/Adapters.lean ====
section
/-! DEFINITION. Private-expert slots and residency (R240 to R256): loading, switching, releasing, fetching, pinning and evicting serving copies. -/

namespace Sys2Proof.Machine

/-! ### Shapes and sizes (R241, R242) -/

/-- A WIDTH of R241. -/
def widthOk (w : Nat) : Bool := w = 1 || w = 2 || w = 3 || (w % 4 = 0 && decide (4 ≤ w) && decide (w ≤ 32))

/-- Bytes of a serving copy (R242), with the base's model width. -/
def copySize (d width blk : Nat) (tcopy : Bool) : Nat :=
  copyPart d (16 * 2 ^ blk) + (if tcopy then 6 else 3) * copyPart (d * (64 * width)) (16 * 2 ^ blk)

/-- Write a copy to its home under a generation (R247, R252). -/
def writeHome (s : State) (j : Job) (t : Nat) (a : Nat) (b : Bytes) (gen : BitVec 32) : State :=
  let s1 := sealRange s a b (homeSeal j t gen)
  dropCached { s1 with link := s1.link ++ (linesOf a b.length).flatMap (linkReqs s) } a b.length

/-- The bytes of a slot's home copy, if every line carries the slot's generation (R252, R255). -/
def readHome (s : State) (j : Job) (v : Slot) : Option Bytes :=
  openRange s v.home.toNat v.size (homeSeal j v.owner.toNat v.gen)

/-- HOME lies in read-write segments of the tenant in the CXL window (R244, R245). -/
def homeOk (j : Job) (t a n : Nat) : Bool :=
  isCxl a && isCxl (a + n - 1) && coveredBy j (fun g => g.owner = tagTenant t && g.access = 1) a n

/-! ### ADAPTER_LOAD (R244 to R247) -/

/-- Every command accepted before, on any ring, has completed (R247); a job command of ring 0 that itself waits for this one is not
waited for (log 52). -/
def earlierAll (s : State) (acc : BitVec 64) (j : Job) : Bool :=
  earlierDone s acc j.id &&
  s.cmds.all (fun c => !(c.ring = 0 && c.acc.toNat < acc.toNat && 0x44 ≤ (opcOf c).toNat) || c.ph = .done)

/-- The limits of R243 on a claim of slot `ix` in a layer. -/
def claimFits (j : Job) (t ix layer : Nat) : Bool :=
  let own := (slotsOwned j t).filter (fun e => e.1 ≠ ix)
  decide (own.length < 1024) && decide ((own.filter (fun e => e.2.layer.toNat = layer)).length < 16)

/-- Steps 1 and 2 of R247: a free slot is LOADING, and the copy is written to a new HOME; it waits for its switch. -/
def claimSlot (s : State) (j : Job) (t ix : Nat) (layer : BitVec 8) (home : Nat) (b : Bytes) : State :=
  let v := slotOf j ix
  let same := v.st ≠ .free && v.home.toNat = home
  let v1 := { v with staged := b }
  let v2 := if v.st = .free then { v1 with st := .loading, owner := BitVec.ofNat 12 t, layer := layer } else v1
  let s1 : State := { s with job := some (setSlot j ix v2) }
  if same then s1 else writeHome s1 j t home b (v.gen + 1)

/-- A load or install of a slot has begun and its switch has not come. -/
def switchPending (s : State) (j : Job) (ix : Nat) : Bool :=
  s.cmds.any (fun d => d.ph = .running && ((opcOf d = 0x47 && d.ring = 0 && opN d 0 2 = ix) ||
    (opcOf d = 0x05 && d.ring ≠ 0 && d.job = j.id && opN d 0 1 = 1 && opN d 4 2 = ix)))

/-- ADAPTER_LOAD: the checks of R245 in order, then the slot is claimed or replaced (R246, R247). -/
def execAdapterLoad (acc : BitVec 64) (s : State) : Host.Outcome State Fault Refusal :=
  onJob s acc 0x47 (fun c j =>
    let ix := opN c 0 2
    let t := opN c 2 2 % 4096
    let width := opN c 5 1 % 64
    let blk := opN c 5 1 / 64
    let tc := opN c 6 1 % 2 = 1
    let home := opN c 24 8
    let v := slotOf j ix
    let n := copySize (modelWidth j) width blk tc
    if (opN c 6 1).testBit 1 || c.ph ≠ .accepted || switchPending s j ix then s
    else if !isBound j t then finish s acc stRevoked
    else match readWrapped s j (uploadKey s 0 t) 1 t (opN c 8 8) (opN c 16 8) with
      | .error e => finish s acc e
      | .ok b =>
        if v.st ≠ .free && v.owner.toNat ≠ t then finish s acc stSlotOwned
        else if !widthOk width || !claimFits j t ix (opN c 4 1) || v.gen.toNat + 1 = 2 ^ 32 then finish s acc stPolicy
        else if !homeOk j t home n then finish s acc stSegment
        else if b.length ≠ n then finish s acc stPolicy
        else claimSlot (updCmd s acc (fun d => { d with ph := .running })) j t ix (opB c 4 1 8) home b)

/-- Steps 3 and 4 of R247: the new generation is recorded, the slot is READY and HOME only, and every older copy is dropped; a
fill in progress restarts at the new generation (R264). A slot whose tenant has been revoked meanwhile is being released (R239). -/
def switchSlot (s : State) (j : Job) (ix home : Nat) (shape : Slot → Slot) : State :=
  let v := slotOf j ix
  let t := v.owner.toNat
  let gen := v.gen + 1
  let same := v.st ≠ .loading && v.home.toNat = home
  let revoked := decide ((tenOf j t).st = .revoking)
  let s1 := if same then writeHome s j t home v.staged gen
    else if v.st = .loading then s else dropCached s v.home.toNat v.size
  let v1 := shape { v with
    gen := gen, home := BitVec.ofNat 48 home, res := if v.res = .fetching then .fetching else .home,
    want := if v.res = .fetching then v.want else .home, copy := [], copySeal := none, size := v.staged.length,
    digest := Config.sha256 v.staged, staged := [], refetch := false,
    st := if v.st = .releasing || revoked then .releasing else .ready, relAcc := if v.st = .loading && revoked then (tenOf j t).revAcc else v.relAcc }
  { s1 with job := some (setSlot j ix v1) }

/-- ADAPTER_SWITCH: a load or an install takes effect once every command accepted before it has completed (R247, R292). -/
def execAdapterSwitch (acc : BitVec 64) (s : State) : Host.Outcome State Fault Refusal :=
  match findCmd s acc, s.job with
  | some c, some j =>
    if c.ph ≠ .running || !hubUp s || !earlierAll s acc j then .next s
    else if opcOf c = 0x47 && (ready s acc 0x47).isSome && !(opN c 6 1).testBit 1 then
      .next (finish (switchSlot s j (opN c 0 2) (opN c 24 8) (fun v => { v with
        layer := opB c 4 1 8, width := BitVec.ofNat 6 (opN c 5 1), blk := BitVec.ofNat 2 (opN c 5 1 / 64),
        tcopy := decide (opN c 6 1 % 2 = 1) })) acc stOk)
    else if opcOf c = 0x05 && (ready s acc 0x05).isSome && opN c 0 1 = 1 then
      .next (finish (switchSlot s j (opN c 4 2) (opN c 16 8) id) acc stOk)
    else .next s
  | _, _ => .next s

/-! ### Releasing a slot (R245, R248) -/

/-- ADAPTER_LOAD with RELEASE set: the owner's upload proves its claim, and the slot is being released; OK_WARN where it is free
(R245, R248). It completes with SLOT_RELEASE_DONE. It takes its turn after an earlier load, install or release of the slot (R246). -/
def execAdapterRelease (acc : BitVec 64) (s : State) : Host.Outcome State Fault Refusal :=
  onJob s acc 0x47 (fun c j =>
    let ix := opN c 0 2
    let t := opN c 2 2 % 4096
    let v := slotOf j ix
    if !(opN c 6 1).testBit 1 || c.ph ≠ .accepted || switchPending s j ix then s
    else if !isBound j t then finish s acc stRevoked
    else match readWrapped s j (uploadKey s 0 t) 1 t (opN c 8 8) (opN c 16 8) with
      | .error e => finish s acc e
      | .ok _ =>
        if v.st = .free then finish s acc stWarn
        else if v.owner.toNat ≠ t then finish s acc stSlotOwned
        else updCmd { s with job := some (setSlot j ix { v with st := .releasing, relAcc := acc }) } acc (fun d => { d with ph := .running }))

/-- SLOT_RELEASE_DONE: a RELEASING slot is FREE once USE is 0 and every command accepted before the release has completed; GEN rises and all
copies are dropped (R248). An ADAPTER_LOAD that released it completes. -/
def execSlotReleaseDone (ix : Fin 65536) (s : State) : Host.Outcome State Fault Refusal :=
  match s.job with
  | none => .next s
  | some j =>
    let v := slotOf j ix.val
    if v.st ≠ .releasing || v.use ≠ 0 || !hubUp s || !earlierAll s v.relAcc j then .next s
    else
      let s1 := dropCached { s with job := some (setSlot j ix.val { gen := satAdd v.gen 1 }) } v.home.toNat v.size
      match findCmd s1 v.relAcc with
      | some c => .next (if opcOf c = 0x47 && c.ph = .running then finish s1 v.relAcc stOk else s1)
      | none => .next s1

/-! ### Residency (R250 to R253) -/

/-- A copy that occupies its domain's pool. -/
def inPool (v : Slot) : Bool := v.st ≠ .free && (v.res = .fetching || v.res = .cached || v.res = .hot)
def slotDom (j : Job) (v : Slot) : Nat := (tenOf j v.owner.toNat).dom.toNat

/-- Bytes of the pool in use by a domain, and of a tenant's copies. -/
def poolUsed (j : Job) (d : Nat) : Nat := ((j.slots.filter (fun e => inPool e.2 && slotDom j e.2 = d)).map (·.2.size)).sum
def tenantUsed (j : Job) (t : Nat) : Nat := ((j.slots.filter (fun e => inPool e.2 && e.2.owner.toNat = t)).map (·.2.size)).sum
def capOk (j : Job) (t n : Nat) : Bool := (tenOf j t).resCap = 0 || n ≤ (tenOf j t).resCap.toNat * 2 ^ 20

/-- Bytes of a domain's Canopy cache ways that copies may lock: half of the ways of each set (R253, log 50). -/
def lockable (j : Job) (d : Nat) : Nat :=
  let region := (List.range 4).map (fun k => canopySlice - j.managed.getD k 0 * 2 ^ 26)
  region.sum / 16 * ((bitsSet (domOf j d).cways.toNat 16).length / 2)
def hotUsed (j : Job) (d : Nat) : Nat := ((j.slots.filter (fun e => e.2.st ≠ .free && e.2.res = .hot && slotDom j e.2 = d)).map (·.2.size)).sum

/-- A slot's copy leaves the pool. -/
def evictSlot (j : Job) (i : Nat) : Job := setSlot j i { slotOf j i with res := .home, want := .home, copy := [], copySeal := none }

/-- The least recently dispatched slot of some (R253). -/
def lruSlot (l : List (Nat × Slot)) : Option Nat :=
  (l.foldl (fun (m : Option (Nat × Slot)) e => match m with
    | none => some e
    | some x => if e.2.lastStep < x.2.lastStep then some e else m) none).map (·.1)

/-- Make room for `n` bytes in a domain's pool by evicting copies whose USE is 0 and that are not pinned, the least recently dispatched first
(R253); none where no copy qualifies. Fuel: the number of slots. -/
def makeRoom : Nat → Job → Nat → Nat → Option Job
  | 0, j, d, n => if poolUsed j d + n ≤ (domOf j d).apool.toNat * gib then some j else none
  | f + 1, j, d, n =>
    if poolUsed j d + n ≤ (domOf j d).apool.toNat * gib then some j
    else match lruSlot (j.slots.filter (fun e => e.2.st ≠ .free && (e.2.res = .cached || e.2.res = .hot) && e.2.use = 0 && e.2.pin = 0 && slotDom j e.2 = d)) with
      | none => none
      | some i => makeRoom f (evictSlot j i) d n

/-- Start a wanted fetch where the pool and the tenant's cap have room (R253). -/
def tryFetch (j : Job) (i : Nat) : Job :=
  let v := slotOf j i
  if (v.st = .ready || v.st = .releasing) && v.res = .home && v.want ≠ .home && capOk j v.owner.toNat (tenantUsed j v.owner.toNat + v.size) then
    match makeRoom j.slots.length j (slotDom j v) v.size with
    | none => j
    | some j1 => setSlot j1 i { slotOf j1 i with res := .fetching, want := v.want, fillGen := v.gen, refetch := false }
  else j

/-- Start every wanted fetch that may start, by layer and then by slot (R253). -/
def pumpFetch (j : Job) : Job :=
  let w := j.slots.filter (fun e => e.2.st ≠ .free && e.2.res = .home && e.2.want ≠ .home)
  (List.range 256).foldl (fun j l => (w.filter (fun e => e.2.layer.toNat = l)).foldl (fun j e => tryFetch j e.1) j) j

/-- Make a cached copy HOT where the lockable ways have room, demoting the least recently dispatched HOT copy that is not pinned (R253). -/
def makeHot : Nat → Job → Nat → Job
  | 0, j, _ => j
  | f + 1, j, i =>
    let v := slotOf j i
    let d := slotDom j v
    if v.res ≠ .cached then j
    else if hotUsed j d + v.size ≤ lockable j d then setSlot j i { v with res := .hot }
    else match lruSlot (j.slots.filter (fun e => e.2.st ≠ .free && e.2.res = .hot && e.2.pin = 0 && slotDom j e.2 = d)) with
      | none => j
      | some k => makeHot f (setSlot j k { slotOf j k with res := .cached, want := .cached }) i

/-! ### ADAPTER_PREFETCH and ADAPTER_EVICT (R254) -/

/-- The slots that a prefetch or evict names: those of its tenant, or its SLOT where the tenant owns it (R254, log 51). -/
def namedSlots (j : Job) (c : Cmd) : List Nat :=
  let t := opN c 2 2 % 4096
  if opN c 4 1 % 2 = 1 then (slotsOwned j t).map (·.1)
  else if (slotsOwned j t).any (fun e => e.1 = opN c 0 2) then [opN c 0 2] else []

/-- An earlier prefetch or evict of the job that names one of the slots is unfinished (R264). -/
def residencyTurn (s : State) (j : Job) (c : Cmd) : Bool :=
  !s.cmds.any (fun d => d.ring ≠ 0 && d.job = j.id && (opcOf d = 0x07 || opcOf d = 0x08) && d.acc.toNat < c.acc.toNat && d.ph ≠ .done &&
    (namedSlots j d).any (fun i => (namedSlots j c).contains i))

/-- The pool, the tenant's cap and the lockable ways can hold the named copies with those that no eviction may remove (R254, R253). -/
def prefetchFits (j : Job) (t : Nat) (l : List Nat) (hot : Bool) : Bool :=
  let d := (tenOf j t).dom.toNat
  let sum := fun (p : Nat × Slot → Bool) => ((j.slots.filter p).map (·.2.size)).sum
  let keep := fun (e : Nat × Slot) => l.contains e.1 || (inPool e.2 && (e.2.pin ≠ 0 || e.2.use ≠ 0))
  decide (sum (fun e => keep e && slotDom j e.2 = d) ≤ (domOf j d).apool.toNat * gib) &&
  capOk j t (sum (fun e => keep e && e.2.owner.toNat = t)) &&
  (!hot || decide (sum (fun e => slotDom j e.2 = d && (l.contains e.1 || (e.2.st ≠ .free && e.2.res = .hot && e.2.pin ≠ 0))) ≤ lockable j d))

/-- ADAPTER_PREFETCH makes each named copy CACHED, or HOT, and may pin it; it completes once every one has got there (R254). A copy that
has left the pool meanwhile is asked for again. -/
def execAdapterPrefetch (acc : BitVec 64) (s : State) : Host.Outcome State Fault Refusal :=
  onJob s acc 0x07 (fun c j =>
    let t := opN c 2 2 % 4096
    let fl := opN c 4 1
    let hot := fl.testBit 2
    let l := namedSlots j c
    let arrived := fun (j : Job) => l.all (fun i => (slotOf j i).res = .hot || (!hot && (slotOf j i).res = .cached))
    if c.ph = .accepted then
      if !tenantServes j t acc then finish s acc stRevoked
      else if !residencyTurn s j c then s
      else if !prefetchFits j t l hot then finish s acc stPolicy
      else
        let ask := fun (j : Job) (i : Nat) =>
          let v := slotOf j i
          let v1 := { v with want := if hot then .hot else if v.res = .hot then .hot else .cached, pin := if fl.testBit 1 then (if hot then 2 else 1) else v.pin }
          let j1 := setSlot j i v1
          if hot then makeHot j.slots.length j1 i else j1
        let j1 := pumpFetch (l.foldl ask j)
        let s1 := updCmd { s with job := some j1 } acc (fun d => { d with ph := .running, warn := decide (l = []) && !fl.testBit 0, glades := [] })
        if arrived j1 then finish s1 acc stOk else s1
    else
      let again := fun (j : Job) (i : Nat) =>
        let v := slotOf j i
        if v.res = .home && v.want = .home then setSlot j i { v with want := if hot then .hot else .cached } else j
      let j0 := l.foldl again j
      let j1 := pumpFetch (if hot then l.foldl (fun j i => makeHot j.slots.length j i) j0 else j0)
      let s1 : State := { s with job := some j1 }
      if arrived j1 then finish s1 acc stOk else s1)

/-- ADAPTER_EVICT clears PIN and returns each named copy to CACHED, or to HOME only once USE is 0 (R254). -/
def execAdapterEvict (acc : BitVec 64) (s : State) : Host.Outcome State Fault Refusal :=
  onJob s acc 0x08 (fun c j =>
    let t := opN c 2 2 % 4096
    let hot := (opN c 4 1).testBit 2
    let l := namedSlots j c
    let back := fun (j : Job) (i : Nat) =>
      let v := { slotOf j i with pin := 0 }
      let j1 := setSlot j i v
      if hot then (if v.res = .hot then setSlot j i { v with res := .cached, want := .cached } else j1)
      else if v.use = 0 then evictSlot j1 i else j1
    let gone := fun (j : Job) => l.all (fun i => if hot then (slotOf j i).res ≠ .hot else (slotOf j i).res = .home)
    if c.ph = .accepted && !tenantServes j t acc then finish s acc stRevoked
    else if c.ph = .accepted && !residencyTurn s j c then s
    else
      let j1 := l.foldl back j
      let s1 := updCmd { s with job := some (pumpFetch j1) } acc (fun d => { d with ph := .running, warn := decide (l = []) && !(opN c 4 1).testBit 0 })
      if gone j1 then finish s1 acc stOk else s1)

/-! ### Fills (R255) -/

/-- A fill has failed its integrity tag twice: the copy is HOME only, and what waits on it completes with INTEGRITY (R255). -/
def fillFails (s : State) (j : Job) (i : Nat) : State :=
  let t := (slotOf j i).owner.toNat
  let waits := s.cmds.filter (fun c => c.ring ≠ 0 && c.job = j.id && opcOf c = 0x07 && c.ph = .running && (namedSlots j c).contains i)
  let parked := j.seqs.filter (fun q => q.tenant = t && q.st = .parked && q.ended.isNone)
  let j1 := evictSlot { j with seqs := j.seqs.filter (fun q => !(q.tenant = t && q.st = .parked && q.ended.isNone)) } i
  let s1 := waits.foldl (fun s c => finish s c.acc stIntegrity) { s with job := some j1 }
  parked.foldl (fun s q => finishWith s q.acc stIntegrity (bvLe q.user 8 ++ natLe q.tokens 3)) s1

/-- ADAPTER_FETCH_DONE: a fill ends (R255): it restarts where the generation has risen, is refetched once and then fails where a line fails its
tag, and else the copy is CACHED or HOT. Fetches that waited for room start. -/
def execAdapterFetchDone (ix : Fin 65536) (s : State) : Host.Outcome State Fault Refusal :=
  match s.job with
  | none => .next s
  | some j =>
    let v := slotOf j ix.val
    if !hubUp s || !(j.st = 2 || j.st = 7) then .next s
    else if v.res ≠ .fetching then .next { s with job := some (pumpFetch j) }
    else if v.fillGen ≠ v.gen then .next { s with job := some (setSlot j ix.val { v with fillGen := v.gen, refetch := false }) }
    else match readHome s j v with
      | none => if v.refetch then .next (fillFails s j ix.val) else .next { s with job := some (setSlot j ix.val { v with refetch := true }) }
      | some b =>
        let j1 := setSlot j ix.val { v with res := .cached, copy := memOf b, copySeal := some (homeSeal j v.owner.toNat v.gen), refetch := false }
        .next { s with job := some (pumpFetch (if v.want = .hot then makeHot j.slots.length j1 ix.val else j1)) }

end Sys2Proof.Machine
end

