-- ==== Sys2Proof/Machine/Train.lean ====
section
/-! DEFINITION. Training commands (R265 to R299): UPDATE, install, CHECKPOINT_OUT and CHECKPOINT_IN, with the state-tensor record, the step counters and the update rule. -/

namespace Sys2Proof.Machine

/-! ### The state-tensor record (R271) -/

/-- A state-tensor record; `rsv` says that its reserved bytes are 0. -/
structure TRec where
  wb : Nat
  mb : Nat
  qb : Nat
  gb : Nat
  gsb : Nat
  count : Nat
  kind : Nat
  gblk : Nat
  rowlen : Nat
  gpitch : Nat
  gspitch : Nat
  rowlist : Nat
  rsv : Bool
  deriving DecidableEq, Repr

/-- The fields of a record's 256 bytes (R271). -/
def tensorRec (b : Bytes) : TRec :=
  { wb := fieldLe b 0 8, mb := fieldLe b 8 8, qb := fieldLe b 16 8, gb := fieldLe b 24 8, gsb := fieldLe b 32 8, count := fieldLe b 40 8,
    kind := fieldLe b 48 1, gblk := fieldLe b 49 1, rowlen := fieldLe b 52 4, gpitch := fieldLe b 56 4, gspitch := fieldLe b 60 4,
    rowlist := fieldLe b 64 8, rsv := zeroAt b 50 2 && zeroAt b 72 184 }

/-- Bytes of a structure in the managed region, with the tags of its lines: SEGMENT_FAULT outside it (R274, R185). -/
def readManaged (s : State) (j : Job) (a n : Nat) : Except Byte (Bytes × List Tag) :=
  if !rangeManaged j a n then .error stSegment
  else match lineTags s j (linesOf a n) with
    | .error e => .error e
    | .ok l => .ok (rdBytes s.mem a n, l)

/-- The row list of a lazy tensor (R273): its count and row numbers. -/
def readRows (s : State) (j : Job) (a : Nat) : Except Byte (List Nat × List Tag) :=
  match readManaged s j a 8 with
  | .error e => .error e
  | .ok h =>
    let n := leNat h.1
    match readManaged s j a (8 + 4 * n) with
    | .error e => .error e
    | .ok b => .ok ((List.range n).map (fun i => fieldLe b.1 (8 + 4 * i) 4), b.2)

/-- Row size of a segment (R201). -/
def rowSize (g : Seg) : Nat := 2 ^ (g.rowlog.toNat + 8)

/-- The weight, momentum and remainder ranges of a tensor (R272, R273): a lazy one takes COUNT rows of its segment. -/
def tensorRanges (j : Job) (r : TRec) : List (Nat × Nat) :=
  if r.kind = 1 then
    [r.wb, r.mb, r.qb].map (fun a => (a, match segAt j a with | some g => r.count * rowSize g | none => 0))
  else [(r.wb, 2 * r.count), (r.mb, r.count * 3 / 2), (r.qb, r.count)]

/-- A range meets a frozen segment (R274, R290). -/
def hitsFrozen (j : Job) (x : Nat × Nat) : Bool := j.segs.any (fun e => e.2.valid && e.2.access = 2 && overlap e.2.base.toNat e.2.len.toNat x.1 x.2)

/-- Bytes of a range that lie in read-write segments. -/
def coveredRw (j : Job) (x : Nat × Nat) : Nat :=
  (j.segs.map (fun e => if e.2.valid && e.2.access = 1 then
    min (x.1 + x.2) (e.2.base.toNat + e.2.len.toNat) - max x.1 e.2.base.toNat else 0)).sum

/-- A range lies wholly in read-write segments; an empty one has its base in one. -/
def inRw (j : Job) (x : Nat × Nat) : Bool :=
  (match segAt j x.1 with | some g => decide (g.access = 1) | none => false) && decide (coveredRw j x = x.2)

/-- The segments that a range touches. -/
def segsOn (j : Job) (x : Nat × Nat) : List Seg :=
  (j.segs.filter (fun e => e.2.valid && (overlap e.2.base.toNat e.2.len.toNat x.1 x.2 || overlap e.2.base.toNat e.2.len.toNat x.1 1))).map (·.2)

/-- The gradient's element rows and scale rows (R272, R273): `n` rows of `len` parameters. -/
def gradLines (r : TRec) (n len : Nat) : List Nat :=
  (List.range n).flatMap (fun i => linesOf (r.gb + i * r.gpitch) len ++ linesOf (r.gsb + i * r.gspitch) (len / blkSize r.gblk))

/-- The tag of a line as its segment or its Canopy line states it; none outside every segment. -/
def lineOwner (s : State) (j : Job) (a : Nat) : Option Tag :=
  (segAt j a).map (fun g => if isCanopy a then tagOf s (lineOf a) else g.owner)

/-- A base address at the start of a segment row (R273). -/
def onRow (j : Job) (a : Nat) : Bool := match segAt j a with | some g => decide ((a - g.base.toNat) % rowSize g = 0) | none => false

/-- The geometry of R271 to R273 that concerns the tensor itself. -/
def geometryOk (j : Job) (r : TRec) : Bool :=
  r.rsv && r.kind ≤ 1 &&
  (if r.kind = 1 then
    decide (r.rowlen % 256 = 0) && (tensorRanges j r).all (fun x => onRow j x.1 && decide ((segsOn j x).length ≤ 1)) &&
    ([(r.wb, 2 * r.rowlen), (r.mb, r.rowlen * 3 / 2), (r.qb, r.rowlen)]).all (fun x =>
      match segAt j x.1 with | some g => decide (x.2 ≤ rowSize g) | none => false)
  else
    decide (r.count % 8192 = 0) && decide (r.rowlen = 0) && decide (r.rowlist = 0) &&
    ([r.wb, r.mb, r.qb]).all (fun a => decide (a % 4096 = 0)))

/-- The geometry of a gradient and its row list (R271 to R273). -/
def gradientOk (r : TRec) (rows : List Nat) : Bool :=
  r.gblk ≤ 3 && r.gpitch % 256 = 0 &&
  (if r.kind = 1 then
    decide (rows.Pairwise (· < ·)) && rows.all (fun e => decide (e < r.count)) && decide (r.rowlen ≤ r.gpitch) &&
    decide (r.rowlen / blkSize r.gblk ≤ r.gspitch)
  else decide (256 / blkSize r.gblk ≤ r.gspitch))

/-- An eval-flagged RUN of a tenant lies between its accept and completion records (R274, R292, R293). -/
def evalOpen (s : State) (j : Job) (t : Nat) : Bool :=
  s.cmds.any (fun c => c.ring ≠ 0 && c.job = j.id && opcOf c = 0x01 && hdrFlag c 0 && hdrTenant c = t)

/-! ### Units, counters and their place (R203, R272, R273, R280) -/

/-- The three byte ranges of unit or row `i` of a tensor (R272, R273). -/
def unitParts (j : Job) (r : TRec) (i : Nat) : List (Nat × Nat) :=
  if r.kind = 1 then
    ([(r.wb, 2 * r.rowlen), (r.mb, r.rowlen * 3 / 2), (r.qb, r.rowlen)]).map (fun x =>
      (x.1 + i * (match segAt j x.1 with | some g => rowSize g | none => 0), x.2))
  else [(r.wb + 16384 * i, 16384), (r.mb + 12288 * i, 12288), (r.qb + 8192 * i, 8192)]

/-- Device addresses of the step counters of a unit (nine blocks) or a row (three) (R280). -/
def unitCounters (j : Job) (r : TRec) (i : Nat) : List Nat :=
  (unitParts j r i).flatMap (fun x =>
    (List.range (if r.kind = 1 then 1 else x.2 / 4096)).filterMap (fun k =>
      (segAt j (x.1 + 4096 * k)).map (fun g => counterAddr g (x.1 + 4096 * k))))

/-- A step counter's value. -/
def counterVal (s : State) (a : Nat) : Nat := leNat (rdBytes s.mem a 4)

/-- Set counters, their lines PUBLIC (R282, R286). -/
def setCounters (s : State) (l : List Nat) (v : Nat) : State := l.foldl (fun s a => hubWrite s a (natLe v 4) tagPublic) s

/-- What the counter check says of a unit or row (R280). -/
inductive UnitDo where
  | apply (k : Nat)
  | skip
  | skew
  deriving DecidableEq, Repr

/-- The counter check of R280 at step `st`. -/
def unitDo (s : State) (r : TRec) (st : Nat) (l : List Nat) : UnitDo :=
  let vs := l.map (counterVal s)
  if vs.all (fun v => decide (v = st + 1)) then .skip
  else match vs with
    | [] => .skew
    | v :: _ =>
      if !vs.all (fun x => decide (x = v)) then .skew
      else if r.kind = 1 then (if v ≤ st then .apply (st - v) else .skew)
      else if v = st then .apply 0 else .skew

/-- The units or rows an UPDATE goes through. -/
def updUnits (r : TRec) (rows : List Nat) : List Nat := if r.kind = 1 then rows else List.range (r.count / 8192)

/-- Whether a counter line can be read (R492). -/
def countersSound (s : State) (l : List Nat) : Bool := l.all (fun a => !s.poison.contains (lineOf a))

/-- Write the parts of a unit under a version and commit it (R282): counters first in the model, so that each line is sealed under the
new version; nothing else can be seen between the two. -/
def commitUnit (s : State) (j : Job) (r : TRec) (i t ver : Nat) (parts : List (Nat × Bytes)) : State :=
  parts.foldl (fun s x => (pieces x.1 x.2).foldl (fun s p => storeLine s j p.1 p.2 (tagTenant t)) s) (setCounters s (unitCounters j r i) ver)

/-- Read a range, each line's tag joining with a tenant's. -/
def readFor (s : State) (j : Job) (t a n : Nat) : Except Byte Bytes :=
  match lineTags s j (linesOf a n) with
  | .error e => .error e
  | .ok l => if l.all (fun x => (join x (tagTenant t)).isSome) then .ok (rdBytes (seenMem s j (linesOf a n)) a n) else .error stOwnerMix

/-- Read several ranges in order. -/
def readParts (s : State) (j : Job) (t : Nat) : List (Nat × Nat) → Except Byte (List Bytes)
  | [] => .ok []
  | x :: l => match readFor s j t x.1 x.2 with
    | .error e => .error e
    | .ok b => match readParts s j t l with
      | .error e => .error e
      | .ok r => .ok (b :: r)

/-! ### The checks (R274) -/

/-- Why a command of this file stops before any effect: a status, or a frozen target (R274). -/
inductive Stop where
  | status (st : Byte)
  | frozen
  deriving DecidableEq, Repr

/-- The checks of R274 that concern one tensor, up to the eval check. `grad` asks for the gradient and row list, `wr` for the
write checks, with that of R286 that no part is a counter table's, and `ten` names the tenant that a checkpoint exports or imports. -/
def checkTensor (s : State) (j : Job) (a gstep : Nat) (grad wr : Bool) (ten : Option Nat) (hyper : Bool) :
    Except Stop (TRec × List Nat × Nat) :=
  match readManaged s j a 256 with
  | .error e => .error (.status e)
  | .ok b =>
    let r := tensorRec b.1
    match (if grad && r.kind = 1 then readRows s j r.rowlist else .ok ([], [])) with
    | .error e => .error (.status e)
    | .ok rows =>
      let rg := tensorRanges j r
      let gl := if !grad then [] else if r.kind = 1 then gradLines r rows.1.length r.rowlen else gradLines r (ceilDiv r.count 256) 256
      let segs := rg.flatMap (segsOn j)
      if wr && rg.any (hitsFrozen j) then .error .frozen
      else if !rg.all (inRw j) || (wr && rg.any (fun x => inCounters j x.1 x.2)) then .error (.status stSegment)
      else if gl.any (fun l => (segAt j l).isNone) || (gstep ≠ 0 && (segAt j gstep).isNone) then .error (.status stSegment)
      else match segs with
        | [] => .error (.status stSegment)
        | g :: _ =>
          let t := g.owner.toNat
          if !segs.all (fun x => x.owner = g.owner) || !isTenant g.owner || (match ten with | some u => decide (u ≠ t) | none => false) then .error (.status stPolicy)
          else if !isBound j t then .error (.status stRevoked)
          else if (b.2 ++ rows.2 ++ gl.filterMap (lineOwner s j)).any (fun x => (join x (tagTenant t)).isNone) then .error (.status stOwnerMix)
          else if a % 256 ≠ 0 || !geometryOk j r || (grad && !gradientOk r rows.1) || !hyper then .error (.status stPolicy)
          else if !segs.all (fun x => x.vsrc = (if r.kind = 1 then 2 else 1)) then .error (.status stPolicy)
          else if wr && evalOpen s j t then .error (.status stPolicy)
          else .ok (r, rows.1, t)

/-- Stop a command as a check says. -/
def stopWith (s : State) (j : Job) (acc : BitVec 64) (x : Stop) : State :=
  match x with
  | .status st => finish s acc st
  | .frozen => finish (noteFrozen s acc j.strict) acc stOk

/-! ### Order (R285) -/

/-- Addresses of the records a checkpoint names (R295). -/
def ckptRecs (s : State) (c : Cmd) : List Nat := (List.range (opN c 2 2)).map (fun i => leNat (rdBytes s.mem (opN c 8 8 + 8 * i) 8))

/-- The state-tensor ranges of an UPDATE or checkpoint. -/
def tensorsOf (s : State) (j : Job) (c : Cmd) : List (Nat × Nat) :=
  let at_ := fun (a : Nat) => tensorRanges j (tensorRec (rdBytes s.mem a 256))
  if opcOf c = 0x05 then (if opN c 0 1 = 0 then at_ (opN c 8 8) else []) else (ckptRecs s c).flatMap at_

/-- Every earlier UPDATE or checkpoint whose state tensors overlap has completed (R285). -/
def tensorTurn (s : State) (j : Job) (c : Cmd) : Bool :=
  let mine := tensorsOf s j c
  s.cmds.all (fun d => !(d.ring ≠ 0 && d.job = j.id && (opcOf d = 0x05 || opcOf d = 0x09 || opcOf d = 0x0A) && d.acc.toNat < c.acc.toNat) ||
    d.ph = .done || !(tensorsOf s j d).any (fun x => hits mine x.1 x.2))

/-! ### Hyperparameters and the schedule (R275, R276) -/

/-- Finite and at least 0. -/
def nonNeg32 (x : BitVec 32) : Bool := !isNan32 x && !isInf32 x && !lt32 x 0
/-- In [0, 1]. -/
def unit32 (x : BitVec 32) : Bool := nonNeg32 x && !lt32 one32 x

/-- An UPDATE's hyperparameters. -/
structure Hyper where
  sched : Nat
  step  : Nat
  b1    : BitVec 32
  b2    : BitVec 32
  eta   : BitVec 32
  lam   : BitVec 32
  warm  : Nat
  total : Nat
  floor : BitVec 32
  seed  : BitVec 64
  mgrad : Bool
  deriving DecidableEq, Repr

/-- The operands of R270. -/
def hyperOf (c : Cmd) : Hyper :=
  { sched := opN c 1 1, step := opN c 4 4, b1 := opB c 24 4 32, b2 := opB c 28 4 32, eta := opB c 32 4 32, lam := opB c 36 4 32,
    warm := opN c 40 4, total := opN c 44 4, floor := opB c 48 4 32, seed := opB c 52 8 64, mgrad := decide (opN c 2 1 % 2 = 1) }

/-- R275, with STEP at most 2^32 − 2 (R270). -/
def hyperOk (h : Hyper) : Bool :=
  unit32 h.b1 && unit32 h.b2 && nonNeg32 h.eta && nonNeg32 h.lam && unit32 h.floor && decide (h.step ≤ 2 ^ 32 - 2) &&
  (h.sched = 0 || 1 ≤ h.warm) && (!(h.sched = 2 || h.sched = 3) || h.warm < h.total)

/-- The number that a W32 code of a natural number holds. -/
def natVal32 (a : BitVec 32) : Nat := match dec32 a with | .fin _ m e => m * 2 ^ e.toNat / 2 ^ (-e).toNat | _ => 0

/-- schedule(s) (R276): every operation rounds its exact result to W32; s, N and T are the integers of the operands. -/
def schedule (h : Hyper) : R32 :=
  let one : R32 := ⟨one32, 0, 0⟩
  let past := ofNat32 (h.step - h.warm)
  let span := ofNat32 (h.total - h.warm)
  let frac := div32 past span
  if h.sched = 0 then one
  else if h.step < h.warm then ⟨divNat32 (natVal32 (ofNat32 (h.step + 1))) h.warm, 0, 0⟩
  else if h.sched = 1 then one
  else if h.total ≤ h.step then ⟨h.floor, 0, 0⟩
  else if h.sched = 2 then
    (sub32 one32 h.floor).andThen (fun a => (mul32 a past).andThen (fun x => (div32 x span).andThen (fun z => sub32 one32 z)))
  else
    frac.andThen (fun x => (sfuCos x).andThen (fun c => (add32 one32 c).andThen (fun k =>
      (sub32 one32 h.floor).andThen (fun a => (mul32 a 0x3F800000).andThen (fun b => (mul32 b k).andThen (fun z => add32 h.floor z))))))

/-- η_t (R276). -/
def etaT (h : Hyper) : R32 := (schedule h).andThen (fun x => mul32 h.eta x)

/-! ### The rule (R277, R278, R288, R289) -/

/-- One parameter after the rule: M16 weight, M12 momentum, F8 remainder, flags, and the elements that vanished. -/
structure Param where
  w   : Nat
  m   : Nat
  q   : BitVec 8
  fl  : BitVec 5
  van : Nat
  deriving DecidableEq, Repr

/-- The momentum that is written: from W32 to M12, nearest-even, or stochastic for a gradient-marked write (R277). -/
def writeMomentum (h : Hyper) (ix : Nat) (v : BitVec 32) : Nat × BitVec 5 :=
  fConvert fM12 (if h.mgrad then .stoch (randBits (BitVec.ofNat 64 (2 ^ 63 + ix)) h.seed) else .nearest) (dec32 v)

/-- The rule on one parameter (R277): index in the tensor, the codes read, the gradient, and for a row that catches up the factors a and b of
R288. A momentum that is infinite or NaN keeps its code, and so does any where there is no catch-up (R278). Such a kept code is not converted,
so a NaN that is written back sets no NAN_OUT (DESIGN CHOICE, log 69). A momentum or a weight that is not 0 and is encoded as 0 counts as one
vanished element (R62). -/
def stepParam (h : Hyper) (c1 c2 eta : BitVec 32) (catch_ : Option (BitVec 32 × BitVec 32)) (ix w m : Nat) (q : BitVec 8) (g : BitVec 32) : Param :=
  let e0 := rnd32 (effective w q)
  let m0 := (rnd32 (fDecode fM12 m)).v
  let v0 : R32 := match catch_ with | some x => mul32 x.1 e0.v | none => e0
  let mm : R32 := match catch_ with | some x => mul32 x.2 m0 | none => ⟨m0, 0, 0⟩
  let fin := infIn g = 0 && infIn mm.v = 0
  let c := (mul32 h.b1 mm.v).andThen (fun a => (mul32 c1 g).andThen (fun b => add32 a b))
  let u : BitVec 32 := if !fin || isZero32 c.v then 0 else if isNeg32 c.v then one32 ||| 0x80000000 else one32
  let m2 : R32 := if fin then (mul32 h.b2 mm.v).andThen (fun a => (mul32 c2 g).andThen (fun b => add32 a b)) else mm
  let keep := !fin && (catch_.isNone || infIn m0 ≠ 0)
  let mw := if keep then (m, 0) else writeMomentum h ix m2.v
  let v := (mul32 h.lam v0.v).andThen (fun a => (add32 u a).andThen (fun b => (mul32 eta b).andThen (fun d => sub32 v0.v d)))
  let o := splitWeight v.v
  { w := o.1, m := mw.1, q := o.2.1,
    fl := v0.fl ||| mm.fl ||| (if fin then c.fl ||| m2.fl else 0) ||| mw.2 ||| v.fl ||| o.2.2 ||| infIn g ||| infIn m0 ||| infIn e0.v,
    van := ([mw.2, o.2.2].filter (fun f => f &&& flVanish ≠ 0)).length }

/-- x to the k by binary powering in W32 (R289). -/
def pow32 (x : BitVec 32) (k : Nat) : R32 :=
  if k = 0 then ⟨one32, 0, 0⟩
  else (List.range (Nat.log2 k + 1)).reverse.foldl (fun (p : R32) i =>
    let p2 := p.andThen (fun a => mul32 a a)
    if k.testBit i then p2.andThen (fun a => mul32 a x) else p2) ⟨one32, 0, 0⟩

/-- The bytes of one gradient row: codes and scales, at gradient row `i`, for `n` parameters. -/
def gradRow (r : TRec) (i n : Nat) : List (Nat × Nat) := [(r.gb + i * r.gpitch, n), (r.gsb + i * r.gspitch, n / blkSize r.gblk)]

/-- The gradient elements of rows read. -/
def gradVals (r : TRec) : List Bytes → List (Nat × Nat)
  | e :: sc :: l => ((List.range e.length).map (fun k => ((e.getD k 0).toNat, (sc.getD (k / blkSize r.gblk) 0).toNat))) ++ gradVals r l
  | _ => []

/-- Apply the rule to a unit's parameters: the new bytes of its three parts, the flags, and the vanished elements. `ix` is the index of its first parameter. -/
def stepUnit (h : Hyper) (c1 c2 eta : BitVec 32) (catch_ : Option (BitVec 32 × BitVec 32)) (ix : Nat) (wb mb qb : Bytes) (gs : List (Nat × Nat)) :
    List Bytes × BitVec 5 × Nat :=
  let ps := (numbered gs).map (fun x =>
    let p := stepParam h c1 c2 eta catch_ (ix + x.1) (elemCode fmtM16 wb x.1) (elemCode fmtM12 mb x.1) (qb.getD x.1 0) (elem32 fmtG8 x.2.1 x.2.2)
    { p with fl := p.fl ||| elemInf fmtG8 x.2.1 x.2.2 })
  ([packCodes fmtM16 (ps.map (·.w)), packCodes fmtM12 (ps.map (·.m)), ps.map (·.q)], ps.foldl (fun f p => f ||| p.fl) 0, (ps.map (·.van)).sum)

/-- How far an UPDATE has come: state, failure, units applied and skipped. -/
structure Upd where
  s       : State
  err     : Byte := 0
  applied : Nat := 0
  skipped : Nat := 0
  deriving DecidableEq, Repr

/-- One unit or listed row of an UPDATE, with its gradient row index (R277, R283, R288): a line that fails stops the command and the unit writes
nothing. -/
def updateUnit (j : Job) (acc : BitVec 64) (h : Hyper) (c1 c2 eta : BitVec 32) (r : TRec) (t : Nat) (x : Upd) (u : Nat × Nat) : Upd :=
  if x.err ≠ 0 then x
  else match unitDo x.s r h.step (unitCounters j r u.2) with
    | .skip => { x with skipped := x.skipped + 1 }
    | .skew => { x with err := stStepSkew }
    | .apply k =>
      let n := if r.kind = 1 then r.rowlen else 8192
      let gp := if r.kind = 1 then gradRow r u.1 r.rowlen else (List.range 32).flatMap (fun i => gradRow r (32 * u.2 + i) 256)
      match readParts x.s j t (unitParts j r u.2), readParts x.s j t gp with
      | .error e, _ => { x with err := e }
      | _, .error e => { x with err := e }
      | .ok st, .ok gr =>
        let gv := gradVals r gr
        if r.kind = 1 && gv.all (fun y => decide (y.2 = 0)) then x
        else
          let cu : Option (R32 × R32) := if r.kind = 1 then
            some ((mul32 eta h.lam).andThen (fun d => (sub32 one32 d).andThen (fun a => pow32 a k)), pow32 h.b2 k) else none
          let o := stepUnit h c1 c2 eta (cu.map (fun y => (y.1.v, y.2.v))) (u.2 * n) (st.getD 0 []) (st.getD 1 []) (st.getD 2 []) gv
          let fl := o.2.1 ||| (match cu with | some y => y.1.fl ||| y.2.fl | none => 0)
          { x with s := raise (commitUnit x.s j r u.2 t (h.step + 1) (((unitParts j r u.2).map (·.1)).zip o.1)) acc fl o.2.2, applied := x.applied + 1 }

/-- Why the gradient step word stops an UPDATE of step `st` (R269, R274): its line cannot be read (R492), or it does not name that step, complete
and unmixed. A word off its place is not valid. -/
def stepWordStop (s : State) (j : Job) (a st : Nat) : Option Byte :=
  if s.poison.contains (lineOf a) then some stDevice
  else if wordPlace s j a && leNat (rdBytes s.mem a 8) % 2 ^ 34 = st + 2 ^ 32 then none
  else some stStepSkew

/-- UPDATE in MODE 0 (R270 to R290). -/
def execUpdate (acc : BitVec 64) (s : State) : Host.Outcome State Fault Refusal :=
  onJob s acc 0x05 (fun c j =>
    let h := hyperOf c
    let gstep := opN c 16 8
    if opN c 0 1 ≠ 0 || !tensorTurn s j c then s
    else match checkTensor s j (opN c 8 8) gstep true true none (hyperOk h) with
      | .error e => stopWith s j acc e
      | .ok (r, rows, t) =>
        let us := numbered (updUnits r rows)
        let ws := if gstep = 0 then none else stepWordStop s j gstep h.step
        if ws.isSome then finish s acc (ws.getD stOk)
        else if !us.all (fun u => countersSound s (unitCounters j r u.2)) then finish s acc stDevice
        else if us.any (fun u => unitDo s r h.step (unitCounters j r u.2) = .skew) then finish s acc stStepSkew
        else
          let c1 := sub32 one32 h.b1
          let c2 := sub32 one32 h.b2
          let eta := etaT h
          let x := us.foldl (updateUnit j acc h c1.v c2.v eta.v r t) { s := raise s acc (c1.fl ||| c2.fl ||| eta.fl) 0 }
          finishWith x.s acc (if x.err ≠ 0 then x.err else if x.skipped ≠ 0 then stAlready else stOk)
            (natLe (min x.applied (2 ^ 32 - 1)) 4 ++ natLe (min x.skipped (2 ^ 32 - 1)) 4))

/-! ### Install (R291, R292) -/

/-- UPDATE in MODE 1 installs a serving copy of the slot's shape (R292); the switch is ADAPTER_SWITCH's (R247). -/
def execInstall (acc : BitVec 64) (s : State) : Host.Outcome State Fault Refusal :=
  onJob s acc 0x05 (fun c j =>
    let ix := opN c 4 2
    let src := opN c 8 8
    let home := opN c 16 8
    let v := slotOf j ix
    let t := v.owner.toNat
    let n := copySize (modelWidth j) v.width.toNat v.blk.toNat v.tcopy
    let lines := linesOf src n
    if opN c 0 1 ≠ 1 || c.ph ≠ .accepted || switchPending s j ix then s
    else if v.st = .free || v.st = .releasing then finish s acc stPolicy
    else if !isBound j t then finish s acc stRevoked
    else if !coveredBy j (fun g => g.owner = tagTenant t) src n || !homeOk j t home n then finish s acc stSegment
    else if (lines.filterMap (lineOwner s j)).any (fun x => (join x (tagTenant t)).isNone) then finish s acc stOwnerMix
    else if v.gen.toNat + 1 = 2 ^ 32 || evalOpen s j t then finish s acc stPolicy
    else match readFor s j t src n with
      | .error e => finish s acc e
      | .ok b => claimSlot (updCmd s acc (fun d => { d with ph := .running })) j t ix v.layer home b)

/-! ### Checkpoints (R295 to R299) -/

/-- Units or rows that a checkpoint holds. -/
def ckptUnits (r : TRec) : List Nat := List.range (if r.kind = 1 then r.count else r.count / 8192)

/-- Bytes of a tensor's four sections (R296). -/
def sectionSizes (r : TRec) : List Nat :=
  let p := if r.kind = 1 then r.count * r.rowlen else r.count
  [2 * p, p * 3 / 2, p, 4 * (ckptUnits r).length]

/-- Offsets of sections from a start, each at a 256-byte boundary, with the end of the last (R296). -/
def placeSections : Nat → List Nat → List Nat × Nat
  | o, [] => ([], o)
  | o, n :: l =>
    let a := alignUp o 256
    let r := placeSections (a + n) l
    (a :: r.1, r.2)

/-- The four section offsets of every tensor, and the length of the plaintext. -/
def placeTensors : Nat → List TRec → List (List Nat) × Nat
  | o, [] => ([], o)
  | o, r :: l =>
    let a := placeSections o (sectionSizes r)
    let x := placeTensors a.2 l
    (a.1 :: x.1, x.2)

def placeAll (rs : List TRec) : List (List Nat) × Nat := placeTensors (256 + 64 * rs.length) rs

/-- The entry of a tensor (R296). -/
def ckptEntry (r : TRec) (off : Nat) : Bytes := natLe r.kind 1 ++ zeros 7 ++ natLe r.count 8 ++ natLe r.rowlen 4 ++ zeros 4 ++ natLe off 8 ++ zeros 32

/-- The bytes of a tensor's four sections: the three parts unit by unit, then one counter a unit. -/
def tensorBytes (s : State) (j : Job) (t : Nat) (r : TRec) : Except Byte (List Bytes) :=
  match (ckptUnits r).foldl (fun (a : Except Byte (List (List Bytes))) i => match a with
      | .error e => .error e
      | .ok l => match readParts s j t (unitParts j r i) with
        | .error e => .error e
        | .ok p => if countersSound s (unitCounters j r i) then .ok (l ++ [p]) else .error stDevice) (.ok []) with
  | .error e => .error e
  | .ok us => .ok [us.flatMap (fun p => p.getD 0 []), us.flatMap (fun p => p.getD 1 []), us.flatMap (fun p => p.getD 2 []),
      (ckptUnits r).flatMap (fun i => natLe (counterVal s ((unitCounters j r i).headD 0)) 4)]

/-- The plaintext of an image (R296). -/
def ckptPlain (s : State) (j : Job) (t : Nat) (label : BitVec 64) (rs : List TRec) : Except Byte Bytes :=
  let pl := placeAll rs
  match rs.foldl (fun (a : Except Byte (List Bytes)) r => match a with
      | .error e => .error e
      | .ok l => match tensorBytes s j t r with
        | .error e => .error e
        | .ok b => .ok (l ++ b)) (.ok []) with
  | .error e => .error e
  | .ok secs =>
    let hdr := natLe 0x4B434D4C 4 ++ natLe 0x00010000 4 ++ natLe pl.2 8 ++ bvLe (tenOf j t).digest 32 ++ bvLe label 8 ++ natLe rs.length 4 ++ zeros 196
    let ents := (rs.zip pl.1).flatMap (fun x => ckptEntry x.1 (x.2.headD 0))
    .ok ((pl.1.flatten.zip secs).foldl (fun b x => padTo b x.1 ++ x.2) (hdr ++ ents))

/-- The tensor records a checkpoint lists, each checked (R295, R297, R298). An import (`wr`) takes every outcome of R274, those of the gradient and
its row list among them; an export those that concern the state tensors that it reads. -/
def ckptCheck (s : State) (j : Job) (c : Cmd) (t : Nat) (wr : Bool) : Except Stop (List TRec) :=
  match readManaged s j (opN c 8 8) (8 * opN c 2 2) with
  | .error e => .error (.status e)
  | .ok b =>
    if b.2.any (fun x => (join x (tagTenant t)).isNone) then .error (.status stOwnerMix)
    else (ckptRecs s c).foldl (fun (a : Except Stop (List TRec)) x => match a with
      | .error e => .error e
      | .ok l => match checkTensor s j x 0 wr wr (some t) true with
        | .error e => .error e
        | .ok y => .ok (l ++ [y.1])) (.ok [])

/-- CHECKPOINT_OUT writes the listed tensors as one wrapped image (R297). Its result carries the wrapped length (R398). -/
def execCheckpointOut (acc : BitVec 64) (s : State) : Host.Outcome State Fault Refusal :=
  onJob s acc 0x09 (fun c j =>
    let t := opN c 0 2 % 4096
    let a := opN c 16 8
    let ten := tenOf j t
    if !tensorTurn s j c then s
    else if !isBound j t then finish s acc stRevoked
    else if opN c 2 2 = 0 || 1024 < opN c 2 2 then finish s acc stPolicy
    else match ckptCheck s j c t false with
      | .error e => stopWith s j acc e
      | .ok rs =>
        let need := 80 + (placeAll rs).2
        match ten.ckpt with
        | none => finish s acc stEgress
        | some key =>
          if !policyCkpt ten then finish s acc stEgress
          else if opN c 24 8 < need then finishWith s acc stPolicy (natLe need 8)
          else if (linesOf a need).any (fun l => match segAt j (max l a) with | some g => g.owner ≠ tagPublic | none => false) then finish s acc stPolicy
          else match ckptPlain s j t (opB c 32 8 64) rs with
            | .error e => finish s acc e
            | .ok pt =>
              let iv := nextIv ten.ckptIv ten.ckptCnt
              match devWrite s j false a (wrapObject key (wrapHeader 4 0 iv pt.length 0 0 0) iv pt) tagPublic with
              | .err e => finish s acc e
              | .frozen => stopWith s j acc .frozen
              | .ok s1 => finishWith { s1 with job := s1.job.map (fun k => setTen k t { ten with ckptCnt := ten.ckptCnt + 1 }) } acc stOk (natLe need 8))

/-- The destination records of an import that can be read, with their place in the list (R298 step 3). -/
def ckptNamed (s : State) (j : Job) (c : Cmd) : List (Nat × TRec) :=
  if rangeManaged j (opN c 8 8) (8 * opN c 2 2) then
    (numbered (ckptRecs s c)).filterMap (fun x => match readManaged s j x.2 256 with
      | .ok b => some (x.1, tensorRec b.1)
      | .error _ => none)
  else []

/-- DIGEST, COUNT and the entries of an image match the slot and the destination records (R298 step 3). A record that cannot be read has nothing to
differ from: step 4 gives its outcome. -/
def ckptMatches (j : Job) (t n : Nat) (b : Bytes) (rs : List (Nat × TRec)) : Bool :=
  256 ≤ b.length && (b.drop 16).take 32 = bvLe (tenOf j t).digest 32 && fieldLe b 56 4 = n &&
  rs.all (fun x =>
    let e := (b.drop (256 + 64 * x.1)).take 64
    e.length = 64 && fieldLe e 0 1 = x.2.kind && fieldLe e 8 8 = x.2.count && fieldLe e 16 4 = x.2.rowlen)

/-- Where an image's entries place the sections of each tensor (R296): OFFSET, then each at the next 256-byte boundary. -/
def imagePlaces (b : Bytes) (rs : List TRec) : List (TRec × List Nat) :=
  (numbered rs).map (fun x => (x.2, (placeSections (fieldLe b (256 + 64 * x.1 + 24) 8) (sectionSizes x.2)).1))

/-- Bytes of an image's plaintext. One past its end is a free value: R298 does not say what an OFFSET that leaves the image reads (log 73). -/
def imageBytes (s : State) (b : Bytes) (o n : Nat) : Bytes := (List.range n).map (fun k => (b[o + k]?).getD (Config.fill (s.free + o + k)))

/-- Write a tensor from an image under the image's counters (R298). -/
def restoreTensor (s : State) (j : Job) (t : Nat) (b : Bytes) (r : TRec) (offs : List Nat) : State :=
  (ckptUnits r).foldl (fun s i =>
    let bs := (numbered (unitParts j r i)).map (fun x => (x.2.1, imageBytes s b (offs.getD x.1 0 + x.2.2 * i) x.2.2))
    commitUnit s j r i t (leNat (imageBytes s b (offs.getD 3 0 + 4 * i) 4)) bs) s

/-- Write every tensor of an image; the free bytes that it may have drawn are behind. -/
def restoreAll (s : State) (j : Job) (t : Nat) (b : Bytes) (rs : List TRec) : State :=
  let ps := imagePlaces b rs
  let s1 := ps.foldl (fun s x => restoreTensor s j t b x.1 x.2) s
  { s1 with free := s1.free + (ps.map (fun x => x.2.getLastD 0 + (sectionSizes x.1).getLastD 0)).foldl max 0 }

/-- CHECKPOINT_IN restores the listed tensors with their counters (R298, R299). -/
def execCheckpointIn (acc : BitVec 64) (s : State) : Host.Outcome State Fault Refusal :=
  onJob s acc 0x0A (fun c j =>
    let t := opN c 0 2 % 4096
    if !tensorTurn s j c then s
    else if !isBound j t then finish s acc stRevoked
    else match readWrapped s j ((tenOf j t).ckpt.map (fun k => (k, 0))) 4 0 (opN c 16 8) (opN c 24 8) with
      | .error e => finish s acc e
      | .ok b =>
        if opN c 2 2 = 0 || 1024 < opN c 2 2 then finish s acc stPolicy
        else if !ckptMatches j t (opN c 2 2) b (ckptNamed s j c) then finish s acc stPolicy
        else match ckptCheck s j c t true with
          | .error e => stopWith s j acc e
          | .ok rs => finish (restoreAll s j t b rs) acc stOk)

end Sys2Proof.Machine
end

