-- ==== Sys2Proof/Machine/Serve.lean ====
section
/-! DEFINITION. Continuous batching and the park list (R257 to R259, R309 to R317): ADMIT, RETIRE, the step boundary, the step's start, the park limit. -/

namespace Sys2Proof.Machine

/-! ### Sequences -/

/-- KV pages that `n` tokens take (R312). -/
def pagesFor (n : Nat) : Nat := ceilDiv n 256

/-- A sequence's domain. -/
def seqDom (j : Job) (q : Sequence) : Nat := (tenOf j q.tenant).dom.toNat

/-- Rows that a sequence takes in a step (R312). -/
def seqRows (j : Job) (q : Sequence) : Nat := if q.pos < q.plen then min (q.plen - q.pos) j.chunk else 1

/-- Pages that a sequence's next tokens need beyond those it holds (R312). -/
def seqNeed (j : Job) (q : Sequence) : Nat := pagesFor (q.pos + seqRows j q) - q.pages

/-- Free pages of a domain. -/
def freePages (j : Job) (d : Nat) : Nat := poolPages j (domOf j d) - pagesHeld j d

/-- Rows of the step being built. -/
def stepUsed (j : Job) : Nat := (j.seqs.map (·.inStep)).sum

/-- Record each domain's free pages (R316). -/
def refreshFree (j : Job) : Job := { j with doms := j.doms.map (fun e => (e.1, { e.2 with free := freePages j e.1 })) }

/-- Insert a sequence in acceptance order. -/
def insertSeq (q : Sequence) : List Sequence → List Sequence
  | [] => [q]
  | x :: r => if q.acc.toNat < x.acc.toNat then q :: x :: r else x :: insertSeq q r

/-- A sequence leaves: its ADMIT completes with a status and the sequence holds nothing more (R310). -/
def dropSeq (s : State) (q : Sequence) (st : Byte) : State :=
  let s1 := finishWith s q.acc st (admitResult q.user q.tokens)
  { s1 with job := s1.job.map (fun j => { j with seqs := j.seqs.filter (fun x => x.acc ≠ q.acc) }) }

/-! ### ADMIT and RETIRE (R309 to R311, R446) -/

/-- The wrapped prompt, whose length its own header gives (R309, R444). -/
def readPrompt (s : State) (j : Job) (t a : Nat) : Except Byte Bytes :=
  match readPublic s j a 64 with
  | .error e => .error e
  | .ok h => readWrapped s j (uploadKey s 0 t) 3 t a (80 + fieldLe h 32 8)

/-- A spill range of the pages a sequence may need (R309, R310). -/
def spillOk (j : Job) (t a n : Nat) : Bool :=
  a = 0 || n = 0 || (isCxl a && isCxl (a + n - 1) && coveredBy j (fun g => g.owner = tagTenant t && g.access = 1) a n)

/-- On admission, fetch every private expert of the tenant that is READY for the request and HOME only (R253). -/
def fetchAll (j : Job) (acc : BitVec 64) (t : Nat) : Job :=
  pumpFetch { j with slots := j.slots.map (fun e =>
    if readyFor j acc e.2 && e.2.owner.toNat = t && e.2.res = .home && e.2.want = .home then (e.1, { e.2 with want := .cached }) else e) }

/-- ADMIT: the checks of R310 and R446 in order, then the sequence is queued; it completes when its sequence ends. -/
def execAdmit (acc : BitVec 64) (s : State) : Host.Outcome State Fault Refusal :=
  onJob s acc 0x02 (fun c j =>
    let t := opN c 0 2 % 4096
    let plen := opN c 4 4
    let total := plen + opN c 8 4
    let stop := fun (st : Byte) => finishWith s acc st (admitResult (opB c 48 8 64) 0)
    if c.ph ≠ .accepted then s
    else if !isBound j t then stop stRevoked
    else if plen = 0 || opN c 8 4 = 0 || 2 ^ 24 < total || !spillOk j t (opN c 40 8) (pagesFor total * (j.pageKib * 1024)) then stop stPolicy
    else match readPrompt s j t (opN c 16 8) with
      | .error e => stop e
      | .ok b =>
        let q : Sequence :=
          { acc := acc, tenant := t, prompt := b, plen := plen, maxNew := opN c 8 4, out := opB c 24 8 64, outLen := opN c 32 8,
            spill := opB c 40 8 48, user := opB c 48 8 64 }
        updCmd { s with job := some (fetchAll { j with seqs := insertSeq q j.seqs } acc t) } acc (fun d => { d with ph := .running, started := s.hub.time }))

/-- RETIRE: the named sequence leaves at the next step boundary; a queued or parked one at once (R311). -/
def execRetire (acc : BitVec 64) (s : State) : Host.Outcome State Fault Refusal :=
  onJob s acc 0x03 (fun c j =>
    let a : BitVec 64 := opB c 8 8 64
    let named := fun (x : BitVec 64) => match findCmd s x with | some d => d.ring = opN c 0 1 && opcOf d = 0x02 && d.job = j.id | none => false
    if named a && (match findCmd s a with | some d => d.ph = .accepted && d.acc.toNat < acc.toNat | none => false) then s
    else match j.seqs.find? (fun q => q.acc = a && named q.acc) with
      | none => finish s acc stWarn
      | some q =>
        if q.tenant ≠ hdrTenant c then finish s acc stPolicy
        else if q.st = .queued || q.st = .parked then finish (dropSeq s q stWarn) acc stOk
        else finish (updSeq s a (fun q => if q.ended.isNone then { q with ended := some stWarn } else q)) acc stOk)

/-! ### The step boundary (R257, R258, R310, R312 to R314) -/

/-- The rows of the last step, sequence by sequence in acceptance order: each sequence with the index of its first row. -/
def rowStarts : Nat → List Sequence → List (Nat × Sequence)
  | _, [] => []
  | o, q :: r => (o, q) :: rowStarts (o + q.inStep) r

/-- The program marked one of a sequence's rows DONE (R315). -/
def doneRow (s : State) (j : Job) (o n : Nat) : Bool :=
  (List.range n).any (fun k => flagAt [rd1 s.mem (j.rowTab.toNat + 32 * (o + k) + 10)] 0 2)

/-- A sequence after the step that has just ended: its rows are in the cache, the last of its prompt or its one row gave a token, and it
ends with DONE, with MAX_NEW tokens, or with the status of a step that faulted (log 28). -/
def afterStep (s : State) (j : Job) (x : Nat × Sequence) : Sequence :=
  let q := x.2
  if q.inStep = 0 then q
  else match j.stepFaults with
    | f :: _ => { endSeq f.2 q with inStep := 0 }
    | [] =>
      let pos := q.pos + q.inStep
      let tok := if q.plen ≤ pos then q.tokens + 1 else q.tokens
      { q with pos := pos, tokens := tok, inStep := 0,
               ended := if q.ended.isNone && (doneRow s j x.1 q.inStep || decide (q.maxNew ≤ tok)) then some stOk else q.ended }

/-- Sequences that ended or were retired leave and their pages are free (R312). -/
def dropEnded (s : State) : State :=
  (jobOf s).seqs.foldl (fun s q => match q.ended with | some st => dropSeq s q st | none => s) s

/-- The seal of a sequence's spilled pages (R313, R421): the tenant's key, and no version. -/
def spillSeal (j : Job) (q : Sequence) : Seal := homeSeal j q.tenant 0

/-- Bytes of a sequence's pages. -/
def spillSize (j : Job) (q : Sequence) : Nat := q.pages * (j.pageKib * 1024)

/-- Spill a sequence (R313): its pages go to its SPILL range, under the tenant's key; their contents are free (log 28). -/
def spillSeq (s : State) (q : Sequence) : State :=
  let j := jobOf s
  let n := spillSize j q
  let a := q.spill.toNat
  let s1 := sealRange { s with free := s.free + n } a ((List.range n).map (fun k => Config.fill (s.free + k))) (spillSeal j q)
  let s2 := dropCached { s1 with link := s1.link ++ (linesOf a n).flatMap (linkReqs s) } a n
  updSeq s2 q.acc (fun q => { q with st := .spilled, inStep := 0, fresh := true })

/-- What a spilled sequence reads back (R313, R423, R492): a status where a line of its SPILL range is poisoned or its tag does not hold. -/
def spillFault (s : State) (j : Job) (q : Sequence) : Option Byte :=
  if (linesOf q.spill.toNat (spillSize j q)).any (fun l => s.poison.contains (lineOf l)) then some stDevice
  else if (openRange s q.spill.toNat (spillSize j q) (spillSeal j q)).isNone then some stIntegrity
  else none

/-- The youngest running sequence of a domain with a spill range (R312). -/
def youngest (j : Job) (d : Nat) : Option Sequence :=
  (j.seqs.filter (fun q => q.st = .running && seqDom j q = d && q.spill ≠ 0)).getLast?

/-- One running sequence's turn (R312): it gets the pages that its next tokens need, younger sequences spilling for it. A sequence whose rows do
not fit is left out. Fuel: the number of sequences and one. -/
def growSeq : Nat → State → Nat → BitVec 64 → State
  | 0, s, _, _ => s
  | f + 1, s, d, acc =>
    let j := jobOf s
    match j.seqs.find? (fun q => q.acc = acc && q.st = .running) with
    | none => s
    | some q =>
      if j.stepRows < stepUsed j + seqRows j q then s
      else if seqNeed j q ≤ freePages j d then updSeq s acc (fun x => { x with pages := q.pages + seqNeed j q, inStep := seqRows j q })
      else match youngest j d with
        | none => s
        | some y => if y.acc = acc then spillSeq s y else growSeq f (spillSeq s y) d acc

/-- The walk over spilled sequences and joins: the state, and whether a stop was met. -/
structure Walk where
  s    : State
  stop : Bool := false
  deriving DecidableEq, Repr

/-- One spilled sequence's turn: it returns with its pages, or nothing joins at this boundary (R312). One whose pages cannot be read back ends
with the status of that read (R313, R423, R492). -/
def returnSeq (d : Nat) (w : Walk) (acc : BitVec 64) : Walk :=
  let j := jobOf w.s
  match j.seqs.find? (fun q => q.acc = acc) with
  | none => w
  | some q =>
    if w.stop then w
    else if q.pages + seqNeed j q ≤ freePages j d && stepUsed j + seqRows j q ≤ j.stepRows then
      match spillFault w.s j q with
      | some st => { w with s := dropSeq w.s q st }
      | none => { w with s := updSeq w.s acc (fun x => { x with st := .running, pages := q.pages + seqNeed j q, inStep := seqRows j q }) }
    else { w with stop := true }

/-- Park a queued join, or complete it with NOT_RESIDENT where the park list is full (R257, R258). -/
def parkSeq (s : State) (q : Sequence) : State :=
  if 4096 ≤ parkUsed s then dropSeq { s with hub := { s.hub with parkFull := satAdd s.hub.parkFull 1 } } q stNotResident
  else updSeq s q.acc (fun x => { x with st := .parked, parkAt := s.hub.time, limit := s.hub.parkLimit })

/-- One join's turn (R312). -/
def joinSeq (d : Nat) (w : Walk) (acc : BitVec 64) : Walk :=
  let j := jobOf w.s
  match j.seqs.find? (fun q => q.acc = acc) with
  | none => w
  | some q =>
    if w.stop then w
    else if !expertsResident j q.acc q.tenant then (if q.st = .queued then { w with s := parkSeq w.s q } else w)
    else if pagesFor (q.plen + 1) ≤ freePages j d && stepUsed j + seqRows j q ≤ j.stepRows then
      { w with s := updSeq w.s acc (fun x => { x with st := .running, pages := pagesFor (q.plen + 1), inStep := seqRows j q }) }
    else { w with stop := true }

/-- One domain at a step boundary (R312). -/
def boundaryDomain (s : State) (d : Nat) : State :=
  let accs := fun (s : State) (p : Sequence → Bool) =>
    ((jobOf s).seqs.filter (fun q => p q && seqDom (jobOf s) q = d)).map (·.acc)
  let s1 := (accs s (fun q => q.st = .running)).foldl (fun s a => growSeq ((jobOf s).seqs.length + 1) s d a) s
  let w := (accs s1 (fun q => q.st = .spilled && !q.fresh)).foldl (returnSeq d) { s := s1 }
  let ready := fun (q : Sequence) => q.st = .parked && expertsResident (jobOf s1) q.acc q.tenant
  ((accs s1 ready ++ accs s1 (fun q => q.st = .queued)).foldl (joinSeq d) w).s

/-- Parked requests whose limit has passed and that are still not ready complete with NOT_RESIDENT (R258). -/
def expireParked (s : State) : State :=
  let j := jobOf s
  (j.seqs.filter (fun q => q.st = .parked && !expertsResident j q.acc q.tenant && q.parkAt.toNat + q.limit.toNat * 1000000 ≤ s.hub.time.toNat)).foldl
    (fun s q => dropSeq { s with hub := { s.hub with parkTimeouts := satAdd s.hub.parkTimeouts 1 } } q stNotResident) s

/-- STEP_BOUNDARY: the step builder's indivisible action, once the last step has completed and no built step waits (R312). -/
def execStepBoundary (s : State) : Host.Outcome State Fault Refusal :=
  match s.job with
  | none => .next s
  | some j =>
    if !hubUp s || !(j.st = 2 || j.st = 7) || j.stepping || j.stepReady then .next s
    else
      let seqs := (rowStarts 0 j.seqs).map (afterStep s j)
      let s1 : State := { s with job := some { j with seqs := seqs.map (fun q => { q with fresh := false }), stepFaults := [] } }
      let s2 := expireParked (dropEnded s1)
      let s3 := (List.range 8).foldl boundaryDomain s2
      .next { s3 with job := s3.job.map (fun k => refreshFree { k with stepReady := decide (0 < stepUsed k) }) }

/-! ### The step's start (R253, R315, R317) -/

/-- Row `k` of a sequence in the row table, with the page list's address (R315). -/
def rowEntry (q : Sequence) (pages : BitVec 64) (k : Nat) : Bytes :=
  bvLe q.acc 8 ++ natLe q.tenant 2 ++ natLe (nat (q.pos + k < q.plen)) 2 ++ natLe (q.pos + k) 4 ++ bvLe pages 8 ++ zeros 8

/-- The device address `o` bytes into the managed region, its dies' parts taken one after another (R193). -/
def managedAt (j : Job) : List Nat → Nat → Nat
  | [], o => o
  | d :: r, o => let n := j.managed.getD d 0 * 2 ^ 26; if o < n then canopyBase + d * canopySlice + o else managedAt j r (o - n)

/-- The device address of a sequence's page list (R315): 8-byte aligned, in the managed region, elsewhere free (log 28). -/
def pagesAddr (s : State) (j : Job) (k : Nat) : BitVec 64 :=
  let n := ((List.range 4).map (fun d => j.managed.getD d 0 * 2 ^ 26)).sum
  BitVec.ofNat 64 (managedAt j (List.range 4) (8 * (Config.choice (s.free + k) % (n / 8))))

/-- A padding row (R317). -/
def padEntry : Bytes := zeros 10 ++ natLe 2 2 ++ zeros 20

/-- The row table of a step: each sequence's rows, then with FIXED the padding up to STEP_ROWS. -/
def rowTable (s : State) (j : Job) : Bytes :=
  let rows := (numbered j.seqs).flatMap (fun x =>
    (List.range x.2.inStep).flatMap (rowEntry x.2 (pagesAddr s j x.1)))
  rows ++ (if j.fixed then (List.replicate (j.stepRows - stepUsed j) padEntry).flatten else [])

/-- A dispatched step holds its tenants' copies and promotes those of each of the last two steps (R253); a copy whose slot is being released
among them, while it is READY for the step (R248). -/
def useCopies (j : Job) (n : Nat) : Job :=
  let ts := (j.seqs.filter (fun q => q.inStep ≠ 0)).map (·.tenant)
  let mine := fun (e : Nat × Slot) => readyFor j stepAcc e.2 && ts.contains e.2.owner.toNat
  let j1 := { j with slots := j.slots.map (fun e => if mine e then
    (e.1, { e.2 with use := satAdd e.2.use 1, prevStep := e.2.lastStep, lastStep := n }) else e) }
  let hot := (j1.slots.filter (fun e => mine e && e.2.prevStep + 1 = n && e.2.prevStep ≠ 0 && e.2.res = .cached)).map (·.1)
  hot.foldl (fun j i => makeHot j.slots.length j i) j1

/-- The moment a step starts: now, or with a period the next multiple of it after the previous start (R317), in ns. -/
def stepTime (s : State) (j : Job) : Nat :=
  let p := j.periodUs * 1000
  let now := s.hub.time.toNat
  if p = 0 then now
  else
    let t := alignUp now p
    match j.stepStart with
    | some l => if t ≤ l.toNat then (l.toNat / p + 1) * p else t
    | none => t

/-- STEP_START: the built step's program starts on the step's glades (R312, R315, R317); a frame that waits for one of them goes first
(R321). Its program's argument words are 0 (log 28). -/
def execStepStart (s : State) : Host.Outcome State Fault Refusal :=
  match s.job with
  | none => .next s
  | some j =>
    let gs := gladesIn s j.stepGlades
    let p := progOf j j.stepSlot.toNat
    if !hubUp s || !(j.st = 2 || j.st = 7) || !j.stepReady || j.stepping || gs = [] || p.size = 0 || gs.any (gladeHeld s) ||
       !gladesFree s gs || frameWaits s j gs then .next s
    else if !domainsReady s gs then .next (wakeDomains s gs)
    else
      let s0 := advanceTo s (stepTime s j)
      let n := j.boundary + 1
      let j1 := { useCopies j n with stepReady := false, stepping := true, boundary := n, stepStart := some s0.hub.time }
      let s1 := hubWrite { s0 with job := some j1, free := s.free + j.seqs.length } j.rowTab.toNat (rowTable s j) tagPublic
      let s2 := if throttledNow s gs then markThrottled s1 (stepCmds s1) else s1
      .next (gladesDone (startGlades s2 p stepAcc j.stepSlot gs []) stepAcc)

/-- PARK_LIMIT_EXPIRY: the hub-local counter reaches a parked request's limit (R258); the next step boundary completes it. -/
def execParkLimitExpiry (acc : BitVec 64) (s : State) : Host.Outcome State Fault Refusal :=
  match (jobOf s).seqs.find? (fun q => q.acc = acc && q.st = .parked) with
  | some q => if hubUp s && jobOpen s then .next (advanceTo s (q.parkAt.toNat + q.limit.toNat * 1000000)) else .next s
  | none => .next s

end Sys2Proof.Machine
end

