-- ==== Sys2Proof/Machine/HostPath.lean ====
section
/-! DEFINITION. The host paths beside rings and registers: the plaintext staging window (R190, R376, R377), configuration requests (R463) and the management bus (R20, R464, R561). -/

namespace Sys2Proof.Machine

/-- The CXL.mem path serves the staging window once the device is ready. -/
def stagingOpen (s : State) : Bool := hubUp s && s.boot.devReady

/-- STAGING_WRITE: a host write to the window, its line PUBLIC (R376), with a hub-and-CXL credit of its home die (R214). It waits while R217
holds the class back (R377). A fenced channel stores nothing (R500); a write of a whole line clears its poison (R492). -/
def execStagingWrite (a : BitVec 30) (b : Bytes) (s : State) : Host.Outcome State Fault Refusal :=
  let x := a.toNat
  if !stagingOpen s || s.hub.hostHold || creditsFree s 0 2 = 0 then .next s
  else
    let s1 := takeCredit s 0 2
    let ps := (pieces x b).filter (fun p => backed s p.1 && !onFenced s p.1)
    .next (ps.foldl (fun s p =>
      let s2 := scrubLine s (lineOf p.1)
      { s2 with
        mem := wrBytes s2.mem p.1 p.2,
        poison := if p.2.length = 256 then s2.poison.filter (fun l => l ≠ lineOf p.1) else s2.poison }) s1)

/-- STAGING_READ: the bytes stored, ciphertext where it lies in the window (R418), poison where a line cannot be read (R377, R492, R500). -/
def execStagingRead (a : BitVec 30) (n : Nat) (s : State) : Host.Outcome State Fault Refusal :=
  let x := a.toNat
  if !stagingOpen s then .next s
  else if (linesOf x n).any (fun l => !backed s l || onFenced s l || s.poison.contains (lineOf l)) then .next (emit s .poisoned)
  else
    let b := (List.range n).map (fun k => (storedLine s (lineOf (x + k))).getD ((x + k) % 256) 0)
    .next (emit s (.readData b))

/-- CONFIG_REQUEST: retry status until step 4 of the boot has ended, then answered normally (R463, R461). -/
def execConfigRequest (s : State) : Host.Outcome State Fault Refusal :=
  if !s.pins.pwrGood || s.pins.perst then .next s
  else .next (emit s (if s.boot.cfgReady then .configDone else .retry))

/-- The FRU EEPROM's content (R561). The layout is the model's choice (log 53): part number, stepping, DEVICE_ID, then serial number and
manufacturing date, zero-padded to 256 bytes. -/
def fruImage : Bytes := padTo (ascii "PVL-Y4096-MC0" ++ [0xB0] ++ bvLe Config.deviceId 16 ++ Config.fruSerial) 256

/-- FRU_READ answers whenever the auxiliary rail is up (R560, R561). -/
def execFruRead (off n : Nat) (s : State) : Host.Outcome State Fault Refusal :=
  if s.pins.inputOk then .next (emit s (.fru ((fruImage.drop off).take n))) else .next s

/-- MCTP_TELEMETRY: power, temperature, the cause of a stopped boot and the hub fault, with the two coolant temperatures, which are measured
(R20, R461, R464, R507, R569; log 53). It answers while the always-on domain runs, from the end of step 3. -/
def execMctpTelemetry (s : State) : Host.Outcome State Fault Refusal :=
  if !s.pins.pwrGood || s.pins.perst || s.boot.stage = 0 then .next s
  else
    let b := natLe s.hub.powerW.toNat 2 ++ [s.hub.maxTemp, Config.fill s.free, Config.fill (s.free + 1), s.boot.fail, BitVec.ofNat 8 (nat s.hub.fault)]
    .next (emit { s with free := s.free + 2 } (.telemetry b))

end Sys2Proof.Machine
end

