-- ==== Sys2Proof/Machine/RangerOps.lean ====
section
/-! DEFINITION. The Ranger mailbox and its messages (R429 to R452): reports, sessions, policies, checkpoint keys, lists and tables, firmware update. -/

namespace Sys2Proof.Machine

/-! ### The mailbox (R429 to R433) -/

/-- RESULT codes of R431. -/
def rsOk : BitVec 8 := 0
def rsBadFormat : BitVec 8 := 1
def rsAuthFail : BitVec 8 := 2
def rsRefused : BitVec 8 := 3
def rsNoSession : BitVec 8 := 4
def rsLimit : BitVec 8 := 5
def rsNotBound : BitVec 8 := 6
def rsCollision : BitVec 8 := 7

/-- Host address of the mailbox buffer (R430). -/
def mbBase (s : State) : Nat := s.rgr.mbAddr.toNat * 2 ^ 15

/-- The request's header (R433) and fields. -/
def mbHeader (s : State) : Bytes := rdBytes s.host (mbBase s) 24
def mbCode (s : State) : Nat := fieldLe (mbHeader s) 0 2
def mbLen (s : State) : Nat := fieldLe (mbHeader s) 4 4
def mbSession (s : State) : BitVec 64 := fieldBv (mbHeader s) 8 8 64
def mbSeq (s : State) : BitVec 64 := fieldBv (mbHeader s) 16 8 64
def mbBody (s : State) : Bytes := rdBytes s.host (mbBase s + 24) (mbLen s)

/-- A header without reserved bits whose body fits the request area (R429, R433). -/
def mbWellFormed (s : State) : Bool := zeroAt (mbHeader s) 2 2 && decide (24 + mbLen s ≤ 16384)

/-- The codes of R434. -/
def mbKnown (c : Nat) : Bool := [0x01, 0x02, 0x03, 0x04, 0x05, 0x06, 0x07, 0x08, 0x09, 0x10, 0x11, 0x12, 0x13].contains c

/-- A response header for a body length (R433). -/
def mbReplyHeader (s : State) (n : Nat) : Bytes :=
  natLe (mbCode s) 2 ++ zeros 2 ++ natLe n 4 ++ bvLe (mbSession s) 8 ++ bvLe (mbSeq s) 8

/-- A message ends: the response is written, the registers report it, and the vector is sent (R429, R431). RESP_LEN counts header and
body (log 54). -/
def mbReply (s : State) (result : BitVec 8) (body : Bytes) : State :=
  let r := mbReplyHeader s body.length ++ body
  let s1 := hostWrite s (mbBase s + 16384) r
  let s2 : State := { s1 with rgr := { s1.rgr with busy := false, done := true, result := result, respLen := BitVec.ofNat 16 r.length, seq := s1.rgr.seq + 1 } }
  if s2.rgr.mbVector = 0 then s2 else sendVector s2 s2.rgr.mbVector

/-- A message's own row runs while Ranger is busy with a message of its code; a malformed one gets BAD_FORMAT. -/
def onMessage (s : State) (code : Nat) (f : State) : Host.Outcome State Fault Refusal :=
  if !hubUp s || !s.boot.devReady || !s.rgr.busy || mbCode s ≠ code then .next s
  else if !mbWellFormed s then .next (mbReply s rsBadFormat [])
  else .next f

/-- The IV of a message in a session (R433). -/
def mbIv (x : Session) (seq : BitVec 64) : Bytes := padTo x.civ 4 ++ bvLe seq 8

/-- A reply inside a session: its body encrypted under the response key, the header authenticated (R433). -/
def mbReplyIn (s : State) (x : Session) (body : Bytes) : State :=
  mbReply s rsOk (padTo (Config.gcmSeal x.rspKey (mbIv x (mbSeq s)) (mbReplyHeader s (body.length + 16)) body) (body.length + 16))

/-- An in-session request (R433): the session it names, its SEQ and its tag; the SEQ is then recorded. A message of the tenant role in
another role's session gets NO_SESSION (log 54). -/
def inSession (s : State) (tenantOnly : Bool) (f : State → Session → Bytes → State) : State :=
  match s.rgr.sessions.find? (fun x => x.sid = mbSession s) with
  | none => mbReply s rsNoSession []
  | some x =>
    if mbSession s = 0 || (tenantOnly && x.role ≠ 0) then mbReply s rsNoSession []
    else if (mbSeq s).toNat ≤ x.seq.toNat then mbReply s rsAuthFail []
    else match Config.gcmOpen x.reqKey (mbIv x (mbSeq s)) (mbHeader s) (mbBody s) with
      | none => mbReply s rsAuthFail []
      | some b =>
        let y := { x with seq := mbSeq s }
        f { s with rgr := { s.rgr with sessions := s.rgr.sessions.map (fun z => if z.sid = x.sid then y else z) } } y (padTo b (mbLen s - 16))

/-! ### The report (R435 to R438) -/

/-- The two banks, and their manifests' values (R425, R427). -/
def bankOf (s : State) (b : Bool) : Bank := if b then s.flash.bank1 else s.flash.bank0
def setBank (s : State) (b : Bool) (v : Bank) : State :=
  { s with flash := if b then { s.flash with bank1 := v } else { s.flash with bank0 := v } }
def bankSvn (x : Bank) : BitVec 7 := BitVec.ofNat 7 (Config.manifestSvn x.image).val
def bankDigest (x : Bank) (i : Nat) : Digest := if i = 0 then Config.bootRomDigest else Config.manifestDigest x.image i

/-- Bytes of a digest as a structure holds it. -/
def dig (d : Digest) : Bytes := bvLe d 32

/-- The digest of a program slot, 0 for an empty one (R123, R435). -/
def slotDigest (j : Job) (i : Nat) : Digest := if (progOf j i).size = 0 then 0 else (progOf j i).digest

/-- A segment-table entry as R201 lays it out. -/
def segBytes (g : Seg) : Bytes :=
  if !g.valid then zeros 32
  else
    natLe (g.base.toNat + g.owner.toNat * 2 ^ 48 + g.access.toNat * 2 ^ 61 + 2 ^ 63) 8 ++
    natLe (g.len.toNat + g.dom.toNat * 2 ^ 48 + nat g.enc * 2 ^ 51 + g.vsrc.toNat * 2 ^ 52 + g.home.toNat * 2 ^ 54 + g.rowlog.toNat * 2 ^ 56) 8 ++
    natLe g.vbase.toNat 8 ++ zeros 8

/-- The value of DOM_CFG for a domain (R209). -/
def domCfg (d : Dom) : BitVec 64 := pack [(0, 8, d.quads.toNat), (8, 16, d.cways.toNat), (24, 16, d.tways.toNat), (40, 1, nat d.valid)]

def tenState (t : Tenant) : Nat := match t.st with | .free => 0 | .bound => 1 | .revoking => 2

/-- The input of the job configuration digest (R437); nothing while no job is current (log 54). -/
def jobCfgInput (s : State) : Bytes :=
  match s.job with
  | none => []
  | some j =>
    padTo j.pblock 256 ++ (List.range 4096).flatMap (fun i => segBytes (segOf j i)) ++
    (List.range 8).flatMap (fun d => bvLe (domCfg (domOf j d)) 8 ++ [(domOf j d).apool, (domOf j d).kvpool] ++ zeros 6) ++
    (List.range 4096).flatMap (fun t =>
      let x := tenOf j t
      natLe (tenState x) 1 ++ natLe x.dom.toNat 1 ++ zeros 30 ++ dig x.digest ++ dig (policyDigest x))

/-- A tenant's adapter list (R438). -/
def adapterList (j : Job) (t : Nat) : Bytes :=
  (slotsOwned j t).flatMap (fun e => natLe e.1 2 ++ [e.2.layer, BitVec.ofNat 8 (e.2.width.toNat + 64 * e.2.blk.toNat)] ++ bvLe e.2.gen 4 ++ dig e.2.digest)

/-- The slots that a report lists: the first 128 set bits of the request's mask (R436). -/
def reportSlots (mask : Nat) : List Nat := (bitsSet mask 256).take 128

/-- The base-owner digest recorded for a tag (R441): with the current job, or with Ranger while no job is current (log 54). -/
def ownerOf (s : State) (k : Nat) : Option Digest :=
  match s.job with
  | some j => (baseOf j k).owner
  | none => if k = 0 then s.rgr.ownA else s.rgr.ownB

/-- The report's bytes up to its signature (R435): nonce, slots, ephemeral public key, and the tenant whose session asks. -/
def reportBody (s : State) (nonce : Bytes) (slots : List Nat) (eph : Bytes) (ten : Option Nat) : Bytes :=
  let j := jobOf s
  let up := rgrStateNow s = 1
  let run := bankOf s s.rgr.bank
  let st := bankOf s (!s.rgr.bank)
  let staged := s.rgr.updating && Config.manifestStaged st.image
  let fences := s.fences.grove.toNat + s.fences.canopy.toNat * 2 ^ 16 + s.fences.horizon.toNat * 2 ^ 20
  let base := fun (b : BaseGen) => if b.loaded then b.digest else 0
  let part : Bytes := match ten with
    | none => natLe 0xFFFF 2 ++ zeros 102
    | some t => natLe t 2 ++ natLe (slotsOwned j t).length 2 ++ zeros 4 ++ dig (tenOf j t).digest ++ dig (policyDigest (tenOf j t)) ++
        dig (Config.sha256 (adapterList j t))
  natLe 0x5450524C 4 ++ natLe 0x00010000 4 ++ natLe (1024 + 32 * slots.length + 64) 4 ++ natLe (rgrStateNow s) 1 ++
  natLe (nat (s.job.isSome || s.saved ≠ []) + 2 * nat ten.isSome) 1 ++ natLe slots.length 2 ++ bvLe Config.deviceId 16 ++ [0xB0] ++
  natLe s.flash.fusedSvn.toNat 1 ++ natLe s.rgr.runSvn.toNat 1 ++ natLe (if up && staged then (bankSvn st).toNat else 0) 1 ++ natLe 3 8 ++
  bvLe s.flash.coldGen 2 ++ bvLe s.rst.warmCnt 2 ++ bvLe s.rst.dieResets 4 ++ natLe s.rst.held.toNat 4 ++ natLe fences 4 ++ zeros 4 ++
  padTo nonce 32 ++ padTo eph 64 ++ (List.range 6).flatMap (fun i => dig (bankDigest run i)) ++
  (if up && staged then (List.range 6).flatMap (fun i => dig (bankDigest st i)) else zeros 192) ++
  bvLe j.id 4 ++ natLe (jobSt s).toNat 1 ++ zeros 3 ++ dig (if s.job.isSome then Config.sha256 (jobCfgInput s) else 0) ++
  bvLe j.baseA.num 4 ++ bvLe j.baseB.num 4 ++ dig (base j.baseA) ++ dig (base j.baseB) ++ dig ((ownerOf s 0).getD 0) ++ dig ((ownerOf s 1).getD 0) ++
  dig (Config.sha256 ((List.range 256).flatMap (fun i => dig (slotDigest j i)))) ++
  natLe (slots.foldl (fun m i => m + 2 ^ i) 0) 32 ++ part ++ zeros 136 ++ slots.flatMap (fun i => dig (slotDigest j i))

/-- A report signed by the alias key (R435): its ephemeral key is held for its nonce, unless key agreement is refused (R439, R441); 64 keys at
most, the oldest dropped. -/
def makeReport (s : State) (nonce : Bytes) (mask : Nat) (ten : Option Nat) : State × Bytes :=
  let agree := rgrStateNow s = 0
  let num := s.free
  let s1 := drawRandom (drawRandom s)
  let b := reportBody s nonce (reportSlots mask) (if agree then Config.ephPublic num else []) ten
  let r := b ++ padTo (Config.ecdsaSign s.rgr.aliasKey (Config.sha256 b) (num + 1)) 64
  let e : Eph := { nonce := padTo nonce 32, report := r, time := s.hub.time, num := num }
  let es := s1.rgr.ephs ++ [e]
  (if agree then { s1 with rgr := { s1.rgr with ephs := es.drop (es.length - 64) } } else s1, r)

/-- REPORT, plain or in a session (R434, R436). -/
def execReport (s : State) : Host.Outcome State Fault Refusal :=
  onMessage s 0x01
    (if mbSession s = 0 then
      (if mbLen s ≠ 64 then mbReply s rsBadFormat []
      else
        let x := makeReport s ((mbBody s).take 32) (fieldLe (mbBody s) 32 32) none
        mbReply x.1 rsOk x.2)
    else inSession s false (fun s x b =>
      if b.length ≠ 64 then mbReply s rsBadFormat []
      else
        let y := makeReport s (b.take 32) (fieldLe b 32 32) (if x.role = 0 then some x.tenant else none)
        mbReplyIn y.1 x y.2))

/-! ### Sessions (R440 to R443) -/

/-- A session key's bytes (R442). -/
def sessKey (th : Digest) (z : Bytes) (info : String) (n : Nat) : Bytes := padTo (Config.hkdf (dig th) z (ascii info) n) n
def keyNum (b : Bytes) : Digest := BitVec.ofNat 256 (leNat b)

/-- The identifiers of every session that Ranger holds, those of saved jobs among them (R441, R443). -/
def heldSids (s : State) : List (BitVec 64) := s.rgr.sessions.map (·.sid) ++ s.saved.flatMap (fun v => v.sess.map (·.sid))

/-- The tag of a base-owner role, recorded by an open that passes every check (R441). -/
def recordOwner (s : State) (role : Nat) (d : Digest) : State :=
  if role = 0 || (ownerOf s (role - 1)).isSome then s
  else match s.job with
    | some j => { s with job := some (setBase j (role - 1) { baseOf j (role - 1) with owner := some d }) }
    | none => { s with rgr := if role = 1 then { s.rgr with ownA := some d } else { s.rgr with ownB := some d } }

/-- The ephemeral key of a nonce is erased (R441). -/
def eraseEph (s : State) (nonce : Bytes) : State := { s with rgr := { s.rgr with ephs := s.rgr.ephs.filter (fun x => x.nonce ≠ nonce) } }

/-- SESSION_OPEN: the checks of R441 in order; the ephemeral key that NONCE names is erased either way. A base owner needs no current job. -/
def execSessionOpen (s : State) : Host.Outcome State Fault Refusal :=
  onMessage s 0x02
    (let b := mbBody s
     let role := fieldLe b 0 1
     let ten := fieldLe b 2 2
     let pub := (b.drop 100).take 64
     let kd := Config.sha256 pub
     if b.length ≠ 228 || 2 < role || !zeroAt b 1 1 || (role = 0 && 4096 ≤ ten) then mbReply s rsBadFormat []
     else
       let nonce := (b.drop 4).take 32
       let s1 := eraseEph s nonce
       if rgrStateNow s ≠ 0 then mbReply s1 rsRefused []
       else match s.rgr.ephs.find? (fun e => e.nonce = nonce) with
         | none => mbReply s1 rsAuthFail []
         | some e =>
           let th := Config.sha256 (e.report ++ b.take 164)
           if !Config.ecdsaVerify pub th (b.drop 164) then mbReply s1 rsAuthFail []
           else if role = 0 && (s.job.isNone || !isBound (jobOf s) ten) then mbReply s1 rsNotBound []
           else if role = 0 && (tenOf (jobOf s) ten).digest ≠ kd then mbReply s1 rsAuthFail []
           else if role ≠ 0 && (match ownerOf s (role - 1) with | some d => decide (d ≠ kd) | none => false) then mbReply s1 rsAuthFail []
           else
             let z := Config.ecdh e.num ((b.drop 36).take 64)
             let sid : BitVec 64 := BitVec.ofNat 64 (leNat (sessKey th z "LYM-SESS id" 8))
             if sid = 0 || (heldSids s).contains sid then mbReply s1 rsCollision []
             else
               let x : Session :=
                 { role := role, tenant := ten, sid := sid, upKey := keyNum (sessKey th z "LYM-SESS up" 32),
                   egrKey := keyNum (sessKey th z "LYM-SESS egr" 32), reqKey := keyNum (sessKey th z "LYM-SESS req" 32),
                   rspKey := keyNum (sessKey th z "LYM-SESS rsp" 32), civ := sessKey th z "LYM-SESS civ" 4, seq := 0,
                   iv := (bvLe (nextRandom s1) 32).take 4, ivCnt := 0 }
               let s2 := recordOwner (setSession (drawRandom s1) role ten (some x)) role kd
               mbReply s2 rsOk (bvLe sid 8 ++ padTo (Config.gcmSeal x.rspKey (mbIv x 0) (mbReplyHeader s 24) []) 16))

/-- SESSION_CLOSE ends its session (R443). -/
def execSessionClose (s : State) : Host.Outcome State Fault Refusal :=
  onMessage s 0x03 (inSession s false (fun s x b =>
    if b ≠ [] then mbReply s rsBadFormat [] else mbReplyIn (setSession s x.role x.tenant none) x []))

/-! ### A tenant's messages (R438, R451, R452) -/

/-- A policy body's form (R451). -/
def policyOk (b : Bytes) : Bool :=
  let n := fieldLe b 2 1
  4 ≤ b.length && b.length ≤ 580 && fieldLe b 0 1 ≤ 1 && fieldLe b 1 1 < 2 && n ≤ 16 && 4 + 36 * n ≤ b.length && zeroAt b 3 1 &&
  (List.range n).all (fun k => zeroAt b (5 + 36 * k) 3) && zeroAt b (4 + 36 * n) 580

/-- SET_POLICY stores the body, padded to 580 bytes (R451). -/
def execSetPolicy (s : State) : Host.Outcome State Fault Refusal :=
  onMessage s 0x04 (inSession s true (fun s x b =>
    if !policyOk b then mbReply s rsBadFormat []
    else mbReplyIn { s with job := s.job.map (fun j => setTen j x.tenant { tenOf j x.tenant with policy := padTo b 580 }) } x []))

/-- SET_CKPT_KEY installs the checkpoint key, with a fresh IV prefix (R445, R452). -/
def execSetCkptKey (s : State) : Host.Outcome State Fault Refusal :=
  onMessage s 0x05 (inSession s true (fun s x b =>
    if b.length ≠ 32 then mbReply s rsBadFormat []
    else mbReplyIn { drawRandom s with job := s.job.map (fun j => setTen j x.tenant { tenOf j x.tenant with
      ckpt := some (keyNum b), ckptIv := (bvLe (nextRandom s) 32).take 4, ckptCnt := 0 }) } x []))

/-- ADAPTER_LIST returns the tenant's list; one that the response area cannot hold gets LIMIT (R438, log 54). -/
def execAdapterList (s : State) : Host.Outcome State Fault Refusal :=
  onMessage s 0x06 (inSession s true (fun s x b =>
    let l := adapterList (jobOf s) x.tenant
    if b ≠ [] then mbReply s rsBadFormat []
    else if 16384 < 24 + l.length + 16 then mbReply s rsLimit []
    else mbReplyIn s x l))

/-! ### Tables and certificates (R417, R434, R437) -/

/-- PROG_TABLE returns the 256 program digests (R434). -/
def execProgTable (s : State) : Host.Outcome State Fault Refusal :=
  onMessage s 0x07
    (if mbLen s ≠ 0 then mbReply s rsBadFormat []
     else mbReply s rsOk ((List.range 256).flatMap (fun i => dig (slotDigest (jobOf s) i))))

/-- JOB_CONFIG returns up to 16,360 bytes of the digest's input from OFFSET (R434, R437). -/
def execJobConfig (s : State) : Host.Outcome State Fault Refusal :=
  onMessage s 0x08
    (if mbLen s ≠ 8 then mbReply s rsBadFormat []
     else mbReply s rsOk (((jobCfgInput s).drop (leNat (mbBody s))).take 16360))

/-- CERT_CHAIN returns the four certificates of the chain (R417, R434). -/
def execCertChain (s : State) : Host.Outcome State Fault Refusal :=
  onMessage s 0x09
    (if mbLen s ≠ 0 then mbReply s rsBadFormat [] else mbReply s rsOk (s.rgr.chain.take 16360))

/-! ### Firmware update (R426 to R428) -/

/-- FW_STAGE writes a chunk into the inactive bank and the state becomes UPDATING (R428). A bank being written is neither valid nor marked; a
chunk beyond half of the 64 MiB flash gets LIMIT (log 54). -/
def execFwStage (s : State) : Host.Outcome State Fault Refusal :=
  onMessage s 0x10
    (let b := mbBody s
     let off := fieldLe b 0 8
     let k := !s.rgr.bank
     if b.length < 8 || 16360 < b.length then mbReply s rsBadFormat []
     else if 2 ^ 25 < off + (b.length - 8) then mbReply s rsLimit []
     else
       let v := bankOf s k
       let s1 := setBank s k { valid := false, image := wrBytes v.image off (b.drop 8) }
       mbReply { s1 with rgr := { s1.rgr with updating := true }, flash := { s1.flash with marked := false } } rsOk [])

/-- FW_ACTIVATE checks the staged bank under R426 and marks it to boot if it passes (R428); otherwise AUTH_FAIL and still UPDATING. -/
def execFwActivate (check : Fin 6) (s : State) : Host.Outcome State Fault Refusal :=
  onMessage s 0x11
    (let k := !s.rgr.bank
     let v := bankOf s k
     if mbLen s ≠ 0 then mbReply s rsBadFormat []
     else if !s.rgr.updating then mbReply s rsRefused []
     else if check.val ≠ 0 || (bankSvn v).toNat < s.flash.fusedSvn.toNat then
       mbReply { s with flash := { s.flash with marked := false } } rsAuthFail []
     else
       let s1 := setBank s k { v with valid := true }
       mbReply { s1 with flash := { s1.flash with marked := true } } rsOk [])

/-- FW_ABANDON marks the staged bank invalid and returns the state to READY (R428). -/
def execFwAbandon (s : State) : Host.Outcome State Fault Refusal :=
  onMessage s 0x12
    (let k := !s.rgr.bank
     if mbLen s ≠ 0 then mbReply s rsBadFormat []
     else if !s.rgr.updating then mbReply s rsRefused []
     else
       let s1 := setBank s k { bankOf s k with valid := false }
       mbReply { s1 with rgr := { s1.rgr with updating := false }, flash := { s1.flash with marked := false } } rsOk [])

/-- FW_COMMIT_SVN raises the fused SVN to the running one; refused where that is not greater (R427). -/
def execFwCommitSvn (s : State) : Host.Outcome State Fault Refusal :=
  onMessage s 0x13
    (if mbLen s ≠ 0 then mbReply s rsBadFormat []
     else if s.rgr.runSvn.toNat ≤ s.flash.fusedSvn.toNat then mbReply s rsRefused []
     else mbReply { s with flash := { s.flash with fusedSvn := s.rgr.runSvn } } rsOk [])

/-! ### Ranger's own events (R414, R441) -/

/-- DRBG_RESEED: the random source is reseeded after 2^20 requests (R414). -/
def execDrbgReseed (s : State) : Host.Outcome State Fault Refusal :=
  if 2 ^ 20 ≤ s.rgr.drbg then .next { s with rgr := { s.rgr with drbg := 0 } } else .next s

/-- EPHEMERAL_KEY_EXPIRY: the oldest report's key is dropped 10 s after the report (R441). -/
def execEphemeralKeyExpiry (s : State) : Host.Outcome State Fault Refusal :=
  match s.rgr.ephs with
  | [] => .next s
  | e :: r => if hubUp s then .next { advanceTo s (e.time.toNat + 10000000000) with rgr := { s.rgr with ephs := r } } else .next s

end Sys2Proof.Machine
end

