-- ==== Sys2Proof/Machine/SpdmOps.lean ====
section
/-! DEFINITION. SPDM over DOE and MCTP, CXL IDE key programming and TDISP (R453, R454, R464). The codes of answers are those of SPDM 1.2 and TDISP 1.0, which R453 and R454 name (log 55). -/

namespace Sys2Proof.Machine

/-! ### Answers -/

/-- SPDM's ERROR with an error code. -/
def spdmError (s : State) (code : Byte) : State := emit s (.spdm 0x7F [code])

def seInvalidRequest : Byte := 0x01
def seInvalidSession : Byte := 0x02
def seBusy : Byte := 0x03
def seDecrypt : Byte := 0x06
def seUnsupported : Byte := 0x07
def seNotReady : Byte := 0x42

/-- A request reaches the device: over MCTP while the always-on domain runs, over DOE once configuration requests are answered. Before
DEV_READY it gets ResponseNotReady (R464). -/
def onSpdm (s : State) (mctp : Bool) (f : State) : Host.Outcome State Fault Refusal :=
  let reaches := s.pins.pwrGood && !s.pins.perst && (if mctp then s.boot.stage ≠ 0 else barAnswers s)
  if !reaches || s.hub.fault then .next s
  else if !s.boot.devReady then .next (spdmError s seNotReady)
  else .next f

/-- SPDM's ERROR UnsupportedRequest, which names the request's code. -/
def spdmUnsupported (s : State) (code : Byte) : State := emit s (.spdm 0x7F [seUnsupported, code])

/-- An established session (R453). -/
def spdmOpen (s : State) (sid : BitVec 32) : Bool := s.spdm.sessions.any (fun x => x.sid = sid && x.est)

/-- A session changes. -/
def updSpdm (s : State) (sid : BitVec 32) (f : SpdmSes → SpdmSes) : State :=
  { s with spdm := { s.spdm with sessions := s.spdm.sessions.map (fun x => if x.sid = sid then f x else x) } }

/-- A key of an SPDM session: HKDF over the exchange's transcript and its ECDH secret, or over an earlier key. The labels are those of SPDM 1.2,
which R453 names (log 55). -/
def spdmKey (salt z : Bytes) (label : String) : Bytes := padTo (Config.hkdf salt z (ascii label) 32) 32

/-- A message inside a session: AES-256-GCM under the response key, with the session and the record's number as additional data (R453; log 55).
`kind` tells SPDM (0) from TDISP (1) messages. -/
def answerIn (s : State) (sid : BitVec 32) (kind code : Byte) (b : Bytes) : State :=
  let x := (s.spdm.sessions.find? (fun x => x.sid = sid)).getD ⟨sid, false, [], [], 0⟩
  emit (updSpdm s sid (fun x => { x with sent := x.sent + 1 }))
    (.secured sid (Config.gcmSeal (keyNum x.rspKey) (zeros 4 ++ bvLe x.sent 8) (bvLe sid 4 ++ bvLe x.sent 8) ([kind, code] ++ b)))

/-- Answers of the two protocols inside a session. -/
def spdmIn (s : State) (sid : BitVec 32) (code : Byte) (b : Bytes) : State := answerIn s sid 0 code b
def tdispIn (s : State) (sid : BitVec 32) (code : Byte) (b : Bytes) : State := answerIn s sid 1 code b

/-- A request inside an established session; in any other, InvalidSession. -/
def inSpdm (s : State) (mctp : Bool) (sid : BitVec 32) (f : State) : Host.Outcome State Fault Refusal :=
  onSpdm s mctp (if spdmOpen s sid then f else spdmError s seInvalidSession)

/-- A signature by the alias key over a digest, with its nonce drawn (R413, R415). -/
def aliasSign (s : State) (b : Bytes) : State × Bytes :=
  (drawRandom s, padTo (Config.ecdsaSign s.rgr.aliasKey (Config.sha256 b) s.free) 64)

/-! ### SPDM (R453) -/

/-- GET_VERSION: 1.2 only. -/
def execGetVersion (mctp : Bool) (s : State) : Host.Outcome State Fault Refusal := onSpdm s mctp (emit s (.spdm 0x04 (natLe 0x1200 2)))

/-- GET_CAPABILITIES: CERT, CHAL, MEAS with signature, ENCRYPT, MAC, KEY_EX, HBEAT, KEY_UPD. -/
def execGetCapabilities (mctp : Bool) (s : State) : Host.Outcome State Fault Refusal := onSpdm s mctp (emit s (.spdm 0x61 (natLe 0x62D6 4)))

/-- GET_DIGESTS: the digest of slot 0's chain. -/
def execGetDigests (mctp : Bool) (s : State) : Host.Outcome State Fault Refusal :=
  onSpdm s mctp (emit s (.spdm 0x01 (dig (Config.sha256 s.rgr.chain))))

/-- GET_CERTIFICATE: part of slot 0's chain; no other slot is supported (R453). -/
def execGetCertificate (mctp : Bool) (slot : Byte) (offset len : BitVec 16) (s : State) : Host.Outcome State Fault Refusal :=
  onSpdm s mctp (if slot ≠ 0 then spdmUnsupported s 0x82
    else emit s (.spdm 0x02 ((s.rgr.chain.drop offset.toNat).take len.toNat)))

/-- CHALLENGE for slot 0: signed by the alias key. -/
def execChallenge (mctp : Bool) (slot : Byte) (nonce : Digest) (s : State) : Host.Outcome State Fault Refusal :=
  onSpdm s mctp (if slot ≠ 0 then spdmUnsupported s 0x83
    else
      let b := dig nonce ++ dig (nextRandom s)
      let x := aliasSign (drawRandom s) b
      emit x.1 (.spdm 0x03 (dig (Config.sha256 s.rgr.chain) ++ dig (nextRandom s) ++ x.2)))

/-- A measurement block's value: blocks 1 to 6 the components of R425, block 0xF0 the report with the SPDM nonce. -/
def measurement (s : State) (block : Nat) (nonce : Digest) : State × Bytes :=
  if block = 0xF0 then makeReport s (dig nonce) 0 none
  else (s, dig (bankDigest (bankOf s s.rgr.bank) (block - 1)))

/-- GET_MEASUREMENTS: one block, every block (0xFF) or their number (0), signed; no other block is supported (R453). -/
def execGetMeasurements (mctp : Bool) (block : Byte) (nonce : Digest) (s : State) : Host.Outcome State Fault Refusal :=
  let blocks : List Nat := if block = 0xFF then [1, 2, 3, 4, 5, 6, 0xF0] else [block.toNat]
  onSpdm s mctp
    (if block = 0 then emit s (.spdm 0x60 [7])
     else if !blocks.all (fun b => (1 ≤ b && b ≤ 6) || b = 0xF0) then spdmUnsupported s 0xE0
     else
       let x := blocks.foldl (fun (x : State × Bytes) b =>
         let y := measurement x.1 b nonce
         (y.1, x.2 ++ y.2)) (s, [])
       let y := aliasSign x.1 (dig nonce ++ x.2)
       emit y.1 (.spdm 0x60 (x.2 ++ y.2)))

/-- KEY_EXCHANGE starts a session with a fresh identifier half and ephemeral share, its keys from the secp256r1 product with the requester's
share; Busy while the device state is not READY (R439). -/
def execKeyExchange (mctp : Bool) (req : BitVec 16) (k : KeyShare) (s : State) : Host.Outcome State Fault Refusal :=
  onSpdm s mctp
    (if rgrStateNow s ≠ 0 then spdmError s seBusy
     else
       let rsp : BitVec 16 := (nextRandom s).setWidth 16
       let sid : BitVec 32 := rsp ++ req
       let pub := padTo (Config.ephPublic s.free) 64
       let th := dig (Config.sha256 (dig k.nonce ++ bvLe sid 4 ++ padTo k.share 64 ++ pub))
       let z := Config.ecdh s.free (padTo k.share 64)
       let x := aliasSign (drawRandom s) th
       let y : SpdmSes := { sid := sid, reqKey := spdmKey th z "spdm1.2 req app", rspKey := spdmKey th z "spdm1.2 rsp app" }
       let s1 : State := { x.1 with spdm := { x.1.spdm with sessions := x.1.spdm.sessions.filter (fun y => y.sid ≠ sid) ++ [y] } }
       emit s1 (.spdm 0x64 (bvLe rsp 2 ++ pub ++ x.2)))

/-- FINISH completes a session whose exchange has run and whose MAC holds, without mutual authentication. -/
def execFinish (mctp : Bool) (sid : BitVec 32) (macOk : Bool) (s : State) : Host.Outcome State Fault Refusal :=
  onSpdm s mctp
    (if !s.spdm.sessions.any (fun x => x.sid = sid && !x.est) then spdmError s seInvalidSession
     else if !macOk then spdmError s seDecrypt
     else spdmIn (updSpdm s sid (fun x => { x with est := true })) sid 0x65 [])

def execHeartbeat (mctp : Bool) (sid : BitVec 32) (s : State) : Host.Outcome State Fault Refusal := inSpdm s mctp sid (spdmIn s sid 0x68 [])

/-- The next key of a direction. -/
def nextKey (k : Bytes) : Bytes := spdmKey [] k "spdm1.2 traffic upd"

/-- KEY_UPDATE: 1 replaces the request key, 2 both keys, and 3 verifies the new ones (R453; log 55). The answer is under the keys then in force. -/
def execKeyUpdate (x : SpdmAt) (op : Byte) (s : State) : Host.Outcome State Fault Refusal :=
  inSpdm s x.mctp x.session
    (if op = 1 then spdmIn (updSpdm s x.session (fun y => { y with reqKey := nextKey y.reqKey })) x.session 0x69 [op]
     else if op = 2 then spdmIn (updSpdm s x.session (fun y => { y with reqKey := nextKey y.reqKey, rspKey := nextKey y.rspKey, sent := 0 })) x.session 0x69 [op]
     else if op = 3 then spdmIn s x.session 0x69 [op]
     else spdmIn s x.session 0x7F [seInvalidRequest])

/-- END_SESSION ends the session, once it has answered. -/
def execEndSession (mctp : Bool) (sid : BitVec 32) (s : State) : Host.Outcome State Fault Refusal :=
  inSpdm s mctp sid
    (let s1 := spdmIn s sid 0x6C []
     { s1 with spdm := { s1.spdm with sessions := s1.spdm.sessions.filter (fun x => x.sid ≠ sid) } })

/-- IDE_KM programs a CXL IDE key of a stream, inside a session (R416, R453). -/
def execIdeKm (x : SpdmAt) (stream : Byte) (key : Digest) (s : State) : Host.Outcome State Fault Refusal :=
  inSpdm s x.mctp x.session (spdmIn { s with spdm := { s.spdm with ide := tset 0 s.spdm.ide stream.toNat key } } x.session 0x7E [stream])

/-- Any other request is unsupported (R453). -/
def execSpdmUnsupportedRequest (mctp : Bool) (code : Byte) (s : State) : Host.Outcome State Fault Refusal :=
  onSpdm s mctp (spdmUnsupported s code)

/-! ### TDISP (R454) -/

def tdiCode (t : TdiSt) : Byte := match t with | .unlocked => 0 | .locked => 1 | .run => 2 | .error => 3
def tdiError (s : State) (sid : BitVec 32) (code : Nat) : State := tdispIn s sid 0x7F (natLe code 4)
def setTdi (s : State) (t : TdiSt) : State := { s with spdm := { s.spdm with tdi := t } }

def execGetTdispVersion (x : SpdmAt) (s : State) : Host.Outcome State Fault Refusal := inSpdm s x.mctp x.session (tdispIn s x.session 0x01 [0x10])
/-- GET_TDISP_CAPABILITIES: neither P2P stream binding nor MMIO attribute setting. -/
def execGetTdispCapabilities (x : SpdmAt) (s : State) : Host.Outcome State Fault Refusal := inSpdm s x.mctp x.session (tdispIn s x.session 0x02 (zeros 4))

/-- LOCK_INTERFACE_REQUEST locks an unlocked interface and gives the start nonce; the rings may accept again after an ERROR (R454). -/
def execLockInterfaceRequest (x : SpdmAt) (s : State) : Host.Outcome State Fault Refusal :=
  inSpdm s x.mctp x.session
    (if s.spdm.tdi ≠ .unlocked then tdiError s x.session 4
     else
       let s1 := setTdi (drawRandom s) .locked
       tdispIn { s1 with spdm := { s1.spdm with nonce := nextRandom s, relock := false } } x.session 0x03 (dig (nextRandom s)))

/-- The interface report: BAR0, and the four base addresses of every ENABLED ring. -/
def interfaceReport (s : State) : Bytes :=
  natLe (2 ^ 26) 8 ++ (s.rings.filter (fun e => e.2.st = .enabled)).flatMap (fun e =>
    natLe e.1 1 ++ natLe (e.2.sq.toNat * 4096) 8 ++ natLe (e.2.cq.toNat * 4096) 8 ++ natLe (e.2.jnl.toNat * 4096) 8 ++ natLe (e.2.db.toNat * 64) 8)

def execGetDeviceInterfaceReport (x : SpdmAt) (s : State) : Host.Outcome State Fault Refusal :=
  inSpdm s x.mctp x.session (if s.spdm.tdi = .locked || s.spdm.tdi = .run then tdispIn s x.session 0x04 (interfaceReport s) else tdiError s x.session 4)

def execGetDeviceInterfaceState (x : SpdmAt) (s : State) : Host.Outcome State Fault Refusal :=
  inSpdm s x.mctp x.session (tdispIn s x.session 0x05 [tdiCode s.spdm.tdi])

/-- START_INTERFACE_REQUEST moves a locked interface to run, with the nonce that LOCK gave. -/
def execStartInterfaceRequest (x : SpdmAt) (nonce : Digest) (s : State) : Host.Outcome State Fault Refusal :=
  inSpdm s x.mctp x.session
    (if s.spdm.tdi ≠ .locked then tdiError s x.session 4
     else if nonce ≠ s.spdm.nonce then tdiError s x.session 0x102
     else tdispIn { setTdi s .run with spdm := { (setTdi s .run).spdm with nonce := 0 } } x.session 0x06 [])

/-- STOP_INTERFACE_REQUEST unlocks the interface. After an ERROR the rings wait for the next LOCK (R454). -/
def execStopInterfaceRequest (x : SpdmAt) (s : State) : Host.Outcome State Fault Refusal :=
  inSpdm s x.mctp x.session (tdispIn { setTdi s .unlocked with spdm := { (setTdi s .unlocked).spdm with nonce := 0 } } x.session 0x07 [])

end Sys2Proof.Machine
end

