-- ==== Sys2Proof/Machine/RegWrite.lean ====
section
/-! DEFINITION. Register writes (R11 to R14, R536 to R548) and what they start: ring enables and resets, job and die resets (R472 to R476), shutdown (R479), the restart scan (R488 to R490), port and power-domain modes. -/

namespace Sys2Proof.Machine

/-! ### Units leaving service (R472, R498 to R503) -/

/-- Bit `k` of a mask. -/
def oneBit {w : Nat} (k : Nat) : BitVec w := (1 : BitVec w) <<< k

/-- A glade whose die loses its stores (R467, R512); its command, if any, is ended by a fault of its own. -/
def gladeLost (g : Glade) : Glade :=
  if g.cmd = 0 then gladeCleared g
  else { g with mem := [], tags := [], pair := [], shadow := none, active := none, stats := [], cache := [], rcnt := 0 }

/-- The glades of a grove die. -/
def dieGlades (d : Nat) : List Nat := (List.range 8).map (fun k => 8 * d + k)

/-- A grove die's glades lose their contents, and every command with a glade on the die has DEVICE_FAULT there (R472, R182). -/
def groveLost (s : State) (d : Nat) : State :=
  let s1 := (dieGlades d).foldl (fun s g =>
    let gl := gladeOf s g
    if gl.cmd ≠ 0 && !gladeFaulted gl then faultGlade s g .xe stDevice else s) s
  (dieGlades d).foldl (fun s g => setGlade s g (gladeLost (gladeOf s g))) s1

/-- Ring 0 commands in progress that name the current job, by opcode, take a status (R474, R480). -/
def endCtl (s : State) (p : Cmd → Bool) (st : Byte) : State :=
  (s.cmds.filter (fun c => c.ring = 0 && c.ph ≠ .done && p c)).foldl (fun s c => finish s c.acc st) s

/-- A canopy die is lost: the current job is ended with DEVICE_FAULT, and so is a pre-emption or resumption of it in progress
(R472, R480). -/
def canopyLost (s : State) (d : Nat) : State :=
  let s1 := if s.job.isSome then
      endJob (endCtl s (fun c => c.ph = .running && (opcOf c = 0x42 || opcOf c = 0x43)) stDevice) stDevice
    else s
  (List.range 8).foldl (fun s k => setChan s (8 * d + k) { chanOf s (8 * d + k) with selfref := true }) s1

/-- A horizon die's 8 ports go down; a disabled or fenced port keeps its state (R472). -/
def horizonLost (s : State) (h : Nat) : State :=
  (List.range 8).foldl (fun s m =>
    let k := 8 * h + m
    if (portOf s k).st = 3 then
      let s1 := portLeaves s k 4
      setPort s1 k { portOf s1 k with lock := 0 }
    else setPort s k { portOf s k with lock := 0 }) s

/-- A die is already fenced. -/
def dieFenced (s : State) (d : Nat) : Bool :=
  if d < 16 then s.fences.grove.getLsbD d else if d < 20 then s.fences.canopy.getLsbD (d - 16) else s.fences.horizon.getLsbD (d - 20)

/-- A die reset starts (R472, R473, R503): one die at a time, of a die in service (R502). A reset grove die is powered on for its tests
(R516). -/
def startDieReset (s : State) (d : Nat) : State :=
  if s.rst.dieBusy || 24 ≤ d || dieFenced s d then s
  else
    let s1 := raiseEpoch { s with rst := { s.rst with dieBusy := true, held := s.rst.held ||| oneBit d, dieResets := satAdd s.rst.dieResets 1 } }
    if d < 16 then
      let s2 := groveLost s1 d
      (dieDomains d).foldl (fun s i => setPd s i { pdOf s i with st := 0 }) s2
    else if d < 20 then canopyLost s1 (d - 16)
    else horizonLost s1 (d - 20)

/-- A channel is fenced at once (R498, R500): saved images on it are lost in part, and its mapping changes only once no job is left. -/
def fenceChannel (s : State) (c : Nat) : State :=
  let s1 := setChan s c { chanOf s c with st := 3 }
  raiseEpoch (remapIfFree { s1 with
    fences := { s1.fences with chan := s1.fences.chan ||| oneBit c },
    saved := s1.saved.map (fun v => if v.inArea then { v with lost := true } else v) })

/-- A port is fenced at once; a new port mask is sent (R498, R499). -/
def fencePort (s : State) (k : Nat) : State :=
  let s1 : State := { s with fences := { s.fences with port := s.fences.port ||| oneBit k } }
  raiseEpoch (portLeaves s1 k 6)

/-- Released frames that have waited for a held grove die complete with DEVICE_FAULT when it is fenced instead (R392). -/
def framesLost (s : State) (d : Nat) : State :=
  match s.job with
  | none => s
  | some j =>
    (s.cmds.filter (fun c => c.ring ≠ 0 && c.job = j.id && opcOf c = 0x04 && c.ph = .accepted && dataTurn s c &&
      (match c.release with | some r => r.toNat ≤ s.hub.time.toNat | none => false) &&
      (bitsSet (streamOf j (frStream c)).glades.toNat 128).any (fun g => g / 8 = d))).foldl (fun s c => finish s c.acc stDevice) s

/-- A die is fenced (R498, R499): a grove die's domains are fenced, a canopy die's channels leave service, a horizon die's ports stay down. -/
def fenceDie (s : State) (d : Nat) : State :=
  raiseEpoch (
    if d < 16 then
      let s1 := (dieDomains d).foldl (fun s i => setPd s i { pdOf s i with st := 5, pending := false }) s
      { s1 with fences := { s1.fences with grove := s1.fences.grove ||| oneBit d } }
    else if d < 20 then
      let s1 := (List.range 8).foldl (fun s k => setChan s (8 * (d - 16) + k) { chanOf s (8 * (d - 16) + k) with st := 0 }) s
      { s1 with fences := { s1.fences with canopy := s1.fences.canopy ||| oneBit (d - 16) } }
    else { s with fences := { s.fences with horizon := s.fences.horizon ||| oneBit (d - 20) } })

/-- DIE_RESET: DIE_GO's action for the hub, after a failed self-test (R466, R498). The host's is part of the register write below. -/
def hubDieReset (s : State) (d : Nat) : State := if hubUp s && s.boot.devReady then startDieReset s d else s

/-- DIE_RESET_DONE: the held die returns to service, or is fenced (R473). A returning horizon die's ports lock and train again. -/
def execDieResetDone (die : Fin 24) (pass : Bool) (s : State) : Host.Outcome State Fault Refusal :=
  let d := die.val
  if !s.rst.held.getLsbD d || !hubUp s then .next s
  else
    let s1 : State := { s with rst := { s.rst with dieBusy := false, held := s.rst.held &&& ~~~(oneBit d) } }
    if !pass then .next (fenceDie (if d < 16 then framesLost s1 d else s1) d)
    else if d < 16 then .next s1
    else if d < 20 then
      .next ((List.range 8).foldl (fun s k => setChan s (8 * (d - 16) + k) { chanOf s (8 * (d - 16) + k) with selfref := false }) s1)
    else
      .next ((List.range 8).foldl (fun s m =>
        let p := portOf s (8 * (d - 20) + m)
        setPort s (8 * (d - 20) + m) { p with st := if p.st = 4 then 1 else p.st }) s1)

/-! ### Job reset and shutdown (R474, R479) -/

/-- A job reset (R474): the current job ends as an abort, and ring 0 commands that name it and have not taken effect complete with ABORTED. -/
def jobResetNow (s : State) : State :=
  match s.job with
  | none => s
  | some j =>
    endJob (endCtl s (fun c => (opcOf c = 0x41 || opcOf c = 0x42 || opcOf c = 0x43) && opN c 0 4 = j.id.toNat) stAborted) stAborted

/-- The plan and history go to flash (R533). -/
def savePlan (s : State) : State :=
  { s with flash := { s.flash with plan := (List.range 50).foldl (fun t i =>
      let p := pdOf s i
      tset {} t i { margin := p.margin, endDays := p.endDays, limit := p.limit, volt := p.volt }) [] } }

/-- The orderly shutdown (R479): acceptance stops, the plan is saved, the lasers go off, GDDR7 enters self-refresh, SAFE is set. -/
def shutdownNow (s : State) : State :=
  let s1 := savePlan { s with rst := { s.rst with stopping := true } }
  let s2 := (List.range 4).foldl horizonLost s1
  let s3 := (List.range 32).foldl (fun s c => setChan s c { chanOf s c with selfref := true }) s2
  { s3 with rst := { s3.rst with safe := true } }

/-! ### The restart report (R485 to R490) -/

/-- A command that a scan found. -/
structure Found where
  acc  : Nat
  idx  : Nat
  ring : Nat
  opc  : Nat
  desc : Bytes
  deriving DecidableEq, Repr

/-- The tenant slot that a descriptor names (R489): 0xFFFF for none. -/
def descTenant (opc : Nat) (d : Bytes) : Nat :=
  let op := fun (o : Nat) => fieldLe d (8 + o) 2 % 4096
  match opc with
  | 0x01 => if flagAt d 1 0 then fieldLe d 2 2 % 4096 else 0xFFFF
  | 0x03 => fieldLe d 2 2 % 4096
  | 0x02 | 0x09 | 0x0A | 0x48 | 0x49 => op 0
  | 0x07 | 0x08 | 0x47 | 0x4A => op 2
  | _ => 0xFFFF

/-- ACTION of R490. -/
def actionOf (f : Found) : Nat :=
  if f.ring = 0 then 3
  else if f.opc = 0x05 || f.opc = 0x09 || f.opc = 0x0A || (f.opc = 0x06 && fieldLe f.desc 8 1 = 2) then 2 else 1

/-- ARG of R489: STEP of an UPDATE, USER of an ADMIT. -/
def argOf (f : Found) : Bytes :=
  if f.opc = 0x05 && fieldLe f.desc 8 1 = 0 then natLe (fieldLe f.desc 12 4) 8
  else if f.opc = 0x02 then natLe (fieldLe f.desc 56 8) 8 else zeros 8

/-- A 32-byte entry (R489). -/
def foundEntry (f : Found) : Bytes :=
  natLe f.acc 8 ++ natLe f.idx 4 ++ natLe f.ring 1 ++ natLe f.opc 1 ++ natLe (actionOf f) 1 ++ zeros 1 ++ natLe (descTenant f.opc f.desc) 2 ++ zeros 6 ++ argOf f

/-- The listed commands of one ring (R488). -/
def scanRing (s : State) (gen : BitVec 16) (r : Nat) : List Found :=
  let g := ringOf s r
  (List.range (ringN g)).filterMap (fun k =>
    let a := rdBytes s.host (g.jnl.toNat * 4096 + 16 * k) 16
    let acc := fieldLe a 0 8
    if acc / 2 ^ 48 = gen.toNat && leNat (rdBytes s.host (g.cq.toNat * 4096 + 32 * k) 8) ≠ acc then
      some { acc := acc, idx := fieldLe a 8 4, ring := r, opc := fieldLe a 12 1, desc := rdBytes s.host (g.sq.toNat * 4096 + 128 * k) 128 }
    else none)

/-- Insert by ACC_SEQ. -/
def insFound (f : Found) : List Found → List Found
  | [] => [f]
  | x :: r => if f.acc ≤ x.acc then f :: x :: r else x :: insFound f r

/-- The restart scan (R488, R489). -/
def restartScan (s : State) : State :=
  let rs := (List.range 256).filter (fun r => (ringOf s r).sq ≠ 0 && (ringOf s r).cq ≠ 0 && (ringOf s r).jnl ≠ 0)
  let fs := (rs.flatMap (scanRing s s.rst.rsGen)).foldr insFound []
  let cap := 256 * (if s.rst.rsLimit = 0 then 1 else s.rst.rsLimit.toNat)
  let out := fs.take cap
  let hdr := natLe 0x53545352 4 ++ natLe 0x00010000 4 ++ bvLe s.rst.rsGen 2 ++ zeros 2 ++ natLe out.length 4 ++ natLe fs.length 4 ++
    natLe (rs.foldl (fun m r => m + 2 ^ r) 0) 32 ++ zeros 12
  let s1 := hostWrite s (s.rst.restartAddr.toNat * 256) (hdr ++ out.flatMap foundEntry)
  { s1 with rst := { s1.rst with rsDone := true, rsTrunc := decide (cap < fs.length) } }

/-! ### Rings (R384, R408, R475) -/

/-- An accepted write to SIZE, VECTOR or a base register sets both counts to 0 (R384). -/
def zeroCounts (g : Ring) : Ring := { g with accepted := 0, released := 0 }

/-- A write to RING_CFG of the selected ring. -/
def writeRingCfg (s : State) (v : BitVec 64) : State :=
  let r := s.sels.ring.toNat
  let g := ringOf s r
  let en := v.getLsbD 0
  let size := v.extractLsb' 1 4
  let vec := v.extractLsb' 8 8
  if size.toNat < 6 then s
  else if en && !s.boot.devReady then s
  else if en && g.st = .disabled && (g.sq = 0 || g.cq = 0 || g.jnl = 0 || g.db = 0) then s
  else
    let g1 := if g.st = .disabled && (size ≠ g.size || vec ≠ g.vector) then zeroCounts { g with size := size, vector := vec } else g
    let g2 : Ring := { g1 with st := if en then .enabled else if g.st = .enabled then .draining else g.st }
    let s1 := setRing s r (if en then g2 else drainedIn s r g2)
    if en && g.st = .disabled then readDoorbell s1 r else s1

/-- A ring reset of the selected ring (R475). -/
def ringResetNow (s : State) : State :=
  let r := s.sels.ring.toNat
  let s1 := if (ringOf s r).st = .disabled then s else readDoorbell s r
  let s2 := setRing s1 r { ringOf s1 r with resetDone := true }
  if (ringOf s2 r).irqSeen then sendVector s2 (ringOf s2 r).vector else s2

/-- After LOCK, an accepted write to a base register moves the TDI to ERROR (R454). -/
def tdiTouch (s : State) : State :=
  if s.spdm.tdi = .locked || s.spdm.tdi = .run then { s with spdm := { s.spdm with tdi := .error, relock := true } } else s

/-- A write to a base register of the selected ring. -/
def writeRingBase (s : State) (f : Ring → Ring) : State :=
  let r := s.sels.ring.toNat
  let g := ringOf s r
  if g.st ≠ .disabled then s else tdiTouch (setRing s r (zeroCounts (f g)))

/-! ### Power domains (R512 to R514) -/

/-- The modes that a domain accepts (R512). -/
def modeOk (i m : Nat) : Bool := if i < 32 then m ≤ 2 else if 40 ≤ i && i < 48 then m = 0 || m = 2 else m = 0

/-- A released frame waits for a glade of a die (R513). -/
def frameOnDie (s : State) (d : Nat) : Bool := match s.job with | some j => frameWaits s j (dieGlades d) | none => false

/-- A domain is idle (R513). -/
def pdIdle (s : State) (i : Nat) : Bool :=
  if i < 32 then
    let d := i / 2
    let comp := (dieGlades d).all (fun g => (gladeOf s g).cmd = 0) && !frameOnDie s d && !s.rst.held.getLsbD d
    if i % 2 = 0 || (pdOf s i).mode ≠ 2 then comp else comp && s.job.isNone
  else if 40 ≤ i && i < 48 then
    (List.range 8).all (fun m => ((portOf s (8 * ((i - 40) / 2) + m)).st = 5 || (portOf s (8 * ((i - 40) / 2) + m)).st = 6) &&
      portTags s (8 * ((i - 40) / 2) + m) = 0)
  else false

/-- A write to PD_CTL of the selected domain (R514): MODE 0 or 1 cancels a pending off and powers a grove domain again. -/
def writePdCtl (s : State) (m : Nat) : State :=
  let i := s.sels.pd.toNat
  let p := pdOf s i
  if !modeOk i m then s
  else if m = 2 then
    let s1 := setPd s i { p with mode := 2 }
    setPd s1 i { pdOf s1 i with pending := p.st ≠ 3 && p.st ≠ 5 && !pdIdle s1 i }
  else
    let wake := i < 32 && ((p.st = 3) || (m = 0 && p.st = 1))
    setPd s i { p with mode := BitVec.ofNat 2 m, pending := false, st := if wake then 4 else p.st }

/-- A write to PORT_CFG of the selected port (R371, R508, R515): disabling moves its transfers; enabling lets it lock, and wakes its horizon die
where both domains are in MODE 0. -/
def writePortCfg (s : State) (en : Bool) : State :=
  let k := s.sels.port.toNat
  let p := portOf s k
  if !en then
    let s1 := setPort s k { p with enable := false }
    if p.st = 6 || p.st = 5 then s1 else portLeaves s1 k 5
  else
    let a := 40 + 2 * (k / 8)
    let wake := fun (s : State) (i : Nat) => if (pdOf s i).st = 3 then setPd s i { pdOf s i with st := 4 } else s
    let s1 := setPort s k { p with enable := true, st := if p.st = 5 then 1 else p.st }
    if (pdOf s a).mode = 0 && (pdOf s (a + 1)).mode = 0 then wake (wake s1 a) (a + 1) else s1

/-! ### The write of a register (R538) -/

/-- The reserved bits of each register that accepts writes; a write that sets one is discarded in full (R14, log 43). -/
def rsvMask (r : Reg) : BitVec 64 :=
  match r with
  | .cxlWin => 0x000000003FFFFC00
  | .egrBase => 0xFFFF0000000000FF
  | .cnpWmark => 0xF800F800F800F800
  | .hubPark => 0x00000000E0000000
  | .fabAddr => 0xFFFFFFFFFFFE0000
  | .rstCtl => 0xFFFFFFFFFFFFE0F8
  | .restartAddr => 0x00000000000000FF
  | .restartCtl => 0xFFFF00000000FFF0
  | .hubPwr => 0xFFFFF800F000F000
  | .mbAddr => 0x0000000000007FFF
  | .mbCtl => 0xFFFFFFFFFFFF00FE
  | .mbStatus => 0x00000000000000FC
  | .wvCap => 0xFFFFFFFF00000000
  | .errCfg => 0xFFFFFFFFFFFE00E0
  | .errBase => 0x0000000000000FFF
  | .ringSel | .gladeSel | .chanSel | .portSel | .domSel | .streamSel | .pdSel => 0xFFFFFFFFFFFF0000
  | .ringCfg => 0xFFFFFFFFFFFF00E0
  | .ringSq | .ringCq | .ringJnl => 0x0000000000000FFF
  | .ringDb => 0x000000000000003F
  | .ringStatus => 0xFFFFFFFFFFFFFFC0
  | .ringReset => 0xFFFFFFFFFFFFFFFC
  | .portCfg => 0xFFFFFFFFFFFFFFFE
  | .pdCtl => 0xFFFFFFFFFFFFFFFC
  | _ => 0

/-- A write to HUB_RST_CTL (R476): DIE is stored, then JOB, DIE_GO and SHUTDOWN act. -/
def writeRstCtl (s : State) (v : BitVec 64) : State :=
  let die := v.extractLsb' 8 5
  if 24 ≤ die.toNat then s
  else
    let s1 : State := { s with rst := { s.rst with dieField := die } }
    let s2 := if v.getLsbD 0 then jobResetNow s1 else s1
    let s3 := if v.getLsbD 2 then startDieReset s2 die.toNat else s2
    if v.getLsbD 1 then shutdownNow s3 else s3

/-- A write to HUB_RESTART_CTL (R487, R488). -/
def writeRestartCtl (s : State) (v : BitVec 64) : State :=
  let s1 : State := { s with rst := { s.rst with
    rsLimit := v.extractLsb' 16 16, rsGen := v.extractLsb' 32 16, rsDone := s.rst.rsDone && !v.getLsbD 2 } }
  if v.getLsbD 0 && s.boot.devReady && !s.rst.rsBusy && s.rings.all (fun e => e.2.st = .disabled) then restartScan s1 else s1

/-- A write to RGR_MB_CTL (R429, R431, R464); a code that R434 does not list is answered at once with BAD_FORMAT. -/
def writeMbCtl (s : State) (v : BitVec 64) : State :=
  let s1 : State := { s with rgr := { s.rgr with mbVector := v.extractLsb' 8 8 } }
  if v.getLsbD 0 && s.boot.devReady && !s.rgr.busy then
    if mbKnown (mbCode s1) then { s1 with rgr := { s1.rgr with busy := true } } else mbReply s1 rsBadFormat []
  else s1

/-- A select register's write (R546). -/
def selOk (v : BitVec 64) (n : Nat) : Bool := v.toNat < n

/-- The effect of an 8-byte write on a register that reserved bits let through; registers without a writable field keep everything. -/
def writeField (s : State) (r : Reg) (v : BitVec 64) : State :=
  match r with
  | .cxlWin =>
    if 512 < (v.extractLsb' 0 10).toNat || s.job.isSome || s.saved ≠ [] then s
    else
      let s1 := if v.extractLsb' 30 34 = s.hub.winBase then s else exposeWindow s
      tdiTouch { s1 with hub := { s1.hub with split := v.extractLsb' 0 10, winBase := v.extractLsb' 30 34 } }
  | .egrBase => if s.job.isSome then s else tdiTouch { s with hub := { s.hub with egr := v.extractLsb' 8 40 } }
  | .cnpWmark =>
    let a := v.extractLsb' 0 11
    let b := v.extractLsb' 16 11
    let c := v.extractLsb' 32 11
    let d := v.extractLsb' 48 11
    if b.toNat ≤ a.toNat || d.toNat ≤ c.toNat then s
    else backpressure { s with hub := { s.hub with hostOn := a, hostOff := b, orxOn := c, orxOff := d } }
  | .hubPark => if v.extractLsb' 0 16 = 0 then s else { s with hub := { s.hub with parkLimit := v.extractLsb' 0 16 } }
  | .fabAddr =>
    let a := v.extractLsb' 0 16
    if s.hub.fabSet || a = 0 || a = 0xFFFF then s else { s with hub := { s.hub with fabAddr := a, fabSet := true } }
  | .rstCtl => writeRstCtl s v
  | .restartAddr => if s.rst.rsBusy then s else { s with rst := { s.rst with restartAddr := v.extractLsb' 8 56 } }
  | .restartCtl => writeRestartCtl s v
  | .hubPwr =>
    let c := v.extractLsb' 16 12
    if (c ≠ 0 && c.toNat < 600) || 2400 < c.toNat then s
    else { s with hub := { s.hub with capW := c, thermEvt := s.hub.thermEvt && !v.getLsbD 41, pwrEvt := s.hub.pwrEvt && !v.getLsbD 42 } }
  | .mbAddr => if s.rgr.busy then s else tdiTouch { s with rgr := { s.rgr with mbAddr := v.extractLsb' 15 49 } }
  | .mbCtl => writeMbCtl s v
  | .mbStatus => { s with rgr := { s.rgr with done := s.rgr.done && !v.getLsbD 1 } }
  | .wvCap => { s with wv := { s.wv with cap := v.extractLsb' 0 32 } }
  | .errCfg =>
    let size := v.extractLsb' 1 4
    if size.toNat < 6 || 12 < size.toNat then s
    else
      let e := s.errs
      { s with errs := { e with
        enable := v.getLsbD 0, size := if e.enable then e.size else size, vector := if e.enable then e.vector else v.extractLsb' 8 8,
        lost := e.lost && !v.getLsbD 16 } }
  | .errBase => if s.errs.enable then s else { s with errs := { s.errs with base := v.extractLsb' 12 52 } }
  | .errPtr => { s with errs := { s.errs with head := v.extractLsb' 0 32 } }
  | .ringSel => if selOk v 256 then { s with sels := { s.sels with ring := v.setWidth 16 } } else s
  | .gladeSel => if selOk v 128 then { s with sels := { s.sels with glade := v.setWidth 16 } } else s
  | .chanSel => if selOk v 32 then { s with sels := { s.sels with chan := v.setWidth 16 } } else s
  | .portSel => if selOk v 32 then { s with sels := { s.sels with port := v.setWidth 16 } } else s
  | .domSel => if selOk v 8 then { s with sels := { s.sels with dom := v.setWidth 16 } } else s
  | .streamSel => if selOk v 1024 then { s with sels := { s.sels with stream := v.setWidth 16 } } else s
  | .pdSel => if selOk v 50 then { s with sels := { s.sels with pd := v.setWidth 16 } } else s
  | .ringCfg => writeRingCfg s v
  | .ringSq => writeRingBase s (fun g => { g with sq := v.extractLsb' 12 52 })
  | .ringCq => writeRingBase s (fun g => { g with cq := v.extractLsb' 12 52 })
  | .ringJnl => writeRingBase s (fun g => { g with jnl := v.extractLsb' 12 52 })
  | .ringDb => writeRingBase s (fun g => { g with db := v.extractLsb' 6 58 })
  | .ringStatus =>
    let g := ringOf s s.sels.ring.toNat
    setRing s s.sels.ring.toNat { g with dbRange := g.dbRange && !v.getLsbD 5 }
  | .ringReset =>
    let g := ringOf s s.sels.ring.toNat
    let s1 := setRing s s.sels.ring.toNat { g with resetDone := g.resetDone && !v.getLsbD 1 }
    if v.getLsbD 0 then ringResetNow s1 else s1
  | .portCfg => writePortCfg s (v.getLsbD 0)
  | .pdCtl => writePdCtl s (v.extractLsb' 0 2).toNat
  | _ => s

/-- An 8-byte write to a register, while BAR0 answers (R14, R538 to R540). -/
def writeReg (s : State) (off : Nat) (v : BitVec 64) : State :=
  if !barAnswers s then s
  else match regAt off with
    | none => s
    | some r => if v &&& rsvMask r ≠ 0 then s else writeField s r v

/-- A write to the MSI-X table (R537): 4 or 8 aligned bytes. A vector that becomes unmasked while pending is sent (log 38). -/
def writeMsix (s : State) (o n : Nat) (v : BitVec 64) : State :=
  let s1 := (List.range n).foldl (fun (s : State) k =>
    { s with msix := wr1 s.msix (o + k) (v.extractLsb' (8 * k) 8 ^^^ (if (o + k) % 16 = 12 then 1 else 0)) }) s
  let e := o / 16
  if s1.pba.getLsbD e && !vectorMasked s1 e then emit { s1 with pba := s1.pba &&& ~~~(oneBit e) } (.msix (BitVec.ofNat 8 e)) else s1

/-- REGISTER_WRITE: a host write of some bytes at an offset (R537 to R541). -/
def execRegisterWrite (offset : BitVec 26) (size : Nat) (value : BitVec 64) (s : State) : Host.Outcome State Fault Refusal :=
  let o := offset.toNat
  if !barAnswers s then .next s
  else if 0x20000 ≤ o && o < 0x21000 then
    .next (if (size = 4 || size = 8) && o % size = 0 then writeMsix s (o - 0x20000) size value else s)
  else .next (if size = 8 && o % 8 = 0 then writeReg s o value else s)

/-! ### The writes with rows of their own -/

/-- A value with some bits set or cleared. -/
def withBit (v : BitVec 64) (k : Nat) (b : Bool) : BitVec 64 := if b then v ||| oneBit k else v &&& ~~~(oneBit k)

/-- RING_ENABLE: RING_CFG with ENABLE 1 (R384). -/
def execRingEnable (v : BitVec 64) (s : State) : Host.Outcome State Fault Refusal := .next (writeReg s 0x10000 (withBit v 0 true))
/-- RING_DISABLE: RING_CFG with ENABLE 0 (R408). -/
def execRingDisable (v : BitVec 64) (s : State) : Host.Outcome State Fault Refusal := .next (writeReg s 0x10000 (withBit v 0 false))
/-- RING_RESET: RESET written 1 (R475). -/
def execRingReset (v : BitVec 64) (s : State) : Host.Outcome State Fault Refusal := .next (writeReg s 0x10038 (withBit v 0 true))
/-- JOB_RESET: JOB written 1 (R474). -/
def execJobReset (v : BitVec 64) (s : State) : Host.Outcome State Fault Refusal := .next (writeReg s 0x01038 (withBit v 0 true))
/-- SHUTDOWN written 1 (R479). -/
def execShutdown (v : BitVec 64) (s : State) : Host.Outcome State Fault Refusal := .next (writeReg s 0x01038 (withBit v 1 true))
/-- DIE_RESET: DIE_GO written 1, or the hub's own (R466, R472). -/
def execDieReset (c : DieCause) (s : State) : Host.Outcome State Fault Refusal :=
  match c with
  | .host v => .next (writeReg s 0x01038 (withBit v 2 true))
  | .hub d => .next (hubDieReset s d.val)
/-- RESTART_SCAN: GO written 1 (R488). -/
def execRestartScan (v : BitVec 64) (s : State) : Host.Outcome State Fault Refusal := .next (writeReg s 0x01050 (withBit v 0 true))
/-- PORT_ENABLE and PORT_DISABLE: PORT_CFG (R371, R508). -/
def execPortEnable (v : BitVec 64) (s : State) : Host.Outcome State Fault Refusal := .next (writeReg s 0x13000 (withBit v 0 true))
def execPortDisable (v : BitVec 64) (s : State) : Host.Outcome State Fault Refusal := .next (writeReg s 0x13000 (withBit v 0 false))
/-- PD_MODE_ON, PD_MODE_AUTO, PD_MODE_OFF: PD_CTL with MODE 0, 1 or 2 (R514). -/
def execPdModeOn (v : BitVec 64) (s : State) : Host.Outcome State Fault Refusal := .next (writeReg s 0x16000 (withBit (withBit v 0 false) 1 false))
def execPdModeAuto (v : BitVec 64) (s : State) : Host.Outcome State Fault Refusal := .next (writeReg s 0x16000 (withBit (withBit v 0 true) 1 false))
def execPdModeOff (v : BitVec 64) (s : State) : Host.Outcome State Fault Refusal := .next (writeReg s 0x16000 (withBit (withBit v 0 false) 1 true))
/-- WV_CAP: a write to the cap register (R535). -/
def execWvCap (v : BitVec 64) (s : State) : Host.Outcome State Fault Refusal := .next (writeReg s 0x03000 v)

end Sys2Proof.Machine
end

