-- ==== Sys2Proof/Machine/Power.lean ====
section
/-! DEFINITION. Power domains, clock points, the throttle and Weathervane: the events of R512 to R535. -/

namespace Sys2Proof.Machine

/-! ### Gating and waking (R512 to R516) -/

/-- A grove compute domain loses its weight registers and engine registers (R512). -/
def computeLost (g : Glade) : Glade := { g with shadow := none, active := none, ae := {}, xe := {}, queues := [], sent := [] }
/-- A grove memory domain loses its stores; they are zero with tag PUBLIC on waking (R512). -/
def memoryLost (g : Glade) : Glade := { g with mem := [], tags := [], pair := [], stats := [], rcnt := 0, cache := [] }

/-- What a powered-off domain loses (R512). -/
def pdContentsLost (s : State) (i : Nat) : State :=
  if i < 32 then
    (dieGlades (i / 2)).foldl (fun s g => setGlade s g ((if i % 2 = 0 then computeLost else memoryLost) (gladeOf s g))) s
  else if 40 ≤ i && i < 48 then
    (List.range 8).foldl (fun s m =>
      let k := 8 * ((i - 40) / 2) + m
      setPort s k (if i % 2 = 0 then linkCleared (portOf s k) else { portOf s k with lock := 0 })) s
  else s

/-- PD_POWER_OFF: a domain with MODE 2 that is idle powers off (R508, R512, R514). -/
def execPdPowerOff (pd : Fin 50) (s : State) : Host.Outcome State Fault Refusal :=
  let i := pd.val
  let p := pdOf s i
  if hubUp s && p.mode = 2 && (p.st = 0 || p.st = 1) && pdIdle s i then
    .next (setPd (pdContentsLost s i) i { p with st := 3, pending := false })
  else .next s

/-- PD_CLOCK_STOP: an idle domain with MODE 1 stops its clock (R512). -/
def execPdClockStop (pd : Fin 50) (s : State) : Host.Outcome State Fault Refusal :=
  let p := pdOf s pd.val
  if hubUp s && p.mode = 1 && p.st = 0 && pdIdle s pd.val then .next (setPd s pd.val { p with st := 1 }) else .next s

/-- PD_WAKE_READY: a waking domain is ready (R515). -/
def execPdWakeReady (pd : Fin 50) (s : State) : Host.Outcome State Fault Refusal :=
  let p := pdOf s pd.val
  if hubUp s && p.st = 4 then .next (setPd s pd.val { p with st := 0 }) else .next s

/-! ### Clock points (R518, R519) -/

/-- A grove die's point (R518): the highest code among LIMIT, the cap and the throttle's limit. -/
def diePoint (s : State) (d : Nat) : Nat := max (planPoint s d) (pdOf s (2 * d)).lowered.toNat

/-- CAUSE (R534): each limit that stands below 850 MHz. -/
def dieCause (s : State) (d : Nat) : BitVec 4 :=
  let p := pdOf s (2 * d)
  BitVec.ofNat 4 (nat (p.byTemp && p.lowered ≠ 0) + 2 * nat (p.byPower && p.lowered ≠ 0) + 4 * nat (p.limit ≠ 0) +
    8 * nat ((s.wv.cap.extractLsb' (2 * d) 2) ≠ 0))

/-- CLOCK_POINT_CHANGE: the die moves to its point; its glades keep their state (R519). -/
def execClockPointChange (die : Fin 16) (s : State) : Host.Outcome State Fault Refusal :=
  if hubUp s then .next (setPd s (2 * die.val) { pdOf s (2 * die.val) with point := BitVec.ofNat 2 (diePoint s die.val), cause := dieCause s die.val })
  else .next s

/-! ### The throttle (R526 to R529) -/

/-- A die's temperature is its hottest sensor's: dies by DIE of R476, 24 for the hub. -/
def dieTemp (t : Tab (BitVec 8)) (d : Nat) : Nat := max (tget 0 t (2 * d)).toNat (tget 0 t (2 * d + 1)).toNat

/-- CAP_W in force: 0 means 2,400 (R529). -/
def capW (s : State) : Nat := if s.hub.capW = 0 then 2400 else s.hub.capW.toNat

/-- The grove dies that some die at `lim` °C or more lowers (R526): itself, those of its half, or all 16 for the hub. -/
def hotDies (t : Tab (BitVec 8)) (lim : Nat) : BitVec 16 :=
  (List.range 16).foldl (fun m d =>
    let half := d / 8
    let hot := fun x => decide (lim ≤ dieTemp t x)
    if hot d || hot 24 || hot (16 + 2 * half) || hot (17 + 2 * half) || hot (20 + 2 * half) || hot (21 + 2 * half) then m ||| oneBit d else m) 0

/-- Whether some grove die is held lower by the throttle or being lowered (R529). -/
def throttles (s : State) : Bool :=
  s.wv.condTemp ≠ 0 || s.wv.condPower ≠ 0 || (List.range 16).any (fun d => (pdOf s (2 * d)).lowered ≠ 0 || (pdOf s (2 * d)).alt)

/-- THROTTLING follows the throttle (R529). -/
def showThrottle (s : State) : State := { s with hub := { s.hub with throttling := throttles s } }

/-- THERMAL_SAMPLE: temperatures and power are read and the conditions of R526 evaluated. A condition that begins starts the throttle's
first 1 ms. -/
def execThermalSample (r : ThermalReading) (s : State) : Host.Outcome State Fault Refusal :=
  if !hubUp s then .next s
  else
    let s1 := (List.range 50).foldl (fun s i => setPd s i { pdOf s i with temp := tget 0 r.temps i }) s
    let top := (List.range 50).foldl (fun m i => max m (tget 0 r.temps i).toNat) 0
    let cap := capW s
    let ct := hotDies r.temps 100
    let cp : BitVec 16 := if cap < r.power.toNat then 0xFFFF else 0
    let sev : BitVec 16 := if 11 * cap ≤ 10 * r.power.toNat then 0xFFFF else hotDies r.temps 103
    let cool := decide (top < 95) && decide (100 * r.power.toNat < 95 * cap)
    let fresh := s.wv.condTemp = 0 && s.wv.condPower = 0
    .next (showThrottle { s1 with
      hub := { s1.hub with powerW := r.power, maxTemp := BitVec.ofNat 8 top },
      wv := { s1.wv with condTemp := ct, condPower := cp, severe := sev,
                         coolSince := if cool then some (s.wv.coolSince.getD s.hub.time) else none,
                         loweredAt := if fresh then s.hub.time else s.wv.loweredAt } })

/-- Commands that a grove die runs now: those with a glade on it, and the serving step's requests. -/
def dieCmds (s : State) (d : Nat) : List (BitVec 64) :=
  (s.cmds.filter (fun c => c.ph = .running && c.glades.any (fun g => g / 8 = d))).map (·.acc) ++
  (if (gladesOf s stepAcc).any (fun g => g / 8 = d) then stepCmds s else [])

/-- Lower one die by one row of R526: one point lower, or at 480 MHz, at the severe level, alternate issue. -/
def lowerDie (s : State) (d : Nat) : State :=
  if !(s.wv.condTemp ||| s.wv.condPower).getLsbD d then s
  else
    let p := pdOf s (2 * d)
    let q := diePoint s d
    let p1 : Pd := { p with byTemp := p.byTemp || s.wv.condTemp.getLsbD d, byPower := p.byPower || s.wv.condPower.getLsbD d }
    if q < 3 then markThrottled (setPd s (2 * d) { p1 with lowered := BitVec.ofNat 2 (q + 1) }) (dieCmds s d)
    else if s.wv.severe.getLsbD d then markThrottled (setPd s (2 * d) { p1 with alt := true }) (dieCmds s d)
    else s

/-- THROTTLE_LOWER: another 1 ms of a condition has passed (R526). -/
def execThrottleLower (s : State) : Host.Outcome State Fault Refusal :=
  if !hubUp s || (s.wv.condTemp = 0 && s.wv.condPower = 0) then .next s
  else
    let s1 := advanceTo s (s.wv.loweredAt.toNat + 1000000)
    let s2 := (List.range 16).foldl lowerDie s1
    .next (showThrottle { s2 with
      hub := { s2.hub with thermEvt := s2.hub.thermEvt || s.wv.condTemp ≠ 0, pwrEvt := s2.hub.pwrEvt || s.wv.condPower ≠ 0 },
      wv := { s2.wv with loweredAt := s1.hub.time } })

/-- Raise one die: alternate issue ends first, then one point higher (R526). -/
def raiseDie (s : State) (d : Nat) : State :=
  let p := pdOf s (2 * d)
  if p.alt then setPd s (2 * d) { p with alt := false, issueOff := false }
  else if p.lowered = 0 then s
  else setPd s (2 * d) { p with lowered := p.lowered - 1, byTemp := p.byTemp && p.lowered ≠ 1, byPower := p.byPower && p.lowered ≠ 1 }

/-- THROTTLE_RAISE: every die has been cool and the power low for another 10 ms (R526). -/
def execThrottleRaise (s : State) : Host.Outcome State Fault Refusal :=
  match s.wv.coolSince with
  | none => .next s
  | some t =>
    if !hubUp s then .next s
    else
      let s1 := advanceTo s (t.toNat + 10000000)
      let s2 := (List.range 16).foldl raiseDie s1
      .next (showThrottle { s2 with wv := { s2.wv with coolSince := some s1.hub.time } })

/-- ALTERNATE_ISSUE_INTERVAL: a die under alternate issue switches its issue on or off (R526). -/
def execAlternateIssueInterval (die : Fin 16) (s : State) : Host.Outcome State Fault Refusal :=
  let p := pdOf s (2 * die.val)
  if hubUp s && p.alt then .next (setPd s (2 * die.val) { p with issueOff := !p.issueOff }) else .next s

/-! ### Weathervane (R530 to R533) -/

/-- The supply that a point needs: the measured minimum and the guard of 15 mV, in steps of 5 mV (R531). -/
def needed (n : Nat) : Nat := ceilDiv (n + 15) 5 * 5
def needAt (r : WvReading) (k : Nat) : Nat := match k with | 0 => r.need0 | 1 => r.need1 | 2 => r.need2 | _ => r.need3
/-- The supply planned for a point, never above the maximum (R531). -/
def planned (r : WvReading) (k : Nat) : Nat := min r.vmax (needed (needAt r k))
/-- The horizon photonic domains (R512). -/
def isPhotonic (i : Nat) : Bool := 40 ≤ i && i < 48 && i % 2 = 1

/-- END (R532): the margin extrapolated by its decline over the last 1,000 hours, in days. -/
def endOf (hours decline margin : Nat) : BitVec 16 :=
  if hours < 1000 then 0xFFFF
  else if decline = 0 then 0xFFFE
  else BitVec.ofNat 16 (min 0xFFFE (margin * 10000 / (24 * decline)))

/-- One domain's measurement (R530 to R532). -/
def measureOne (s : State) (r : WvReading) : State :=
  let i := r.pd.val
  let p := pdOf s i
  if isPhotonic i then
    setPd s i { p with margin := BitVec.ofNat 16 (min 0xFFFF (r.vmax - r.need0)), endDays := endOf r.hours r.decline (r.vmax - r.need0) }
  else if isGroveCompute i then
    let lim := p.limit.toNat
    let lim1 := if r.vmax < needed (needAt r lim) && lim < 3 then lim + 1 else lim
    setPd s i { p with
      limit := BitVec.ofNat 2 lim1, margin := BitVec.ofNat 16 (min 0xFFFF (r.vmax - planned r lim1)),
      endDays := endOf r.hours r.decline (r.vmax - planned r 3), volt := BitVec.ofNat 12 (planned r (max lim1 p.point.toNat)) }
  else
    setPd s i { p with margin := BitVec.ofNat 16 (min 0xFFFF (r.vmax - planned r 0)), endDays := endOf r.hours r.decline (r.vmax - planned r 0),
                       volt := BitVec.ofNat 12 (planned r 0) }

/-- WV_MEASURE: the measured domains are replanned (R530 to R532). -/
def execWvMeasure (r : List WvReading) (s : State) : Host.Outcome State Fault Refusal :=
  if hubUp s then .next (r.foldl measureOne s) else .next s

/-- WV_PLAN_SAVE: the plan and the history are written to flash (R533). -/
def execWvPlanSave (s : State) : Host.Outcome State Fault Refusal := if hubUp s then .next (savePlan s) else .next s

end Sys2Proof.Machine
end

