-- ==== Sys2Proof/Machine/Faults.lean ====
section
/-! DEFINITION. Errors, targeted self-tests and the collector's records (R491 to R500), epochs, leases and the hub fault (R503 to R507). -/

namespace Sys2Proof.Machine

/-! ### Keys and what they fence (R493, R495, R498; the meaning of each number: log 56) -/

/-- A unit that a lasting error fences. -/
inductive Fenced where
  | die (d : Nat)
  | chan (c : Nat)
  | port (p : Nat)
  | nothing
  deriving DecidableEq, Repr

/-- The unit fenced for a lasting error (R498). -/
def fenceOf (k : ErrKey) : Fenced :=
  let n := k.num.toNat
  match k.unit.val with
  | 1 => if n < 20 then .die n else .nothing
  | 2 => if n < 128 then .die (n / 8) else .nothing
  | 3 => if n < 16 then .die n else .nothing
  | 4 => if n < 32 then .chan n else .nothing
  | 5 => if n < 32 then .port n else .nothing
  | 6 => if n < 32 then .port n else .nothing
  | _ => .nothing

/-- The unit of a key is fenced. -/
def keyFenced (s : State) (k : ErrKey) : Bool :=
  match fenceOf k with
  | .die d => dieFenced s d
  | .chan c => s.fences.chan.getLsbD c
  | .port p => s.fences.port.getLsbD p
  | .nothing => false

/-- The class of a report: the code of a GDDR7 line corrects any two erroneous symbols of the line and its integrity tag and detects any four
(R188, R491). More than four may go unnoticed; a report of them is of what the code has noticed (log 56). -/
def errClass (c : ErrClass) : ErrClass := match c with | .symbols n => if n ≤ 2 then .corrected else .uncorrectable | c => c

/-- An error starts a targeted self-test (R493); so does a port that went down (R491). A timed-out request and an epoch disagreement
have none. -/
def hasTest (k : ErrKey) (c : ErrClass) : Bool :=
  match errClass c with
  | .corrected | .uncorrectable | .symbols _ => 1 ≤ k.unit.val && k.unit.val ≤ 6
  | .timeout => k.unit.val = 6
  | .staleEpoch => false

/-- The class code of R497. -/
def classCode (c : ErrClass) : Byte := match c with | .corrected => 1 | .timeout => 3 | .staleEpoch => 4 | _ => 2

/-! ### Records (R495 to R497) -/

/-- Queue a record: up to 256 wait, a further one is discarded and sets LOST (R496). Answers the record's number where it was kept. -/
def queueRec (s : State) (f : Nat → ERec) : State × Option Nat :=
  if 256 ≤ s.errs.heldRec.length then ({ s with errs := { s.errs with lost := true } }, none)
  else
    let n := s.errs.nextSeq
    ({ s with errs := { s.errs with heldRec := s.errs.heldRec ++ [f n], nextSeq := n + 1 } }, some n)

/-- The OUTCOME record of a test that has ended (R497). -/
def outcomeRec (t : ETest) (k : ErrKey) (o : Byte) (n : Nat) : ERec :=
  { seq := n, time := t.time, kind := 2, cls := t.cls, outcome := o, key := k, witness := t.witness, late := t.late, acc := t.acc,
    link := t.first.getD 0 }

/-- A record's 64 bytes (R497). -/
def recBytes (r : ERec) (ph : Bool) : Bytes :=
  natLe r.seq 8 ++ bvLe r.time 8 ++ [r.kind, classCode r.cls, r.outcome, BitVec.ofNat 8 r.key.unit.val] ++ bvLe r.key.num 2 ++ bvLe r.key.sub 2 ++
  natLe (min r.witness (2 ^ 32 - 1)) 4 ++ natLe (min r.late (2 ^ 32 - 1)) 4 ++ bvLe r.acc 8 ++ natLe r.link 8 ++ zeros 15 ++ [if ph then 0x80 else 0]

/-- A report reaches the collector (R495): it merges into an open record, counts as late while its key's test runs or its unit is fenced,
or opens a record and starts the test. -/
def collect (s : State) (k : ErrKey) (c : ErrClass) (acc : BitVec 64) : State :=
  let e := s.errs
  if e.opened.any (fun o => o.key = k) then
    { s with errs := { e with opened := e.opened.map (fun o => if o.key = k then
        { o with witness := o.witness + 1, acc := if o.acc = 0 then acc else o.acc } else o) } }
  else if e.tests.any (fun t => t.key = k) then
    { s with errs := { e with tests := e.tests.map (fun t => if t.key = k then
        { t with late := t.late + 1, acc := if t.acc = 0 then acc else t.acc } else t) } }
  else if keyFenced s k then
    { s with errs := { e with heldRec := e.heldRec.map (fun r => if r.key = k && r.kind = 2 then { r with late := r.late + 1 } else r) } }
  else
    { s with errs := { e with
      opened := e.opened ++ [{ key := k, cls := c, time := s.hub.time, witness := 0, acc := acc }],
      tests := if hasTest k c then e.tests ++ [{ key := k, cls := c, time := s.hub.time, acc := acc }] else e.tests } }

/-- An uncorrectable error in a glade's SRAM poisons the line or row at a tile-buffer offset (R89), or at 0x0200_0000 the loaded shadow
tile of the weight registers (R491, R492; the offset of the weight registers: log 56). -/
def gladePoison (s : State) (gi off : Nat) : State :=
  let g := gladeOf s gi
  if off < bufSize || (winBase ≤ off && off < winBase + winSize) then
    setGlade s gi { g with tags := tset tagPublic g.tags (unitOf off) tagPoison }
  else if off = 0x2000000 then setGlade s gi { g with shadow := g.shadow.map (fun t => { t with tag := tagPoison }) }
  else s

/-- What an uncorrectable error makes unreadable: a line of a glade of a grove die, named by bits [34:32] and the offset in bits [31:0]
(log 56), or the line at a device address (R492). -/
def poisonAt (s : State) (k : ErrKey) (a : Nat) : State :=
  if k.unit.val = 1 && k.num.toNat < 16 then gladePoison s (8 * k.num.toNat + a / 2 ^ 32 % 8) (a % 2 ^ 32)
  else if s.poison.contains (lineOf a) then s
  else { s with poison := s.poison ++ [lineOf a] }

/-- What an error does to the structure it comes from, besides its report (R491, R492): a poisoned line, a count, a channel that retrains,
a glade whose command takes DEVICE_FAULT. A corrected error changes no result. -/
def errEffect (s : State) (k : ErrKey) (c : ErrClass) (poisoned : Option (BitVec 48)) : State :=
  let s1 := match poisoned, c with
    | some a, .uncorrectable => poisonAt s k a.toNat
    | _, _ => s
  let n := k.num.toNat
  match k.unit.val, c with
  | 2, .uncorrectable =>
    let g := gladeOf s1 n
    if n < 128 && g.cmd ≠ 0 && !gladeFaulted g then faultGlade s1 n .xe stDevice else s1
  | 4, .corrected => if n < 32 then setChan s1 n { chanOf s1 n with corr := satAdd (chanOf s1 n).corr 1 } else s1
  | 5, .corrected => if n < 32 then setPort s1 n { portOf s1 n with corr := satAdd (portOf s1 n).corr 1 } else s1
  | _, _ => s1

/-- A channel with a lane under test is in training (R493). -/
def testChan (s : State) (k : ErrKey) : State :=
  let n := k.num.toNat
  if k.unit.val = 4 && n < 32 && underTest s 4 n && (chanOf s n).st = 2 then setChan s n { chanOf s n with st := 1 } else s

/-- ERROR_REPORT (R188, R491 to R495). -/
def execErrorReport (k : ErrKey) (c : ErrClass) (poisoned : Option (BitVec 48)) (acc : BitVec 64) (s : State) : Host.Outcome State Fault Refusal :=
  let cls := errClass c
  if hubUp s then .next (testChan (collect (errEffect s k cls poisoned) k cls acc) k) else .next s

/-- Queue the OUTCOME record of a test, and forget the test. -/
def queueOutcome (s : State) (t : ETest) (k : ErrKey) (o : Byte) : State :=
  let x := queueRec s (outcomeRec t k o)
  { x.1 with errs := { x.1.errs with tests := x.1.errs.tests.filter (fun u => u.key ≠ t.key) } }

/-- ERR_RECORD_CLOSE: 10 µs after its first report a record closes and FIRST is queued (R495, R497), with the OUTCOME of a test that has
ended meanwhile after it. -/
def execErrRecordClose (k : ErrKey) (s : State) : Host.Outcome State Fault Refusal :=
  match s.errs.opened.find? (fun o => o.key = k) with
  | none => .next s
  | some o =>
    if !hubUp s then .next s
    else
      let s1 := advanceTo s (o.time.toNat + 10000)
      let t := s.errs.tests.find? (fun t => t.key = k)
      let x := queueRec s1 (fun n => { seq := n, time := o.time, kind := 1, cls := o.cls, outcome := if t.isSome then 0 else 3, key := k,
                                       witness := o.witness, late := 0, acc := o.acc, link := 0 })
      let s2 : State := { x.1 with errs := { x.1.errs with
        opened := x.1.errs.opened.filter (fun o => o.key ≠ k),
        tests := x.1.errs.tests.map (fun t => if t.key = k then { t with first := x.2, witness := o.witness, acc := o.acc } else t) } }
      .next (match s2.errs.tests.find? (fun t => t.key = k) with
        | none => s2
        | some t => match t.ended with
          | none => s2
          | some oc => queueOutcome s2 t k oc)

/-- ERR_RECORD_WRITE: the oldest held record goes to the host's ring while ENABLE is 1 and there is room, and VECTOR is sent (R496,
R497). -/
def execErrRecordWrite (s : State) : Host.Outcome State Fault Refusal :=
  let e := s.errs
  match e.heldRec with
  | [] => .next s
  | r :: rest =>
    let n := 2 ^ e.size.toNat
    if hubUp s && e.enable && (e.tail - e.head).toNat < n then
      let s1 := hostWrite s (e.base.toNat * 4096 + 64 * (r.seq % n)) (recBytes r (phase n r.seq))
      let s2 : State := { s1 with errs := { e with heldRec := rest, tail := e.tail + 1 } }
      .next (if e.vector = 0 then s2 else sendVector s2 e.vector)
    else .next s

/-! ### The end of a self-test (R493, R494, R498) -/

/-- The test whose end names a key: its own, or that of the port whose wavelength has failed it. -/
def testFor (s : State) (k : ErrKey) : Option ETest :=
  s.errs.tests.find? (fun t => t.ended.isNone && (t.key = k || (k.unit.val = 5 && t.key.unit.val = 6 && t.key.num = k.num)))

/-- Passed tests of a key within the last hour (R494). -/
def recentPasses (s : State) (k : ErrKey) : Nat :=
  (s.errs.passes.filter (fun p => p.1 = k && s.hub.time.toNat - p.2.toNat ≤ 3600000000000)).length

/-- Fence what a lasting error fences (R498): a die by a reset whose test then fails. -/
def fenceKey (s : State) (k : ErrKey) : State :=
  match fenceOf k with
  | .die d => if dieFenced s d then s else startDieReset s d
  | .chan c => fenceChannel s c
  | .port p => fencePort s p
  | .nothing => s

/-- A channel that passes its test returns to service. -/
def chanReturns (s : State) (k : ErrKey) : State :=
  let n := k.num.toNat
  if k.unit.val = 4 && n < 32 && (chanOf s n).st = 1 then setChan s n { chanOf s n with st := 2 } else s

/-- SELF_TEST_DONE: the structure returns to service or is fenced, and OUTCOME is queued (R493, R494, R497). -/
def execSelfTestDone (k : ErrKey) (pass : Bool) (s : State) : Host.Outcome State Fault Refusal :=
  match testFor s k with
  | none => .next s
  | some t =>
    if !hubUp s then .next s
    else
      let lasting := !pass || decide (2 ≤ recentPasses s t.key)
      let s1 : State := if pass then { s with errs := { s.errs with passes := s.errs.passes ++ [(t.key, s.hub.time)] } } else s
      let o : Byte := if lasting then 2 else 1
      let s2 := if s1.errs.opened.any (fun r => r.key = t.key) then
          { s1 with errs := { s1.errs with tests := s1.errs.tests.map (fun u => if u.key = t.key then { u with ended := some o } else u) } }
        else queueOutcome s1 t k o
      .next (if lasting then fenceKey s2 k else chanReturns s2 k)

/-! ### Leases (R503 to R506) -/

/-- The job's glades may go on: it is open or closing. -/
def jobRuns (s : State) : Bool := jobSt s = 2 || jobSt s = 7

def inHalf (h : Nat) (g : Nat) : Bool := halfOfGlade g = h

/-- The hub grants one half a lease with its epoch; a half that had stopped for want of one goes on (R504). -/
def grantHalf (s : State) (h : Nat) : State :=
  let x := halfOf s h
  if x.withheld then s
  else
    let s1 := setHalf s h { x with lease := some s.hub.time, stopped := false, epoch := if x.stopped then s.epoch else x.epoch }
    if x.stopped && jobRuns s then restartGlades s1 (inHalf h) else s1

/-- The time of the last grant. -/
def lastGrant (s : State) : Nat := max ((halfOf s 0).lease.getD 0).toNat ((halfOf s 1).lease.getD 0).toNat

/-- LEASE_GRANT: every 250 µs (R504). -/
def execLeaseGrant (s : State) : Host.Outcome State Fault Refusal :=
  if hubUp s && s.boot.devReady then
    let s1 := advanceTo s (lastGrant s + 250000)
    .next (grantHalf (grantHalf s1 0) 1)
  else .next s

/-- LEASE_LAPSE: 1 ms after its grant a half's lease has lapsed; its sequencer stops its glades at their next step boundary (R504). -/
def execLeaseLapse (h : Fin 2) (s : State) : Host.Outcome State Fault Refusal :=
  let x := halfOf s h.val
  match x.lease with
  | none => .next s
  | some t =>
    let s1 := advanceTo s (t.toNat + 1000000)
    .next (stopGlades (setHalf s1 h.val { x with lease := none, stopped := true }) (inHalf h.val))

/-- LEASE_ACK: the half reports its epoch (R506). On the second successive stale report the hub withholds the lease and writes a record
of CLASS 4. -/
def execLeaseAck (h : Fin 2) (ep : BitVec 64) (s : State) : Host.Outcome State Fault Refusal :=
  let x := halfOf s h.val
  if !hubUp s || !s.boot.devReady || s.epoch.toNat < ep.toNat then .next s
  else if ep = s.epoch then .next (setHalf s h.val { x with epoch := ep, stale := 0 })
  else
    let n := x.stale + 1
    let s1 := setHalf s h.val { x with epoch := ep, stale := n, withheld := x.withheld || decide (2 ≤ n) }
    .next (if 2 ≤ n && !x.withheld then collect s1 ⟨9, BitVec.ofNat 16 h.val, 0⟩ .staleEpoch 0 else s1)

/-- A command that lost a write completes with DEVICE_FAULT (R506). -/
def failLost (s : State) (h : Nat) (acc : BitVec 64) : State :=
  match (gladesOf s acc).filter (fun g => inHalf h g && !gladeFaulted (gladeOf s g)) with
  | [] => s
  | g :: _ => faultGlade s g .xe stDevice

/-- Glades of a half whose command has ended are cleared (R506). -/
def clearEnded (s : State) (h : Nat) : State :=
  s.glades.foldl (fun s e =>
    let g := gladeOf s e.1
    let gone := g.cmd ≠ 0 && g.cmd ≠ stepAcc && (match findCmd s g.cmd with | some c => c.ph = .done | none => true)
    if inHalf h e.1 && gone then setGlade s e.1 (gladeCleared g) else s) s

/-- HALF_RESYNC: a withheld half that has stopped is resynchronised from the hub's record of commands in flight (R503, R506). -/
def execHalfResync (h : Fin 2) (s : State) : Host.Outcome State Fault Refusal :=
  let x := halfOf s h.val
  if !hubUp s || !x.withheld || !x.stopped then .next s
  else
    let s1 := raiseEpoch s
    let s2 := setHalf s1 h.val { epoch := s1.epoch, lease := some s1.hub.time }
    let s3 := clearEnded (x.lostCmds.foldl (fun s a => failLost s h.val a) s2) h.val
    .next (if jobRuns s3 then restartGlades s3 (inHalf h.val) else s3)

/-- HUB_FAULT: no lease is granted and no record released any more, and ALERT_N is asserted (R507). -/
def execHubFault (s : State) : Host.Outcome State Fault Refusal :=
  if hubUp s then .next { s with hub := { s.hub with fault := true }, pins := { s.pins with alert := true } } else .next s

end Sys2Proof.Machine
end

