-- ==== Sys2Proof/Machine/Pins.lean ====
section
/-! DEFINITION. Power, PERST_N and the reset kinds of the whole module: the cold reset and its boot (R458 to R461, R466, R467, R478), the warm reset (R468 to R471, R480). -/

namespace Sys2Proof.Machine

/-! ### The cold reset (R466, R467) -/

/-- Every power domain but the hub's always-on one is off (R459). -/
def domainsOff (s : State) : State := (List.range 49).foldl (fun s i => setPd s i { pdOf s i with st := 3 }) s

/-- What a cold reset leaves (R459, R467): flash and fuses, the pins, host memory with what the device has stored in the window, what has left
the device, the free values drawn; the power domains are off. -/
def coldReset (s : State) (kind : BitVec 3) : State :=
  domainsOff { State.reset with
    pins := { s.pins with alert := false }, flash := s.flash, rst := { State.reset.rst with last := kind },
    host := (exposeWindow s).host, out := s.out, link := s.link, free := s.free, pending := s.pending }

/-- Power goes away (R458, R467, R478): a cold reset if the module was on, then PWR_GOOD deasserts. -/
def powerOff (s : State) (kind : BitVec 3) : State :=
  let s1 := if s.pins.pwrGood then coldReset s kind else s
  { s1 with pins := { s1.pins with pwrGood := false } }

/-- MOD_PWR_EN_ASSERT: the hot-swap controller powers the module, unless a trip or an input fault is latched (R458, R478, R564). The
input is in range when the host asserts it (log 57). -/
def execModPwrEnAssert (s : State) : Host.Outcome State Fault Refusal :=
  if s.pins.latched then .next { s with pins := { s.pins with pwrEn := true } }
  else .next { s with pins := { s.pins with pwrEn := true, pwrGood := true, inputOk := true } }

/-- MOD_PWR_EN_DEASSERT: the module powers off, a cold reset with LAST 2; a latched trip is released with THERM_TRIP_N (R466, R478, R559,
R564). -/
def execModPwrEnDeassert (s : State) : Host.Outcome State Fault Refusal :=
  let s1 := powerOff s 2
  .next { s1 with pins := { s1.pins with pwrEn := false, latched := false, thermTrip := false } }

/-- INPUT_FAULT: the input leaves its range or is lost; the module turns off, a cold reset with LAST 0, and starts again only by
MOD_PWR_EN (R466, R564; log 57). -/
def execInputFault (s : State) : Host.Outcome State Fault Refusal :=
  let s1 := powerOff s 0
  .next { s1 with pins := { s1.pins with inputOk := false, latched := true } }

/-- THERMAL_TRIP: a junction reaches 110 °C; THERM_TRIP_N, and the module turns itself off, a cold reset with LAST 3 (R478). -/
def execThermalTrip (s : State) : Host.Outcome State Fault Refusal :=
  if s.pins.pwrGood then
    let s1 := powerOff s 3
    .next { s1 with pins := { s1.pins with thermTrip := true, latched := true } }
  else .next s

/-- PERST_ASSERT: a cold reset with LAST 1 (R466). -/
def execPerstAssert (s : State) : Host.Outcome State Fault Refusal :=
  let s1 := if s.pins.pwrGood && !s.pins.perst then coldReset s 1 else s
  .next { s1 with pins := { s1.pins with perst := true } }

/-! ### Firmware (R426, R428) -/

/-- The FAIL code of a bank, 0 where it may boot (R426, R465); a bank that is not valid counts as unreadable (log 58). -/
def bankFail (s : State) (b : BankChecks) (k : Bool) : Nat :=
  let c := if k then b.bank1.val else b.bank0.val
  if !(bankOf s k).valid then 5
  else if c ≠ 0 then c
  else if s.flash.fusedSvn ≠ 0 && (bankSvn (bankOf s k)).toNat < s.flash.fusedSvn.toNat then 4 else 0

/-- Which bank boots: the marked bank, else the active one; the other once if that fails (R426, R428). None where both fail. The second part
tells whether the first choice failed. -/
def bootBank (s : State) (b : BankChecks) (first : Bool) : Option (Bool × Bool) :=
  if bankFail s b first = 0 then some (first, false)
  else if bankFail s b (!first) = 0 then some (!first, true) else none

/-- The bank that the next boot tries first (R428). -/
def firstBank (s : State) : Bool := if s.flash.marked then !s.flash.active else s.flash.active

/-- The boot stops in the boot ROM (R426, R461): HUB_BOOT reports the cause, ALERT_N is asserted (R559). -/
def bootStops (s : State) (code : Nat) : State :=
  { s with boot := { stage := 10, fail := BitVec.ofNat 8 code }, pins := { s.pins with alert := true } }

/-- The private scalar of 40 bytes of key material (R415): their number mod (n − 1), plus 1, with the order n of P-256. -/
def scalarOf (b : Bytes) : Nat := leNat b % (0xFFFFFFFF00000000FFFFFFFFFFFFFFFFBCE6FAADA7179E84F3B9CAC2FC632551 - 1) + 1

/-- The identity key's scalar, and the alias key's for a bank: it depends on the six component digests and the security version (R415, R417). -/
def identityKey : Nat := scalarOf (rootKey (ascii "LYM-ID") 40)
def aliasOf (v : Bank) : Nat :=
  scalarOf (rootKey (ascii "LYM-ALIAS" ++ (List.range 6).flatMap (fun i => dig (bankDigest v i)) ++ bvLe (bankSvn v) 1) 40)

/-- A bank runs and is the active one: RUN_SVN, BANK, its alias key with the certificate that the identity key signs, a freshly seeded random
source; MARKED is 0 and the state READY (R414, R417, R428; log 58). The identity key is used here and held nowhere. -/
def runBank (s : State) (k : Bool) : State :=
  { s with
    flash := { s.flash with marked := false, active := k },
    rgr := { s.rgr with
      runSvn := bankSvn (bankOf s k), bank := k, aliasKey := aliasOf (bankOf s k),
      chain := Config.certChain identityKey (aliasOf (bankOf s k)), drbg := 0, updating := false } }

/-! ### The boot (R459, R460) -/

/-- Steps 5 to 8: a part that fails its test is fenced (R460). The module carries 24 Gbit devices at 40 Gb/s (R20, R573). -/
def bootParts (s : State) (t : BootTests) : State :=
  let down := fun (d : Nat) => t.failDies.getLsbD d
  let s1 := (List.range 32).foldl (fun s c => setChan s c
    { st := if down (16 + c / 8) then 0 else if t.failChans.getLsbD c then 3 else 2, rate := 40, density := 1 }) s
  let s2 := (List.range 32).foldl (fun s k => setPort s k
    (if t.failPorts.getLsbD k then { st := 6 }
     else if down (20 + k / 8) then { st := 4 }
     else if t.portsUp.getLsbD k then { st := 3, lock := 0xFF } else { st := 2, lock := 0xFF })) s1
  let s3 := (List.range 50).foldl (fun s i =>
    let q : Plan := tget {} s.flash.plan i
    setPd s i { pdInit i with
      st := if i < 32 && down (i / 2) then 5 else 0,
      margin := q.margin, endDays := q.endDays, limit := q.limit, volt := q.volt,
      point := if isGroveCompute i then q.limit else (0 : BitVec 2),
      cause := if isGroveCompute i && decide (q.limit ≠ 0) then (4 : BitVec 4) else 0 }) s2
  { s3 with fences :=
      { grove := t.failDies.extractLsb' 0 16, canopy := t.failDies.extractLsb' 16 4, horizon := t.failDies.extractLsb' 20 4,
        chan := t.failChans, port := t.failPorts, unmapped := t.failChans } }

/-- Steps 2 to 9 of R459 once a bank boots. -/
def bootOn (s : State) (t : BootTests) (k fell : Bool) : State :=
  let s1 := runBank s k
  let gen := s1.flash.coldGen + 1
  let s2 := bootParts { s1 with
    flash := { s1.flash with coldGen := gen },
    rst := { s1.rst with rsGen := gen - 1 },
    boot := { stage := 9, cfgReady := true, devReady := true, fallback := fell } } t
  setHalf (setHalf s2 0 { lease := some s2.hub.time }) 1 { lease := some s2.hub.time }

/-- PERST_DEASSERT: the boot runs to DEV_READY, or stops (R459 to R461). -/
def execPerstDeassert (t : BootTests) (s : State) : Host.Outcome State Fault Refusal :=
  let s1 : State := { s with pins := { s.pins with perst := false } }
  if !s.pins.perst || !s.pins.pwrGood then .next s1
  else
    let first := firstBank s1
    match bootBank s1 t.banks first with
    | none => .next (bootStops s1 (bankFail s1 t.banks (!first)))
    | some x => .next (bootOn s1 t x.1 x.2)

/-! ### The warm reset (R468 to R471, R480) -/

/-- Indices from a ring's RELEASED onward whose record, at `addr`, carries the phase PH(i) (R470). -/
def phaseRun (s : State) (g : Ring) (addr : BitVec 32 → Nat) (byte : Nat) : Nat → BitVec 32 → BitVec 32
  | 0, i => i
  | f + 1, i =>
    if (rd1 s.host (addr i + byte)).getLsbD 7 = phase (ringN g) i.toNat then phaseRun s g addr byte f (i + 1) else i

/-- The command of an accept record that the hub had not taken (R470). -/
def againCmd (s : State) (r : Nat) (g : Ring) (i : BitVec 32) : Cmd :=
  let c : Cmd :=
    { acc := fieldBv (rdBytes s.host (jnlAddr g i) 8) 0 8 64, ring := r, index := i, desc := rdBytes s.host (sqAddr g i) 128,
      job := if r = 0 then 0 else (jobOf s).id, opened := s.hub.time }
  afterAccept s c

/-- Recovery of one ring (R470): ACCEPTED and RELEASED from the journal and the completion ring; an accepted command that the hub does
not hold runs again. -/
def recoverRing (s : State) (r : Nat) : State :=
  let g := ringOf s r
  if g.st = .disabled then s
  else
    let n := ringN g
    let acc := phaseRun s g (jnlAddr g) 13 n g.released
    let rel := phaseRun s g (cqAddr g) 9 (acc - g.released).toNat g.released
    let kept := s.cmds.filter (fun c => c.ring ≠ r || (rel - g.released).toNat ≤ (c.index - g.released).toNat)
    let miss := (List.range (acc - rel).toNat).filter (fun k => !kept.any (fun c => c.ring = r && c.index = rel + BitVec.ofNat 32 k))
    setRing { s with cmds := kept ++ miss.map (fun k => againCmd s r g (rel + BitVec.ofNat 32 k)) } r
      (drainedIn s r { g with accepted := acc, released := rel })

/-- Step 2: a glade that has not reached a step boundary takes DEVICE_FAULT after step 8 (R469). -/
def missGlades (s : State) (missed : BitVec 128) : State :=
  (bitsSet missed.toNat 128).foldl (fun s g =>
    let gl := gladeOf s g
    if gl.cmd ≠ 0 && !gladeEnded gl then faultGlade s g .xe stDevice else s) s

/-- Step 3: remote requests still outstanding are cancelled and recorded (R468). -/
def cancelAll (s : State) : State :=
  (s.fab.xfers.filter (fun x => x.st = .sent || x.st = .queried || x.st = .preempted)).foldl cancelXfer s

/-- What a warm reset returns to its After reset value or ends (R467, R471): the mailbox registers but SEQ, sessions, ephemeral keys, SPDM
sessions, IDE keys, the TDI, pairs. -/
def warmCleared (s : State) : State :=
  { s with
    hub := { s.hub with fault := false },
    pins := { s.pins with alert := false },
    rst := { s.rst with last := 4, warmCnt := satAdd s.rst.warmCnt 1, stopping := false },
    ccache := s.ccache.filter (fun c => !isCxl (256 * c.line)),
    rgr := { s.rgr with mbAddr := 0, mbVector := 0, busy := false, done := false, result := 0, respLen := 0, ephs := [], sessions := [] },
    saved := s.saved.map (fun v => { v with sess := [] }),
    spdm := {},
    fab := { s.fab with pairs := [] },
    ports := s.ports.map (fun e => (e.1, { e.2 with txq := [] })),
    chans := s.chans.map (fun e => (e.1, if s.rst.held.getLsbD (16 + e.1 / 8) then e.2 else { e.2 with selfref := false })) }

/-- Step 8: DEV_READY, a new epoch and new leases; glades go on where a job runs (R469, R503). -/
def warmOn (s : State) (fell : Bool) : State :=
  let s1 := raiseEpoch { s with boot := { stage := 9, cfgReady := true, devReady := true, fallback := fell } }
  let h : Half := { epoch := s1.epoch, lease := some s1.hub.time }
  let s2 := setHalf (setHalf s1 0 h) 1 h
  if jobRuns s2 then restartGlades s2 (fun _ => true) else s2

/-- The state in which step 5 begins: a job being saved is SAVED first (R480). -/
def savedFirst (s : State) : State :=
  match execPreemptSaveDone s with
  | .next t => t
  | _ => s

/-- WARM_RESET: CXL Reset, while the CXL link is up (R468 to R471, R480). -/
def execWarmReset (b : BankChecks) (missed : BitVec 128) (s : State) : Host.Outcome State Fault Refusal :=
  if !s.pins.pwrGood || s.pins.perst || !s.boot.cfgReady then .next s
  else
    let s0 := cancelAll (savedFirst { s with hub := { s.hub with fault := false } })
    let s1 := warmCleared s0
    let first := firstBank s1
    match bootBank s1 b first with
    | none => .next (bootStops (stopGlades s1 (fun _ => true)) (bankFail s1 b (!first)))
    | some x =>
      let s2 := runBank s1 x.1
      let s3 := reissue ((List.range 256).foldl recoverRing s2)
      .next (missGlades (warmOn s3 x.2) missed)

end Sys2Proof.Machine
end

