-- ==== Sys2Proof/Machine/Dispatch.lean ====
section
/-! DEFINITION. The dispatch: one arm per command, each a direct call of its meaning. -/

namespace Sys2Proof.Machine

def exec (i : Instr) (s : State) : Host.Outcome State Fault Refusal :=
  match i with
  | .nop a => Sys2Proof.Machine.execNop a s
  | .halt a => Sys2Proof.Machine.execHalt a s
  | .haltDone a b => Sys2Proof.Machine.execHaltDone a b s
  | .br a => Sys2Proof.Machine.execBr a s
  | .loop a => Sys2Proof.Machine.execLoop a s
  | .call a => Sys2Proof.Machine.execCall a s
  | .ret a => Sys2Proof.Machine.execRet a s
  | .meet a => Sys2Proof.Machine.execMeet a s
  | .meetRelease a b => Sys2Proof.Machine.execMeetRelease a b s
  | .meetTimeout a b => Sys2Proof.Machine.execMeetTimeout a b s
  | .signal a => Sys2Proof.Machine.execSignal a s
  | .tokenEnter a b c => Sys2Proof.Machine.execTokenEnter a b c s
  | .wait a => Sys2Proof.Machine.execWait a s
  | .tokenReceive a b => Sys2Proof.Machine.execTokenReceive a b s
  | .deadlock a => Sys2Proof.Machine.execDeadlock a s
  | .mov a => Sys2Proof.Machine.execMov a s
  | .alu a => Sys2Proof.Machine.execAlu a s
  | .cmp a => Sys2Proof.Machine.execCmp a s
  | .tdset a => Sys2Proof.Machine.execTdset a s
  | .tdadd a => Sys2Proof.Machine.execTdadd a s
  | .tdcpy a => Sys2Proof.Machine.execTdcpy a s
  | .lds a => Sys2Proof.Machine.execLds a s
  | .sts a => Sys2Proof.Machine.execSts a s
  | .ldT a => Sys2Proof.Machine.execLdT a s
  | .stT a => Sys2Proof.Machine.execStT a s
  | .ldG a => Sys2Proof.Machine.execLdG a s
  | .pf a => Sys2Proof.Machine.execPf a s
  | .xfer a => Sys2Proof.Machine.execXfer a s
  | .wld a => Sys2Proof.Machine.execWld a s
  | .mm a => Sys2Proof.Machine.execMm a s
  | .mmG a => Sys2Proof.Machine.execMmG a s
  | .cvt a => Sys2Proof.Machine.execCvt a s
  | .vop a => Sys2Proof.Machine.execVop a s
  | .sel a => Sys2Proof.Machine.execSel a s
  | .sfu a => Sys2Proof.Machine.execSfu a s
  | .statRd a => Sys2Proof.Machine.execStatRd a s
  | .route a => Sys2Proof.Machine.execRoute a s
  | .routeF a => Sys2Proof.Machine.execRouteF a s
  | .red a => Sys2Proof.Machine.execRed a s
  | .gladeStop a => Sys2Proof.Machine.execGladeStop a s
  | .doorbellWrite a b c d => Sys2Proof.Machine.execDoorbellWrite a b c d s
  | .descriptorAccept a => Sys2Proof.Machine.execDescriptorAccept a s
  | .completionRelease a => Sys2Proof.Machine.execCompletionRelease a s
  | .run a => Sys2Proof.Machine.execRun a s
  | .admitSeq a => Sys2Proof.Machine.execAdmit a s
  | .retire a => Sys2Proof.Machine.execRetire a s
  | .frame a => Sys2Proof.Machine.execFrame a s
  | .update a => Sys2Proof.Machine.execUpdate a s
  | .install a => Sys2Proof.Machine.execInstall a s
  | .hostXfer a => Sys2Proof.Machine.execHostXfer a s
  | .adapterPrefetch a => Sys2Proof.Machine.execAdapterPrefetch a s
  | .adapterEvict a => Sys2Proof.Machine.execAdapterEvict a s
  | .checkpointOut a => Sys2Proof.Machine.execCheckpointOut a s
  | .checkpointIn a => Sys2Proof.Machine.execCheckpointIn a s
  | .fence a => Sys2Proof.Machine.execFence a s
  | .mark a => Sys2Proof.Machine.execMark a s
  | .jobOpen a => Sys2Proof.Machine.execJobOpen a s
  | .jobClose a => Sys2Proof.Machine.execJobClose a s
  | .jobCloseAbort a => Sys2Proof.Machine.execJobCloseAbort a s
  | .jobPreempt a => Sys2Proof.Machine.execJobPreempt a s
  | .preemptDrainEnd => Sys2Proof.Machine.execPreemptDrainEnd s
  | .preemptSaveDone => Sys2Proof.Machine.execPreemptSaveDone s
  | .jobResume a => Sys2Proof.Machine.execJobResume a s
  | .segSet a => Sys2Proof.Machine.execSegSet a s
  | .progLoad a => Sys2Proof.Machine.execProgLoad a s
  | .baseLoad a => Sys2Proof.Machine.execBaseLoad a s
  | .baseRetire a => Sys2Proof.Machine.execBaseRetire a s
  | .adapterLoad a => Sys2Proof.Machine.execAdapterLoad a s
  | .adapterSwitch a => Sys2Proof.Machine.execAdapterSwitch a s
  | .adapterRelease a => Sys2Proof.Machine.execAdapterRelease a s
  | .slotReleaseDone a => Sys2Proof.Machine.execSlotReleaseDone a s
  | .slotBind a => Sys2Proof.Machine.execSlotBind a s
  | .slotRevoke a => Sys2Proof.Machine.execSlotRevoke a s
  | .tenantSlotFree a => Sys2Proof.Machine.execTenantSlotFree a s
  | .streamSet a => Sys2Proof.Machine.execStreamSet a s
  | .domainSet a => Sys2Proof.Machine.execDomainSet a s
  | .stepBoundary => Sys2Proof.Machine.execStepBoundary s
  | .stepStart => Sys2Proof.Machine.execStepStart s
  | .parkLimitExpiry a => Sys2Proof.Machine.execParkLimitExpiry a s
  | .adapterFetchDone a => Sys2Proof.Machine.execAdapterFetchDone a s
  | .frameRelease a => Sys2Proof.Machine.execFrameRelease a s
  | .frameDispatch a => Sys2Proof.Machine.execFrameDispatch a s
  | .frameProgramEnd a => Sys2Proof.Machine.execFrameProgramEnd a s
  | .transferStart a => Sys2Proof.Machine.execTransferStart a s
  | .pairBringUp a => Sys2Proof.Machine.execPairBringUp a s
  | .pairUp a b => Sys2Proof.Machine.execPairUp a b s
  | .pairRekey a => Sys2Proof.Machine.execPairRekey a s
  | .oldKeyDiscard a => Sys2Proof.Machine.execOldKeyDiscard a s
  | .jobBinding a b => Sys2Proof.Machine.execJobBinding a b s
  | .portMask a b => Sys2Proof.Machine.execPortMask a b s
  | .headCellReceive a b c => Sys2Proof.Machine.execHeadCellReceive a b c s
  | .readRequestReceive a b c => Sys2Proof.Machine.execReadRequestReceive a b c s
  | .dataCellReceive a b c => Sys2Proof.Machine.execDataCellReceive a b c s
  | .responseCellReceive a b c d e => Sys2Proof.Machine.execResponseCellReceive a b c d e s
  | .completionResponse a b c d => Sys2Proof.Machine.execCompletionResponse a b c d s
  | .refusalReceive a b c d => Sys2Proof.Machine.execRefusalReceive a b c d s
  | .targetPreemptedAnswer a b c => Sys2Proof.Machine.execTargetPreemptedAnswer a b c s
  | .preemptedRetryTimer a => Sys2Proof.Machine.execPreemptedRetryTimer a s
  | .positionQuery a b c => Sys2Proof.Machine.execPositionQuery a b c s
  | .positionAnswer a b c => Sys2Proof.Machine.execPositionAnswer a b c s
  | .completionTimeout a => Sys2Proof.Machine.execCompletionTimeout a s
  | .positionQueryTimeout a => Sys2Proof.Machine.execPositionQueryTimeout a s
  | .transferRecordTimeout a b => Sys2Proof.Machine.execTransferRecordTimeout a b s
  | .linkCellSend a => Sys2Proof.Machine.execLinkCellSend a s
  | .linkCellReceive a b => Sys2Proof.Machine.execLinkCellReceive a b s
  | .slotLost a => Sys2Proof.Machine.execSlotLost a s
  | .replayTimeout a => Sys2Proof.Machine.execReplayTimeout a s
  | .wavelengthLockLost a b => Sys2Proof.Machine.execWavelengthLockLost a b s
  | .wavelengthRelock a => Sys2Proof.Machine.execWavelengthRelock a s
  | .portDown a => Sys2Proof.Machine.execPortDown a s
  | .portUp a => Sys2Proof.Machine.execPortUp a s
  | .creditReturn a b => Sys2Proof.Machine.execCreditReturn a b s
  | .stagingWrite a b => Sys2Proof.Machine.execStagingWrite a b s
  | .stagingRead a b => Sys2Proof.Machine.execStagingRead a b s
  | .configRequest => Sys2Proof.Machine.execConfigRequest s
  | .fruRead a b => Sys2Proof.Machine.execFruRead a b s
  | .mctpTelemetry => Sys2Proof.Machine.execMctpTelemetry s
  | .report => Sys2Proof.Machine.execReport s
  | .sessionOpen => Sys2Proof.Machine.execSessionOpen s
  | .sessionClose => Sys2Proof.Machine.execSessionClose s
  | .setPolicy => Sys2Proof.Machine.execSetPolicy s
  | .setCkptKey => Sys2Proof.Machine.execSetCkptKey s
  | .adapterList => Sys2Proof.Machine.execAdapterList s
  | .progTable => Sys2Proof.Machine.execProgTable s
  | .jobConfig => Sys2Proof.Machine.execJobConfig s
  | .certChain => Sys2Proof.Machine.execCertChain s
  | .fwStage => Sys2Proof.Machine.execFwStage s
  | .fwActivate a => Sys2Proof.Machine.execFwActivate a s
  | .fwAbandon => Sys2Proof.Machine.execFwAbandon s
  | .fwCommitSvn => Sys2Proof.Machine.execFwCommitSvn s
  | .getVersion a => Sys2Proof.Machine.execGetVersion a s
  | .getCapabilities a => Sys2Proof.Machine.execGetCapabilities a s
  | .getDigests a => Sys2Proof.Machine.execGetDigests a s
  | .getCertificate a b c d => Sys2Proof.Machine.execGetCertificate a b c d s
  | .challenge a b c => Sys2Proof.Machine.execChallenge a b c s
  | .getMeasurements a b c => Sys2Proof.Machine.execGetMeasurements a b c s
  | .keyExchange a b c => Sys2Proof.Machine.execKeyExchange a b c s
  | .finish a b c => Sys2Proof.Machine.execFinish a b c s
  | .heartbeat a b => Sys2Proof.Machine.execHeartbeat a b s
  | .keyUpdate a b => Sys2Proof.Machine.execKeyUpdate a b s
  | .endSession a b => Sys2Proof.Machine.execEndSession a b s
  | .ideKm a b c => Sys2Proof.Machine.execIdeKm a b c s
  | .spdmUnsupportedRequest a b => Sys2Proof.Machine.execSpdmUnsupportedRequest a b s
  | .getTdispVersion a => Sys2Proof.Machine.execGetTdispVersion a s
  | .getTdispCapabilities a => Sys2Proof.Machine.execGetTdispCapabilities a s
  | .lockInterfaceRequest a => Sys2Proof.Machine.execLockInterfaceRequest a s
  | .getDeviceInterfaceReport a => Sys2Proof.Machine.execGetDeviceInterfaceReport a s
  | .getDeviceInterfaceState a => Sys2Proof.Machine.execGetDeviceInterfaceState a s
  | .startInterfaceRequest a b => Sys2Proof.Machine.execStartInterfaceRequest a b s
  | .stopInterfaceRequest a => Sys2Proof.Machine.execStopInterfaceRequest a s
  | .registerWrite a b c => Sys2Proof.Machine.execRegisterWrite a b c s
  | .ringEnable a => Sys2Proof.Machine.execRingEnable a s
  | .ringDisable a => Sys2Proof.Machine.execRingDisable a s
  | .ringReset a => Sys2Proof.Machine.execRingReset a s
  | .jobReset a => Sys2Proof.Machine.execJobReset a s
  | .shutdown a => Sys2Proof.Machine.execShutdown a s
  | .dieReset a => Sys2Proof.Machine.execDieReset a s
  | .dieResetDone a b => Sys2Proof.Machine.execDieResetDone a b s
  | .restartScan a => Sys2Proof.Machine.execRestartScan a s
  | .portEnable a => Sys2Proof.Machine.execPortEnable a s
  | .portDisable a => Sys2Proof.Machine.execPortDisable a s
  | .pdModeOn a => Sys2Proof.Machine.execPdModeOn a s
  | .pdModeAuto a => Sys2Proof.Machine.execPdModeAuto a s
  | .pdModeOff a => Sys2Proof.Machine.execPdModeOff a s
  | .pdPowerOff a => Sys2Proof.Machine.execPdPowerOff a s
  | .pdClockStop a => Sys2Proof.Machine.execPdClockStop a s
  | .pdWakeReady a => Sys2Proof.Machine.execPdWakeReady a s
  | .wvCap a => Sys2Proof.Machine.execWvCap a s
  | .clockPointChange a => Sys2Proof.Machine.execClockPointChange a s
  | .wvMeasure a => Sys2Proof.Machine.execWvMeasure a s
  | .wvPlanSave => Sys2Proof.Machine.execWvPlanSave s
  | .thermalSample a => Sys2Proof.Machine.execThermalSample a s
  | .throttleLower => Sys2Proof.Machine.execThrottleLower s
  | .throttleRaise => Sys2Proof.Machine.execThrottleRaise s
  | .alternateIssueInterval a => Sys2Proof.Machine.execAlternateIssueInterval a s
  | .thermalTrip => Sys2Proof.Machine.execThermalTrip s
  | .errorReport a b c d => Sys2Proof.Machine.execErrorReport a b c d s
  | .errRecordClose a => Sys2Proof.Machine.execErrRecordClose a s
  | .errRecordWrite => Sys2Proof.Machine.execErrRecordWrite s
  | .selfTestDone a b => Sys2Proof.Machine.execSelfTestDone a b s
  | .leaseGrant => Sys2Proof.Machine.execLeaseGrant s
  | .leaseLapse a => Sys2Proof.Machine.execLeaseLapse a s
  | .leaseAck a b => Sys2Proof.Machine.execLeaseAck a b s
  | .halfResync a => Sys2Proof.Machine.execHalfResync a s
  | .hubFault => Sys2Proof.Machine.execHubFault s
  | .drbgReseed => Sys2Proof.Machine.execDrbgReseed s
  | .ephemeralKeyExpiry => Sys2Proof.Machine.execEphemeralKeyExpiry s
  | .modPwrEnAssert => Sys2Proof.Machine.execModPwrEnAssert s
  | .modPwrEnDeassert => Sys2Proof.Machine.execModPwrEnDeassert s
  | .perstAssert => Sys2Proof.Machine.execPerstAssert s
  | .perstDeassert a => Sys2Proof.Machine.execPerstDeassert a s
  | .inputFault => Sys2Proof.Machine.execInputFault s
  | .warmReset a b => Sys2Proof.Machine.execWarmReset a b s
  | .restoreDone => Sys2Proof.Machine.execRestoreDone s

end Sys2Proof.Machine
end

