-- ==== Sys2Proof/WellFormed.lean ====
section
/-! DEFINITION. Well-formed commands: the ranges of the operands that their types do not already bound. -/

namespace Sys2Proof

/-- Host cells an operand makes visible: addresses strictly rising and inside 64 bits. -/
def cellsOk : List Host.Cell → Bool
  | [] => true
  | e :: r => decide (e.1 < 2 ^ 64) && r.all (fun f => decide (e.1 < f.1)) && cellsOk r

/-- Domain numbers strictly rising. -/
def pdsRising : List Nat → Bool
  | [] => true
  | x :: r => decide (x < 50) && r.all (fun y => decide (x < y)) && pdsRising r

/-- Operands of a command lie in the ranges that the spec gives them: register accesses of 1 to 8 bytes (R538), cell payloads of 480
bytes (R343), staging accesses of one to 256 bytes inside the 1 GiB window (R376), FRU reads inside the EEPROM's 8 KiB and its 256-byte
content (R561), one reading per domain (R530, R526). -/
def Instr.wf : Instr → Bool
  | .doorbellWrite _ v _ _ => cellsOk v
  | .dataCellReceive _ _ p => p.length = 480
  | .responseCellReceive _ _ _ _ p => p.length = 480
  | .stagingWrite a d => decide (0 < d.length) && decide (d.length ≤ 256) && decide (a.toNat + d.length ≤ 2 ^ 30)
  | .stagingRead a n => decide (0 < n) && decide (n ≤ 256) && decide (a.toNat + n ≤ 2 ^ 30)
  | .fruRead o n => decide (o + n ≤ 256)
  | .registerWrite _ n _ => decide (0 < n) && decide (n ≤ 8)
  | .wvMeasure r => pdsRising (r.map (fun x => x.pd.val))
  | .thermalSample r => pdsRising (r.temps.map (·.1))
  | .nop _ | .halt _ | .haltDone _ _ | .br _ | .loop _ | .call _ | .ret _ | .meet _ | .meetRelease _ _ | .meetTimeout _ _
  | .signal _ | .tokenEnter _ _ _ | .wait _ | .tokenReceive _ _ | .deadlock _ | .mov _ | .alu _ | .cmp _ | .tdset _ | .tdadd _
  | .tdcpy _ | .lds _ | .sts _ | .ldT _ | .stT _ | .ldG _ | .pf _ | .xfer _ | .wld _ | .mm _ | .mmG _ | .cvt _ | .vop _ | .sel _
  | .sfu _ | .statRd _ | .route _ | .routeF _ | .red _ | .gladeStop _ => true
  | .descriptorAccept _ | .completionRelease _ | .run _ | .admitSeq _ | .retire _ | .frame _ | .update _ | .install _ | .hostXfer _
  | .adapterPrefetch _ | .adapterEvict _ | .checkpointOut _ | .checkpointIn _ | .fence _ | .mark _ | .jobOpen _ | .jobClose _
  | .jobCloseAbort _ | .jobPreempt _ | .preemptDrainEnd | .preemptSaveDone | .jobResume _ | .segSet _ | .progLoad _ | .baseLoad _
  | .baseRetire _ | .adapterLoad _ | .adapterSwitch _ | .adapterRelease _ | .slotReleaseDone _ | .slotBind _ | .slotRevoke _
  | .tenantSlotFree _ | .streamSet _ | .domainSet _ => true
  | .stepBoundary | .stepStart | .parkLimitExpiry _ | .adapterFetchDone _ | .frameRelease _ | .frameDispatch _
  | .frameProgramEnd _ => true
  | .transferStart _ | .pairBringUp _ | .pairUp _ _ | .pairRekey _ | .oldKeyDiscard _ | .jobBinding _ _ | .portMask _ _
  | .headCellReceive _ _ _ | .readRequestReceive _ _ _ | .completionResponse _ _ _ _ | .refusalReceive _ _ _ _
  | .targetPreemptedAnswer _ _ _ | .preemptedRetryTimer _ | .positionQuery _ _ _ | .positionAnswer _ _ _ | .completionTimeout _
  | .positionQueryTimeout _ | .transferRecordTimeout _ _ | .linkCellSend _ | .linkCellReceive _ _ | .slotLost _ | .replayTimeout _
  | .wavelengthLockLost _ _ | .wavelengthRelock _ | .portDown _ | .portUp _ | .creditReturn _ _ => true
  | .configRequest | .mctpTelemetry | .report | .sessionOpen | .sessionClose | .setPolicy | .setCkptKey | .adapterList | .progTable
  | .jobConfig | .certChain | .fwStage | .fwActivate _ | .fwAbandon | .fwCommitSvn => true
  | .getVersion _ | .getCapabilities _ | .getDigests _ | .getCertificate _ _ _ _ | .challenge _ _ _ | .getMeasurements _ _ _
  | .keyExchange _ _ _ | .finish _ _ _ | .heartbeat _ _ | .keyUpdate _ _ | .endSession _ _ | .ideKm _ _ _
  | .spdmUnsupportedRequest _ _ | .getTdispVersion _ | .getTdispCapabilities _ | .lockInterfaceRequest _
  | .getDeviceInterfaceReport _ | .getDeviceInterfaceState _ | .startInterfaceRequest _ _ | .stopInterfaceRequest _ => true
  | .ringEnable _ | .ringDisable _ | .ringReset _ | .jobReset _ | .shutdown _ | .dieReset _ | .dieResetDone _ _ | .restartScan _
  | .portEnable _ | .portDisable _ | .pdModeOn _ | .pdModeAuto _ | .pdModeOff _ | .pdPowerOff _ | .pdClockStop _ | .pdWakeReady _
  | .wvCap _ | .clockPointChange _ | .wvPlanSave | .throttleLower | .throttleRaise | .alternateIssueInterval _ | .thermalTrip => true
  | .errorReport _ _ _ _ | .errRecordClose _ | .errRecordWrite | .selfTestDone _ _ | .leaseGrant | .leaseLapse _ | .leaseAck _ _
  | .halfResync _ | .hubFault | .drbgReseed | .ephemeralKeyExpiry | .modPwrEnAssert | .modPwrEnDeassert | .perstAssert
  | .perstDeassert _ | .inputFault | .warmReset _ _ | .restoreDone => true

end Sys2Proof
end

