-- ==== Sys2Proof/Safety.lean ====
section
/-! DEFINITION. What counts as a safe run, and the terms that the statements use: well-formed memories, an engine that issues an instruction, its next address, tiles in a tile buffer, meeting counters, cells and messages that are accepted. -/

namespace Sys2Proof.Safety

open Sys2Proof.Machine

/-- A step that neither faults nor is refused. -/
def answers (o : Host.Outcome State Fault Refusal) : Prop := ∃ t, o = .next t

/-- Every memory of the state that a command reaches byte by byte is in canonical form (log 5). -/
def MemWf (s : State) : Prop := Memory.wf s.mem = true ∧ Memory.wf s.host = true

/-- An engine issues instruction `i` of opcode `opc` and its guard holds: the engine runs and stands at that word, and the fields outside
`u` are 0 (R131, R132); an instruction of several steps stands at its first step (R125). -/
def Issues (opc : BitVec 8) (u : Use) (i : GI) (s : State) : Prop :=
  mayIssue s i = true ∧ wordAt s i.glade.val i.eng = instrWord opc i ∧ encOk i u = true ∧
  guardTrue (curEng s i) i.guard.toNat = true ∧ (u.steps = true → (curEng s i).progress = 0)

/-- The fields that each opcode uses (R139), and whether it runs in several steps (R126). -/
def gladeUse (opc : BitVec 8) : Use :=
  match opc.toNat with
  | 0x02 | 0x04 => { imm := allImm }
  | 0x03 | 0x10 => { sa := true, imm := allImm }
  | 0x06 => { sa := true, sb := true, flags := 1 }
  | 0x08 | 0x09 => { sa := true, flags := 7 }
  | 0x11 => { sa := true, sb := true, sc := true, imm := allImm, flags := 0x1F }
  | 0x12 => { sb := true, sc := true, imm := allImm, flags := 0xFF }
  | 0x14 => { ta := true, sa := true, imm := allImm, flags := 0x1F }
  | 0x15 => { ta := true, sa := true, sb := true }
  | 0x16 => { ta := true, tb := true }
  | 0x17 | 0x18 => { sa := true, sb := true, imm := allImm, flags := 3 }
  | 0x20 | 0x21 => { ta := true, tb := true, only := some .ae, steps := true }
  | 0x22 => { ta := true, tb := true, sa := true, sb := true, only := some .ae, steps := true }
  | 0x23 => { ta := true, flags := 1, only := some .ae }
  | 0x24 => { sa := true, only := some .ae }
  | 0x30 => { ta := true, flags := 3, only := some .xe }
  | 0x31 => { ta := true, tb := true, flags := 7, only := some .xe, steps := true }
  | 0x32 => { ta := true, tb := true, sa := true, sb := true, sc := true, flags := 7, imm := ~~~(0xF800 : BitVec 64), only := some .xe, steps := true }
  | 0x33 => { ta := true, tb := true, tc := true, sa := true, flags := 0x7F, imm := allImm, only := some .xe, steps := true }
  | 0x34 => { ta := true, tb := true, tc := true, sb := true, flags := 0x7F, only := some .xe, steps := true }
  | 0x35 => { ta := true, tb := true, tc := true, only := some .xe, steps := true }
  | 0x36 => { ta := true, tb := true, flags := 7, only := some .xe, steps := true }
  | 0x37 => { ta := true, imm := 63, only := some .xe }
  | 0x38 => { ta := true, tb := true, tc := true, sa := true, sb := true, sc := true, imm := routeImm, only := some .xe, steps := true }
  | 0x39 => { ta := true, imm := 0xFFFFFF, only := some .xe, steps := true }
  | 0x3A => { ta := true, tb := true, sa := true, sb := true, flags := 1, only := some .xe, steps := true }
  | _ => {}

/-- What lies outside the reach of a glade's instructions: pins, resets and firmware, the interrupt table, the rings, the ports, the
power domains, the session and management engines, saved jobs, the host's memory, and the queue. -/
def Beyond (s t : State) : Prop :=
  t.pins = s.pins ∧ t.boot = s.boot ∧ t.rst = s.rst ∧ t.flash = s.flash ∧ t.sels = s.sels ∧ t.msix = s.msix ∧ t.pba = s.pba ∧
  t.rings = s.rings ∧ t.chans = s.chans ∧ t.ports = s.ports ∧ t.pds = s.pds ∧ t.wv = s.wv ∧ t.errs = s.errs ∧ t.epoch = s.epoch ∧
  t.rgr = s.rgr ∧ t.spdm = s.spdm ∧ t.credits = s.credits ∧ t.saved = s.saved ∧ t.host = s.host ∧ t.out = s.out ∧ t.pending = s.pending

/-- The address after the engine's instruction lies in its section (R139). -/
def NextIn (i : GI) (s : State) : Prop :=
  (curEng s i).sectStart ≤ (curEng s i).pc.toNat + 1 ∧ (curEng s i).pc.toNat + 1 < (curEng s i).sectEnd

/-- A branch target lies in the engine's section (R139). -/
def TargetIn (i : GI) (s : State) (t : Int) : Prop := ((curEng s i).sectStart : Int) ≤ t ∧ t < (curEng s i).sectEnd

/-- An engine moved to an address, at the first step of the instruction there (R125). -/
def atAddr (e : Eng) (t : Int) : Eng := { e with pc := BitVec.ofInt 20 t, progress := 0 }

/-- An engine moved to the next address. -/
def stepOn (e : Eng) : Eng := { e with pc := e.pc + 1, progress := 0 }

/-- A state that differs from `s` at most in glade `g`, which it holds as `k`. -/
def OnGlade (s : State) (g : Nat) (t : State) (k : Glade) : Prop := (t = s ∨ ∃ v, t = setGlade s g v) ∧ gladeOf t g = k

/-- What an instruction whose rows have all run leaves: its glade as `k`, but for the engine, which has moved on, and the rounding
counter, which `rc` raises by 1 (R57); every other glade as before. -/
def RowsDone (i : GI) (rc : Bool) (s t : State) (k : Glade) : Prop :=
  curEng t i = stepOn (curEng s i) ∧
  gladeOf t i.glade.val = setEng { k with rcnt := if rc then k.rcnt + 1 else k.rcnt } i.eng (stepOn (curEng s i)) ∧
  ∀ h, h ≠ i.glade.val → gladeOf t h = gladeOf s h

/-- What an instruction whose steps left state `u` leaves: the engine moved on, every other part of every glade as in `u`. -/
def Ended (i : GI) (s t u : State) : Prop :=
  curEng t i = stepOn (curEng s i) ∧ gladeOf t i.glade.val = setEng (gladeOf u i.glade.val) i.eng (stepOn (curEng s i)) ∧
  ∀ h, h ≠ i.glade.val → gladeOf t h = gladeOf u h

/-! ### Tiles in a glade's tile-buffer space, as memories -/

/-- A tile whose elements, and scale bytes where it has any, lie in the tile-buffer space (R129). -/
def InBuffer (t : Td) : Prop := t.space = 0 ∧ (isBlock (tFmt t) = true → t.sspace = 0)

/-- Row `r` of a tile as a memory holds it, every line PUBLIC. -/
def memRow (m : Mem) (t : Td) (r : Nat) : RowIn :=
  ⟨(List.range (tCols t)).map (elemCode (tFmt t) (rdBytes m (rowAddr t r) (rowBytes t))),
   if isBlock (tFmt t) then (rdBytes m (scaleAddr t r) (nBlocks t)).map (·.toNat) else [], tagPublic⟩

/-- The first `n` elements of stored row `r`, every line PUBLIC. -/
def memRowN (m : Mem) (t : Td) (r n : Nat) : RowIn :=
  ⟨(List.range n).map (elemCode (tFmt t) (rdBytes m (rowAddr t r) (bytesFor (tFmt t) n))),
   if isBlock (tFmt t) then (rdBytes m (scaleAddr t r) (ceilDiv n (tBlk t))).map (·.toNat) else [], tagPublic⟩

/-- The W32 values of that row (R39). -/
def memVals (m : Mem) (t : Td) (r : Nat) : List (BitVec 32) := rowVals t (memRow m t r)

/-- A memory after row `r` of a tile has been written with element codes and scale bytes. -/
def putRow (m : Mem) (t : Td) (r : Nat) (codes scales : List Nat) : Mem :=
  let m1 := wrBytes m (rowAddr t r) (packCodes (tFmt t) codes)
  if isBlock (tFmt t) then wrBytes m1 (scaleAddr t r) (scales.map (BitVec.ofNat 8)) else m1

/-- A memory after row `r` of a tile has been written with W32 values, encoded in the tile's format (R45, R49). -/
def putVals (m : Mem) (t : Td) (r : Nat) (rnd : Nat → Rounding) (vals : List (BitVec 32)) : Mem :=
  let e := encodeRow (tFmt t) t.blk.toNat rnd vals
  putRow m t r e.codes e.scales

/-- A memory after encoded elements of row `r` of a tile have been written: a whole row at once, else the bytes of the elements and, for
a block format, the scale bytes listed (R162). -/
def putOut (m : Mem) (t : Td) (r : Nat) (o : RowOut) : Mem :=
  if o.es.length = tCols t then putRow m t r (o.es.map (·.2)) (o.scs.map (·.2))
  else if o.es = [] then m
  else
    let m1 := (partSpans t (rdBytes m (rowAddr t r) (rowBytes t)) r o.es).foldl (fun m p => wrBytes m p.1 p.2) m
    if isBlock (tFmt t) then
      ((runsOf o.scs).map (fun run => (scaleAddr t r + run.1, run.2.map (BitVec.ofNat 8)))).foldl (fun m p => wrBytes m p.1 p.2) m1
    else m1

/-- A memory after the selected elements of row `r` of a tile have been written with W32 values; a block that holds a selected element is
encoded whole, with the elements of it that stay (R162). -/
def putSel (m : Mem) (t : Td) (r : Nat) (rnd : Nat → Rounding) (vals : List (BitVec 32)) (sel : Nat → Bool) : Mem :=
  let whole := (List.range (tCols t)).all sel
  let vs := if whole || !isBlock (tFmt t) then vals
    else (numbered ((memVals m t r).zip vals)).map (fun c => if sel c.1 then c.2.2 else c.2.1)
  putOut m t r (encodeSel (tFmt t) t.blk.toNat rnd vs sel)

/-- A memory after one step of a move out of it or out of an image: every piece read before any is written (R126). -/
def moveMem (img m : Mem) (l : List Move) : Mem :=
  l.foldl (fun k x => wrBytes k x.dst (if x.sspace = 0 then rdBytes m x.src x.n else rdBytes img x.src x.n)) m

/-- A memory after row `r` of a gather: the row that the list entry names, or a blank row; none where the entry names no row (R147). -/
def gatherMem (img : Mem) (a b : Td) (list : Nat) (m : Option Mem) (r : Nat) : Option Mem :=
  m.bind (fun m =>
    let w := leNat (rdBytes m (list + 4 * r) 4)
    if w = 0xFFFFFFFF then some (putRow m a r (List.replicate (tCols a) 0) (List.replicate (nBlocks a) 0))
    else if tRows b ≤ w % 2 ^ 24 then none
    else some ((rowMoves b a (w % 2 ^ 24) r).foldl (moveMem img) m))

/-- A row of ROUTE's results without a directory: words, gates, all-ones positions (R169 to R172). -/
def routeCodes (cs : List Cand) (k norm gen : Nat) : List Nat :=
  let sel := (routeSelect cs k norm gen).1
  sel.map (·.1) ++ sel.map (·.2.toNat) ++ sel.map (fun _ => noPos)

/-- A vector operand's row as a memory holds it (R161). -/
def memB (m : Mem) (b : BSrc) (r n : Nat) : List (BitVec 32) :=
  match b with
  | .none => List.replicate n 0
  | .scalar v => List.replicate n v
  | .tile t => memVals m t r
  | .bcast t => List.replicate n ((memVals m t r).getD 0 0)

/-- The stationary tile that WLD reads from a memory: one stored row per output column (R150). -/
def memSTile (m : Mem) (t : Td) (pack rows cols : Nat) : STile :=
  let es := fun j => rowElems t (memRowN m t j rows)
  ⟨t.fmt, BitVec.ofNat 2 pack, rows, cols, tBlk t, (List.range cols).map (fun j => (es j).map (·.2.1)),
   (List.range cols).map (fun j => (es j).map (·.2.2)), tagPublic, (List.range cols).any (fun j => rowInf t (memRowN m t j rows) ≠ 0)⟩

/-- A glade after one input vector of PUBLIC data has passed a stationary tile into window row `row`, or pair row `row` (R91, R92, R97,
R100): the rows take the tile's tag, which an accumulating pass must find on them. -/
def passGlade (pf : PassFlags) (st : STile) (vf blk row : Nat) (vec : List (Nat × Nat)) (g : Glade) : Glade :=
  let r0 := if pf.pair then 2 * row else row
  let zeros := List.replicate 256 (0 : BitVec 32)
  let p := (passRow st vf blk vec).vals
  if pf.skip && isBlock vf && !st.marked && vec.all (fun e => e.2 = 0) then
    if pf.acc then g
    else if pf.pair then setRow (setRow g r0 zeros st.tag true) (r0 + 1) zeros st.tag true
    else setRow g r0 zeros st.tag false
  else if !pf.acc then
    if pf.pair then setRow (setRow g r0 p st.tag true) (r0 + 1) zeros st.tag true else setRow g r0 p st.tag false
  else if pf.pair then
    let xs := (((rowVal g r0).zip (rowVal g (r0 + 1))).zip p).map (fun x => twoSum x.1.1 x.1.2 x.2)
    setRow (setRow g r0 (xs.map (·.1)) st.tag true) (r0 + 1) (xs.map (·.2.1)) st.tag true
  else setRow g r0 (((rowVal g r0).zip p).map (fun x => (bufAdd x.1 x.2).v)) st.tag false

/-- A glade after row `r` of a conversion among PUBLIC lines (R113, R119): the accumulators of tdA's row through the stages of `convElem`,
the kept columns encoded into tdB, and the statistics slot. -/
def convGlade (s : State) (gi : Nat) (o : CvtOp) (a b : Td) (r : Nat) (g : Glade) : Glade :=
  let w := firstRow a o.pair + r
  let acc := (rowVal g (if o.pair then 2 * w else w)).take (tCols a)
  let err := (rowVal g (2 * w + 1)).take (tCols a)
  let res := o.res.map (fun t => memVals g.mem t r)
  let keep := maskBit o.block
  let rs := (List.range (tCols a)).map (fun c =>
    if keep c then (convElem o c (acc.getD c 0) (if o.pair then some (err.getD c 0) else none) (res.map (fun l => l.getD c 0))).v else 0)
  let out := encodeSel (tFmt b) b.blk.toNat (roundAt s gi b r) rs keep
  let g1 := { g with mem := putOut g.mem b r out }
  match o.slot with
  | none => g1
  | some k =>
    let q := statOf g k
    setStat g1 k { amax := amaxOf q.amax (((numbered rs).filter (fun c => keep c.1)).map (·.2)), vanish := satAdd q.vanish out.van,
                   tag := (join q.tag tagPublic).getD tagPublic }

/-- A line of a target that RED may add to: in the managed region, PUBLIC, readable, and written whole or in part with PUBLIC data (R177,
R178, R185). -/
def RedLineOk (s : State) (pl : Place) (t : Td) (r k : Nat) : Prop :=
  inManaged pl.j (rowAddr t r + 256 * k) = true ∧ readLine s pl.j (rowAddr t r + 256 * k) = .ok tagPublic ∧
  writeCheck s pl.j pl.eval (rowAddr t r + 256 * k) (min (redPer t) (tCols t - k * redPer t) * (fmtBits (tFmt t) / 8)) tagPublic = .ok (some tagPublic)

/-- A memory after a contribution's rows have been added to a target, line by line in ascending address (R178). -/
def redMem (p : RedPart) (rows : List (List (BitVec 32))) (m : Mem) : Mem :=
  (numbered rows).foldl (fun m row => (List.range (redLines p.td)).foldl (fun m k =>
    let n := min (redPer p.td) (tCols p.td - k * redPer p.td)
    let a := rowAddr p.td row.1 + 256 * k
    wrBytes m a (sumBytes p.td (redSums p row.1 (k * redPer p.td) n row.2 (rdBytes m a (n * (fmtBits (tFmt p.td) / 8)))))) m) m

/-- A meeting counter that MEET may name: 8-byte aligned, in the managed region and in a segment, on a line that is PUBLIC and not
poisoned (R179, R180, R185). -/
def CounterAt (s : State) (a : Nat) : Prop :=
  a % 8 = 0 ∧ inManaged (jobOf s) a = true ∧ (segAt (jobOf s) a).isSome = true ∧ s.poison.contains (lineOf a) = false ∧
  tagOf s (lineOf a) = tagPublic

/-- The port and header of the cell that a command brings; none for every other command. -/
def cellHead : Instr → Option (Fin 32 × CellHdr)
  | .headCellReceive k h _ => some (k, h)
  | .readRequestReceive k h _ => some (k, h)
  | .dataCellReceive k h _ => some (k, h)
  | .responseCellReceive k h _ _ _ => some (k, h)
  | .completionResponse k h _ _ => some (k, h)
  | .refusalReceive k h _ _ => some (k, h)
  | .targetPreemptedAnswer k h _ => some (k, h)
  | .jobBinding x _ => some (x.port, x.h)
  | .portMask x _ => some (x.port, x.h)
  | .positionQuery k h _ => some (k, h)
  | .positionAnswer k h _ => some (k, h)
  | _ => none


/-- A cell's optical-receive credit is there, for the one command that takes one (R346). -/
def cellRoom (s : State) : Instr → Bool
  | .dataCellReceive _ h _ => !cellWaits s h
  | _ => true

/-- The payload that a command's cell brings is all 0 (R343); only the cells that may carry one are looked at. -/
def cellZero : Instr → Bool
  | .dataCellReceive _ _ b | .responseCellReceive _ _ _ _ b => b.all (fun x => x = 0)
  | _ => false


/-- The state after the link layer took a cell in order and freed its buffer (R341, R345). -/
def cellIn (s : State) (k : Fin 32) (h : CellHdr) : State :=
  freeBuf (setPort s k.val { portOf s k.val with rxNext := (portOf s k.val).rxNext + 1, rxLost := false, nak := false }) k.val h.vc.toNat


/-- The receiving end accepts a cell of a pair (R343, R344, R349), whose payload is all 0 where `zero` says so, which leaves the state `u` and
the pair `p`. -/
def CellTaken (s : State) (k : Fin 32) (h : CellHdr) (zero : Bool) (u : State) (p : Pair) : Prop :=
  hubUp s = true ∧ (portOf s k.val).st = 3 ∧ h.lseq = (portOf s k.val).rxNext ∧ ¬ (h.dst = 0 ∧ h.vc = 0 ∧ zero = true) ∧ h.dst = s.hub.fabAddr ∧ s.hub.fabSet = true ∧
  ∃ q, pairOf s h.src = some q ∧ q.up = true ∧ h.auth = true ∧ (cellEpoch q h.ep).isSome = true ∧
    (tget 0 q.rx (rxKey h.ep k.val h.vc.toNat)).toNat < h.pctr.toNat ∧
    p = { q with rx := tset 0 q.rx (rxKey h.ep k.val h.vc.toNat) h.pctr, lastUse := s.hub.time, newPorts := if (q.epoch % 2 = 1) = h.ep then q.newPorts ||| ((1 : BitVec 32) <<< k.val) else q.newPorts } ∧
    u = updPair (cellIn s k h) h.src (fun _ => p)

/-- Ranger works on a well-formed message of a code (R429, R433). -/
def MessageWaits (s : State) (code : Nat) : Prop :=
  hubUp s = true ∧ s.boot.devReady = true ∧ s.rgr.busy = true ∧ mbCode s = code ∧ mbWellFormed s = true

/-- The message is one of a session: its SEQ is above the last and its tag verifies, with the body `b`; `u` has the SEQ recorded in `y` (R433). -/
def SessionMessage (s u : State) (y : Session) (b : Bytes) : Prop :=
  ∃ x p, s.rgr.sessions.find? (fun x => x.sid = mbSession s) = some x ∧ mbSession s ≠ 0 ∧ x.seq.toNat < (mbSeq s).toNat ∧
    Config.gcmOpen x.reqKey (mbIv x (mbSeq s)) (mbHeader s) (mbBody s) = some p ∧ y = { x with seq := mbSeq s } ∧ b = padTo p (mbLen s - 16) ∧
    u = { s with rgr := { s.rgr with sessions := s.rgr.sessions.map (fun z => if z.sid = x.sid then y else z) } }

/-- The message of SESSION_OPEN passes the checks of R441 as far as the key agreement, against the held report key `e`; a base
owner needs no job (R441). -/
def OpenChecks (s : State) (b : Bytes) (e : Eph) (role ten : Nat) (kd : Digest) : Prop :=
  b = mbBody s ∧ b.length = 228 ∧ role = fieldLe b 0 1 ∧ ten = fieldLe b 2 2 ∧ kd = Config.sha256 ((b.drop 100).take 64) ∧ role ≤ 2 ∧ zeroAt b 1 1 = true ∧
    (role = 0 → ten < 4096) ∧ rgrStateNow s = 0 ∧ s.rgr.ephs.find? (fun e => e.nonce = (b.drop 4).take 32) = some e ∧
    Config.ecdsaVerify ((b.drop 100).take 64) (Config.sha256 (e.report ++ b.take 164)) (b.drop 164) = true ∧
    (role = 0 → s.job.isSome = true ∧ isBound (jobOf s) ten = true ∧ (tenOf (jobOf s) ten).digest = kd) ∧
    (role ≠ 0 → ownerOf s (role - 1) = none ∨ ownerOf s (role - 1) = some kd)

/-- An SPDM request reaches the responder, which is ready to answer (R464). -/
def SpdmReady (s : State) (mctp : Bool) : Prop :=
  s.pins.pwrGood = true ∧ s.pins.perst = false ∧ (if mctp then s.boot.stage ≠ 0 else barAnswers s = true) ∧ s.hub.fault = false ∧ s.boot.devReady = true

end Sys2Proof.Safety
end

