-- ==== Sys2Proof/Certificates/Slice0/Obligations.lean ====
section
/-! DEFINITION. The statements for the provers: what each family of commands does, what it leaves alone, and what every step keeps. -/

open Sys2Proof Sys2Proof.Machine Sys2Proof.Safety

/-- A step runs the command at the front of the queue on the state with the queue's rest, whatever the command; on an empty queue the block idles (the
model's choice, log 2). (log 1, log 2) -/
def Obligations.StepRunsFrontCommand : Prop :=
  (∀ (c : Instr) (r : List Instr) (s : State), s.pending = c :: r → step s = exec c { s with pending := r }) ∧
  (∀ s : State, s.pending = [] → step s = .next (idle s))

/-- What a cold reset leaves, by the After reset column (R15): the identification registers (R547, R548), empty queues and free tables, the watermarks of
R215 and the park limit of R323, rings DISABLED with 64 entries (R381, R384), domains 0 to 31 in auto mode and the others on (R512), the counters at
their first values (R394, R523); all memory reads as nothing written, no job exists and the command queue is empty. -/
def Obligations.ResetState : Prop :=
  (∀ x : Reg × BitVec 64, x ∈ ([(.hubId, 0x010000B040964C59), (.capA, 0x0CBFFFFF8FF8207F), (.hubStatus, 0), (.hubBoot, 0), (.hubTime, 0), (.hubJob, 0),
      (.egrBase, 0), (.cnpWmark, 0x0400020002000100), (.hubPark, 50), (.fabAddr, 0), (.rstCtl, 0), (.restartAddr, 0), (.frozenDrop, 0),
      (.excCnt 0, 0), (.excCnt 7, 0), (.mbAddr, 0), (.mbCtl, 0), (.mbStatus, 0), (.wvCap, 0), (.errCfg, 0xC), (.errBase, 0), (.errPtr, 0),
      (.ringSel, 0), (.gladeSel, 0), (.chanSel, 0), (.portSel, 0), (.domSel, 0), (.streamSel, 0), (.pdSel, 0)] : List (Reg × BitVec 64)) →
    readReg State.reset x.1 = x.2) ∧
  (∀ n : Nat, (ringOf State.reset n).st = .disabled ∧ (ringOf State.reset n).size = 6 ∧ (ringOf State.reset n).sq = 0 ∧ (ringOf State.reset n).accepted = 0 ∧
    (ringOf State.reset n).released = 0) ∧
  (∀ n : Nat, (pdOf State.reset n).mode = if n < 32 then 1 else 0) ∧
  State.reset.hub.accCount = 1 ∧ State.reset.job = none ∧ State.reset.saved = [] ∧ State.reset.cmds = [] ∧ State.reset.pending = [] ∧
  (∀ a n : Nat, rdBytes State.reset.mem a n = List.replicate n 0)

/-- Device memory and host memory are in canonical form after reset, and so is what a single byte write makes of either: the invariant of StepKeepsMemory
holds at reset. -/
def Obligations.ResetMemory : Prop :=
  MemWf State.reset ∧ ∀ a b, Memory.wf (wr1 State.reset.mem a b) = true ∧ Memory.wf (wr1 State.reset.host a b) = true

/-- Every step, from every state: where device memory and host memory are in canonical form (log 5), so are they in the next state, and a step takes its
own command from the front of the queue and leaves the rest of the queue alone. The canonical form makes equal memories equal data. -/
def Obligations.StepKeepsMemory : Prop :=
  ∀ s t : State, MemWf s → step s = .next t → MemWf t ∧ t.pending = s.pending.tail

/-- Whatever the command and the state, exec answers a next state: no command ends the block's run in a fault or a refusal. A command whose event cannot
happen in the state has no effect (the model's choice, log 1). -/
def Obligations.EveryCommandAnswers : Prop :=
  ∀ (c : Instr) (s : State), ∃ t, exec c s = .next t

/-- Every glade instruction's word decodes to the instruction, and every word that decodes is the word of what it decodes to: no bit of the encoding is
dropped (R131, R139). -/
def Obligations.GladeWordRoundTrip : Prop :=
  (∀ (c : Instr) (op : BitVec 8) (i : GI), gladeParts c = some (op, i) →
    encodeGlade c = some (instrWord op i) ∧ decodeGlade i.glade i.eng (instrWord op i) = some c) ∧
  (∀ (g : Fin 128) (e : Engine) (w : BitVec 128) (c : Instr), decodeGlade g e w = some c →
    encodeGlade c = some w ∧ ∃ op i, gladeParts c = some (op, i) ∧ i.glade = g ∧ i.eng = e)

/-- Every glade instruction: at a word of a reserved opcode, with a reserved guard, a field or bit that its opcode does not use not zero, or on an engine
that may not run it, the engine takes PROGRAM_FAULT (R132); where its guard does not hold it only moves on (R131); on an engine that does not stand at
its word it has no effect. -/
def Obligations.EncodingAndGuardResults : Prop :=
  ∀ (opc : BitVec 8) (i : GI) (s : State) (c : Instr), gladeInstr opc i = some c →
    (mayIssue s i = false → ((gladeUse opc).steps && mayBreak s i) = false → exec c s = .next s) ∧
    (mayIssue s i = true → decodeGlade i.glade i.eng (wordAt s i.glade.val i.eng) = none → exec c s = .next (faultGlade s i.glade.val i.eng stProgram)) ∧
    (mayIssue s i = true → wordAt s i.glade.val i.eng = instrWord opc i → encOk i (gladeUse opc) = false →
      exec c s = .next (faultGlade s i.glade.val i.eng stProgram)) ∧
    (mayIssue s i = true → wordAt s i.glade.val i.eng = instrWord opc i → encOk i (gladeUse opc) = true →
      guardTrue (curEng s i) i.guard.toNat = false → NextIn i s → exec c s = .next (setCur s i (stepOn (curEng s i))))

/-- The frame of every glade instruction, in each of its forms and whether it ends or faults: nothing beyond the engines, the job, the commands, the hub's
counters, the fabric's transfers and device memory changes. -/
def Obligations.GladeInstructionFrame : Prop :=
  ∀ (opc : BitVec 8) (i : GI) (s t : State) (c : Instr), gladeInstr opc i = some c → exec c s = .next t → Beyond s t

/-- MOV, TDADD and TDCPY: the destination takes the value R139 gives, the engine moves on, and nothing else of the state changes. A write to s0 is
discarded (R127). -/
def Obligations.MovTdaddTdcpyResults : Prop :=
  ∀ (i : GI) (s : State), NextIn i s → let e := curEng s i
    (Issues 0x10 { sa := true, imm := allImm } i s →
      exec (.mov i) s = .next (setCur s i (stepOn (sSet e i.sa.toNat i.imm)))) ∧
    (Issues 0x15 { ta := true, sa := true, sb := true } i s →
      exec (.tdadd i) s = .next (setCur s i (stepOn (tdSet e i.ta.toNat
        { tdGet e i.ta.toNat with
            base := (tdGet e i.ta.toNat).base + (sGet e i.sa.toNat).setWidth 48,
            sbase := (tdGet e i.ta.toNat).sbase + (sGet e i.sb.toNat).setWidth 48 })))) ∧
    (Issues 0x16 { ta := true, tb := true } i s →
      exec (.tdcpy i) s = .next (setCur s i (stepOn (tdSet e i.ta.toNat (tdGet e i.tb.toNat)))))

/-- ALU and CMP: every operation and condition of R140 and R141, on IMM or on sC; a reserved code faults. Apart from sA, or the predicate, the engine only
moves on, and nothing else of the state changes. A predicate reads the truth written to it, and every other predicate reads as before (R141). -/
def Obligations.AluCmpResults : Prop :=
  (∀ (i : GI) (s : State), NextIn i s →
    (Issues 0x11 { sa := true, sb := true, sc := true, imm := allImm, flags := 0x1F } i s →
      let x := sGet (curEng s i) i.sb.toNat
      let y := if i.flags.getLsbD 4 then i.imm else sGet (curEng s i) i.sc.toNat
      let put := fun (v : BitVec 64) => Host.Outcome.next (setCur s i (stepOn (sSet (curEng s i) i.sa.toNat v)))
      exec (.alu i) s =
        match i.flags.toNat % 16 with
        | 0 => put (x + y)
        | 1 => put (x - y)
        | 2 => put (x * y)
        | 3 => put (x &&& y)
        | 4 => put (x ||| y)
        | 5 => put (x ^^^ y)
        | 6 => put (x <<< (y.toNat % 64))
        | 7 => put (x >>> (y.toNat % 64))
        | 8 => put (x.sshiftRight (y.toNat % 64))
        | 9 => put (if x.toNat ≤ y.toNat then x else y)
        | 10 => put (if x.toNat ≤ y.toNat then y else x)
        | _ => .next (faultGlade s i.glade.val i.eng 0x26)) ∧
    (Issues 0x12 { sb := true, sc := true, imm := allImm, flags := 0xFF } i s →
      let x := sGet (curEng s i) i.sb.toNat
      let y := if i.flags.getLsbD 7 then i.imm else sGet (curEng s i) i.sc.toNat
      let put := fun (b : Bool) => Host.Outcome.next (setCur s i (stepOn (setPred (curEng s i) (i.flags.toNat / 16 % 8) b)))
      exec (.cmp i) s =
        match i.flags.toNat % 16 with
        | 0 => put (decide (x = y))
        | 1 => put (decide (x ≠ y))
        | 2 => put (decide (x.toInt < y.toInt))
        | 3 => put (decide (x.toInt ≤ y.toInt))
        | 4 => put (decide (x.toNat < y.toNat))
        | 5 => put (decide (x.toNat ≤ y.toNat))
        | _ => .next (faultGlade s i.glade.val i.eng 0x26))) ∧
  (∀ (e : Eng) (k j : Nat) (b : Bool), k < 8 → j < 8 →
    (setPred e k b).p.getLsbD j = if j = k then b else e.p.getLsbD j)

/-- TDSET: the named field takes sA or IMM truncated to its width, every other field of the descriptor and everything else keeps its value; a reserved
code faults (R142). -/
def Obligations.TdsetResults : Prop :=
  ∀ (i : GI) (s : State), NextIn i s → Issues 0x14 { ta := true, sa := true, imm := allImm, flags := 0x1F } i s →
    let v := if i.flags.getLsbD 4 then i.imm else sGet (curEng s i) i.sa.toNat
    let t := tdGet (curEng s i) i.ta.toNat
    let put := fun (u : Td) => Host.Outcome.next (setCur s i (stepOn (tdSet (curEng s i) i.ta.toNat u)))
    exec (.tdset i) s =
      match i.flags.toNat % 16 with
      | 0 => put { t with base := v.setWidth 48 }
      | 1 => put { t with space := v.setWidth 2 }
      | 2 => put { t with fmt := v.setWidth 4 }
      | 3 => put { t with blk := v.setWidth 2 }
      | 4 => put { t with grad := v.getLsbD 0 }
      | 5 => put { t with copy := v.getLsbD 0 }
      | 6 => put { t with rows := v.setWidth 12 }
      | 7 => put { t with cols := v.setWidth 12 }
      | 8 => put { t with pitch := v.setWidth 32 }
      | 9 => put { t with sbase := v.setWidth 48 }
      | 10 => put { t with sspace := v.setWidth 2 }
      | 11 => put { t with spitch := v.setWidth 32 }
      | _ => .next (faultGlade s i.glade.val i.eng 0x26)

/-- NOP, BR, LOOP, CALL and RET: where each goes, and PROGRAM_FAULT for falling through the section's end, a target outside the section, a seventeenth
call and a RET with nothing stacked (R139). -/
def Obligations.BranchResults : Prop :=
  ∀ (i : GI) (s : State), let e := curEng s i
    (Issues 0x00 {} i s →
      (NextIn i s → exec (.nop i) s = .next (setCur s i (stepOn e))) ∧
      (¬ NextIn i s → exec (.nop i) s = .next (faultGlade (setCur s i (stepOn e)) i.glade.val i.eng 0x26))) ∧
    (Issues 0x02 { imm := allImm } i s →
      (TargetIn i s (e.pc.toNat + i.imm.toInt) → exec (.br i) s = .next (setCur s i (atAddr e (e.pc.toNat + i.imm.toInt)))) ∧
      (¬ TargetIn i s (e.pc.toNat + i.imm.toInt) → exec (.br i) s = .next (faultGlade s i.glade.val i.eng 0x26))) ∧
    (Issues 0x03 { sa := true, imm := allImm } i s →
      let e1 := sSet e i.sa.toNat (sGet e i.sa.toNat - 1)
      (sGet e1 i.sa.toNat = 0 → NextIn i s → exec (.loop i) s = .next (setCur s i (stepOn e1))) ∧
      (sGet e1 i.sa.toNat ≠ 0 → TargetIn i s (e.pc.toNat + i.imm.toInt) →
        exec (.loop i) s = .next (setCur s i (atAddr e1 (e.pc.toNat + i.imm.toInt)))) ∧
      (sGet e1 i.sa.toNat ≠ 0 → ¬ TargetIn i s (e.pc.toNat + i.imm.toInt) →
        exec (.loop i) s = .next (faultGlade (setCur s i e1) i.glade.val i.eng 0x26))) ∧
    (Issues 0x04 { imm := allImm } i s →
      (TargetIn i s (e.pc.toNat + i.imm.toInt) → e.stack.length < 16 →
        exec (.call i) s = .next (setCur s i (atAddr { e with stack := e.stack ++ [e.pc + 1] } (e.pc.toNat + i.imm.toInt)))) ∧
      (¬ TargetIn i s (e.pc.toNat + i.imm.toInt) ∨ 16 ≤ e.stack.length →
        exec (.call i) s = .next (faultGlade s i.glade.val i.eng 0x26))) ∧
    (Issues 0x05 {} i s →
      (e.stack = [] → exec (.ret i) s = .next (faultGlade s i.glade.val i.eng 0x26)) ∧
      (∀ (st : List (BitVec 20)) (a : BitVec 20), e.stack = st ++ [a] →
        (TargetIn i s a.toNat → exec (.ret i) s = .next (setCur s i (atAddr { e with stack := st } a.toNat))) ∧
        (¬ TargetIn i s a.toNat → exec (.ret i) s = .next (faultGlade s i.glade.val i.eng 0x26))))

/-- SIGNAL reserves an entry of its outgoing queue for sA[31:0] and the engine goes on, or stalls while no entry of the 64 is free; the token enters at
TOKEN_ENTER, oldest first. WAIT takes the oldest token of its incoming queue, zero-extended, into sA, or stalls while the queue is empty;
TOKEN_RECEIVE then takes the token that has come (R135, R136). -/
def Obligations.TokenQueueResults : Prop :=
  (∀ (i : GI) (s : State), let g := gladeOf s i.glade.val
    let e := curEng s i
    (Issues 0x08 { sa := true, flags := 7 } i s → let q := outQueue i.eng (i.flags.toNat % 8)
      (queueUsed g q < 64 → NextIn i s → exec (.signal i) s = .next (setCur (setGlade s i.glade.val
        { g with sent := tset [] g.sent q (sentOf g q ++ [(sGet e i.sa.toNat).setWidth 32]) }) i (stepOn e))) ∧
      (64 ≤ queueUsed g q → exec (.signal i) s = .next (setCur s i { e with st := .waitToken, waitQ := q }))) ∧
    (Issues 0x09 { sa := true, flags := 7 } i s → let q := inQueue i.eng (i.flags.toNat % 8)
      (∀ (t : BitVec 32) (r : List (BitVec 32)), queueOf g q = t :: r → NextIn i s →
        exec (.wait i) s = .next (setCur (setGlade s i.glade.val (takeToken g i.eng q)) i
          (stepOn (sSet e i.sa.toNat (t.setWidth 64))))) ∧
      (queueOf g q = [] → exec (.wait i) s = .next (setCur s i { e with st := .waitToken, waitQ := q, waitSa := i.sa })))) ∧
  (∀ (gi : Fin 128) (e : Engine) (q : Fin 8) (s : State) (t : BitVec 32) (r : List (BitVec 32)), let g := gladeOf s gi.val
    sentOf g (outQueue e q.val) = t :: r →
      exec (.tokenEnter gi e q) s = .next (setGlade s gi.val { g with
        sent := tset [] g.sent (outQueue e q.val) r,
        queues := tset [] g.queues (outQueue e q.val) (queueOf g (outQueue e q.val) ++ [t]) })) ∧
  (∀ (gi : Fin 128) (e : Engine) (s : State) (t : BitVec 32) (r : List (BitVec 32)), let g := gladeOf s gi.val
    let en := engOf g e
    en.st = .waitToken → inQueue e (en.waitQ % 8) = en.waitQ → g.stopReq = false → g.stopped = false → gladeFaulted g = false →
    queueOf g en.waitQ = t :: r → NextIn { glade := gi, eng := e } s →
      exec (.tokenReceive gi e) s = .next (setCur (setGlade s gi.val (takeToken g e en.waitQ)) { glade := gi, eng := e }
        (stepOn (sSet { en with st := .running } en.waitSa.toNat (t.setWidth 64)))))

/-- HALT makes its engine wait; HALT_DONE ends the wait once nothing of the engine is outstanding, and while the glade's other engine has not halted
nothing else changes (R138). DEADLOCK faults a glade whose engines both are stalled for good, against the execute engine or, where that has halted,
the access engine (R137). GLADE_STOP stops a glade that was asked to stop; while another glade of its command is at work, nothing else changes (R126,
R182). -/
def Obligations.HaltDeadlockStopResults : Prop :=
  ((∀ (i : GI) (s : State), Issues 0x01 {} i s → exec (.halt i) s = .next (setCur s i { curEng s i with st := .waitMem })) ∧
  (∀ (gi : Fin 128) (e : Engine) (s : State), let g := gladeOf s gi.val
    (engOf g e).st = .waitMem → g.stopReq = false → g.stopped = false → gladeFaulted g = false → g.cmd ≠ 0 → mayHalt s gi.val e = true →
    engHalted (engOf g (otherEng e)) = false →
      exec (.haltDone gi e) s = .next (setGlade s gi.val (setEng g e { engOf g e with st := .halted })))) ∧
  ((∀ (gi : Fin 128) (s : State), let g := gladeOf s gi.val
    g.cmd ≠ 0 → g.stopped = false → cannotProceed g .ae = true → cannotProceed g .xe = true →
    (engHalted g.xe = false → exec (.deadlock gi) s = .next (faultGlade s gi.val .xe 0x26)) ∧
    (engHalted g.xe = true → engHalted g.ae = false → exec (.deadlock gi) s = .next (faultGlade s gi.val .ae 0x26))) ∧
  (∀ (gi : Fin 128) (s : State), let g := gladeOf s gi.val
    let s1 := setGlade (markRest s) gi.val { g with ae := stopEng g.ae, xe := stopEng g.xe, stopReq := false, stopped := true }
    g.stopReq = true → g.stopped = false →
      exec (.gladeStop gi) s = .next (settle s1 g.cmd) ∧
      ((gladesOf s1 g.cmd).any (fun o => !gladeEnded (gladeOf s1 o)) = true → exec (.gladeStop gi) s = .next s1)))

/-- MEET adds 1 to its counter where FLAGS[0] asks for it, then goes on if the counter has reached sB and stalls if not; MEET_RELEASE ends the stall once
the counter has, and MEET_TIMEOUT faults a stall that has outlasted the job's limit (R179, R180). -/
def Obligations.MeetResults : Prop :=
  (∀ (i : GI) (s : State), Issues 0x06 { sa := true, sb := true, flags := 1 } i s → NextIn i s →
    let e := curEng s i
    let a := (sGet e i.sa.toNat).toNat
    CounterAt s a →
    (i.flags.getLsbD 0 = true → (∃ u, writeCheck s (jobOf s) (placeOf s i.glade.val).eval a 8 tagPublic = .ok (some u)) ∧
      staleHalf s (halfOfGlade i.glade.val) = false) →
    let s1 := if i.flags.getLsbD 0 then bumpCounter s a else s
    let v := leNat (rdBytes s.mem a 8)
    let w := if i.flags.getLsbD 0 then (v + 1) % 2 ^ 64 else v
    ((sGet e i.sb.toNat).toNat ≤ w → exec (.meet i) s = .next (setCur s1 i (stepOn e))) ∧
    (w < (sGet e i.sb.toNat).toNat → exec (.meet i) s = .next (setCur s1 i
      { e with st := .waitMeet, meetAddr := BitVec.ofNat 64 a, meetGoal := sGet e i.sb.toNat, stalledAt := s.hub.time }))) ∧
  (∀ (gi : Fin 128) (e : Engine) (s : State), let g := gladeOf s gi.val
    let en := engOf g e
    en.st = .waitMeet → g.stopReq = false → g.stopped = false → gladeFaulted g = false → NextIn { glade := gi, eng := e } s →
    en.meetGoal.toNat ≤ leNat (rdBytes s.mem en.meetAddr.toNat 8) →
      exec (.meetRelease gi e) s = .next (setCur s { glade := gi, eng := e } (stepOn { en with st := .running }))) ∧
  (∀ (gi : Fin 128) (e : Engine) (s : State), let g := gladeOf s gi.val
    let en := engOf g e
    en.st = .waitMeet → g.stopped = false → gladeFaulted g = false → leNat (rdBytes s.mem en.meetAddr.toNat 8) < en.meetGoal.toNat →
      exec (.meetTimeout gi e) s =
        .next (faultGlade (advanceTo s (en.stalledAt.toNat + (jobOf s).meetMs * 1000000)) gi.val e 0x26))

/-- LDS loads the 8 bytes at sB + IMM from a PUBLIC line into sA; STS stores sA there, and every byte outside those 8 keeps its value (R143); a window
line that only host memory holds is decrypted first (R197). An address that R143 refuses completes PROGRAM_FAULT, and a line of another tag OWNER_MIX. -/
def Obligations.ScalarLoadStoreResults : Prop :=
  ∀ (i : GI) (s : State), NextIn i s →
    let e := curEng s i
    let a := (sGet e i.sb.toNat + i.imm).toNat
    let pl := placeOf s i.glade.val
    let sp := i.flags.toNat % 4
    (Issues 0x17 { sa := true, sb := true, imm := allImm, flags := 3 } i s →
      (scalarPlace pl sp a false = false → exec (.lds i) s = .next (faultGlade s i.glade.val i.eng 0x26)) ∧
      (∀ (b : Bytes) (t : Tag), scalarPlace pl sp a false = true → spanRead s pl sp a 8 = .ok (b, t) →
        (t = tagPublic → exec (.lds i) s = .next (setCur s i (stepOn (sSet e i.sa.toNat (BitVec.ofNat 64 (leNat b)))))) ∧
        (t ≠ tagPublic → exec (.lds i) s = .next (faultGlade s i.glade.val i.eng 0x21)))) ∧
    (Issues 0x18 { sa := true, sb := true, imm := allImm, flags := 3 } i s →
      (scalarPlace pl sp a true = false → exec (.sts i) s = .next (faultGlade s i.glade.val i.eng 0x26)) ∧
      (scalarPlace pl sp a true = true → sp = 0 →
        (gTag (gladeOf s i.glade.val) a = tagPublic → ∃ t, exec (.sts i) s = .next t ∧ curEng t i = stepOn e ∧
          (gladeOf t i.glade.val).mem = wrBytes (gladeOf s i.glade.val).mem a (bvLe (sGet e i.sa.toNat) 8) ∧ t.mem = s.mem) ∧
        (gTag (gladeOf s i.glade.val) a ≠ tagPublic → gTag (gladeOf s i.glade.val) a ≠ tagPoison →
          exec (.sts i) s = .next (faultGlade s i.glade.val i.eng 0x21))) ∧
      (∀ u, scalarPlace pl sp a true = true → sp = 1 → writeCheck s pl.j pl.eval a 8 tagPublic = .ok (some u) →
        (lineTag s pl.j a = tagPublic → staleHalf s (halfOfGlade i.glade.val) = false → ∃ t, exec (.sts i) s = .next t ∧
          curEng t i = stepOn e ∧ t.mem = wrBytes (seenMem s pl.j [a]) a (bvLe (sGet e i.sa.toNat) 8) ∧
          (hostHeld s (lineOf a) = false → ∀ d, ¬ (a ≤ d ∧ d < a + 8) → rd1 t.mem d = rd1 s.mem d)) ∧
        (lineTag s pl.j a ≠ tagPublic → exec (.sts i) s = .next (faultGlade s i.glade.val i.eng 0x21))))

/-- VOP: with the operand tiles in the glade's own buffer and every line PUBLIC, each row of tdA in order takes the operation's results on the rows of tdB
and of operand b, encoded in tdA's format; a reduction takes column 0 alone. The engine goes on, and no other glade changes (R161 to R163). -/
def Obligations.VopRowResults : Prop :=
  ∀ (i : GI) (s : State) (a b : Td) (op : Nat), Issues 0x34 { ta := true, tb := true, tc := true, sb := true, flags := 0x7F, only := some .xe, steps := true } i s →
    NextIn i s → a = tdGet (curEng s i) i.ta.toNat → b = tdGet (curEng s i) i.tb.toNat → op = i.flags.toNat % 16 →
    (gladeOf s i.glade.val).tags = [] → InBuffer a → InBuffer b → vecDst (placeOf s i.glade.val) a = true →
    vecSrc (placeOf s i.glade.val) b = true → tRows a = tRows b → (i.flags.getLsbD 5 && i.flags.getLsbD 6) = false →
    (∀ f, i.flags.getLsbD 4 = true → reduceFn op = some f →
      ∃ t, exec (.vop i) s = .next t ∧ RowsDone i (tStoch a) s t ((List.range (tRows a)).foldl (fun k r => { k with
        mem := putSel k.mem a r (roundAt s i.glade.val a r) ((f (memVals k.mem b r)).v :: List.replicate (tCols a - 1) 0) (fun c => c = 0) })
        (gladeOf s i.glade.val))) ∧
    (∀ f src, i.flags.getLsbD 4 = false → vopFn op = some f → tCols a = tCols b →
      src = (if !vopUsesB op then BSrc.none else if i.flags.getLsbD 5 then .scalar ((sGet (curEng s i) i.sb.toNat).setWidth 32)
        else if i.flags.getLsbD 6 then .bcast (tdGet (curEng s i) i.tc.toNat) else .tile (tdGet (curEng s i) i.tc.toNat)) →
      (∀ t, src = .tile t → InBuffer t ∧ vecSrc (placeOf s i.glade.val) t = true ∧ tRows t = tRows a ∧ tCols t = tCols a) →
      (∀ t, src = .bcast t → InBuffer t ∧ vecSrc (placeOf s i.glade.val) t = true ∧ tRows t = tRows a) →
      ∃ t, exec (.vop i) s = .next t ∧ RowsDone i (tStoch a) s t ((List.range (tRows a)).foldl (fun k r => { k with
        mem := putVals k.mem a r (roundAt s i.glade.val a r) (((memVals k.mem b r).zip ((memB k.mem src r (tCols b)).zip
          (memB k.mem (if op = 3 then .tile a else .none) r (tCols b)))).map (fun v => (f v.1 v.2.1 v.2.2).v)) })
        (gladeOf s i.glade.val)))

/-- SFU: each row of tdA in order takes the function's results on the row of tdB (R165). SEL: each row of tdA takes tdC's element where tdB's is neither
zero nor NaN and keeps its own elsewhere (R164). The operand tiles lie in the glade's own buffer, every line PUBLIC. STAT_RD writes the slot's largest
magnitude into column 0 of row 0 of tdA, its vanish count into column 1 and zeros behind (R166). -/
def Obligations.SfuSelStatResults : Prop :=
  (∀ (i : GI) (s : State) (a b c : Td), NextIn i s →
    a = tdGet (curEng s i) i.ta.toNat → b = tdGet (curEng s i) i.tb.toNat → c = tdGet (curEng s i) i.tc.toNat →
    (gladeOf s i.glade.val).tags = [] → InBuffer a → InBuffer b → vecDst (placeOf s i.glade.val) a = true →
    vecSrc (placeOf s i.glade.val) b = true → tRows a = tRows b → tCols a = tCols b →
    (∀ f, Issues 0x36 { ta := true, tb := true, flags := 7, only := some .xe, steps := true } i s → sfuFn (i.flags.toNat % 8) = some f →
      ∃ t, exec (.sfu i) s = .next t ∧ RowsDone i (tStoch a) s t ((List.range (tRows a)).foldl (fun k r => { k with
        mem := putVals k.mem a r (roundAt s i.glade.val a r) ((memVals k.mem b r).map (fun v => (f v).v)) }) (gladeOf s i.glade.val))) ∧
    (Issues 0x35 { ta := true, tb := true, tc := true, only := some .xe, steps := true } i s → InBuffer c → vecSrc (placeOf s i.glade.val) c = true →
      tRows a = tRows c → tCols a = tCols c →
      ∃ t, exec (.sel i) s = .next t ∧ RowsDone i (tStoch a) s t ((List.range (tRows a)).foldl (fun k r => { k with
        mem := putSel k.mem a r (roundAt s i.glade.val a r) (memVals k.mem c r)
          (fun n => ((memVals k.mem b r).map (fun v => !isZero32 v && !isNan32 v)).getD n false) }) (gladeOf s i.glade.val)))) ∧
  (∀ (i : GI) (s : State) (a : Td) (q : Stat), Issues 0x37 { ta := true, imm := 63, only := some .xe } i s → NextIn i s →
    a = tdGet (curEng s i) i.ta.toNat → q = statOf (gladeOf s i.glade.val) (i.imm.toNat % 64) →
    (gladeOf s i.glade.val).tags = [] → q.tag = tagPublic → InBuffer a → tdDst (placeOf s i.glade.val) a = true → tFmt a = fmtW32 →
    2 ≤ tCols a →
    ∃ t, exec (.statRd i) s = .next t ∧ RowsDone i false s t { gladeOf s i.glade.val with
      mem := putRow (gladeOf s i.glade.val).mem a 0 ([q.amax.toNat, q.vanish.toNat] ++ List.replicate (tCols a - 2) 0) [] })

/-- WLD loads the stationary tile into empty shadow registers; MM makes the shadow tile active and passes every row of tdB through it into the window rows
of tdA in order, overwriting or accumulating, in single or pair rows, as its flags say (R86, R91, R92, R97, R150, R151). Operand tiles lie in the
glade's own buffer, every line and the tile PUBLIC. CVT: the rows of window tile tdA in order through the conversion stage into tdB, with the
parameter block at sA, the column mask, the residual tile and the statistics slot that it names (R111 to R119, R159, R160). Tiles other than tdA lie
in the glade's own buffer, every line PUBLIC. -/
def Obligations.ArrayConvertResults : Prop :=
  (∀ (i : GI) (s : State) (a b : Td), NextIn i s → a = tdGet (curEng s i) i.ta.toNat → b = tdGet (curEng s i) i.tb.toNat →
    (gladeOf s i.glade.val).tags = [] →
    (Issues 0x30 { ta := true, flags := 3, only := some .xe } i s → (gladeOf s i.glade.val).shadow = none → InBuffer a →
      tRows a ≤ maxDepth (tFmt a) (i.flags.toNat % 4) → tCols a ≤ 256 →
      tileOk (placeOf s i.glade.val).j (placeOf s i.glade.val).prog a (tCols a) (tRows a) = true →
      ∃ t, exec (.wld i) s = .next t ∧ RowsDone i false s t { gladeOf s i.glade.val with
        shadow := some (memSTile (gladeOf s i.glade.val).mem a (i.flags.toNat % 4) (tRows a) (tCols a)) }) ∧
    (∀ st, Issues 0x31 { ta := true, tb := true, flags := 7, only := some .xe, steps := true } i s → (gladeOf s i.glade.val).shadow = some st →
      st.tag = tagPublic → InBuffer b → passTile (placeOf s i.glade.val) a (passFlags i.flags).pair = true →
      tdOk (placeOf s i.glade.val) b = true → tCols b = st.rows → tRows a = tRows b →
      (pairDepth st.fmt.toNat st.pack.toNat (tFmt b)).isSome = true →
      ((passFlags i.flags).acc = true → modesOk (gladeOf s i.glade.val) (passFlags i.flags).pair (firstRow a (passFlags i.flags).pair) (tRows a) = true) →
      ∃ t, exec (.mm i) s = .next t ∧ RowsDone i false s t ((List.range (tRows b)).foldl (fun k r =>
        passGlade (passFlags i.flags) st (tFmt b) (tBlk b) (firstRow a (passFlags i.flags).pair + r) ((rowElems b (memRow k.mem b r)).map (·.2)) k)
        { gladeOf s i.glade.val with shadow := none, active := some st }))) ∧
  (∀ (i : GI) (s : State) (a b c : Td) (blk : Bytes) (fn : BitVec 32 → R32) (slot : Option Nat) (o : CvtOp),
    Issues 0x33 { ta := true, tb := true, tc := true, sa := true, flags := 0x7F, imm := allImm, only := some .xe, steps := true } i s → NextIn i s →
    a = tdGet (curEng s i) i.ta.toNat → b = tdGet (curEng s i) i.tb.toNat → c = tdGet (curEng s i) i.tc.toNat →
    blk = rdBytes (gladeOf s i.glade.val).mem (sGet (curEng s i) i.sa.toNat).toNat 2304 →
    convFn (i.flags.toNat % 16) = some fn → slot = (if flagAt blk 2080 7 then none else some ((blk.getD 2080 0).toNat % 64)) →
    o = ⟨fn, i.flags.toNat % 16 ≠ 0, i.imm.extractLsb' 0 32, i.imm.extractLsb' 32 32, if i.flags.getLsbD 5 then some c else none,
      i.flags.getLsbD 6, blk, tagPublic, slot⟩ →
    (gladeOf s i.glade.val).tags = [] → InBuffer b → passTile (placeOf s i.glade.val) a (i.flags.getLsbD 6) = true →
    tdDst (placeOf s i.glade.val) b = true → (tWindow b = true → tCol0 b = 0) → tFmt b ≠ fmtF8 → tRows a = tRows b → tCols a = tCols b →
    (i.flags.getLsbD 5 = true → InBuffer c ∧ tdOk (placeOf s i.glade.val) c = true ∧ tFmt c = fmtW24 ∧ tRows a = tRows c ∧ tCols a = tCols c) →
    (sGet (curEng s i) i.sa.toNat).toNat % 256 = 0 → inScratch (jobOf s) (sGet (curEng s i) i.sa.toNat).toNat 2304 = true →
    modesOk (gladeOf s i.glade.val) (i.flags.getLsbD 6) (firstRow a (i.flags.getLsbD 6)) (tRows a) = true →
    flagAt blk 2080 6 = false → zeroAt blk 2081 223 = true → maskWhole blk b = true →
    ∃ t, exec (.cvt i) s = .next t ∧ RowsDone i (tStoch b) s t ((List.range (tRows a)).foldl (fun k r => convGlade s i.glade.val o a b r k)
      (match slot with
       | some k => if i.flags.getLsbD 4 then setStat (gladeOf s i.glade.val) k {} else gladeOf s i.glade.val
       | none => gladeOf s i.glade.val)))

/-- LD_T copies every row of tdB into tdA in the tile buffer, and LD_G the rows that its index list names, an entry of all ones giving a blank row (R144,
R147). Tile tdB lies in the glade's own buffer or in its program image; every line of the buffer is PUBLIC. Steps follow one another as R126 cuts
them, each reading all its bytes before it writes. -/
def Obligations.LoadTileResults : Prop :=
  ∀ (i : GI) (s : State) (a b : Td) (img : Mem), NextIn i s → a = tdGet (curEng s i) i.ta.toNat → b = tdGet (curEng s i) i.tb.toNat →
    img = (placeOf s i.glade.val).prog.image → (gladeOf s i.glade.val).tags = [] → InBuffer a → tdDst (placeOf s i.glade.val) a = true →
    tdOk (placeOf s i.glade.val) b = true → tSpace b ≠ 1 → (isBlock (tFmt b) = true → b.sspace ≠ 1) →
    a.fmt = b.fmt → a.blk = b.blk → a.cols = b.cols →
    (Issues 0x20 { ta := true, tb := true, only := some .ae, steps := true } i s → a.rows = b.rows →
      ∃ t c, exec (.ldT i) s = .next t ∧ RowsDone i false s t { gladeOf s i.glade.val with
        cache := c, mem := ((List.range (tRows a)).flatMap (fun r => rowMoves b a r r)).foldl (moveMem img) (gladeOf s i.glade.val).mem } ∧
        t.mem = s.mem ∧ t.tags = s.tags) ∧
    (∀ list n, Issues 0x22 { ta := true, tb := true, sa := true, sb := true, only := some .ae, steps := true } i s →
      list = (sGet (curEng s i) i.sa.toNat).toNat → n = (sGet (curEng s i) i.sb.toNat).toNat → n ≤ tRows a → list % 4 = 0 →
      inScratch (jobOf s) list (4 * n) = true →
      (List.range n).foldl (gatherMem img a b list) (some (gladeOf s i.glade.val).mem) ≠ none →
      ∃ t c m, exec (.ldG i) s = .next t ∧ (List.range n).foldl (gatherMem img a b list) (some (gladeOf s i.glade.val).mem) = some m ∧
        RowsDone i false s t { gladeOf s i.glade.val with cache := c, mem := m } ∧ t.mem = s.mem ∧ t.tags = s.tags)

/-- LD_T and LD_G from any space and ST_T into device memory run the steps of R126 in order; where none of them faults the engine goes on, and the
memories are as the steps leave them, but for window lines that only host memory held, which a load may bring in. A store changes no byte of device
memory outside the rows of tdA (R144, R145, R146). -/
def Obligations.MoveTileResults : Prop :=
  ∀ (i : GI) (s : State) (a b : Td) (pl : Place), NextIn i s → a = tdGet (curEng s i) i.ta.toNat → b = tdGet (curEng s i) i.tb.toNat →
    pl = placeOf s i.glade.val → tdDst pl a = true → tdOk pl b = true → a.fmt = b.fmt → a.blk = b.blk → a.cols = b.cols →
    (∀ x, Issues 0x20 { ta := true, tb := true, only := some .ae, steps := true } i s → a.rows = b.rows → tSpace a = 0 →
      x = runSteps (moveStep pl) ((List.range (tRows a)).flatMap (fun r => rowMoves b a r r)) { s := s } → x.err = 0 →
      ∃ t, exec (.ldT i) s = .next t ∧ Ended i s t (cacheLines x.s pl.j i.glade.val true (tileLines b)) ∧ t.tags = x.s.tags ∧
        ∀ d, hostHeld x.s (lineOf d) = false → rd1 t.mem d = rd1 x.s.mem d) ∧
    (∀ x list n, Issues 0x22 { ta := true, tb := true, sa := true, sb := true, only := some .ae, steps := true } i s → tSpace a = 0 →
      list = (sGet (curEng s i) i.sa.toNat).toNat → n = (sGet (curEng s i) i.sb.toNat).toNat → n ≤ tRows a → list % 4 = 0 →
      inScratch (jobOf s) list (4 * n) = true → x = runRows (gatherRow pl a b list) n { s := s } → x.err = 0 →
      ∃ t, exec (.ldG i) s = .next t ∧ Ended i s t (cacheLines x.s pl.j i.glade.val true (tileLines b)) ∧ t.tags = x.s.tags ∧
        ∀ d, hostHeld x.s (lineOf d) = false → rd1 t.mem d = rd1 x.s.mem d) ∧
    (∀ x, Issues 0x21 { ta := true, tb := true, only := some .ae, steps := true } i s → a.rows = b.rows → tSpace a = 1 → tSpace b = 0 →
      x = runSteps (moveStep pl) ((List.range (tRows a)).flatMap (fun r => rowMoves b a r r)) { s := s } → x.err = 0 →
      ∃ t, exec (.stT i) s = .next t ∧ Ended i s t x.s ∧ t.mem = x.s.mem ∧ t.tags = x.s.tags ∧
        ∀ d, hostHeld s (lineOf d) = false → (∀ r, r < tRows a → ¬ (rowAddr a r ≤ d ∧ d < rowAddr a r + rowBytes a) ∧
          (isBlock (tFmt a) = true → a.sspace = 1 → ¬ (scaleAddr a r ≤ d ∧ d < scaleAddr a r + nBlocks a))) → rd1 t.mem d = rd1 s.mem d)

/-- PF completes whatever its descriptor says, changes no tag, no byte of host memory and none of device memory but for window lines that only host memory
held, and at most adds lines to the caches (R148). XFER gives the descriptor at sA to the transfer engine and goes on (R149). -/
def Obligations.PrefetchXferResults : Prop :=
  ∀ (i : GI) (s : State), NextIn i s →
    (Issues 0x23 { ta := true, flags := 1, only := some .ae } i s →
      ∃ t c, exec (.pf i) s = .next t ∧ RowsDone i false s t { gladeOf s i.glade.val with cache := c } ∧
        t.host = s.host ∧ t.tags = s.tags ∧ t.cmds = s.cmds ∧
        ∀ d, hostHeld s (lineOf d) = false → rd1 t.mem d = rd1 s.mem d ∧ sealOf t (lineOf d) = sealOf s (lineOf d)) ∧
    (∀ a, Issues 0x24 { sa := true, only := some .ae } i s → a = (sGet (curEng s i) i.sa.toNat).toNat → a % 64 = 0 →
      inScratch (jobOf s) a 64 = true → gPoisoned (gladeOf s i.glade.val) a 64 = false →
      exec (.xfer i) s = .next (setCur (addXfer s (gladeOf s i.glade.val).cmd (some i.glade.val) (rdBytes (gladeOf s i.glade.val).mem a 64)
        (gladeSeed s (gladeOf s i.glade.val).cmd)) i (stepOn (curEng s i))))

/-- ROUTE without a directory: each row of tdC takes the words of the selected experts, their gates, and all-ones positions (R167 to R172). ROUTE_F unions
its selections into the forecast record (R176, R222, R223). Tiles lie in the glade's own buffer, every line PUBLIC. -/
def Obligations.RouteResults : Prop :=
  ∀ (i : GI) (s : State) (a b c : Td) (o : RouteOp), NextIn i s → a = tdGet (curEng s i) i.ta.toNat → b = tdGet (curEng s i) i.tb.toNat →
    c = tdGet (curEng s i) i.tc.toNat → (gladeOf s i.glade.val).tags = [] → InBuffer a → tdOk (placeOf s i.glade.val) a = true →
    tFmt a = fmtW32 → o.eb ≤ tCols a → o.norm ≠ 3 →
    (Issues 0x38 { ta := true, tb := true, tc := true, sa := true, sb := true, sc := true, imm := routeImm, only := some .xe, steps := true } i s →
      o = routeOp i.imm.toNat 0 (sGet (curEng s i) i.sb.toNat).toNat (sGet (curEng s i) i.sc.toNat).toNat → sGet (curEng s i) i.sa.toNat = 0 →
      InBuffer b → InBuffer c → tdOk (placeOf s i.glade.val) b = true → tdDst (placeOf s i.glade.val) c = true → tFmt b = fmtW32 →
      tFmt c = fmtW32 → tCols c = 3 * o.k → tRows a = tRows b → tRows a = tRows c →
      ∃ t, exec (.route i) s = .next t ∧ RowsDone i false s t ((List.range (tRows a)).foldl (fun k r => { k with
        mem := putRow k.mem c r (routeCodes ((List.range o.eb).map (fun e => (baseWord o.gen e, (memVals k.mem a r).getD e 0))) o.k o.norm o.gen) [] })
        (gladeOf s i.glade.val))) ∧
    (∀ sel ra old w, Issues 0x39 { ta := true, imm := 0xFFFFFF, only := some .xe, steps := true } i s → o = routeOp i.imm.toNat 0 0 0 →
      sel = (List.range (tRows a)).foldl (fun l r => l ++ ((selectK o.k ((List.range o.eb).map (fun e =>
        (baseWord o.gen e, (memVals (gladeOf s i.glade.val).mem a r).getD e 0)))).map (fun q => idIndex q.1)).filter (fun e => !l.contains e)) [] →
      ra = fcastAddr (jobOf s) o.gen o.layer → inCounters (jobOf s) ra 64 = false →
      old = (if leNat (rdBytes s.mem (ra + 32) 8) = (gladeOf s i.glade.val).cmd.toNat then rdBytes s.mem ra 32 else zeros 32) →
      w = hubWrite s ra (bitmapOr old sel ++ bvLe (gladeOf s i.glade.val).cmd 8) (tagBase o.gen) →
      ∃ t, exec (.routeF i) s = .next t ∧ RowsDone i false s t (gladeOf s i.glade.val) ∧ t.tags = w.tags ∧
        ∀ d, hostHeld w (lineOf d) = false → rd1 t.mem d = rd1 w.mem d)

/-- MM_G runs its groups in order, and RED its contribution; where no step faults the engine goes on, with the glade and the target as the steps leave
them (R152 to R158, R177, R178). One group of a base expert against one contraction tile: its rows, in the glade's own buffer with every line PUBLIC,
pass the tile that the identifier names. A contribution that is the only one of its reduction, into a PUBLIC target, is added element by element. No
group is a PROGRAM_FAULT. -/
def Obligations.GroupedReduceResults : Prop :=
  ∀ (i : GI) (s : State) (a b : Td) (pl : Place) (k : Glade), a = tdGet (curEng s i) i.ta.toNat → b = tdGet (curEng s i) i.tb.toNat →
    pl = placeOf s i.glade.val → k = gladeOf s i.glade.val →
    (∀ o n list, Issues 0x32 { ta := true, tb := true, sa := true, sb := true, sc := true, flags := 7, imm := ~~~(0xF800 : BitVec 64), only := some .xe, steps := true } i s →
      o = GroupOp.mk (bitsOf i.imm.toNat 0 8) (bitsOf i.imm.toNat 8 2) (i.imm.toNat.testBit 10) (bitsOf i.imm.toNat 16 16)
        (bitsOf i.imm.toNat 32 16) (bitsOf i.imm.toNat 48 16) (sGet (curEng s i) i.sc.toNat).toNat (passFlags i.flags) →
      n = (sGet (curEng s i) i.sb.toNat).toNat → list = (sGet (curEng s i) i.sa.toNat).toNat →
      (n = 0 → exec (.mmG i) s = .next (faultGlade s i.glade.val i.eng stProgram)) ∧
      (passTile pl a o.pf.pair = true → tdOk pl b = true → n ≠ 0 → o.kn ≠ 0 → inScratch pl.j list (16 * n) = true →
        tFmt b ≠ fmtW32 → tFmt b ≠ fmtF8 → NextIn i s →
        (∀ x, gPoisoned k list (16 * n) = false →
          x = ((List.range n).map (fun k' => groupAt (rdBytes k.mem (list + 16 * k') 16))).foldl
            (fun x g => if x.err ≠ 0 then x else groupRun pl o a b g x) { s := s } → x.err = 0 →
          ∃ t, exec (.mmG i) s = .next t ∧ Ended i s t x.s) ∧
        (∀ g st, n = 1 → g = groupAt (rdBytes k.mem list 16) → k.tags = [] → InBuffer b → o.kn = 1 → o.k0 = 0 → o.pf.acc = false →
          idPriv g.id = false → g.count ≠ 0 → g.first % 64 = 0 → g.cap % 64 = 0 → o.sc ≤ g.first → g.first - o.sc + g.count ≤ tRows b →
          g.first - o.sc + g.count ≤ tRows a → groupTile s pl g.id o.layer o.proj o.copy (tFmt b) 0 o.col = .ok st →
          (pairDepth st.fmt.toNat st.pack.toNat (tFmt b)).isSome = true → st.rows ≤ tCols b → st.tag ≠ tagPoison →
          ∃ t, exec (.mmG i) s = .next t ∧ RowsDone i false s t ((List.range g.count).foldl (fun q r =>
            passGlade o.pf st (tFmt b) (tBlk b) (firstRow a o.pf.pair + (g.first - o.sc + r))
              (((rowElems b (memRow q.mem b (g.first - o.sc + r))).map (·.2)).take st.rows) q)
            { k with shadow := none, active := some st })))) ∧
    (∀ p, Issues 0x3A { ta := true, tb := true, sa := true, sb := true, flags := 1, only := some .xe, steps := true } i s → NextIn i s →
      i.flags = 0 → sGet (curEng s i) i.sa.toNat = 1 → sGet (curEng s i) i.sb.toNat = 0 → tdOk pl a = true → tdOk pl b = true →
      tSpace a = 0 → tFmt a ≠ fmtF8 → (tFmt b = fmtW32 ∨ tFmt b = fmtM16) → tRows a = tRows b → tCols a = tCols b → tSpace b = 1 →
      redManaged pl.j b = true → redTarget s pl b = .ok true → InBuffer a → k.tags = [] → pl.j.reds.find? (fun r => r.base = b.base) = none →
      staleHalf s (halfOfGlade i.glade.val) = false → (∀ r l, r < tRows b → l < redLines b → RedLineOk s pl b r l) →
      p = ⟨i.glade.val, k.cmd, b, gladeSeed s k.cmd, k.rcnt, []⟩ →
      ∃ t x, exec (.red i) s = .next t ∧ x = redArrive pl p a { s := s } ∧ x.err = 0 ∧ Ended i s t x.s ∧
        x.s.mem = redMem p ((List.range (tRows a)).map (memVals k.mem a)) s.mem ∧ (x.inv = none → t.mem = x.s.mem))

/-- DOORBELL_WRITE: the two words reach the ring's doorbell line and the cells made visible reach host memory; a device that is ready and a ring that is
not DISABLED read them, a SQ_TAIL more than N past ACCEPTED being ignored with DB_RANGE set (R380, R381). DESCRIPTOR_ACCEPT: the accept record of R393
in the journal, the next ACC_SEQ of R394, the command held, or finished with POLICY where R383, R392 or R575 turns it away, or with REVOKED for an
ADMIT of a tenant slot that is not BOUND (R310); a ring that may not accept is left alone. COMPLETION_RELEASE: the record of R397, the ring's
RELEASED, and its vector if asked. -/
def Obligations.RingResults : Prop :=
  ∀ (r : Fin 256) (s : State) (g : Ring), g = ringOf s r.val →
    (∀ tail head : BitVec 32, g.st ≠ .disabled → hubUp s = true → s.boot.devReady = true →
      exec (.doorbellWrite r [] tail head) s = .next (setRing { s with host := wrBytes s.host (g.db.toNat * 64) (bvLe tail 4 ++ bvLe head 4) } r.val
        (if ringN g < (tail - g.accepted).toNat then { g with cqHead := head, dbRange := true } else { g with cqHead := head, sqTail := tail }))) ∧
    (∀ tail head : BitVec 32, g.st = .disabled → exec (.doorbellWrite r [] tail head) s =
      .next { s with host := wrBytes s.host (g.db.toNat * 64) (bvLe tail 4 ++ bvLe head 4) }) ∧
    (∀ (vis : List Host.Cell) (tail head : BitVec 32),
      exec (.doorbellWrite r vis tail head) s = exec (.doorbellWrite r [] tail head) (vis.foldl hostPoke s)) ∧
    (mayAccept s r.val = false → exec (.descriptorAccept r) s = .next s) ∧
    (∀ c, mayAccept s r.val = true →
      c = { acc := nextAcc s, ring := r.val, index := g.accepted, desc := rdBytes s.host (sqAddr g g.accepted) 128,
            job := if r.val = 0 then 0 else (jobOf s).id, opened := s.hub.time } →
      exec (.descriptorAccept r) s = .next { s with
        host := wrBytes s.host (jnlAddr g g.accepted) (bvLe c.acc 8 ++ bvLe g.accepted 4 ++ [c.desc.getD 0 0, if phase (ringN g) g.accepted.toNat then 0x80 else 0] ++ zeros 2),
        rings := tset {} s.rings r.val { g with accepted := g.accepted + 1 }, hub := { s.hub with accCount := s.hub.accCount + 1 },
        cmds := s.cmds ++ [if descriptorOk c = false then { c with ph := .done, status := stPolicy, result := endResult s c }
          else if opcOf c = 0x02 ∧ c.ring ≠ 0 ∧ isBound (jobOf s) (opN c 0 2 % 4096) = false then
            { c with ph := .done, status := stRevoked, result := endResult s c } else c] }) ∧
    (∀ c, nextRecord s r.val = some c → c.ph = .done → hubUp s = true → s.boot.devReady = true → (g.released - g.cqHead).toNat < ringN g →
      (g.st = .draining → ringSaved s r.val = false) → hdrFlag c 1 = false → c.ring = 0 →
      exec (.completionRelease r) s = .next { s with
        host := wrBytes s.host (cqAddr g g.released) (completionRecord c s.hub.time (degraded s) (phase (ringN g) g.released.toNat)),
        rings := tset {} s.rings r.val (drained { g with released := g.released + 1 }),
        cmds := s.cmds.filter (fun d => d.acc ≠ c.acc) }) ∧
    (∀ c u, mayRelease s r.val = some c →
      u = setRing (countCmd { s with
        host := wrBytes s.host (cqAddr g g.released) (completionRecord c s.hub.time (degraded s) (phase (ringN g) g.released.toNat)),
        cmds := s.cmds.filter (fun d => d.acc ≠ c.acc) } c) r.val (drained { g with released := g.released + 1, irqSeen := g.irqSeen || hdrFlag c 1 }) →
      exec (.completionRelease r) s = .next (if hdrFlag c 1 then sendVector u g.vector else u)) ∧
    (mayRelease s r.val = none → exec (.completionRelease r) s = .next s)

/-- FENCE finishes once every command accepted before it in its scope has completed (R403), and MARK once every one of its own ring has, with the
hub-local counter as its result (R404); until then each leaves the state as it is. What a completion record, an accept record and a finished command
hold (R393, R397, R400): a record has 32 bytes with the acceptance number first and the status next, an accept record 16; finishing a command changes
that command alone. -/
def Obligations.FenceMarkRecordResults : Prop :=
  (∀ (acc : BitVec 64) (s : State) (c : Cmd),
    (ready s acc 0x0B = some c → exec (.fence acc) s = .next
      (if (∀ d ∈ s.cmds, d.acc.toNat < c.acc.toNat → (if opN c 0 1 = 0 then d.ring = c.ring else d.ring ≠ 0 ∧ d.job = c.job) → d.ph = .done)
        then finish s acc stOk else s)) ∧
    (ready s acc 0x0C = some c → exec (.mark acc) s = .next
      (if (∀ d ∈ s.cmds, d.acc.toNat < c.acc.toNat → d.ring = c.ring → d.ph = .done) then finishWith s acc stOk (bvLe s.hub.time 8) else s))) ∧
  ((∀ (c : Cmd) (t : BitVec 64) (deg ph : Bool), (completionRecord c t deg ph).length = 32 ∧
    Machine.fieldLe (completionRecord c t deg ph) 0 8 = c.acc.toNat ∧ (completionRecord c t deg ph).getD 8 0 = c.status ∧
    ((completionRecord c t deg ph).getD 9 0).getLsbD 7 = ph ∧ ((completionRecord c t deg ph).getD 9 0).getLsbD 6 = deg) ∧
  (∀ (acc : BitVec 64) (i : BitVec 32) (o : Byte) (ph : Bool), (acceptRecord acc i o ph).length = 16 ∧
    Machine.fieldLe (acceptRecord acc i o ph) 0 8 = acc.toNat ∧ Machine.fieldLe (acceptRecord acc i o ph) 8 4 = i.toNat ∧
    (acceptRecord acc i o ph).getD 12 0 = o ∧ ((acceptRecord acc i o ph).getD 13 0).getLsbD 7 = ph) ∧
  (∀ (s : State) (acc : BitVec 64) (st : Byte), (finish s acc st).cmds = s.cmds.map (fun c =>
    if c.acc = acc then (if c.ph = .done then c else { c with ph := .done, status := finalStatus c st }) else c) ∧
    finish s acc st = { s with cmds := (finish s acc st).cmds }))

/-- The module's pins. MOD_PWR_EN_ASSERT powers it unless a trip or an input fault is latched (R458, R478, R564); MOD_PWR_EN_DEASSERT, INPUT_FAULT,
THERMAL_TRIP and PERST_ASSERT are cold resets with LAST 2, 0, 3 and 1, which leave flash, fuses, and host memory with the CXL window's ciphertext
alone, return everything else to its reset value and turn every power domain but the hub's off (R459, R466, R467, R478). -/
def Obligations.PinResults : Prop :=
  ∀ (s : State) (cold : BitVec 3 → State),
    (∀ k, cold k = domainsOff { State.reset with
      pins := { s.pins with alert := false }, flash := s.flash, rst := { State.reset.rst with last := k },
      host := (exposeWindow s).host, out := s.out, link := s.link, free := s.free, pending := s.pending }) →
    (s.pins.latched = true → exec .modPwrEnAssert s = .next { s with pins := { s.pins with pwrEn := true } }) ∧
    (s.pins.latched = false → exec .modPwrEnAssert s = .next { s with pins := { s.pins with pwrEn := true, pwrGood := true, inputOk := true } }) ∧
    (s.pins.pwrGood = true →
      exec .modPwrEnDeassert s = .next { cold 2 with
        pins := { s.pins with alert := false, pwrGood := false, pwrEn := false, latched := false, thermTrip := false } } ∧
      exec .inputFault s = .next { cold 0 with pins := { s.pins with alert := false, pwrGood := false, inputOk := false, latched := true } } ∧
      exec .thermalTrip s = .next { cold 3 with pins := { s.pins with alert := false, pwrGood := false, thermTrip := true, latched := true } } ∧
      (s.pins.perst = false → exec .perstAssert s = .next { cold 1 with pins := { s.pins with alert := false, perst := true } }) ∧
      (s.pins.perst = true → exec .perstAssert s = .next s)) ∧
    (s.pins.pwrGood = false →
      exec .modPwrEnDeassert s = .next { s with pins := { s.pins with pwrGood := false, pwrEn := false, latched := false, thermTrip := false } } ∧
      exec .inputFault s = .next { s with pins := { s.pins with pwrGood := false, inputOk := false, latched := true } } ∧
      exec .thermalTrip s = .next s ∧ exec .perstAssert s = .next { s with pins := { s.pins with perst := true } })

/-- PERST_DEASSERT boots a powered module: the bank that passes its checks runs, the other once if the first choice fails, and DEV_READY is set with the
cold-reset generation raised by 1, the alias key that the bank determines and every power domain on (R417); where neither bank passes, HUB_BOOT
reports a FAIL code and ALERT_N is asserted (R426, R428, R459, R461). WARM_RESET sets LAST 4, counts itself, raises the epoch and ends with DEV_READY,
or stops the same way (R468, R469, R471, R503). -/
def Obligations.BootResults : Prop :=
  (∀ (t : BootTests) (s : State), s.pins.perst = true → s.pins.pwrGood = true →
    (∀ k fell, bootBank { s with pins := { s.pins with perst := false } } t.banks (firstBank s) = some (k, fell) →
      ∃ u, exec (.perstDeassert t) s = .next u ∧ u.boot = { stage := 9, cfgReady := true, devReady := true, fallback := fell } ∧
        u.flash = { s.flash with marked := false, active := k, coldGen := s.flash.coldGen + 1 } ∧ u.pins = { s.pins with perst := false } ∧
        u.rgr.bank = k ∧ u.rgr.runSvn = bankSvn (bankOf s k) ∧ u.rgr.aliasKey = aliasOf (bankOf s k) ∧
        (t.failDies = 0 → ∀ i < 50, (pdOf u i).st = 0) ∧ u.hub = s.hub ∧ u.host = s.host ∧ u.mem = s.mem ∧ u.job = s.job ∧
        (halfOf u 0).lease = some s.hub.time ∧ (halfOf u 1).lease = some s.hub.time) ∧
    (bootBank { s with pins := { s.pins with perst := false } } t.banks (firstBank s) = none →
      ∃ c, exec (.perstDeassert t) s = .next { s with
        boot := { stage := 10, fail := c }, pins := { s.pins with perst := false, alert := true } })) ∧
  (∀ (b : BankChecks) (s : State), s.pins.pwrGood = true → s.pins.perst = false → s.boot.cfgReady = true → s.job = none → s.fab.xfers = [] →
    (∀ k fell, bootBank s b (firstBank s) = some (k, fell) →
      ∃ u, exec (.warmReset b 0) s = .next u ∧ u.boot = { stage := 9, cfgReady := true, devReady := true, fallback := fell } ∧
        u.rst.last = 4 ∧ u.rst.warmCnt = satAdd s.rst.warmCnt 1 ∧ u.epoch = s.epoch + 1 ∧ u.fab.pairs = [] ∧ u.spdm = {} ∧
        u.mem = s.mem ∧ u.host = s.host ∧ u.rgr.bank = k ∧ u.flash.active = k) ∧
    (bootBank s b (firstBank s) = none →
      ∃ u c, exec (.warmReset b 0) s = .next u ∧ u.boot = { stage := 10, fail := c } ∧ u.pins.alert = true))

/-- RUN: with no glade it completes POLICY, on a fenced die DEVICE_FAULT, as an eval run of a tenant that is not served REVOKED, from an empty slot
PROGRAM_FAULT, in that order; it waits while a glade of its set is held, busy, or due to a released frame or an earlier RUN, and an eval run for the
tenant's updates; else every glade of the set starts its program (R124, R127, R293, R321, R390, R392, R402, R499). -/
def Obligations.RunResults : Prop :=
  ∀ (acc : BitVec 64) (s : State) (c : Cmd) (j : Job) (p : Prog) (gs : List Nat), ready s acc 0x01 = some c → s.job = some j → c.ph = .accepted →
    p = progOf j (opB c 0 1 8).toNat → gs = cmdGlades c →
    (gs = [] → exec (.run acc) s = .next (finish s acc stPolicy)) ∧
    (gs ≠ [] → (∃ g ∈ gs, gladeFenced s g = true) → exec (.run acc) s = .next (finish s acc stDevice)) ∧
    (gs ≠ [] → (∀ g ∈ gs, gladeFenced s g = false) →
      (hdrFlag c 0 = true → tenantServes j (hdrTenant c) acc = false → exec (.run acc) s = .next (finish s acc stRevoked)) ∧
      ((hdrFlag c 0 = true → tenantServes j (hdrTenant c) acc = true) →
        (p.size = 0 → exec (.run acc) s = .next (finish s acc stProgram)) ∧
        (p.size ≠ 0 → ((∃ g ∈ gs, gladeHeld s g = true) ∨ (∃ g ∈ gs, (gladeOf s g).cmd ≠ 0 ∨ halfActs s g = false) ∨
          (hdrFlag c 0 = true ∧ evalFree s c = false) ∨ frameWaits s j gs = true ∨ earlierRun s c gs = true) → exec (.run acc) s = .next s) ∧
        (p.size ≠ 0 → (∀ g ∈ gs, gladeHeld s g = false ∧ (gladeOf s g).cmd = 0 ∧ halfActs s g = true) →
          (hdrFlag c 0 = true → evalFree s c = true) → frameWaits s j gs = false → earlierRun s c gs = false →
          (domainsReady s gs = false → exec (.run acc) s = .next (wakeDomains s gs)) ∧
          (domainsReady s gs = true → exec (.run acc) s = .next (gladesDone (startGlades (updCmd s acc (fun d => { d with
            ph := .running, started := s.hub.time, slot := opB c 0 1 8, glades := gs, throttled := throttledNow s gs }))
            p acc (opB c 0 1 8) gs (cmdArgs c)) acc)))))

/-- Each engine of a glade that a command starts: s0 reads 0 and keeps nothing, s1 to s3 hold the glade index, its rank and the number of glades, s4 to
s11 the argument words, s12 to s31 and the predicates are 0, the call stack and the token queues are empty, every tile descriptor has FMT 0; tile
buffer, bottom buffer and statistics slots keep their contents (R127). -/
def Obligations.StartedGlade : Prop :=
  ∀ (s : State) (p : Prog) (acc : BitVec 64) (slot : Byte) (g rank n : Nat) (args : List (BitVec 64)) (k : Glade), args.length ≤ 8 →
    k = gladeOf (startGlade s p acc slot g rank n args) g →
    (∀ e : Engine, sGet (engOf k e) 0 = 0 ∧ (∀ v, sSet (engOf k e) 0 v = engOf k e) ∧ sGet (engOf k e) 1 = BitVec.ofNat 64 g ∧
      sGet (engOf k e) 2 = BitVec.ofNat 64 rank ∧ sGet (engOf k e) 3 = BitVec.ofNat 64 n ∧
      (∀ r, r < 8 → sGet (engOf k e) (4 + r) = args.getD r 0) ∧ (∀ r, 12 ≤ r → sGet (engOf k e) r = 0) ∧ (engOf k e).p = 0 ∧
      (engOf k e).stack = [] ∧ ∀ d, (tdGet (engOf k e) d).fmt = 0) ∧
    (∀ q, queueOf k q = [] ∧ sentOf k q = []) ∧ k.cmd = acc ∧ k.mem = (gladeOf s g).mem ∧ k.pair = (gladeOf s g).pair ∧
    k.tags = (gladeOf s g).tags ∧ k.stats = (gladeOf s g).stats ∧ ∀ h, h ≠ g → gladeOf (startGlade s p acc slot g rank n args) h = gladeOf s h

/-- FRAME takes a frame in with its release, the later of its acceptance and the previous release plus PERIOD, or completes it (R320, R499); FRAME_RELEASE
brings the clock to it; FRAME_DISPATCH starts the program the monitor chooses on every glade of the stream, or ends a frame whose stream has no glade
left with DEVICE_FAULT (R321, R323, R499). FRAME_PROGRAM_END: the frame completes with the first status of R324, its lateness saturated, and the
estimate of the program that ran takes the update of R322 when the status is OK, FALLBACK or LATE. STREAM_SET waits for the stream's earlier frames,
then applies (R318, R319). -/
def Obligations.FrameResults : Prop :=
  (∀ (acc : BitVec 64) (s : State) (c : Cmd) (j : Job) (t : Stream), ready s acc 0x04 = some c → s.job = some j → t = streamOf j (opN c 0 2) →
    (c.ph = .accepted → c.release = none → streamBusy s c 0x4A (fun _ => true) = false → streamBusy s c 0x04 (fun d => d.release.isNone) = false →
      ((1024 ≤ opN c 0 2 ∨ t.enabled = false) → exec (.frame acc) s = .next (finish s c.acc stPolicy)) ∧
      (opN c 0 2 < 1024 → t.enabled = true → tenantServes j t.tenant.toNat c.acc = false → exec (.frame acc) s = .next (finish s c.acc stRevoked)) ∧
      (opN c 0 2 < 1024 → t.enabled = true → tenantServes j t.tenant.toNat c.acc = true → gladesIn s t.glades = [] →
        exec (.frame acc) s = .next (finish s c.acc stDevice)) ∧
      (∀ r : BitVec 64, opN c 0 2 < 1024 → t.enabled = true → tenantServes j t.tenant.toNat c.acc = true → gladesIn s t.glades ≠ [] →
        r = (match t.lastRel with | none => c.opened | some p => BitVec.ofNat 64 (max c.opened.toNat (p.toNat + t.period.toNat * 1000))) →
        exec (.frame acc) s = .next (updCmd { s with job := some (setStream j (opN c 0 2) { t with lastRel := some r }) } c.acc
          (fun d => { d with release := some r })))) ∧
    (∀ r, c.release = some r → c.ph = .accepted → exec (.frameRelease acc) s = .next (advanceTo s r.toNat)) ∧
    (∀ r, c.release = some r → c.ph = .accepted → gladesIn s t.glades = [] → exec (.frameDispatch acc) s = .next (finish s acc stDevice)) ∧
    (∀ r gs slot, c.release = some r → frameCan s j c = true → (∀ d ∈ s.cmds, frameCan s j d = true → frameBefore j d c = false) →
      gs = gladesIn s t.glades → domainsReady s gs = true → slot = (if runsFallback s j c r then t.fallback else t.main) →
      (progOf j slot.toNat).size ≠ 0 →
      exec (.frameDispatch acc) s = .next (gladesDone (startGlades (updCmd { s with
        job := some (setStream j (opN c 0 2) { t with falls := if runsFallback s j c r then satAdd t.falls 1 else t.falls }) } acc (fun d => { d with
          ph := .running, started := s.hub.time, slot := slot, glades := gs, fallback := runsFallback s j c r, throttled := throttledNow s gs,
          result := zeros 4 ++ [BitVec.ofNat 8 (nat (runsFallback s j c r))] })) (progOf j slot.toNat) acc slot gs (cmdArgs c)) acc))) ∧
  (∀ (acc : BitVec 64) (s : State) (c : Cmd) (j : Job) (t : Stream), s.job = some j → t = streamOf j (opN c 0 2) →
    (∀ r own dl, ready s acc 0x04 = some c → c.release = some r → c.ph = .running → c.progress ≠ 0 → c.strictHit = false → c.frozen = false →
      c.warn = false → dl = r.toNat + t.deadline.toNat * 1000 →
      own = (if c.status ≠ 0 then c.status else if dl < s.hub.time.toNat then stLate else if c.fallback then stFallback else stOk) →
      (16 ≤ own.toNat → exec (.frameProgramEnd acc) s = .next (finishWith { s with job := some (setStream j (opN c 0 2) t) } acc own
        (natLe 0 4 ++ [BitVec.ofNat 8 (nat c.fallback)]))) ∧
      (∀ x : Nat, c.status = 0 → c.fallback = false → x = s.hub.time.toNat - c.started.toNat →
        exec (.frameProgramEnd acc) s = .next (finishWith { s with job := some (setStream j (opN c 0 2) { t with
          eMain := t.eMain + ((x : Int) - t.eMain).tdiv 8, dMain := t.dMain + (((((x : Int) - t.eMain).natAbs : Nat) : Int) - t.dMain).tdiv 4,
          lates := if dl < s.hub.time.toNat then satAdd t.lates 1 else t.lates }) } acc own
          (natLe (if dl < s.hub.time.toNat then min (s.hub.time.toNat - dl) (2 ^ 32 - 1) else 0) 4 ++ [0])))) ∧
    (ready s acc 0x4A = some c → (streamBusy s c 0x04 (fun _ => true) = true → exec (.streamSet acc) s = .next s) ∧
      (streamBusy s c 0x04 (fun _ => true) = false →
        ((streamOk c = false ∨ isBound j (opN c 2 2 % 4096) = false) → exec (.streamSet acc) s = .next (finish s acc stPolicy)) ∧
        (streamOk c = true → isBound j (opN c 2 2 % 4096) = true → ∃ u k, exec (.streamSet acc) s = .next (finish { s with
            job := some (setStream j (opN c 0 2) u) } acc stOk) ∧ k = opN c 16 4 ∧ u.enabled = decide (opN c 4 1 % 2 = 1) ∧ u.main = opB c 5 1 8 ∧
          u.fallback = opB c 6 1 8 ∧ u.tenant = BitVec.ofNat 12 (opN c 2 2) ∧ u.period = opB c 8 4 32 ∧ u.deadline = opB c 12 4 32 ∧
          u.glades = opB c 24 16 128 ∧ u.falls = 0 ∧ u.lates = 0 ∧ u.lastRel = t.lastRel ∧ (t.enabled = false → u.eMain = (k : Int) ∧ u.dMain = 0)))))

/-- ADMIT of a bound tenant queues its sequence in acceptance order; an unbound one completes REVOKED (R310). RETIRE ends a queued or parked sequence at
once and a running one at the next boundary, and completes OK_WARN where it names none (R311). -/
def Obligations.AdmitRetireResults : Prop :=
  ∀ (acc : BitVec 64) (s : State) (c : Cmd) (j : Job), s.job = some j →
    (ready s acc 0x02 = some c → c.ph = .accepted →
      (isBound j (opN c 0 2 % 4096) = false → exec (.admitSeq acc) s = .next (finishWith s acc stRevoked (bvLe (opB c 48 8 64) 8 ++ natLe 0 3))) ∧
      (isBound j (opN c 0 2 % 4096) = true → (opN c 4 4 = 0 ∨ opN c 8 4 = 0 ∨ 2 ^ 24 < opN c 4 4 + opN c 8 4) →
        exec (.admitSeq acc) s = .next (finishWith s acc stPolicy (bvLe (opB c 48 8 64) 8 ++ natLe 0 3))) ∧
      (∀ b q, isBound j (opN c 0 2 % 4096) = true → opN c 4 4 ≠ 0 → opN c 8 4 ≠ 0 → opN c 4 4 + opN c 8 4 ≤ 2 ^ 24 →
        spillOk j (opN c 0 2 % 4096) (opN c 40 8) (pagesFor (opN c 4 4 + opN c 8 4) * (j.pageKib * 1024)) = true →
        readPrompt s j (opN c 0 2 % 4096) (opN c 16 8) = .ok b →
        q = { acc := acc, tenant := opN c 0 2 % 4096, prompt := b, plen := opN c 4 4, maxNew := opN c 8 4, out := opB c 24 8 64,
              outLen := opN c 32 8, spill := opB c 40 8 48, user := opB c 48 8 64 : Sequence } →
        exec (.admitSeq acc) s = .next (updCmd { s with job := some (fetchAll { j with seqs := insertSeq q j.seqs } acc (opN c 0 2 % 4096)) } acc
          (fun d => { d with ph := .running, started := s.hub.time })))) ∧
    (∀ d q, ready s acc 0x03 = some c → findCmd s (opB c 8 8 64) = some d → d.ring = opN c 0 1 → opcOf d = 0x02 → d.job = j.id →
      d.ph = .running → j.seqs.find? (fun q => q.acc = opB c 8 8 64) = some q →
      (q.tenant ≠ hdrTenant c → exec (.retire acc) s = .next (finish s acc stPolicy)) ∧
      (q.tenant = hdrTenant c → (q.st = .queued ∨ q.st = .parked) → exec (.retire acc) s = .next (finish (dropSeq s q stWarn) acc stOk)) ∧
      (q.tenant = hdrTenant c → q.st ≠ .queued → q.st ≠ .parked → exec (.retire acc) s = .next
        (finish (updSeq s (opB c 8 8 64) (fun q => if q.ended.isNone then { q with ended := some stWarn } else q)) acc stOk))) ∧
    (ready s acc 0x03 = some c → findCmd s (opB c 8 8 64) = none → exec (.retire acc) s = .next (finish s acc stWarn))

/-- PARK_LIMIT_EXPIRY brings the clock to a parked request's limit (R258). STEP_BOUNDARY acts once the last step has completed and no built step waits,
and leaves a built step exactly where some sequence takes a row (R312, R316). STEP_START writes the row table, starts the step's program on its glades
and counts the step (R312, R315, R317). -/
def Obligations.ServingStepResults : Prop :=
  ∀ (s : State) (j : Job), s.job = some j → hubUp s = true → (j.st = 2 ∨ j.st = 7) →
    (∀ acc q, j.st = 2 → j.seqs.find? (fun q => q.acc = acc && q.st = .parked) = some q →
      exec (.parkLimitExpiry acc) s = .next (advanceTo s (q.parkAt.toNat + q.limit.toNat * 1000000))) ∧
    ((j.stepping = true ∨ j.stepReady = true) → exec .stepBoundary s = .next s) ∧
    (j.stepping = false → j.stepReady = false → ∃ t, exec .stepBoundary s = .next t ∧
      ∀ k, t.job = some k → (k.stepReady = true ↔ 0 < (k.seqs.map (·.inStep)).sum)) ∧
    (∀ gs s0 s1 n, gs = gladesIn s j.stepGlades → j.stepReady = true → j.stepping = false → gs ≠ [] → (progOf j j.stepSlot.toNat).size ≠ 0 →
      (∀ g ∈ gs, gladeHeld s g = false ∧ (gladeOf s g).cmd = 0 ∧ halfActs s g = true) → frameWaits s j gs = false →
      domainsReady s gs = true → s0 = advanceTo s (stepTime s j) → n = j.boundary + 1 →
      s1 = hubWrite { s0 with
        job := some { useCopies j n with stepReady := false, stepping := true, boundary := n, stepStart := some s0.hub.time },
        free := s.free + j.seqs.length } j.rowTab.toNat (rowTable s j) tagPublic →
      exec .stepStart s = .next (gladesDone (startGlades (if throttledNow s gs then markThrottled s1 (stepCmds s1) else s1) (progOf j j.stepSlot.toNat) stepAcc j.stepSlot gs []) stepAcc))

/-- UPDATE in MODE 0 waits for the earlier commands on its tensor, ends with the status of a broken record, DEVICE_FAULT of a poisoned step word,
STEP_SKEW of one that does not name the step, DEVICE_FAULT of a damaged counter, or else applies its units in ascending order and reports how many it
applied and skipped (R270, R274, R283, R290). A unit whose counter is STEP + 1 already is left as it is, and one neither STEP nor STEP + 1 behind is a
skew. -/
def Obligations.UpdateResults : Prop :=
  ∀ (acc : BitVec 64) (s : State) (c : Cmd) (j : Job) (h : Hyper) (g : Nat), ready s acc 0x05 = some c → s.job = some j → opN c 0 1 = 0 →
    h = hyperOf c → g = opN c 16 8 →
    (tensorTurn s j c = false → exec (.update acc) s = .next s) ∧
    (tensorTurn s j c = true →
      (∀ e, checkTensor s j (opN c 8 8) g true true none (hyperOk h) = .error e → exec (.update acc) s = .next (stopWith s j acc e)) ∧
      (∀ (r : TRec) (rows : List Nat) (t : Nat) (us : List (Nat × Nat)),
        checkTensor s j (opN c 8 8) g true true none (hyperOk h) = .ok (r, rows, t) → us = numbered (updUnits r rows) →
        (g ≠ 0 → s.poison.contains (lineOf g) = true → exec (.update acc) s = .next (finish s acc stDevice)) ∧
        (g ≠ 0 → s.poison.contains (lineOf g) = false → ¬ (wordPlace s j g = true ∧ leNat (rdBytes s.mem g 8) % 2 ^ 34 = h.step + 2 ^ 32) →
          exec (.update acc) s = .next (finish s acc stStepSkew)) ∧
        ((g = 0 ∨ stepWordStop s j g h.step = none) →
          ((∃ u ∈ us, countersSound s (unitCounters j r u.2) = false) → exec (.update acc) s = .next (finish s acc stDevice)) ∧
          ((∀ u ∈ us, countersSound s (unitCounters j r u.2) = true) →
            ((∃ u ∈ us, unitDo s r h.step (unitCounters j r u.2) = .skew) → exec (.update acc) s = .next (finish s acc stStepSkew)) ∧
            (∀ x : Upd, (∀ u ∈ us, unitDo s r h.step (unitCounters j r u.2) ≠ .skew) →
              x = us.foldl (updateUnit j acc h (sub32 one32 h.b1).v (sub32 one32 h.b2).v (etaT h).v r t)
                { s := raise s acc ((sub32 one32 h.b1).fl ||| (sub32 one32 h.b2).fl ||| (etaT h).fl) 0 } →
              exec (.update acc) s = .next (finishWith x.s acc (if x.err ≠ 0 then x.err else if x.skipped ≠ 0 then stAlready else stOk)
                (natLe (min x.applied (2 ^ 32 - 1)) 4 ++ natLe (min x.skipped (2 ^ 32 - 1)) 4)))))))

/-- UPDATE in MODE 1 and ADAPTER_LOAD check in the order of R245 and R292, then claim the slot; ADAPTER_SWITCH, once every earlier command has completed,
raises GEN, records the new copy, leaves it HOME only and READY, and completes with OK (R247). -/
def Obligations.AdapterLoadResults : Prop :=
  ∀ (acc : BitVec 64) (s : State) (c : Cmd) (j : Job), s.job = some j →
    (∀ ix src home n v t, ready s acc 0x05 = some c → opN c 0 1 = 1 → c.ph = .accepted → ix = opN c 4 2 → switchPending s j ix = false → src = opN c 8 8 → home = opN c 16 8 →
      v = slotOf j ix → t = v.owner.toNat → n = copySize (modelWidth j) v.width.toNat v.blk.toNat v.tcopy →
      ((v.st = .free ∨ v.st = .releasing) → exec (.install acc) s = .next (finish s acc stPolicy)) ∧
      (v.st ≠ .free → v.st ≠ .releasing →
        (isBound j t = false → exec (.install acc) s = .next (finish s acc stRevoked)) ∧
        (isBound j t = true → (coveredBy j (fun g => g.owner = tagTenant t) src n = false ∨ homeOk j t home n = false) →
          exec (.install acc) s = .next (finish s acc stSegment)) ∧
        (isBound j t = true → coveredBy j (fun g => g.owner = tagTenant t) src n = true → homeOk j t home n = true →
          (∀ x ∈ (linesOf src n).filterMap (lineOwner s j), (join x (tagTenant t)).isSome) → (v.gen.toNat + 1 = 2 ^ 32 ∨ evalOpen s j t = true) →
          exec (.install acc) s = .next (finish s acc stPolicy)) ∧
        (∀ b, isBound j t = true → coveredBy j (fun g => g.owner = tagTenant t) src n = true → homeOk j t home n = true →
          (∀ x ∈ (linesOf src n).filterMap (lineOwner s j), (join x (tagTenant t)).isSome) → v.gen.toNat + 1 ≠ 2 ^ 32 → evalOpen s j t = false →
          readFor s j t src n = .ok b →
          exec (.install acc) s = .next (claimSlot (updCmd s acc (fun d => { d with ph := .running })) j t ix v.layer home b)))) ∧
    (∀ ix t n v, ready s acc 0x47 = some c → (opN c 6 1).testBit 1 = false → c.ph = .accepted → ix = opN c 0 2 → t = opN c 2 2 % 4096 → switchPending s j ix = false →
      n = copySize (modelWidth j) (opN c 5 1 % 64) (opN c 5 1 / 64) (decide (opN c 6 1 % 2 = 1)) → v = slotOf j ix →
      (isBound j t = false → exec (.adapterLoad acc) s = .next (finish s acc stRevoked)) ∧
      (∀ e, isBound j t = true → readWrapped s j (uploadKey s 0 t) 1 t (opN c 8 8) (opN c 16 8) = .error e → exec (.adapterLoad acc) s = .next (finish s acc e)) ∧
      (∀ b, isBound j t = true → readWrapped s j (uploadKey s 0 t) 1 t (opN c 8 8) (opN c 16 8) = .ok b →
        (v.st ≠ .free → v.owner.toNat ≠ t → exec (.adapterLoad acc) s = .next (finish s acc stSlotOwned)) ∧
        ((v.st = .free ∨ v.owner.toNat = t) →
          ((widthOk (opN c 5 1 % 64) = false ∨ claimFits j t ix (opN c 4 1) = false ∨ v.gen.toNat + 1 = 2 ^ 32) → exec (.adapterLoad acc) s = .next (finish s acc stPolicy)) ∧
          (widthOk (opN c 5 1 % 64) = true → claimFits j t ix (opN c 4 1) = true → v.gen.toNat + 1 ≠ 2 ^ 32 →
            (homeOk j t (opN c 24 8) n = false → exec (.adapterLoad acc) s = .next (finish s acc stSegment)) ∧
            (homeOk j t (opN c 24 8) n = true → b.length ≠ n → exec (.adapterLoad acc) s = .next (finish s acc stPolicy)) ∧
            (homeOk j t (opN c 24 8) n = true → b.length = n →
              exec (.adapterLoad acc) s = .next (claimSlot (updCmd s acc (fun d => { d with ph := .running })) j t ix (opB c 4 1 8) (opN c 24 8) b)))))) ∧
    (∀ ix v, ready s acc 0x47 = some c → (opN c 6 1).testBit 1 = false → c.ph = .running → earlierAll s acc j = true → ix = opN c 0 2 → v = slotOf j ix →
      ∃ t k u, exec (.adapterSwitch acc) s = .next (finish t acc stOk) ∧ t.job = some k ∧ u = slotOf k ix ∧ u.gen = v.gen + 1 ∧
        u.home = BitVec.ofNat 48 (opN c 24 8) ∧ u.layer = opB c 4 1 8 ∧ u.digest = Config.sha256 v.staged ∧ u.copy = [] ∧ u.owner = v.owner ∧
        (v.res ≠ .fetching → u.res = .home) ∧ (v.st ≠ .releasing → (tenOf j v.owner.toNat).st ≠ .revoking → u.st = .ready) ∧ ∀ i, i ≠ ix → slotOf k i = slotOf j i) ∧
    (ready s acc 0x05 = some c → opN c 0 1 = 1 → c.ph = .running → earlierAll s acc j = true →
      exec (.adapterSwitch acc) s = .next (finish (switchSlot s j (opN c 4 2) (opN c 16 8) id) acc stOk))

/-- ADAPTER_LOAD with RELEASE proves its claim, then the slot is RELEASING (R245, R248). SLOT_RELEASE_DONE frees it once USE is 0 and every earlier
command has completed: GEN rises by 1 and every copy is dropped (R248). -/
def Obligations.SlotReleaseResults : Prop :=
  ∀ (acc : BitVec 64) (s : State) (c : Cmd) (j : Job), s.job = some j →
    (∀ ix t v, ready s acc 0x47 = some c → (opN c 6 1).testBit 1 = true → c.ph = .accepted → ix = opN c 0 2 → t = opN c 2 2 % 4096 → v = slotOf j ix → switchPending s j ix = false →
      (isBound j t = false → exec (.adapterRelease acc) s = .next (finish s acc stRevoked)) ∧
      (∀ e, isBound j t = true → readWrapped s j (uploadKey s 0 t) 1 t (opN c 8 8) (opN c 16 8) = .error e → exec (.adapterRelease acc) s = .next (finish s acc e)) ∧
      (∀ b, isBound j t = true → readWrapped s j (uploadKey s 0 t) 1 t (opN c 8 8) (opN c 16 8) = .ok b →
        (v.st = .free → exec (.adapterRelease acc) s = .next (finish s acc stWarn)) ∧
        (v.st ≠ .free → v.owner.toNat ≠ t → exec (.adapterRelease acc) s = .next (finish s acc stSlotOwned)) ∧
        (v.st ≠ .free → v.owner.toNat = t → exec (.adapterRelease acc) s = .next
          (updCmd { s with job := some (setSlot j ix { v with st := .releasing, relAcc := acc }) } acc (fun d => { d with ph := .running }))))) ∧
    (∀ (ix : Fin 65536) v, v = slotOf j ix.val → hubUp s = true → v.st = .releasing →
      ((v.use ≠ 0 ∨ earlierAll s v.relAcc j = false) → exec (.slotReleaseDone ix) s = .next s) ∧
      (v.use = 0 → earlierAll s v.relAcc j = true → ∃ t k u, exec (.slotReleaseDone ix) s = .next t ∧ t.job = some k ∧ u = slotOf k ix.val ∧
        u.st = .free ∧ u.gen = satAdd v.gen 1 ∧ u.copy = [] ∧ u.res = .home ∧ (∀ i, i ≠ ix.val → slotOf k i = slotOf j i) ∧
        (∀ d ∈ s.cmds, d.acc = v.relAcc → opcOf d = 0x47 → d.ph = .running → findCmd s v.relAcc = some d →
          findCmd t v.relAcc = some { d with ph := .done, status := finalStatus d stOk })))

/-- ADAPTER_PREFETCH refuses a tenant that is not served, waits for an earlier one that names its slots, is POLICY where the copies can not fit, and
OK_WARN where its one slot is not the tenant's; ADAPTER_EVICT clears PIN and takes each named copy down (R254, R264). ADAPTER_FETCH_DONE restarts a
fill whose generation rose, fetches a failed one once more and then fails it, and else makes the copy CACHED or HOT (R255). -/
def Obligations.ResidencyResults : Prop :=
  ∀ (acc : BitVec 64) (s : State) (c : Cmd) (j : Job), s.job = some j →
    (∀ hot l, ready s acc 0x07 = some c → hot = (opN c 4 1).testBit 2 → l = namedSlots j c →
      (c.ph = .accepted → tenantServes j (opN c 2 2 % 4096) acc = false → exec (.adapterPrefetch acc) s = .next (finish s acc stRevoked)) ∧
      (c.ph = .accepted → tenantServes j (opN c 2 2 % 4096) acc = true →
        (residencyTurn s j c = false → exec (.adapterPrefetch acc) s = .next s) ∧
        (residencyTurn s j c = true → prefetchFits j (opN c 2 2 % 4096) l hot = false → exec (.adapterPrefetch acc) s = .next (finish s acc stPolicy)) ∧
        (residencyTurn s j c = true → prefetchFits j (opN c 2 2 % 4096) l hot = true → l = [] →
          exec (.adapterPrefetch acc) s = .next (finish (updCmd { s with job := some (pumpFetch j) } acc
            (fun d => { d with ph := .running, warn := !(opN c 4 1).testBit 0, glades := [] })) acc stOk)) ∧
        (∀ i v k u x, residencyTurn s j c = true → l = [i] → prefetchFits j (opN c 2 2 % 4096) l hot = true → v = slotOf j i →
          k = setSlot j i { v with
            want := (if hot then .hot else if v.res = .hot then .hot else .cached),
            pin := if (opN c 4 1).testBit 1 then (if hot then 2 else 1) else v.pin } →
          u = pumpFetch (if hot then makeHot j.slots.length k i else k) →
          x = updCmd { s with job := some u } acc (fun d => { d with ph := .running, warn := false, glades := [] }) →
          exec (.adapterPrefetch acc) s = .next (if (slotOf u i).res = .hot ∨ (hot = false ∧ (slotOf u i).res = .cached) then finish x acc stOk else x))) ∧
      (∀ i v k u, c.ph = .running → l = [i] → v = slotOf j i →
        k = (if v.res = .home ∧ v.want = .home then setSlot j i { v with want := if hot then .hot else .cached } else j) →
        u = pumpFetch (if hot then makeHot k.slots.length k i else k) →
        exec (.adapterPrefetch acc) s = .next (if (slotOf u i).res = .hot ∨ (hot = false ∧ (slotOf u i).res = .cached) then
          finish { s with job := some u } acc stOk else { s with job := some u }))) ∧
    (∀ i v, ready s acc 0x08 = some c → namedSlots j c = [i] → v = slotOf j i →
      (c.ph = .accepted → tenantServes j (opN c 2 2 % 4096) acc = false → exec (.adapterEvict acc) s = .next (finish s acc stRevoked)) ∧
      (∀ k, ((c.ph = .accepted ∧ tenantServes j (opN c 2 2 % 4096) acc = true ∧ residencyTurn s j c = true) ∨ c.ph = .running) →
        k = (if (opN c 4 1).testBit 2 then (if v.res = .hot then setSlot j i { v with pin := 0, res := .cached, want := .cached } else setSlot j i { v with pin := 0 })
             else if v.use = 0 then evictSlot (setSlot j i { v with pin := 0 }) i else setSlot j i { v with pin := 0 }) →
        exec (.adapterEvict acc) s = .next (if (if (opN c 4 1).testBit 2 then (slotOf (k) i).res ≠ .hot else (slotOf (k) i).res = .home) then
          finish (updCmd { s with job := some (pumpFetch k) } acc (fun d => { d with ph := .running, warn := false })) acc stOk
          else updCmd { s with job := some (pumpFetch k) } acc (fun d => { d with ph := .running, warn := false })))) ∧
    (∀ (ix : Fin 65536) v, hubUp s = true → (j.st = 2 ∨ j.st = 7) → v = slotOf j ix.val → v.res = .fetching →
      (v.fillGen ≠ v.gen → exec (.adapterFetchDone ix) s = .next { s with job := some (setSlot j ix.val { v with fillGen := v.gen, refetch := false }) }) ∧
      (v.fillGen = v.gen → readHome s j v = none → v.refetch = false →
        exec (.adapterFetchDone ix) s = .next { s with job := some (setSlot j ix.val { v with refetch := true }) }) ∧
      (v.fillGen = v.gen → readHome s j v = none → v.refetch = true → exec (.adapterFetchDone ix) s = .next (fillFails s j ix.val)) ∧
      (∀ b k, v.fillGen = v.gen → readHome s j v = some b →
        k = setSlot j ix.val { v with res := .cached, copy := memOf b, copySeal := some (homeSeal j v.owner.toNat v.gen), refetch := false } →
        exec (.adapterFetchDone ix) s = .next { s with job := some (pumpFetch (if v.want = .hot then makeHot j.slots.length k ix.val else k)) }))

/-- CHECKPOINT_OUT ends POLICY for a buffer that is too short, with the length it needs, EGRESS without a key or the permission, and else writes one
wrapped image and counts it; CHECKPOINT_IN restores the listed tensors from an image that fits them (R295 to R299). -/
def Obligations.CheckpointResults : Prop :=
  ∀ (acc : BitVec 64) (s : State) (c : Cmd) (j : Job) (t : Nat) (ten : Tenant), s.job = some j → t = opN c 0 2 % 4096 → ten = tenOf j t →
    (∀ o : Byte, o = 0x09 ∨ o = 0x0A → ready s acc o = some c → (tensorTurn s j c = false →
        exec (if o = 0x09 then .checkpointOut acc else .checkpointIn acc) s = .next s) ∧
      (tensorTurn s j c = true → isBound j t = false → exec (if o = 0x09 then .checkpointOut acc else .checkpointIn acc) s = .next (finish s acc stRevoked))) ∧
    (ready s acc 0x09 = some c → tensorTurn s j c = true → isBound j t = true →
      ((opN c 2 2 = 0 ∨ 1024 < opN c 2 2) → exec (.checkpointOut acc) s = .next (finish s acc stPolicy)) ∧
      (∀ rs need, 0 < opN c 2 2 → opN c 2 2 ≤ 1024 → ckptCheck s j c t false = .ok rs → need = 80 + (placeAll rs).2 →
        ((ten.ckpt = none ∨ policyCkpt ten = false) → exec (.checkpointOut acc) s = .next (finish s acc stEgress)) ∧
        (∀ key, ten.ckpt = some key → policyCkpt ten = true →
          (opN c 24 8 < need → exec (.checkpointOut acc) s = .next (finishWith s acc stPolicy (natLe need 8))) ∧
          (∀ pt iv s1, need ≤ opN c 24 8 →
            (∀ l ∈ linesOf (opN c 16 8) need, ∀ g, segAt j (max l (opN c 16 8)) = some g → g.owner = tagPublic) →
            ckptPlain s j t (opB c 32 8 64) rs = .ok pt → iv = nextIv ten.ckptIv ten.ckptCnt →
            devWrite s j false (opN c 16 8) (wrapObject key (wrapHeader 4 0 iv pt.length 0 0 0) iv pt) tagPublic = .ok s1 →
            exec (.checkpointOut acc) s = .next (finishWith { s1 with
              job := s1.job.map (fun k => setTen k t { ten with ckptCnt := ten.ckptCnt + 1 }) } acc stOk (natLe need 8)))))) ∧
    (ready s acc 0x0A = some c → tensorTurn s j c = true → isBound j t = true →
      (∀ e, readWrapped s j (ten.ckpt.map (fun k => (k, 0))) 4 0 (opN c 16 8) (opN c 24 8) = .error e →
        exec (.checkpointIn acc) s = .next (finish s acc e)) ∧
      (∀ b, readWrapped s j (ten.ckpt.map (fun k => (k, 0))) 4 0 (opN c 16 8) (opN c 24 8) = .ok b → 0 < opN c 2 2 → opN c 2 2 ≤ 1024 →
        (ckptMatches j t (opN c 2 2) b (ckptNamed s j c) = false → exec (.checkpointIn acc) s = .next (finish s acc stPolicy)) ∧
        (∀ e, ckptMatches j t (opN c 2 2) b (ckptNamed s j c) = true → ckptCheck s j c t true = .error e →
          exec (.checkpointIn acc) s = .next (stopWith s j acc e)) ∧
        (∀ rs, ckptMatches j t (opN c 2 2) b (ckptNamed s j c) = true → ckptCheck s j c t true = .ok rs →
          exec (.checkpointIn acc) s = .next (finish (restoreAll s j t b rs) acc stOk))))

/-- SEG_SET waits for the job's earlier commands and for incoming transfers on the range, refuses what R202 forbids and replaces exactly one entry (R202,
R207, R359). PROG_LOAD checks the image, waits until no running command uses the slot and measures it (R121 to R123). -/
def Obligations.SegmentProgramResults : Prop :=
  ∀ (acc : BitVec 64) (s : State) (c : Cmd) (j : Job), s.job = some j →
    (∀ ix g o, ready s acc 0x44 = some c → ix = opN c 0 2 → g = entryOf c → o = segOf j ix →
      ((4096 ≤ ix ∨ 0x1003 ≤ g.owner.toNat) → exec (.segSet acc) s = .next (finish s acc stPolicy)) ∧
      (ix < 4096 → g.owner.toNat < 0x1003 →
        ((earlierDone s acc j.id = false ∨ (o.valid = true ∧ incomingOn s j o.base.toNat o.len.toNat = true) ∨
          (g.valid = true ∧ incomingOn s j g.base.toNat g.len.toNat = true)) → exec (.segSet acc) s = .next s) ∧
        (earlierDone s acc j.id = true → (o.valid = false ∨ incomingOn s j o.base.toNat o.len.toNat = false) →
          (g.valid = false ∨ incomingOn s j g.base.toNat g.len.toNat = false) →
          (g.valid = true → segOk s j ix g = false → exec (.segSet acc) s = .next (finish s acc stPolicy)) ∧
          ((g.valid = false ∨ segOk s j ix g = true) → ∃ t k, exec (.segSet acc) s = .next (finish t acc stOk) ∧ t.job = some k ∧
            segOf k ix = (if g.valid then g else {}) ∧ (∀ i, i ≠ ix → segOf k i = segOf j i) ∧ k.progs = j.progs ∧ k.tenants = j.tenants ∧ k.slots = j.slots)))) ∧
    (∀ slot n, ready s acc 0x45 = some c → slot = opB c 0 1 8 → n = opN c 16 8 →
      ((n < 256 ∨ 2 ^ 24 < n ∨ n % 256 ≠ 0) → exec (.progLoad acc) s = .next (finish s acc stProgram)) ∧
      (256 ≤ n → n ≤ 2 ^ 24 → n % 256 = 0 →
        (∀ e, readPublic s j (opN c 8 8) n = .error e → exec (.progLoad acc) s = .next (finish s acc e)) ∧
        (∀ b, readPublic s j (opN c 8 8) n = .ok b →
          (imageOk b n = false → exec (.progLoad acc) s = .next (finish s acc stProgram)) ∧
          (imageOk b n = true → progUsed s j slot = true → exec (.progLoad acc) s = .next s) ∧
          (imageOk b n = true → progUsed s j slot = false → ∃ k, exec (.progLoad acc) s = .next (finish { s with job := some k } acc stOk) ∧
            progOf k slot.toNat = { image := memOf b, size := n, digest := Config.sha256 b } ∧ (∀ i, i ≠ slot.toNat → progOf k i = progOf j i) ∧
            k.segs = j.segs))))

/-- BASE_LOAD is POLICY for a tag that is loaded, ends with the status of an upload that can not be unwrapped, and else loads it: the tag's generation
number rises by 1 and it is CURRENT, the other OLD (R260, R261, R391). BASE_LOAD with its retire flag waits for every earlier command and clears the
tag's copy, key and digest (R262). -/
def Obligations.BaseResults : Prop :=
  ∀ (acc : BitVec 64) (s : State) (c : Cmd) (j : Job) (k : Nat), s.job = some j → ready s acc 0x46 = some c → k = opN c 0 1 →
    (opN c 1 1 % 2 = 0 →
      ((baseOf j k).loaded = true → exec (.baseLoad acc) s = .next (finish s acc stPolicy)) ∧
      ((baseOf j k).loaded = false →
        (∀ e, readWrapped s j (uploadKey s (k + 1) 0) 2 0 (opN c 8 8) (opN c 16 8) = .error e → exec (.baseLoad acc) s = .next (finish s acc e)) ∧
        (∀ b nt tr nl, readWrapped s j (uploadKey s (k + 1) 0) 2 0 (opN c 8 8) (opN c 16 8) = .ok b → nt = opN c 24 8 → tr = opN c 32 8 → nl = opN c 40 8 →
          (baseDir (b.take nl) = none → exec (.baseLoad acc) s = .next (finish s acc stPolicy)) ∧
          (∀ tbl, baseDir (b.take nl) = some tbl → (b.length ≠ 2 * nl ∨ copyPlace j (tagBase k) nt nl = false ∨ copyPlace j (tagBase k) tr nl = false) →
            exec (.baseLoad acc) s = .next (finish s acc stPolicy)) ∧
          (∀ tbl, baseDir (b.take nl) = some tbl → b.length = 2 * nl → copyPlace j (tagBase k) nt nl = true → copyPlace j (tagBase k) tr nl = true →
            ((∃ l ∈ linesOf nt nl ++ linesOf tr nl, onFenced s l = true) → exec (.baseLoad acc) s = .next (finish s acc stDevice)) ∧
            ((∀ l ∈ linesOf nt nl ++ linesOf tr nl, onFenced s l = false) → k ≤ 1 →
            ∃ t q, exec (.baseLoad acc) s = .next (finish t acc stOk) ∧ t.job = some q ∧ (baseOf q k).num = (baseOf j k).num + 1 ∧
              (baseOf q k).loaded = true ∧ (baseOf q k).current = true ∧ (baseOf q k).table = tbl ∧ (baseOf q k).digest = Config.sha256 b ∧
              baseOf q (1 - k) = { baseOf j (1 - k) with current := false }))))) ∧
    (opN c 1 1 % 2 = 1 →
      (earlierDone s acc j.id = false → exec (.baseRetire acc) s = .next s) ∧
      (earlierDone s acc j.id = true → k ≤ 1 → ∃ t q, exec (.baseRetire acc) s = .next (finish t acc stOk) ∧ t.job = some q ∧
        baseOf q k = { num := (baseOf j k).num } ∧ baseOf q (1 - k) = baseOf j (1 - k)))

/-- SLOT_BIND installs the default policy and a new binding only on a FREE slot, changes the cap of the same tenant's, and is SLOT_OWNED otherwise (R238,
R451). SLOT_REVOKE starts the revocation of a BOUND slot; TENANT_SLOT_FREE ends it (R239). DOMAIN_SET gives a domain what it describes where R208
allows it. -/
def Obligations.TenantDomainResults : Prop :=
  ∀ (acc : BitVec 64) (s : State) (c : Cmd) (j : Job), s.job = some j →
    (∀ t d dig o, ready s acc 0x48 = some c → t = opN c 0 2 → d = opN c 2 1 → dig = opB c 8 32 256 → o = tenOf j t →
      ((4096 ≤ t ∨ 8 ≤ d ∨ (domOf j d).valid = false) → exec (.slotBind acc) s = .next (finish s acc stPolicy)) ∧
      (t < 4096 → d < 8 → (domOf j d).valid = true →
        (o.st = .free → ∃ k, exec (.slotBind acc) s = .next (finish { s with job := some k } acc stOk) ∧
          tenOf k t = { st := .bound, digest := dig, dom := BitVec.ofNat 3 d, resCap := opB c 4 2 16, policy := defaultPolicy } ∧
          ∀ u, u ≠ t → tenOf k u = tenOf j u) ∧
        (o.st = .bound → o.digest = dig → ∃ k, exec (.slotBind acc) s = .next (finish { s with job := some k } acc stOk) ∧
          tenOf k t = { o with resCap := opB c 4 2 16 } ∧ ∀ u, u ≠ t → tenOf k u = tenOf j u) ∧
        ((o.st = .revoking ∨ (o.st = .bound ∧ o.digest ≠ dig)) → exec (.slotBind acc) s = .next (finish s acc stSlotOwned)))) ∧
    (∀ t, ready s acc 0x49 = some c → t = opN c 0 2 →
      ((4096 ≤ t ∨ isBound j t = false) → exec (.slotRevoke acc) s = .next (finish s acc stPolicy)) ∧
      (t < 4096 → isBound j t = true → ∃ u k, exec (.slotRevoke acc) s = .next (finish u acc stOk) ∧ u.job = some k ∧
        tenOf k t = { tenOf j t with st := .revoking, revAcc := acc, policy := [], ckpt := none, ckptIv := [], ckptCnt := 0 } ∧
        (∀ x, x ≠ t → tenOf k x = tenOf j x) ∧ (∀ q ∈ k.seqs, q.tenant = t → q.ended = some stRevoked))) ∧
    (∀ t : Fin 4096, (tenOf j t.val).st = .revoking → hubUp s = true → slotsOwned j t.val = [] → (∀ q ∈ j.seqs, q.tenant ≠ t.val) →
      (∀ d ∈ s.cmds, tenantCmd s j t.val d = false) → exec (.tenantSlotFree t) s = .next { s with job := some (setTen j t.val {}) }) ∧
    (∀ d v, ready s acc 0x4B = some c → d = opN c 0 1 → v = domainOf c →
      (domainOk s j d v = false → exec (.domainSet acc) s = .next (finish s acc stPolicy)) ∧
      (domainOk s j d v = true → ∃ k, exec (.domainSet acc) s = .next (finish { s with job := some k, domShow := tset {} s.domShow d v } acc stOk) ∧
        domOf k d = { v with free := poolPages j v - pagesHeld j d } ∧ ∀ x, x ≠ d → domOf k x = domOf j x))

/-- JOB_OPEN is POLICY where R303 refuses the block, else the job is OPEN with the block's parameters, the command epoch rises by 1, the exception log and
the job's counters start at 0 (R302, R303). JOB_CLOSE with ABORT 0 stops the fetching and disables every stream, then waits for every command of the
job; with ABORT 1 every command left completes ABORTED; both zero the stores and release the job, and a JOB_ID of no job is POLICY (R306). -/
def Obligations.JobOpenCloseResults : Prop :=
  ∀ (acc : BitVec 64) (s : State) (c : Cmd),
    (∀ b j s1, ready s acc 0x40 = some c → b = rdBytes s.host (opN c 0 8) 256 →
      ((opN c 0 8 % 256 ≠ 0 ∨ openOk s b = false) → exec (.jobOpen acc) s = .next (finish s acc stPolicy)) ∧
      (opN c 0 8 % 256 = 0 → openOk s b = true → j = jobOfBlock b s.hub.egr (nextRandom s) → s1 = zeroStores (drawRandom (clearArea s 0)) →
        ∃ t, exec (.jobOpen acc) s = .next (finish t acc stOk) ∧
          t.job = some { j with baseA := { j.baseA with owner := s.rgr.ownA }, baseB := { j.baseB with owner := s.rgr.ownB } } ∧ j.st = 2 ∧ j.id = fieldBv b 0 4 32 ∧ j.rings = fieldBv b 80 32 256 ∧
          t.epoch = s1.epoch + 1 ∧ t.hub.exc = [] ∧ t.hub.frozenDrop = 0 ∧ t.hub.parkTimeouts = 0 ∧ t.hub.parkFull = 0 ∧ t.mem = s1.mem ∧ t.glades = [] ∧ t.domShow = j.doms)) ∧
    (∀ id : BitVec 32, ready s acc 0x41 = some c → id = opB c 0 4 32 →
      (∀ a : Bool, opN c 4 1 = (if a then 1 else 0) → (∀ j, s.job = some j → j.id ≠ id) →
        exec (if a then .jobCloseAbort acc else .jobClose acc) s = .next (if s.saved.any (fun v => v.job.id = id) then
          finish (sendBindings (raiseEpoch (dropSaved s id stAborted))) acc stOk else finish s acc stPolicy)) ∧
      (∀ j, s.job = some j → j.id = id →
        (opN c 4 1 = 1 → exec (.jobCloseAbort acc) s = .next (finish (releaseJob (finishAll s id stAborted)) acc stOk)) ∧
        (opN c 4 1 = 0 → j.st = 7 → (∀ d ∈ s.cmds, d.ring ≠ 0 → d.job = id → d.ph = .done) →
          exec (.jobClose acc) s = .next (finish (releaseJob s) acc stOk)) ∧
        (opN c 4 1 = 0 → j.st = 7 → (∃ d ∈ s.cmds, d.ring ≠ 0 ∧ d.job = id ∧ d.ph ≠ .done) → exec (.jobClose acc) s = .next s) ∧
        (opN c 4 1 = 0 → j.st ≠ 7 → ∃ t k, exec (.jobClose acc) s = .next (updCmd t acc (fun d => { d with ph := .running })) ∧ t.job = some k ∧
          k.st = 7 ∧ ∀ e ∈ k.streams, e.2.enabled = false)))

/-- JOB_PREEMPT is POLICY where R326 refuses it, else stops the job's glades, raises the epoch, and PREEMPT_DRAIN_END and PREEMPT_SAVE_DONE take it
through DRAINING and SAVING to SAVED, with the stores kept in the image (R326 to R330). JOB_RESUME is POLICY where a job is current or the named one
is not saved; else the job is RESTORING with its saved glades, memory and registers, and RESTORE_DONE opens it again (R331). -/
def Obligations.JobPreemptResumeResults : Prop :=
  ∀ (acc : BitVec 64) (s : State) (c : Cmd),
    (ready s acc 0x42 = some c → c.ph = .accepted →
      ((s.job = none ∨ ∃ j, s.job = some j ∧ (j.id ≠ opB c 0 4 32 ∨ j.st ≠ 2 ∨ j.preempt = false ∨ 4 ≤ s.saved.length)) →
        exec (.jobPreempt acc) s = .next (finish s acc stPolicy)) ∧
      (∀ j, s.job = some j → j.id = opB c 0 4 32 → j.st = 2 → j.preempt = true → s.saved.length < 4 → exec (.jobPreempt acc) s = .next (raiseEpoch
        (stopGlades (updCmd { s with job := some { j with st := 3 } } acc (fun d => { d with ph := .running, started := s.hub.time })) (fun _ => true))))) ∧
    (∀ j, s.job = some j → runningCtl s 0x42 = some c → hubUp s = true →
      (j.st = 3 → gladesAtRest s = false → exec .preemptDrainEnd s = .next s) ∧
      (j.st = 3 → gladesAtRest s = true → (∀ x ∈ s.fab.xfers, x.st ≠ .sent ∧ x.st ≠ .queried ∧ x.st ≠ .preempted) →
        exec .preemptDrainEnd s = .next { s with job := some { j with st := 4 } }) ∧
      (j.st = 3 → gladesAtRest s = true → ∀ l u, l = s.fab.xfers.filter (fun x => x.st = .sent || x.st = .queried || x.st = .preempted) → l ≠ [] →
        u = l.foldl cancelXfer (advanceTo s (max c.started.toNat j.restAt.toNat + j.drainUs * 1000)) →
        exec .preemptDrainEnd s = .next { u with job := u.job.map (fun k => { k with st := 4 }) }) ∧
      (j.st = 4 → ∃ t v, exec .preemptSaveDone s = .next (finish t c.acc stOk) ∧ t.job = none ∧ t.saved = s.saved ++ [v] ∧ v.glades = s.glades ∧
        v.job = { j with st := 5, saveCount := j.saveCount + 1 } ∧ v.tags = s.tags ∧ v.xfers = s.fab.xfers ∧ v.exc = s.hub.exc ∧ v.sess = s.rgr.sessions ∧
        v.mem = s.mem.filter (fun x => isCanopy x.1 || windowCached s (lineOf x.1)) ∧ v.ccache = s.ccache ∧ v.inArea = decide (s.fences.chan = 0) ∧ t.fab.xfers = [] ∧ t.rgr.sessions = [])) ∧
    (ready s acc 0x43 = some c → c.ph = .accepted →
      ((s.job.isSome ∨ s.saved.find? (fun v => v.job.id = opB c 0 4 32) = none) → exec (.jobResume acc) s = .next (finish s acc stPolicy)) ∧
      (∀ v, s.job = none → s.saved.find? (fun v => v.job.id = opB c 0 4 32) = some v → (∀ d < 4, s.rst.held.getLsbD (16 + d) = false) →
        (v.inArea = true → v.lost = true → exec (.jobResume acc) s = .next (finish (raiseEpoch (dropSaved s v.job.id stDevice)) acc stDevice)) ∧
        (∀ u, (v.inArea = false ∨ v.lost = false) →
          u = updCmd (raiseEpoch (restoreJob (clearArea s v.job.id) v)) acc (fun d => { d with ph := .running, started := s.hub.time }) →
          (imageHurt s v = false → exec (.jobResume acc) s = .next u) ∧
          (imageHurt s v = true → exec (.jobResume acc) s = .next u ∨
            exec (.jobResume acc) s = .next (finish { s with free := s.free + 1 } acc stIntegrity))))) ∧
    (∀ j s1 s2, s.job = some j → runningCtl s 0x43 = some c → hubUp s = true → j.st = 6 →
      s1 = shiftTimes { s with job := some { j with st := 2 } } (s.hub.time - c.started) →
      s2 = failFenced (restartGlades (reissue s1) (halfActs s1)) →
      exec .restoreDone s = .next (finish (sendBindings { s2 with
        rings := s2.rings.foldl (fun t e => tset {} t e.1 (drainedIn s2 e.1 e.2)) [] }) c.acc stOk))

/-- A cell a device receives: ignored while its port is not up, asked for again out of order, discarded unread when idle, counted as misrouted when it is
for another device, and counted as an authentication failure when its pair is not up, its tag does not verify, its key is gone or its PCTR is not
above the last (R341, R344, R345, R349). -/
def Obligations.CellAcceptanceResults : Prop :=
  ∀ (i : Instr) (k : Fin 32) (h : CellHdr) (s : State) (p : Port), cellHead i = some (k, h) → cellRoom s i = true → p = portOf s k.val →
    ((hubUp s = false ∨ p.st ≠ 3) → exec i s = .next s) ∧
    (hubUp s = true → p.st = 3 →
      (h.lseq ≠ p.rxNext → exec i s = .next (setPort s k.val { p with rxLost := true, nak := true })) ∧
      (h.lseq = p.rxNext → h.dst = 0 → h.vc = 0 → cellZero i = true →
        exec i s = .next (setPort s k.val { p with rxNext := p.rxNext + 1, rxLost := false, nak := false })) ∧
      (∀ u r, h.lseq = p.rxNext → u = cellIn s k h → r = portOf u k.val →
        (¬ (h.dst = 0 ∧ h.vc = 0 ∧ cellZero i = true) →
          ((h.dst ≠ s.hub.fabAddr ∨ s.hub.fabSet = false) → exec i s = .next (setPort u k.val { r with misrout := satAdd r.misrout 1 })) ∧
          (h.dst = s.hub.fabAddr → s.hub.fabSet = true →
            (pairOf s h.src = none → exec i s = .next (setPort u k.val { r with authFail := satAdd r.authFail 1 })) ∧
            (∀ q, pairOf s h.src = some q → (q.up = false ∨ h.auth = false ∨ cellEpoch q h.ep = none ∨
                h.pctr.toNat ≤ (tget 0 q.rx (rxKey h.ep k.val h.vc.toNat)).toNat) →
              exec i s = .next (setPort u k.val { r with authFail := satAdd r.authFail 1 }))))))

/-- The target's side of a transfer: a head opens a record or is refused (R358, R363, R368), a read request is answered with the range's data (R359), and
a data cell in order is applied and completes the transfer at the last one, answers the position after a gap, and is discarded below it (R364, R366). -/
def Obligations.TargetCellResults : Prop :=
  ∀ (k : Fin 32) (h : CellHdr) (z : Bool) (s u : State) (p : Pair), CellTaken s k h z u p →
    (∀ d : Head, z = false → h.vc = 2 → h.kind = 0 → d.kind ≠ 1 → d.start = 1 → d.oldValid = false →
      (∀ r, recOf u h.src h.tag = some r → r.st = .opened → r.head = d →
        exec (.headCellReceive k h d) s = .next (setRec u h.src h.tag (some { r with time := u.hub.time }))) ∧
      (recOf u h.src h.tag = none →
        (headCheck u d false = .preempted → exec (.headCellReceive k h d) s = .next (answer u k.val 1 h 0 (.preempted 0))) ∧
        (∀ st, headCheck u d false = .refuse st → exec (.headCellReceive k h d) s = .next (refuse u k.val h st 0)) ∧
        (headCheck u d false = .ok → exec (.headCellReceive k h d) s = .next (openRec (stepWordUpdate u d) h d false false)) ∧
        (headCheck u d false = .dropped → exec (.headCellReceive k h d) s = .next
          (openRec { u with hub := { u.hub with frozenDrop := satAdd u.hub.frozenDrop 1 } } h d true (jobOf u).strict)))) ∧
    (∀ d : Head, z = false → h.vc = 0 → h.kind = 0 → d.kind = 1 →
      (∀ st, headCheck u d false = .refuse st → exec (.readRequestReceive k h d) s = .next (refuse u k.val h st (d.start - 1))) ∧
      (∀ b t, headCheck u d false = .ok → devRead u (jobOf u) d.raddr.toNat d.len.toNat = .ok (b, t) →
        (baseAllowed u p t = false → exec (.readRequestReceive k h d) s = .next (refuse u k.val h stEgress (d.start - 1))) ∧
        (baseAllowed u p t = true → d.start = 1 → exec (.readRequestReceive k h d) s = .next
          (sendCells u k.val ((List.range (cellCount d.len.toNat)).map (fun i =>
            mkCell 1 h.src h.tag (BitVec.ofNat 19 (1 + i)) (.readData t (tagDigest (jobOf u) t) (padTo ((b.drop (i * 480)).take 480) 480)))))))) ∧
    (∀ (b : Bytes) (r : InRec) (v : State), z = b.all (fun x => x = 0) → h.vc = 2 → h.kind = 1 → (h.src, h.tag) ∉ u.fab.dead →
      recOf s h.src h.tag = some r → r.st = .opened → cellWaits s h = false → jobStopped u r.head.jobId = false →
      v = takeCredit u (cellDie u (cellAddr r h)) 3 →
      (h.cidx.toNat ≤ r.last.toNat → exec (.dataCellReceive k h b) s = .next (setRec u h.src h.tag (some { r with time := u.hub.time }))) ∧
      (r.last.toNat + 1 < h.cidx.toNat → r.lost = false → exec (.dataCellReceive k h b) s = .next
        (answer (setRec u h.src h.tag (some { r with time := u.hub.time, lost := true })) k.val 1 h 0 (.position r.last))) ∧
      (∀ x : CellRes, h.cidx.toNat = r.last.toNat + 1 →
        x = (if r.frozen then { s := v } else
          applyCell v (jobOf v) r.head h.src ((h.cidx.toNat - 1) * 480) (b.take (r.head.len.toNat - (h.cidx.toNat - 1) * 480))) →
        (x.err ≠ 0 → exec (.dataCellReceive k h b) s = .next (refuse (setRec x.s h.src h.tag (some { r with st := .closed })) k.val h x.err r.last)) ∧
        (x.err = 0 → h.cidx.toNat < cellCount r.head.len.toNat → exec (.dataCellReceive k h b) s = .next
            (setRec x.s h.src h.tag (some { r with last := h.cidx, lost := false, time := v.hub.time }))) ∧
        (x.err = 0 → cellCount r.head.len.toNat ≤ h.cidx.toNat → exec (.dataCellReceive k h b) s = .next
            (answer (setRec (arriveCount x.s r.head.rcnt.toNat) h.src h.tag
              (some { r with last := h.cidx, lost := false, time := v.hub.time, st := .complete })) k.val 1 h 0 (.completion r.frozen r.strict)))))

/-- The sender's side of a transfer: read data in order is written at LADDR and completes the transfer at its last cell (R359, R364), a completion
completes a write or reduce, a refusal fails it with its status or makes it go on (R365, R366), and a preempted answer or a position says where to
resume (R367, R368). A position query is answered with the last cell applied (R329, R367). -/
def Obligations.SenderCellResults : Prop :=
  ∀ (k : Fin 32) (h : CellHdr) (z : Bool) (s u : State) (p : Pair), CellTaken s k h z u p →
    (∀ x, ourXfer u h = some x → h.vc = 1 → h.kind = 2 →
      (∀ ds st, z = false → xKind x ≠ 1 → hearsAnswers u = true → exec (.completionResponse k h ds st) s = .next (completeXfer u x ds st)) ∧
      (∀ (st : Byte) last, z = false →
        (st ≠ 0 → exec (.refusalReceive k h st last) s = .next (if hearsAnswers u then failXfer u x st else u)) ∧
        (st = 0 → jobRunsNow u = true → exec (.refusalReceive k h st last) s = .next (resend u x (last + 1) true)) ∧
        (st = 0 → jobRunsNow u = false → exec (.refusalReceive k h st last) s = .next (recordPos u x (last + 1)))) ∧
      (∀ last, z = false → jobSt u = 4 → exec (.targetPreemptedAnswer k h last) s = .next (recordPos u x (last + 1))) ∧
      (∀ last, z = false → jobSt u ≠ 4 → exec (.targetPreemptedAnswer k h last) s = .next (updXfer u x.id (fun y => { y with
        st := .preempted, start := last + 1, since := u.hub.time, preSince := some (y.preSince.getD u.hub.time) }))) ∧
      (∀ last, z = false → (x.st = .sent ∨ x.st = .queried) → exec (.positionAnswer k h last) s = .next
        (if jobRunsNow u then resend u x (last + 1) false else recordPos u x (last + 1))) ∧
      (∀ (o : Tag) (dg : Digest) (b : Bytes) off w, z = b.all (fun x => x = 0) → xKind x = 1 → hearsAnswers u = true → off = (h.cidx.toNat - 1) * 480 →
        w = (applyCell (takeResponse u (cellDie u (xLaddr x + off))) (jobOf u) { headOf u x o with raddr := fieldBv x.desc 8 8 64, kind := 0 }
          u.hub.fabAddr off (b.take (xLen x - off))).s →
        (h.cidx.toNat ≠ x.rxLast.toNat + 1 → exec (.responseCellReceive k h o dg b) s = .next u) ∧
        (h.cidx.toNat = x.rxLast.toNat + 1 → isTenant o = true → ¬ (isBound (jobOf u) o.toNat = true ∧ (tenOf (jobOf u) o.toNat).digest = dg) →
          exec (.responseCellReceive k h o dg b) s = .next (failXfer u x stOwnerMix)) ∧
        (h.cidx.toNat = x.rxLast.toNat + 1 → (isTenant o = false ∨ (isBound (jobOf u) o.toNat = true ∧ (tenOf (jobOf u) o.toNat).digest = dg)) →
          (∀ q ∈ pieces (xLaddr x + off) (b.take (xLen x - off)), ∃ f, writeCheck u (jobOf u) (xPlace u x).eval (256 * lineOf q.1) 256 o = .ok f) →
          exec (.responseCellReceive k h o dg b) s = .next (if h.cidx.toNat < cellCount (xLen x) then
            updXfer w x.id (fun y => { y with rxLast := h.cidx, since := u.hub.time }) else completeXfer w x false false)))) ∧
    (∀ cancel, z = false → h.vc = 3 → h.kind = 3 →
      (recOf u h.src h.tag = none → exec (.positionQuery k h cancel) s = .next (answer u k.val 1 h 0 (.position 0))) ∧
      (∀ r, recOf u h.src h.tag = some r → r.st = .opened → exec (.positionQuery k h cancel) s = .next
        (answer (if cancel then setRec u h.src h.tag (some { r with st := .cancelled }) else u) k.val 1 h 0 (.position r.last))))

/-- XFER of the host gives its descriptor to the transfer engine (R354). TRANSFER_START ends a transfer that fails a check with its status, waits for the
pair and its binding, is EGRESS to an address that is no peer, and else launches it (R354 to R357). The timers of R366, R367 and R368 bring the clock
to their time: a query after 1 ms, again after 50 µs and DEVICE_FAULT after three, a resend 100 µs after a preempted answer, and a refusal of a record
that is silent for 1 ms. -/
def Obligations.TransferEngineResults : Prop :=
  ∀ (s : State), hubUp s = true →
    (∀ acc c j, ready s acc 0x06 = some c → s.job = some j → c.ph = .accepted → exec (.hostXfer acc) s = .next
      (addXfer (updCmd s acc (fun d => { d with ph := .running, started := s.hub.time })) acc none ((c.desc.drop 8).take 64) 0)) ∧
    (∀ id x, s.fab.xfers.find? (fun x => x.id = id) = some x →
      ((x.st = .waiting ∨ x.st = .resend) → (jobSt s = 2 ∨ jobSt s = 7) →
        (∀ e, xferCheck s x = .error e → exec (.transferStart id) s = .next (failXfer s x e)) ∧
        (∀ o free drop, xferCheck s x = .ok (o, free) → drop = completeXfer (noteFrozen s x.acc (jobOf s).strict) x false false →
          (xDst x = s.hub.fabAddr → s.hub.fabSet = true → exec (.transferStart id) s = .next (if free then localXfer s x o else drop)) ∧
          ((xDst x ≠ s.hub.fabAddr ∨ s.hub.fabSet = false) →
            (pairOf s (xDst x) = none → exec (.transferStart id) s = .next (if mayPair s (xDst x) then s else failXfer s x stEgress)) ∧
            (∀ p, pairOf s (xDst x) = some p →
              ((p.up = false ∨ p.bind = none) → exec (.transferStart id) s = .next s) ∧
              (p.up = true → p.bind ≠ none → exec (.transferStart id) s = .next
                (if !(isPeer s p && (xKind x = 1 || baseAllowed s p o)) then failXfer s x stEgress
                 else if portsBoth s p = [] then failXfer s x stDevice else if free then launch s x p o true else drop)))))) ∧
      (x.st = .sent → cellsWait s x = false → exec (.completionTimeout id) s = .next (query (advanceTo s (x.since.toNat + 1000000)) x false)) ∧
      (x.st = .queried → jobRunsNow s = true → exec (.positionQueryTimeout id) s = .next
        (if 3 ≤ x.queries then failXfer (advanceTo s (x.since.toNat + 50000)) x stDevice else query (advanceTo s (x.since.toNat + 50000)) x false)) ∧
      (∀ s1, x.st = .preempted → jobRunsNow s = true → s1 = advanceTo s (x.since.toNat + 100000) → exec (.preemptedRetryTimer id) s = .next
        (if (x.preSince.getD x.since).toNat + (jobOf s).meetMs * 1000000 < s1.hub.time.toNat then failXfer s1 x stProgram
         else updXfer (resend s1 x x.start true) id (fun y => { y with preSince := x.preSince })))) ∧
    (∀ src tag r p s1, recOf s src tag = some r → pairOf s src = some p → (r.st = .opened ∨ r.st = .cancelled) →
      s1 = setRec (advanceTo s (r.time.toNat + 1000000)) src tag (some { r with st := .closed }) →
      exec (.transferRecordTimeout src tag) s = .next (match portsBoth s1 p with | [] => s1 | k :: _ => sendCells s1 k [mkCell 1 src tag 0 (.refusal 0 r.last)]))

/-- A pair comes up with an exchange, only while Ranger is ready and against a peer that passes its checks (R347, R439), is told the binding, and is
rekeyed to the next epoch with its counters at 0, the old key held until every port delivered a cell or 1 ms has passed (R350). A binding or port mask
of a peer is recorded and transfers on its lost ports are queried (R351, R367). -/
def Obligations.PairResults : Prop :=
  ∀ (s : State) (a : BitVec 16), hubUp s = true →
    (pairOf s a = none → mayPair s a = true → s.boot.devReady = true →
      (rangerReady s = false → exec (.pairBringUp a) s = .next (failWaiting s a stEgress)) ∧
      (rangerReady s = true → s.fab.pairs.length < 1024 → exec (.pairBringUp a) s = .next
        (startExchange { s with fab := { s.fab with pairs := s.fab.pairs ++ [{ addr := a, lastUse := s.hub.time }] } } a 0
          (s.fab.xfers.any (fun x => xDst x = a)))) ∧
      (rangerReady s = true → 1024 ≤ s.fab.pairs.length → lruPair s = none → exec (.pairBringUp a) s = .next s)) ∧
    (∀ p, pairOf s a = some p →
      (∀ (c : PeerCheck) ok, ok = (c.chainOk && c.sigOk && decide (s.rgr.runSvn.toNat ≤ c.svn.toNat)) →
        (ok = false → p.up = true → endExchange s a p c = updPair s a (fun q => { q with exchange := false })) ∧
        (ok = false → p.up = false → endExchange s a p c = failWaiting (dropPair s a) a stEgress) ∧
        (ok = true → p.up = false → endExchange s a p c =
          bindPair (updPair s a (fun q => { q with up := true, exchange := false, sec := exchangeSec p c })) a) ∧
        (ok = true → p.up = true → ∃ t q, endExchange s a p c = t ∧ pairOf t a = some q ∧ q.epoch = p.epoch + 1 ∧ q.oldKey = true ∧ q.oldSec = p.sec ∧
          q.sec = exchangeSec p c ∧ q.rekeyAt = s.hub.time ∧ q.exchange = false ∧ (∀ k, tget 0 q.tx k = 0) ∧
          t.hub = { s.hub with rekeys := satAdd s.hub.rekeys 1 } ∧ t.ports = s.ports)) ∧
      (p.up = true → p.exchange = false → (∃ t ∈ p.tx, 2 ^ 31 ≤ t.2.toNat) → exec (.pairRekey a) s = .next (startExchange s a (p.epoch + 1) true)) ∧
      (p.oldKey = true → exec (.oldKeyDiscard a) s = .next (updPair (if p.newPorts = 0xFFFFFFFF then s else advanceTo s (p.rekeyAt.toNat + 1000000)) a
        (fun q => { q with oldKey := false })))) ∧
    (∀ (k : Fin 32) (h : CellHdr) (u : State) (p : Pair), h.vc = 3 → h.kind = 3 → CellTaken s k h false u p →
      (∀ c, exec (.pairUp ⟨k, h⟩ c) s = .next (peerExchange u h.src c)) ∧
      (∀ b, exec (.jobBinding ⟨k, h⟩ b) s = .next (queryDown (updPair u h.src (fun q => { q with bind := some b })) h.src)) ∧
      (∀ m, exec (.portMask ⟨k, h⟩ m) s = .next (queryDown (updPair u h.src (fun q => { q with bind := q.bind.map (fun b => { b with mask := m }) })) h.src))) ∧
    (∀ (k : Fin 32) (h : CellHdr) (p : Pair) (c : PeerCheck), (portOf s k.val).st = 3 → h.vc = 3 → h.kind = 3 → h.lseq = (portOf s k.val).rxNext →
      h.dst = s.hub.fabAddr → s.hub.fabSet = true → pairOf s h.src = some p → p.up = false →
      exec (.pairUp ⟨k, h⟩ c) s = .next (peerExchange (cellIn s k h) h.src c))

/-- Port `k`: a link cell carries slot 0's mark, the ACK, a NAK and the credits (R338, R340); a good one frees what it acknowledges, sets the peer's
credits and replays after a NAK (R340, R341, R345); a lost slot counts as uncorrectable and asks again (R339); the replay timer replays from the
oldest cell (R341); a wavelength loses its lock and locks again, and the port comes up with all eight and goes down with its link state cleared (R336,
R342). A staging credit returns to its class (R214). -/
def Obligations.LinkResults : Prop :=
  ∀ (s : State) (k : Fin 32) (p : Port), hubUp s = true → p = portOf s k.val →
    (p.st = 3 →
      (∃ t cr, exec (.linkCellSend k) s = .next t ∧ t.out = (fillIdle s k.val).out ++ [.link k.val (linkBytes (decide (p.linkSlot = 0)) p.rxNext p.rxNext p.nak cr)] ∧
        (portOf t k.val).slots = 0 ∧
        (portOf t k.val).linkSlot = (if p.linkSlot = 5120 then 0 else p.linkSlot + 80) ∧ (∀ x, x ≠ k.val → portOf t x = portOf s x)) ∧
      (∀ c : LinkCell, c.crcOk = false → exec (.linkCellReceive k c) s = .next s) ∧
      (∀ (c : LinkCell) n s1, c.crcOk = true → n = (c.ack - (match p.unacked.head? with | some u => u.1 | none => p.txSeq)).toNat → n ≤ p.unacked.length →
        s1 = setPort s k.val { p with unacked := p.unacked.drop n, linkAt := s.hub.time, replays := if n = 0 then p.replays else 0, ackAt := if n = 0 then p.ackAt else s.hub.time, peerCred := (List.range 4).foldl (fun t vc => tset 0 t vc (c.cred.extractLsb' (16 * vc) 16)) p.peerCred } →
        exec (.linkCellReceive k c) s = .next (pump (if c.nakv then replayOrDown s1 k.val c.nak else s1) k.val)) ∧
      (∀ first, exec (.slotLost ⟨k, first⟩) s = .next
        (setPort s k.val { p with uncorr := if first then satAdd p.uncorr 1 else p.uncorr, rxLost := true, nak := true })) ∧
      (∀ u r, p.unacked = u :: r → exec (.replayTimeout k) s = .next (replayOrDown (advanceTo s (p.ackAt.toNat + 20000)) k.val u.1)) ∧
      exec (.portDown k) s = .next
        (portLeaves (advanceTo s (if p.lock ≠ 0xFF then p.lostAt.toNat + 10000 else p.linkAt.toNat + 20000)) k.val 4)) ∧
    (∀ w : Fin 8, ∃ t, exec (.wavelengthLockLost k w) s = .next t ∧ portOf t k.val = { p with lock := (portOf t k.val).lock, lostAt := if p.lock = 0xFF then s.hub.time else p.lostAt } ∧
      (portOf t k.val).lock.getLsbD w.val = false ∧ (∀ x, x ≠ w.val → (portOf t k.val).lock.getLsbD x = p.lock.getLsbD x) ∧
      ∀ x, x ≠ k.val → portOf t x = portOf s x) ∧
    (p.enable = true → horizonUp s (k.val / 8) = true →
      (p.st ≠ 5 → p.st ≠ 6 → exec (.wavelengthRelock k) s = .next (setPort s k.val { p with lock := 0xFF, st := if p.st = 1 ∨ p.st = 0 ∨ p.st = 4 then 2 else p.st })) ∧
      (p.lock = 0xFF → (p.st = 1 ∨ p.st = 2 ∨ p.st = 4) →
        exec (.portUp k) s = .next (sendMasks (setPort s k.val { linkCleared p with st := 3, ackAt := s.hub.time, linkAt := s.hub.time })))) ∧
    (∀ (die : Fin 4) (cls : Fin 7), (creditsUsed s die.val cls.val = 0 → exec (.creditReturn die cls) s = .next s) ∧
      (creditsUsed s die.val cls.val ≠ 0 → ∃ t, exec (.creditReturn die cls) s = .next t ∧
        creditsUsed t die.val cls.val = creditsUsed s die.val cls.val - 1 ∧ creditsFree t die.val cls.val = creditPool cls.val - (creditsUsed s die.val cls.val - 1)))

/-- A staging write takes a hub-and-CXL credit and stores the bytes as PUBLIC plaintext, and waits without one or while R217 holds it back; a read gives
the bytes or poison (R214, R217, R376, R377, R492, R500). A configuration request is retried until step 4 of the boot has ended (R463). The FRU
content and the telemetry answer while their rails are up (R464, R561). -/
def Obligations.HostPathResults : Prop :=
  ∀ (s : State),
    (∀ a b, hubUp s = true → s.boot.devReady = true →
      ((s.hub.hostHold = true ∨ creditsFree s 0 2 = 0) → exec (.stagingWrite a b) s = .next s) ∧
      (∀ l d, s.hub.hostHold = false → creditsFree s 0 2 ≠ 0 → pieces a.toNat b = [(l, d)] → backed s l = true → onFenced s l = false →
        exec (.stagingWrite a b) s = .next { scrubLine (takeCredit s 0 2) (lineOf l) with
          mem := wrBytes (scrubLine (takeCredit s 0 2) (lineOf l)).mem l d,
          poison := if d.length = 256 then s.poison.filter (fun x => x ≠ lineOf l) else s.poison }) ∧
      (∀ l d, s.hub.hostHold = false → creditsFree s 0 2 ≠ 0 → pieces a.toNat b = [(l, d)] → onFenced s l = true →
        exec (.stagingWrite a b) s = .next (takeCredit s 0 2))) ∧
    (∀ (a : BitVec 30) n, hubUp s = true → s.boot.devReady = true →
      ((∃ l ∈ linesOf a.toNat n, backed s l = false ∨ onFenced s l = true ∨ lineOf l ∈ s.poison) → exec (.stagingRead a n) s = .next (emit s .poisoned)) ∧
      ((∀ l ∈ linesOf a.toNat n, backed s l = true ∧ onFenced s l = false ∧ lineOf l ∉ s.poison) →
        exec (.stagingRead a n) s = .next (emit s (.readData ((List.range n).map (fun k =>
          (storedLine s (lineOf (a.toNat + k))).getD ((a.toNat + k) % 256) 0)))))) ∧
    (s.pins.pwrGood = true → s.pins.perst = false → exec .configRequest s = .next (emit s (if s.boot.cfgReady then .configDone else .retry))) ∧
    (∀ off n, s.pins.inputOk = true → exec (.fruRead off n) s = .next (emit s (.fru ((fruImage.drop off).take n)))) ∧
    (s.pins.pwrGood = true → s.pins.perst = false → s.boot.stage ≠ 0 → ∃ b, exec .mctpTelemetry s = .next (emit { s with free := s.free + 2 } (.telemetry b)) ∧
      b.take 2 = natLe s.hub.powerW.toNat 2 ∧ b[2]? = some s.hub.maxTemp ∧ b[5]? = some s.boot.fail ∧ b[6]? = some (BitVec.ofNat 8 (nat s.hub.fault)))

/-- Ranger's messages outside a session, and its own events: a report leaves its ephemeral key held in the READY state (R436, R441); the tables and the
chain are returned (R417, R434, R437); FW_STAGE, FW_ACTIVATE, FW_ABANDON and FW_COMMIT_SVN act as R427 and R428 say. -/
def Obligations.RangerMessageResults : Prop :=
  ∀ (s : State),
    (MessageWaits s 0x01 → mbSession s = 0 → (mbLen s ≠ 64 → exec .report s = .next (mbReply s rsBadFormat [])) ∧
      (mbLen s = 64 → ∃ t r, exec .report s = .next (mbReply t rsOk r) ∧ (t, r) = makeReport s ((mbBody s).take 32) (fieldLe (mbBody s) 32 32) none ∧
        (rgrStateNow s ≠ 0 → t.rgr.ephs = s.rgr.ephs))) ∧
    (MessageWaits s 0x07 → mbLen s = 0 → exec .progTable s = .next (mbReply s rsOk ((List.range 256).flatMap (fun i => dig (slotDigest (jobOf s) i))))) ∧
    (MessageWaits s 0x08 → mbLen s = 8 → exec .jobConfig s = .next (mbReply s rsOk (((jobCfgInput s).drop (leNat (mbBody s))).take 16360))) ∧
    (MessageWaits s 0x09 → mbLen s = 0 → exec .certChain s = .next (mbReply s rsOk ((s.rgr.chain).take 16360))) ∧
    (∀ k v, k = !s.rgr.bank → v = bankOf s k →
      (∀ off d, MessageWaits s 0x10 → 8 ≤ (mbBody s).length → (mbBody s).length ≤ 16360 → off = fieldLe (mbBody s) 0 8 → d = (mbBody s).drop 8 → off + d.length ≤ 2 ^ 25 →
        ∃ t, exec .fwStage s = .next (mbReply t rsOk []) ∧ bankOf t k = { valid := false, image := wrBytes v.image off d } ∧
          bankOf t s.rgr.bank = bankOf s s.rgr.bank ∧ t.rgr.updating = true ∧ t.flash.marked = false ∧ t.flash.fusedSvn = s.flash.fusedSvn) ∧
      (∀ c : Fin 6, MessageWaits s 0x11 → mbLen s = 0 →
        (s.rgr.updating = false → exec (.fwActivate c) s = .next (mbReply s rsRefused [])) ∧
        (s.rgr.updating = true → (c.val ≠ 0 ∨ (bankSvn v).toNat < s.flash.fusedSvn.toNat) →
          exec (.fwActivate c) s = .next (mbReply { s with flash := { s.flash with marked := false } } rsAuthFail [])) ∧
        (s.rgr.updating = true → c.val = 0 → s.flash.fusedSvn.toNat ≤ (bankSvn v).toNat → ∃ t, exec (.fwActivate c) s = .next (mbReply t rsOk []) ∧
          bankOf t k = { v with valid := true } ∧ bankOf t s.rgr.bank = bankOf s s.rgr.bank ∧ t.flash.marked = true ∧ t.rgr = s.rgr)) ∧
      (MessageWaits s 0x12 → mbLen s = 0 → (s.rgr.updating = false → exec .fwAbandon s = .next (mbReply s rsRefused [])) ∧
        (s.rgr.updating = true → ∃ t, exec .fwAbandon s = .next (mbReply t rsOk []) ∧ bankOf t k = { v with valid := false } ∧
          t.rgr = { s.rgr with updating := false } ∧ t.flash.marked = false))) ∧
    (MessageWaits s 0x13 → mbLen s = 0 → (s.rgr.runSvn.toNat ≤ s.flash.fusedSvn.toNat → exec .fwCommitSvn s = .next (mbReply s rsRefused [])) ∧
      (s.flash.fusedSvn.toNat < s.rgr.runSvn.toNat → exec .fwCommitSvn s = .next (mbReply { s with flash := { s.flash with fusedSvn := s.rgr.runSvn } } rsOk []))) ∧
    (2 ^ 20 ≤ s.rgr.drbg → exec .drbgReseed s = .next { s with rgr := { s.rgr with drbg := 0 } }) ∧
    (∀ e r, s.rgr.ephs = e :: r → hubUp s = true →
      exec .ephemeralKeyExpiry s = .next { advanceTo s (e.time.toNat + 10000000000) with rgr := { s.rgr with ephs := r } })

/-- Sessions: an open that passes R441's checks erases its ephemeral key and holds a new session whose keys come from R442, in place of the same role's
and tenant's (R443); a message of a session is refused where its SEQ is not above the last or its tag fails, and else does its work and is answered
under the response key (R433, R438, R443, R451, R452). -/
def Obligations.SessionResults : Prop :=
  ∀ (s u : State) (y : Session) (b : Bytes),
    (∀ e role ten kd z th sid, MessageWaits s 0x02 → OpenChecks s b e role ten kd → z = Config.ecdh e.num ((b.drop 36).take 64) → th = Config.sha256 (e.report ++ b.take 164) →
      sid = BitVec.ofNat 64 (leNat (sessKey th z "LYM-SESS id" 8)) → sid ≠ 0 → sid ∉ heldSids s →
      ∃ t x, exec .sessionOpen s = .next (mbReply t rsOk (bvLe sid 8 ++ padTo (Config.gcmSeal x.rspKey (mbIv x 0) (mbReplyHeader s 24) []) 16)) ∧
        x.role = role ∧ x.tenant = ten ∧ x.sid = sid ∧ x.seq = 0 ∧ x.upKey = keyNum (sessKey th z "LYM-SESS up" 32) ∧
        x.reqKey = keyNum (sessKey th z "LYM-SESS req" 32) ∧ x.rspKey = keyNum (sessKey th z "LYM-SESS rsp" 32) ∧
        x.egrKey = keyNum (sessKey th z "LYM-SESS egr" 32) ∧ x ∈ t.rgr.sessions ∧ e ∉ t.rgr.ephs ∧ (role ≠ 0 → ownerOf t (role - 1) = some kd) ∧
        ∀ v ∈ t.rgr.sessions, v = x ∨ (v ∈ s.rgr.sessions ∧ ¬ (v.role = role ∧ (role = 0 → v.tenant = ten)))) ∧
    (SessionMessage s u y b →
      (MessageWaits s 0x01 → b.length = 64 → ∃ t r, exec .report s = .next (mbReplyIn t y r) ∧
        (t, r) = makeReport u (b.take 32) (fieldLe b 32 32) (if y.role = 0 then some y.tenant else none)) ∧
      (MessageWaits s 0x03 → b = [] → exec .sessionClose s = .next (mbReplyIn (setSession u y.role y.tenant none) y [])) ∧
      (y.role = 0 →
        (MessageWaits s 0x04 → (policyOk b = false → exec .setPolicy s = .next (mbReply u rsBadFormat [])) ∧
          (policyOk b = true → exec .setPolicy s = .next (mbReplyIn { u with
            job := u.job.map (fun j => setTen j y.tenant { tenOf j y.tenant with policy := padTo b 580 }) } y []))) ∧
        (MessageWaits s 0x05 → b.length = 32 → exec .setCkptKey s = .next (mbReplyIn { drawRandom u with job := u.job.map (fun j => setTen j y.tenant
          { tenOf j y.tenant with ckpt := some (keyNum b), ckptIv := (bvLe (nextRandom u) 32).take 4, ckptCnt := 0 }) } y [])) ∧
        (MessageWaits s 0x06 → b = [] → 24 + (adapterList (jobOf u) y.tenant).length + 16 ≤ 16384 →
          exec .adapterList s = .next (mbReplyIn u y (adapterList (jobOf u) y.tenant)))))

/-- SPDM outside a session: a request before DEV_READY gets ResponseNotReady and one on a stopped path nothing (R464); version, capabilities, digests,
certificate, challenge and measurements are answered, the last two signed by the alias key; a key exchange is Busy unless Ranger is ready (R439, R453)
and FINISH with a good MAC makes its session established. The response codes are PRESUMED (log 55). -/
def Obligations.SpdmResults : Prop :=
  ∀ (s : State) (m : Bool),
    (∀ i, (i = .getVersion m ∨ i = .getCapabilities m ∨ i = .getDigests m ∨ (∃ a b c, i = .getCertificate m a b c) ∨ (∃ a n, i = .challenge m a n) ∨ (∃ a n, i = .getMeasurements m a n) ∨
        (∃ a k, i = .keyExchange m a k) ∨ (∃ a b, i = .finish m a b) ∨ (∃ a o, i = .heartbeat m a ∨ i = .keyUpdate ⟨m, a⟩ o ∨ i = .endSession m a) ∨ ∃ c, i = .spdmUnsupportedRequest m c) →
      ((s.pins.pwrGood = false ∨ s.pins.perst = true ∨ s.hub.fault = true) → exec i s = .next s) ∧
      (s.pins.pwrGood = true → s.pins.perst = false → s.hub.fault = false → (if m then s.boot.stage ≠ 0 else barAnswers s = true) → s.boot.devReady = false →
        exec i s = .next (spdmError s seNotReady))) ∧
    (SpdmReady s m →
      exec (.getVersion m) s = .next (emit s (.spdm 0x04 (natLe 0x1200 2))) ∧
      exec (.getCapabilities m) s = .next (emit s (.spdm 0x61 (natLe 0x62D6 4))) ∧
      exec (.getDigests m) s = .next (emit s (.spdm 0x01 (dig (Config.sha256 (s.rgr.chain))))) ∧
      (∀ (a : Byte) o l, (a = 0 → exec (.getCertificate m a o l) s = .next (emit s (.spdm 0x02 (((s.rgr.chain).drop o.toNat).take l.toNat)))) ∧
        (a ≠ 0 → exec (.getCertificate m a o l) s = .next (spdmUnsupported s 0x82))) ∧
      (∀ (n : Digest) g, g = padTo (Config.ecdsaSign s.rgr.aliasKey (Config.sha256 (dig n ++ dig (nextRandom s))) (s.free + 1)) 64 →
        exec (.challenge m 0 n) s = .next (emit (drawRandom (drawRandom s)) (.spdm 0x03
          (dig (Config.sha256 (s.rgr.chain)) ++ dig (nextRandom s) ++ g)))) ∧
      (∀ (a : Byte) n, a ≠ 0 → exec (.challenge m a n) s = .next (spdmUnsupported s 0x83)) ∧
      (∀ (b : Byte) n, 6 < b.toNat → b.toNat < 0xF0 → exec (.getMeasurements m b n) s = .next (spdmUnsupported s 0xE0)) ∧
      (∀ (b : Byte) (n : Digest) d, 1 ≤ b.toNat → b.toNat ≤ 6 → d = dig (bankDigest (bankOf s s.rgr.bank) (b.toNat - 1)) →
        exec (.getMeasurements m b n) s = .next (emit (drawRandom s) (.spdm 0x60 (d ++ padTo (Config.ecdsaSign s.rgr.aliasKey (Config.sha256 (dig n ++ d)) s.free) 64)))) ∧
      (∀ (r : BitVec 16) n p, rgrStateNow s ≠ 0 → exec (.keyExchange m r ⟨n, p⟩) s = .next (spdmError s seBusy)) ∧
      (∀ (r : BitVec 16) n p (sid : BitVec 32) th z, rgrStateNow s = 0 → sid = (nextRandom s).setWidth 16 ++ r → z = Config.ecdh s.free (padTo p 64) →
        th = dig (Config.sha256 (dig n ++ bvLe sid 4 ++ padTo p 64 ++ padTo (Config.ephPublic s.free) 64)) →
        ∃ t o, exec (.keyExchange m r ⟨n, p⟩) s = .next (emit t o) ∧ t.spdm.sessions = s.spdm.sessions.filter (fun y => y.sid ≠ sid) ++
          [{ sid := sid, reqKey := spdmKey th z "spdm1.2 req app", rspKey := spdmKey th z "spdm1.2 rsp app" }] ∧ t.spdm.tdi = s.spdm.tdi) ∧
      (∀ x : SpdmSes, x ∈ s.spdm.sessions → x.est = false → exec (.finish m x.sid false) s = .next (spdmError s seDecrypt) ∧
        exec (.finish m x.sid true) s = .next (spdmIn (updSpdm s x.sid (fun x => { x with est := true })) x.sid 0x65 [])) ∧
      (∀ c, exec (.spdmUnsupportedRequest m c) s = .next (spdmUnsupported s c)))

/-- SPDM and TDISP inside an established session: outside one every such request is an invalid session; HEARTBEAT and KEY_UPDATE are answered, END_SESSION
ends it, IDE_KM programs a stream's key (R453), and the interface goes from unlocked to locked with a fresh nonce, to run with that nonce, and back
(R454). The response codes are PRESUMED (log 55). -/
def Obligations.TdispResults : Prop :=
  ∀ (s : State) (m : Bool) (sid : BitVec 32), SpdmReady s m →
    (spdmOpen s sid = false → ∀ i, (i = .heartbeat m sid ∨ (∃ o, i = .keyUpdate ⟨m, sid⟩ o) ∨ i = .endSession m sid ∨ (∃ st k, i = .ideKm ⟨m, sid⟩ st k) ∨
        i = .getTdispVersion ⟨m, sid⟩ ∨ i = .getTdispCapabilities ⟨m, sid⟩ ∨ i = .lockInterfaceRequest ⟨m, sid⟩ ∨ i = .getDeviceInterfaceReport ⟨m, sid⟩ ∨
        i = .getDeviceInterfaceState ⟨m, sid⟩ ∨ (∃ n, i = .startInterfaceRequest ⟨m, sid⟩ n) ∨ i = .stopInterfaceRequest ⟨m, sid⟩) →
      exec i s = .next (spdmError s seInvalidSession)) ∧
    (spdmOpen s sid = true →
      exec (.heartbeat m sid) s = .next (spdmIn s sid 0x68 []) ∧
      exec (.keyUpdate ⟨m, sid⟩ 1) s = .next (spdmIn (updSpdm s sid (fun x => { x with reqKey := nextKey x.reqKey })) sid 0x69 [1]) ∧
      exec (.keyUpdate ⟨m, sid⟩ 2) s = .next
        (spdmIn (updSpdm s sid (fun x => { x with reqKey := nextKey x.reqKey, rspKey := nextKey x.rspKey, sent := 0 })) sid 0x69 [2]) ∧
      exec (.keyUpdate ⟨m, sid⟩ 3) s = .next (spdmIn s sid 0x69 [3]) ∧
      (∃ t o, exec (.endSession m sid) s = .next t ∧ t.out = s.out ++ [.secured sid o] ∧ spdmOpen t sid = false ∧
        ∀ x ∈ t.spdm.sessions, x ∈ s.spdm.sessions ∧ x.sid ≠ sid) ∧
      (∀ (st : Byte) key, ∃ t, exec (.ideKm ⟨m, sid⟩ st key) s = .next (spdmIn t sid 0x7E [st]) ∧ tget 0 t.spdm.ide st.toNat = key ∧
        ∀ k, k ≠ st.toNat → tget 0 t.spdm.ide k = tget 0 s.spdm.ide k) ∧
      exec (.getTdispVersion ⟨m, sid⟩) s = .next (tdispIn s sid 0x01 [0x10]) ∧
      exec (.getTdispCapabilities ⟨m, sid⟩) s = .next (tdispIn s sid 0x02 (zeros 4)) ∧
      (s.spdm.tdi = .unlocked → exec (.lockInterfaceRequest ⟨m, sid⟩) s = .next
        (tdispIn { drawRandom s with spdm := { s.spdm with tdi := .locked, nonce := nextRandom s, relock := false } } sid 0x03 (dig (nextRandom s)))) ∧
      (s.spdm.tdi ≠ .unlocked → exec (.lockInterfaceRequest ⟨m, sid⟩) s = .next (tdiError s sid 4)) ∧
      exec (.getDeviceInterfaceReport ⟨m, sid⟩) s = .next
        (if s.spdm.tdi = .locked ∨ s.spdm.tdi = .run then tdispIn s sid 0x04 (interfaceReport s) else tdiError s sid 4) ∧
      exec (.getDeviceInterfaceState ⟨m, sid⟩) s = .next (tdispIn s sid 0x05 [tdiCode s.spdm.tdi]) ∧
      (∀ n, (s.spdm.tdi ≠ .locked → exec (.startInterfaceRequest ⟨m, sid⟩ n) s = .next (tdiError s sid 4)) ∧
        (s.spdm.tdi = .locked → n ≠ s.spdm.nonce → exec (.startInterfaceRequest ⟨m, sid⟩ n) s = .next (tdiError s sid 0x102)) ∧
        (s.spdm.tdi = .locked → n = s.spdm.nonce → exec (.startInterfaceRequest ⟨m, sid⟩ n) s = .next
          (tdispIn { s with spdm := { s.spdm with tdi := .run, nonce := 0 } } sid 0x06 []))) ∧
      exec (.stopInterfaceRequest ⟨m, sid⟩) s = .next (tdispIn { s with spdm := { s.spdm with tdi := .unlocked, nonce := 0 } } sid 0x07 []))

/-- A register write takes 8 aligned bytes while BAR0 answers, and nothing where a reserved bit is set or the offset is reserved (R14, R538 to R540); the
rows that name a write are that write (R384, R408, R474 to R476, R479, R488, R514, R535). The window and the fabric address take their fields under
the conditions of R188 and R335, a select register a number that exists (R546), RING_CFG enables a ring only with its four bases (R384), PORT_CFG
takes a port out of service (R371), PD_CTL a mode that its domain accepts (R512, R514). -/
def Obligations.RegisterWriteResults : Prop :=
  ∀ (s : State) (v : BitVec 64),
    (∀ (o : BitVec 26) n, (barAnswers s = false → exec (.registerWrite o n v) s = .next s) ∧
      (barAnswers s = true → ¬ (0x20000 ≤ o.toNat ∧ o.toNat < 0x21000) →
        ((n ≠ 8 ∨ o.toNat % 8 ≠ 0) → exec (.registerWrite o n v) s = .next s) ∧
        (n = 8 → o.toNat % 8 = 0 → (regAt o.toNat = none → exec (.registerWrite o n v) s = .next s) ∧
          (∀ r, regAt o.toNat = some r → exec (.registerWrite o n v) s = .next (if v &&& rsvMask r = 0 then writeField s r v else s)))) ∧
      (barAnswers s = true → 0x20000 ≤ o.toNat → o.toNat < 0x21000 → exec (.registerWrite o n v) s =
        .next (if (n = 4 ∨ n = 8) ∧ o.toNat % n = 0 then writeMsix s (o.toNat - 0x20000) n v else s))) ∧
    (exec (.ringEnable v) s = exec (.registerWrite 0x10000 8 (v ||| 1)) s ∧ exec (.ringDisable v) s = exec (.registerWrite 0x10000 8 (v &&& ~~~1)) s ∧
      exec (.ringReset v) s = exec (.registerWrite 0x10038 8 (v ||| 1)) s ∧ exec (.jobReset v) s = exec (.registerWrite 0x01038 8 (v ||| 1)) s ∧
      exec (.shutdown v) s = exec (.registerWrite 0x01038 8 (v ||| 2)) s ∧ exec (.dieReset (.host v)) s = exec (.registerWrite 0x01038 8 (v ||| 4)) s ∧
      exec (.restartScan v) s = exec (.registerWrite 0x01050 8 (v ||| 1)) s ∧ exec (.portEnable v) s = exec (.registerWrite 0x13000 8 (v ||| 1)) s ∧
      exec (.portDisable v) s = exec (.registerWrite 0x13000 8 (v &&& ~~~1)) s ∧ exec (.pdModeOn v) s = exec (.registerWrite 0x16000 8 (v &&& ~~~3)) s ∧
      exec (.pdModeAuto v) s = exec (.registerWrite 0x16000 8 (v &&& ~~~3 ||| 1)) s ∧ exec (.pdModeOff v) s = exec (.registerWrite 0x16000 8 (v &&& ~~~3 ||| 2)) s ∧
      exec (.wvCap v) s = exec (.registerWrite 0x03000 8 v) s) ∧
    (barAnswers s = true →
      (v &&& rsvMask .cxlWin = 0 → exec (.registerWrite 0x01008 8 v) s = .next
        (if (v.extractLsb' 0 10).toNat ≤ 512 ∧ s.job = none ∧ s.saved = [] then
          (fun u => tdiTouch { u with hub := { u.hub with split := v.extractLsb' 0 10, winBase := v.extractLsb' 30 34 } })
            (if v.extractLsb' 30 34 = s.hub.winBase then s else exposeWindow s) else s)) ∧
      (v.toNat < 2 ^ 16 → exec (.registerWrite 0x01028 8 v) s = .next
        (if s.hub.fabSet = false ∧ v ≠ 0 ∧ v ≠ 0xFFFF then { s with hub := { s.hub with fabAddr := v.setWidth 16, fabSet := true } } else s)) ∧
      (∀ x : BitVec 26 × Nat, x ∈ [(0x05000, 256), (0x05008, 128), (0x05010, 32), (0x05018, 32), (0x05020, 8), (0x05028, 1024), (0x05030, 50)] →
        x.2 ≤ v.toNat → exec (.registerWrite x.1 8 v) s = .next s) ∧
      (v.toNat < 256 → exec (.registerWrite 0x05000 8 v) s = .next { s with sels := { s.sels with ring := v.setWidth 16 } }) ∧
      (v.toNat < 50 → exec (.registerWrite 0x05030 8 v) s = .next { s with sels := { s.sels with pd := v.setWidth 16 } }) ∧
      (∀ g, g = ringOf s s.sels.ring.toNat → v &&& rsvMask .ringCfg = 0 → 6 ≤ (v.extractLsb' 1 4).toNat →
        (v.getLsbD 0 = true → (s.boot.devReady = false ∨ (g.st = .disabled ∧ (g.sq = 0 ∨ g.cq = 0 ∨ g.jnl = 0 ∨ g.db = 0))) →
          exec (.registerWrite 0x10000 8 v) s = .next s) ∧
        (v.getLsbD 0 = true → s.boot.devReady = true → g.st ≠ .disabled → exec (.registerWrite 0x10000 8 v) s = .next (setRing s s.sels.ring.toNat { g with st := .enabled })) ∧
        (v.getLsbD 0 = true → s.boot.devReady = true → g.st = .disabled → g.sq ≠ 0 → g.cq ≠ 0 → g.jnl ≠ 0 → g.db ≠ 0 → v.extractLsb' 1 4 = g.size → v.extractLsb' 8 8 = g.vector →
          exec (.registerWrite 0x10000 8 v) s = .next (readDoorbell (setRing s s.sels.ring.toNat { g with st := .enabled }) s.sels.ring.toNat)) ∧
        (v.getLsbD 0 = false → g.st = .enabled → exec (.registerWrite 0x10000 8 v) s = .next
          (setRing s s.sels.ring.toNat { g with st := if g.released = g.accepted && !ringSaved s s.sels.ring.toNat then .disabled else .draining }))) ∧
      (∀ p, p = portOf s s.sels.port.toNat → v = 0 → p.st ≠ 5 → p.st ≠ 6 →
        exec (.registerWrite 0x13000 8 v) s = .next (portLeaves (setPort s s.sels.port.toNat { p with enable := false }) s.sels.port.toNat 5)) ∧
      (∀ p, p = pdOf s s.sels.pd.toNat → v = 1 →
        (modeOk s.sels.pd.toNat 1 = false → exec (.registerWrite 0x16000 8 v) s = .next s) ∧
        (modeOk s.sels.pd.toNat 1 = true → exec (.registerWrite 0x16000 8 v) s = .next
          (setPd s s.sels.pd.toNat { p with mode := 1, pending := false, st := if s.sels.pd.toNat < 32 ∧ p.st = 3 then 4 else p.st }))))

/-- The writes with rows of their own, where no reserved bit is set and BAR0 answers: a job reset aborts the current job (R474), SHUTDOWN stops the block
and sets SAFE (R479), DIE_GO resets a die, which DIE_RESET_DONE returns to service or fences (R472, R473, R498), GO scans the rings for the restart
report while every ring is disabled (R488), a ring reset reports the ring (R475), a ring is enabled and drained (R384, R408), a port leaves service
and may train again (R371), a domain takes a mode (R512, R514), and the cap is stored (R535). -/
def Obligations.ControlRegisterResults : Prop :=
  ∀ (s : State) (v : BitVec 64), barAnswers s = true →
    (∀ d s1, d = v.extractLsb' 8 5 → d.toNat < 24 → s1 = { s with rst := { s.rst with dieField := d } } →
      (v &&& rsvMask .rstCtl = 0 → v.getLsbD 0 = true → v.getLsbD 1 = false → v.getLsbD 2 = false → exec (.jobReset v) s = .next (jobResetNow s1)) ∧
      (v &&& rsvMask .rstCtl = 0 → v.getLsbD 0 = false → v.getLsbD 1 = true → v.getLsbD 2 = false → exec (.shutdown v) s = .next (shutdownNow s1)) ∧
      (v &&& rsvMask .rstCtl = 0 → v.getLsbD 0 = false → v.getLsbD 1 = false → v.getLsbD 2 = true → exec (.dieReset (.host v)) s = .next (startDieReset s1 d.toNat))) ∧
    (∀ d : Fin 24, s.boot.devReady = true → exec (.dieReset (.hub d)) s = .next (startDieReset s d.val)) ∧
    (∀ (d : Fin 24) s1, s.rst.held.getLsbD d.val = true → s1 = { s with rst := { s.rst with dieBusy := false, held := s.rst.held &&& ~~~(oneBit d.val) } } →
      exec (.dieResetDone d false) s = .next (fenceDie (if d.val < 16 then framesLost s1 d.val else s1) d.val) ∧ (d.val < 16 → exec (.dieResetDone d true) s = .next s1) ∧
      (16 ≤ d.val → ∃ t, exec (.dieResetDone d true) s = .next t ∧ t.rst = s1.rst ∧ t.fences = s.fences)) ∧
    (∀ s1, v.getLsbD 0 = true → v &&& rsvMask .restartCtl = 0 → s.boot.devReady = true → s.rst.rsBusy = false → (∀ e ∈ s.rings, e.2.st = .disabled) →
      s1 = { s with rst := { s.rst with rsLimit := v.extractLsb' 16 16, rsGen := v.extractLsb' 32 16, rsDone := s.rst.rsDone && !v.getLsbD 2 } } →
      exec (.restartScan v) s = .next (restartScan s1)) ∧
    (v = 1 → exec (.ringReset v) s = .next (ringResetNow (setRing s s.sels.ring.toNat (ringOf s s.sels.ring.toNat)))) ∧
    (∀ g, g = ringOf s s.sels.ring.toNat → v &&& rsvMask .ringCfg = 0 → 6 ≤ (v.extractLsb' 1 4).toNat →
      (v.getLsbD 0 = true → s.boot.devReady = true → g.st = .draining → exec (.ringEnable v) s = .next (setRing s s.sels.ring.toNat { g with st := .enabled })) ∧
      (v.getLsbD 0 = false → g.st = .enabled → exec (.ringDisable v) s = .next
        (setRing s s.sels.ring.toNat { g with st := if g.released = g.accepted && !ringSaved s s.sels.ring.toNat then .disabled else .draining }))) ∧
    (∀ k p, k = s.sels.port.toNat → p = portOf s k →
      (p.st ≠ 5 → p.st ≠ 6 → exec (.portDisable 0) s = .next (portLeaves (setPort s k { p with enable := false }) k 5)) ∧
      ((pdOf s (40 + 2 * (k / 8))).mode ≠ 0 → exec (.portEnable 0) s = .next (setPort s k { p with enable := true, st := if p.st = 5 then 1 else p.st }))) ∧
    (∀ i p, i = s.sels.pd.toNat → p = pdOf s i → i < 32 →
      exec (.pdModeOn 0) s = .next (setPd s i { p with mode := 0, pending := false, st := if p.st = 3 ∨ p.st = 1 then 4 else p.st }) ∧
      exec (.pdModeAuto 0) s = .next (setPd s i { p with mode := 1, pending := false, st := if p.st = 3 then 4 else p.st }) ∧
      (∃ t, exec (.pdModeOff 0) s = .next t ∧ (pdOf t i).mode = 2 ∧ (pdOf t i).st = p.st ∧ ∀ x, x ≠ i → pdOf t x = pdOf s x)) ∧
    (v.toNat < 2 ^ 32 → exec (.wvCap v) s = .next { s with wv := { s.wv with cap := v.extractLsb' 0 32 } })

/-- Power: an idle domain with MODE 2 powers off and loses its contents, one with MODE 1 stops its clock, and a waking one becomes ready (R512, R515); a
die takes the highest point its limits ask for (R518, R519); a sample records the temperatures and the power and sets the conditions (R526, R529),
after 1 ms of a condition each die is lowered and after 10 ms of none raised (R526), and an alternating die toggles its issue; measurements replan the
supplies (R531, R532) and the plan is saved (R533). -/
def Obligations.PowerResults : Prop :=
  ∀ (s : State), hubUp s = true →
    (∀ (i : Fin 50) p, p = pdOf s i.val →
      (p.mode = 2 → (p.st = 0 ∨ p.st = 1) → pdIdle s i.val = true → exec (.pdPowerOff i) s = .next (setPd (pdContentsLost s i.val) i.val { p with st := 3, pending := false })) ∧
      ((p.mode ≠ 2 ∨ pdIdle s i.val = false) → exec (.pdPowerOff i) s = .next s) ∧
      (p.mode = 1 → p.st = 0 → pdIdle s i.val = true → exec (.pdClockStop i) s = .next (setPd s i.val { p with st := 1 })) ∧
      (p.st = 4 → exec (.pdWakeReady i) s = .next (setPd s i.val { p with st := 0 }))) ∧
    (∀ (d : Fin 16) p, p = pdOf s (2 * d.val) →
      (∃ q, exec (.clockPointChange d) s = .next (setPd s (2 * d.val) q) ∧ q = { p with point := q.point, cause := q.cause } ∧
        q.point = BitVec.ofNat 2 (max (planPoint s d.val) p.lowered.toNat)) ∧
      exec (.alternateIssueInterval d) s = .next (if p.alt then setPd s (2 * d.val) { p with issueOff := !p.issueOff } else s)) ∧
    (∀ r : ThermalReading, ∃ t, exec (.thermalSample r) s = .next t ∧ t.hub.powerW = r.power ∧ t.wv.condTemp = hotDies r.temps 100 ∧
      (t.wv.condPower = 0 ↔ r.power.toNat ≤ capW s) ∧ (∀ i, i < 50 → (pdOf t i).temp = tget 0 r.temps i) ∧
      (t.wv.coolSince.isSome ↔ t.hub.maxTemp.toNat < 95 ∧ 100 * r.power.toNat < 95 * capW s)) ∧
    ((s.wv.condTemp = 0 → s.wv.condPower = 0 → exec .throttleLower s = .next s) ∧
      ((s.wv.condTemp ≠ 0 ∨ s.wv.condPower ≠ 0) → ∃ t, exec .throttleLower s = .next t ∧
        t.wv.loweredAt = (advanceTo s (s.wv.loweredAt.toNat + 1000000)).hub.time ∧ (s.wv.condTemp ≠ 0 → t.hub.thermEvt = true) ∧ (s.wv.condPower ≠ 0 → t.hub.pwrEvt = true)) ∧
      (s.wv.coolSince = none → exec .throttleRaise s = .next s) ∧
      (∀ t0, s.wv.coolSince = some t0 → ∃ t, exec .throttleRaise s = .next t ∧ t.wv.coolSince = some (advanceTo s (t0.toNat + 10000000)).hub.time)) ∧
    (∀ r : WvReading, isPhotonic r.pd.val = false → isGroveCompute r.pd.val = false → exec (.wvMeasure [r]) s = .next (setPd s r.pd.val { pdOf s r.pd.val with
      margin := BitVec.ofNat 16 (min 0xFFFF (r.vmax - min r.vmax (ceilDiv (r.need0 + 15) 5 * 5))),
      endDays := endOf r.hours r.decline (r.vmax - min r.vmax (ceilDiv (r.need0 + 15) 5 * 5)), volt := BitVec.ofNat 12 (min r.vmax (ceilDiv (r.need0 + 15) 5 * 5)) })) ∧
    (∃ t, exec .wvPlanSave s = .next t ∧ t.pds = s.pds ∧ t.flash.bank0 = s.flash.bank0 ∧ ∀ i, i < 50 → tget {} t.flash.plan i =
      { margin := (pdOf s i).margin, endDays := (pdOf s i).endDays, limit := (pdOf s i).limit, volt := (pdOf s i).volt })

/-- Errors: the first report of a key opens a record and starts its self-test, a further one counts as a witness of the open record (R493, R495); a record
closes 10 µs after it opened and FIRST is queued, 256 waiting at most (R495, R496); the oldest goes to the host's ring while it has room (R496, R497).
A test that passes returns the structure, and one that fails, or passes a third time within an hour, fences it (R493, R494, R498). The hub fault stops
the hub and asserts ALERT_N (R507). -/
def Obligations.ErrorResults : Prop :=
  ∀ (s : State), hubUp s = true →
    (∀ (k : ErrKey) c acc, k.unit.val ≠ 2 → k.unit.val ≠ 4 → k.unit.val ≠ 5 →
      ((∀ o ∈ s.errs.opened, o.key ≠ k) → (∀ t ∈ s.errs.tests, t.key ≠ k) → keyFenced s k = false → exec (.errorReport k c none acc) s = .next { s with
        errs := { s.errs with opened := s.errs.opened ++ [{ key := k, cls := errClass c, time := s.hub.time, witness := 0, acc := acc }],
                              tests := if hasTest k c then s.errs.tests ++ [{ key := k, cls := errClass c, time := s.hub.time, acc := acc }] else s.errs.tests } }) ∧
      ((∃ o ∈ s.errs.opened, o.key = k) → exec (.errorReport k c none acc) s = .next { s with
        errs := { s.errs with opened := s.errs.opened.map (fun o => if o.key = k then
          { o with witness := o.witness + 1, acc := if o.acc = 0 then acc else o.acc } else o) } })) ∧
    (∀ k o s1 r, s.errs.opened.find? (fun o => o.key = k) = some o → (∀ t ∈ s.errs.tests, t.key ≠ k) → s1 = advanceTo s (o.time.toNat + 10000) →
      r = ({ seq := s.errs.nextSeq, time := o.time, kind := 1, cls := o.cls, outcome := 3, key := k, witness := o.witness, late := 0, acc := o.acc, link := 0 } : ERec) →
      (s.errs.heldRec.length < 256 → exec (.errRecordClose k) s = .next { s1 with errs := { s.errs with
        heldRec := s.errs.heldRec ++ [r], nextSeq := s.errs.nextSeq + 1, opened := s.errs.opened.filter (fun o => o.key ≠ k) } }) ∧
      (256 ≤ s.errs.heldRec.length → exec (.errRecordClose k) s = .next { s1 with errs := { s.errs with
        lost := true, opened := s.errs.opened.filter (fun o => o.key ≠ k) } })) ∧
    (∀ r rest n, s.errs.heldRec = r :: rest → n = 2 ^ s.errs.size.toNat → s.errs.enable = true →
      (n ≤ (s.errs.tail - s.errs.head).toNat → exec .errRecordWrite s = .next s) ∧
      ((s.errs.tail - s.errs.head).toNat < n → s.errs.vector = 0 → ∃ t, exec .errRecordWrite s = .next t ∧
        t = { hostWrite s (s.errs.base.toNat * 4096 + 64 * (r.seq % n)) (recBytes r (phase n r.seq)) with
          errs := { s.errs with heldRec := rest, tail := s.errs.tail + 1 } })) ∧
    (∀ k pass t lasting o, testFor s k = some t → t.key = k → (∀ x ∈ s.errs.opened, x.key ≠ k) → lasting = (!pass || decide (2 ≤ recentPasses s k)) →
      o = (if lasting then 2 else 1) → ∃ u, exec (.selfTestDone k pass) s = .next (if lasting then fenceKey u k else chanReturns u k) ∧
        u.errs.passes = (if pass then s.errs.passes ++ [(k, s.hub.time)] else s.errs.passes) ∧ u.errs.tests = s.errs.tests.filter (fun x => x.key ≠ k) ∧
        u.fences = s.fences ∧ (s.errs.heldRec.length < 256 → u.errs.heldRec = s.errs.heldRec ++ [outcomeRec t k o s.errs.nextSeq])) ∧
    exec .hubFault s = .next { s with hub := { s.hub with fault := true }, pins := { s.pins with alert := true } }

/-- Leases: the hub grants each half that it does not withhold one every 250 µs (R504), a lease lapses after 1 ms and its half stops its glades (R504), a
report of the hub's epoch clears the count of stale reports and the second stale one in a row withholds the lease (R506), and a withheld half that has
stopped is resynchronised with the raised epoch (R503, R506). -/
def Obligations.LeaseResults : Prop :=
  ∀ (s : State) (h : Fin 2) (x : Half), x = halfOf s h.val →
    (hubUp s = true → s.boot.devReady = true → exec .leaseGrant s = .next (grantHalf (grantHalf (advanceTo s (lastGrant s + 250000)) 0) 1)) ∧
    (x.lease = none → exec (.leaseLapse h) s = .next s) ∧
    (∀ t, x.lease = some t → exec (.leaseLapse h) s = .next
      (stopGlades (setHalf (advanceTo s (t.toNat + 1000000)) h.val { x with lease := none, stopped := true }) (inHalf h.val))) ∧
    (hubUp s = true → s.boot.devReady = true → exec (.leaseAck h s.epoch) s = .next (setHalf s h.val { x with epoch := s.epoch, stale := 0 })) ∧
    (∀ ep : BitVec 64, hubUp s = true → s.boot.devReady = true → ep.toNat < s.epoch.toNat →
      (x.stale = 0 → exec (.leaseAck h ep) s = .next (setHalf s h.val { x with epoch := ep, stale := 1 })) ∧
      (x.stale = 1 → x.withheld = false → exec (.leaseAck h ep) s = .next
        (collect (setHalf s h.val { x with epoch := ep, stale := 2, withheld := true }) ⟨9, BitVec.ofNat 16 h.val, 0⟩ .staleEpoch 0))) ∧
    (hubUp s = true → (x.withheld = false ∨ x.stopped = false) → exec (.halfResync h) s = .next s) ∧
    (∀ s3, hubUp s = true → x.withheld = true → x.stopped = true →
      s3 = clearEnded (x.lostCmds.foldl (fun s a => failLost s h.val a) (setHalf (raiseEpoch s) h.val { epoch := s.epoch + 1, lease := some s.hub.time })) h.val →
      exec (.halfResync h) s = .next (if jobRuns s3 then restartGlades s3 (inHalf h.val) else s3))

/-- Every write that has a row of its own completes for every value it carries, while BAR0 answers (R14, R538): where the value, with the bits that the
row names set or cleared, has no reserved bit set, the register takes it as R384 and R408 (RING_CFG), R475 (RING_RESET), R474, R476 and R479
(HUB_RST_CTL), R472 (DIE_GO), R488 (HUB_RESTART_CTL), R371 (PORT_CFG), R514 (PD_CTL) and R535 (HUB_WV_CAP) say; else nothing changes. The hub's own
die reset and the end of a reset of a die that is not held need no register. -/
def Obligations.RegisterRowsComplete : Prop :=
  ∀ (s : State) (v : BitVec 64), barAnswers s = true →
    exec (.ringEnable v) s = .next (if (v ||| 1) &&& rsvMask .ringCfg = 0 then writeRingCfg s (v ||| 1) else s) ∧
    exec (.ringDisable v) s = .next (if (v &&& ~~~1) &&& rsvMask .ringCfg = 0 then writeRingCfg s (v &&& ~~~1) else s) ∧
    exec (.ringReset v) s = .next (if (v ||| 1) &&& rsvMask .ringReset = 0 then ringResetNow (setRing s s.sels.ring.toNat
      { ringOf s s.sels.ring.toNat with resetDone := (ringOf s s.sels.ring.toNat).resetDone && !v.getLsbD 1 }) else s) ∧
    exec (.jobReset v) s = .next (if (v ||| 1) &&& rsvMask .rstCtl = 0 then writeRstCtl s (v ||| 1) else s) ∧
    exec (.shutdown v) s = .next (if (v ||| 2) &&& rsvMask .rstCtl = 0 then writeRstCtl s (v ||| 2) else s) ∧
    exec (.dieReset (.host v)) s = .next (if (v ||| 4) &&& rsvMask .rstCtl = 0 then writeRstCtl s (v ||| 4) else s) ∧
    (∀ d : Fin 24, exec (.dieReset (.hub d)) s = .next (if s.boot.devReady then startDieReset s d.val else s)) ∧
    (∀ (d : Fin 24) pass, s.rst.held.getLsbD d.val = false → exec (.dieResetDone d pass) s = .next s) ∧
    (∀ (d : Fin 24) s1, s.rst.held.getLsbD d.val = true → s1 = { s with rst := { s.rst with dieBusy := false, held := s.rst.held &&& ~~~(oneBit d.val) } } →
      exec (.dieResetDone d true) s = .next (if d.val < 16 then s1
        else if d.val < 20 then (List.range 8).foldl (fun s k =>
          setChan s (8 * (d.val - 16) + k) { chanOf s (8 * (d.val - 16) + k) with selfref := false }) s1
        else (List.range 8).foldl (fun s m => setPort s (8 * (d.val - 20) + m)
          { portOf s (8 * (d.val - 20) + m) with st := if (portOf s (8 * (d.val - 20) + m)).st = 4 then 1 else (portOf s (8 * (d.val - 20) + m)).st }) s1)) ∧
    exec (.restartScan v) s = .next (if (v ||| 1) &&& rsvMask .restartCtl = 0 then writeRestartCtl s (v ||| 1) else s) ∧
    exec (.portEnable v) s = .next (if (v ||| 1) &&& rsvMask .portCfg = 0 then writePortCfg s true else s) ∧
    exec (.portDisable v) s = .next (if (v &&& ~~~1) &&& rsvMask .portCfg = 0 then writePortCfg s false else s) ∧
    exec (.pdModeOn v) s = .next (if (v &&& ~~~3) &&& rsvMask .pdCtl = 0 then writePdCtl s 0 else s) ∧
    exec (.pdModeAuto v) s = .next (if (v &&& ~~~3 ||| 1) &&& rsvMask .pdCtl = 0 then writePdCtl s 1 else s) ∧
    exec (.pdModeOff v) s = .next (if (v &&& ~~~3 ||| 2) &&& rsvMask .pdCtl = 0 then writePdCtl s 2 else s) ∧
    exec (.wvCap v) s = .next (if v &&& rsvMask .wvCap = 0 then { s with wv := { s.wv with cap := v.extractLsb' 0 32 } } else s)
end

