-- ==== Sys2Proof/Laws/Answers.lean ====
section
/-! SUPPORT. Every meaning answers a next state. -/

namespace Sys2Proof.Laws

open Sys2Proof.Machine Sys2Proof.Safety

set_option linter.unusedTactic false
set_option linter.unreachableTactic false
set_option linter.unusedSimpArgs false

theorem execNop_answers (i : GI) (s : State) : answers (execNop i s) := by
  unfold answers execNop; (try dsimp only); first | exact ⟨_, rfl⟩ | (repeat (first | (split <;> try exact ⟨_, rfl⟩) | (dsimp only [onMessage, onSpdm, inSpdm, onCmd, onJob])))

theorem execHalt_answers (i : GI) (s : State) : answers (execHalt i s) := by
  unfold answers execHalt; (try dsimp only); first | exact ⟨_, rfl⟩ | (repeat (first | (split <;> try exact ⟨_, rfl⟩) | (dsimp only [onMessage, onSpdm, inSpdm, onCmd, onJob])))

theorem execHaltDone_answers (gi : Fin 128) (e : Engine) (s : State) : answers (execHaltDone gi e s) := by
  unfold answers execHaltDone; (try dsimp only); first | exact ⟨_, rfl⟩ | (repeat (first | (split <;> try exact ⟨_, rfl⟩) | (dsimp only [onMessage, onSpdm, inSpdm, onCmd, onJob])))

theorem execBr_answers (i : GI) (s : State) : answers (execBr i s) := by
  unfold answers execBr; (try dsimp only); first | exact ⟨_, rfl⟩ | (repeat (first | (split <;> try exact ⟨_, rfl⟩) | (dsimp only [onMessage, onSpdm, inSpdm, onCmd, onJob])))

theorem execLoop_answers (i : GI) (s : State) : answers (execLoop i s) := by
  unfold answers execLoop; (try dsimp only); first | exact ⟨_, rfl⟩ | (repeat (first | (split <;> try exact ⟨_, rfl⟩) | (dsimp only [onMessage, onSpdm, inSpdm, onCmd, onJob])))

theorem execCall_answers (i : GI) (s : State) : answers (execCall i s) := by
  unfold answers execCall; (try dsimp only); first | exact ⟨_, rfl⟩ | (repeat (first | (split <;> try exact ⟨_, rfl⟩) | (dsimp only [onMessage, onSpdm, inSpdm, onCmd, onJob])))

theorem execRet_answers (i : GI) (s : State) : answers (execRet i s) := by
  unfold answers execRet; (try dsimp only); first | exact ⟨_, rfl⟩ | (repeat (first | (split <;> try exact ⟨_, rfl⟩) | (dsimp only [onMessage, onSpdm, inSpdm, onCmd, onJob])))

theorem execMeet_answers (i : GI) (s : State) : answers (execMeet i s) := by
  unfold answers execMeet; (try dsimp only); first | exact ⟨_, rfl⟩ | (repeat (first | (split <;> try exact ⟨_, rfl⟩) | (dsimp only [onMessage, onSpdm, inSpdm, onCmd, onJob])))

theorem execMeetRelease_answers (gi : Fin 128) (e : Engine) (s : State) : answers (execMeetRelease gi e s) := by
  unfold answers execMeetRelease; (try dsimp only); first | exact ⟨_, rfl⟩ | (repeat (first | (split <;> try exact ⟨_, rfl⟩) | (dsimp only [onMessage, onSpdm, inSpdm, onCmd, onJob])))

theorem execMeetTimeout_answers (gi : Fin 128) (e : Engine) (s : State) : answers (execMeetTimeout gi e s) := by
  unfold answers execMeetTimeout; (try dsimp only); first | exact ⟨_, rfl⟩ | (repeat (first | (split <;> try exact ⟨_, rfl⟩) | (dsimp only [onMessage, onSpdm, inSpdm, onCmd, onJob])))

theorem execSignal_answers (i : GI) (s : State) : answers (execSignal i s) := by
  unfold answers execSignal; (try dsimp only); first | exact ⟨_, rfl⟩ | (repeat (first | (split <;> try exact ⟨_, rfl⟩) | (dsimp only [onMessage, onSpdm, inSpdm, onCmd, onJob])))

theorem execTokenEnter_answers (gi : Fin 128) (e : Engine) (q : Fin 8) (s : State) : answers (execTokenEnter gi e q s) := by
  unfold answers execTokenEnter; (try dsimp only); first | exact ⟨_, rfl⟩ | (repeat (first | (split <;> try exact ⟨_, rfl⟩) | (dsimp only [onMessage, onSpdm, inSpdm, onCmd, onJob])))

theorem execWait_answers (i : GI) (s : State) : answers (execWait i s) := by
  unfold answers execWait; (try dsimp only); first | exact ⟨_, rfl⟩ | (repeat (first | (split <;> try exact ⟨_, rfl⟩) | (dsimp only [onMessage, onSpdm, inSpdm, onCmd, onJob])))

theorem execTokenReceive_answers (gi : Fin 128) (e : Engine) (s : State) : answers (execTokenReceive gi e s) := by
  unfold answers execTokenReceive; (try dsimp only); first | exact ⟨_, rfl⟩ | (repeat (first | (split <;> try exact ⟨_, rfl⟩) | (dsimp only [onMessage, onSpdm, inSpdm, onCmd, onJob])))

theorem execDeadlock_answers (gi : Fin 128) (s : State) : answers (execDeadlock gi s) := by
  unfold answers execDeadlock; (try dsimp only); first | exact ⟨_, rfl⟩ | (repeat (first | (split <;> try exact ⟨_, rfl⟩) | (dsimp only [onMessage, onSpdm, inSpdm, onCmd, onJob])))

theorem execMov_answers (i : GI) (s : State) : answers (execMov i s) := by
  unfold answers execMov; (try dsimp only); first | exact ⟨_, rfl⟩ | (repeat (first | (split <;> try exact ⟨_, rfl⟩) | (dsimp only [onMessage, onSpdm, inSpdm, onCmd, onJob])))

theorem execAlu_answers (i : GI) (s : State) : answers (execAlu i s) := by
  unfold answers execAlu; (try dsimp only); first | exact ⟨_, rfl⟩ | (repeat (first | (split <;> try exact ⟨_, rfl⟩) | (dsimp only [onMessage, onSpdm, inSpdm, onCmd, onJob])))

theorem execCmp_answers (i : GI) (s : State) : answers (execCmp i s) := by
  unfold answers execCmp; (try dsimp only); first | exact ⟨_, rfl⟩ | (repeat (first | (split <;> try exact ⟨_, rfl⟩) | (dsimp only [onMessage, onSpdm, inSpdm, onCmd, onJob])))

theorem execTdset_answers (i : GI) (s : State) : answers (execTdset i s) := by
  unfold answers execTdset; (try dsimp only); first | exact ⟨_, rfl⟩ | (repeat (first | (split <;> try exact ⟨_, rfl⟩) | (dsimp only [onMessage, onSpdm, inSpdm, onCmd, onJob])))

theorem execTdadd_answers (i : GI) (s : State) : answers (execTdadd i s) := by
  unfold answers execTdadd; (try dsimp only); first | exact ⟨_, rfl⟩ | (repeat (first | (split <;> try exact ⟨_, rfl⟩) | (dsimp only [onMessage, onSpdm, inSpdm, onCmd, onJob])))

theorem execTdcpy_answers (i : GI) (s : State) : answers (execTdcpy i s) := by
  unfold answers execTdcpy; (try dsimp only); first | exact ⟨_, rfl⟩ | (repeat (first | (split <;> try exact ⟨_, rfl⟩) | (dsimp only [onMessage, onSpdm, inSpdm, onCmd, onJob])))

theorem execLds_answers (i : GI) (s : State) : answers (execLds i s) := by
  unfold answers execLds; (try dsimp only); first | exact ⟨_, rfl⟩ | (repeat (first | (split <;> try exact ⟨_, rfl⟩) | (dsimp only [onMessage, onSpdm, inSpdm, onCmd, onJob])))

theorem execSts_answers (i : GI) (s : State) : answers (execSts i s) := by
  unfold answers execSts; (try dsimp only); first | exact ⟨_, rfl⟩ | (repeat (first | (split <;> try exact ⟨_, rfl⟩) | (dsimp only [onMessage, onSpdm, inSpdm, onCmd, onJob])))

theorem execLdT_answers (i : GI) (s : State) : answers (execLdT i s) := by
  unfold answers execLdT; (try dsimp only); first | exact ⟨_, rfl⟩ | (repeat (first | (split <;> try exact ⟨_, rfl⟩) | (dsimp only [onMessage, onSpdm, inSpdm, onCmd, onJob])))

theorem execStT_answers (i : GI) (s : State) : answers (execStT i s) := by
  unfold answers execStT; (try dsimp only); first | exact ⟨_, rfl⟩ | (repeat (first | (split <;> try exact ⟨_, rfl⟩) | (dsimp only [onMessage, onSpdm, inSpdm, onCmd, onJob])))

theorem execLdG_answers (i : GI) (s : State) : answers (execLdG i s) := by
  unfold answers execLdG; (try dsimp only); first | exact ⟨_, rfl⟩ | (repeat (first | (split <;> try exact ⟨_, rfl⟩) | (dsimp only [onMessage, onSpdm, inSpdm, onCmd, onJob])))

theorem execPf_answers (i : GI) (s : State) : answers (execPf i s) := by
  unfold answers execPf; (try dsimp only); first | exact ⟨_, rfl⟩ | (repeat (first | (split <;> try exact ⟨_, rfl⟩) | (dsimp only [onMessage, onSpdm, inSpdm, onCmd, onJob])))

theorem execXfer_answers (i : GI) (s : State) : answers (execXfer i s) := by
  unfold answers execXfer; (try dsimp only); first | exact ⟨_, rfl⟩ | (repeat (first | (split <;> try exact ⟨_, rfl⟩) | (dsimp only [onMessage, onSpdm, inSpdm, onCmd, onJob])))

theorem execWld_answers (i : GI) (s : State) : answers (execWld i s) := by
  unfold answers execWld; (try dsimp only); first | exact ⟨_, rfl⟩ | (repeat (first | (split <;> try exact ⟨_, rfl⟩) | (dsimp only [onMessage, onSpdm, inSpdm, onCmd, onJob])))

theorem execMm_answers (i : GI) (s : State) : answers (execMm i s) := by
  unfold answers execMm; (try dsimp only); first | exact ⟨_, rfl⟩ | (repeat (first | (split <;> try exact ⟨_, rfl⟩) | (dsimp only [onMessage, onSpdm, inSpdm, onCmd, onJob])))

theorem execMmG_answers (i : GI) (s : State) : answers (execMmG i s) := by
  unfold answers execMmG; (try dsimp only); first | exact ⟨_, rfl⟩ | (repeat (first | (split <;> try exact ⟨_, rfl⟩) | (dsimp only [onMessage, onSpdm, inSpdm, onCmd, onJob])))

theorem execCvt_answers (i : GI) (s : State) : answers (execCvt i s) := by
  unfold answers execCvt; (try dsimp only); first | exact ⟨_, rfl⟩ | (repeat (first | (split <;> try exact ⟨_, rfl⟩) | (dsimp only [onMessage, onSpdm, inSpdm, onCmd, onJob])))

theorem execVop_answers (i : GI) (s : State) : answers (execVop i s) := by
  unfold answers execVop; (try dsimp only); first | exact ⟨_, rfl⟩ | (repeat (first | (split <;> try exact ⟨_, rfl⟩) | (dsimp only [onMessage, onSpdm, inSpdm, onCmd, onJob])))

theorem execSel_answers (i : GI) (s : State) : answers (execSel i s) := by
  unfold answers execSel; (try dsimp only); first | exact ⟨_, rfl⟩ | (repeat (first | (split <;> try exact ⟨_, rfl⟩) | (dsimp only [onMessage, onSpdm, inSpdm, onCmd, onJob])))

theorem execSfu_answers (i : GI) (s : State) : answers (execSfu i s) := by
  unfold answers execSfu; (try dsimp only); first | exact ⟨_, rfl⟩ | (repeat (first | (split <;> try exact ⟨_, rfl⟩) | (dsimp only [onMessage, onSpdm, inSpdm, onCmd, onJob])))

theorem execStatRd_answers (i : GI) (s : State) : answers (execStatRd i s) := by
  unfold answers execStatRd; (try dsimp only); first | exact ⟨_, rfl⟩ | (repeat (first | (split <;> try exact ⟨_, rfl⟩) | (dsimp only [onMessage, onSpdm, inSpdm, onCmd, onJob])))

theorem execRoute_answers (i : GI) (s : State) : answers (execRoute i s) := by
  unfold answers execRoute; (try dsimp only); first | exact ⟨_, rfl⟩ | (repeat (first | (split <;> try exact ⟨_, rfl⟩) | (dsimp only [onMessage, onSpdm, inSpdm, onCmd, onJob])))

theorem execRouteF_answers (i : GI) (s : State) : answers (execRouteF i s) := by
  unfold answers execRouteF; (try dsimp only); first | exact ⟨_, rfl⟩ | (repeat (first | (split <;> try exact ⟨_, rfl⟩) | (dsimp only [onMessage, onSpdm, inSpdm, onCmd, onJob])))

theorem execRed_answers (i : GI) (s : State) : answers (execRed i s) := by
  unfold answers execRed; (try dsimp only); first | exact ⟨_, rfl⟩ | (repeat (first | (split <;> try exact ⟨_, rfl⟩) | (dsimp only [onMessage, onSpdm, inSpdm, onCmd, onJob])))

theorem execGladeStop_answers (gi : Fin 128) (s : State) : answers (execGladeStop gi s) := by
  unfold answers execGladeStop; (try dsimp only); first | exact ⟨_, rfl⟩ | (repeat (first | (split <;> try exact ⟨_, rfl⟩) | (dsimp only [onMessage, onSpdm, inSpdm, onCmd, onJob])))

theorem execDoorbellWrite_answers (r : Fin 256) (visible : List Host.Cell) (sqTail cqHead : BitVec 32) (s : State) : answers (execDoorbellWrite r visible sqTail cqHead s) := by
  unfold answers execDoorbellWrite; (try dsimp only); first | exact ⟨_, rfl⟩ | (repeat (first | (split <;> try exact ⟨_, rfl⟩) | (dsimp only [onMessage, onSpdm, inSpdm, onCmd, onJob])))

theorem execDescriptorAccept_answers (r : Fin 256) (s : State) : answers (execDescriptorAccept r s) := by
  unfold answers execDescriptorAccept; (try dsimp only); first | exact ⟨_, rfl⟩ | (repeat (first | (split <;> try exact ⟨_, rfl⟩) | (dsimp only [onMessage, onSpdm, inSpdm, onCmd, onJob])))

theorem execCompletionRelease_answers (r : Fin 256) (s : State) : answers (execCompletionRelease r s) := by
  unfold answers execCompletionRelease; (try dsimp only); first | exact ⟨_, rfl⟩ | (repeat (first | (split <;> try exact ⟨_, rfl⟩) | (dsimp only [onMessage, onSpdm, inSpdm, onCmd, onJob])))

theorem execRun_answers (acc : BitVec 64) (s : State) : answers (execRun acc s) := by
  unfold answers execRun; (try dsimp only); first | exact ⟨_, rfl⟩ | (repeat (first | (split <;> try exact ⟨_, rfl⟩) | (dsimp only [onMessage, onSpdm, inSpdm, onCmd, onJob])))

theorem execAdmit_answers (acc : BitVec 64) (s : State) : answers (execAdmit acc s) := by
  unfold answers execAdmit; (try dsimp only); first | exact ⟨_, rfl⟩ | (repeat (first | (split <;> try exact ⟨_, rfl⟩) | (dsimp only [onMessage, onSpdm, inSpdm, onCmd, onJob])))

theorem execRetire_answers (acc : BitVec 64) (s : State) : answers (execRetire acc s) := by
  unfold answers execRetire; (try dsimp only); first | exact ⟨_, rfl⟩ | (repeat (first | (split <;> try exact ⟨_, rfl⟩) | (dsimp only [onMessage, onSpdm, inSpdm, onCmd, onJob])))

theorem execFrame_answers (acc : BitVec 64) (s : State) : answers (execFrame acc s) := by
  unfold answers execFrame; (try dsimp only); first | exact ⟨_, rfl⟩ | (repeat (first | (split <;> try exact ⟨_, rfl⟩) | (dsimp only [onMessage, onSpdm, inSpdm, onCmd, onJob])))

theorem execUpdate_answers (acc : BitVec 64) (s : State) : answers (execUpdate acc s) := by
  unfold answers execUpdate; (try dsimp only); first | exact ⟨_, rfl⟩ | (repeat (first | (split <;> try exact ⟨_, rfl⟩) | (dsimp only [onMessage, onSpdm, inSpdm, onCmd, onJob])))

theorem execInstall_answers (acc : BitVec 64) (s : State) : answers (execInstall acc s) := by
  unfold answers execInstall; (try dsimp only); first | exact ⟨_, rfl⟩ | (repeat (first | (split <;> try exact ⟨_, rfl⟩) | (dsimp only [onMessage, onSpdm, inSpdm, onCmd, onJob])))

theorem execHostXfer_answers (acc : BitVec 64) (s : State) : answers (execHostXfer acc s) := by
  unfold answers execHostXfer; (try dsimp only); first | exact ⟨_, rfl⟩ | (repeat (first | (split <;> try exact ⟨_, rfl⟩) | (dsimp only [onMessage, onSpdm, inSpdm, onCmd, onJob])))

theorem execAdapterPrefetch_answers (acc : BitVec 64) (s : State) : answers (execAdapterPrefetch acc s) := by
  unfold answers execAdapterPrefetch; (try dsimp only); first | exact ⟨_, rfl⟩ | (repeat (first | (split <;> try exact ⟨_, rfl⟩) | (dsimp only [onMessage, onSpdm, inSpdm, onCmd, onJob])))

theorem execAdapterEvict_answers (acc : BitVec 64) (s : State) : answers (execAdapterEvict acc s) := by
  unfold answers execAdapterEvict; (try dsimp only); first | exact ⟨_, rfl⟩ | (repeat (first | (split <;> try exact ⟨_, rfl⟩) | (dsimp only [onMessage, onSpdm, inSpdm, onCmd, onJob])))

theorem execCheckpointOut_answers (acc : BitVec 64) (s : State) : answers (execCheckpointOut acc s) := by
  unfold answers execCheckpointOut; (try dsimp only); first | exact ⟨_, rfl⟩ | (repeat (first | (split <;> try exact ⟨_, rfl⟩) | (dsimp only [onMessage, onSpdm, inSpdm, onCmd, onJob])))

theorem execCheckpointIn_answers (acc : BitVec 64) (s : State) : answers (execCheckpointIn acc s) := by
  unfold answers execCheckpointIn; (try dsimp only); first | exact ⟨_, rfl⟩ | (repeat (first | (split <;> try exact ⟨_, rfl⟩) | (dsimp only [onMessage, onSpdm, inSpdm, onCmd, onJob])))

theorem execFence_answers (acc : BitVec 64) (s : State) : answers (execFence acc s) := by
  unfold answers execFence; (try dsimp only); first | exact ⟨_, rfl⟩ | (repeat (first | (split <;> try exact ⟨_, rfl⟩) | (dsimp only [onMessage, onSpdm, inSpdm, onCmd, onJob])))

theorem execMark_answers (acc : BitVec 64) (s : State) : answers (execMark acc s) := by
  unfold answers execMark; (try dsimp only); first | exact ⟨_, rfl⟩ | (repeat (first | (split <;> try exact ⟨_, rfl⟩) | (dsimp only [onMessage, onSpdm, inSpdm, onCmd, onJob])))

theorem execJobOpen_answers (acc : BitVec 64) (s : State) : answers (execJobOpen acc s) := by
  unfold answers execJobOpen; (try dsimp only); first | exact ⟨_, rfl⟩ | (repeat (first | (split <;> try exact ⟨_, rfl⟩) | (dsimp only [onMessage, onSpdm, inSpdm, onCmd, onJob])))

theorem execJobClose_answers (acc : BitVec 64) (s : State) : answers (execJobClose acc s) := by
  unfold answers execJobClose; (try dsimp only); first | exact ⟨_, rfl⟩ | (repeat (first | (split <;> try exact ⟨_, rfl⟩) | (dsimp only [onMessage, onSpdm, inSpdm, onCmd, onJob])))

theorem execJobCloseAbort_answers (acc : BitVec 64) (s : State) : answers (execJobCloseAbort acc s) := by
  unfold answers execJobCloseAbort; (try dsimp only); first | exact ⟨_, rfl⟩ | (repeat (first | (split <;> try exact ⟨_, rfl⟩) | (dsimp only [onMessage, onSpdm, inSpdm, onCmd, onJob])))

theorem execJobPreempt_answers (acc : BitVec 64) (s : State) : answers (execJobPreempt acc s) := by
  unfold answers execJobPreempt; (try dsimp only); first | exact ⟨_, rfl⟩ | (repeat (first | (split <;> try exact ⟨_, rfl⟩) | (dsimp only [onMessage, onSpdm, inSpdm, onCmd, onJob])))

theorem execPreemptDrainEnd_answers (s : State) : answers (execPreemptDrainEnd s) := by
  unfold answers execPreemptDrainEnd; (try dsimp only); first | exact ⟨_, rfl⟩ | (repeat (first | (split <;> try exact ⟨_, rfl⟩) | (dsimp only [onMessage, onSpdm, inSpdm, onCmd, onJob])))

theorem execPreemptSaveDone_answers (s : State) : answers (execPreemptSaveDone s) := by
  unfold answers execPreemptSaveDone; (try dsimp only); first | exact ⟨_, rfl⟩ | (repeat (first | (split <;> try exact ⟨_, rfl⟩) | (dsimp only [onMessage, onSpdm, inSpdm, onCmd, onJob])))

theorem execJobResume_answers (acc : BitVec 64) (s : State) : answers (execJobResume acc s) := by
  unfold answers execJobResume; (try dsimp only); first | exact ⟨_, rfl⟩ | (repeat (first | (split <;> try exact ⟨_, rfl⟩) | (dsimp only [onMessage, onSpdm, inSpdm, onCmd, onJob])))

theorem execSegSet_answers (acc : BitVec 64) (s : State) : answers (execSegSet acc s) := by
  unfold answers execSegSet; (try dsimp only); first | exact ⟨_, rfl⟩ | (repeat (first | (split <;> try exact ⟨_, rfl⟩) | (dsimp only [onMessage, onSpdm, inSpdm, onCmd, onJob])))

theorem execProgLoad_answers (acc : BitVec 64) (s : State) : answers (execProgLoad acc s) := by
  unfold answers execProgLoad; (try dsimp only); first | exact ⟨_, rfl⟩ | (repeat (first | (split <;> try exact ⟨_, rfl⟩) | (dsimp only [onMessage, onSpdm, inSpdm, onCmd, onJob])))

theorem execBaseLoad_answers (acc : BitVec 64) (s : State) : answers (execBaseLoad acc s) := by
  unfold answers execBaseLoad; (try dsimp only); first | exact ⟨_, rfl⟩ | (repeat (first | (split <;> try exact ⟨_, rfl⟩) | (dsimp only [onMessage, onSpdm, inSpdm, onCmd, onJob])))

theorem execBaseRetire_answers (acc : BitVec 64) (s : State) : answers (execBaseRetire acc s) := by
  unfold answers execBaseRetire; (try dsimp only); first | exact ⟨_, rfl⟩ | (repeat (first | (split <;> try exact ⟨_, rfl⟩) | (dsimp only [onMessage, onSpdm, inSpdm, onCmd, onJob])))

theorem execAdapterLoad_answers (acc : BitVec 64) (s : State) : answers (execAdapterLoad acc s) := by
  unfold answers execAdapterLoad; (try dsimp only); first | exact ⟨_, rfl⟩ | (repeat (first | (split <;> try exact ⟨_, rfl⟩) | (dsimp only [onMessage, onSpdm, inSpdm, onCmd, onJob])))

theorem execAdapterSwitch_answers (acc : BitVec 64) (s : State) : answers (execAdapterSwitch acc s) := by
  unfold answers execAdapterSwitch; (try dsimp only); first | exact ⟨_, rfl⟩ | (repeat (first | (split <;> try exact ⟨_, rfl⟩) | (dsimp only [onMessage, onSpdm, inSpdm, onCmd, onJob])))

theorem execAdapterRelease_answers (acc : BitVec 64) (s : State) : answers (execAdapterRelease acc s) := by
  unfold answers execAdapterRelease; (try dsimp only); first | exact ⟨_, rfl⟩ | (repeat (first | (split <;> try exact ⟨_, rfl⟩) | (dsimp only [onMessage, onSpdm, inSpdm, onCmd, onJob])))

theorem execSlotReleaseDone_answers (ix : Fin 65536) (s : State) : answers (execSlotReleaseDone ix s) := by
  unfold answers execSlotReleaseDone; (try dsimp only); first | exact ⟨_, rfl⟩ | (repeat (first | (split <;> try exact ⟨_, rfl⟩) | (dsimp only [onMessage, onSpdm, inSpdm, onCmd, onJob])))

theorem execSlotBind_answers (acc : BitVec 64) (s : State) : answers (execSlotBind acc s) := by
  unfold answers execSlotBind; (try dsimp only); first | exact ⟨_, rfl⟩ | (repeat (first | (split <;> try exact ⟨_, rfl⟩) | (dsimp only [onMessage, onSpdm, inSpdm, onCmd, onJob])))

theorem execSlotRevoke_answers (acc : BitVec 64) (s : State) : answers (execSlotRevoke acc s) := by
  unfold answers execSlotRevoke; (try dsimp only); first | exact ⟨_, rfl⟩ | (repeat (first | (split <;> try exact ⟨_, rfl⟩) | (dsimp only [onMessage, onSpdm, inSpdm, onCmd, onJob])))

theorem execTenantSlotFree_answers (t : Fin 4096) (s : State) : answers (execTenantSlotFree t s) := by
  unfold answers execTenantSlotFree; (try dsimp only); first | exact ⟨_, rfl⟩ | (repeat (first | (split <;> try exact ⟨_, rfl⟩) | (dsimp only [onMessage, onSpdm, inSpdm, onCmd, onJob])))

theorem execStreamSet_answers (acc : BitVec 64) (s : State) : answers (execStreamSet acc s) := by
  unfold answers execStreamSet; (try dsimp only); first | exact ⟨_, rfl⟩ | (repeat (first | (split <;> try exact ⟨_, rfl⟩) | (dsimp only [onMessage, onSpdm, inSpdm, onCmd, onJob])))

theorem execDomainSet_answers (acc : BitVec 64) (s : State) : answers (execDomainSet acc s) := by
  unfold answers execDomainSet; (try dsimp only); first | exact ⟨_, rfl⟩ | (repeat (first | (split <;> try exact ⟨_, rfl⟩) | (dsimp only [onMessage, onSpdm, inSpdm, onCmd, onJob])))

theorem execStepBoundary_answers (s : State) : answers (execStepBoundary s) := by
  unfold answers execStepBoundary; (try dsimp only); first | exact ⟨_, rfl⟩ | (repeat (first | (split <;> try exact ⟨_, rfl⟩) | (dsimp only [onMessage, onSpdm, inSpdm, onCmd, onJob])))

theorem execStepStart_answers (s : State) : answers (execStepStart s) := by
  unfold answers execStepStart; (try dsimp only); first | exact ⟨_, rfl⟩ | (repeat (first | (split <;> try exact ⟨_, rfl⟩) | (dsimp only [onMessage, onSpdm, inSpdm, onCmd, onJob])))

theorem execParkLimitExpiry_answers (acc : BitVec 64) (s : State) : answers (execParkLimitExpiry acc s) := by
  unfold answers execParkLimitExpiry; (try dsimp only); first | exact ⟨_, rfl⟩ | (repeat (first | (split <;> try exact ⟨_, rfl⟩) | (dsimp only [onMessage, onSpdm, inSpdm, onCmd, onJob])))

theorem execAdapterFetchDone_answers (ix : Fin 65536) (s : State) : answers (execAdapterFetchDone ix s) := by
  unfold answers execAdapterFetchDone; (try dsimp only); first | exact ⟨_, rfl⟩ | (repeat (first | (split <;> try exact ⟨_, rfl⟩) | (dsimp only [onMessage, onSpdm, inSpdm, onCmd, onJob])))

theorem execFrameRelease_answers (acc : BitVec 64) (s : State) : answers (execFrameRelease acc s) := by
  unfold answers execFrameRelease; (try dsimp only); first | exact ⟨_, rfl⟩ | (repeat (first | (split <;> try exact ⟨_, rfl⟩) | (dsimp only [onMessage, onSpdm, inSpdm, onCmd, onJob])))

theorem execFrameDispatch_answers (acc : BitVec 64) (s : State) : answers (execFrameDispatch acc s) := by
  unfold answers execFrameDispatch; (try dsimp only); first | exact ⟨_, rfl⟩ | (repeat (first | (split <;> try exact ⟨_, rfl⟩) | (dsimp only [onMessage, onSpdm, inSpdm, onCmd, onJob])))

theorem execFrameProgramEnd_answers (acc : BitVec 64) (s : State) : answers (execFrameProgramEnd acc s) := by
  unfold answers execFrameProgramEnd; (try dsimp only); first | exact ⟨_, rfl⟩ | (repeat (first | (split <;> try exact ⟨_, rfl⟩) | (dsimp only [onMessage, onSpdm, inSpdm, onCmd, onJob])))

theorem execTransferStart_answers (id : Nat) (s : State) : answers (execTransferStart id s) := by
  unfold answers execTransferStart; (try dsimp only); first | exact ⟨_, rfl⟩ | (repeat (first | (split <;> try exact ⟨_, rfl⟩) | (dsimp only [onMessage, onSpdm, inSpdm, onCmd, onJob])))

theorem execPairBringUp_answers (a : BitVec 16) (s : State) : answers (execPairBringUp a s) := by
  unfold answers execPairBringUp; (try dsimp only); first | exact ⟨_, rfl⟩ | (repeat (first | (split <;> try exact ⟨_, rfl⟩) | (dsimp only [onMessage, onSpdm, inSpdm, onCmd, onJob])))

theorem execPairUp_answers (x : CellAt) (c : PeerCheck) (s : State) : answers (execPairUp x c s) := by
  unfold answers execPairUp; (try dsimp only); first | exact ⟨_, rfl⟩ | (repeat (first | (split <;> try exact ⟨_, rfl⟩) | (dsimp only [onMessage, onSpdm, inSpdm, onCmd, onJob])))

theorem execPairRekey_answers (a : BitVec 16) (s : State) : answers (execPairRekey a s) := by
  unfold answers execPairRekey; (try dsimp only); first | exact ⟨_, rfl⟩ | (repeat (first | (split <;> try exact ⟨_, rfl⟩) | (dsimp only [onMessage, onSpdm, inSpdm, onCmd, onJob])))

theorem execOldKeyDiscard_answers (a : BitVec 16) (s : State) : answers (execOldKeyDiscard a s) := by
  unfold answers execOldKeyDiscard; (try dsimp only); first | exact ⟨_, rfl⟩ | (repeat (first | (split <;> try exact ⟨_, rfl⟩) | (dsimp only [onMessage, onSpdm, inSpdm, onCmd, onJob])))

theorem execJobBinding_answers (x : CellAt) (b : Binding) (s : State) : answers (execJobBinding x b s) := by
  unfold answers execJobBinding; (try dsimp only); first | exact ⟨_, rfl⟩ | (repeat (first | (split <;> try exact ⟨_, rfl⟩) | (dsimp only [onMessage, onSpdm, inSpdm, onCmd, onJob])))

theorem execPortMask_answers (x : CellAt) (m : BitVec 32) (s : State) : answers (execPortMask x m s) := by
  unfold answers execPortMask; (try dsimp only); first | exact ⟨_, rfl⟩ | (repeat (first | (split <;> try exact ⟨_, rfl⟩) | (dsimp only [onMessage, onSpdm, inSpdm, onCmd, onJob])))

theorem execHeadCellReceive_answers (k : Fin 32) (h : CellHdr) (d : Head) (s : State) : answers (execHeadCellReceive k h d s) := by
  unfold answers execHeadCellReceive; (try dsimp only); first | exact ⟨_, rfl⟩ | (repeat (first | (split <;> try exact ⟨_, rfl⟩) | (dsimp only [onMessage, onSpdm, inSpdm, onCmd, onJob])))

theorem execReadRequestReceive_answers (k : Fin 32) (h : CellHdr) (d : Head) (s : State) : answers (execReadRequestReceive k h d s) := by
  unfold answers execReadRequestReceive; (try dsimp only); first | exact ⟨_, rfl⟩ | (repeat (first | (split <;> try exact ⟨_, rfl⟩) | (dsimp only [onMessage, onSpdm, inSpdm, onCmd, onJob])))

theorem execDataCellReceive_answers (k : Fin 32) (h : CellHdr) (payload : Bytes) (s : State) : answers (execDataCellReceive k h payload s) := by
  unfold answers execDataCellReceive; (try dsimp only); first | exact ⟨_, rfl⟩ | (repeat (first | (split <;> try exact ⟨_, rfl⟩) | (dsimp only [onMessage, onSpdm, inSpdm, onCmd, onJob])))

theorem execResponseCellReceive_answers (k : Fin 32) (h : CellHdr) (owner : Tag) (digest : Digest) (payload : Bytes) (s : State) : answers (execResponseCellReceive k h owner digest payload s) := by
  unfold answers execResponseCellReceive; (try dsimp only); first | exact ⟨_, rfl⟩ | (repeat (first | (split <;> try exact ⟨_, rfl⟩) | (dsimp only [onMessage, onSpdm, inSpdm, onCmd, onJob])))

theorem execCompletionResponse_answers (k : Fin 32) (h : CellHdr) (dropped strict : Bool) (s : State) : answers (execCompletionResponse k h dropped strict s) := by
  unfold answers execCompletionResponse; (try dsimp only); first | exact ⟨_, rfl⟩ | (repeat (first | (split <;> try exact ⟨_, rfl⟩) | (dsimp only [onMessage, onSpdm, inSpdm, onCmd, onJob])))

theorem execRefusalReceive_answers (k : Fin 32) (h : CellHdr) (status : Byte) (last : BitVec 19) (s : State) : answers (execRefusalReceive k h status last s) := by
  unfold answers execRefusalReceive; (try dsimp only); first | exact ⟨_, rfl⟩ | (repeat (first | (split <;> try exact ⟨_, rfl⟩) | (dsimp only [onMessage, onSpdm, inSpdm, onCmd, onJob])))

theorem execTargetPreemptedAnswer_answers (k : Fin 32) (h : CellHdr) (last : BitVec 19) (s : State) : answers (execTargetPreemptedAnswer k h last s) := by
  unfold answers execTargetPreemptedAnswer; (try dsimp only); first | exact ⟨_, rfl⟩ | (repeat (first | (split <;> try exact ⟨_, rfl⟩) | (dsimp only [onMessage, onSpdm, inSpdm, onCmd, onJob])))

theorem execPreemptedRetryTimer_answers (id : Nat) (s : State) : answers (execPreemptedRetryTimer id s) := by
  unfold answers execPreemptedRetryTimer; (try dsimp only); first | exact ⟨_, rfl⟩ | (repeat (first | (split <;> try exact ⟨_, rfl⟩) | (dsimp only [onMessage, onSpdm, inSpdm, onCmd, onJob])))

theorem execPositionQuery_answers (k : Fin 32) (h : CellHdr) (cancel : Bool) (s : State) : answers (execPositionQuery k h cancel s) := by
  unfold answers execPositionQuery; (try dsimp only); first | exact ⟨_, rfl⟩ | (repeat (first | (split <;> try exact ⟨_, rfl⟩) | (dsimp only [onMessage, onSpdm, inSpdm, onCmd, onJob])))

theorem execPositionAnswer_answers (k : Fin 32) (h : CellHdr) (last : BitVec 19) (s : State) : answers (execPositionAnswer k h last s) := by
  unfold answers execPositionAnswer; (try dsimp only); first | exact ⟨_, rfl⟩ | (repeat (first | (split <;> try exact ⟨_, rfl⟩) | (dsimp only [onMessage, onSpdm, inSpdm, onCmd, onJob])))

theorem execCompletionTimeout_answers (id : Nat) (s : State) : answers (execCompletionTimeout id s) := by
  unfold answers execCompletionTimeout; (try dsimp only); first | exact ⟨_, rfl⟩ | (repeat (first | (split <;> try exact ⟨_, rfl⟩) | (dsimp only [onMessage, onSpdm, inSpdm, onCmd, onJob])))

theorem execPositionQueryTimeout_answers (id : Nat) (s : State) : answers (execPositionQueryTimeout id s) := by
  unfold answers execPositionQueryTimeout; (try dsimp only); first | exact ⟨_, rfl⟩ | (repeat (first | (split <;> try exact ⟨_, rfl⟩) | (dsimp only [onMessage, onSpdm, inSpdm, onCmd, onJob])))

theorem execTransferRecordTimeout_answers (src : BitVec 16) (tag : BitVec 13) (s : State) : answers (execTransferRecordTimeout src tag s) := by
  unfold answers execTransferRecordTimeout; (try dsimp only); first | exact ⟨_, rfl⟩ | (repeat (first | (split <;> try exact ⟨_, rfl⟩) | (dsimp only [onMessage, onSpdm, inSpdm, onCmd, onJob])))

theorem execLinkCellSend_answers (k : Fin 32) (s : State) : answers (execLinkCellSend k s) := by
  unfold answers execLinkCellSend; (try dsimp only); first | exact ⟨_, rfl⟩ | (repeat (first | (split <;> try exact ⟨_, rfl⟩) | (dsimp only [onMessage, onSpdm, inSpdm, onCmd, onJob])))

theorem execLinkCellReceive_answers (k : Fin 32) (c : LinkCell) (s : State) : answers (execLinkCellReceive k c s) := by
  unfold answers execLinkCellReceive; (try dsimp only); first | exact ⟨_, rfl⟩ | (repeat (first | (split <;> try exact ⟨_, rfl⟩) | (dsimp only [onMessage, onSpdm, inSpdm, onCmd, onJob])))

theorem execSlotLost_answers (x : LostSlot) (s : State) : answers (execSlotLost x s) := by
  unfold answers execSlotLost; (try dsimp only); first | exact ⟨_, rfl⟩ | (repeat (first | (split <;> try exact ⟨_, rfl⟩) | (dsimp only [onMessage, onSpdm, inSpdm, onCmd, onJob])))

theorem execReplayTimeout_answers (k : Fin 32) (s : State) : answers (execReplayTimeout k s) := by
  unfold answers execReplayTimeout; (try dsimp only); first | exact ⟨_, rfl⟩ | (repeat (first | (split <;> try exact ⟨_, rfl⟩) | (dsimp only [onMessage, onSpdm, inSpdm, onCmd, onJob])))

theorem execWavelengthLockLost_answers (k : Fin 32) (w : Fin 8) (s : State) : answers (execWavelengthLockLost k w s) := by
  unfold answers execWavelengthLockLost; (try dsimp only); first | exact ⟨_, rfl⟩ | (repeat (first | (split <;> try exact ⟨_, rfl⟩) | (dsimp only [onMessage, onSpdm, inSpdm, onCmd, onJob])))

theorem execWavelengthRelock_answers (k : Fin 32) (s : State) : answers (execWavelengthRelock k s) := by
  unfold answers execWavelengthRelock; (try dsimp only); first | exact ⟨_, rfl⟩ | (repeat (first | (split <;> try exact ⟨_, rfl⟩) | (dsimp only [onMessage, onSpdm, inSpdm, onCmd, onJob])))

theorem execPortDown_answers (k : Fin 32) (s : State) : answers (execPortDown k s) := by
  unfold answers execPortDown; (try dsimp only); first | exact ⟨_, rfl⟩ | (repeat (first | (split <;> try exact ⟨_, rfl⟩) | (dsimp only [onMessage, onSpdm, inSpdm, onCmd, onJob])))

theorem execPortUp_answers (k : Fin 32) (s : State) : answers (execPortUp k s) := by
  unfold answers execPortUp; (try dsimp only); first | exact ⟨_, rfl⟩ | (repeat (first | (split <;> try exact ⟨_, rfl⟩) | (dsimp only [onMessage, onSpdm, inSpdm, onCmd, onJob])))

theorem execCreditReturn_answers (die : Fin 4) (cls : Fin 7) (s : State) : answers (execCreditReturn die cls s) := by
  unfold answers execCreditReturn; (try dsimp only); first | exact ⟨_, rfl⟩ | (repeat (first | (split <;> try exact ⟨_, rfl⟩) | (dsimp only [onMessage, onSpdm, inSpdm, onCmd, onJob])))

theorem execStagingWrite_answers (a : BitVec 30) (b : Bytes) (s : State) : answers (execStagingWrite a b s) := by
  unfold answers execStagingWrite; (try dsimp only); first | exact ⟨_, rfl⟩ | (repeat (first | (split <;> try exact ⟨_, rfl⟩) | (dsimp only [onMessage, onSpdm, inSpdm, onCmd, onJob])))

theorem execStagingRead_answers (a : BitVec 30) (n : Nat) (s : State) : answers (execStagingRead a n s) := by
  unfold answers execStagingRead; (try dsimp only); first | exact ⟨_, rfl⟩ | (repeat (first | (split <;> try exact ⟨_, rfl⟩) | (dsimp only [onMessage, onSpdm, inSpdm, onCmd, onJob])))

theorem execConfigRequest_answers (s : State) : answers (execConfigRequest s) := by
  unfold answers execConfigRequest; (try dsimp only); first | exact ⟨_, rfl⟩ | (repeat (first | (split <;> try exact ⟨_, rfl⟩) | (dsimp only [onMessage, onSpdm, inSpdm, onCmd, onJob])))

theorem execFruRead_answers (off n : Nat) (s : State) : answers (execFruRead off n s) := by
  unfold answers execFruRead; (try dsimp only); first | exact ⟨_, rfl⟩ | (repeat (first | (split <;> try exact ⟨_, rfl⟩) | (dsimp only [onMessage, onSpdm, inSpdm, onCmd, onJob])))

theorem execMctpTelemetry_answers (s : State) : answers (execMctpTelemetry s) := by
  unfold answers execMctpTelemetry; (try dsimp only); first | exact ⟨_, rfl⟩ | (repeat (first | (split <;> try exact ⟨_, rfl⟩) | (dsimp only [onMessage, onSpdm, inSpdm, onCmd, onJob])))

theorem execReport_answers (s : State) : answers (execReport s) := by
  unfold answers execReport; (try dsimp only); first | exact ⟨_, rfl⟩ | (repeat (first | (split <;> try exact ⟨_, rfl⟩) | (dsimp only [onMessage, onSpdm, inSpdm, onCmd, onJob])))

theorem execSessionOpen_answers (s : State) : answers (execSessionOpen s) := by
  unfold answers execSessionOpen; (try dsimp only); first | exact ⟨_, rfl⟩ | (repeat (first | (split <;> try exact ⟨_, rfl⟩) | (dsimp only [onMessage, onSpdm, inSpdm, onCmd, onJob])))

theorem execSessionClose_answers (s : State) : answers (execSessionClose s) := by
  unfold answers execSessionClose; (try dsimp only); first | exact ⟨_, rfl⟩ | (repeat (first | (split <;> try exact ⟨_, rfl⟩) | (dsimp only [onMessage, onSpdm, inSpdm, onCmd, onJob])))

theorem execSetPolicy_answers (s : State) : answers (execSetPolicy s) := by
  unfold answers execSetPolicy; (try dsimp only); first | exact ⟨_, rfl⟩ | (repeat (first | (split <;> try exact ⟨_, rfl⟩) | (dsimp only [onMessage, onSpdm, inSpdm, onCmd, onJob])))

theorem execSetCkptKey_answers (s : State) : answers (execSetCkptKey s) := by
  unfold answers execSetCkptKey; (try dsimp only); first | exact ⟨_, rfl⟩ | (repeat (first | (split <;> try exact ⟨_, rfl⟩) | (dsimp only [onMessage, onSpdm, inSpdm, onCmd, onJob])))

theorem execAdapterList_answers (s : State) : answers (execAdapterList s) := by
  unfold answers execAdapterList; (try dsimp only); first | exact ⟨_, rfl⟩ | (repeat (first | (split <;> try exact ⟨_, rfl⟩) | (dsimp only [onMessage, onSpdm, inSpdm, onCmd, onJob])))

theorem execProgTable_answers (s : State) : answers (execProgTable s) := by
  unfold answers execProgTable; (try dsimp only); first | exact ⟨_, rfl⟩ | (repeat (first | (split <;> try exact ⟨_, rfl⟩) | (dsimp only [onMessage, onSpdm, inSpdm, onCmd, onJob])))

theorem execJobConfig_answers (s : State) : answers (execJobConfig s) := by
  unfold answers execJobConfig; (try dsimp only); first | exact ⟨_, rfl⟩ | (repeat (first | (split <;> try exact ⟨_, rfl⟩) | (dsimp only [onMessage, onSpdm, inSpdm, onCmd, onJob])))

theorem execCertChain_answers (s : State) : answers (execCertChain s) := by
  unfold answers execCertChain; (try dsimp only); first | exact ⟨_, rfl⟩ | (repeat (first | (split <;> try exact ⟨_, rfl⟩) | (dsimp only [onMessage, onSpdm, inSpdm, onCmd, onJob])))

theorem execFwStage_answers (s : State) : answers (execFwStage s) := by
  unfold answers execFwStage; (try dsimp only); first | exact ⟨_, rfl⟩ | (repeat (first | (split <;> try exact ⟨_, rfl⟩) | (dsimp only [onMessage, onSpdm, inSpdm, onCmd, onJob])))

theorem execFwActivate_answers (check : Fin 6) (s : State) : answers (execFwActivate check s) := by
  unfold answers execFwActivate; (try dsimp only); first | exact ⟨_, rfl⟩ | (repeat (first | (split <;> try exact ⟨_, rfl⟩) | (dsimp only [onMessage, onSpdm, inSpdm, onCmd, onJob])))

theorem execFwAbandon_answers (s : State) : answers (execFwAbandon s) := by
  unfold answers execFwAbandon; (try dsimp only); first | exact ⟨_, rfl⟩ | (repeat (first | (split <;> try exact ⟨_, rfl⟩) | (dsimp only [onMessage, onSpdm, inSpdm, onCmd, onJob])))

theorem execFwCommitSvn_answers (s : State) : answers (execFwCommitSvn s) := by
  unfold answers execFwCommitSvn; (try dsimp only); first | exact ⟨_, rfl⟩ | (repeat (first | (split <;> try exact ⟨_, rfl⟩) | (dsimp only [onMessage, onSpdm, inSpdm, onCmd, onJob])))

theorem execGetVersion_answers (mctp : Bool) (s : State) : answers (execGetVersion mctp s) := by
  unfold answers execGetVersion; (try dsimp only); first | exact ⟨_, rfl⟩ | (repeat (first | (split <;> try exact ⟨_, rfl⟩) | (dsimp only [onMessage, onSpdm, inSpdm, onCmd, onJob])))

theorem execGetCapabilities_answers (mctp : Bool) (s : State) : answers (execGetCapabilities mctp s) := by
  unfold answers execGetCapabilities; (try dsimp only); first | exact ⟨_, rfl⟩ | (repeat (first | (split <;> try exact ⟨_, rfl⟩) | (dsimp only [onMessage, onSpdm, inSpdm, onCmd, onJob])))

theorem execGetDigests_answers (mctp : Bool) (s : State) : answers (execGetDigests mctp s) := by
  unfold answers execGetDigests; (try dsimp only); first | exact ⟨_, rfl⟩ | (repeat (first | (split <;> try exact ⟨_, rfl⟩) | (dsimp only [onMessage, onSpdm, inSpdm, onCmd, onJob])))

theorem execGetCertificate_answers (mctp : Bool) (slot : Byte) (offset len : BitVec 16) (s : State) : answers (execGetCertificate mctp slot offset len s) := by
  unfold answers execGetCertificate; (try dsimp only); first | exact ⟨_, rfl⟩ | (repeat (first | (split <;> try exact ⟨_, rfl⟩) | (dsimp only [onMessage, onSpdm, inSpdm, onCmd, onJob])))

theorem execChallenge_answers (mctp : Bool) (slot : Byte) (nonce : Digest) (s : State) : answers (execChallenge mctp slot nonce s) := by
  unfold answers execChallenge; (try dsimp only); first | exact ⟨_, rfl⟩ | (repeat (first | (split <;> try exact ⟨_, rfl⟩) | (dsimp only [onMessage, onSpdm, inSpdm, onCmd, onJob])))

theorem execGetMeasurements_answers (mctp : Bool) (block : Byte) (nonce : Digest) (s : State) : answers (execGetMeasurements mctp block nonce s) := by
  unfold answers execGetMeasurements; (try dsimp only); first | exact ⟨_, rfl⟩ | (repeat (first | (split <;> try exact ⟨_, rfl⟩) | (dsimp only [onMessage, onSpdm, inSpdm, onCmd, onJob])))

theorem execKeyExchange_answers (mctp : Bool) (req : BitVec 16) (k : KeyShare) (s : State) : answers (execKeyExchange mctp req k s) := by
  unfold answers execKeyExchange; (try dsimp only); first | exact ⟨_, rfl⟩ | (repeat (first | (split <;> try exact ⟨_, rfl⟩) | (dsimp only [onMessage, onSpdm, inSpdm, onCmd, onJob])))

theorem execFinish_answers (mctp : Bool) (sid : BitVec 32) (macOk : Bool) (s : State) : answers (execFinish mctp sid macOk s) := by
  unfold answers execFinish; (try dsimp only); first | exact ⟨_, rfl⟩ | (repeat (first | (split <;> try exact ⟨_, rfl⟩) | (dsimp only [onMessage, onSpdm, inSpdm, onCmd, onJob])))

theorem execHeartbeat_answers (mctp : Bool) (sid : BitVec 32) (s : State) : answers (execHeartbeat mctp sid s) := by
  unfold answers execHeartbeat; (try dsimp only); first | exact ⟨_, rfl⟩ | (repeat (first | (split <;> try exact ⟨_, rfl⟩) | (dsimp only [onMessage, onSpdm, inSpdm, onCmd, onJob])))

theorem execKeyUpdate_answers (x : SpdmAt) (op : Byte) (s : State) : answers (execKeyUpdate x op s) := by
  unfold answers execKeyUpdate; (try dsimp only); first | exact ⟨_, rfl⟩ | (repeat (first | (split <;> try exact ⟨_, rfl⟩) | (dsimp only [onMessage, onSpdm, inSpdm, onCmd, onJob])))

theorem execEndSession_answers (mctp : Bool) (sid : BitVec 32) (s : State) : answers (execEndSession mctp sid s) := by
  unfold answers execEndSession; (try dsimp only); first | exact ⟨_, rfl⟩ | (repeat (first | (split <;> try exact ⟨_, rfl⟩) | (dsimp only [onMessage, onSpdm, inSpdm, onCmd, onJob])))

theorem execIdeKm_answers (x : SpdmAt) (stream : Byte) (key : Digest) (s : State) : answers (execIdeKm x stream key s) := by
  unfold answers execIdeKm; (try dsimp only); first | exact ⟨_, rfl⟩ | (repeat (first | (split <;> try exact ⟨_, rfl⟩) | (dsimp only [onMessage, onSpdm, inSpdm, onCmd, onJob])))

theorem execSpdmUnsupportedRequest_answers (mctp : Bool) (code : Byte) (s : State) : answers (execSpdmUnsupportedRequest mctp code s) := by
  unfold answers execSpdmUnsupportedRequest; (try dsimp only); first | exact ⟨_, rfl⟩ | (repeat (first | (split <;> try exact ⟨_, rfl⟩) | (dsimp only [onMessage, onSpdm, inSpdm, onCmd, onJob])))

theorem execGetTdispVersion_answers (x : SpdmAt) (s : State) : answers (execGetTdispVersion x s) := by
  unfold answers execGetTdispVersion; (try dsimp only); first | exact ⟨_, rfl⟩ | (repeat (first | (split <;> try exact ⟨_, rfl⟩) | (dsimp only [onMessage, onSpdm, inSpdm, onCmd, onJob])))

theorem execGetTdispCapabilities_answers (x : SpdmAt) (s : State) : answers (execGetTdispCapabilities x s) := by
  unfold answers execGetTdispCapabilities; (try dsimp only); first | exact ⟨_, rfl⟩ | (repeat (first | (split <;> try exact ⟨_, rfl⟩) | (dsimp only [onMessage, onSpdm, inSpdm, onCmd, onJob])))

theorem execLockInterfaceRequest_answers (x : SpdmAt) (s : State) : answers (execLockInterfaceRequest x s) := by
  unfold answers execLockInterfaceRequest; (try dsimp only); first | exact ⟨_, rfl⟩ | (repeat (first | (split <;> try exact ⟨_, rfl⟩) | (dsimp only [onMessage, onSpdm, inSpdm, onCmd, onJob])))

theorem execGetDeviceInterfaceReport_answers (x : SpdmAt) (s : State) : answers (execGetDeviceInterfaceReport x s) := by
  unfold answers execGetDeviceInterfaceReport; (try dsimp only); first | exact ⟨_, rfl⟩ | (repeat (first | (split <;> try exact ⟨_, rfl⟩) | (dsimp only [onMessage, onSpdm, inSpdm, onCmd, onJob])))

theorem execGetDeviceInterfaceState_answers (x : SpdmAt) (s : State) : answers (execGetDeviceInterfaceState x s) := by
  unfold answers execGetDeviceInterfaceState; (try dsimp only); first | exact ⟨_, rfl⟩ | (repeat (first | (split <;> try exact ⟨_, rfl⟩) | (dsimp only [onMessage, onSpdm, inSpdm, onCmd, onJob])))

theorem execStartInterfaceRequest_answers (x : SpdmAt) (nonce : Digest) (s : State) : answers (execStartInterfaceRequest x nonce s) := by
  unfold answers execStartInterfaceRequest; (try dsimp only); first | exact ⟨_, rfl⟩ | (repeat (first | (split <;> try exact ⟨_, rfl⟩) | (dsimp only [onMessage, onSpdm, inSpdm, onCmd, onJob])))

theorem execStopInterfaceRequest_answers (x : SpdmAt) (s : State) : answers (execStopInterfaceRequest x s) := by
  unfold answers execStopInterfaceRequest; (try dsimp only); first | exact ⟨_, rfl⟩ | (repeat (first | (split <;> try exact ⟨_, rfl⟩) | (dsimp only [onMessage, onSpdm, inSpdm, onCmd, onJob])))

theorem execRegisterWrite_answers (offset : BitVec 26) (size : Nat) (value : BitVec 64) (s : State) : answers (execRegisterWrite offset size value s) := by
  unfold answers execRegisterWrite; (try dsimp only); first | exact ⟨_, rfl⟩ | (repeat (first | (split <;> try exact ⟨_, rfl⟩) | (dsimp only [onMessage, onSpdm, inSpdm, onCmd, onJob])))

theorem execRingEnable_answers (v : BitVec 64) (s : State) : answers (execRingEnable v s) := by
  unfold answers execRingEnable; (try dsimp only); first | exact ⟨_, rfl⟩ | (repeat (first | (split <;> try exact ⟨_, rfl⟩) | (dsimp only [onMessage, onSpdm, inSpdm, onCmd, onJob])))

theorem execRingDisable_answers (v : BitVec 64) (s : State) : answers (execRingDisable v s) := by
  unfold answers execRingDisable; (try dsimp only); first | exact ⟨_, rfl⟩ | (repeat (first | (split <;> try exact ⟨_, rfl⟩) | (dsimp only [onMessage, onSpdm, inSpdm, onCmd, onJob])))

theorem execRingReset_answers (v : BitVec 64) (s : State) : answers (execRingReset v s) := by
  unfold answers execRingReset; (try dsimp only); first | exact ⟨_, rfl⟩ | (repeat (first | (split <;> try exact ⟨_, rfl⟩) | (dsimp only [onMessage, onSpdm, inSpdm, onCmd, onJob])))

theorem execJobReset_answers (v : BitVec 64) (s : State) : answers (execJobReset v s) := by
  unfold answers execJobReset; (try dsimp only); first | exact ⟨_, rfl⟩ | (repeat (first | (split <;> try exact ⟨_, rfl⟩) | (dsimp only [onMessage, onSpdm, inSpdm, onCmd, onJob])))

theorem execShutdown_answers (v : BitVec 64) (s : State) : answers (execShutdown v s) := by
  unfold answers execShutdown; (try dsimp only); first | exact ⟨_, rfl⟩ | (repeat (first | (split <;> try exact ⟨_, rfl⟩) | (dsimp only [onMessage, onSpdm, inSpdm, onCmd, onJob])))

theorem execDieReset_answers (c : DieCause) (s : State) : answers (execDieReset c s) := by
  unfold answers execDieReset; (try dsimp only); first | exact ⟨_, rfl⟩ | (repeat (first | (split <;> try exact ⟨_, rfl⟩) | (dsimp only [onMessage, onSpdm, inSpdm, onCmd, onJob])))

theorem execDieResetDone_answers (die : Fin 24) (pass : Bool) (s : State) : answers (execDieResetDone die pass s) := by
  unfold answers execDieResetDone; (try dsimp only); first | exact ⟨_, rfl⟩ | (repeat (first | (split <;> try exact ⟨_, rfl⟩) | (dsimp only [onMessage, onSpdm, inSpdm, onCmd, onJob])))

theorem execRestartScan_answers (v : BitVec 64) (s : State) : answers (execRestartScan v s) := by
  unfold answers execRestartScan; (try dsimp only); first | exact ⟨_, rfl⟩ | (repeat (first | (split <;> try exact ⟨_, rfl⟩) | (dsimp only [onMessage, onSpdm, inSpdm, onCmd, onJob])))

theorem execPortEnable_answers (v : BitVec 64) (s : State) : answers (execPortEnable v s) := by
  unfold answers execPortEnable; (try dsimp only); first | exact ⟨_, rfl⟩ | (repeat (first | (split <;> try exact ⟨_, rfl⟩) | (dsimp only [onMessage, onSpdm, inSpdm, onCmd, onJob])))

theorem execPortDisable_answers (v : BitVec 64) (s : State) : answers (execPortDisable v s) := by
  unfold answers execPortDisable; (try dsimp only); first | exact ⟨_, rfl⟩ | (repeat (first | (split <;> try exact ⟨_, rfl⟩) | (dsimp only [onMessage, onSpdm, inSpdm, onCmd, onJob])))

theorem execPdModeOn_answers (v : BitVec 64) (s : State) : answers (execPdModeOn v s) := by
  unfold answers execPdModeOn; (try dsimp only); first | exact ⟨_, rfl⟩ | (repeat (first | (split <;> try exact ⟨_, rfl⟩) | (dsimp only [onMessage, onSpdm, inSpdm, onCmd, onJob])))

theorem execPdModeAuto_answers (v : BitVec 64) (s : State) : answers (execPdModeAuto v s) := by
  unfold answers execPdModeAuto; (try dsimp only); first | exact ⟨_, rfl⟩ | (repeat (first | (split <;> try exact ⟨_, rfl⟩) | (dsimp only [onMessage, onSpdm, inSpdm, onCmd, onJob])))

theorem execPdModeOff_answers (v : BitVec 64) (s : State) : answers (execPdModeOff v s) := by
  unfold answers execPdModeOff; (try dsimp only); first | exact ⟨_, rfl⟩ | (repeat (first | (split <;> try exact ⟨_, rfl⟩) | (dsimp only [onMessage, onSpdm, inSpdm, onCmd, onJob])))

theorem execPdPowerOff_answers (pd : Fin 50) (s : State) : answers (execPdPowerOff pd s) := by
  unfold answers execPdPowerOff; (try dsimp only); first | exact ⟨_, rfl⟩ | (repeat (first | (split <;> try exact ⟨_, rfl⟩) | (dsimp only [onMessage, onSpdm, inSpdm, onCmd, onJob])))

theorem execPdClockStop_answers (pd : Fin 50) (s : State) : answers (execPdClockStop pd s) := by
  unfold answers execPdClockStop; (try dsimp only); first | exact ⟨_, rfl⟩ | (repeat (first | (split <;> try exact ⟨_, rfl⟩) | (dsimp only [onMessage, onSpdm, inSpdm, onCmd, onJob])))

theorem execPdWakeReady_answers (pd : Fin 50) (s : State) : answers (execPdWakeReady pd s) := by
  unfold answers execPdWakeReady; (try dsimp only); first | exact ⟨_, rfl⟩ | (repeat (first | (split <;> try exact ⟨_, rfl⟩) | (dsimp only [onMessage, onSpdm, inSpdm, onCmd, onJob])))

theorem execWvCap_answers (v : BitVec 64) (s : State) : answers (execWvCap v s) := by
  unfold answers execWvCap; (try dsimp only); first | exact ⟨_, rfl⟩ | (repeat (first | (split <;> try exact ⟨_, rfl⟩) | (dsimp only [onMessage, onSpdm, inSpdm, onCmd, onJob])))

theorem execClockPointChange_answers (die : Fin 16) (s : State) : answers (execClockPointChange die s) := by
  unfold answers execClockPointChange; (try dsimp only); first | exact ⟨_, rfl⟩ | (repeat (first | (split <;> try exact ⟨_, rfl⟩) | (dsimp only [onMessage, onSpdm, inSpdm, onCmd, onJob])))

theorem execWvMeasure_answers (r : List WvReading) (s : State) : answers (execWvMeasure r s) := by
  unfold answers execWvMeasure; (try dsimp only); first | exact ⟨_, rfl⟩ | (repeat (first | (split <;> try exact ⟨_, rfl⟩) | (dsimp only [onMessage, onSpdm, inSpdm, onCmd, onJob])))

theorem execWvPlanSave_answers (s : State) : answers (execWvPlanSave s) := by
  unfold answers execWvPlanSave; (try dsimp only); first | exact ⟨_, rfl⟩ | (repeat (first | (split <;> try exact ⟨_, rfl⟩) | (dsimp only [onMessage, onSpdm, inSpdm, onCmd, onJob])))

theorem execThermalSample_answers (r : ThermalReading) (s : State) : answers (execThermalSample r s) := by
  unfold answers execThermalSample; (try dsimp only); first | exact ⟨_, rfl⟩ | (repeat (first | (split <;> try exact ⟨_, rfl⟩) | (dsimp only [onMessage, onSpdm, inSpdm, onCmd, onJob])))

theorem execThrottleLower_answers (s : State) : answers (execThrottleLower s) := by
  unfold answers execThrottleLower; (try dsimp only); first | exact ⟨_, rfl⟩ | (repeat (first | (split <;> try exact ⟨_, rfl⟩) | (dsimp only [onMessage, onSpdm, inSpdm, onCmd, onJob])))

theorem execThrottleRaise_answers (s : State) : answers (execThrottleRaise s) := by
  unfold answers execThrottleRaise; (try dsimp only); first | exact ⟨_, rfl⟩ | (repeat (first | (split <;> try exact ⟨_, rfl⟩) | (dsimp only [onMessage, onSpdm, inSpdm, onCmd, onJob])))

theorem execAlternateIssueInterval_answers (die : Fin 16) (s : State) : answers (execAlternateIssueInterval die s) := by
  unfold answers execAlternateIssueInterval; (try dsimp only); first | exact ⟨_, rfl⟩ | (repeat (first | (split <;> try exact ⟨_, rfl⟩) | (dsimp only [onMessage, onSpdm, inSpdm, onCmd, onJob])))

theorem execThermalTrip_answers (s : State) : answers (execThermalTrip s) := by
  unfold answers execThermalTrip; (try dsimp only); first | exact ⟨_, rfl⟩ | (repeat (first | (split <;> try exact ⟨_, rfl⟩) | (dsimp only [onMessage, onSpdm, inSpdm, onCmd, onJob])))

theorem execErrorReport_answers (k : ErrKey) (c : ErrClass) (poisoned : Option (BitVec 48)) (acc : BitVec 64) (s : State) : answers (execErrorReport k c poisoned acc s) := by
  unfold answers execErrorReport; (try dsimp only); first | exact ⟨_, rfl⟩ | (repeat (first | (split <;> try exact ⟨_, rfl⟩) | (dsimp only [onMessage, onSpdm, inSpdm, onCmd, onJob])))

theorem execErrRecordClose_answers (k : ErrKey) (s : State) : answers (execErrRecordClose k s) := by
  unfold answers execErrRecordClose; (try dsimp only); first | exact ⟨_, rfl⟩ | (repeat (first | (split <;> try exact ⟨_, rfl⟩) | (dsimp only [onMessage, onSpdm, inSpdm, onCmd, onJob])))

theorem execErrRecordWrite_answers (s : State) : answers (execErrRecordWrite s) := by
  unfold answers execErrRecordWrite; (try dsimp only); first | exact ⟨_, rfl⟩ | (repeat (first | (split <;> try exact ⟨_, rfl⟩) | (dsimp only [onMessage, onSpdm, inSpdm, onCmd, onJob])))

theorem execSelfTestDone_answers (k : ErrKey) (pass : Bool) (s : State) : answers (execSelfTestDone k pass s) := by
  unfold answers execSelfTestDone; (try dsimp only); first | exact ⟨_, rfl⟩ | (repeat (first | (split <;> try exact ⟨_, rfl⟩) | (dsimp only [onMessage, onSpdm, inSpdm, onCmd, onJob])))

theorem execLeaseGrant_answers (s : State) : answers (execLeaseGrant s) := by
  unfold answers execLeaseGrant; (try dsimp only); first | exact ⟨_, rfl⟩ | (repeat (first | (split <;> try exact ⟨_, rfl⟩) | (dsimp only [onMessage, onSpdm, inSpdm, onCmd, onJob])))

theorem execLeaseLapse_answers (h : Fin 2) (s : State) : answers (execLeaseLapse h s) := by
  unfold answers execLeaseLapse; (try dsimp only); first | exact ⟨_, rfl⟩ | (repeat (first | (split <;> try exact ⟨_, rfl⟩) | (dsimp only [onMessage, onSpdm, inSpdm, onCmd, onJob])))

theorem execLeaseAck_answers (h : Fin 2) (ep : BitVec 64) (s : State) : answers (execLeaseAck h ep s) := by
  unfold answers execLeaseAck; (try dsimp only); first | exact ⟨_, rfl⟩ | (repeat (first | (split <;> try exact ⟨_, rfl⟩) | (dsimp only [onMessage, onSpdm, inSpdm, onCmd, onJob])))

theorem execHalfResync_answers (h : Fin 2) (s : State) : answers (execHalfResync h s) := by
  unfold answers execHalfResync; (try dsimp only); first | exact ⟨_, rfl⟩ | (repeat (first | (split <;> try exact ⟨_, rfl⟩) | (dsimp only [onMessage, onSpdm, inSpdm, onCmd, onJob])))

theorem execHubFault_answers (s : State) : answers (execHubFault s) := by
  unfold answers execHubFault; (try dsimp only); first | exact ⟨_, rfl⟩ | (repeat (first | (split <;> try exact ⟨_, rfl⟩) | (dsimp only [onMessage, onSpdm, inSpdm, onCmd, onJob])))

theorem execDrbgReseed_answers (s : State) : answers (execDrbgReseed s) := by
  unfold answers execDrbgReseed; (try dsimp only); first | exact ⟨_, rfl⟩ | (repeat (first | (split <;> try exact ⟨_, rfl⟩) | (dsimp only [onMessage, onSpdm, inSpdm, onCmd, onJob])))

theorem execEphemeralKeyExpiry_answers (s : State) : answers (execEphemeralKeyExpiry s) := by
  unfold answers execEphemeralKeyExpiry; (try dsimp only); first | exact ⟨_, rfl⟩ | (repeat (first | (split <;> try exact ⟨_, rfl⟩) | (dsimp only [onMessage, onSpdm, inSpdm, onCmd, onJob])))

theorem execModPwrEnAssert_answers (s : State) : answers (execModPwrEnAssert s) := by
  unfold answers execModPwrEnAssert; (try dsimp only); first | exact ⟨_, rfl⟩ | (repeat (first | (split <;> try exact ⟨_, rfl⟩) | (dsimp only [onMessage, onSpdm, inSpdm, onCmd, onJob])))

theorem execModPwrEnDeassert_answers (s : State) : answers (execModPwrEnDeassert s) := by
  unfold answers execModPwrEnDeassert; (try dsimp only); first | exact ⟨_, rfl⟩ | (repeat (first | (split <;> try exact ⟨_, rfl⟩) | (dsimp only [onMessage, onSpdm, inSpdm, onCmd, onJob])))

theorem execPerstAssert_answers (s : State) : answers (execPerstAssert s) := by
  unfold answers execPerstAssert; (try dsimp only); first | exact ⟨_, rfl⟩ | (repeat (first | (split <;> try exact ⟨_, rfl⟩) | (dsimp only [onMessage, onSpdm, inSpdm, onCmd, onJob])))

theorem execPerstDeassert_answers (t : BootTests) (s : State) : answers (execPerstDeassert t s) := by
  unfold answers execPerstDeassert; (try dsimp only); first | exact ⟨_, rfl⟩ | (repeat (first | (split <;> try exact ⟨_, rfl⟩) | (dsimp only [onMessage, onSpdm, inSpdm, onCmd, onJob])))

theorem execInputFault_answers (s : State) : answers (execInputFault s) := by
  unfold answers execInputFault; (try dsimp only); first | exact ⟨_, rfl⟩ | (repeat (first | (split <;> try exact ⟨_, rfl⟩) | (dsimp only [onMessage, onSpdm, inSpdm, onCmd, onJob])))

theorem execWarmReset_answers (b : BankChecks) (missed : BitVec 128) (s : State) : answers (execWarmReset b missed s) := by
  unfold answers execWarmReset; (try dsimp only); first | exact ⟨_, rfl⟩ | (repeat (first | (split <;> try exact ⟨_, rfl⟩) | (dsimp only [onMessage, onSpdm, inSpdm, onCmd, onJob])))

theorem execRestoreDone_answers (s : State) : answers (execRestoreDone s) := by
  unfold answers execRestoreDone; (try dsimp only); first | exact ⟨_, rfl⟩ | (repeat (first | (split <;> try exact ⟨_, rfl⟩) | (dsimp only [onMessage, onSpdm, inSpdm, onCmd, onJob])))

end Sys2Proof.Laws
end

