-- ==== Sys2Proof/Laws/State.lean ====
section
/-! SUPPORT. Each field of the state after each named update, true by unfolding the update once. -/

namespace Sys2Proof.Laws

open Sys2Proof.Machine

/-! ### setRing -/

@[simp] theorem setRing_pins (s : State) (r : Nat) (v : Ring) : (setRing s r v).pins = s.pins := rfl
@[simp] theorem setRing_boot (s : State) (r : Nat) (v : Ring) : (setRing s r v).boot = s.boot := rfl
@[simp] theorem setRing_rst (s : State) (r : Nat) (v : Ring) : (setRing s r v).rst = s.rst := rfl
@[simp] theorem setRing_flash (s : State) (r : Nat) (v : Ring) : (setRing s r v).flash = s.flash := rfl
@[simp] theorem setRing_hub (s : State) (r : Nat) (v : Ring) : (setRing s r v).hub = s.hub := rfl
@[simp] theorem setRing_fences (s : State) (r : Nat) (v : Ring) : (setRing s r v).fences = s.fences := rfl
@[simp] theorem setRing_sels (s : State) (r : Nat) (v : Ring) : (setRing s r v).sels = s.sels := rfl
@[simp] theorem setRing_msix (s : State) (r : Nat) (v : Ring) : (setRing s r v).msix = s.msix := rfl
@[simp] theorem setRing_pba (s : State) (r : Nat) (v : Ring) : (setRing s r v).pba = s.pba := rfl
@[simp] theorem setRing_rings (s : State) (r : Nat) (v : Ring) : (setRing s r v).rings = tset {} s.rings r v := rfl
@[simp] theorem setRing_cmds (s : State) (r : Nat) (v : Ring) : (setRing s r v).cmds = s.cmds := rfl
@[simp] theorem setRing_glades (s : State) (r : Nat) (v : Ring) : (setRing s r v).glades = s.glades := rfl
@[simp] theorem setRing_chans (s : State) (r : Nat) (v : Ring) : (setRing s r v).chans = s.chans := rfl
@[simp] theorem setRing_ports (s : State) (r : Nat) (v : Ring) : (setRing s r v).ports = s.ports := rfl
@[simp] theorem setRing_pds (s : State) (r : Nat) (v : Ring) : (setRing s r v).pds = s.pds := rfl
@[simp] theorem setRing_wv (s : State) (r : Nat) (v : Ring) : (setRing s r v).wv = s.wv := rfl
@[simp] theorem setRing_errs (s : State) (r : Nat) (v : Ring) : (setRing s r v).errs = s.errs := rfl
@[simp] theorem setRing_epoch (s : State) (r : Nat) (v : Ring) : (setRing s r v).epoch = s.epoch := rfl
@[simp] theorem setRing_halves (s : State) (r : Nat) (v : Ring) : (setRing s r v).halves = s.halves := rfl
@[simp] theorem setRing_rgr (s : State) (r : Nat) (v : Ring) : (setRing s r v).rgr = s.rgr := rfl
@[simp] theorem setRing_spdm (s : State) (r : Nat) (v : Ring) : (setRing s r v).spdm = s.spdm := rfl
@[simp] theorem setRing_fab (s : State) (r : Nat) (v : Ring) : (setRing s r v).fab = s.fab := rfl
@[simp] theorem setRing_credits (s : State) (r : Nat) (v : Ring) : (setRing s r v).credits = s.credits := rfl
@[simp] theorem setRing_job (s : State) (r : Nat) (v : Ring) : (setRing s r v).job = s.job := rfl
@[simp] theorem setRing_saved (s : State) (r : Nat) (v : Ring) : (setRing s r v).saved = s.saved := rfl
@[simp] theorem setRing_mem (s : State) (r : Nat) (v : Ring) : (setRing s r v).mem = s.mem := rfl
@[simp] theorem setRing_tags (s : State) (r : Nat) (v : Ring) : (setRing s r v).tags = s.tags := rfl
@[simp] theorem setRing_seals (s : State) (r : Nat) (v : Ring) : (setRing s r v).seals = s.seals := rfl
@[simp] theorem setRing_poison (s : State) (r : Nat) (v : Ring) : (setRing s r v).poison = s.poison := rfl
@[simp] theorem setRing_raw (s : State) (r : Nat) (v : Ring) : (setRing s r v).raw = s.raw := rfl
@[simp] theorem setRing_kcache (s : State) (r : Nat) (v : Ring) : (setRing s r v).kcache = s.kcache := rfl
@[simp] theorem setRing_link (s : State) (r : Nat) (v : Ring) : (setRing s r v).link = s.link := rfl
@[simp] theorem setRing_domShow (s : State) (r : Nat) (v : Ring) : (setRing s r v).domShow = s.domShow := rfl
@[simp] theorem setRing_ccache (s : State) (r : Nat) (v : Ring) : (setRing s r v).ccache = s.ccache := rfl
@[simp] theorem setRing_host (s : State) (r : Nat) (v : Ring) : (setRing s r v).host = s.host := rfl
@[simp] theorem setRing_out (s : State) (r : Nat) (v : Ring) : (setRing s r v).out = s.out := rfl
@[simp] theorem setRing_free (s : State) (r : Nat) (v : Ring) : (setRing s r v).free = s.free := rfl
@[simp] theorem setRing_pending (s : State) (r : Nat) (v : Ring) : (setRing s r v).pending = s.pending := rfl

/-! ### setGlade -/

@[simp] theorem setGlade_pins (s : State) (g : Nat) (v : Glade) : (setGlade s g v).pins = s.pins := rfl
@[simp] theorem setGlade_boot (s : State) (g : Nat) (v : Glade) : (setGlade s g v).boot = s.boot := rfl
@[simp] theorem setGlade_rst (s : State) (g : Nat) (v : Glade) : (setGlade s g v).rst = s.rst := rfl
@[simp] theorem setGlade_flash (s : State) (g : Nat) (v : Glade) : (setGlade s g v).flash = s.flash := rfl
@[simp] theorem setGlade_hub (s : State) (g : Nat) (v : Glade) : (setGlade s g v).hub = s.hub := rfl
@[simp] theorem setGlade_fences (s : State) (g : Nat) (v : Glade) : (setGlade s g v).fences = s.fences := rfl
@[simp] theorem setGlade_sels (s : State) (g : Nat) (v : Glade) : (setGlade s g v).sels = s.sels := rfl
@[simp] theorem setGlade_msix (s : State) (g : Nat) (v : Glade) : (setGlade s g v).msix = s.msix := rfl
@[simp] theorem setGlade_pba (s : State) (g : Nat) (v : Glade) : (setGlade s g v).pba = s.pba := rfl
@[simp] theorem setGlade_rings (s : State) (g : Nat) (v : Glade) : (setGlade s g v).rings = s.rings := rfl
@[simp] theorem setGlade_cmds (s : State) (g : Nat) (v : Glade) : (setGlade s g v).cmds = s.cmds := rfl
@[simp] theorem setGlade_glades (s : State) (g : Nat) (v : Glade) : (setGlade s g v).glades = tset {} s.glades g v := rfl
@[simp] theorem setGlade_chans (s : State) (g : Nat) (v : Glade) : (setGlade s g v).chans = s.chans := rfl
@[simp] theorem setGlade_ports (s : State) (g : Nat) (v : Glade) : (setGlade s g v).ports = s.ports := rfl
@[simp] theorem setGlade_pds (s : State) (g : Nat) (v : Glade) : (setGlade s g v).pds = s.pds := rfl
@[simp] theorem setGlade_wv (s : State) (g : Nat) (v : Glade) : (setGlade s g v).wv = s.wv := rfl
@[simp] theorem setGlade_errs (s : State) (g : Nat) (v : Glade) : (setGlade s g v).errs = s.errs := rfl
@[simp] theorem setGlade_epoch (s : State) (g : Nat) (v : Glade) : (setGlade s g v).epoch = s.epoch := rfl
@[simp] theorem setGlade_halves (s : State) (g : Nat) (v : Glade) : (setGlade s g v).halves = s.halves := rfl
@[simp] theorem setGlade_rgr (s : State) (g : Nat) (v : Glade) : (setGlade s g v).rgr = s.rgr := rfl
@[simp] theorem setGlade_spdm (s : State) (g : Nat) (v : Glade) : (setGlade s g v).spdm = s.spdm := rfl
@[simp] theorem setGlade_fab (s : State) (g : Nat) (v : Glade) : (setGlade s g v).fab = s.fab := rfl
@[simp] theorem setGlade_credits (s : State) (g : Nat) (v : Glade) : (setGlade s g v).credits = s.credits := rfl
@[simp] theorem setGlade_job (s : State) (g : Nat) (v : Glade) : (setGlade s g v).job = s.job := rfl
@[simp] theorem setGlade_saved (s : State) (g : Nat) (v : Glade) : (setGlade s g v).saved = s.saved := rfl
@[simp] theorem setGlade_mem (s : State) (g : Nat) (v : Glade) : (setGlade s g v).mem = s.mem := rfl
@[simp] theorem setGlade_tags (s : State) (g : Nat) (v : Glade) : (setGlade s g v).tags = s.tags := rfl
@[simp] theorem setGlade_seals (s : State) (g : Nat) (v : Glade) : (setGlade s g v).seals = s.seals := rfl
@[simp] theorem setGlade_poison (s : State) (g : Nat) (v : Glade) : (setGlade s g v).poison = s.poison := rfl
@[simp] theorem setGlade_raw (s : State) (g : Nat) (v : Glade) : (setGlade s g v).raw = s.raw := rfl
@[simp] theorem setGlade_kcache (s : State) (g : Nat) (v : Glade) : (setGlade s g v).kcache = s.kcache := rfl
@[simp] theorem setGlade_link (s : State) (g : Nat) (v : Glade) : (setGlade s g v).link = s.link := rfl
@[simp] theorem setGlade_domShow (s : State) (g : Nat) (v : Glade) : (setGlade s g v).domShow = s.domShow := rfl
@[simp] theorem setGlade_ccache (s : State) (g : Nat) (v : Glade) : (setGlade s g v).ccache = s.ccache := rfl
@[simp] theorem setGlade_host (s : State) (g : Nat) (v : Glade) : (setGlade s g v).host = s.host := rfl
@[simp] theorem setGlade_out (s : State) (g : Nat) (v : Glade) : (setGlade s g v).out = s.out := rfl
@[simp] theorem setGlade_free (s : State) (g : Nat) (v : Glade) : (setGlade s g v).free = s.free := rfl
@[simp] theorem setGlade_pending (s : State) (g : Nat) (v : Glade) : (setGlade s g v).pending = s.pending := rfl

/-! ### setCur -/

@[simp] theorem setCur_pins (s : State) (i : GI) (e : Eng) : (setCur s i e).pins = s.pins := rfl
@[simp] theorem setCur_boot (s : State) (i : GI) (e : Eng) : (setCur s i e).boot = s.boot := rfl
@[simp] theorem setCur_rst (s : State) (i : GI) (e : Eng) : (setCur s i e).rst = s.rst := rfl
@[simp] theorem setCur_flash (s : State) (i : GI) (e : Eng) : (setCur s i e).flash = s.flash := rfl
@[simp] theorem setCur_hub (s : State) (i : GI) (e : Eng) : (setCur s i e).hub = s.hub := rfl
@[simp] theorem setCur_fences (s : State) (i : GI) (e : Eng) : (setCur s i e).fences = s.fences := rfl
@[simp] theorem setCur_sels (s : State) (i : GI) (e : Eng) : (setCur s i e).sels = s.sels := rfl
@[simp] theorem setCur_msix (s : State) (i : GI) (e : Eng) : (setCur s i e).msix = s.msix := rfl
@[simp] theorem setCur_pba (s : State) (i : GI) (e : Eng) : (setCur s i e).pba = s.pba := rfl
@[simp] theorem setCur_rings (s : State) (i : GI) (e : Eng) : (setCur s i e).rings = s.rings := rfl
@[simp] theorem setCur_cmds (s : State) (i : GI) (e : Eng) : (setCur s i e).cmds = s.cmds := rfl
@[simp] theorem setCur_glades (s : State) (i : GI) (e : Eng) : (setCur s i e).glades = tset {} s.glades i.glade.val (setEng (gladeOf s i.glade.val) i.eng e) := rfl
@[simp] theorem setCur_chans (s : State) (i : GI) (e : Eng) : (setCur s i e).chans = s.chans := rfl
@[simp] theorem setCur_ports (s : State) (i : GI) (e : Eng) : (setCur s i e).ports = s.ports := rfl
@[simp] theorem setCur_pds (s : State) (i : GI) (e : Eng) : (setCur s i e).pds = s.pds := rfl
@[simp] theorem setCur_wv (s : State) (i : GI) (e : Eng) : (setCur s i e).wv = s.wv := rfl
@[simp] theorem setCur_errs (s : State) (i : GI) (e : Eng) : (setCur s i e).errs = s.errs := rfl
@[simp] theorem setCur_epoch (s : State) (i : GI) (e : Eng) : (setCur s i e).epoch = s.epoch := rfl
@[simp] theorem setCur_halves (s : State) (i : GI) (e : Eng) : (setCur s i e).halves = s.halves := rfl
@[simp] theorem setCur_rgr (s : State) (i : GI) (e : Eng) : (setCur s i e).rgr = s.rgr := rfl
@[simp] theorem setCur_spdm (s : State) (i : GI) (e : Eng) : (setCur s i e).spdm = s.spdm := rfl
@[simp] theorem setCur_fab (s : State) (i : GI) (e : Eng) : (setCur s i e).fab = s.fab := rfl
@[simp] theorem setCur_credits (s : State) (i : GI) (e : Eng) : (setCur s i e).credits = s.credits := rfl
@[simp] theorem setCur_job (s : State) (i : GI) (e : Eng) : (setCur s i e).job = s.job := rfl
@[simp] theorem setCur_saved (s : State) (i : GI) (e : Eng) : (setCur s i e).saved = s.saved := rfl
@[simp] theorem setCur_mem (s : State) (i : GI) (e : Eng) : (setCur s i e).mem = s.mem := rfl
@[simp] theorem setCur_tags (s : State) (i : GI) (e : Eng) : (setCur s i e).tags = s.tags := rfl
@[simp] theorem setCur_seals (s : State) (i : GI) (e : Eng) : (setCur s i e).seals = s.seals := rfl
@[simp] theorem setCur_poison (s : State) (i : GI) (e : Eng) : (setCur s i e).poison = s.poison := rfl
@[simp] theorem setCur_raw (s : State) (i : GI) (e : Eng) : (setCur s i e).raw = s.raw := rfl
@[simp] theorem setCur_kcache (s : State) (i : GI) (e : Eng) : (setCur s i e).kcache = s.kcache := rfl
@[simp] theorem setCur_link (s : State) (i : GI) (e : Eng) : (setCur s i e).link = s.link := rfl
@[simp] theorem setCur_domShow (s : State) (i : GI) (e : Eng) : (setCur s i e).domShow = s.domShow := rfl
@[simp] theorem setCur_ccache (s : State) (i : GI) (e : Eng) : (setCur s i e).ccache = s.ccache := rfl
@[simp] theorem setCur_host (s : State) (i : GI) (e : Eng) : (setCur s i e).host = s.host := rfl
@[simp] theorem setCur_out (s : State) (i : GI) (e : Eng) : (setCur s i e).out = s.out := rfl
@[simp] theorem setCur_free (s : State) (i : GI) (e : Eng) : (setCur s i e).free = s.free := rfl
@[simp] theorem setCur_pending (s : State) (i : GI) (e : Eng) : (setCur s i e).pending = s.pending := rfl

/-! ### setChan -/

@[simp] theorem setChan_pins (s : State) (c : Nat) (v : Chan) : (setChan s c v).pins = s.pins := rfl
@[simp] theorem setChan_boot (s : State) (c : Nat) (v : Chan) : (setChan s c v).boot = s.boot := rfl
@[simp] theorem setChan_rst (s : State) (c : Nat) (v : Chan) : (setChan s c v).rst = s.rst := rfl
@[simp] theorem setChan_flash (s : State) (c : Nat) (v : Chan) : (setChan s c v).flash = s.flash := rfl
@[simp] theorem setChan_hub (s : State) (c : Nat) (v : Chan) : (setChan s c v).hub = s.hub := rfl
@[simp] theorem setChan_fences (s : State) (c : Nat) (v : Chan) : (setChan s c v).fences = s.fences := rfl
@[simp] theorem setChan_sels (s : State) (c : Nat) (v : Chan) : (setChan s c v).sels = s.sels := rfl
@[simp] theorem setChan_msix (s : State) (c : Nat) (v : Chan) : (setChan s c v).msix = s.msix := rfl
@[simp] theorem setChan_pba (s : State) (c : Nat) (v : Chan) : (setChan s c v).pba = s.pba := rfl
@[simp] theorem setChan_rings (s : State) (c : Nat) (v : Chan) : (setChan s c v).rings = s.rings := rfl
@[simp] theorem setChan_cmds (s : State) (c : Nat) (v : Chan) : (setChan s c v).cmds = s.cmds := rfl
@[simp] theorem setChan_glades (s : State) (c : Nat) (v : Chan) : (setChan s c v).glades = s.glades := rfl
@[simp] theorem setChan_chans (s : State) (c : Nat) (v : Chan) : (setChan s c v).chans = tset {} s.chans c v := rfl
@[simp] theorem setChan_ports (s : State) (c : Nat) (v : Chan) : (setChan s c v).ports = s.ports := rfl
@[simp] theorem setChan_pds (s : State) (c : Nat) (v : Chan) : (setChan s c v).pds = s.pds := rfl
@[simp] theorem setChan_wv (s : State) (c : Nat) (v : Chan) : (setChan s c v).wv = s.wv := rfl
@[simp] theorem setChan_errs (s : State) (c : Nat) (v : Chan) : (setChan s c v).errs = s.errs := rfl
@[simp] theorem setChan_epoch (s : State) (c : Nat) (v : Chan) : (setChan s c v).epoch = s.epoch := rfl
@[simp] theorem setChan_halves (s : State) (c : Nat) (v : Chan) : (setChan s c v).halves = s.halves := rfl
@[simp] theorem setChan_rgr (s : State) (c : Nat) (v : Chan) : (setChan s c v).rgr = s.rgr := rfl
@[simp] theorem setChan_spdm (s : State) (c : Nat) (v : Chan) : (setChan s c v).spdm = s.spdm := rfl
@[simp] theorem setChan_fab (s : State) (c : Nat) (v : Chan) : (setChan s c v).fab = s.fab := rfl
@[simp] theorem setChan_credits (s : State) (c : Nat) (v : Chan) : (setChan s c v).credits = s.credits := rfl
@[simp] theorem setChan_job (s : State) (c : Nat) (v : Chan) : (setChan s c v).job = s.job := rfl
@[simp] theorem setChan_saved (s : State) (c : Nat) (v : Chan) : (setChan s c v).saved = s.saved := rfl
@[simp] theorem setChan_mem (s : State) (c : Nat) (v : Chan) : (setChan s c v).mem = s.mem := rfl
@[simp] theorem setChan_tags (s : State) (c : Nat) (v : Chan) : (setChan s c v).tags = s.tags := rfl
@[simp] theorem setChan_seals (s : State) (c : Nat) (v : Chan) : (setChan s c v).seals = s.seals := rfl
@[simp] theorem setChan_poison (s : State) (c : Nat) (v : Chan) : (setChan s c v).poison = s.poison := rfl
@[simp] theorem setChan_raw (s : State) (c : Nat) (v : Chan) : (setChan s c v).raw = s.raw := rfl
@[simp] theorem setChan_kcache (s : State) (c : Nat) (v : Chan) : (setChan s c v).kcache = s.kcache := rfl
@[simp] theorem setChan_link (s : State) (c : Nat) (v : Chan) : (setChan s c v).link = s.link := rfl
@[simp] theorem setChan_domShow (s : State) (c : Nat) (v : Chan) : (setChan s c v).domShow = s.domShow := rfl
@[simp] theorem setChan_ccache (s : State) (c : Nat) (v : Chan) : (setChan s c v).ccache = s.ccache := rfl
@[simp] theorem setChan_host (s : State) (c : Nat) (v : Chan) : (setChan s c v).host = s.host := rfl
@[simp] theorem setChan_out (s : State) (c : Nat) (v : Chan) : (setChan s c v).out = s.out := rfl
@[simp] theorem setChan_free (s : State) (c : Nat) (v : Chan) : (setChan s c v).free = s.free := rfl
@[simp] theorem setChan_pending (s : State) (c : Nat) (v : Chan) : (setChan s c v).pending = s.pending := rfl

/-! ### setPort -/

@[simp] theorem setPort_pins (s : State) (p : Nat) (v : Port) : (setPort s p v).pins = s.pins := rfl
@[simp] theorem setPort_boot (s : State) (p : Nat) (v : Port) : (setPort s p v).boot = s.boot := rfl
@[simp] theorem setPort_rst (s : State) (p : Nat) (v : Port) : (setPort s p v).rst = s.rst := rfl
@[simp] theorem setPort_flash (s : State) (p : Nat) (v : Port) : (setPort s p v).flash = s.flash := rfl
@[simp] theorem setPort_hub (s : State) (p : Nat) (v : Port) : (setPort s p v).hub = s.hub := rfl
@[simp] theorem setPort_fences (s : State) (p : Nat) (v : Port) : (setPort s p v).fences = s.fences := rfl
@[simp] theorem setPort_sels (s : State) (p : Nat) (v : Port) : (setPort s p v).sels = s.sels := rfl
@[simp] theorem setPort_msix (s : State) (p : Nat) (v : Port) : (setPort s p v).msix = s.msix := rfl
@[simp] theorem setPort_pba (s : State) (p : Nat) (v : Port) : (setPort s p v).pba = s.pba := rfl
@[simp] theorem setPort_rings (s : State) (p : Nat) (v : Port) : (setPort s p v).rings = s.rings := rfl
@[simp] theorem setPort_cmds (s : State) (p : Nat) (v : Port) : (setPort s p v).cmds = s.cmds := rfl
@[simp] theorem setPort_glades (s : State) (p : Nat) (v : Port) : (setPort s p v).glades = s.glades := rfl
@[simp] theorem setPort_chans (s : State) (p : Nat) (v : Port) : (setPort s p v).chans = s.chans := rfl
@[simp] theorem setPort_ports (s : State) (p : Nat) (v : Port) : (setPort s p v).ports = tset {} s.ports p v := rfl
@[simp] theorem setPort_pds (s : State) (p : Nat) (v : Port) : (setPort s p v).pds = s.pds := rfl
@[simp] theorem setPort_wv (s : State) (p : Nat) (v : Port) : (setPort s p v).wv = s.wv := rfl
@[simp] theorem setPort_errs (s : State) (p : Nat) (v : Port) : (setPort s p v).errs = s.errs := rfl
@[simp] theorem setPort_epoch (s : State) (p : Nat) (v : Port) : (setPort s p v).epoch = s.epoch := rfl
@[simp] theorem setPort_halves (s : State) (p : Nat) (v : Port) : (setPort s p v).halves = s.halves := rfl
@[simp] theorem setPort_rgr (s : State) (p : Nat) (v : Port) : (setPort s p v).rgr = s.rgr := rfl
@[simp] theorem setPort_spdm (s : State) (p : Nat) (v : Port) : (setPort s p v).spdm = s.spdm := rfl
@[simp] theorem setPort_fab (s : State) (p : Nat) (v : Port) : (setPort s p v).fab = s.fab := rfl
@[simp] theorem setPort_credits (s : State) (p : Nat) (v : Port) : (setPort s p v).credits = s.credits := rfl
@[simp] theorem setPort_job (s : State) (p : Nat) (v : Port) : (setPort s p v).job = s.job := rfl
@[simp] theorem setPort_saved (s : State) (p : Nat) (v : Port) : (setPort s p v).saved = s.saved := rfl
@[simp] theorem setPort_mem (s : State) (p : Nat) (v : Port) : (setPort s p v).mem = s.mem := rfl
@[simp] theorem setPort_tags (s : State) (p : Nat) (v : Port) : (setPort s p v).tags = s.tags := rfl
@[simp] theorem setPort_seals (s : State) (p : Nat) (v : Port) : (setPort s p v).seals = s.seals := rfl
@[simp] theorem setPort_poison (s : State) (p : Nat) (v : Port) : (setPort s p v).poison = s.poison := rfl
@[simp] theorem setPort_raw (s : State) (p : Nat) (v : Port) : (setPort s p v).raw = s.raw := rfl
@[simp] theorem setPort_kcache (s : State) (p : Nat) (v : Port) : (setPort s p v).kcache = s.kcache := rfl
@[simp] theorem setPort_link (s : State) (p : Nat) (v : Port) : (setPort s p v).link = s.link := rfl
@[simp] theorem setPort_domShow (s : State) (p : Nat) (v : Port) : (setPort s p v).domShow = s.domShow := rfl
@[simp] theorem setPort_ccache (s : State) (p : Nat) (v : Port) : (setPort s p v).ccache = s.ccache := rfl
@[simp] theorem setPort_host (s : State) (p : Nat) (v : Port) : (setPort s p v).host = s.host := rfl
@[simp] theorem setPort_out (s : State) (p : Nat) (v : Port) : (setPort s p v).out = s.out := rfl
@[simp] theorem setPort_free (s : State) (p : Nat) (v : Port) : (setPort s p v).free = s.free := rfl
@[simp] theorem setPort_pending (s : State) (p : Nat) (v : Port) : (setPort s p v).pending = s.pending := rfl

/-! ### setPd -/

@[simp] theorem setPd_pins (s : State) (i : Nat) (v : Pd) : (setPd s i v).pins = s.pins := rfl
@[simp] theorem setPd_boot (s : State) (i : Nat) (v : Pd) : (setPd s i v).boot = s.boot := rfl
@[simp] theorem setPd_rst (s : State) (i : Nat) (v : Pd) : (setPd s i v).rst = s.rst := rfl
@[simp] theorem setPd_flash (s : State) (i : Nat) (v : Pd) : (setPd s i v).flash = s.flash := rfl
@[simp] theorem setPd_hub (s : State) (i : Nat) (v : Pd) : (setPd s i v).hub = s.hub := rfl
@[simp] theorem setPd_fences (s : State) (i : Nat) (v : Pd) : (setPd s i v).fences = s.fences := rfl
@[simp] theorem setPd_sels (s : State) (i : Nat) (v : Pd) : (setPd s i v).sels = s.sels := rfl
@[simp] theorem setPd_msix (s : State) (i : Nat) (v : Pd) : (setPd s i v).msix = s.msix := rfl
@[simp] theorem setPd_pba (s : State) (i : Nat) (v : Pd) : (setPd s i v).pba = s.pba := rfl
@[simp] theorem setPd_rings (s : State) (i : Nat) (v : Pd) : (setPd s i v).rings = s.rings := rfl
@[simp] theorem setPd_cmds (s : State) (i : Nat) (v : Pd) : (setPd s i v).cmds = s.cmds := rfl
@[simp] theorem setPd_glades (s : State) (i : Nat) (v : Pd) : (setPd s i v).glades = s.glades := rfl
@[simp] theorem setPd_chans (s : State) (i : Nat) (v : Pd) : (setPd s i v).chans = s.chans := rfl
@[simp] theorem setPd_ports (s : State) (i : Nat) (v : Pd) : (setPd s i v).ports = s.ports := rfl
@[simp] theorem setPd_pds (s : State) (i : Nat) (v : Pd) : (setPd s i v).pds = tset (pdInit i) s.pds i v := rfl
@[simp] theorem setPd_wv (s : State) (i : Nat) (v : Pd) : (setPd s i v).wv = s.wv := rfl
@[simp] theorem setPd_errs (s : State) (i : Nat) (v : Pd) : (setPd s i v).errs = s.errs := rfl
@[simp] theorem setPd_epoch (s : State) (i : Nat) (v : Pd) : (setPd s i v).epoch = s.epoch := rfl
@[simp] theorem setPd_halves (s : State) (i : Nat) (v : Pd) : (setPd s i v).halves = s.halves := rfl
@[simp] theorem setPd_rgr (s : State) (i : Nat) (v : Pd) : (setPd s i v).rgr = s.rgr := rfl
@[simp] theorem setPd_spdm (s : State) (i : Nat) (v : Pd) : (setPd s i v).spdm = s.spdm := rfl
@[simp] theorem setPd_fab (s : State) (i : Nat) (v : Pd) : (setPd s i v).fab = s.fab := rfl
@[simp] theorem setPd_credits (s : State) (i : Nat) (v : Pd) : (setPd s i v).credits = s.credits := rfl
@[simp] theorem setPd_job (s : State) (i : Nat) (v : Pd) : (setPd s i v).job = s.job := rfl
@[simp] theorem setPd_saved (s : State) (i : Nat) (v : Pd) : (setPd s i v).saved = s.saved := rfl
@[simp] theorem setPd_mem (s : State) (i : Nat) (v : Pd) : (setPd s i v).mem = s.mem := rfl
@[simp] theorem setPd_tags (s : State) (i : Nat) (v : Pd) : (setPd s i v).tags = s.tags := rfl
@[simp] theorem setPd_seals (s : State) (i : Nat) (v : Pd) : (setPd s i v).seals = s.seals := rfl
@[simp] theorem setPd_poison (s : State) (i : Nat) (v : Pd) : (setPd s i v).poison = s.poison := rfl
@[simp] theorem setPd_raw (s : State) (i : Nat) (v : Pd) : (setPd s i v).raw = s.raw := rfl
@[simp] theorem setPd_kcache (s : State) (i : Nat) (v : Pd) : (setPd s i v).kcache = s.kcache := rfl
@[simp] theorem setPd_link (s : State) (i : Nat) (v : Pd) : (setPd s i v).link = s.link := rfl
@[simp] theorem setPd_domShow (s : State) (i : Nat) (v : Pd) : (setPd s i v).domShow = s.domShow := rfl
@[simp] theorem setPd_ccache (s : State) (i : Nat) (v : Pd) : (setPd s i v).ccache = s.ccache := rfl
@[simp] theorem setPd_host (s : State) (i : Nat) (v : Pd) : (setPd s i v).host = s.host := rfl
@[simp] theorem setPd_out (s : State) (i : Nat) (v : Pd) : (setPd s i v).out = s.out := rfl
@[simp] theorem setPd_free (s : State) (i : Nat) (v : Pd) : (setPd s i v).free = s.free := rfl
@[simp] theorem setPd_pending (s : State) (i : Nat) (v : Pd) : (setPd s i v).pending = s.pending := rfl

/-! ### setHalf -/

@[simp] theorem setHalf_pins (s : State) (h : Nat) (v : Half) : (setHalf s h v).pins = s.pins := rfl
@[simp] theorem setHalf_boot (s : State) (h : Nat) (v : Half) : (setHalf s h v).boot = s.boot := rfl
@[simp] theorem setHalf_rst (s : State) (h : Nat) (v : Half) : (setHalf s h v).rst = s.rst := rfl
@[simp] theorem setHalf_flash (s : State) (h : Nat) (v : Half) : (setHalf s h v).flash = s.flash := rfl
@[simp] theorem setHalf_hub (s : State) (h : Nat) (v : Half) : (setHalf s h v).hub = s.hub := rfl
@[simp] theorem setHalf_fences (s : State) (h : Nat) (v : Half) : (setHalf s h v).fences = s.fences := rfl
@[simp] theorem setHalf_sels (s : State) (h : Nat) (v : Half) : (setHalf s h v).sels = s.sels := rfl
@[simp] theorem setHalf_msix (s : State) (h : Nat) (v : Half) : (setHalf s h v).msix = s.msix := rfl
@[simp] theorem setHalf_pba (s : State) (h : Nat) (v : Half) : (setHalf s h v).pba = s.pba := rfl
@[simp] theorem setHalf_rings (s : State) (h : Nat) (v : Half) : (setHalf s h v).rings = s.rings := rfl
@[simp] theorem setHalf_cmds (s : State) (h : Nat) (v : Half) : (setHalf s h v).cmds = s.cmds := rfl
@[simp] theorem setHalf_glades (s : State) (h : Nat) (v : Half) : (setHalf s h v).glades = s.glades := rfl
@[simp] theorem setHalf_chans (s : State) (h : Nat) (v : Half) : (setHalf s h v).chans = s.chans := rfl
@[simp] theorem setHalf_ports (s : State) (h : Nat) (v : Half) : (setHalf s h v).ports = s.ports := rfl
@[simp] theorem setHalf_pds (s : State) (h : Nat) (v : Half) : (setHalf s h v).pds = s.pds := rfl
@[simp] theorem setHalf_wv (s : State) (h : Nat) (v : Half) : (setHalf s h v).wv = s.wv := rfl
@[simp] theorem setHalf_errs (s : State) (h : Nat) (v : Half) : (setHalf s h v).errs = s.errs := rfl
@[simp] theorem setHalf_epoch (s : State) (h : Nat) (v : Half) : (setHalf s h v).epoch = s.epoch := rfl
@[simp] theorem setHalf_halves (s : State) (h : Nat) (v : Half) : (setHalf s h v).halves = tset {} s.halves h v := rfl
@[simp] theorem setHalf_rgr (s : State) (h : Nat) (v : Half) : (setHalf s h v).rgr = s.rgr := rfl
@[simp] theorem setHalf_spdm (s : State) (h : Nat) (v : Half) : (setHalf s h v).spdm = s.spdm := rfl
@[simp] theorem setHalf_fab (s : State) (h : Nat) (v : Half) : (setHalf s h v).fab = s.fab := rfl
@[simp] theorem setHalf_credits (s : State) (h : Nat) (v : Half) : (setHalf s h v).credits = s.credits := rfl
@[simp] theorem setHalf_job (s : State) (h : Nat) (v : Half) : (setHalf s h v).job = s.job := rfl
@[simp] theorem setHalf_saved (s : State) (h : Nat) (v : Half) : (setHalf s h v).saved = s.saved := rfl
@[simp] theorem setHalf_mem (s : State) (h : Nat) (v : Half) : (setHalf s h v).mem = s.mem := rfl
@[simp] theorem setHalf_tags (s : State) (h : Nat) (v : Half) : (setHalf s h v).tags = s.tags := rfl
@[simp] theorem setHalf_seals (s : State) (h : Nat) (v : Half) : (setHalf s h v).seals = s.seals := rfl
@[simp] theorem setHalf_poison (s : State) (h : Nat) (v : Half) : (setHalf s h v).poison = s.poison := rfl
@[simp] theorem setHalf_raw (s : State) (h : Nat) (v : Half) : (setHalf s h v).raw = s.raw := rfl
@[simp] theorem setHalf_kcache (s : State) (h : Nat) (v : Half) : (setHalf s h v).kcache = s.kcache := rfl
@[simp] theorem setHalf_link (s : State) (h : Nat) (v : Half) : (setHalf s h v).link = s.link := rfl
@[simp] theorem setHalf_domShow (s : State) (h : Nat) (v : Half) : (setHalf s h v).domShow = s.domShow := rfl
@[simp] theorem setHalf_ccache (s : State) (h : Nat) (v : Half) : (setHalf s h v).ccache = s.ccache := rfl
@[simp] theorem setHalf_host (s : State) (h : Nat) (v : Half) : (setHalf s h v).host = s.host := rfl
@[simp] theorem setHalf_out (s : State) (h : Nat) (v : Half) : (setHalf s h v).out = s.out := rfl
@[simp] theorem setHalf_free (s : State) (h : Nat) (v : Half) : (setHalf s h v).free = s.free := rfl
@[simp] theorem setHalf_pending (s : State) (h : Nat) (v : Half) : (setHalf s h v).pending = s.pending := rfl

/-! ### setSeal -/

@[simp] theorem setSeal_pins (s : State) (l : Nat) (v : Option Seal) : (setSeal s l v).pins = s.pins := rfl
@[simp] theorem setSeal_boot (s : State) (l : Nat) (v : Option Seal) : (setSeal s l v).boot = s.boot := rfl
@[simp] theorem setSeal_rst (s : State) (l : Nat) (v : Option Seal) : (setSeal s l v).rst = s.rst := rfl
@[simp] theorem setSeal_flash (s : State) (l : Nat) (v : Option Seal) : (setSeal s l v).flash = s.flash := rfl
@[simp] theorem setSeal_hub (s : State) (l : Nat) (v : Option Seal) : (setSeal s l v).hub = s.hub := rfl
@[simp] theorem setSeal_fences (s : State) (l : Nat) (v : Option Seal) : (setSeal s l v).fences = s.fences := rfl
@[simp] theorem setSeal_sels (s : State) (l : Nat) (v : Option Seal) : (setSeal s l v).sels = s.sels := rfl
@[simp] theorem setSeal_msix (s : State) (l : Nat) (v : Option Seal) : (setSeal s l v).msix = s.msix := rfl
@[simp] theorem setSeal_pba (s : State) (l : Nat) (v : Option Seal) : (setSeal s l v).pba = s.pba := rfl
@[simp] theorem setSeal_rings (s : State) (l : Nat) (v : Option Seal) : (setSeal s l v).rings = s.rings := rfl
@[simp] theorem setSeal_cmds (s : State) (l : Nat) (v : Option Seal) : (setSeal s l v).cmds = s.cmds := rfl
@[simp] theorem setSeal_glades (s : State) (l : Nat) (v : Option Seal) : (setSeal s l v).glades = s.glades := rfl
@[simp] theorem setSeal_chans (s : State) (l : Nat) (v : Option Seal) : (setSeal s l v).chans = s.chans := rfl
@[simp] theorem setSeal_ports (s : State) (l : Nat) (v : Option Seal) : (setSeal s l v).ports = s.ports := rfl
@[simp] theorem setSeal_pds (s : State) (l : Nat) (v : Option Seal) : (setSeal s l v).pds = s.pds := rfl
@[simp] theorem setSeal_wv (s : State) (l : Nat) (v : Option Seal) : (setSeal s l v).wv = s.wv := rfl
@[simp] theorem setSeal_errs (s : State) (l : Nat) (v : Option Seal) : (setSeal s l v).errs = s.errs := rfl
@[simp] theorem setSeal_epoch (s : State) (l : Nat) (v : Option Seal) : (setSeal s l v).epoch = s.epoch := rfl
@[simp] theorem setSeal_halves (s : State) (l : Nat) (v : Option Seal) : (setSeal s l v).halves = s.halves := rfl
@[simp] theorem setSeal_rgr (s : State) (l : Nat) (v : Option Seal) : (setSeal s l v).rgr = s.rgr := rfl
@[simp] theorem setSeal_spdm (s : State) (l : Nat) (v : Option Seal) : (setSeal s l v).spdm = s.spdm := rfl
@[simp] theorem setSeal_fab (s : State) (l : Nat) (v : Option Seal) : (setSeal s l v).fab = s.fab := rfl
@[simp] theorem setSeal_credits (s : State) (l : Nat) (v : Option Seal) : (setSeal s l v).credits = s.credits := rfl
@[simp] theorem setSeal_job (s : State) (l : Nat) (v : Option Seal) : (setSeal s l v).job = s.job := rfl
@[simp] theorem setSeal_saved (s : State) (l : Nat) (v : Option Seal) : (setSeal s l v).saved = s.saved := rfl
@[simp] theorem setSeal_mem (s : State) (l : Nat) (v : Option Seal) : (setSeal s l v).mem = s.mem := rfl
@[simp] theorem setSeal_tags (s : State) (l : Nat) (v : Option Seal) : (setSeal s l v).tags = s.tags := rfl
@[simp] theorem setSeal_seals (s : State) (l : Nat) (v : Option Seal) : (setSeal s l v).seals = tset none s.seals l v := rfl
@[simp] theorem setSeal_poison (s : State) (l : Nat) (v : Option Seal) : (setSeal s l v).poison = s.poison := rfl
@[simp] theorem setSeal_raw (s : State) (l : Nat) (v : Option Seal) : (setSeal s l v).raw = s.raw := rfl
@[simp] theorem setSeal_kcache (s : State) (l : Nat) (v : Option Seal) : (setSeal s l v).kcache = s.kcache := rfl
@[simp] theorem setSeal_link (s : State) (l : Nat) (v : Option Seal) : (setSeal s l v).link = s.link := rfl
@[simp] theorem setSeal_domShow (s : State) (l : Nat) (v : Option Seal) : (setSeal s l v).domShow = s.domShow := rfl
@[simp] theorem setSeal_ccache (s : State) (l : Nat) (v : Option Seal) : (setSeal s l v).ccache = s.ccache := rfl
@[simp] theorem setSeal_host (s : State) (l : Nat) (v : Option Seal) : (setSeal s l v).host = s.host := rfl
@[simp] theorem setSeal_out (s : State) (l : Nat) (v : Option Seal) : (setSeal s l v).out = s.out := rfl
@[simp] theorem setSeal_free (s : State) (l : Nat) (v : Option Seal) : (setSeal s l v).free = s.free := rfl
@[simp] theorem setSeal_pending (s : State) (l : Nat) (v : Option Seal) : (setSeal s l v).pending = s.pending := rfl

/-! ### setTag -/

@[simp] theorem setTag_pins (s : State) (l : Nat) (t : Tag) : (setTag s l t).pins = s.pins := rfl
@[simp] theorem setTag_boot (s : State) (l : Nat) (t : Tag) : (setTag s l t).boot = s.boot := rfl
@[simp] theorem setTag_rst (s : State) (l : Nat) (t : Tag) : (setTag s l t).rst = s.rst := rfl
@[simp] theorem setTag_flash (s : State) (l : Nat) (t : Tag) : (setTag s l t).flash = s.flash := rfl
@[simp] theorem setTag_hub (s : State) (l : Nat) (t : Tag) : (setTag s l t).hub = s.hub := rfl
@[simp] theorem setTag_fences (s : State) (l : Nat) (t : Tag) : (setTag s l t).fences = s.fences := rfl
@[simp] theorem setTag_sels (s : State) (l : Nat) (t : Tag) : (setTag s l t).sels = s.sels := rfl
@[simp] theorem setTag_msix (s : State) (l : Nat) (t : Tag) : (setTag s l t).msix = s.msix := rfl
@[simp] theorem setTag_pba (s : State) (l : Nat) (t : Tag) : (setTag s l t).pba = s.pba := rfl
@[simp] theorem setTag_rings (s : State) (l : Nat) (t : Tag) : (setTag s l t).rings = s.rings := rfl
@[simp] theorem setTag_cmds (s : State) (l : Nat) (t : Tag) : (setTag s l t).cmds = s.cmds := rfl
@[simp] theorem setTag_glades (s : State) (l : Nat) (t : Tag) : (setTag s l t).glades = s.glades := rfl
@[simp] theorem setTag_chans (s : State) (l : Nat) (t : Tag) : (setTag s l t).chans = s.chans := rfl
@[simp] theorem setTag_ports (s : State) (l : Nat) (t : Tag) : (setTag s l t).ports = s.ports := rfl
@[simp] theorem setTag_pds (s : State) (l : Nat) (t : Tag) : (setTag s l t).pds = s.pds := rfl
@[simp] theorem setTag_wv (s : State) (l : Nat) (t : Tag) : (setTag s l t).wv = s.wv := rfl
@[simp] theorem setTag_errs (s : State) (l : Nat) (t : Tag) : (setTag s l t).errs = s.errs := rfl
@[simp] theorem setTag_epoch (s : State) (l : Nat) (t : Tag) : (setTag s l t).epoch = s.epoch := rfl
@[simp] theorem setTag_halves (s : State) (l : Nat) (t : Tag) : (setTag s l t).halves = s.halves := rfl
@[simp] theorem setTag_rgr (s : State) (l : Nat) (t : Tag) : (setTag s l t).rgr = s.rgr := rfl
@[simp] theorem setTag_spdm (s : State) (l : Nat) (t : Tag) : (setTag s l t).spdm = s.spdm := rfl
@[simp] theorem setTag_fab (s : State) (l : Nat) (t : Tag) : (setTag s l t).fab = s.fab := rfl
@[simp] theorem setTag_credits (s : State) (l : Nat) (t : Tag) : (setTag s l t).credits = s.credits := rfl
@[simp] theorem setTag_job (s : State) (l : Nat) (t : Tag) : (setTag s l t).job = s.job := rfl
@[simp] theorem setTag_saved (s : State) (l : Nat) (t : Tag) : (setTag s l t).saved = s.saved := rfl
@[simp] theorem setTag_mem (s : State) (l : Nat) (t : Tag) : (setTag s l t).mem = s.mem := rfl
@[simp] theorem setTag_tags (s : State) (l : Nat) (t : Tag) : (setTag s l t).tags = tset tagPublic s.tags l t := rfl
@[simp] theorem setTag_seals (s : State) (l : Nat) (t : Tag) : (setTag s l t).seals = s.seals := rfl
@[simp] theorem setTag_poison (s : State) (l : Nat) (t : Tag) : (setTag s l t).poison = s.poison := rfl
@[simp] theorem setTag_raw (s : State) (l : Nat) (t : Tag) : (setTag s l t).raw = s.raw := rfl
@[simp] theorem setTag_kcache (s : State) (l : Nat) (t : Tag) : (setTag s l t).kcache = s.kcache := rfl
@[simp] theorem setTag_link (s : State) (l : Nat) (t : Tag) : (setTag s l t).link = s.link := rfl
@[simp] theorem setTag_domShow (s : State) (l : Nat) (t : Tag) : (setTag s l t).domShow = s.domShow := rfl
@[simp] theorem setTag_ccache (s : State) (l : Nat) (t : Tag) : (setTag s l t).ccache = s.ccache := rfl
@[simp] theorem setTag_host (s : State) (l : Nat) (t : Tag) : (setTag s l t).host = s.host := rfl
@[simp] theorem setTag_out (s : State) (l : Nat) (t : Tag) : (setTag s l t).out = s.out := rfl
@[simp] theorem setTag_free (s : State) (l : Nat) (t : Tag) : (setTag s l t).free = s.free := rfl
@[simp] theorem setTag_pending (s : State) (l : Nat) (t : Tag) : (setTag s l t).pending = s.pending := rfl

/-! ### setJob -/

@[simp] theorem setJob_pins (s : State) (j : Job) : (setJob s j).pins = s.pins := rfl
@[simp] theorem setJob_boot (s : State) (j : Job) : (setJob s j).boot = s.boot := rfl
@[simp] theorem setJob_rst (s : State) (j : Job) : (setJob s j).rst = s.rst := rfl
@[simp] theorem setJob_flash (s : State) (j : Job) : (setJob s j).flash = s.flash := rfl
@[simp] theorem setJob_hub (s : State) (j : Job) : (setJob s j).hub = s.hub := rfl
@[simp] theorem setJob_fences (s : State) (j : Job) : (setJob s j).fences = s.fences := rfl
@[simp] theorem setJob_sels (s : State) (j : Job) : (setJob s j).sels = s.sels := rfl
@[simp] theorem setJob_msix (s : State) (j : Job) : (setJob s j).msix = s.msix := rfl
@[simp] theorem setJob_pba (s : State) (j : Job) : (setJob s j).pba = s.pba := rfl
@[simp] theorem setJob_rings (s : State) (j : Job) : (setJob s j).rings = s.rings := rfl
@[simp] theorem setJob_cmds (s : State) (j : Job) : (setJob s j).cmds = s.cmds := rfl
@[simp] theorem setJob_glades (s : State) (j : Job) : (setJob s j).glades = s.glades := rfl
@[simp] theorem setJob_chans (s : State) (j : Job) : (setJob s j).chans = s.chans := rfl
@[simp] theorem setJob_ports (s : State) (j : Job) : (setJob s j).ports = s.ports := rfl
@[simp] theorem setJob_pds (s : State) (j : Job) : (setJob s j).pds = s.pds := rfl
@[simp] theorem setJob_wv (s : State) (j : Job) : (setJob s j).wv = s.wv := rfl
@[simp] theorem setJob_errs (s : State) (j : Job) : (setJob s j).errs = s.errs := rfl
@[simp] theorem setJob_epoch (s : State) (j : Job) : (setJob s j).epoch = s.epoch := rfl
@[simp] theorem setJob_halves (s : State) (j : Job) : (setJob s j).halves = s.halves := rfl
@[simp] theorem setJob_rgr (s : State) (j : Job) : (setJob s j).rgr = s.rgr := rfl
@[simp] theorem setJob_spdm (s : State) (j : Job) : (setJob s j).spdm = s.spdm := rfl
@[simp] theorem setJob_fab (s : State) (j : Job) : (setJob s j).fab = s.fab := rfl
@[simp] theorem setJob_credits (s : State) (j : Job) : (setJob s j).credits = s.credits := rfl
@[simp] theorem setJob_job (s : State) (j : Job) : (setJob s j).job = some j := rfl
@[simp] theorem setJob_saved (s : State) (j : Job) : (setJob s j).saved = s.saved := rfl
@[simp] theorem setJob_mem (s : State) (j : Job) : (setJob s j).mem = s.mem := rfl
@[simp] theorem setJob_tags (s : State) (j : Job) : (setJob s j).tags = s.tags := rfl
@[simp] theorem setJob_seals (s : State) (j : Job) : (setJob s j).seals = s.seals := rfl
@[simp] theorem setJob_poison (s : State) (j : Job) : (setJob s j).poison = s.poison := rfl
@[simp] theorem setJob_raw (s : State) (j : Job) : (setJob s j).raw = s.raw := rfl
@[simp] theorem setJob_kcache (s : State) (j : Job) : (setJob s j).kcache = s.kcache := rfl
@[simp] theorem setJob_link (s : State) (j : Job) : (setJob s j).link = s.link := rfl
@[simp] theorem setJob_domShow (s : State) (j : Job) : (setJob s j).domShow = s.domShow := rfl
@[simp] theorem setJob_ccache (s : State) (j : Job) : (setJob s j).ccache = s.ccache := rfl
@[simp] theorem setJob_host (s : State) (j : Job) : (setJob s j).host = s.host := rfl
@[simp] theorem setJob_out (s : State) (j : Job) : (setJob s j).out = s.out := rfl
@[simp] theorem setJob_free (s : State) (j : Job) : (setJob s j).free = s.free := rfl
@[simp] theorem setJob_pending (s : State) (j : Job) : (setJob s j).pending = s.pending := rfl

/-! ### emit -/

@[simp] theorem emit_pins (s : State) (o : Out) : (emit s o).pins = s.pins := rfl
@[simp] theorem emit_boot (s : State) (o : Out) : (emit s o).boot = s.boot := rfl
@[simp] theorem emit_rst (s : State) (o : Out) : (emit s o).rst = s.rst := rfl
@[simp] theorem emit_flash (s : State) (o : Out) : (emit s o).flash = s.flash := rfl
@[simp] theorem emit_hub (s : State) (o : Out) : (emit s o).hub = s.hub := rfl
@[simp] theorem emit_fences (s : State) (o : Out) : (emit s o).fences = s.fences := rfl
@[simp] theorem emit_sels (s : State) (o : Out) : (emit s o).sels = s.sels := rfl
@[simp] theorem emit_msix (s : State) (o : Out) : (emit s o).msix = s.msix := rfl
@[simp] theorem emit_pba (s : State) (o : Out) : (emit s o).pba = s.pba := rfl
@[simp] theorem emit_rings (s : State) (o : Out) : (emit s o).rings = s.rings := rfl
@[simp] theorem emit_cmds (s : State) (o : Out) : (emit s o).cmds = s.cmds := rfl
@[simp] theorem emit_glades (s : State) (o : Out) : (emit s o).glades = s.glades := rfl
@[simp] theorem emit_chans (s : State) (o : Out) : (emit s o).chans = s.chans := rfl
@[simp] theorem emit_ports (s : State) (o : Out) : (emit s o).ports = s.ports := rfl
@[simp] theorem emit_pds (s : State) (o : Out) : (emit s o).pds = s.pds := rfl
@[simp] theorem emit_wv (s : State) (o : Out) : (emit s o).wv = s.wv := rfl
@[simp] theorem emit_errs (s : State) (o : Out) : (emit s o).errs = s.errs := rfl
@[simp] theorem emit_epoch (s : State) (o : Out) : (emit s o).epoch = s.epoch := rfl
@[simp] theorem emit_halves (s : State) (o : Out) : (emit s o).halves = s.halves := rfl
@[simp] theorem emit_rgr (s : State) (o : Out) : (emit s o).rgr = s.rgr := rfl
@[simp] theorem emit_spdm (s : State) (o : Out) : (emit s o).spdm = s.spdm := rfl
@[simp] theorem emit_fab (s : State) (o : Out) : (emit s o).fab = s.fab := rfl
@[simp] theorem emit_credits (s : State) (o : Out) : (emit s o).credits = s.credits := rfl
@[simp] theorem emit_job (s : State) (o : Out) : (emit s o).job = s.job := rfl
@[simp] theorem emit_saved (s : State) (o : Out) : (emit s o).saved = s.saved := rfl
@[simp] theorem emit_mem (s : State) (o : Out) : (emit s o).mem = s.mem := rfl
@[simp] theorem emit_tags (s : State) (o : Out) : (emit s o).tags = s.tags := rfl
@[simp] theorem emit_seals (s : State) (o : Out) : (emit s o).seals = s.seals := rfl
@[simp] theorem emit_poison (s : State) (o : Out) : (emit s o).poison = s.poison := rfl
@[simp] theorem emit_raw (s : State) (o : Out) : (emit s o).raw = s.raw := rfl
@[simp] theorem emit_kcache (s : State) (o : Out) : (emit s o).kcache = s.kcache := rfl
@[simp] theorem emit_link (s : State) (o : Out) : (emit s o).link = s.link := rfl
@[simp] theorem emit_domShow (s : State) (o : Out) : (emit s o).domShow = s.domShow := rfl
@[simp] theorem emit_ccache (s : State) (o : Out) : (emit s o).ccache = s.ccache := rfl
@[simp] theorem emit_host (s : State) (o : Out) : (emit s o).host = s.host := rfl
@[simp] theorem emit_out (s : State) (o : Out) : (emit s o).out = s.out ++ [o] := rfl
@[simp] theorem emit_free (s : State) (o : Out) : (emit s o).free = s.free := rfl
@[simp] theorem emit_pending (s : State) (o : Out) : (emit s o).pending = s.pending := rfl

/-! ### updCmd -/

@[simp] theorem updCmd_pins (s : State) (a : BitVec 64) (f : Cmd → Cmd) : (updCmd s a f).pins = s.pins := rfl
@[simp] theorem updCmd_boot (s : State) (a : BitVec 64) (f : Cmd → Cmd) : (updCmd s a f).boot = s.boot := rfl
@[simp] theorem updCmd_rst (s : State) (a : BitVec 64) (f : Cmd → Cmd) : (updCmd s a f).rst = s.rst := rfl
@[simp] theorem updCmd_flash (s : State) (a : BitVec 64) (f : Cmd → Cmd) : (updCmd s a f).flash = s.flash := rfl
@[simp] theorem updCmd_hub (s : State) (a : BitVec 64) (f : Cmd → Cmd) : (updCmd s a f).hub = s.hub := rfl
@[simp] theorem updCmd_fences (s : State) (a : BitVec 64) (f : Cmd → Cmd) : (updCmd s a f).fences = s.fences := rfl
@[simp] theorem updCmd_sels (s : State) (a : BitVec 64) (f : Cmd → Cmd) : (updCmd s a f).sels = s.sels := rfl
@[simp] theorem updCmd_msix (s : State) (a : BitVec 64) (f : Cmd → Cmd) : (updCmd s a f).msix = s.msix := rfl
@[simp] theorem updCmd_pba (s : State) (a : BitVec 64) (f : Cmd → Cmd) : (updCmd s a f).pba = s.pba := rfl
@[simp] theorem updCmd_rings (s : State) (a : BitVec 64) (f : Cmd → Cmd) : (updCmd s a f).rings = s.rings := rfl
@[simp] theorem updCmd_cmds (s : State) (a : BitVec 64) (f : Cmd → Cmd) : (updCmd s a f).cmds = s.cmds.map (fun c => if c.acc = a then f c else c) := rfl
@[simp] theorem updCmd_glades (s : State) (a : BitVec 64) (f : Cmd → Cmd) : (updCmd s a f).glades = s.glades := rfl
@[simp] theorem updCmd_chans (s : State) (a : BitVec 64) (f : Cmd → Cmd) : (updCmd s a f).chans = s.chans := rfl
@[simp] theorem updCmd_ports (s : State) (a : BitVec 64) (f : Cmd → Cmd) : (updCmd s a f).ports = s.ports := rfl
@[simp] theorem updCmd_pds (s : State) (a : BitVec 64) (f : Cmd → Cmd) : (updCmd s a f).pds = s.pds := rfl
@[simp] theorem updCmd_wv (s : State) (a : BitVec 64) (f : Cmd → Cmd) : (updCmd s a f).wv = s.wv := rfl
@[simp] theorem updCmd_errs (s : State) (a : BitVec 64) (f : Cmd → Cmd) : (updCmd s a f).errs = s.errs := rfl
@[simp] theorem updCmd_epoch (s : State) (a : BitVec 64) (f : Cmd → Cmd) : (updCmd s a f).epoch = s.epoch := rfl
@[simp] theorem updCmd_halves (s : State) (a : BitVec 64) (f : Cmd → Cmd) : (updCmd s a f).halves = s.halves := rfl
@[simp] theorem updCmd_rgr (s : State) (a : BitVec 64) (f : Cmd → Cmd) : (updCmd s a f).rgr = s.rgr := rfl
@[simp] theorem updCmd_spdm (s : State) (a : BitVec 64) (f : Cmd → Cmd) : (updCmd s a f).spdm = s.spdm := rfl
@[simp] theorem updCmd_fab (s : State) (a : BitVec 64) (f : Cmd → Cmd) : (updCmd s a f).fab = s.fab := rfl
@[simp] theorem updCmd_credits (s : State) (a : BitVec 64) (f : Cmd → Cmd) : (updCmd s a f).credits = s.credits := rfl
@[simp] theorem updCmd_job (s : State) (a : BitVec 64) (f : Cmd → Cmd) : (updCmd s a f).job = s.job := rfl
@[simp] theorem updCmd_saved (s : State) (a : BitVec 64) (f : Cmd → Cmd) : (updCmd s a f).saved = s.saved := rfl
@[simp] theorem updCmd_mem (s : State) (a : BitVec 64) (f : Cmd → Cmd) : (updCmd s a f).mem = s.mem := rfl
@[simp] theorem updCmd_tags (s : State) (a : BitVec 64) (f : Cmd → Cmd) : (updCmd s a f).tags = s.tags := rfl
@[simp] theorem updCmd_seals (s : State) (a : BitVec 64) (f : Cmd → Cmd) : (updCmd s a f).seals = s.seals := rfl
@[simp] theorem updCmd_poison (s : State) (a : BitVec 64) (f : Cmd → Cmd) : (updCmd s a f).poison = s.poison := rfl
@[simp] theorem updCmd_raw (s : State) (a : BitVec 64) (f : Cmd → Cmd) : (updCmd s a f).raw = s.raw := rfl
@[simp] theorem updCmd_kcache (s : State) (a : BitVec 64) (f : Cmd → Cmd) : (updCmd s a f).kcache = s.kcache := rfl
@[simp] theorem updCmd_link (s : State) (a : BitVec 64) (f : Cmd → Cmd) : (updCmd s a f).link = s.link := rfl
@[simp] theorem updCmd_domShow (s : State) (a : BitVec 64) (f : Cmd → Cmd) : (updCmd s a f).domShow = s.domShow := rfl
@[simp] theorem updCmd_ccache (s : State) (a : BitVec 64) (f : Cmd → Cmd) : (updCmd s a f).ccache = s.ccache := rfl
@[simp] theorem updCmd_host (s : State) (a : BitVec 64) (f : Cmd → Cmd) : (updCmd s a f).host = s.host := rfl
@[simp] theorem updCmd_out (s : State) (a : BitVec 64) (f : Cmd → Cmd) : (updCmd s a f).out = s.out := rfl
@[simp] theorem updCmd_free (s : State) (a : BitVec 64) (f : Cmd → Cmd) : (updCmd s a f).free = s.free := rfl
@[simp] theorem updCmd_pending (s : State) (a : BitVec 64) (f : Cmd → Cmd) : (updCmd s a f).pending = s.pending := rfl

/-! ### finish -/

@[simp] theorem finish_pins (s : State) (a : BitVec 64) (st : Byte) : (finish s a st).pins = s.pins := rfl
@[simp] theorem finish_boot (s : State) (a : BitVec 64) (st : Byte) : (finish s a st).boot = s.boot := rfl
@[simp] theorem finish_rst (s : State) (a : BitVec 64) (st : Byte) : (finish s a st).rst = s.rst := rfl
@[simp] theorem finish_flash (s : State) (a : BitVec 64) (st : Byte) : (finish s a st).flash = s.flash := rfl
@[simp] theorem finish_hub (s : State) (a : BitVec 64) (st : Byte) : (finish s a st).hub = s.hub := rfl
@[simp] theorem finish_fences (s : State) (a : BitVec 64) (st : Byte) : (finish s a st).fences = s.fences := rfl
@[simp] theorem finish_sels (s : State) (a : BitVec 64) (st : Byte) : (finish s a st).sels = s.sels := rfl
@[simp] theorem finish_msix (s : State) (a : BitVec 64) (st : Byte) : (finish s a st).msix = s.msix := rfl
@[simp] theorem finish_pba (s : State) (a : BitVec 64) (st : Byte) : (finish s a st).pba = s.pba := rfl
@[simp] theorem finish_rings (s : State) (a : BitVec 64) (st : Byte) : (finish s a st).rings = s.rings := rfl
@[simp] theorem finish_cmds (s : State) (a : BitVec 64) (st : Byte) : (finish s a st).cmds = s.cmds.map (fun c => if c.acc = a then (if c.ph = .done then c else { c with ph := .done, status := finalStatus c st }) else c) := rfl
@[simp] theorem finish_glades (s : State) (a : BitVec 64) (st : Byte) : (finish s a st).glades = s.glades := rfl
@[simp] theorem finish_chans (s : State) (a : BitVec 64) (st : Byte) : (finish s a st).chans = s.chans := rfl
@[simp] theorem finish_ports (s : State) (a : BitVec 64) (st : Byte) : (finish s a st).ports = s.ports := rfl
@[simp] theorem finish_pds (s : State) (a : BitVec 64) (st : Byte) : (finish s a st).pds = s.pds := rfl
@[simp] theorem finish_wv (s : State) (a : BitVec 64) (st : Byte) : (finish s a st).wv = s.wv := rfl
@[simp] theorem finish_errs (s : State) (a : BitVec 64) (st : Byte) : (finish s a st).errs = s.errs := rfl
@[simp] theorem finish_epoch (s : State) (a : BitVec 64) (st : Byte) : (finish s a st).epoch = s.epoch := rfl
@[simp] theorem finish_halves (s : State) (a : BitVec 64) (st : Byte) : (finish s a st).halves = s.halves := rfl
@[simp] theorem finish_rgr (s : State) (a : BitVec 64) (st : Byte) : (finish s a st).rgr = s.rgr := rfl
@[simp] theorem finish_spdm (s : State) (a : BitVec 64) (st : Byte) : (finish s a st).spdm = s.spdm := rfl
@[simp] theorem finish_fab (s : State) (a : BitVec 64) (st : Byte) : (finish s a st).fab = s.fab := rfl
@[simp] theorem finish_credits (s : State) (a : BitVec 64) (st : Byte) : (finish s a st).credits = s.credits := rfl
@[simp] theorem finish_job (s : State) (a : BitVec 64) (st : Byte) : (finish s a st).job = s.job := rfl
@[simp] theorem finish_saved (s : State) (a : BitVec 64) (st : Byte) : (finish s a st).saved = s.saved := rfl
@[simp] theorem finish_mem (s : State) (a : BitVec 64) (st : Byte) : (finish s a st).mem = s.mem := rfl
@[simp] theorem finish_tags (s : State) (a : BitVec 64) (st : Byte) : (finish s a st).tags = s.tags := rfl
@[simp] theorem finish_seals (s : State) (a : BitVec 64) (st : Byte) : (finish s a st).seals = s.seals := rfl
@[simp] theorem finish_poison (s : State) (a : BitVec 64) (st : Byte) : (finish s a st).poison = s.poison := rfl
@[simp] theorem finish_raw (s : State) (a : BitVec 64) (st : Byte) : (finish s a st).raw = s.raw := rfl
@[simp] theorem finish_kcache (s : State) (a : BitVec 64) (st : Byte) : (finish s a st).kcache = s.kcache := rfl
@[simp] theorem finish_link (s : State) (a : BitVec 64) (st : Byte) : (finish s a st).link = s.link := rfl
@[simp] theorem finish_domShow (s : State) (a : BitVec 64) (st : Byte) : (finish s a st).domShow = s.domShow := rfl
@[simp] theorem finish_ccache (s : State) (a : BitVec 64) (st : Byte) : (finish s a st).ccache = s.ccache := rfl
@[simp] theorem finish_host (s : State) (a : BitVec 64) (st : Byte) : (finish s a st).host = s.host := rfl
@[simp] theorem finish_out (s : State) (a : BitVec 64) (st : Byte) : (finish s a st).out = s.out := rfl
@[simp] theorem finish_free (s : State) (a : BitVec 64) (st : Byte) : (finish s a st).free = s.free := rfl
@[simp] theorem finish_pending (s : State) (a : BitVec 64) (st : Byte) : (finish s a st).pending = s.pending := rfl

/-! ### noteFrozen -/

@[simp] theorem noteFrozen_pins (s : State) (a : BitVec 64) (b : Bool) : (noteFrozen s a b).pins = s.pins := rfl
@[simp] theorem noteFrozen_boot (s : State) (a : BitVec 64) (b : Bool) : (noteFrozen s a b).boot = s.boot := rfl
@[simp] theorem noteFrozen_rst (s : State) (a : BitVec 64) (b : Bool) : (noteFrozen s a b).rst = s.rst := rfl
@[simp] theorem noteFrozen_flash (s : State) (a : BitVec 64) (b : Bool) : (noteFrozen s a b).flash = s.flash := rfl
@[simp] theorem noteFrozen_hub (s : State) (a : BitVec 64) (b : Bool) : (noteFrozen s a b).hub = { s.hub with frozenDrop := satAdd s.hub.frozenDrop 1 } := rfl
@[simp] theorem noteFrozen_fences (s : State) (a : BitVec 64) (b : Bool) : (noteFrozen s a b).fences = s.fences := rfl
@[simp] theorem noteFrozen_sels (s : State) (a : BitVec 64) (b : Bool) : (noteFrozen s a b).sels = s.sels := rfl
@[simp] theorem noteFrozen_msix (s : State) (a : BitVec 64) (b : Bool) : (noteFrozen s a b).msix = s.msix := rfl
@[simp] theorem noteFrozen_pba (s : State) (a : BitVec 64) (b : Bool) : (noteFrozen s a b).pba = s.pba := rfl
@[simp] theorem noteFrozen_rings (s : State) (a : BitVec 64) (b : Bool) : (noteFrozen s a b).rings = s.rings := rfl
@[simp] theorem noteFrozen_cmds (s : State) (a : BitVec 64) (b : Bool) : (noteFrozen s a b).cmds = s.cmds.map (fun c => if c.acc = a then { c with frozen := true, strictHit := c.strictHit || b } else c) := rfl
@[simp] theorem noteFrozen_glades (s : State) (a : BitVec 64) (b : Bool) : (noteFrozen s a b).glades = s.glades := rfl
@[simp] theorem noteFrozen_chans (s : State) (a : BitVec 64) (b : Bool) : (noteFrozen s a b).chans = s.chans := rfl
@[simp] theorem noteFrozen_ports (s : State) (a : BitVec 64) (b : Bool) : (noteFrozen s a b).ports = s.ports := rfl
@[simp] theorem noteFrozen_pds (s : State) (a : BitVec 64) (b : Bool) : (noteFrozen s a b).pds = s.pds := rfl
@[simp] theorem noteFrozen_wv (s : State) (a : BitVec 64) (b : Bool) : (noteFrozen s a b).wv = s.wv := rfl
@[simp] theorem noteFrozen_errs (s : State) (a : BitVec 64) (b : Bool) : (noteFrozen s a b).errs = s.errs := rfl
@[simp] theorem noteFrozen_epoch (s : State) (a : BitVec 64) (b : Bool) : (noteFrozen s a b).epoch = s.epoch := rfl
@[simp] theorem noteFrozen_halves (s : State) (a : BitVec 64) (b : Bool) : (noteFrozen s a b).halves = s.halves := rfl
@[simp] theorem noteFrozen_rgr (s : State) (a : BitVec 64) (b : Bool) : (noteFrozen s a b).rgr = s.rgr := rfl
@[simp] theorem noteFrozen_spdm (s : State) (a : BitVec 64) (b : Bool) : (noteFrozen s a b).spdm = s.spdm := rfl
@[simp] theorem noteFrozen_fab (s : State) (a : BitVec 64) (b : Bool) : (noteFrozen s a b).fab = s.fab := rfl
@[simp] theorem noteFrozen_credits (s : State) (a : BitVec 64) (b : Bool) : (noteFrozen s a b).credits = s.credits := rfl
@[simp] theorem noteFrozen_job (s : State) (a : BitVec 64) (b : Bool) : (noteFrozen s a b).job = s.job := rfl
@[simp] theorem noteFrozen_saved (s : State) (a : BitVec 64) (b : Bool) : (noteFrozen s a b).saved = s.saved := rfl
@[simp] theorem noteFrozen_mem (s : State) (a : BitVec 64) (b : Bool) : (noteFrozen s a b).mem = s.mem := rfl
@[simp] theorem noteFrozen_tags (s : State) (a : BitVec 64) (b : Bool) : (noteFrozen s a b).tags = s.tags := rfl
@[simp] theorem noteFrozen_seals (s : State) (a : BitVec 64) (b : Bool) : (noteFrozen s a b).seals = s.seals := rfl
@[simp] theorem noteFrozen_poison (s : State) (a : BitVec 64) (b : Bool) : (noteFrozen s a b).poison = s.poison := rfl
@[simp] theorem noteFrozen_raw (s : State) (a : BitVec 64) (b : Bool) : (noteFrozen s a b).raw = s.raw := rfl
@[simp] theorem noteFrozen_kcache (s : State) (a : BitVec 64) (b : Bool) : (noteFrozen s a b).kcache = s.kcache := rfl
@[simp] theorem noteFrozen_link (s : State) (a : BitVec 64) (b : Bool) : (noteFrozen s a b).link = s.link := rfl
@[simp] theorem noteFrozen_domShow (s : State) (a : BitVec 64) (b : Bool) : (noteFrozen s a b).domShow = s.domShow := rfl
@[simp] theorem noteFrozen_ccache (s : State) (a : BitVec 64) (b : Bool) : (noteFrozen s a b).ccache = s.ccache := rfl
@[simp] theorem noteFrozen_host (s : State) (a : BitVec 64) (b : Bool) : (noteFrozen s a b).host = s.host := rfl
@[simp] theorem noteFrozen_out (s : State) (a : BitVec 64) (b : Bool) : (noteFrozen s a b).out = s.out := rfl
@[simp] theorem noteFrozen_free (s : State) (a : BitVec 64) (b : Bool) : (noteFrozen s a b).free = s.free := rfl
@[simp] theorem noteFrozen_pending (s : State) (a : BitVec 64) (b : Bool) : (noteFrozen s a b).pending = s.pending := rfl

/-! ### raise -/

@[simp] theorem raise_pins (s : State) (a : BitVec 64) (fl : BitVec 5) (v : Nat) : (raise s a fl v).pins = s.pins := rfl
@[simp] theorem raise_boot (s : State) (a : BitVec 64) (fl : BitVec 5) (v : Nat) : (raise s a fl v).boot = s.boot := rfl
@[simp] theorem raise_rst (s : State) (a : BitVec 64) (fl : BitVec 5) (v : Nat) : (raise s a fl v).rst = s.rst := rfl
@[simp] theorem raise_flash (s : State) (a : BitVec 64) (fl : BitVec 5) (v : Nat) : (raise s a fl v).flash = s.flash := rfl
@[simp] theorem raise_hub (s : State) (a : BitVec 64) (fl : BitVec 5) (v : Nat) : (raise s a fl v).hub = s.hub := rfl
@[simp] theorem raise_fences (s : State) (a : BitVec 64) (fl : BitVec 5) (v : Nat) : (raise s a fl v).fences = s.fences := rfl
@[simp] theorem raise_sels (s : State) (a : BitVec 64) (fl : BitVec 5) (v : Nat) : (raise s a fl v).sels = s.sels := rfl
@[simp] theorem raise_msix (s : State) (a : BitVec 64) (fl : BitVec 5) (v : Nat) : (raise s a fl v).msix = s.msix := rfl
@[simp] theorem raise_pba (s : State) (a : BitVec 64) (fl : BitVec 5) (v : Nat) : (raise s a fl v).pba = s.pba := rfl
@[simp] theorem raise_rings (s : State) (a : BitVec 64) (fl : BitVec 5) (v : Nat) : (raise s a fl v).rings = s.rings := rfl
@[simp] theorem raise_cmds (s : State) (a : BitVec 64) (fl : BitVec 5) (v : Nat) : (raise s a fl v).cmds = s.cmds.map (fun c => if c.acc = a then { c with summary := c.summary ||| fl, vanish := satAdd c.vanish v } else c) := rfl
@[simp] theorem raise_glades (s : State) (a : BitVec 64) (fl : BitVec 5) (v : Nat) : (raise s a fl v).glades = s.glades := rfl
@[simp] theorem raise_chans (s : State) (a : BitVec 64) (fl : BitVec 5) (v : Nat) : (raise s a fl v).chans = s.chans := rfl
@[simp] theorem raise_ports (s : State) (a : BitVec 64) (fl : BitVec 5) (v : Nat) : (raise s a fl v).ports = s.ports := rfl
@[simp] theorem raise_pds (s : State) (a : BitVec 64) (fl : BitVec 5) (v : Nat) : (raise s a fl v).pds = s.pds := rfl
@[simp] theorem raise_wv (s : State) (a : BitVec 64) (fl : BitVec 5) (v : Nat) : (raise s a fl v).wv = s.wv := rfl
@[simp] theorem raise_errs (s : State) (a : BitVec 64) (fl : BitVec 5) (v : Nat) : (raise s a fl v).errs = s.errs := rfl
@[simp] theorem raise_epoch (s : State) (a : BitVec 64) (fl : BitVec 5) (v : Nat) : (raise s a fl v).epoch = s.epoch := rfl
@[simp] theorem raise_halves (s : State) (a : BitVec 64) (fl : BitVec 5) (v : Nat) : (raise s a fl v).halves = s.halves := rfl
@[simp] theorem raise_rgr (s : State) (a : BitVec 64) (fl : BitVec 5) (v : Nat) : (raise s a fl v).rgr = s.rgr := rfl
@[simp] theorem raise_spdm (s : State) (a : BitVec 64) (fl : BitVec 5) (v : Nat) : (raise s a fl v).spdm = s.spdm := rfl
@[simp] theorem raise_fab (s : State) (a : BitVec 64) (fl : BitVec 5) (v : Nat) : (raise s a fl v).fab = s.fab := rfl
@[simp] theorem raise_credits (s : State) (a : BitVec 64) (fl : BitVec 5) (v : Nat) : (raise s a fl v).credits = s.credits := rfl
@[simp] theorem raise_job (s : State) (a : BitVec 64) (fl : BitVec 5) (v : Nat) : (raise s a fl v).job = s.job := rfl
@[simp] theorem raise_saved (s : State) (a : BitVec 64) (fl : BitVec 5) (v : Nat) : (raise s a fl v).saved = s.saved := rfl
@[simp] theorem raise_mem (s : State) (a : BitVec 64) (fl : BitVec 5) (v : Nat) : (raise s a fl v).mem = s.mem := rfl
@[simp] theorem raise_tags (s : State) (a : BitVec 64) (fl : BitVec 5) (v : Nat) : (raise s a fl v).tags = s.tags := rfl
@[simp] theorem raise_seals (s : State) (a : BitVec 64) (fl : BitVec 5) (v : Nat) : (raise s a fl v).seals = s.seals := rfl
@[simp] theorem raise_poison (s : State) (a : BitVec 64) (fl : BitVec 5) (v : Nat) : (raise s a fl v).poison = s.poison := rfl
@[simp] theorem raise_raw (s : State) (a : BitVec 64) (fl : BitVec 5) (v : Nat) : (raise s a fl v).raw = s.raw := rfl
@[simp] theorem raise_kcache (s : State) (a : BitVec 64) (fl : BitVec 5) (v : Nat) : (raise s a fl v).kcache = s.kcache := rfl
@[simp] theorem raise_link (s : State) (a : BitVec 64) (fl : BitVec 5) (v : Nat) : (raise s a fl v).link = s.link := rfl
@[simp] theorem raise_domShow (s : State) (a : BitVec 64) (fl : BitVec 5) (v : Nat) : (raise s a fl v).domShow = s.domShow := rfl
@[simp] theorem raise_ccache (s : State) (a : BitVec 64) (fl : BitVec 5) (v : Nat) : (raise s a fl v).ccache = s.ccache := rfl
@[simp] theorem raise_host (s : State) (a : BitVec 64) (fl : BitVec 5) (v : Nat) : (raise s a fl v).host = s.host := rfl
@[simp] theorem raise_out (s : State) (a : BitVec 64) (fl : BitVec 5) (v : Nat) : (raise s a fl v).out = s.out := rfl
@[simp] theorem raise_free (s : State) (a : BitVec 64) (fl : BitVec 5) (v : Nat) : (raise s a fl v).free = s.free := rfl
@[simp] theorem raise_pending (s : State) (a : BitVec 64) (fl : BitVec 5) (v : Nat) : (raise s a fl v).pending = s.pending := rfl

/-! ### hubWrite -/

@[simp] theorem hubWrite_pins (s : State) (a : Nat) (b : Bytes) (t : Tag) : (hubWrite s a b t).pins = s.pins := rfl
@[simp] theorem hubWrite_boot (s : State) (a : Nat) (b : Bytes) (t : Tag) : (hubWrite s a b t).boot = s.boot := rfl
@[simp] theorem hubWrite_rst (s : State) (a : Nat) (b : Bytes) (t : Tag) : (hubWrite s a b t).rst = s.rst := rfl
@[simp] theorem hubWrite_flash (s : State) (a : Nat) (b : Bytes) (t : Tag) : (hubWrite s a b t).flash = s.flash := rfl
@[simp] theorem hubWrite_hub (s : State) (a : Nat) (b : Bytes) (t : Tag) : (hubWrite s a b t).hub = s.hub := rfl
@[simp] theorem hubWrite_fences (s : State) (a : Nat) (b : Bytes) (t : Tag) : (hubWrite s a b t).fences = s.fences := rfl
@[simp] theorem hubWrite_sels (s : State) (a : Nat) (b : Bytes) (t : Tag) : (hubWrite s a b t).sels = s.sels := rfl
@[simp] theorem hubWrite_msix (s : State) (a : Nat) (b : Bytes) (t : Tag) : (hubWrite s a b t).msix = s.msix := rfl
@[simp] theorem hubWrite_pba (s : State) (a : Nat) (b : Bytes) (t : Tag) : (hubWrite s a b t).pba = s.pba := rfl
@[simp] theorem hubWrite_rings (s : State) (a : Nat) (b : Bytes) (t : Tag) : (hubWrite s a b t).rings = s.rings := rfl
@[simp] theorem hubWrite_cmds (s : State) (a : Nat) (b : Bytes) (t : Tag) : (hubWrite s a b t).cmds = s.cmds := rfl
@[simp] theorem hubWrite_glades (s : State) (a : Nat) (b : Bytes) (t : Tag) : (hubWrite s a b t).glades = s.glades := rfl
@[simp] theorem hubWrite_chans (s : State) (a : Nat) (b : Bytes) (t : Tag) : (hubWrite s a b t).chans = s.chans := rfl
@[simp] theorem hubWrite_ports (s : State) (a : Nat) (b : Bytes) (t : Tag) : (hubWrite s a b t).ports = s.ports := rfl
@[simp] theorem hubWrite_pds (s : State) (a : Nat) (b : Bytes) (t : Tag) : (hubWrite s a b t).pds = s.pds := rfl
@[simp] theorem hubWrite_wv (s : State) (a : Nat) (b : Bytes) (t : Tag) : (hubWrite s a b t).wv = s.wv := rfl
@[simp] theorem hubWrite_errs (s : State) (a : Nat) (b : Bytes) (t : Tag) : (hubWrite s a b t).errs = s.errs := rfl
@[simp] theorem hubWrite_epoch (s : State) (a : Nat) (b : Bytes) (t : Tag) : (hubWrite s a b t).epoch = s.epoch := rfl
@[simp] theorem hubWrite_halves (s : State) (a : Nat) (b : Bytes) (t : Tag) : (hubWrite s a b t).halves = s.halves := rfl
@[simp] theorem hubWrite_rgr (s : State) (a : Nat) (b : Bytes) (t : Tag) : (hubWrite s a b t).rgr = s.rgr := rfl
@[simp] theorem hubWrite_spdm (s : State) (a : Nat) (b : Bytes) (t : Tag) : (hubWrite s a b t).spdm = s.spdm := rfl
@[simp] theorem hubWrite_fab (s : State) (a : Nat) (b : Bytes) (t : Tag) : (hubWrite s a b t).fab = s.fab := rfl
@[simp] theorem hubWrite_credits (s : State) (a : Nat) (b : Bytes) (t : Tag) : (hubWrite s a b t).credits = s.credits := rfl
@[simp] theorem hubWrite_job (s : State) (a : Nat) (b : Bytes) (t : Tag) : (hubWrite s a b t).job = s.job := rfl
@[simp] theorem hubWrite_saved (s : State) (a : Nat) (b : Bytes) (t : Tag) : (hubWrite s a b t).saved = s.saved := rfl
@[simp] theorem hubWrite_mem (s : State) (a : Nat) (b : Bytes) (t : Tag) : (hubWrite s a b t).mem = wrBytes ((pieces a b).foldl (fun m p => if hubDrops s p t then clearRange m (256 * lineOf p.1) 256 else m) s.mem) a b := rfl
@[simp] theorem hubWrite_tags (s : State) (a : Nat) (b : Bytes) (t : Tag) : (hubWrite s a b t).tags = (pieces a b).foldl (fun ts p => tset tagPublic ts (lineOf p.1) (hubTag (tagOf s (lineOf p.1)) t p.2.length)) s.tags := rfl
@[simp] theorem hubWrite_seals (s : State) (a : Nat) (b : Bytes) (t : Tag) : (hubWrite s a b t).seals = s.seals := rfl
@[simp] theorem hubWrite_poison (s : State) (a : Nat) (b : Bytes) (t : Tag) : (hubWrite s a b t).poison = s.poison := rfl
@[simp] theorem hubWrite_raw (s : State) (a : Nat) (b : Bytes) (t : Tag) : (hubWrite s a b t).raw = s.raw := rfl
@[simp] theorem hubWrite_kcache (s : State) (a : Nat) (b : Bytes) (t : Tag) : (hubWrite s a b t).kcache = s.kcache := rfl
@[simp] theorem hubWrite_link (s : State) (a : Nat) (b : Bytes) (t : Tag) : (hubWrite s a b t).link = s.link := rfl
@[simp] theorem hubWrite_domShow (s : State) (a : Nat) (b : Bytes) (t : Tag) : (hubWrite s a b t).domShow = s.domShow := rfl
@[simp] theorem hubWrite_ccache (s : State) (a : Nat) (b : Bytes) (t : Tag) : (hubWrite s a b t).ccache = s.ccache := rfl
@[simp] theorem hubWrite_host (s : State) (a : Nat) (b : Bytes) (t : Tag) : (hubWrite s a b t).host = s.host := rfl
@[simp] theorem hubWrite_out (s : State) (a : Nat) (b : Bytes) (t : Tag) : (hubWrite s a b t).out = s.out := rfl
@[simp] theorem hubWrite_free (s : State) (a : Nat) (b : Bytes) (t : Tag) : (hubWrite s a b t).free = s.free := rfl
@[simp] theorem hubWrite_pending (s : State) (a : Nat) (b : Bytes) (t : Tag) : (hubWrite s a b t).pending = s.pending := rfl

/-! ### bumpCounter -/

@[simp] theorem bumpCounter_pins (s : State) (a : Nat) : (bumpCounter s a).pins = s.pins := rfl
@[simp] theorem bumpCounter_boot (s : State) (a : Nat) : (bumpCounter s a).boot = s.boot := rfl
@[simp] theorem bumpCounter_rst (s : State) (a : Nat) : (bumpCounter s a).rst = s.rst := rfl
@[simp] theorem bumpCounter_flash (s : State) (a : Nat) : (bumpCounter s a).flash = s.flash := rfl
@[simp] theorem bumpCounter_hub (s : State) (a : Nat) : (bumpCounter s a).hub = s.hub := rfl
@[simp] theorem bumpCounter_fences (s : State) (a : Nat) : (bumpCounter s a).fences = s.fences := rfl
@[simp] theorem bumpCounter_sels (s : State) (a : Nat) : (bumpCounter s a).sels = s.sels := rfl
@[simp] theorem bumpCounter_msix (s : State) (a : Nat) : (bumpCounter s a).msix = s.msix := rfl
@[simp] theorem bumpCounter_pba (s : State) (a : Nat) : (bumpCounter s a).pba = s.pba := rfl
@[simp] theorem bumpCounter_rings (s : State) (a : Nat) : (bumpCounter s a).rings = s.rings := rfl
@[simp] theorem bumpCounter_cmds (s : State) (a : Nat) : (bumpCounter s a).cmds = s.cmds := rfl
@[simp] theorem bumpCounter_glades (s : State) (a : Nat) : (bumpCounter s a).glades = s.glades := rfl
@[simp] theorem bumpCounter_chans (s : State) (a : Nat) : (bumpCounter s a).chans = s.chans := rfl
@[simp] theorem bumpCounter_ports (s : State) (a : Nat) : (bumpCounter s a).ports = s.ports := rfl
@[simp] theorem bumpCounter_pds (s : State) (a : Nat) : (bumpCounter s a).pds = s.pds := rfl
@[simp] theorem bumpCounter_wv (s : State) (a : Nat) : (bumpCounter s a).wv = s.wv := rfl
@[simp] theorem bumpCounter_errs (s : State) (a : Nat) : (bumpCounter s a).errs = s.errs := rfl
@[simp] theorem bumpCounter_epoch (s : State) (a : Nat) : (bumpCounter s a).epoch = s.epoch := rfl
@[simp] theorem bumpCounter_halves (s : State) (a : Nat) : (bumpCounter s a).halves = s.halves := rfl
@[simp] theorem bumpCounter_rgr (s : State) (a : Nat) : (bumpCounter s a).rgr = s.rgr := rfl
@[simp] theorem bumpCounter_spdm (s : State) (a : Nat) : (bumpCounter s a).spdm = s.spdm := rfl
@[simp] theorem bumpCounter_fab (s : State) (a : Nat) : (bumpCounter s a).fab = s.fab := rfl
@[simp] theorem bumpCounter_credits (s : State) (a : Nat) : (bumpCounter s a).credits = s.credits := rfl
@[simp] theorem bumpCounter_job (s : State) (a : Nat) : (bumpCounter s a).job = s.job := rfl
@[simp] theorem bumpCounter_saved (s : State) (a : Nat) : (bumpCounter s a).saved = s.saved := rfl
@[simp] theorem bumpCounter_mem (s : State) (a : Nat) : (bumpCounter s a).mem = wrBytes s.mem a (natLe ((leNat (rdBytes s.mem a 8) + 1) % 2 ^ 64) 8) := rfl
@[simp] theorem bumpCounter_tags (s : State) (a : Nat) : (bumpCounter s a).tags = s.tags := rfl
@[simp] theorem bumpCounter_seals (s : State) (a : Nat) : (bumpCounter s a).seals = s.seals := rfl
@[simp] theorem bumpCounter_poison (s : State) (a : Nat) : (bumpCounter s a).poison = s.poison := rfl
@[simp] theorem bumpCounter_raw (s : State) (a : Nat) : (bumpCounter s a).raw = s.raw := rfl
@[simp] theorem bumpCounter_kcache (s : State) (a : Nat) : (bumpCounter s a).kcache = s.kcache := rfl
@[simp] theorem bumpCounter_link (s : State) (a : Nat) : (bumpCounter s a).link = s.link := rfl
@[simp] theorem bumpCounter_domShow (s : State) (a : Nat) : (bumpCounter s a).domShow = s.domShow := rfl
@[simp] theorem bumpCounter_ccache (s : State) (a : Nat) : (bumpCounter s a).ccache = s.ccache := rfl
@[simp] theorem bumpCounter_host (s : State) (a : Nat) : (bumpCounter s a).host = s.host := rfl
@[simp] theorem bumpCounter_out (s : State) (a : Nat) : (bumpCounter s a).out = s.out := rfl
@[simp] theorem bumpCounter_free (s : State) (a : Nat) : (bumpCounter s a).free = s.free := rfl
@[simp] theorem bumpCounter_pending (s : State) (a : Nat) : (bumpCounter s a).pending = s.pending := rfl

/-! ### drawRandom -/

@[simp] theorem drawRandom_pins (s : State) : (drawRandom s).pins = s.pins := rfl
@[simp] theorem drawRandom_boot (s : State) : (drawRandom s).boot = s.boot := rfl
@[simp] theorem drawRandom_rst (s : State) : (drawRandom s).rst = s.rst := rfl
@[simp] theorem drawRandom_flash (s : State) : (drawRandom s).flash = s.flash := rfl
@[simp] theorem drawRandom_hub (s : State) : (drawRandom s).hub = s.hub := rfl
@[simp] theorem drawRandom_fences (s : State) : (drawRandom s).fences = s.fences := rfl
@[simp] theorem drawRandom_sels (s : State) : (drawRandom s).sels = s.sels := rfl
@[simp] theorem drawRandom_msix (s : State) : (drawRandom s).msix = s.msix := rfl
@[simp] theorem drawRandom_pba (s : State) : (drawRandom s).pba = s.pba := rfl
@[simp] theorem drawRandom_rings (s : State) : (drawRandom s).rings = s.rings := rfl
@[simp] theorem drawRandom_cmds (s : State) : (drawRandom s).cmds = s.cmds := rfl
@[simp] theorem drawRandom_glades (s : State) : (drawRandom s).glades = s.glades := rfl
@[simp] theorem drawRandom_chans (s : State) : (drawRandom s).chans = s.chans := rfl
@[simp] theorem drawRandom_ports (s : State) : (drawRandom s).ports = s.ports := rfl
@[simp] theorem drawRandom_pds (s : State) : (drawRandom s).pds = s.pds := rfl
@[simp] theorem drawRandom_wv (s : State) : (drawRandom s).wv = s.wv := rfl
@[simp] theorem drawRandom_errs (s : State) : (drawRandom s).errs = s.errs := rfl
@[simp] theorem drawRandom_epoch (s : State) : (drawRandom s).epoch = s.epoch := rfl
@[simp] theorem drawRandom_halves (s : State) : (drawRandom s).halves = s.halves := rfl
@[simp] theorem drawRandom_rgr (s : State) : (drawRandom s).rgr = { s.rgr with drbg := s.rgr.drbg + 1 } := rfl
@[simp] theorem drawRandom_spdm (s : State) : (drawRandom s).spdm = s.spdm := rfl
@[simp] theorem drawRandom_fab (s : State) : (drawRandom s).fab = s.fab := rfl
@[simp] theorem drawRandom_credits (s : State) : (drawRandom s).credits = s.credits := rfl
@[simp] theorem drawRandom_job (s : State) : (drawRandom s).job = s.job := rfl
@[simp] theorem drawRandom_saved (s : State) : (drawRandom s).saved = s.saved := rfl
@[simp] theorem drawRandom_mem (s : State) : (drawRandom s).mem = s.mem := rfl
@[simp] theorem drawRandom_tags (s : State) : (drawRandom s).tags = s.tags := rfl
@[simp] theorem drawRandom_seals (s : State) : (drawRandom s).seals = s.seals := rfl
@[simp] theorem drawRandom_poison (s : State) : (drawRandom s).poison = s.poison := rfl
@[simp] theorem drawRandom_raw (s : State) : (drawRandom s).raw = s.raw := rfl
@[simp] theorem drawRandom_kcache (s : State) : (drawRandom s).kcache = s.kcache := rfl
@[simp] theorem drawRandom_link (s : State) : (drawRandom s).link = s.link := rfl
@[simp] theorem drawRandom_domShow (s : State) : (drawRandom s).domShow = s.domShow := rfl
@[simp] theorem drawRandom_ccache (s : State) : (drawRandom s).ccache = s.ccache := rfl
@[simp] theorem drawRandom_host (s : State) : (drawRandom s).host = s.host := rfl
@[simp] theorem drawRandom_out (s : State) : (drawRandom s).out = s.out := rfl
@[simp] theorem drawRandom_free (s : State) : (drawRandom s).free = s.free + 1 := rfl
@[simp] theorem drawRandom_pending (s : State) : (drawRandom s).pending = s.pending := rfl

/-! ### finishWith: every field but the commands -/

@[simp] theorem finishWith_pins (s : State) (a : BitVec 64) (st : Byte) (r : Bytes) : (finishWith s a st r).pins = s.pins := rfl
@[simp] theorem finishWith_boot (s : State) (a : BitVec 64) (st : Byte) (r : Bytes) : (finishWith s a st r).boot = s.boot := rfl
@[simp] theorem finishWith_rst (s : State) (a : BitVec 64) (st : Byte) (r : Bytes) : (finishWith s a st r).rst = s.rst := rfl
@[simp] theorem finishWith_flash (s : State) (a : BitVec 64) (st : Byte) (r : Bytes) : (finishWith s a st r).flash = s.flash := rfl
@[simp] theorem finishWith_hub (s : State) (a : BitVec 64) (st : Byte) (r : Bytes) : (finishWith s a st r).hub = s.hub := rfl
@[simp] theorem finishWith_fences (s : State) (a : BitVec 64) (st : Byte) (r : Bytes) : (finishWith s a st r).fences = s.fences := rfl
@[simp] theorem finishWith_sels (s : State) (a : BitVec 64) (st : Byte) (r : Bytes) : (finishWith s a st r).sels = s.sels := rfl
@[simp] theorem finishWith_msix (s : State) (a : BitVec 64) (st : Byte) (r : Bytes) : (finishWith s a st r).msix = s.msix := rfl
@[simp] theorem finishWith_pba (s : State) (a : BitVec 64) (st : Byte) (r : Bytes) : (finishWith s a st r).pba = s.pba := rfl
@[simp] theorem finishWith_rings (s : State) (a : BitVec 64) (st : Byte) (r : Bytes) : (finishWith s a st r).rings = s.rings := rfl
@[simp] theorem finishWith_glades (s : State) (a : BitVec 64) (st : Byte) (r : Bytes) : (finishWith s a st r).glades = s.glades := rfl
@[simp] theorem finishWith_chans (s : State) (a : BitVec 64) (st : Byte) (r : Bytes) : (finishWith s a st r).chans = s.chans := rfl
@[simp] theorem finishWith_ports (s : State) (a : BitVec 64) (st : Byte) (r : Bytes) : (finishWith s a st r).ports = s.ports := rfl
@[simp] theorem finishWith_pds (s : State) (a : BitVec 64) (st : Byte) (r : Bytes) : (finishWith s a st r).pds = s.pds := rfl
@[simp] theorem finishWith_wv (s : State) (a : BitVec 64) (st : Byte) (r : Bytes) : (finishWith s a st r).wv = s.wv := rfl
@[simp] theorem finishWith_errs (s : State) (a : BitVec 64) (st : Byte) (r : Bytes) : (finishWith s a st r).errs = s.errs := rfl
@[simp] theorem finishWith_epoch (s : State) (a : BitVec 64) (st : Byte) (r : Bytes) : (finishWith s a st r).epoch = s.epoch := rfl
@[simp] theorem finishWith_halves (s : State) (a : BitVec 64) (st : Byte) (r : Bytes) : (finishWith s a st r).halves = s.halves := rfl
@[simp] theorem finishWith_rgr (s : State) (a : BitVec 64) (st : Byte) (r : Bytes) : (finishWith s a st r).rgr = s.rgr := rfl
@[simp] theorem finishWith_spdm (s : State) (a : BitVec 64) (st : Byte) (r : Bytes) : (finishWith s a st r).spdm = s.spdm := rfl
@[simp] theorem finishWith_fab (s : State) (a : BitVec 64) (st : Byte) (r : Bytes) : (finishWith s a st r).fab = s.fab := rfl
@[simp] theorem finishWith_credits (s : State) (a : BitVec 64) (st : Byte) (r : Bytes) : (finishWith s a st r).credits = s.credits := rfl
@[simp] theorem finishWith_job (s : State) (a : BitVec 64) (st : Byte) (r : Bytes) : (finishWith s a st r).job = s.job := rfl
@[simp] theorem finishWith_saved (s : State) (a : BitVec 64) (st : Byte) (r : Bytes) : (finishWith s a st r).saved = s.saved := rfl
@[simp] theorem finishWith_mem (s : State) (a : BitVec 64) (st : Byte) (r : Bytes) : (finishWith s a st r).mem = s.mem := rfl
@[simp] theorem finishWith_tags (s : State) (a : BitVec 64) (st : Byte) (r : Bytes) : (finishWith s a st r).tags = s.tags := rfl
@[simp] theorem finishWith_seals (s : State) (a : BitVec 64) (st : Byte) (r : Bytes) : (finishWith s a st r).seals = s.seals := rfl
@[simp] theorem finishWith_poison (s : State) (a : BitVec 64) (st : Byte) (r : Bytes) : (finishWith s a st r).poison = s.poison := rfl
@[simp] theorem finishWith_raw (s : State) (a : BitVec 64) (st : Byte) (r : Bytes) : (finishWith s a st r).raw = s.raw := rfl
@[simp] theorem finishWith_kcache (s : State) (a : BitVec 64) (st : Byte) (r : Bytes) : (finishWith s a st r).kcache = s.kcache := rfl
@[simp] theorem finishWith_link (s : State) (a : BitVec 64) (st : Byte) (r : Bytes) : (finishWith s a st r).link = s.link := rfl
@[simp] theorem finishWith_domShow (s : State) (a : BitVec 64) (st : Byte) (r : Bytes) : (finishWith s a st r).domShow = s.domShow := rfl
@[simp] theorem finishWith_ccache (s : State) (a : BitVec 64) (st : Byte) (r : Bytes) : (finishWith s a st r).ccache = s.ccache := rfl
@[simp] theorem finishWith_host (s : State) (a : BitVec 64) (st : Byte) (r : Bytes) : (finishWith s a st r).host = s.host := rfl
@[simp] theorem finishWith_out (s : State) (a : BitVec 64) (st : Byte) (r : Bytes) : (finishWith s a st r).out = s.out := rfl
@[simp] theorem finishWith_free (s : State) (a : BitVec 64) (st : Byte) (r : Bytes) : (finishWith s a st r).free = s.free := rfl
@[simp] theorem finishWith_pending (s : State) (a : BitVec 64) (st : Byte) (r : Bytes) : (finishWith s a st r).pending = s.pending := rfl

/-! ### setTen -/

@[simp] theorem setTen_id (j : Job) (t : Nat) (v : Tenant) : (setTen j t v).id = j.id := rfl
@[simp] theorem setTen_st (j : Job) (t : Nat) (v : Tenant) : (setTen j t v).st = j.st := rfl
@[simp] theorem setTen_pblock (j : Job) (t : Nat) (v : Tenant) : (setTen j t v).pblock = j.pblock := rfl
@[simp] theorem setTen_preempt (j : Job) (t : Nat) (v : Tenant) : (setTen j t v).preempt = j.preempt := rfl
@[simp] theorem setTen_strict (j : Job) (t : Nat) (v : Tenant) : (setTen j t v).strict = j.strict := rfl
@[simp] theorem setTen_fixed (j : Job) (t : Nat) (v : Tenant) : (setTen j t v).fixed = j.fixed := rfl
@[simp] theorem setTen_waySize (j : Job) (t : Nat) (v : Tenant) : (setTen j t v).waySize = j.waySize := rfl
@[simp] theorem setTen_stepSlot (j : Job) (t : Nat) (v : Tenant) : (setTen j t v).stepSlot = j.stepSlot := rfl
@[simp] theorem setTen_exclog (j : Job) (t : Nat) (v : Tenant) : (setTen j t v).exclog = j.exclog := rfl
@[simp] theorem setTen_managed (j : Job) (t : Nat) (v : Tenant) : (setTen j t v).managed = j.managed := rfl
@[simp] theorem setTen_meetMs (j : Job) (t : Nat) (v : Tenant) : (setTen j t v).meetMs = j.meetMs := rfl
@[simp] theorem setTen_drainUs (j : Job) (t : Nat) (v : Tenant) : (setTen j t v).drainUs = j.drainUs := rfl
@[simp] theorem setTen_stepRows (j : Job) (t : Nat) (v : Tenant) : (setTen j t v).stepRows = j.stepRows := rfl
@[simp] theorem setTen_chunk (j : Job) (t : Nat) (v : Tenant) : (setTen j t v).chunk = j.chunk := rfl
@[simp] theorem setTen_pageKib (j : Job) (t : Nat) (v : Tenant) : (setTen j t v).pageKib = j.pageKib := rfl
@[simp] theorem setTen_periodUs (j : Job) (t : Nat) (v : Tenant) : (setTen j t v).periodUs = j.periodUs := rfl
@[simp] theorem setTen_excBase (j : Job) (t : Nat) (v : Tenant) : (setTen j t v).excBase = j.excBase := rfl
@[simp] theorem setTen_fcast (j : Job) (t : Nat) (v : Tenant) : (setTen j t v).fcast = j.fcast := rfl
@[simp] theorem setTen_rowTab (j : Job) (t : Nat) (v : Tenant) : (setTen j t v).rowTab = j.rowTab := rfl
@[simp] theorem setTen_saveHome (j : Job) (t : Nat) (v : Tenant) : (setTen j t v).saveHome = j.saveHome := rfl
@[simp] theorem setTen_stepGlades (j : Job) (t : Nat) (v : Tenant) : (setTen j t v).stepGlades = j.stepGlades := rfl
@[simp] theorem setTen_rings (j : Job) (t : Nat) (v : Tenant) : (setTen j t v).rings = j.rings := rfl
@[simp] theorem setTen_egr (j : Job) (t : Nat) (v : Tenant) : (setTen j t v).egr = j.egr := rfl
@[simp] theorem setTen_nonce (j : Job) (t : Nat) (v : Tenant) : (setTen j t v).nonce = j.nonce := rfl
@[simp] theorem setTen_saveCount (j : Job) (t : Nat) (v : Tenant) : (setTen j t v).saveCount = j.saveCount := rfl
@[simp] theorem setTen_segs (j : Job) (t : Nat) (v : Tenant) : (setTen j t v).segs = j.segs := rfl
@[simp] theorem setTen_progs (j : Job) (t : Nat) (v : Tenant) : (setTen j t v).progs = j.progs := rfl
@[simp] theorem setTen_baseA (j : Job) (t : Nat) (v : Tenant) : (setTen j t v).baseA = j.baseA := rfl
@[simp] theorem setTen_baseB (j : Job) (t : Nat) (v : Tenant) : (setTen j t v).baseB = j.baseB := rfl
@[simp] theorem setTen_tenants (j : Job) (t : Nat) (v : Tenant) : (setTen j t v).tenants = tset {} j.tenants t v := rfl
@[simp] theorem setTen_slots (j : Job) (t : Nat) (v : Tenant) : (setTen j t v).slots = j.slots := rfl
@[simp] theorem setTen_doms (j : Job) (t : Nat) (v : Tenant) : (setTen j t v).doms = j.doms := rfl
@[simp] theorem setTen_streams (j : Job) (t : Nat) (v : Tenant) : (setTen j t v).streams = j.streams := rfl
@[simp] theorem setTen_seqs (j : Job) (t : Nat) (v : Tenant) : (setTen j t v).seqs = j.seqs := rfl
@[simp] theorem setTen_reds (j : Job) (t : Nat) (v : Tenant) : (setTen j t v).reds = j.reds := rfl
@[simp] theorem setTen_excNext (j : Job) (t : Nat) (v : Tenant) : (setTen j t v).excNext = j.excNext := rfl
@[simp] theorem setTen_boundary (j : Job) (t : Nat) (v : Tenant) : (setTen j t v).boundary = j.boundary := rfl
@[simp] theorem setTen_stepping (j : Job) (t : Nat) (v : Tenant) : (setTen j t v).stepping = j.stepping := rfl
@[simp] theorem setTen_stepReady (j : Job) (t : Nat) (v : Tenant) : (setTen j t v).stepReady = j.stepReady := rfl
@[simp] theorem setTen_stepStart (j : Job) (t : Nat) (v : Tenant) : (setTen j t v).stepStart = j.stepStart := rfl
@[simp] theorem setTen_stepFaults (j : Job) (t : Nat) (v : Tenant) : (setTen j t v).stepFaults = j.stepFaults := rfl
@[simp] theorem setTen_restAt (j : Job) (t : Nat) (v : Tenant) : (setTen j t v).restAt = j.restAt := rfl

/-! ### setSlot -/

@[simp] theorem setSlot_id (j : Job) (i : Nat) (v : Slot) : (setSlot j i v).id = j.id := rfl
@[simp] theorem setSlot_st (j : Job) (i : Nat) (v : Slot) : (setSlot j i v).st = j.st := rfl
@[simp] theorem setSlot_pblock (j : Job) (i : Nat) (v : Slot) : (setSlot j i v).pblock = j.pblock := rfl
@[simp] theorem setSlot_preempt (j : Job) (i : Nat) (v : Slot) : (setSlot j i v).preempt = j.preempt := rfl
@[simp] theorem setSlot_strict (j : Job) (i : Nat) (v : Slot) : (setSlot j i v).strict = j.strict := rfl
@[simp] theorem setSlot_fixed (j : Job) (i : Nat) (v : Slot) : (setSlot j i v).fixed = j.fixed := rfl
@[simp] theorem setSlot_waySize (j : Job) (i : Nat) (v : Slot) : (setSlot j i v).waySize = j.waySize := rfl
@[simp] theorem setSlot_stepSlot (j : Job) (i : Nat) (v : Slot) : (setSlot j i v).stepSlot = j.stepSlot := rfl
@[simp] theorem setSlot_exclog (j : Job) (i : Nat) (v : Slot) : (setSlot j i v).exclog = j.exclog := rfl
@[simp] theorem setSlot_managed (j : Job) (i : Nat) (v : Slot) : (setSlot j i v).managed = j.managed := rfl
@[simp] theorem setSlot_meetMs (j : Job) (i : Nat) (v : Slot) : (setSlot j i v).meetMs = j.meetMs := rfl
@[simp] theorem setSlot_drainUs (j : Job) (i : Nat) (v : Slot) : (setSlot j i v).drainUs = j.drainUs := rfl
@[simp] theorem setSlot_stepRows (j : Job) (i : Nat) (v : Slot) : (setSlot j i v).stepRows = j.stepRows := rfl
@[simp] theorem setSlot_chunk (j : Job) (i : Nat) (v : Slot) : (setSlot j i v).chunk = j.chunk := rfl
@[simp] theorem setSlot_pageKib (j : Job) (i : Nat) (v : Slot) : (setSlot j i v).pageKib = j.pageKib := rfl
@[simp] theorem setSlot_periodUs (j : Job) (i : Nat) (v : Slot) : (setSlot j i v).periodUs = j.periodUs := rfl
@[simp] theorem setSlot_excBase (j : Job) (i : Nat) (v : Slot) : (setSlot j i v).excBase = j.excBase := rfl
@[simp] theorem setSlot_fcast (j : Job) (i : Nat) (v : Slot) : (setSlot j i v).fcast = j.fcast := rfl
@[simp] theorem setSlot_rowTab (j : Job) (i : Nat) (v : Slot) : (setSlot j i v).rowTab = j.rowTab := rfl
@[simp] theorem setSlot_saveHome (j : Job) (i : Nat) (v : Slot) : (setSlot j i v).saveHome = j.saveHome := rfl
@[simp] theorem setSlot_stepGlades (j : Job) (i : Nat) (v : Slot) : (setSlot j i v).stepGlades = j.stepGlades := rfl
@[simp] theorem setSlot_rings (j : Job) (i : Nat) (v : Slot) : (setSlot j i v).rings = j.rings := rfl
@[simp] theorem setSlot_egr (j : Job) (i : Nat) (v : Slot) : (setSlot j i v).egr = j.egr := rfl
@[simp] theorem setSlot_nonce (j : Job) (i : Nat) (v : Slot) : (setSlot j i v).nonce = j.nonce := rfl
@[simp] theorem setSlot_saveCount (j : Job) (i : Nat) (v : Slot) : (setSlot j i v).saveCount = j.saveCount := rfl
@[simp] theorem setSlot_segs (j : Job) (i : Nat) (v : Slot) : (setSlot j i v).segs = j.segs := rfl
@[simp] theorem setSlot_progs (j : Job) (i : Nat) (v : Slot) : (setSlot j i v).progs = j.progs := rfl
@[simp] theorem setSlot_baseA (j : Job) (i : Nat) (v : Slot) : (setSlot j i v).baseA = j.baseA := rfl
@[simp] theorem setSlot_baseB (j : Job) (i : Nat) (v : Slot) : (setSlot j i v).baseB = j.baseB := rfl
@[simp] theorem setSlot_tenants (j : Job) (i : Nat) (v : Slot) : (setSlot j i v).tenants = j.tenants := rfl
@[simp] theorem setSlot_slots (j : Job) (i : Nat) (v : Slot) : (setSlot j i v).slots = tset {} j.slots i v := rfl
@[simp] theorem setSlot_doms (j : Job) (i : Nat) (v : Slot) : (setSlot j i v).doms = j.doms := rfl
@[simp] theorem setSlot_streams (j : Job) (i : Nat) (v : Slot) : (setSlot j i v).streams = j.streams := rfl
@[simp] theorem setSlot_seqs (j : Job) (i : Nat) (v : Slot) : (setSlot j i v).seqs = j.seqs := rfl
@[simp] theorem setSlot_reds (j : Job) (i : Nat) (v : Slot) : (setSlot j i v).reds = j.reds := rfl
@[simp] theorem setSlot_excNext (j : Job) (i : Nat) (v : Slot) : (setSlot j i v).excNext = j.excNext := rfl
@[simp] theorem setSlot_boundary (j : Job) (i : Nat) (v : Slot) : (setSlot j i v).boundary = j.boundary := rfl
@[simp] theorem setSlot_stepping (j : Job) (i : Nat) (v : Slot) : (setSlot j i v).stepping = j.stepping := rfl
@[simp] theorem setSlot_stepReady (j : Job) (i : Nat) (v : Slot) : (setSlot j i v).stepReady = j.stepReady := rfl
@[simp] theorem setSlot_stepStart (j : Job) (i : Nat) (v : Slot) : (setSlot j i v).stepStart = j.stepStart := rfl
@[simp] theorem setSlot_stepFaults (j : Job) (i : Nat) (v : Slot) : (setSlot j i v).stepFaults = j.stepFaults := rfl
@[simp] theorem setSlot_restAt (j : Job) (i : Nat) (v : Slot) : (setSlot j i v).restAt = j.restAt := rfl

/-! ### setDom -/

@[simp] theorem setDom_id (j : Job) (d : Nat) (v : Dom) : (setDom j d v).id = j.id := rfl
@[simp] theorem setDom_st (j : Job) (d : Nat) (v : Dom) : (setDom j d v).st = j.st := rfl
@[simp] theorem setDom_pblock (j : Job) (d : Nat) (v : Dom) : (setDom j d v).pblock = j.pblock := rfl
@[simp] theorem setDom_preempt (j : Job) (d : Nat) (v : Dom) : (setDom j d v).preempt = j.preempt := rfl
@[simp] theorem setDom_strict (j : Job) (d : Nat) (v : Dom) : (setDom j d v).strict = j.strict := rfl
@[simp] theorem setDom_fixed (j : Job) (d : Nat) (v : Dom) : (setDom j d v).fixed = j.fixed := rfl
@[simp] theorem setDom_waySize (j : Job) (d : Nat) (v : Dom) : (setDom j d v).waySize = j.waySize := rfl
@[simp] theorem setDom_stepSlot (j : Job) (d : Nat) (v : Dom) : (setDom j d v).stepSlot = j.stepSlot := rfl
@[simp] theorem setDom_exclog (j : Job) (d : Nat) (v : Dom) : (setDom j d v).exclog = j.exclog := rfl
@[simp] theorem setDom_managed (j : Job) (d : Nat) (v : Dom) : (setDom j d v).managed = j.managed := rfl
@[simp] theorem setDom_meetMs (j : Job) (d : Nat) (v : Dom) : (setDom j d v).meetMs = j.meetMs := rfl
@[simp] theorem setDom_drainUs (j : Job) (d : Nat) (v : Dom) : (setDom j d v).drainUs = j.drainUs := rfl
@[simp] theorem setDom_stepRows (j : Job) (d : Nat) (v : Dom) : (setDom j d v).stepRows = j.stepRows := rfl
@[simp] theorem setDom_chunk (j : Job) (d : Nat) (v : Dom) : (setDom j d v).chunk = j.chunk := rfl
@[simp] theorem setDom_pageKib (j : Job) (d : Nat) (v : Dom) : (setDom j d v).pageKib = j.pageKib := rfl
@[simp] theorem setDom_periodUs (j : Job) (d : Nat) (v : Dom) : (setDom j d v).periodUs = j.periodUs := rfl
@[simp] theorem setDom_excBase (j : Job) (d : Nat) (v : Dom) : (setDom j d v).excBase = j.excBase := rfl
@[simp] theorem setDom_fcast (j : Job) (d : Nat) (v : Dom) : (setDom j d v).fcast = j.fcast := rfl
@[simp] theorem setDom_rowTab (j : Job) (d : Nat) (v : Dom) : (setDom j d v).rowTab = j.rowTab := rfl
@[simp] theorem setDom_saveHome (j : Job) (d : Nat) (v : Dom) : (setDom j d v).saveHome = j.saveHome := rfl
@[simp] theorem setDom_stepGlades (j : Job) (d : Nat) (v : Dom) : (setDom j d v).stepGlades = j.stepGlades := rfl
@[simp] theorem setDom_rings (j : Job) (d : Nat) (v : Dom) : (setDom j d v).rings = j.rings := rfl
@[simp] theorem setDom_egr (j : Job) (d : Nat) (v : Dom) : (setDom j d v).egr = j.egr := rfl
@[simp] theorem setDom_nonce (j : Job) (d : Nat) (v : Dom) : (setDom j d v).nonce = j.nonce := rfl
@[simp] theorem setDom_saveCount (j : Job) (d : Nat) (v : Dom) : (setDom j d v).saveCount = j.saveCount := rfl
@[simp] theorem setDom_segs (j : Job) (d : Nat) (v : Dom) : (setDom j d v).segs = j.segs := rfl
@[simp] theorem setDom_progs (j : Job) (d : Nat) (v : Dom) : (setDom j d v).progs = j.progs := rfl
@[simp] theorem setDom_baseA (j : Job) (d : Nat) (v : Dom) : (setDom j d v).baseA = j.baseA := rfl
@[simp] theorem setDom_baseB (j : Job) (d : Nat) (v : Dom) : (setDom j d v).baseB = j.baseB := rfl
@[simp] theorem setDom_tenants (j : Job) (d : Nat) (v : Dom) : (setDom j d v).tenants = j.tenants := rfl
@[simp] theorem setDom_slots (j : Job) (d : Nat) (v : Dom) : (setDom j d v).slots = j.slots := rfl
@[simp] theorem setDom_doms (j : Job) (d : Nat) (v : Dom) : (setDom j d v).doms = tset {} j.doms d v := rfl
@[simp] theorem setDom_streams (j : Job) (d : Nat) (v : Dom) : (setDom j d v).streams = j.streams := rfl
@[simp] theorem setDom_seqs (j : Job) (d : Nat) (v : Dom) : (setDom j d v).seqs = j.seqs := rfl
@[simp] theorem setDom_reds (j : Job) (d : Nat) (v : Dom) : (setDom j d v).reds = j.reds := rfl
@[simp] theorem setDom_excNext (j : Job) (d : Nat) (v : Dom) : (setDom j d v).excNext = j.excNext := rfl
@[simp] theorem setDom_boundary (j : Job) (d : Nat) (v : Dom) : (setDom j d v).boundary = j.boundary := rfl
@[simp] theorem setDom_stepping (j : Job) (d : Nat) (v : Dom) : (setDom j d v).stepping = j.stepping := rfl
@[simp] theorem setDom_stepReady (j : Job) (d : Nat) (v : Dom) : (setDom j d v).stepReady = j.stepReady := rfl
@[simp] theorem setDom_stepStart (j : Job) (d : Nat) (v : Dom) : (setDom j d v).stepStart = j.stepStart := rfl
@[simp] theorem setDom_stepFaults (j : Job) (d : Nat) (v : Dom) : (setDom j d v).stepFaults = j.stepFaults := rfl
@[simp] theorem setDom_restAt (j : Job) (d : Nat) (v : Dom) : (setDom j d v).restAt = j.restAt := rfl

/-! ### setStream -/

@[simp] theorem setStream_id (j : Job) (i : Nat) (v : Stream) : (setStream j i v).id = j.id := rfl
@[simp] theorem setStream_st (j : Job) (i : Nat) (v : Stream) : (setStream j i v).st = j.st := rfl
@[simp] theorem setStream_pblock (j : Job) (i : Nat) (v : Stream) : (setStream j i v).pblock = j.pblock := rfl
@[simp] theorem setStream_preempt (j : Job) (i : Nat) (v : Stream) : (setStream j i v).preempt = j.preempt := rfl
@[simp] theorem setStream_strict (j : Job) (i : Nat) (v : Stream) : (setStream j i v).strict = j.strict := rfl
@[simp] theorem setStream_fixed (j : Job) (i : Nat) (v : Stream) : (setStream j i v).fixed = j.fixed := rfl
@[simp] theorem setStream_waySize (j : Job) (i : Nat) (v : Stream) : (setStream j i v).waySize = j.waySize := rfl
@[simp] theorem setStream_stepSlot (j : Job) (i : Nat) (v : Stream) : (setStream j i v).stepSlot = j.stepSlot := rfl
@[simp] theorem setStream_exclog (j : Job) (i : Nat) (v : Stream) : (setStream j i v).exclog = j.exclog := rfl
@[simp] theorem setStream_managed (j : Job) (i : Nat) (v : Stream) : (setStream j i v).managed = j.managed := rfl
@[simp] theorem setStream_meetMs (j : Job) (i : Nat) (v : Stream) : (setStream j i v).meetMs = j.meetMs := rfl
@[simp] theorem setStream_drainUs (j : Job) (i : Nat) (v : Stream) : (setStream j i v).drainUs = j.drainUs := rfl
@[simp] theorem setStream_stepRows (j : Job) (i : Nat) (v : Stream) : (setStream j i v).stepRows = j.stepRows := rfl
@[simp] theorem setStream_chunk (j : Job) (i : Nat) (v : Stream) : (setStream j i v).chunk = j.chunk := rfl
@[simp] theorem setStream_pageKib (j : Job) (i : Nat) (v : Stream) : (setStream j i v).pageKib = j.pageKib := rfl
@[simp] theorem setStream_periodUs (j : Job) (i : Nat) (v : Stream) : (setStream j i v).periodUs = j.periodUs := rfl
@[simp] theorem setStream_excBase (j : Job) (i : Nat) (v : Stream) : (setStream j i v).excBase = j.excBase := rfl
@[simp] theorem setStream_fcast (j : Job) (i : Nat) (v : Stream) : (setStream j i v).fcast = j.fcast := rfl
@[simp] theorem setStream_rowTab (j : Job) (i : Nat) (v : Stream) : (setStream j i v).rowTab = j.rowTab := rfl
@[simp] theorem setStream_saveHome (j : Job) (i : Nat) (v : Stream) : (setStream j i v).saveHome = j.saveHome := rfl
@[simp] theorem setStream_stepGlades (j : Job) (i : Nat) (v : Stream) : (setStream j i v).stepGlades = j.stepGlades := rfl
@[simp] theorem setStream_rings (j : Job) (i : Nat) (v : Stream) : (setStream j i v).rings = j.rings := rfl
@[simp] theorem setStream_egr (j : Job) (i : Nat) (v : Stream) : (setStream j i v).egr = j.egr := rfl
@[simp] theorem setStream_nonce (j : Job) (i : Nat) (v : Stream) : (setStream j i v).nonce = j.nonce := rfl
@[simp] theorem setStream_saveCount (j : Job) (i : Nat) (v : Stream) : (setStream j i v).saveCount = j.saveCount := rfl
@[simp] theorem setStream_segs (j : Job) (i : Nat) (v : Stream) : (setStream j i v).segs = j.segs := rfl
@[simp] theorem setStream_progs (j : Job) (i : Nat) (v : Stream) : (setStream j i v).progs = j.progs := rfl
@[simp] theorem setStream_baseA (j : Job) (i : Nat) (v : Stream) : (setStream j i v).baseA = j.baseA := rfl
@[simp] theorem setStream_baseB (j : Job) (i : Nat) (v : Stream) : (setStream j i v).baseB = j.baseB := rfl
@[simp] theorem setStream_tenants (j : Job) (i : Nat) (v : Stream) : (setStream j i v).tenants = j.tenants := rfl
@[simp] theorem setStream_slots (j : Job) (i : Nat) (v : Stream) : (setStream j i v).slots = j.slots := rfl
@[simp] theorem setStream_doms (j : Job) (i : Nat) (v : Stream) : (setStream j i v).doms = j.doms := rfl
@[simp] theorem setStream_streams (j : Job) (i : Nat) (v : Stream) : (setStream j i v).streams = tset {} j.streams i v := rfl
@[simp] theorem setStream_seqs (j : Job) (i : Nat) (v : Stream) : (setStream j i v).seqs = j.seqs := rfl
@[simp] theorem setStream_reds (j : Job) (i : Nat) (v : Stream) : (setStream j i v).reds = j.reds := rfl
@[simp] theorem setStream_excNext (j : Job) (i : Nat) (v : Stream) : (setStream j i v).excNext = j.excNext := rfl
@[simp] theorem setStream_boundary (j : Job) (i : Nat) (v : Stream) : (setStream j i v).boundary = j.boundary := rfl
@[simp] theorem setStream_stepping (j : Job) (i : Nat) (v : Stream) : (setStream j i v).stepping = j.stepping := rfl
@[simp] theorem setStream_stepReady (j : Job) (i : Nat) (v : Stream) : (setStream j i v).stepReady = j.stepReady := rfl
@[simp] theorem setStream_stepStart (j : Job) (i : Nat) (v : Stream) : (setStream j i v).stepStart = j.stepStart := rfl
@[simp] theorem setStream_stepFaults (j : Job) (i : Nat) (v : Stream) : (setStream j i v).stepFaults = j.stepFaults := rfl
@[simp] theorem setStream_restAt (j : Job) (i : Nat) (v : Stream) : (setStream j i v).restAt = j.restAt := rfl

end Sys2Proof.Laws
end

