-- ==== Sys2Proof/Laws/Tab.lean ====
section
/-! SUPPORT. Sparse tables and memories: read after write, canonical form, byte strings. -/

namespace Sys2Proof.Laws

open Sys2Proof.Machine

variable {α : Type}

/-! ### Reads of the raw operations -/

theorem tget_tdel_same (d : α) (t : Tab α) (k : Nat) : tget d (tdel t k) k = d := by
  induction t with
  | nil => rfl
  | cons e r ih =>
    by_cases h : e.1 = k
    · simpa [tdel, h] using ih
    · simpa [tdel, tget, h] using ih

theorem tget_tdel_ne (d : α) (t : Tab α) {k x : Nat} (h : x ≠ k) : tget d (tdel t k) x = tget d t x := by
  induction t with
  | nil => rfl
  | cons e r ih =>
    by_cases he : e.1 = k
    · have hx : e.1 ≠ x := fun hh => h (hh.symm.trans he)
      have : tdel (e :: r) k = tdel r k := by simp [tdel, he]
      rw [this, ih]; simp [tget, hx]
    · have : tdel (e :: r) k = e :: tdel r k := by simp [tdel, he]
      rw [this]; simp only [tget, ih]

theorem tget_tins_ne (d : α) (t : Tab α) {k x : Nat} (v : α) (h : x ≠ k) : tget d (tins t k v) x = tget d t x := by
  induction t with
  | nil => simp [tins, tget, h.symm]
  | cons e r ih =>
    by_cases hk : k < e.1
    · simp [tins, hk, tget, h.symm]
    · simp only [tins, hk, if_false, tget, ih]

theorem tget_tins_same (d : α) (t : Tab α) (k : Nat) (v : α) (h : ∀ e ∈ t, e.1 ≠ k) : tget d (tins t k v) k = v := by
  induction t with
  | nil => simp [tins, tget]
  | cons e r ih =>
    by_cases hk : k < e.1
    · simp [tins, hk, tget]
    · have he : e.1 ≠ k := h e (by simp)
      simp only [tins, hk, if_false, tget, he]
      exact ih (fun x hx => h x (by simp [hx]))

theorem tdel_keys (t : Tab α) (k : Nat) : ∀ e ∈ tdel t k, e.1 ≠ k := by
  intro e he; simp [tdel] at he; exact he.2

theorem tdel_of_keys (t : Tab α) (k : Nat) (h : ∀ e ∈ t, e.1 ≠ k) : tdel t k = t := by
  simp only [tdel, List.filter_eq_self]; intro e he; simp [h e he]

theorem tdel_tins (t : Tab α) (k : Nat) (v : α) (h : ∀ e ∈ t, e.1 ≠ k) : tdel (tins t k v) k = t := by
  induction t with
  | nil => simp [tins, tdel]
  | cons e r ih =>
    have he : e.1 ≠ k := h e (by simp)
    have hr := ih (fun x hx => h x (by simp [hx]))
    by_cases hk : k < e.1
    · simp only [tins, hk, if_true]
      have : tdel ((k, v) :: e :: r) k = tdel (e :: r) k := by simp [tdel]
      rw [this, tdel_of_keys _ _ h]
    · simp only [tins, hk, if_false]
      have : tdel (e :: tins r k v) k = e :: tdel (tins r k v) k := by simp [tdel, he]
      rw [this, hr]

theorem tdel_tdel (t : Tab α) (k : Nat) : tdel (tdel t k) k = tdel t k := tdel_of_keys _ _ (tdel_keys t k)

theorem tins_mem {t : Tab α} {k : Nat} {v : α} {f : Nat × α} (h : f ∈ tins t k v) : f = (k, v) ∨ f ∈ t := by
  induction t with
  | nil => simpa [tins] using h
  | cons e r ih =>
    by_cases hk : k < e.1
    · simpa [tins, hk] using h
    · simp only [tins, hk, if_false, List.mem_cons] at h
      rcases h with h | h
      · exact .inr (by simp [h])
      · rcases ih h with h | h
        · exact .inl h
        · exact .inr (by simp [h])

/-! ### Read after write -/

@[simp] theorem tget_nil (d : α) (k : Nat) : tget d ([] : Tab α) k = d := rfl

variable [DecidableEq α]

@[simp] theorem tget_tset_same (d : α) (t : Tab α) (k : Nat) (v : α) : tget d (tset d t k v) k = v := by
  unfold tset
  split
  · next h => rw [tget_tdel_same, h]
  · exact tget_tins_same d _ k v (tdel_keys t k)

theorem tget_tset_ne (d : α) (t : Tab α) {k x : Nat} (v : α) (h : x ≠ k) : tget d (tset d t k v) x = tget d t x := by
  unfold tset
  split
  · exact tget_tdel_ne d t h
  · rw [tget_tins_ne d _ v h, tget_tdel_ne d t h]

/-- A table after a write, read anywhere. -/
theorem tget_tset (d : α) (t : Tab α) (k x : Nat) (v : α) : tget d (tset d t k v) x = if x = k then v else tget d t x := by
  split
  · next h => rw [h, tget_tset_same]
  · next h => exact tget_tset_ne d t v h

/-- A second write to a key replaces the first. -/
@[simp] theorem tset_tset (d : α) (t : Tab α) (k : Nat) (v w : α) : tset d (tset d t k v) k w = tset d t k w := by
  have hd : tdel (tset d t k v) k = tdel t k := by
    unfold tset
    split
    · exact tdel_tdel t k
    · exact tdel_tins _ k v (tdel_keys t k)
  show (if w = d then tdel (tset d t k v) k else tins (tdel (tset d t k v) k) k w) = _
  rw [hd]; rfl

/-! ### The canonical form (log 5) -/

theorem twf_cons {d : α} {e : Nat × α} {r : Tab α} :
    twf d (e :: r) = true ↔ e.2 ≠ d ∧ (∀ f ∈ r, e.1 < f.1) ∧ twf d r = true := by
  simp [twf, Bool.and_eq_true, and_assoc]

theorem twf_filter {d : α} {t : Tab α} (p : Nat × α → Bool) (h : twf d t = true) : twf d (t.filter p) = true := by
  induction t with
  | nil => rfl
  | cons e r ih =>
    obtain ⟨h1, h2, h3⟩ := twf_cons.mp h
    by_cases hp : p e = true
    · rw [List.filter_cons_of_pos hp]
      exact twf_cons.mpr ⟨h1, fun f hf => h2 f (List.mem_of_mem_filter hf), ih h3⟩
    · rw [List.filter_cons_of_neg hp]; exact ih h3

theorem twf_tins {d : α} {t : Tab α} {k : Nat} {v : α} (hv : v ≠ d) (hk : ∀ e ∈ t, e.1 ≠ k) (h : twf d t = true) :
    twf d (tins t k v) = true := by
  induction t with
  | nil => simp [tins, twf, hv]
  | cons e r ih =>
    obtain ⟨h1, h2, h3⟩ := twf_cons.mp h
    have he : e.1 ≠ k := hk e (by simp)
    by_cases hlt : k < e.1
    · simp only [tins, hlt, if_true]
      refine twf_cons.mpr ⟨hv, fun f hf => ?_, h⟩
      rcases List.mem_cons.mp hf with rfl | hf
      · exact hlt
      · exact Nat.lt_trans hlt (h2 f hf)
    · simp only [tins, hlt, if_false]
      refine twf_cons.mpr ⟨h1, fun f hf => ?_, ih (fun x hx => hk x (by simp [hx])) h3⟩
      rcases tins_mem hf with rfl | hf
      · show e.1 < k; omega
      · exact h2 f hf

/-- A write keeps a table canonical. -/
theorem twf_tset {d : α} {t : Tab α} (k : Nat) (v : α) (h : twf d t = true) : twf d (tset d t k v) = true := by
  unfold tset
  split
  · exact twf_filter _ h
  · next hv => exact twf_tins hv (tdel_keys t k) (twf_filter _ h)

/-! ### Memories -/

@[simp] theorem rd1_wr1_same (m : Mem) (a : Nat) (b : Byte) : rd1 (wr1 m a b) a = b := tget_tset_same 0 m a b

theorem rd1_wr1_ne (m : Mem) {a x : Nat} (b : Byte) (h : x ≠ a) : rd1 (wr1 m a b) x = rd1 m x := tget_tset_ne 0 m b h

/-- One byte after a write of a byte string. -/
theorem rd1_wrBytes (m : Mem) (a : Nat) (b : Bytes) (x : Nat) :
    rd1 (wrBytes m a b) x = if a ≤ x ∧ x < a + b.length then b.getD (x - a) 0 else rd1 m x := by
  induction b generalizing m a with
  | nil => simp [wrBytes]
  | cons c r ih =>
    rw [wrBytes, ih]
    by_cases hx : x = a
    · subst hx; simp
    · by_cases h : a + 1 ≤ x ∧ x < a + 1 + r.length
      · have h2 : a ≤ x ∧ x < a + (c :: r).length := by simp; omega
        have h3 : x - a = (x - (a + 1)) + 1 := by omega
        rw [if_pos h, if_pos h2, h3]; simp
      · have h2 : ¬ (a ≤ x ∧ x < a + (c :: r).length) := by simp; omega
        rw [if_neg h, if_neg h2, rd1_wr1_ne m c hx]

/-- A byte outside a written range is unchanged. -/
theorem rd1_wrBytes_outside (m : Mem) (a : Nat) (b : Bytes) {x : Nat} (h : x < a ∨ a + b.length ≤ x) :
    rd1 (wrBytes m a b) x = rd1 m x := by rw [rd1_wrBytes, if_neg (by omega)]

@[simp] theorem rdBytes_length (m : Mem) (a n : Nat) : (rdBytes m a n).length = n := by simp [rdBytes]

/-- A range read back after it was written. -/
@[simp] theorem rdBytes_wrBytes_same (m : Mem) (a : Nat) (b : Bytes) : rdBytes (wrBytes m a b) a b.length = b := by
  apply List.ext_getElem (by simp)
  intro i h1 h2
  simp only [rdBytes, List.getElem_map, List.getElem_range, rd1_wrBytes]
  rw [if_pos ⟨by omega, by omega⟩]
  simp [h2]

/-- A range disjoint from a written one reads as before. -/
theorem rdBytes_wrBytes_disjoint (m : Mem) (a : Nat) (b : Bytes) {x n : Nat} (h : x + n ≤ a ∨ a + b.length ≤ x) :
    rdBytes (wrBytes m a b) x n = rdBytes m x n := by
  simp only [rdBytes]
  refine List.map_congr_left (fun i hi => rd1_wrBytes_outside m a b ?_)
  have := List.mem_range.mp hi
  omega

theorem rd1_clearRange (m : Mem) (a n x : Nat) : rd1 (clearRange m a n) x = if a ≤ x ∧ x < a + n then 0 else rd1 m x := by
  simp only [rd1, clearRange]
  induction m with
  | nil => simp [tget]
  | cons e r ih =>
    by_cases he : e.1 < a ∨ a + n ≤ e.1
    · rw [List.filter_cons_of_pos (by simpa using he)]
      simp only [tget, ih]
      by_cases hx : e.1 = x
      · rw [if_pos hx, if_pos hx, if_neg (by omega)]
      · rw [if_neg hx, if_neg hx]
    · rw [List.filter_cons_of_neg (by simpa using he), ih]
      by_cases hx : e.1 = x
      · have : a ≤ x ∧ x < a + n := by omega
        simp [this]
      · simp [tget, hx]

/-! ### Every memory operation keeps the canonical form -/

theorem wf_nil : Memory.wf [] = true := rfl

theorem wf_wr1 {m : Mem} (a : Nat) (b : Byte) (h : Memory.wf m = true) : Memory.wf (wr1 m a b) = true := twf_tset a b h

theorem wf_wrBytes {m : Mem} (a : Nat) (b : Bytes) (h : Memory.wf m = true) : Memory.wf (wrBytes m a b) = true := by
  induction b generalizing m a with
  | nil => exact h
  | cons c r ih => exact ih (a + 1) (wf_wr1 a c h)

theorem wf_filter {m : Mem} (p : Host.Cell → Bool) (h : Memory.wf m = true) : Memory.wf (m.filter p) = true := twf_filter p h

theorem wf_clearRange {m : Mem} (a n : Nat) (h : Memory.wf m = true) : Memory.wf (clearRange m a n) = true := wf_filter _ h

/-- Laying cells over a memory one by one. -/
theorem wf_overlay {m : Mem} (l : List Host.Cell) (h : Memory.wf m = true) :
    Memory.wf (l.foldl (fun m c => wr1 m c.1 c.2) m) = true := by
  induction l generalizing m with
  | nil => exact h
  | cons c r ih => exact ih (wf_wr1 c.1 c.2 h)

/-! ### Little-endian fields (R6) -/

@[simp] theorem natLe_length (n k : Nat) : (natLe n k).length = k := by
  induction k generalizing n with
  | zero => rfl
  | succ k ih => simp [natLe, ih]

@[simp] theorem bvLe_length {w : Nat} (v : BitVec w) (k : Nat) : (bvLe v k).length = k := natLe_length _ _

/-- Bytes written and read back give the number modulo 2 to the width. -/
theorem leNat_natLe (n k : Nat) : leNat (natLe n k) = n % 2 ^ (8 * k) := by
  induction k generalizing n with
  | zero => simp [natLe, leNat, Nat.mod_one]
  | succ k ih =>
    simp only [natLe, leNat, ih, BitVec.toNat_ofNat]
    rw [show 2 ^ (8 * (k + 1)) = 2 ^ 8 * 2 ^ (8 * k) by rw [← Nat.pow_add]; congr 1; omega, Nat.mod_mul]; rfl

theorem leNat_lt (b : Bytes) : leNat b < 2 ^ (8 * b.length) := by
  induction b with
  | nil => simp [leNat]
  | cons c r ih =>
    have hc := c.isLt
    simp only [leNat, List.length_cons]
    rw [show 2 ^ (8 * (r.length + 1)) = 256 * 2 ^ (8 * r.length) by
      rw [show 8 * (r.length + 1) = 8 + 8 * r.length by omega, Nat.pow_add]]
    omega

/-! ### Folds of a step that keeps a property -/

theorem foldl_keeps {σ β : Type} (P : σ → Prop) (f : σ → β → σ) (l : List β) (s : σ) (h : P s) (hf : ∀ s x, P s → P (f s x)) :
    P (l.foldl f s) := by
  induction l generalizing s with
  | nil => exact h
  | cons x r ih => exact ih (f s x) (hf s x h)

end Sys2Proof.Laws
end

