-- ==== Sys2Proof/Laws/Ops.lean ====
section
/-! SUPPORT. What the named operations do: objects read after they were set, commands after a change, device writes. -/

namespace Sys2Proof.Laws

open Sys2Proof.Machine

/-! ### Objects read after they were set -/

@[simp] theorem ringOf_setRing_same (s : State) (r : Nat) (v : Ring) : ringOf (setRing s r v) r = v := tget_tset_same _ _ _ _
@[simp] theorem gladeOf_setGlade_same (s : State) (g : Nat) (v : Glade) : gladeOf (setGlade s g v) g = v := tget_tset_same _ _ _ _
@[simp] theorem chanOf_setChan_same (s : State) (c : Nat) (v : Chan) : chanOf (setChan s c v) c = v := tget_tset_same _ _ _ _
@[simp] theorem portOf_setPort_same (s : State) (p : Nat) (v : Port) : portOf (setPort s p v) p = v := tget_tset_same _ _ _ _
@[simp] theorem pdOf_setPd_same (s : State) (i : Nat) (v : Pd) : pdOf (setPd s i v) i = v := tget_tset_same _ _ _ _
@[simp] theorem halfOf_setHalf_same (s : State) (h : Nat) (v : Half) : halfOf (setHalf s h v) h = v := tget_tset_same _ _ _ _
@[simp] theorem sealOf_setSeal_same (s : State) (l : Nat) (v : Option Seal) : sealOf (setSeal s l v) l = v := tget_tset_same _ _ _ _
@[simp] theorem tagOf_setTag_same (s : State) (l : Nat) (t : Tag) : tagOf (setTag s l t) l = t := tget_tset_same _ _ _ _
@[simp] theorem tenOf_setTen_same (j : Job) (t : Nat) (v : Tenant) : tenOf (setTen j t v) t = v := tget_tset_same _ _ _ _
@[simp] theorem slotOf_setSlot_same (j : Job) (i : Nat) (v : Slot) : slotOf (setSlot j i v) i = v := tget_tset_same _ _ _ _
@[simp] theorem domOf_setDom_same (j : Job) (d : Nat) (v : Dom) : domOf (setDom j d v) d = v := tget_tset_same _ _ _ _
@[simp] theorem streamOf_setStream_same (j : Job) (i : Nat) (v : Stream) : streamOf (setStream j i v) i = v := tget_tset_same _ _ _ _
@[simp] theorem jobOf_setJob (s : State) (j : Job) : jobOf (setJob s j) = j := rfl

theorem ringOf_setRing_ne (s : State) {r x : Nat} (v : Ring) (h : x ≠ r) : ringOf (setRing s r v) x = ringOf s x := tget_tset_ne _ _ _ h
theorem gladeOf_setGlade_ne (s : State) {g x : Nat} (v : Glade) (h : x ≠ g) : gladeOf (setGlade s g v) x = gladeOf s x := tget_tset_ne _ _ _ h
theorem chanOf_setChan_ne (s : State) {c x : Nat} (v : Chan) (h : x ≠ c) : chanOf (setChan s c v) x = chanOf s x := tget_tset_ne _ _ _ h
theorem portOf_setPort_ne (s : State) {p x : Nat} (v : Port) (h : x ≠ p) : portOf (setPort s p v) x = portOf s x := tget_tset_ne _ _ _ h
theorem pdOf_setPd_ne (s : State) {i x : Nat} (v : Pd) (h : x ≠ i) : pdOf (setPd s i v) x = pdOf s x := by
  unfold pdOf setPd
  by_cases hx : x < 32 ∧ i < 32 ∨ ¬ x < 32 ∧ ¬ i < 32
  · have : pdInit x = pdInit i := by unfold pdInit; split <;> split <;> first | rfl | omega
    rw [this]; exact tget_tset_ne _ _ _ h
  · have gen : ∀ (d d' : Pd) (t : Tab Pd), tget d (tset d' t i v) x = tget d t x := by
      intro d d' t
      unfold tset
      split
      · exact tget_tdel_ne d t h
      · rw [tget_tins_ne d _ v h, tget_tdel_ne d t h]
    exact gen _ _ _
theorem tagOf_setTag_ne (s : State) {l x : Nat} (t : Tag) (h : x ≠ l) : tagOf (setTag s l t) x = tagOf s x := tget_tset_ne _ _ _ h
theorem sealOf_setSeal_ne (s : State) {l x : Nat} (v : Option Seal) (h : x ≠ l) : sealOf (setSeal s l v) x = sealOf s x := tget_tset_ne _ _ _ h
theorem tenOf_setTen_ne (j : Job) {t x : Nat} (v : Tenant) (h : x ≠ t) : tenOf (setTen j t v) x = tenOf j x := tget_tset_ne _ _ _ h
theorem slotOf_setSlot_ne (j : Job) {i x : Nat} (v : Slot) (h : x ≠ i) : slotOf (setSlot j i v) x = slotOf j x := tget_tset_ne _ _ _ h
theorem domOf_setDom_ne (j : Job) {d x : Nat} (v : Dom) (h : x ≠ d) : domOf (setDom j d v) x = domOf j x := tget_tset_ne _ _ _ h
theorem streamOf_setStream_ne (j : Job) {i x : Nat} (v : Stream) (h : x ≠ i) : streamOf (setStream j i v) x = streamOf j x := tget_tset_ne _ _ _ h

@[simp] theorem setGlade_setGlade (s : State) (g : Nat) (v w : Glade) : setGlade (setGlade s g v) g w = setGlade s g w := by
  simp [setGlade]

/-! ### Engines -/

@[simp] theorem engOf_setEng_same (g : Glade) (e : Engine) (v : Eng) : engOf (setEng g e v) e = v := by cases e <;> rfl
@[simp] theorem setEng_setEng (g : Glade) (e : Engine) (v w : Eng) : setEng (setEng g e v) e w = setEng g e w := by cases e <;> rfl
theorem engOf_setEng_ne (g : Glade) {e f : Engine} (v : Eng) (h : f ≠ e) : engOf (setEng g e v) f = engOf g f := by
  cases e <;> cases f <;> first | rfl | exact absurd rfl h

@[simp] theorem curEng_setCur (s : State) (i : GI) (e : Eng) : curEng (setCur s i e) i = e := by simp [curEng, setCur]
@[simp] theorem setCur_setCur (s : State) (i : GI) (e f : Eng) : setCur (setCur s i e) i f = setCur s i f := by simp [setCur]

/-! ### Scalar registers and descriptors -/

@[simp] theorem sGet_zero (e : Eng) : sGet e 0 = 0 := rfl
@[simp] theorem sSet_zero (e : Eng) (v : BitVec 64) : sSet e 0 v = e := rfl

/-- s0 reads 0 whatever was written to it; any other register reads its last write (R127). -/
theorem sGet_sSet_same (e : Eng) (r : Nat) (v : BitVec 64) : sGet (sSet e r v) r = if r = 0 then 0 else v := by
  by_cases h : r = 0
  · simp [h]
  · simp [sGet, sSet, h]

theorem sGet_sSet_ne (e : Eng) {r x : Nat} (v : BitVec 64) (h : x ≠ r) : sGet (sSet e r v) x = sGet e x := by
  by_cases hr : r = 0
  · simp [hr]
  · simp [sGet, sSet, hr, tget_tset_ne _ _ _ h]

@[simp] theorem sSet_pc (e : Eng) (r : Nat) (v : BitVec 64) : (sSet e r v).pc = e.pc := by unfold sSet; split <;> rfl
@[simp] theorem sSet_st (e : Eng) (r : Nat) (v : BitVec 64) : (sSet e r v).st = e.st := by unfold sSet; split <;> rfl
@[simp] theorem sSet_td (e : Eng) (r : Nat) (v : BitVec 64) : (sSet e r v).td = e.td := by unfold sSet; split <;> rfl
@[simp] theorem sSet_p (e : Eng) (r : Nat) (v : BitVec 64) : (sSet e r v).p = e.p := by unfold sSet; split <;> rfl
@[simp] theorem sSet_sectStart (e : Eng) (r : Nat) (v : BitVec 64) : (sSet e r v).sectStart = e.sectStart := by unfold sSet; split <;> rfl
@[simp] theorem sSet_sectEnd (e : Eng) (r : Nat) (v : BitVec 64) : (sSet e r v).sectEnd = e.sectEnd := by unfold sSet; split <;> rfl
@[simp] theorem tdGet_tdSet_same (e : Eng) (k : Nat) (t : Td) : tdGet (tdSet e k t) k = t := tget_tset_same _ _ _ _
theorem tdGet_tdSet_ne (e : Eng) {k x : Nat} (t : Td) (h : x ≠ k) : tdGet (tdSet e k t) x = tdGet e x := tget_tset_ne _ _ _ h

/-! ### Commands -/

/-- A command found after a change of the command of its number. -/
theorem findCmd_updCmd (s : State) (a b : BitVec 64) (f : Cmd → Cmd) (hf : ∀ c, (f c).acc = c.acc) :
    findCmd (updCmd s a f) b = (findCmd s b).map (fun c => if c.acc = a then f c else c) := by
  have : (fun c : Cmd => decide ((if c.acc = a then f c else c).acc = b)) = (fun c => decide (c.acc = b)) := by
    funext c; split
    · rw [hf]
    · rfl
  simp only [findCmd, updCmd, List.find?_map, Function.comp_def, this]

/-- A finished command's phase and status; one that had finished keeps its status (R400, R511). -/
theorem findCmd_finish (s : State) (a : BitVec 64) (st : Byte) {c : Cmd} (h : findCmd s a = some c) :
    findCmd (finish s a st) a = some (if c.ph = .done then c else { c with ph := .done, status := finalStatus c st }) := by
  have hc : c.acc = a := by
    have := List.find?_some h; simpa using this
  unfold finish
  rw [findCmd_updCmd, h]
  · simp [hc]
  · intro c; split <;> rfl

/-- A status from 0x10 upward is the one a command ends with (R511). -/
theorem finalStatus_of_fault (c : Cmd) (st : Byte) (h : 0x10 ≤ st.toNat) : finalStatus c st = st := by simp [finalStatus, h]

/-! ### Device memory -/

/-- What a read of lines sees is memory itself where no line of them is only in host memory (R212). -/
theorem seenMem_of_not_held {s : State} {j : Job} {l : List Nat} (h : ∀ a ∈ l, hostHeld s (lineOf a) = false) : seenMem s j l = s.mem := by
  have : l.filter (fun a => hostHeld s (lineOf a) && !cached s (lineOf a)) = [] :=
    List.filter_eq_nil_iff.2 (fun a ha => by simp [h a ha])
  simp [seenMem, this]

/-- A line outside the window is never only in host memory. -/
theorem hostHeld_of_not_cxl {s : State} {l : Nat} (h : isCxl (256 * l) = false) : hostHeld s l = false := by simp [hostHeld, h]

theorem openLine_wf {s : State} {j : Job} {m : Mem} (a : Nat) (h : Memory.wf m = true) : Memory.wf (openLine s j m a) = true := by
  unfold openLine
  split
  · split
    · exact wf_wrBytes _ _ h
    · exact h
  · exact h

theorem seenMem_wf {s : State} {j : Job} (l : List Nat) (h : Memory.wf s.mem = true) : Memory.wf (seenMem s j l) = true := by
  unfold seenMem
  generalize l.filter _ = k
  generalize s.mem = m at h
  induction k generalizing m with
  | nil => exact h
  | cons a r ih => exact ih _ (openLine_wf a h)

/-- Storing a line changes the memory, what is held of the line (its tag, seal, poison and cached copy) and the requests on the CXL link alone. -/
theorem storeLine_rest (s : State) (j : Job) (a : Nat) (b : Bytes) (t : Tag) :
    ∃ tg sl po ra kc li cc, storeLine s j a b t = { s with
      mem := wrBytes (seenMem s j [a]) a b, tags := tg, seals := sl, poison := po, raw := ra, kcache := kc, link := li, ccache := cc } := by
  unfold storeLine
  by_cases hc : isCanopy a = true
  · simp only [hc, if_true]; exact ⟨_, _, _, _, _, _, _, rfl⟩
  · cases hg : segAt j a with
    | none => simp only [hc, if_false, Bool.false_eq_true]; exact ⟨_, _, _, _, _, _, _, rfl⟩
    | some g =>
      by_cases he : g.enc = true
      · simp only [hc, if_false, Bool.false_eq_true, he, if_true]; exact ⟨_, _, _, _, _, _, _, rfl⟩
      · simp only [hc, if_false, Bool.false_eq_true, he]; exact ⟨_, _, _, _, _, _, _, rfl⟩

@[simp] theorem storeLine_mem (s : State) (j : Job) (a : Nat) (b : Bytes) (t : Tag) : (storeLine s j a b t).mem = wrBytes (seenMem s j [a]) a b := by
  obtain ⟨_, _, _, _, _, _, _, h⟩ := storeLine_rest s j a b t
  rw [h]

/-- A range inside one line is one piece. -/
theorem pieces_inside (a : Nat) (b : Bytes) (h0 : b ≠ []) (h : a % 256 + b.length ≤ 256) : pieces a b = [(a, b)] := by
  unfold pieces
  cases b with
  | nil => exact absurd rfl h0
  | cons x r =>
    simp only [List.length_cons] at h
    show (a, (x :: r).take (256 - a % 256)) :: piecesAux r.length _ ((x :: r).drop (256 - a % 256)) = _
    rw [List.take_of_length_le (by simp; omega), List.drop_eq_nil_of_le (by simp; omega)]
    cases r <;> rfl

/-- What a write of one line does: refused, dropped, or its bytes stored (R185, R205, R229). -/
theorem writeLine_cases (s : State) (j : Job) (ev : Bool) (a : Nat) (b : Bytes) (t : Tag) :
    (∃ e, writeCheck s j ev a b.length t = .error e ∧ writeLine s j ev a b t = .err e) ∨
    (writeCheck s j ev a b.length t = .ok none ∧ writeLine s j ev a b t = .frozen) ∨
    (∃ u, writeCheck s j ev a b.length t = .ok (some u) ∧ writeLine s j ev a b t = .ok (storeLine s j a b u)) := by
  unfold writeLine
  split
  · next e h => exact .inl ⟨e, h, rfl⟩
  · next h => exact .inr (.inl ⟨h, rfl⟩)
  · next u h => exact .inr (.inr ⟨u, h, rfl⟩)

/-- Pieces of a write keep the memory canonical. -/
theorem storePieces_wf (s : State) (j : Job) (ev : Bool) (t : Tag) (l : List (Nat × Bytes)) (h : Memory.wf s.mem = true) :
    Memory.wf (storePieces s j ev t l).mem = true := by
  induction l generalizing s with
  | nil => exact h
  | cons p r ih =>
    rcases writeLine_cases s j ev p.1 p.2 t with ⟨e, _, h2⟩ | ⟨_, h2⟩ | ⟨u, _, h2⟩ <;> simp only [storePieces, h2]
    · exact ih s h
    · exact ih s h
    · exact ih _ (by rw [storeLine_mem]; exact wf_wrBytes _ _ (seenMem_wf _ h))

/-- A write that succeeds keeps the memory canonical. -/
theorem devWrite_wf {s t : State} {j : Job} {ev : Bool} {a : Nat} {b : Bytes} {u : Tag} (h : devWrite s j ev a b u = .ok t)
    (hw : Memory.wf s.mem = true) : Memory.wf t.mem = true := by
  unfold devWrite at h
  split at h
  · cases h
  · cases h
  · cases h; exact storePieces_wf s j ev u _ hw

theorem hubWrite_wf {s : State} (a : Nat) (b : Bytes) (t : Tag) (h : Memory.wf s.mem = true) : Memory.wf (hubWrite s a b t).mem = true := by
  show Memory.wf (wrBytes ((pieces a b).foldl (fun m p => if hubDrops s p t then clearRange m (256 * lineOf p.1) 256 else m) s.mem) a b) = true
  apply wf_wrBytes
  generalize pieces a b = l
  generalize s.mem = m at h
  induction l generalizing m with
  | nil => exact h
  | cons p r ih =>
    refine ih _ ?_
    show Memory.wf (if hubDrops s p t then clearRange m (256 * lineOf p.1) 256 else m) = true
    split
    · exact wf_clearRange _ _ h
    · exact h
theorem bumpCounter_wf {s : State} (a : Nat) (h : Memory.wf s.mem = true) : Memory.wf (bumpCounter s a).mem = true := wf_wrBytes _ _ h
theorem zeroStores_wf {s : State} (h : Memory.wf s.mem = true) : Memory.wf (zeroStores s).mem = true := wf_clearRange _ _ h

/-- A read that succeeds gives the stored bytes with the join of its lines' tags (R227, R228). -/
theorem devRead_ok {s : State} {j : Job} {a n : Nat} {b : Bytes} {t : Tag} (h : devRead s j a n = .ok (b, t)) :
    b = rdBytes (seenMem s j (linesOf a n)) a n ∧ ∃ l, lineTags s j (linesOf a n) = .ok l ∧ joinAll l = some t := by
  unfold devRead at h
  split at h
  · cases h
  · next l hl =>
    split at h
    · cases h
    · next u hu =>
      have h' := Except.ok.inj h
      exact ⟨(congrArg Prod.fst h').symm, l, hl, by rw [hu]; exact congrArg some (congrArg Prod.snd h')⟩

/-! ### The counter of the hub -/

/-- Advancing to a moment never turns the hub-local counter back (R523). -/
theorem advanceTo_le (s : State) (t : Nat) (h : t < 2 ^ 64) : s.hub.time.toNat ≤ (advanceTo s t).hub.time.toNat := by
  unfold advanceTo
  split
  · exact Nat.le_refl _
  · show s.hub.time.toNat ≤ (BitVec.ofNat 64 t).toNat
    rw [BitVec.toNat_ofNat, Nat.mod_eq_of_lt h]; omega

end Sys2Proof.Laws
end

