-- ==== Sys2Proof/Laws/Glade.lean ====
section
/-! SUPPORT. How a glade issues: what an instruction does when its engine stands at it, and what an outcome does to the engine. -/

namespace Sys2Proof.Laws

open Sys2Proof.Machine Sys2Proof.Safety

/-- The opcode field of an instruction word (R131). -/
@[simp] theorem wordOpc_instrWord (opc : BitVec 8) (i : GI) : wordOpc (instrWord opc i) = opc := by
  apply BitVec.eq_of_getLsbD_eq
  intro k hk
  have : (instrWord opc i).getLsbD k = opc.getLsbD k := by
    unfold instrWord; rw [BitVec.getLsbD_append]; simp [hk]
  simpa [wordOpc, hk] using this

/-- A word with an assigned opcode decodes. -/
theorem decodeGlade_isSome (g : Fin 128) (e : Engine) (opc : BitVec 8) (i : GI) (h : ∀ j, (gladeInstr opc j).isSome = true) :
    (decodeGlade g e (instrWord opc i)).isNone = false := by
  unfold decodeGlade
  rw [wordOpc_instrWord]
  have := h (wordFields g e (instrWord opc i))
  cases hg : gladeInstr opc (wordFields g e (instrWord opc i)) with
  | none => rw [hg] at this; cases this
  | some c => rfl

/-- An instruction that its engine issues runs its body (R131, R132). -/
theorem issue_of_issues {opc : BitVec 8} {u : Use} {i : GI} {s : State} (body : State → GOut) (h : Issues opc u i s)
    (ho : ∀ j, (gladeInstr opc j).isSome = true) : issue opc i u body s = settleOut i (body s) := by
  obtain ⟨h1, h2, h3, h4, _⟩ := h
  have hd := decodeGlade_isSome i.glade i.eng opc i ho
  simp [issue, h1, h2, h3, h4, hd]

/-- An engine that may not issue, and is in no instruction of several steps that a stop may cut, leaves the state as it is (R126, R127, R182,
R526). -/
theorem issue_of_not_mayIssue {opc : BitVec 8} {u : Use} {i : GI} {s : State} (body : State → GOut) (h : mayIssue s i = false)
    (hb : (u.steps && mayBreak s i) = false) : issue opc i u body s = s := by unfold issue; rw [h, hb]; rfl

/-- No stop is asked for while an engine may issue. -/
theorem stopReq_of_mayIssue {i : GI} {s : State} (h : mayIssue s i = true) : (gladeOf s i.glade.val).stopReq = false := by
  cases hq : (gladeOf s i.glade.val).stopReq
  · rfl
  · simp [mayIssue, hq] at h

/-- An instruction of several steps begins at its first step, with nothing asking it to stop. -/
theorem startAcc_of_issues {opc : BitVec 8} {u : Use} {i : GI} {s : State} (h : Issues opc u i s) (hu : u.steps = true) :
    startAcc i s = { s := s } := by
  have h1 := stopReq_of_mayIssue h.1
  have h2 := h.2.2.2.2 hu
  simp [startAcc, h1, h2]

theorem ofInt_succ (p : BitVec 20) : BitVec.ofInt 20 ((p.toNat : Int) + 1) = p + 1 := by
  apply BitVec.eq_of_toNat_eq
  simp [BitVec.toNat_ofInt, BitVec.toNat_add]
  omega

/-- Moving on inside the section (R139). -/
theorem goTo_next {i : GI} {s : State} (h : NextIn i s) : goTo s i ((curEng s i).pc.toNat + 1) = setCur s i (stepOn (curEng s i)) := by
  obtain ⟨h1, h2⟩ := h
  unfold goTo
  rw [if_pos]
  · rw [ofInt_succ]; rfl
  · simp; omega

/-- A finished instruction moves its engine to the next address. -/
theorem settleOut_done {i : GI} {s : State} (h : NextIn i s) : settleOut i (.done s) = setCur s i (stepOn (curEng s i)) := goTo_next h

/-- A branch inside the section (R139). -/
theorem branchTo_inside {i : GI} {s : State} {t : Int} (h : TargetIn i s t) : branchTo s i t = setCur s i (atAddr (curEng s i) t) := by
  obtain ⟨h1, h2⟩ := h
  unfold branchTo
  rw [if_pos (by simp; omega)]
  rfl

/-- Changing the engine first, then moving on. -/
theorem settleOut_setCur {i : GI} {s : State} {e : Eng} (hp : e.pc = (curEng s i).pc) (h1 : e.sectStart = (curEng s i).sectStart)
    (h2 : e.sectEnd = (curEng s i).sectEnd) (h : NextIn i s) : settleOut i (.done (setCur s i e)) = setCur s i (stepOn e) := by
  rw [settleOut_done]
  · simp
  · simpa [NextIn, hp, h1, h2] using h

end Sys2Proof.Laws
end

