-- ==== Sys2Proof/Laws/Rows.lean ====
section
/-! SUPPORT. Rows of tiles in a glade's own tile-buffer space whose lines are PUBLIC: reading, writing, encoding, and an instruction's rows in order. -/

namespace Sys2Proof.Laws

open Sys2Proof.Machine Sys2Proof.Safety

/-! ### PUBLIC lines -/

theorem joinAll_public (l : List Tag) (h : ∀ x ∈ l, x = tagPublic) : joinAll l = some tagPublic := by
  have h1 : l.filter isTenant = [] := List.filter_eq_nil_iff.mpr (fun x hx => by rw [h x hx]; decide)
  have h2 : l.filter isBase = [] := List.filter_eq_nil_iff.mpr (fun x hx => by rw [h x hx]; decide)
  simp [joinAll, h1, h2]

theorem gTag_public {g : Glade} (h : g.tags = []) (a : Nat) : gTag g a = tagPublic := by simp [gTag, h]

theorem gTags_public {g : Glade} (h : g.tags = []) (a n : Nat) : ∀ x ∈ gTags g a n, x = tagPublic := by
  intro x hx
  obtain ⟨u, _, rfl⟩ := List.mem_map.mp hx
  exact gTag_public h u.1

theorem gNewTag_public {g : Glade} (h : g.tags = []) (a k : Nat) : gNewTag g a k tagPublic = some tagPublic := by
  unfold gNewTag
  split
  · rfl
  · rw [gTag_public h]; decide

theorem gCheck_public {g : Glade} (h : g.tags = []) (a n : Nat) : gCheck g a n tagPublic = true := by
  simp [gCheck, gNewTag_public h]

/-- A glade whose lines are all PUBLIC has no poisoned line. -/
theorem gPoisoned_public {g : Glade} (h : g.tags = []) (a n : Nat) : gPoisoned g a n = false := by
  unfold gPoisoned
  rw [Bool.eq_false_iff]
  intro hc
  have := gTags_public h a n _ (by simpa using hc)
  revert this; decide

theorem gSpoiled_public {g : Glade} (h : g.tags = []) (a n : Nat) : gSpoiled g a n = false := by
  unfold gSpoiled
  rw [List.any_eq_false]
  intro u _
  rw [gTag_public h]
  have : ¬ tagPublic = tagPoison := by decide
  simp [this]

theorem gSetTag_public {g : Glade} (h : g.tags = []) (a : Nat) : gSetTag g a tagPublic = g := by
  cases g
  simp only at h
  subst h
  rfl

/-- A store of PUBLIC bytes among PUBLIC lines changes the bytes alone. -/
theorem gStore_public {g : Glade} (h : g.tags = []) (a : Nat) (b : Bytes) :
    gStore g a b tagPublic = { g with mem := wrBytes g.mem a b } := by
  have key : ∀ (l : List (Nat × Nat)) (k : Glade), k.tags = [] →
      l.foldl (fun h u => match gNewTag g u.1 u.2 tagPublic with | some v => gSetTag h u.1 v | none => h) k = k := by
    intro l
    induction l with
    | nil => intro k _; rfl
    | cons u r ih =>
      intro k hk
      rw [List.foldl_cons, gNewTag_public h]
      show List.foldl _ (gSetTag k u.1 tagPublic) r = k
      rw [gSetTag_public hk]; exact ih k hk
  exact key _ { g with mem := wrBytes g.mem a b } h

/-- A store in the tile-buffer space writes its bytes and changes nothing but tags beside. -/
theorem gStore_rest (g : Glade) (a : Nat) (b : Bytes) (t : Tag) : ∃ tg, gStore g a b t = { g with mem := wrBytes g.mem a b, tags := tg } := by
  unfold gStore
  refine foldl_keeps (fun k => ∃ tg, k = { g with mem := wrBytes g.mem a b, tags := tg }) _ _ _ ⟨g.tags, rfl⟩ ?_
  rintro k u ⟨tg, rfl⟩
  cases gNewTag g u.1 u.2 t with
  | none => exact ⟨tg, rfl⟩
  | some v => exact ⟨_, rfl⟩

/-! ### Reading and writing a row -/

theorem tSpace_zero {t : Td} (h : t.space = 0) : tSpace t = 0 := by simp [tSpace, h]

/-- A row of a tile in the buffer, its lines PUBLIC. -/
theorem readRow_buffer {s : State} {pl : Place} {t : Td} (r : Nat) (hb : InBuffer t) (hg : (gladeOf s pl.gi).tags = []) :
    readRow s pl t r = .ok (memRow (gladeOf s pl.gi).mem t r) := by
  obtain ⟨h1, h2⟩ := hb
  unfold readRow readRowN
  by_cases hk : isBlock (tFmt t) = true
  · have hj := joinAll_public (gTags (gladeOf s pl.gi) (rowAddr t r) (rowBytes t) ++ gTags (gladeOf s pl.gi) (scaleAddr t r) (nBlocks t))
      (fun x hx => by rcases List.mem_append.mp hx with h | h <;> exact gTags_public hg _ _ x h)
    have hss : t.sspace.toNat = 0 := by rw [h2 hk]; rfl
    simp only [tSpace_zero h1, hss, spanTags, gPoisoned_public hg, hk, if_true, memRow, Bool.false_eq_true, if_false]
    simp only [rowBytes, nBlocks] at hj ⊢
    rw [hj]
  · have hj := joinAll_public (gTags (gladeOf s pl.gi) (rowAddr t r) (rowBytes t) ++ [])
      (fun x hx => by rw [List.append_nil] at hx; exact gTags_public hg _ _ x hx)
    simp only [tSpace_zero h1, spanTags, gPoisoned_public hg, hk, if_false, memRow, Bool.false_eq_true]
    simp only [rowBytes] at hj ⊢
    rw [hj]; rfl

/-- A row written to a tile in the buffer, its lines PUBLIC. -/
theorem writeRow_buffer {s : State} {pl : Place} {t : Td} (r : Nat) (codes scales : List Nat) (hb : InBuffer t)
    (hg : (gladeOf s pl.gi).tags = []) :
    writeRow s pl t r codes scales tagPublic =
      .ok (setGlade s pl.gi { gladeOf s pl.gi with mem := putRow (gladeOf s pl.gi).mem t r codes scales }) := by
  obtain ⟨h1, h2⟩ := hb
  have hs : ∀ (s : State) (a : Nat) (b : Bytes), (gladeOf s pl.gi).tags = [] →
      spanStore s pl 0 a b tagPublic = setGlade s pl.gi { gladeOf s pl.gi with mem := wrBytes (gladeOf s pl.gi).mem a b } := by
    intro s a b hg; simp [spanStore, gStore_public hg]
  unfold writeRow rowCheck
  by_cases hk : isBlock (tFmt t) = true
  · have hss : t.sspace.toNat = 0 := by rw [h2 hk]; rfl
    simp only [tSpace_zero h1, hss, spanCheck, gSpoiled_public hg, gCheck_public hg, hk, if_true, Bool.and_self, putRow, Bool.false_eq_true, if_false]
    rw [hs s _ _ hg, hs _ _ _ (by simpa using hg)]
    simp
  · simp only [tSpace_zero h1, spanCheck, gSpoiled_public hg, gCheck_public hg, hk, if_true, if_false, putRow, Bool.false_eq_true]
    rw [hs s _ _ hg]

/-! ### Encoding a whole row -/

theorem numbered_length {α : Type} (l : List α) : (numbered l).length = l.length := by simp [numbered]

theorem encodeBlock_length (fmt : Nat) (rnd : Nat → Rounding) (l : List (Nat × BitVec 32)) :
    (encodeBlock fmt rnd l).codes.length = l.length := by simp [encodeBlock]

/-- Encoding with every element selected is encoding the row (R52, R162). -/
theorem encodeSel_all (fmt blk : Nat) (rnd : Nat → Rounding) (vals : List (BitVec 32)) :
    (encodeSel fmt blk rnd vals (fun _ => true)).es.map (·.2) = (encodeRow fmt blk rnd vals).codes ∧
    (encodeSel fmt blk rnd vals (fun _ => true)).scs.map (·.2) = (encodeRow fmt blk rnd vals).scales := by
  unfold encodeSel encodeRow
  by_cases hk : isBlock fmt = true
  · simp only [hk, if_true]
    have hz : ∀ (b : List (Nat × BitVec 32)), ((b.map (·.1)).zip (encodeBlock fmt rnd b).codes).map (·.2) = (encodeBlock fmt rnd b).codes := by
      intro b; rw [List.map_snd_zip]; simp [encodeBlock_length]
    have key : ∀ (l : List (Nat × List (Nat × BitVec 32))) (o : RowOut) (e : Enc),
        (∀ x ∈ l, x.2 ≠ []) → o.es.map (·.2) = e.codes → o.scs.map (·.2) = e.scales →
        ((l.foldl (fun o b => if (b.2.any fun _ => true) = true then
          { es := o.es ++ (b.2.map (·.1)).zip (encodeBlock fmt rnd b.2).codes,
            scs := o.scs ++ (encodeBlock fmt rnd b.2).scales.map (fun s => (b.1, s)), fl := o.fl ||| (encodeBlock fmt rnd b.2).fl,
            van := o.van + (encodeBlock fmt rnd b.2).vanish : RowOut } else o) o).es.map (·.2) =
          ((l.map (·.2)).foldl (fun acc b => encAppend acc (encodeBlock fmt rnd b)) e).codes ∧
         (l.foldl (fun o b => if (b.2.any fun _ => true) = true then
          { es := o.es ++ (b.2.map (·.1)).zip (encodeBlock fmt rnd b.2).codes,
            scs := o.scs ++ (encodeBlock fmt rnd b.2).scales.map (fun s => (b.1, s)), fl := o.fl ||| (encodeBlock fmt rnd b.2).fl,
            van := o.van + (encodeBlock fmt rnd b.2).vanish : RowOut } else o) o).scs.map (·.2) =
          ((l.map (·.2)).foldl (fun acc b => encAppend acc (encodeBlock fmt rnd b)) e).scales) := by
      intro l
      induction l with
      | nil => intro o e _ h1 h2; exact ⟨h1, h2⟩
      | cons b r ih =>
        intro o e hne h1 h2
        have hb : (b.2.any fun _ => true) = true := by
          have := hne b (by simp)
          cases hc : b.2 with
          | nil => exact absurd hc this
          | cons x y => rfl
        simp only [List.foldl_cons, List.map_cons, hb, if_true]
        refine ih _ _ (fun x hx => hne x (by simp [hx])) ?_ ?_
        · simp only [List.map_append, hz, h1, encAppend]
        · simp [h2, encAppend, Function.comp_def]
    have hch : ∀ (n : Nat) (f : Nat) (l : List (Nat × BitVec 32)), 0 < n → ∀ x ∈ chunksAux n f l, x ≠ [] := by
      intro n f
      induction f with
      | zero => intro l _ x hx; simp [chunksAux] at hx
      | succ f ih =>
        intro l hn x hx
        cases l with
        | nil => simp [chunksAux] at hx
        | cons y r =>
          simp only [chunksAux, List.mem_cons] at hx
          rcases hx with rfl | hx
          · obtain ⟨k, rfl⟩ : ∃ k, n = k + 1 := ⟨n - 1, by omega⟩
            simp
          · exact ih _ hn x hx
    have hpos : 0 < blkSize blk := by unfold blkSize; positivity
    have hmap : (numbered (chunks (blkSize blk) (numbered vals))).map (·.2) = chunks (blkSize blk) (numbered vals) := by
      unfold numbered; rw [List.map_snd_zip]; simp
    have := key (numbered (chunks (blkSize blk) (numbered vals))) {} {} (by
      intro x hx
      have hm : x.2 ∈ chunks (blkSize blk) (numbered vals) := by
        rw [← hmap]; exact List.mem_map_of_mem hx
      exact hch _ _ _ hpos _ hm) rfl rfl
    rw [hmap] at this
    exact this
  · simp only [hk, if_false, Bool.false_eq_true]
    let q : Nat × BitVec 32 → Nat × BitVec 5 := fun x => fConvert (fmtF fmt) (rnd x.1) (dec32 x.2)
    let add : RowOut → Nat × BitVec 32 → RowOut := fun o x =>
      { es := o.es ++ [(x.1, (q x).1)], scs := [], fl := o.fl ||| (q x).2, van := o.van + (if (q x).2 &&& flVanish ≠ 0 then 1 else 0) }
    have key : ∀ (l : List (Nat × BitVec 32)) (o : RowOut), o.scs = [] →
        (l.foldl add o).es.map (·.2) = o.es.map (·.2) ++ l.map (fun x => (q x).1) ∧ (l.foldl add o).scs = [] := by
      intro l
      induction l with
      | nil => intro o h; simp [h]
      | cons x r ih =>
        intro o _
        obtain ⟨i1, i2⟩ := ih (add o x) rfl
        refine ⟨?_, i2⟩
        rw [List.foldl_cons, i1]; simp [add]
    have hf : (numbered vals).filter (fun x => (fun (_ : Nat) => true) x.1) = numbered vals := by simp
    rw [hf]
    obtain ⟨k1, k2⟩ := key (numbered vals) {} rfl
    refine ⟨k1.trans ?_, ?_⟩
    · simp [q, Function.comp_def]
    · exact congrArg (List.map (·.2)) k2

/-! ### An instruction's rows in order -/

/-- No stop cuts the instruction, and none of its steps is complete from before (R126). -/
def Whole (a : Acc) : Prop := a.skip = 0 ∧ a.quota = none ∧ a.cut = false

/-- Rows that each carry a relation `R` from `m` to `f m r` without a fault carry it to the fold of `f` (R126). -/
theorem runSteps_fold {μ α : Type} (R : State → μ → Prop) (f : μ → α → μ) (row : α → Acc → Acc) (l : List α)
    (h : ∀ r ∈ l, ∀ (a : Acc) (m : μ), a.err = 0 → R a.s m → (row r a).err = 0 ∧ R (row r a).s (f m r))
    (a : Acc) (m : μ) (hw : Whole a) (h1 : a.err = 0) (h2 : R a.s m) :
    Whole (runSteps row l a) ∧ (runSteps row l a).err = 0 ∧ R (runSteps row l a).s (l.foldl f m) := by
  induction l generalizing a m with
  | nil => exact ⟨hw, h1, h2⟩
  | cons r q ih =>
    obtain ⟨k1, k2⟩ := h r (by simp) a m h1 h2
    obtain ⟨w1, w2, w3⟩ := hw
    have hs : runSteps row (r :: q) a = runSteps row q { row r a with steps := a.steps + 1, skip := a.skip, quota := a.quota, cut := false } := by
      simp [runSteps, oneStep, h1, k1, w1, w2, w3]
    rw [hs]
    exact ih (fun x hx => h x (by simp [hx])) _ (f m r) ⟨w1, w2, rfl⟩ k1 k2

theorem onGlade_self (s : State) (g : Nat) : OnGlade s g s (gladeOf s g) := ⟨.inl rfl, rfl⟩

/-- A further change of the same glade. -/
theorem onGlade_trans {s t u : State} {g : Nat} {k l : Glade} (h : OnGlade s g t k) (h1 : u = t ∨ ∃ v, u = setGlade t g v)
    (h2 : gladeOf u g = l) : OnGlade s g u l := by
  refine ⟨?_, h2⟩
  rcases h.1 with rfl | ⟨v, rfl⟩
  · exact h1
  · rcases h1 with rfl | ⟨w, rfl⟩
    · exact .inr ⟨v, rfl⟩
    · exact .inr ⟨w, setGlade_setGlade _ _ _ _⟩

theorem onGlade_ne {s t : State} {g : Nat} {k : Glade} (h : OnGlade s g t k) {x : Nat} (hx : x ≠ g) : gladeOf t x = gladeOf s x := by
  rcases h.1 with rfl | ⟨v, rfl⟩
  · rfl
  · exact gladeOf_setGlade_ne _ _ hx

theorem onGlade_cmds {s t : State} {g : Nat} {k : Glade} (h : OnGlade s g t k) : t.cmds = s.cmds := by
  rcases h.1 with rfl | ⟨v, rfl⟩ <;> rfl

theorem onGlade_job {s t : State} {g : Nat} {k : Glade} (h : OnGlade s g t k) : t.job = s.job := by
  rcases h.1 with rfl | ⟨v, rfl⟩ <;> rfl

/-- The rounding of a row depends on the glade through its command and rounding counter alone (R57). -/
theorem roundAt_onGlade {s t : State} {g : Nat} {k : Glade} (h : OnGlade s g t k) (hc : k.cmd = (gladeOf s g).cmd)
    (hr : k.rcnt = (gladeOf s g).rcnt) (d : Td) (r : Nat) : roundAt t g d r = roundAt s g d r := by
  have h1 : gladeOf t g = k := h.2
  unfold roundAt findCmd jobOf
  rw [h1, onGlade_cmds h, onGlade_job h]; dsimp only; rw [hc, hr]

@[simp] theorem note_s (a : Acc) (fl : BitVec 5) (v : Nat) : (a.note fl v).s = a.s := rfl
@[simp] theorem note_err (a : Acc) (fl : BitVec 5) (v : Nat) : (a.note fl v).err = a.err := rfl
@[simp] theorem note_frz (a : Acc) (fl : BitVec 5) (v : Nat) : (a.note fl v).frz = a.frz := rfl
@[simp] theorem event_s (a : Acc) (e : Option LogEv) : (a.event e).s = a.s := rfl
@[simp] theorem event_err (a : Acc) (e : Option LogEv) : (a.event e).err = a.err := rfl
@[simp] theorem event_frz (a : Acc) (e : Option LogEv) : (a.event e).frz = a.frz := rfl

theorem encodeRow_length (fmt blk : Nat) (rnd : Nat → Rounding) (vals : List (BitVec 32)) :
    (encodeRow fmt blk rnd vals).codes.length = vals.length := by
  unfold encodeRow
  by_cases hk : isBlock fmt = true
  · simp only [hk, if_true]
    have key : ∀ (l : List (List (Nat × BitVec 32))) (e : Enc),
        (l.foldl (fun acc b => encAppend acc (encodeBlock fmt rnd b)) e).codes.length = e.codes.length + l.flatten.length := by
      intro l
      induction l with
      | nil => intro e; simp
      | cons b r ih => intro e; rw [List.foldl_cons, ih]; simp [encAppend, encodeBlock_length]; omega
    have hfl : ∀ (f : Nat) (l : List (Nat × BitVec 32)), l.length ≤ f → (chunksAux (blkSize blk) f l).flatten = l := by
      intro f
      induction f with
      | zero => intro l h; cases l with
        | nil => rfl
        | cons => simp at h
      | succ f ih =>
        intro l h
        cases l with
        | nil => rfl
        | cons x r =>
          have hpos : 0 < blkSize blk := by unfold blkSize; positivity
          simp only [chunksAux, List.flatten_cons]
          rw [ih _ (by simp only [List.length_drop, List.length_cons] at *; omega), List.take_append_drop]
    rw [key]
    unfold chunks
    rw [hfl _ _ (le_refl _)]
    simp [numbered_length]
  · simp [hk, numbered_length]

/-- A row of vector results written whole into a tile of the buffer (R162). -/
theorem vecWrite_buffer {pl : Place} {t : Td} {r : Nat} {vals : List (BitVec 32)} {x : Acc} (hb : InBuffer t)
    (hg : (gladeOf x.s pl.gi).tags = []) (hl : vals.length = tCols t) :
    (vecWrite pl t r vals (fun _ => true) tagPublic x).err = x.err ∧
    (vecWrite pl t r vals (fun _ => true) tagPublic x).frz = x.frz ∧
    (vecWrite pl t r vals (fun _ => true) tagPublic x).s = setGlade x.s pl.gi { gladeOf x.s pl.gi with
      mem := putVals (gladeOf x.s pl.gi).mem t r (roundAt x.s pl.gi t r) vals } := by
  obtain ⟨e1, e2⟩ := encodeSel_all (tFmt t) t.blk.toNat (roundAt x.s pl.gi t r) vals
  have hlen : (encodeSel (tFmt t) t.blk.toNat (roundAt x.s pl.gi t r) vals (fun _ => true)).es.length = tCols t := by
    have := congrArg List.length e1
    rw [List.length_map, encodeRow_length, hl] at this
    exact this
  have hw : ((List.range (tCols t)).all fun _ => true) = true := by simp
  unfold vecWrite
  simp only [hw, Bool.true_or, if_true]
  unfold writeOut
  rw [if_pos hlen, e1, e2, writeRow_buffer r _ _ hb hg]
  exact ⟨rfl, rfl, rfl⟩

theorem spanStore_buffer {s : State} {pl : Place} (a : Nat) (b : Bytes) (hg : (gladeOf s pl.gi).tags = []) :
    spanStore s pl 0 a b tagPublic = setGlade s pl.gi { gladeOf s pl.gi with mem := wrBytes (gladeOf s pl.gi).mem a b } := by
  simp [spanStore, gStore_public hg]

theorem spansStore_buffer {s : State} {pl : Place} (l : List (Nat × Bytes)) (hg : (gladeOf s pl.gi).tags = []) :
    spansStore s pl 0 tagPublic l = if l = [] then s else
      setGlade s pl.gi { gladeOf s pl.gi with mem := l.foldl (fun m p => wrBytes m p.1 p.2) (gladeOf s pl.gi).mem } := by
  induction l generalizing s with
  | nil => rfl
  | cons p r ih =>
    have hc : spansStore s pl 0 tagPublic (p :: r) = spansStore (spanStore s pl 0 p.1 p.2 tagPublic) pl 0 tagPublic r := rfl
    rw [hc, spanStore_buffer _ _ hg, ih (by simpa using hg)]
    by_cases hr : r = []
    · subst hr; simp
    · simp [hr]

theorem spansCheck_buffer {s : State} {pl : Place} (l : List (Nat × Bytes)) (hg : (gladeOf s pl.gi).tags = []) :
    spansCheck s pl 0 tagPublic l = .ok true := by
  induction l with
  | nil => rfl
  | cons p r ih => simp only [spansCheck, spanCheck, gSpoiled_public hg, gCheck_public hg, Bool.false_eq_true, if_false, if_true, ih, Bool.and_self]

/-- Encoded elements written into a tile of the buffer whose lines are PUBLIC (R162). -/
theorem writeOut_buffer {s : State} {pl : Place} {t : Td} (r : Nat) (o : RowOut) (hb : InBuffer t) (hg : (gladeOf s pl.gi).tags = []) :
    ∃ s', writeOut s pl t r o tagPublic = .ok s' ∧ (s' = s ∨ ∃ g, s' = setGlade s pl.gi g) ∧
      gladeOf s' pl.gi = { gladeOf s pl.gi with mem := putOut (gladeOf s pl.gi).mem t r o } := by
  unfold writeOut putOut
  by_cases h1 : o.es.length = tCols t
  · rw [if_pos h1, writeRow_buffer r _ _ hb hg]
    exact ⟨_, rfl, .inr ⟨_, rfl⟩, by simp [h1]⟩
  · rw [if_neg h1]
    by_cases h2 : o.es = []
    · rw [if_pos h2]
      exact ⟨_, rfl, .inl rfl, by rw [if_neg h1, if_pos h2]⟩
    · rw [if_neg h2]
      obtain ⟨b1, b2⟩ := hb
      have two : ∀ (l k : List (Nat × Bytes)), ∃ s', spansStore (spansStore s pl 0 tagPublic l) pl 0 tagPublic k = s' ∧
          (s' = s ∨ ∃ g, s' = setGlade s pl.gi g) ∧ gladeOf s' pl.gi = { gladeOf s pl.gi with
            mem := k.foldl (fun m p => wrBytes m p.1 p.2) (l.foldl (fun m p => wrBytes m p.1 p.2) (gladeOf s pl.gi).mem) } := by
        intro l k
        rw [spansStore_buffer l hg]
        by_cases hl : l = []
        · subst hl
          rw [if_pos rfl, spansStore_buffer k hg]
          by_cases hk : k = []
          · subst hk; exact ⟨_, rfl, .inl rfl, rfl⟩
          · rw [if_neg hk]; exact ⟨_, rfl, .inr ⟨_, rfl⟩, by simp⟩
        · rw [if_neg hl, spansStore_buffer k (by simpa using hg)]
          by_cases hk : k = []
          · subst hk; exact ⟨_, rfl, .inr ⟨_, rfl⟩, by simp⟩
          · rw [if_neg hk]; exact ⟨_, rfl, .inr ⟨_, setGlade_setGlade _ _ _ _⟩, by simp⟩
      simp only [writePart, tSpace_zero b1, spanPeek, spansCheck_buffer _ hg]
      by_cases hk : isBlock (tFmt t) = true
      · have hss : t.sspace.toNat = 0 := by rw [b2 hk]; rfl
        simp only [hk, hss, spansCheck_buffer _ hg, Bool.and_self, if_true, h1, h2, if_false]
        obtain ⟨s', e1, e2, e3⟩ := two (partSpans t (rdBytes (gladeOf s pl.gi).mem (rowAddr t r) (rowBytes t)) r o.es)
          ((runsOf o.scs).map (fun run => (scaleAddr t r + run.1, run.2.map (BitVec.ofNat 8))))
        exact ⟨s', by rw [e1], e2, e3⟩
      · simp only [hk, Bool.false_eq_true, if_false, spansCheck, Bool.and_self, if_true, h1, h2]
        obtain ⟨s', e1, e2, e3⟩ := two (partSpans t (rdBytes (gladeOf s pl.gi).mem (rowAddr t r) (rowBytes t)) r o.es) []
        exact ⟨s', by rw [← e1]; rfl, e2, e3⟩

/-- Selected elements of a row of vector results written into a tile of the buffer (R162). -/
theorem vecWrite_sel_buffer {pl : Place} {t : Td} {r : Nat} {vals : List (BitVec 32)} {sel : Nat → Bool} {x : Acc} (hb : InBuffer t)
    (hg : (gladeOf x.s pl.gi).tags = []) :
    (vecWrite pl t r vals sel tagPublic x).err = x.err ∧ (vecWrite pl t r vals sel tagPublic x).frz = x.frz ∧
    gladeOf (vecWrite pl t r vals sel tagPublic x).s pl.gi = { gladeOf x.s pl.gi with
      mem := putSel (gladeOf x.s pl.gi).mem t r (roundAt x.s pl.gi t r) vals sel } ∧
    ((vecWrite pl t r vals sel tagPublic x).s = x.s ∨
      ∃ g, (vecWrite pl t r vals sel tagPublic x).s = setGlade x.s pl.gi g) := by
  unfold vecWrite putSel
  by_cases hw : ((List.range (tCols t)).all sel || !isBlock (tFmt t)) = true
  · simp only [hw, if_true]
    obtain ⟨s', e1, e2, e3⟩ := writeOut_buffer r (encodeSel (tFmt t) t.blk.toNat (roundAt x.s pl.gi t r) vals sel) hb hg
    rw [e1]
    exact ⟨rfl, rfl, e3, e2⟩
  · simp only [hw, if_false, Bool.false_eq_true]
    rw [readRow_buffer r hb hg]
    have hj : join tagPublic (memRow (gladeOf x.s pl.gi).mem t r).tag = some tagPublic := rfl
    simp only [hj]
    obtain ⟨s', e1, e2, e3⟩ := writeOut_buffer r (encodeSel (tFmt t) t.blk.toNat (roundAt x.s pl.gi t r)
      ((numbered ((rowVals t (memRow (gladeOf x.s pl.gi).mem t r)).zip vals)).map (fun c => if sel c.1 = true then c.2.2 else c.2.1)) sel) hb hg
    rw [e1]
    exact ⟨rfl, rfl, e3, e2⟩

/-! ### Closing an instruction -/

@[simp] theorem logInvalid_glades (s : State) (a : BitVec 64) (g : Nat) (pc : BitVec 20) (e : LogEv) :
    (logInvalid s a g pc e).glades = s.glades := by
  unfold logInvalid
  split
  · split
    · rfl
    · simp only [updCmd_glades]; split <;> rfl
  · rfl

/-- An instruction that ends without a fault goes on; its glade keeps everything but the rounding counter, which a stochastic
destination raises by 1 (R57). -/
theorem closeAcc_ok (i : GI) (rc : Bool) (a : Acc) (hw : Whole a) (h : a.err = 0) :
    ∃ s', closeAcc i rc a = .done s' ∧
      s'.glades = (if rc then (setGlade a.s i.glade.val { gladeOf a.s i.glade.val with rcnt := (gladeOf a.s i.glade.val).rcnt + 1 }).glades
        else a.s.glades) := by
  have hg : ∀ (t u : State), t.glades = u.glades → gladeOf t i.glade.val = gladeOf u i.glade.val := by
    intro t u h; simp [gladeOf, h]
  unfold closeAcc
  simp only [h, hw.2.1, hw.2.2, ne_eq, not_true_eq_false, if_false, Bool.false_eq_true, Option.isSome_none]
  refine ⟨_, rfl, ?_⟩
  have key : ∀ (t : State), t.glades = a.s.glades →
      (if rc = true then setGlade t i.glade.val { gladeOf t i.glade.val with rcnt := (gladeOf t i.glade.val).rcnt + 1 } else t).glades =
      (if rc = true then (setGlade a.s i.glade.val { gladeOf a.s i.glade.val with rcnt := (gladeOf a.s i.glade.val).rcnt + 1 }).glades
        else a.s.glades) := by
    intro t ht
    split
    · simp [ht, hg t a.s ht]
    · exact ht
  apply key
  cases a.inv <;> cases a.frz <;> simp

/-- An instruction whose rows ran without a fault, and whose engine goes on inside its section. -/
theorem rowsDone {i : GI} {rc : Bool} {s : State} {x : Acc} {k : Glade} (hw : Whole x) (h : x.err = 0) (hx : OnGlade s i.glade.val x.s k)
    (he : engOf k i.eng = curEng s i) (hn : NextIn i s) :
    RowsDone i rc s (settleOut i (closeAcc i rc x)) k := by
  obtain ⟨s', e1, e2⟩ := closeAcc_ok i rc x hw h
  rw [e1]
  have hk : gladeOf s' i.glade.val = { k with rcnt := if rc then k.rcnt + 1 else k.rcnt } := by
    unfold gladeOf
    rw [e2]
    have h0 : tget {} x.s.glades i.glade.val = k := hx.2
    cases rc
    · exact h0
    · simp only [if_true, setGlade_glades, tget_tset_same, gladeOf, h0]
  have hc : curEng s' i = curEng s i := by
    unfold curEng at he ⊢
    rw [hk, ← he]; cases i.eng <;> rfl
  have ho : ∀ h, h ≠ i.glade.val → gladeOf s' h = gladeOf s h := by
    intro h hh
    rw [← onGlade_ne hx hh]
    unfold gladeOf
    rw [e2]
    cases rc
    · rfl
    · simp only [if_true, setGlade_glades]; exact tget_tset_ne _ _ _ hh
  rw [settleOut_done (by simpa only [NextIn, hc] using hn), hc]
  refine ⟨by simp, ?_, fun h hh => ?_⟩
  · simp only [setCur, gladeOf_setGlade_same, hk]
  · rw [← ho h hh]; exact gladeOf_setGlade_ne _ _ hh

end Sys2Proof.Laws
end

