-- ==== Sys2Proof/Laws/Commands.lean ====
section
/-! SUPPORT. Commands of the rings: a command found ready, and what a step over commands leaves unchanged. -/

namespace Sys2Proof.Laws

open Sys2Proof.Machine Sys2Proof.Safety

theorem onJob_eq {s : State} {acc : BitVec 64} {o : Byte} {f : Cmd → Job → State} {c : Cmd} {j : Job} (h : ready s acc o = some c) (hj : s.job = some j) :
    onJob s acc o f = .next (f c j) := by
  unfold onJob onCmd
  rw [h]
  simp only [hj]

theorem any_false {α : Type} (l : List α) (p : α → Bool) (h : ∀ g ∈ l, p g = false) : l.any p = false := by
  rw [List.any_eq_false]; intro x hx; simp [h x hx]

theorem ready_of {s : State} {acc : BitVec 64} {o : Byte} {c : Cmd} (h : ready s acc o = some c) : findCmd s acc = some c ∧ hubUp s = true := by
  unfold ready at h
  cases hd : findCmd s acc with
  | none => rw [hd] at h; cases h
  | some d =>
    rw [hd] at h
    simp only [Option.ite_none_right_eq_some] at h
    obtain ⟨hc, hh⟩ := h
    injection hh with hh
    subst hh
    simp only [Bool.and_eq_true] at hc
    exact ⟨rfl, hc.1.1.1.1⟩

theorem ready_acc {s : State} {acc : BitVec 64} {o : Byte} {c : Cmd} (h : ready s acc o = some c) : c.acc = acc := by
  have h1 := (ready_of h).1
  unfold findCmd at h1
  have := List.find?_some h1
  simpa using this

theorem ready_opc {s : State} {acc : BitVec 64} {o : Byte} {c : Cmd} (h : ready s acc o = some c) : opcOf c = o := by
  unfold ready at h
  cases hf : findCmd s acc with
  | none => rw [hf] at h; cases h
  | some d =>
    rw [hf] at h
    dsimp only at h
    by_cases hg : (hubUp s && s.boot.devReady && opcOf d = o && d.ph ≠ .done && (if d.ring = 0 then ringZeroTurn s acc else jobWorks s d && dataTurn s d)) = true
    · rw [if_pos hg] at h
      cases h
      simp only [Bool.and_eq_true, decide_eq_true_eq] at hg
      exact hg.1.1.2
    · rw [if_neg hg] at h; cases h

/-- Everything of a state but the ports, the fabric unit and the output. -/
def offLink (s : State) : State := { s with ports := [], fab := {}, out := [] }

theorem foldl_view {α β γ : Type} (v : α → γ) (f : α → β → α) (h : ∀ a b, v (f a b) = v a) : ∀ (l : List β) (a : α), v (l.foldl f a) = v a
  | [], _ => rfl
  | b :: r, a => by rw [List.foldl_cons, foldl_view v f h r, h]

theorem stampXfer_off (s : State) (c : Cell) : offLink (stampXfer s c) = offLink s := by unfold stampXfer; split <;> rfl

theorem offLink_setPort (s : State) (k : Nat) (p : Port) : offLink (setPort s k p) = offLink s := rfl
theorem offLink_updPair (s : State) (a : BitVec 16) (f : Pair → Pair) : offLink (updPair s a f) = offLink s := rfl
theorem offLink_putCell (s : State) (k : Nat) (c : Cell) : offLink (putCell s k c) = offLink s := rfl

theorem pumpOne_off (k : Nat) (x : State × List Cell) (c : Cell) : offLink (pumpOne k x c).1 = offLink x.1 := by
  unfold pumpOne
  dsimp only
  repeat' split
  all_goals first
    | rfl
    | (dsimp only; rw [offLink_updPair, stampXfer_off, offLink_setPort, offLink_putCell])
    | (dsimp only; rw [stampXfer_off, offLink_setPort, offLink_putCell])

theorem pump_off (s : State) (k : Nat) : offLink (pump s k) = offLink s := by
  unfold pump
  have := foldl_view (fun x : State × List Cell => offLink x.1) (pumpOne k) (pumpOne_off k) (portOf s k).txq (setPort s k { portOf s k with txq := [] }, [])
  exact (show _ = offLink _ from this)

theorem sendCells_off (s : State) (k : Nat) (cs : List Cell) : offLink (sendCells s k cs) = offLink s := by
  unfold sendCells; rw [pump_off]; rfl

theorem sendCtl_off (s : State) (p : Pair) (tag : BitVec 13) (b : Body) : offLink (sendCtl s p tag b) = offLink s := by
  unfold sendCtl; split
  · rfl
  · exact sendCells_off _ _ _

theorem toPairs_off (s : State) (b : Body) : offLink (toPairs s b) = offLink s :=
  foldl_view offLink _ (fun s p => sendCtl_off s p 0 b) _ s

theorem sendBindings_off (s : State) : offLink (sendBindings s) = offLink s := toPairs_off _ _

theorem sendBindings_job (s : State) : (sendBindings s).job = s.job := by
  show (offLink (sendBindings s)).job = (offLink s).job
  rw [sendBindings_off]

theorem dropCached_job (s : State) (a n : Nat) : (dropCached s a n).job = s.job := rfl

theorem scrubLine_job (s : State) (l : Nat) : (scrubLine s l).job = s.job := by unfold scrubLine; split <;> rfl

theorem scrubRange_job (s : State) (a n : Nat) : (scrubRange s a n).job = s.job := foldl_view State.job _ scrubLine_job _ _

theorem fillLines_job (s : State) (j : Job) (a : Nat) (b : Bytes) : (fillLines s j a b).job = s.job := by
  unfold fillLines
  rw [foldl_view State.job]
  intro t l
  split
  · split <;> rfl
  · rfl

theorem finish_job' (s : State) (a : BitVec 64) (st : Byte) : (finish s a st).job = s.job := rfl

theorem onCmd_eq {s : State} {acc : BitVec 64} {o : Byte} {f : Cmd → State} {c : Cmd} (h : ready s acc o = some c) : onCmd s acc o f = .next (f c) := by
  unfold onCmd; rw [h]

theorem raiseEpoch_job (s : State) : (raiseEpoch s).job = s.job := rfl

theorem fcastTags_ne (s : State) (base : Nat) : { fcastTags s base with tags := [] } = { s with tags := [] } :=
  foldl_view (fun s : State => { s with tags := [] }) (fun s l => setTag s (lineOf l) (if l < base + 16384 then tagBaseA else tagBaseB)) (fun _ _ => rfl) _ _

theorem jobOfBlock_st (b : Bytes) (e : BitVec 40) (n : BitVec 256) : (jobOfBlock b e n).st = 2 := rfl

theorem jobOfBlock_id (b : Bytes) (e : BitVec 40) (n : BitVec 256) : (jobOfBlock b e n).id = fieldBv b 0 4 32 := rfl

theorem jobOfBlock_rings (b : Bytes) (e : BitVec 40) (n : BitVec 256) : (jobOfBlock b e n).rings = fieldBv b 80 32 256 := rfl

theorem sendB_job (s : State) : (sendBindings s).job = s.job := by
  show (offLink (sendBindings s)).job = _
  rw [sendBindings_off]; rfl

theorem sendB_epoch (s : State) : (sendBindings s).epoch = s.epoch := by
  show (offLink (sendBindings s)).epoch = _
  rw [sendBindings_off]; rfl

theorem sendB_hub (s : State) : (sendBindings s).hub = s.hub := by
  show (offLink (sendBindings s)).hub = _
  rw [sendBindings_off]; rfl

theorem sendB_mem (s : State) : (sendBindings s).mem = s.mem := by
  show (offLink (sendBindings s)).mem = _
  rw [sendBindings_off]; rfl

theorem sendB_glades (s : State) : (sendBindings s).glades = s.glades := by
  show (offLink (sendBindings s)).glades = _
  rw [sendBindings_off]; rfl

theorem sendB_saved (s : State) : (sendBindings s).saved = s.saved := by
  show (offLink (sendBindings s)).saved = _
  rw [sendBindings_off]; rfl

theorem dropCached_cmds (s : State) (a n : Nat) : (dropCached s a n).cmds = s.cmds := rfl

theorem baseSet (j : Job) (k : Nat) (v : BaseGen) : baseOf (setBase j k v) k = v := by
  unfold baseOf setBase; split <;> rfl

theorem baseSetOther (j : Job) (k : Nat) (v : BaseGen) (h : k ≤ 1) : baseOf (setBase j k v) (1 - k) = baseOf j (1 - k) := by
  have : k = 0 ∨ k = 1 := by omega
  rcases this with rfl | rfl <;> rfl

theorem revokeSeqs_job {s : State} {j : Job} (t : Nat) (h : s.job = some j) :
    ∃ k, (revokeSeqs s t).job = some k ∧ k.tenants = j.tenants ∧ ∀ q ∈ k.seqs, q.tenant = t → q.ended = some stRevoked := by
  unfold revokeSeqs
  dsimp only
  have hk := foldl_view State.job (fun (s : State) (q : Sequence) => finishWith s q.acc stRevoked (bvLe q.user 8 ++ natLe q.tokens 3)) (fun _ _ => rfl) ((jobOf s).seqs.filter (fun q => decide (q.tenant = t) && decide (q.st ≠ SeqSt.running))) s
  rw [hk, h]
  refine ⟨_, rfl, rfl, ?_⟩
  intro q hq htq
  simp only [List.mem_map] at hq
  obtain ⟨q0, _, rfl⟩ := hq
  by_cases h0 : q0.tenant = t
  · simp [h0]
  · exfalso; apply h0; simpa [h0] using htq

theorem c5r (acc : BitVec 64) (s : State) (c : Cmd) (j : Job) (d : Cmd) (q : Sequence) (hj : s.job = some j) (hr : ready s acc 0x03 = some c) (hd : findCmd s (opB c 8 8 64) = some d) (h1 : d.ring = opN c 0 1) (h2 : opcOf d = 0x02) (h3 : d.job = j.id)
      (h4 : d.ph = .running) (h5 : j.seqs.find? (fun q => q.acc = opB c 8 8 64) = some q) :
      (q.tenant ≠ hdrTenant c → exec (.retire acc) s = .next (finish s acc stPolicy)) ∧
      (q.tenant = hdrTenant c → (q.st = .queued ∨ q.st = .parked) → exec (.retire acc) s = .next (finish (dropSeq s q stWarn) acc stOk)) ∧
      (q.tenant = hdrTenant c → q.st ≠ .queued → q.st ≠ .parked → exec (.retire acc) s = .next
        (finish (updSeq s (opB c 8 8 64) (fun q => if q.ended.isNone then { q with ended := some stWarn } else q)) acc stOk)) := by
  have hfind : j.seqs.find? (fun q => decide (q.acc = opB c 8 8 64) && (match findCmd s q.acc with | some d => d.ring = opN c 0 1 && opcOf d = 0x02 && d.job = j.id | none => false)) = some q := by
    rw [← h5]
    congr 1
    funext x
    by_cases hx : x.acc = opB c 8 8 64
    · rw [hx, hd]; simp [h1, h2, h3]
    · simp [hx]
  have hex : ∀ r, exec (.retire acc) s = r ↔ execRetire acc s = r := fun _ => Iff.rfl
  have hbase : execRetire acc s = .next (if q.tenant ≠ hdrTenant c then finish s acc stPolicy
        else if q.st = .queued || q.st = .parked then finish (dropSeq s q stWarn) acc stOk
        else finish (updSeq s (opB c 8 8 64) (fun q => if q.ended.isNone then { q with ended := some stWarn } else q)) acc stOk) := by
    unfold execRetire; rw [onJob_eq hr hj]
    simp only [hd]
    rw [if_neg (by simp [h4])]
    erw [hfind]
  refine ⟨fun h => ?_, fun h h6 => ?_, fun h h6 h7 => ?_⟩
  · rw [hex, hbase, if_pos h]
  · rw [hex, hbase, if_neg (by simp [h]), if_pos (by rcases h6 with h6 | h6 <;> simp [h6])]
  · rw [hex, hbase, if_neg (by simp [h]), if_neg (by simp [h6, h7])]

end Sys2Proof.Laws
end

