-- ==== Sys2Proof/Laws/Moves.lean ====
section
/-! SUPPORT. Moves, gathers, routing rows and grouped products of a glade over PUBLIC data. -/

namespace Sys2Proof.Laws

open Sys2Proof.Machine Sys2Proof.Safety

theorem engOf_takeToken (g : Glade) (e : Engine) (q : Nat) : engOf (takeToken g e q) e = engOf g e := by
  unfold takeToken
  have h : ∀ (v : Eng) (k : Glade), engOf (setEng k (otherEng e) v) e = engOf k e := fun v k => Laws.engOf_setEng_ne k v (by cases e <;> decide)
  dsimp only
  split
  · rw [h]; cases e <;> rfl
  · cases e <;> rfl

theorem mem_tset {α : Type} [DecidableEq α] (d : α) (t : Tab α) (k : Nat) (v : α) (h : v ≠ d) : (k, v) ∈ tset d t k v := by
  unfold tset; rw [if_neg h]
  generalize tdel t k = u
  induction u with
  | nil => simp [tins]
  | cons e r ih => unfold tins; split <;> simp [ih]

theorem mem_gladesOf (s : State) (g : Nat) (v : Glade) (h : v ≠ {}) : g ∈ gladesOf (setGlade s g v) v.cmd := by
  unfold gladesOf
  refine List.mem_map.mpr ⟨(g, v), List.mem_filter.mpr ⟨mem_tset _ _ _ _ h, by simp⟩, rfl⟩

theorem gTag_nopair (s : State) : True := trivial

theorem pieces_eight (a : Nat) (b : Bytes) (hb : b.length = 8) (h : a % 8 = 0) : pieces a b = [(a, b)] := by
  have h8 : a % 256 ≤ 248 := by omega
  unfold pieces
  rw [hb]
  cases b with
  | nil => simp at hb
  | cons x r =>
    show (a, (x :: r).take (256 - a % 256)) :: piecesAux 7 _ ((x :: r).drop (256 - a % 256)) = _
    rw [List.take_of_length_le (by omega), List.drop_eq_nil_of_le (by omega)]
    rfl
set_option maxHeartbeats 2000000 in

theorem rows_put {i : GI} {rc : Bool} {s : State} {row : Nat → Acc → Acc} {n : Nat} {F : Mem → Nat → Mem} (hn : NextIn i s) (hg : (gladeOf s i.glade.val).tags = [])
    (h : ∀ r < n, ∀ (a : Acc) (k : Glade), a.err = 0 → OnGlade s i.glade.val a.s k → k.tags = [] → k.cmd = (gladeOf s i.glade.val).cmd → k.rcnt = (gladeOf s i.glade.val).rcnt →
      (row r a).err = 0 ∧ OnGlade s i.glade.val (row r a).s { k with mem := F k.mem r }) :
    RowsDone i rc s (settleOut i (closeAcc i rc (runRows row n { s := s }))) ((List.range n).foldl (fun k r => { k with mem := F k.mem r }) (gladeOf s i.glade.val)) := by
  have := Laws.runSteps_fold (fun t k => OnGlade s i.glade.val t k ∧ k.tags = [] ∧ k.cmd = (gladeOf s i.glade.val).cmd ∧ k.rcnt = (gladeOf s i.glade.val).rcnt ∧ engOf k i.eng = curEng s i)
    (fun (k : Glade) r => { k with mem := F k.mem r }) row (List.range n) (by
      intro r hr a m ha hR
      obtain ⟨q1, q2⟩ := h r (List.mem_range.mp hr) a m ha hR.1 hR.2.1 hR.2.2.1 hR.2.2.2.1
      refine ⟨q1, q2, hR.2.1, hR.2.2.1, hR.2.2.2.1, ?_⟩
      rw [← hR.2.2.2.2]; cases i.eng <;> rfl) { s := s } (gladeOf s i.glade.val) ⟨rfl, rfl, rfl⟩ rfl ⟨Laws.onGlade_self _ _, hg, rfl, rfl, rfl⟩
  exact Laws.rowsDone this.1 this.2.1 this.2.2.1 this.2.2.2.2.2.2 hn

theorem putSel_step {s : State} {g : Nat} {pl : Place} (hpl : pl.gi = g) {a : Td} {r : Nat} {vals : List (BitVec 32)} {sel : Nat → Bool} {x : Acc} {k : Glade}
    (hb : InBuffer a) (hx : x.err = 0) (ho : OnGlade s g x.s k) (h1 : k.tags = []) (h2 : k.cmd = (gladeOf s g).cmd) (h3 : k.rcnt = (gladeOf s g).rcnt) :
    (vecWrite pl a r vals sel tagPublic x).err = 0 ∧ OnGlade s g (vecWrite pl a r vals sel tagPublic x).s { k with mem := putSel k.mem a r (roundAt s g a r) vals sel } := by
  subst hpl
  obtain ⟨e1, _, e3, e4⟩ := Laws.vecWrite_sel_buffer (r := r) (vals := vals) (sel := sel) hb (by rw [ho.2]; exact h1)
  refine ⟨e1.trans hx, Laws.onGlade_trans ho e4 ?_⟩
  rw [e3, ho.2, Laws.roundAt_onGlade ho h2 h3]

theorem putVals_step {s : State} {g : Nat} {pl : Place} (hpl : pl.gi = g) {a : Td} {r : Nat} {vals : List (BitVec 32)} {x : Acc} {k : Glade}
    (hb : InBuffer a) (hl : vals.length = tCols a) (hx : x.err = 0) (ho : OnGlade s g x.s k) (h1 : k.tags = []) (h2 : k.cmd = (gladeOf s g).cmd) (h3 : k.rcnt = (gladeOf s g).rcnt) :
    (vecWrite pl a r vals (fun _ => true) tagPublic x).err = 0 ∧ OnGlade s g (vecWrite pl a r vals (fun _ => true) tagPublic x).s { k with mem := putVals k.mem a r (roundAt s g a r) vals } := by
  subst hpl
  obtain ⟨e1, _, e3⟩ := Laws.vecWrite_buffer (r := r) (vals := vals) hb (by rw [ho.2]; exact h1) hl
  refine ⟨e1.trans hx, Laws.onGlade_trans ho (.inr ⟨_, e3⟩) ?_⟩
  rw [e3, Laws.gladeOf_setGlade_same, ho.2, Laws.roundAt_onGlade ho h2 h3]

theorem memVals_length (m : Mem) (t : Td) (r : Nat) : (memVals m t r).length = tCols t := by
  simp [memVals, rowVals, rowElems, memRow, Laws.numbered_length]

theorem memB_length (m : Mem) (b : BSrc) (r n : Nat) (h : ∀ t, b = .tile t → tCols t = n) : (memB m b r n).length = n := by
  cases b with
  | tile t => simp [memB, memVals_length, h t rfl]
  | _ => simp [memB]

theorem bRow_buffer {s : State} {pl : Place} (b : BSrc) (r n : Nat) (hg : (gladeOf s pl.gi).tags = []) (h : ∀ t, b = .tile t ∨ b = .bcast t → InBuffer t) :
    ∃ fl, bRow s pl b r n = .ok (memB (gladeOf s pl.gi).mem b r n, fl, tagPublic) := by
  cases b with
  | none => exact ⟨_, rfl⟩
  | scalar v => exact ⟨_, rfl⟩
  | tile t => exact ⟨_, by simp only [bRow, Laws.readRow_buffer r (h t (.inl rfl)) hg]; rfl⟩
  | bcast t => exact ⟨_, by simp only [bRow, Laws.readRow_buffer r (h t (.inr rfl)) hg]; rfl⟩

theorem vopRow_step {s : State} {g : Nat} {pl : Place} (hpl : pl.gi = g) {f : BitVec 32 → BitVec 32 → BitVec 32 → R32} {fma : Bool} {a b : Td} {src : BSrc} {r : Nat} {x : Acc} {k : Glade}
    (ha : InBuffer a) (hb : InBuffer b) (hs : ∀ t, src = .tile t ∨ src = .bcast t → InBuffer t) (hst : ∀ t, src = .tile t → tCols t = tCols b) (hc : tCols a = tCols b)
    (hx : x.err = 0) (ho : OnGlade s g x.s k) (h1 : k.tags = []) (h2 : k.cmd = (gladeOf s g).cmd) (h3 : k.rcnt = (gladeOf s g).rcnt) :
    (vopRow pl f fma a b src r x).err = 0 ∧ OnGlade s g (vopRow pl f fma a b src r x).s { k with mem := putVals k.mem a r (roundAt s g a r) (((memVals k.mem b r).zip ((memB k.mem src r (tCols b)).zip (memB k.mem (if fma then .tile a else .none) r (tCols b)))).map (fun v => (f v.1 v.2.1 v.2.2).v)) } := by
  subst hpl
  have hg : (gladeOf x.s pl.gi).tags = [] := by rw [ho.2]; exact h1
  obtain ⟨f1, e1⟩ := bRow_buffer src r (tCols b) hg hs
  obtain ⟨f2, e2⟩ := bRow_buffer (if fma then .tile a else .none) r (tCols b) hg (by intro t h; cases fma <;> simp at h; subst h; exact ha)
  have e2' : (if fma = true then bRow x.s pl (.tile a) r (tCols b) else bRow x.s pl .none r (tCols b)) = .ok (memB (gladeOf x.s pl.gi).mem (if fma then .tile a else .none) r (tCols b), f2, tagPublic) := by
    rw [← e2]; cases fma <;> rfl
  have hj : joinAll [tagPublic, tagPublic, tagPublic] = some tagPublic := by decide
  have hrow : ∃ fl ev, vopRow pl f fma a b src r x = vecWrite pl a r ((((memVals k.mem b r).zip ((memB k.mem src r (tCols b)).zip (memB k.mem (if fma then .tile a else .none) r (tCols b)))).map (fun v => f v.1 v.2.1 v.2.2)).map (·.v)) (fun _ => true) tagPublic ((x.note fl 0).event ev) := by
    unfold vopRow
    rw [Laws.readRow_buffer r hb hg, e1, e2']
    have ht : (memRow (gladeOf x.s pl.gi).mem b r).tag = tagPublic := rfl
    simp only [ht, hj, ho.2]
    exact ⟨_, _, rfl⟩
  obtain ⟨fl, ev, hrow⟩ := hrow
  rw [hrow, List.map_map]
  refine putVals_step rfl ha ?_ (by simpa using hx) (by simpa using ho) h1 h2 h3
  have hl3 : (memB k.mem (if fma then .tile a else .none) r (tCols b)).length = tCols b := memB_length _ _ _ _ (by intro t h; cases fma <;> simp at h; subst h; exact hc)
  simp [memVals_length, memB_length k.mem src r (tCols b) hst, hl3, hc]

theorem reduceRow_step {s : State} {g : Nat} {pl : Place} (hpl : pl.gi = g) {f : List (BitVec 32) → R32} {a b : Td} {r : Nat} {x : Acc} {k : Glade}
    (ha : InBuffer a) (hb : InBuffer b) (hx : x.err = 0) (ho : OnGlade s g x.s k) (h1 : k.tags = []) (h2 : k.cmd = (gladeOf s g).cmd) (h3 : k.rcnt = (gladeOf s g).rcnt) :
    (reduceRow pl f a b r x).err = 0 ∧ OnGlade s g (reduceRow pl f a b r x).s { k with mem := putSel k.mem a r (roundAt s g a r) ((f (memVals k.mem b r)).v :: List.replicate (tCols a - 1) 0) (fun c => c = 0) } := by
  subst hpl
  have hg : (gladeOf x.s pl.gi).tags = [] := by rw [ho.2]; exact h1
  unfold reduceRow
  rw [Laws.readRow_buffer r hb hg, ho.2]
  exact putSel_step rfl ha (by simpa using hx) (by simpa using ho) h1 h2 h3

theorem bsrc_ok (pl : Place) (a : Td) : ∀ (src : BSrc), (∀ t, src = .tile t → vecSrc pl t = true ∧ tRows t = tRows a ∧ tCols t = tCols a) →
    (∀ t, src = .bcast t → vecSrc pl t = true ∧ tRows t = tRows a) → (match src with
          | .tile t => vecSrc pl t && decide (tRows t = tRows a) && decide (tCols t = tCols a)
          | .bcast t => vecSrc pl t && decide (tRows t = tRows a)
          | _ => true) = true := by
  intro src hs1 hs2
  cases src with
  | none => rfl
  | scalar v => rfl
  | tile t => obtain ⟨k1, k2, k3⟩ := hs1 t rfl; simp [k1, k2, k3]
  | bcast t => obtain ⟨k1, k2⟩ := hs2 t rfl; simp [k1, k2]

theorem join_public (t : Tag) : ∃ u, join t tagPublic = some u := by
  unfold join
  have h1 : isTenant tagPublic = false := by decide
  have h2 : isBase tagPublic = false := by decide
  cases isTenant t <;> cases isBase t <;> simp [h1, h2]

theorem rowTag_public {g : Glade} (h : g.tags = []) (r : Nat) : rowTag g r = tagPublic := by simp [rowTag, h]

theorem poisonedRows_public {g : Glade} (h : g.tags = []) (l : List Nat) : poisonedRows g l = false := by
  unfold poisonedRows
  rw [List.any_eq_false]
  intro r _
  rw [rowTag_public h]
  have : ¬ tagPublic = tagPoison := by decide
  simp [this]

theorem setRow_tags {g : Glade} (h : g.tags = []) (r : Nat) (v : List (BitVec 32)) (p : Bool) : (setRow g r v tagPublic p).tags = [] := by
  simp [setRow, h, tset, tdel]

theorem setRowTag_public {g : Glade} (h : g.tags = []) (r : Nat) : setRowTag g r tagPublic = g := by
  cases g; simp only at h; subst h; rfl

theorem readRowN_buffer {s : State} {pl : Place} {t : Td} (r n : Nat) (hb : InBuffer t) (hg : (gladeOf s pl.gi).tags = []) :
    readRowN s pl t r n = .ok (memRowN (gladeOf s pl.gi).mem t r n) := by
  obtain ⟨h1, h2⟩ := hb
  unfold readRowN
  by_cases hk : isBlock (tFmt t) = true
  · have hj := Laws.joinAll_public (gTags (gladeOf s pl.gi) (rowAddr t r) (bytesFor (tFmt t) n) ++ gTags (gladeOf s pl.gi) (scaleAddr t r) (ceilDiv n (tBlk t)))
      (fun x hx => by rcases List.mem_append.mp hx with h | h <;> exact Laws.gTags_public hg _ _ x h)
    have hss : t.sspace.toNat = 0 := by rw [h2 hk]; rfl
    simp only [Laws.tSpace_zero h1, hss, spanTags, Laws.gPoisoned_public hg, hk, if_true, memRowN, Bool.false_eq_true, if_false]
    rw [hj]
  · have hj := Laws.joinAll_public (gTags (gladeOf s pl.gi) (rowAddr t r) (bytesFor (tFmt t) n) ++ [])
      (fun x hx => by rw [List.append_nil] at hx; exact Laws.gTags_public hg _ _ x hx)
    simp only [Laws.tSpace_zero h1, spanTags, Laws.gPoisoned_public hg, hk, if_false, memRowN, Bool.false_eq_true]
    rw [hj]; rfl

theorem readRowsN_buffer {s : State} {pl : Place} {t : Td} (rows : Nat) (hb : InBuffer t) (hg : (gladeOf s pl.gi).tags = []) (l : List Nat) :
    readRowsN s pl t rows l = .ok (l.map (fun j => memRowN (gladeOf s pl.gi).mem t j rows)) := by
  induction l with
  | nil => rfl
  | cons j r ih => simp only [readRowsN, readRowN_buffer j rows hb hg, ih, List.map_cons]

theorem readSTile_buffer {s : State} {pl : Place} {t : Td} (pack rows cols : Nat) (hb : InBuffer t) (hg : (gladeOf s pl.gi).tags = []) :
    readSTile s pl t pack rows cols = .ok (memSTile (gladeOf s pl.gi).mem t pack rows cols) := by
  unfold readSTile
  simp only [readRowsN_buffer rows hb hg, List.map_map]
  rw [Laws.joinAll_public _ (fun x hx => by obtain ⟨y, _, rfl⟩ := List.mem_map.mp hx; rfl)]
  simp only [tileOfRows, memSTile, List.map_map, List.any_map, Function.comp_def]

/-- Retagging with PUBLIC a row of a glade whose every unit is PUBLIC changes nothing. -/
theorem retagUnits_public {g : Glade} (h : g.tags = []) (l : List (Nat × Nat)) :
    l.foldl (fun g u => gSetTag g u.1 ((join (gTag g u.1) tagPublic).getD tagPublic)) g = g := by
  induction l with
  | nil => rfl
  | cons u r ih =>
    have : gSetTag g u.1 ((join (gTag g u.1) tagPublic).getD tagPublic) = g := by
      have h1 : gTag g u.1 = tagPublic := by simp [gTag, h]
      rw [h1]
      cases g; simp only at h; subst h; rfl
    rw [List.foldl_cons, this]; exact ih

theorem retagRow_public {s t : State} {g : Nat} {k : Glade} {pl : Place} (hpl : pl.gi = g) {a : Td} (ha : InBuffer a) (ho : OnGlade s g t k) (h1 : k.tags = [])
    (r : Nat) : OnGlade s g (retagRow t pl a r tagPublic) k := by
  subst hpl
  have one : ∀ {u : State} (l : List (Nat × Nat)), OnGlade s pl.gi u k →
      OnGlade s pl.gi (setGlade u pl.gi (l.foldl (fun g u => gSetTag g u.1 ((join (gTag g u.1) tagPublic).getD tagPublic)) (gladeOf u pl.gi))) k := by
    intro u l hu
    refine Laws.onGlade_trans hu (.inr ⟨_, rfl⟩) ?_
    rw [Laws.gladeOf_setGlade_same, hu.2, retagUnits_public h1]
  unfold retagRow
  simp only [Laws.tSpace_zero ha.1, if_true]
  by_cases hk : isBlock (tFmt a) = true
  · have hss : a.sspace.toNat = 0 := by rw [ha.2 hk]; rfl
    simp only [hk, hss, if_true]
    exact one _ (one _ ho)
  · simp only [hk, if_false, Bool.false_eq_true]
    exact one _ ho

theorem selRow_step {s : State} {g : Nat} {pl : Place} (hpl : pl.gi = g) {a b c : Td} {r : Nat} {x : Acc} {k : Glade}
    (ha : InBuffer a) (hb : InBuffer b) (hc : InBuffer c) (hx : x.err = 0) (ho : OnGlade s g x.s k) (h1 : k.tags = []) (h2 : k.cmd = (gladeOf s g).cmd) (h3 : k.rcnt = (gladeOf s g).rcnt) :
    (selRow pl a b c r x).err = 0 ∧ OnGlade s g (selRow pl a b c r x).s { k with mem := putSel k.mem a r (roundAt s g a r) (memVals k.mem c r) (fun n => ((memVals k.mem b r).map (fun v => !isZero32 v && !isNan32 v)).getD n false) } := by
  subst hpl
  have hg : (gladeOf x.s pl.gi).tags = [] := by rw [ho.2]; exact h1
  have hj : joinAll [tagPublic, tagPublic, tagPublic] = some tagPublic := by decide
  unfold selRow
  rw [Laws.readRow_buffer r ha hg, Laws.readRow_buffer r hb hg, Laws.readRow_buffer r hc hg, ho.2]
  have ht : ∀ (t : Td), (memRow k.mem t r).tag = tagPublic := fun _ => rfl
  simp only [ht, hj]
  obtain ⟨q1, q2⟩ := putSel_step (pl := pl) rfl ha (x := x.note (rowInf a (memRow k.mem a r) ||| rowInf b (memRow k.mem b r) ||| rowInf c (memRow k.mem c r)) 0)
    (r := r) (vals := memVals k.mem c r) (sel := fun n => ((memVals k.mem b r).map (fun v => !isZero32 v && !isNan32 v)).getD n false)
    (by simpa using hx) (by simpa using ho) h1 h2 h3
  rw [if_neg (by erw [q1]; simp)]
  exact ⟨q1, retagRow_public rfl ha q2 h1 r⟩

/-- A row of PUBLIC data that enters window rows: with an overwriting pass of any tile, or with a PUBLIC tile in a glade whose every unit is PUBLIC. -/
theorem passInto_step {s : State} {g : Nat} {pl : Place} (hpl : pl.gi = g) {pf : PassFlags} {st : STile} {vf blk row : Nat} {vec : List (Nat × Nat)} {x : Acc} {k : Glade}
    (hst : st.tag ≠ tagPoison) (hj0 : joinAll [tagPublic, st.tag] = some st.tag) (h1 : pf.acc = false ∨ (st.tag = tagPublic ∧ k.tags = []))
    (hx : x.err = 0) (ho : OnGlade s g x.s k) :
    (passInto pl pf st vf blk row vec tagPublic x).err = 0 ∧ OnGlade s g (passInto pl pf st vf blk row vec tagPublic x).s (passGlade pf st vf blk row vec k) := by
  subst hpl
  have hg : gladeOf x.s pl.gi = k := ho.2
  have hj : joinAll (tagPublic :: st.tag :: (if pf.acc then (if pf.pair then [if pf.pair then 2 * row else row, (if pf.pair then 2 * row else row) + 1] else [if pf.pair then 2 * row else row]).map (rowTag k) else [])) = some st.tag := by
    rcases h1 with ha | ⟨hp, ht⟩
    · rw [ha]; exact hj0
    · rw [hp]
      apply Laws.joinAll_public
      intro y hy
      rcases List.mem_cons.mp hy with rfl | hy
      · rfl
      · rcases List.mem_cons.mp hy with rfl | hy
        · rfl
        · cases hpa : pf.acc
          · simp [hpa] at hy
          · simp only [hpa, if_true] at hy
            obtain ⟨z, _, rfl⟩ := List.mem_map.mp hy
            exact rowTag_public ht z
  have hpo : ∀ l, (pf.acc && poisonedRows k l) = false := by
    intro l
    rcases h1 with ha | ⟨_, ht⟩
    · simp [ha]
    · simp [poisonedRows_public ht]
  have put : ∀ (a : Acc) (v : Glade), a.err = 0 → a.s = x.s → ({ a with s := setGlade a.s pl.gi v } : Machine.Acc).err = 0 ∧ OnGlade s pl.gi ({ a with s := setGlade a.s pl.gi v } : Machine.Acc).s v := by
    intro a v ha hs
    refine ⟨ha, ?_⟩
    show OnGlade s pl.gi (setGlade a.s pl.gi v) v
    rw [hs]
    exact Laws.onGlade_trans ho (.inr ⟨v, rfl⟩) (Laws.gladeOf_setGlade_same _ _ _)
  unfold passInto passGlade
  simp only [hg, hpo, hst, decide_false, Bool.or_self, Bool.false_eq_true, if_false]
  rw [hj]
  by_cases hs : (pf.skip && isBlock vf && !st.marked && vec.all (fun e => e.2 = 0)) = true
  · simp only [hs, if_true]
    cases hpa : pf.acc
    · cases hpp : pf.pair
      · simp only [if_false, Bool.false_eq_true, List.foldl_cons, List.foldl_nil]
        exact ⟨hx, (put x _ hx rfl).2⟩
      · simp only [if_false, if_true, Bool.false_eq_true, List.foldl_cons, List.foldl_nil]
        exact ⟨hx, (put x _ hx rfl).2⟩
    · rcases h1 with ha | ⟨hp, ht⟩
      · rw [ha] at hpa; cases hpa
      · simp only [if_true]
        have hf : (if pf.pair = true then [if pf.pair = true then 2 * row else row, (if pf.pair = true then 2 * row else row) + 1] else [if pf.pair = true then 2 * row else row]).foldl (fun g r => setRowTag g r st.tag) k = k := by
          rw [hp]; cases pf.pair <;> simp [setRowTag_public ht]
        rw [hf]
        exact ⟨(put x k hx rfl).1, (put x k hx rfl).2⟩
  · simp only [hs, if_false, Bool.false_eq_true]
    cases hpa : pf.acc
    · cases hpp : pf.pair
      · simp only [Bool.not_false, if_true, if_false, Bool.false_eq_true]
        exact ⟨by simpa using hx, (put _ _ (by simpa using hx) (by simp)).2⟩
      · simp only [Bool.not_false, if_true]
        exact ⟨by simpa using hx, (put _ _ (by simpa using hx) (by simp)).2⟩
    · cases hpp : pf.pair
      · simp only [Bool.not_true, if_false, Bool.false_eq_true, List.map_map, Function.comp_def]
        exact ⟨by simpa using hx, (put _ _ (by simpa using hx) (by simp)).2⟩
      · simp only [Bool.not_true, if_true, if_false, Bool.false_eq_true]
        exact ⟨by simpa using hx, (put _ _ (by simpa using hx) (by simp)).2⟩

/-- A PUBLIC tile leaves every unit of a glade PUBLIC. -/
theorem passGlade_tags {pf : PassFlags} {st : STile} {vf blk row : Nat} {vec : List (Nat × Nat)} {k : Glade} (hp : st.tag = tagPublic) (ht : k.tags = []) :
    (passGlade pf st vf blk row vec k).tags = [] := by
  unfold passGlade
  dsimp only
  rw [hp]
  repeat' split
  all_goals first | with_reducible exact ht | with_reducible exact setRow_tags ht _ _ _ | with_reducible exact setRow_tags (setRow_tags ht _ _ _) _ _ _

/-- A pass changes the tags of window rows alone. -/
theorem passGlade_low {pf : PassFlags} {st : STile} {vf blk row : Nat} {vec : List (Nat × Nat)} {k : Glade} {u : Nat} (hu : u < 65536) :
    tget tagPublic (passGlade pf st vf blk row vec k).tags u = tget tagPublic k.tags u := by
  have one : ∀ (g : Glade) (r : Nat) (v : List (BitVec 32)) (t : Tag) (p : Bool), tget tagPublic (setRow g r v t p).tags u = tget tagPublic g.tags u :=
    fun g r v t p => Laws.tget_tset_ne _ _ _ (by omega)
  unfold passGlade
  dsimp only
  repeat' split
  all_goals first | with_reducible rfl | with_reducible exact one _ _ _ _ _ | with_reducible exact (one _ _ _ _ _).trans (one _ _ _ _ _)

theorem setStat_tags (g : Glade) (k : Nat) (v : Stat) : (setStat g k v).tags = g.tags := rfl

theorem roundAt_glade {s t : State} {g : Nat} (h : ∃ k, OnGlade s g t k ∧ k.cmd = (gladeOf s g).cmd ∧ k.rcnt = (gladeOf s g).rcnt) (d : Td) (r : Nat) : roundAt t g d r = roundAt s g d r := by
  obtain ⟨k, h1, h2, h3⟩ := h
  exact Laws.roundAt_onGlade h1 h2 h3 d r

theorem kept_vals (rs : List R32) (keep : Nat → Bool) : ((numbered rs).filter (fun c => keep c.1)).map (·.2.v) = ((numbered (rs.map (·.v))).filter (fun c => keep c.1)).map (·.2) := by
  have : numbered (rs.map (·.v)) = (numbered rs).map (fun c => (c.1, c.2.v)) := by
    unfold numbered
    rw [List.length_map, List.zip_map_right]; rfl
  rw [this, List.filter_map, List.map_map]; rfl

theorem wrote_ok (x : Machine.Acc) (fl : BitVec 5) (ev : Option LogEv) (out : RowOut) (s2 : State) : (((x.note fl 0).event ev).wrote out (.ok s2)).err = x.err ∧ (((x.note fl 0).event ev).wrote out (.ok s2)).s = s2 := by
  exact ⟨by simp [Acc.wrote, Acc.took], by simp [Acc.wrote, Acc.took]⟩

theorem conv_vals (k : Glade) (o : CvtOp) (a : Td) (r : Nat) (rv : Option (List (BitVec 32))) : ((List.range (tCols a)).map (fun c =>
        if maskBit o.block c then convElem o c (((rowVal k ((if o.pair = true then [2 * (firstRow a o.pair + r), 2 * (firstRow a o.pair + r) + 1] else [firstRow a o.pair + r]).getD 0 0)).take (tCols a)).getD c 0) (if o.pair then some (((rowVal k (2 * (firstRow a o.pair + r) + 1)).take (tCols a)).getD c 0) else none) (rv.map (fun l => l.getD c 0))
        else (⟨0, 0, 0⟩ : R32))).map (·.v) = (List.range (tCols a)).map (fun c =>
    if maskBit o.block c then (convElem o c (((rowVal k (if o.pair then 2 * (firstRow a o.pair + r) else firstRow a o.pair + r)).take (tCols a)).getD c 0) (if o.pair then some (((rowVal k (2 * (firstRow a o.pair + r) + 1)).take (tCols a)).getD c 0) else none) (rv.map (fun l => l.getD c 0))).v else 0) := by
  have h0 : (if o.pair = true then [2 * (firstRow a o.pair + r), 2 * (firstRow a o.pair + r) + 1] else [firstRow a o.pair + r]).getD 0 0 = (if o.pair then 2 * (firstRow a o.pair + r) else firstRow a o.pair + r) := by
    cases o.pair
    · simp only [Bool.false_eq_true, if_false, List.getD_cons_zero]
    · simp only [if_true, List.getD_cons_zero]
  rw [h0, List.map_map]
  apply List.map_congr_left
  intro c _
  rw [Function.comp_apply, apply_ite R32.v]

theorem convRow_step {s : State} {pl : Place} {o : CvtOp} {a b : Td} {x : Acc} {k : Glade} {r : Nat} (hbt : o.btag = tagPublic)
    (hst : ∀ n, o.slot = some n → ∃ u, join (statOf k n).tag tagPublic = some u)
    (hx : x.err = 0) (ho : OnGlade s pl.gi x.s k) (h1 : k.tags = []) (hc : k.cmd = (gladeOf s pl.gi).cmd) (hr : k.rcnt = (gladeOf s pl.gi).rcnt)
    (hb : InBuffer b) (hres : ∀ t, o.res = some t → InBuffer t) :
    (convRow pl o a b r x).err = 0 ∧ OnGlade s pl.gi (convRow pl o a b r x).s (convGlade s pl.gi o a b r k) := by
  have hg : gladeOf x.s pl.gi = k := ho.2
  have hgt : (gladeOf x.s pl.gi).tags = [] := by rw [hg]; exact h1
  have hrnd : roundAt x.s pl.gi b r = roundAt s pl.gi b r := roundAt_glade ⟨k, ho, hc, hr⟩ b r
  unfold convRow
  have hres' : ∀ (F : Byte → Acc) (G : Option (List (BitVec 32)) → Tag → Acc),
      (match (match o.res with
    | none => (Except.ok (none, tagPublic) : Except Byte (Option (List (BitVec 32)) × Tag))
    | some t => match readRow x.s pl t r with
      | .error e => .error e
      | .ok y => .ok (some (rowVals t y), y.tag)) with
      | .error e => F e
      | .ok (rv, rt) => G rv rt) = G (o.res.map (fun t => memVals k.mem t r)) tagPublic := by
    intro F G
    cases hh : o.res with
    | none => rfl
    | some t => simp only [Laws.readRow_buffer r (hres t hh) hgt, hg, Option.map_some]; rfl
  simp only [hg]
  refine (congrArg (fun y : Machine.Acc => y.err = 0 ∧ OnGlade s pl.gi y.s (convGlade s pl.gi o a b r k)) (hres' _ _)).mpr ?_
  simp only [hbt, poisonedRows_public h1, Bool.false_eq_true, if_false]
  have hj : joinAll (tagPublic :: tagPublic :: ((if o.pair = true then [2 * (firstRow a o.pair + r), 2 * (firstRow a o.pair + r) + 1] else [firstRow a o.pair + r]).map (rowTag k))) = some tagPublic := by
    apply Laws.joinAll_public
    intro y hy
    simp only [List.mem_cons, List.mem_map] at hy
    rcases hy with h | h | ⟨z, _, h⟩
    · exact h
    · exact h
    · rw [← h]; exact rowTag_public h1 z
  rw [hj]
  dsimp only
  rw [hrnd]
  have hvals := conv_vals k o a r ((o.res.map (fun t => memVals k.mem t r)))
  unfold convGlade
  dsimp only
  rw [kept_vals, hvals]
  generalize (List.range (tCols a)).map (fun c =>
    if maskBit o.block c then (convElem o c (((rowVal k (if o.pair then 2 * (firstRow a o.pair + r) else firstRow a o.pair + r)).take (tCols a)).getD c 0) (if o.pair then some (((rowVal k (2 * (firstRow a o.pair + r) + 1)).take (tCols a)).getD c 0) else none) ((o.res.map (fun t => memVals k.mem t r)).map (fun l => l.getD c 0))).v else 0) = rs
  obtain ⟨s', w1, w2, w3⟩ := Laws.writeOut_buffer (s := x.s) (pl := pl) r (encodeSel (tFmt b) b.blk.toNat (roundAt s pl.gi b r) rs (maskBit o.block)) hb hgt
  cases hs : o.slot with
  | none =>
    simp only [Option.map_none, w1]
    refine ⟨(wrote_ok _ _ _ _ _).1.trans hx, ?_⟩
    rw [(wrote_ok _ _ _ _ _).2]
    rw [hg] at w3
    exact Laws.onGlade_trans ho w2 w3
  | some n =>
    obtain ⟨u, hu⟩ := hst n hs
    simp only [Option.map_some, hu, w1, Option.getD_some]
    refine ⟨(wrote_ok _ _ _ _ _).1.trans hx, ?_⟩
    rw [hg] at w3
    refine Laws.onGlade_trans (Laws.onGlade_trans ho w2 w3) (.inr ⟨_, rfl⟩) ?_
    rw [Laws.gladeOf_setGlade_same, w3]

theorem convGlade_rest (s : State) (g : Nat) (o : CvtOp) (a b : Td) (r : Nat) (k : Glade) :
    (convGlade s g o a b r k).tags = k.tags ∧ (convGlade s g o a b r k).cmd = k.cmd ∧ (convGlade s g o a b r k).rcnt = k.rcnt ∧ ∀ e, engOf (convGlade s g o a b r k) e = engOf k e := by
  unfold convGlade
  dsimp only
  cases o.slot with
  | none => refine ⟨rfl, rfl, rfl, fun e => ?_⟩; cases e <;> rfl
  | some n => refine ⟨rfl, rfl, rfl, fun e => ?_⟩; cases e <;> rfl

theorem gladeOf_eqg {t u : State} (h : t.glades = u.glades) (g : Nat) : gladeOf t g = gladeOf u g := by unfold gladeOf; rw [h]

theorem ended {i : GI} {s : State} {x : Machine.Acc} (hw : Laws.Whole x) (h : x.err = 0) (he : curEng x.s i = curEng s i) (hn : NextIn i s) :
    Ended i s (settleOut i (closeAcc i false x)) x.s := by
  obtain ⟨s', e1, e2⟩ := Laws.closeAcc_ok i false x hw h
  rw [e1]
  rw [if_neg (by decide)] at e2
  have hg := gladeOf_eqg e2
  have hc : curEng s' i = curEng s i := by rw [← he]; unfold curEng; rw [hg]
  rw [Laws.settleOut_done (by simpa only [NextIn, hc] using hn), hc]
  refine ⟨by simp, ?_, fun k hk => ?_⟩
  · simp only [setCur, Laws.gladeOf_setGlade_same, hg]
  · rw [← hg k]; exact Laws.gladeOf_setGlade_ne _ _ hk

theorem closeAcc_quiet {i : GI} {s : State} {x : Machine.Acc} (hw : Laws.Whole x) (h : x.err = 0) (hi : x.inv = none) (he : curEng x.s i = curEng s i) (hn : NextIn i s) :
    (settleOut i (closeAcc i false x)).mem = x.s.mem ∧ (settleOut i (closeAcc i false x)).tags = x.s.tags := by
  obtain ⟨s', e1, e2⟩ := Laws.closeAcc_ok i false x hw h
  have hg := gladeOf_eqg ((if_neg (by decide) : (if false = true then _ else x.s.glades) = x.s.glades) ▸ e2)
  have hc : curEng s' i = curEng s i := by rw [← he]; unfold curEng; rw [hg]
  have hs : s'.mem = x.s.mem ∧ s'.tags = x.s.tags := by
    unfold closeAcc at e1
    simp only [h, hi, hw.2.1, hw.2.2, ne_eq, not_true_eq_false, if_false, Bool.false_eq_true, Option.isSome_none] at e1
    injection e1 with e1
    rw [← e1]
    split <;> simp
  rw [e1, Laws.settleOut_done (by simpa only [NextIn, hc] using hn)]
  exact hs

theorem glade_cache_self (g : Glade) : g = { g with cache := g.cache } := rfl

theorem hostHeld_congr {s t : State} (hr : t.raw = s.raw) (hs : t.seals = s.seals) (l : Nat) : hostHeld t l = hostHeld s l := by
  unfold hostHeld sealOf; rw [hr, hs]

/-- One line's bytes decrypted from host memory change that line alone. -/
theorem openLine_frame (s : State) (j : Job) (m : Mem) (a d : Nat) (h : lineOf d ≠ lineOf a) : rd1 (openLine s j m a) d = rd1 m d := by
  unfold openLine
  split
  · split
    · refine Laws.rd1_wrBytes_outside _ _ _ ?_
      have : (plainLine ‹_› (lineOf a) (storedLine s (lineOf a))).length = 256 := Laws.natLe_length _ _
      rw [this]; unfold lineOf at h ⊢; omega
    · rfl
  · rfl

/-- Bytes of a line that is not only in host memory read as memory has them. -/
theorem seenMem_frame (s : State) (j : Job) (l : List Nat) (d : Nat) (h : hostHeld s (lineOf d) = false) : rd1 (seenMem s j l) d = rd1 s.mem d := by
  unfold seenMem
  have key : ∀ (k : List Nat) (m : Mem), (∀ a ∈ k, lineOf d ≠ lineOf a) → rd1 (k.foldl (openLine s j) m) d = rd1 m d := by
    intro k
    induction k with
    | nil => intro m _; rfl
    | cons a r ih =>
      intro m hk
      rw [List.foldl_cons, ih _ (fun x hx => hk x (by simp [hx])), openLine_frame _ _ _ _ _ (hk a (by simp))]
  apply key
  intro a ha hd
  have := (List.mem_filter.mp ha).2
  rw [← hd, h] at this
  simp at this

/-- What bringing lines in changes: the caches, the keys in use, and window lines that only host memory held. -/
def CacheKeeps (s t : State) : Prop :=
  t.glades = s.glades ∧ t.tags = s.tags ∧ t.cmds = s.cmds ∧ t.host = s.host ∧ t.job = s.job ∧
  ∀ l, hostHeld s l = false → hostHeld t l = false ∧ sealOf t l = sealOf s l ∧ ∀ d, lineOf d = l → rd1 t.mem d = rd1 s.mem d

theorem CacheKeeps_refl (s : State) : CacheKeeps s s := ⟨rfl, rfl, rfl, rfl, rfl, fun _ h => ⟨h, rfl, fun _ _ => rfl⟩⟩

theorem CacheKeeps_trans {s t u : State} (h : CacheKeeps s t) (k : CacheKeeps t u) : CacheKeeps s u := by
  obtain ⟨a1, a2, a3, a4, a5, a6⟩ := h
  obtain ⟨b1, b2, b3, b4, b5, b6⟩ := k
  refine ⟨b1.trans a1, b2.trans a2, b3.trans a3, b4.trans a4, b5.trans a5, fun l hl => ?_⟩
  obtain ⟨c1, c2, c3⟩ := a6 l hl
  obtain ⟨d1, d2, d3⟩ := b6 l c1
  exact ⟨d1, d2.trans c2, fun d hd => (d3 d hd).trans (c3 d hd)⟩

theorem adoptLine_keeps (s : State) (j : Job) (a : Nat) : CacheKeeps s (adoptLine s j a) := by
  unfold adoptLine
  split
  · next g _ =>
    split
    · next hc =>
      have hh : hostHeld s (lineOf a) = true := by
        simp only [Bool.and_eq_true] at hc; exact hc.1
      refine ⟨rfl, rfl, rfl, rfl, rfl, fun l hl => ?_⟩
      have hne : l ≠ lineOf a := by rintro rfl; rw [hh] at hl; cases hl
      have hs : sealOf ({ setSeal s (lineOf a) (sealFor s j g a) with mem := seenMem s j [a], raw := s.raw.filter (fun l => l ≠ lineOf a) } : State) l = sealOf s l :=
        Laws.tget_tset_ne _ _ _ hne
      refine ⟨?_, hs, fun d hd => ?_⟩
      · unfold hostHeld at hl ⊢
        rw [hs]
        by_cases hx : isCxl (256 * l) = true
        · simp only [hx, Bool.true_and, Bool.or_eq_false_iff] at hl ⊢
          refine ⟨?_, hl.2⟩
          have := hl.1
          simp only [List.contains_eq_mem, decide_eq_false_iff_not, List.mem_filter, not_and] at this ⊢
          intro hm; exact absurd hm this
        · simp [hx]
      · exact seenMem_frame s j [a] d (by rw [hd]; exact hl)
    · exact CacheKeeps_refl s
  · exact CacheKeeps_refl s

theorem cacheLine_keeps (j : Job) (s : State) (a : Nat) : CacheKeeps s (cacheLine j s a) := by
  unfold cacheLine
  split
  · exact CacheKeeps_refl s
  · next g _ =>
    have h := adoptLine_keeps s j a
    dsimp only
    split <;> exact h

theorem cacheAll_keeps (j : Job) (l : List Nat) (s : State) : CacheKeeps s (l.foldl (cacheLine j) s) := by
  induction l generalizing s with
  | nil => exact CacheKeeps_refl s
  | cons a r ih => exact CacheKeeps_trans (cacheLine_keeps j s a) (ih _)

theorem cacheLines_rest (s : State) (j : Job) (g : Nat) (tile : Bool) (l : List Nat) :
    (∃ c, gladeOf (cacheLines s j g tile l) g = { gladeOf s g with cache := c }) ∧
    (∀ h, h ≠ g → gladeOf (cacheLines s j g tile l) h = gladeOf s h) ∧
    (cacheLines s j g tile l).tags = s.tags ∧ (cacheLines s j g tile l).cmds = s.cmds ∧ (cacheLines s j g tile l).host = s.host ∧
    ∀ d, hostHeld s (lineOf d) = false → rd1 (cacheLines s j g tile l).mem d = rd1 s.mem d ∧
      sealOf (cacheLines s j g tile l) (lineOf d) = sealOf s (lineOf d) := by
  have key := cacheAll_keeps j ((l.filter (fun a => (readLine s j a).toOption.isSome)).filter (fun a => !isCanopy a)) s
  unfold cacheLines
  dsimp only
  obtain ⟨k1, k2, k3, k4, k5, k6⟩ := key
  have hgl := fun h => gladeOf_eqg k1 h
  split
  · refine ⟨⟨_, by rw [Laws.gladeOf_setGlade_same, hgl g]⟩, fun h hh => by rw [Laws.gladeOf_setGlade_ne _ _ hh, hgl h], k2, k3, k4, fun d hd => ?_⟩
    exact ⟨(k6 _ hd).2.2 d rfl, (k6 _ hd).2.1⟩
  · exact ⟨⟨_, (hgl g).trans (glade_cache_self _)⟩, fun h _ => hgl h, k2, k3, k4, fun d hd => ⟨(k6 _ hd).2.2 d rfl, (k6 _ hd).2.1⟩⟩

theorem engOf_cache (g : Glade) (c : List CLine) (e : Engine) : engOf { g with cache := c } e = engOf g e := by cases e <;> rfl

def MovOk (m : Move) : Prop := m.sspace ≠ 1 ∧ m.dspace = 0

theorem spanRead_own {s : State} {pl : Place} {sp : Nat} (a n : Nat) (h1 : sp ≠ 1) (hg : (gladeOf s pl.gi).tags = []) :
    spanRead s pl sp a n = .ok (if sp = 0 then rdBytes (gladeOf s pl.gi).mem a n else rdBytes pl.prog.image a n, tagPublic) := by
  unfold spanRead
  match sp, h1 with
  | 0, _ =>
    have hj := Laws.joinAll_public (gTags (gladeOf s pl.gi) a n) (fun x hx => Laws.gTags_public hg _ _ x hx)
    simp only [spanTags, Laws.gPoisoned_public hg, Bool.false_eq_true, if_false, hj]; rfl
  | n + 2, _ => rfl

theorem moveReads_own {s : State} {pl : Place} (l : List Move) (h : ∀ m ∈ l, MovOk m) (hg : (gladeOf s pl.gi).tags = []) :
    moveReads s pl l = .ok (l.map (fun m => (m, if m.sspace = 0 then rdBytes (gladeOf s pl.gi).mem m.src m.n else rdBytes pl.prog.image m.src m.n, tagPublic))) := by
  induction l with
  | nil => rfl
  | cons m r ih =>
    have hm := h m (by simp)
    simp only [moveReads, spanRead_own _ _ hm.1 hg, ih (fun x hx => h x (by simp [hx])), List.map_cons]

theorem moveChecks_own {s : State} {pl : Place} (l : List (Move × Bytes × Tag)) (h : ∀ x ∈ l, x.1.dspace = 0 ∧ x.2.2 = tagPublic) (hg : (gladeOf s pl.gi).tags = []) :
    moveChecks s pl l = .ok true := by
  induction l with
  | nil => rfl
  | cons x r ih =>
    have hx := h x (by simp)
    simp only [moveChecks, hx.1, hx.2, spanCheck, Laws.gSpoiled_public hg, Laws.gCheck_public hg, Bool.false_eq_true, if_false, if_true, ih (fun y hy => h y (by simp [hy])), Bool.and_self]

theorem moveStores_own {s u : State} {pl : Place} {g : Glade} (l : List (Move × Bytes × Tag)) (h : ∀ x ∈ l, x.1.dspace = 0 ∧ x.2.2 = tagPublic)
    (m : Mem) (ho : OnGlade s pl.gi u { g with mem := m }) (hg : g.tags = []) :
    OnGlade s pl.gi (moveStores u pl l) { g with mem := l.foldl (fun k x => wrBytes k x.1.dst x.2.1) m } := by
  unfold moveStores
  induction l generalizing u m with
  | nil => exact ho
  | cons x r ih =>
    have hx := h x (by simp)
    rw [List.foldl_cons, List.foldl_cons]
    refine ih (fun y hy => h y (by simp [hy])) _ ?_
    rw [hx.1, hx.2, Laws.spanStore_buffer _ _ (by rw [ho.2]; exact hg)]
    refine Laws.onGlade_trans ho (.inr ⟨_, rfl⟩) ?_
    rw [Laws.gladeOf_setGlade_same, ho.2]

theorem moveStep_own {s : State} {pl : Place} {g : Glade} {l : List Move} (h : ∀ m ∈ l, MovOk m) {x : Machine.Acc} {m : Mem} (hx : x.err = 0)
    (ho : OnGlade s pl.gi x.s { g with mem := m }) (hg : g.tags = []) :
    (moveStep pl l x).err = 0 ∧ (moveStep pl l x).inv = x.inv ∧ OnGlade s pl.gi (moveStep pl l x).s { g with mem := moveMem pl.prog.image m l } := by
  have hgt : (gladeOf x.s pl.gi).tags = [] := by rw [ho.2]; exact hg
  unfold moveStep
  rw [moveReads_own l h hgt]
  have hm : (gladeOf x.s pl.gi).mem = m := by rw [ho.2]
  rw [hm]
  have hh : ∀ y ∈ l.map (fun q : Move => (q, (if q.sspace = 0 then rdBytes m q.src q.n else rdBytes pl.prog.image q.src q.n), tagPublic)), y.1.dspace = 0 ∧ y.2.2 = tagPublic := by
    intro y hy
    obtain ⟨q, hq, rfl⟩ := List.mem_map.mp hy
    exact ⟨(h q hq).2, rfl⟩
  simp only [moveChecks_own _ hh hgt]
  refine ⟨hx, trivial, ?_⟩
  have := moveStores_own _ hh m ho hg
  rw [List.foldl_map] at this
  exact this

theorem rowPieces_own {sp src dst n : Nat} (h : sp ≠ 1) : ∀ m ∈ rowPieces sp src 0 dst n, MovOk m := by
  intro m hm
  unfold rowPieces at hm
  split at hm
  · simp only [List.mem_singleton] at hm; subst hm; exact ⟨h, rfl⟩
  · obtain ⟨k, _, rfl⟩ := List.mem_map.mp hm; exact ⟨h, rfl⟩

theorem rowMoves_own {a b : Td} (ha : InBuffer a) (hf : a.fmt = b.fmt) (hb : tSpace b ≠ 1) (hs : isBlock (tFmt b) = true → b.sspace ≠ 1) (r r' : Nat) :
    ∀ l ∈ rowMoves b a r r', ∀ m ∈ l, MovOk m := by
  have h0 := Laws.tSpace_zero ha.1
  intro l hl m hm
  unfold rowMoves at hl
  rw [h0] at hl
  split at hl
  next hk =>
    have hz : a.sspace.toNat = 0 := by rw [ha.2 (by simpa [tFmt, hf] using hk)]; rfl
    simp only [List.mem_singleton] at hl
    subst hl
    rw [hz] at hm
    rcases List.mem_append.mp hm with h | h
    · exact rowPieces_own hb m h
    · exact rowPieces_own (fun e => hs hk (BitVec.eq_of_toNat_eq (by simpa using e))) m h
  · obtain ⟨q, hq, rfl⟩ := List.mem_map.mp hl
    simp only [List.mem_singleton] at hm
    subst hm
    exact rowPieces_own hb _ hq

theorem runSteps_inv {α : Type} (f : α → Machine.Acc → Machine.Acc) (hf : ∀ x a, (f x a).inv = a.inv) (l : List α) (a : Machine.Acc) : (runSteps f l a).inv = a.inv := by
  unfold runSteps
  induction l generalizing a with
  | nil => rfl
  | cons y r ih =>
    rw [List.foldl_cons, ih]
    unfold oneStep
    split
    · rfl
    · split
      · rfl
      · split
        · rfl
        · exact hf y a

theorem moveStep_inv (pl : Place) (l : List Move) (a : Machine.Acc) : (moveStep pl l a).inv = a.inv := by
  unfold moveStep
  split
  · rfl
  · split <;> rfl

theorem cacheLines_nil (s : State) (j : Job) (g : Nat) (tile : Bool) :
    (∃ c, gladeOf (cacheLines s j g tile []) g = { gladeOf s g with cache := c }) ∧
    (∀ h, h ≠ g → gladeOf (cacheLines s j g tile []) h = gladeOf s h) ∧
    (cacheLines s j g tile []).mem = s.mem ∧ (cacheLines s j g tile []).tags = s.tags := by
  unfold cacheLines
  cases tile
  · exact ⟨⟨_, glade_cache_self _⟩, fun _ _ => rfl, rfl, rfl⟩
  · exact ⟨⟨_, Laws.gladeOf_setGlade_same _ _ _⟩, fun h hh => Laws.gladeOf_setGlade_ne _ _ hh, rfl, rfl⟩

theorem tileLines_nil {t : Td} (h1 : tSpace t ≠ 1) (h2 : isBlock (tFmt t) = true → t.sspace ≠ 1) : tileLines t = [] := by
  unfold tileLines
  rw [List.flatMap_eq_nil_iff]
  intro r _
  rw [if_neg h1, if_neg (by simpa using h2), List.append_nil]

theorem done_cache {i : GI} {s : State} {x : Machine.Acc} {k : Glade} {l : List Nat} (hl : l = []) (hw : Laws.Whole x) (hx : x.err = 0) (hi : x.inv = none)
    (ho : OnGlade s i.glade.val x.s k) (he : engOf k i.eng = curEng s i) (hn : NextIn i s) :
    ∃ t c, settleOut i (closeAcc i false { x with s := if x.cut then x.s else cacheLines x.s (placeOf s i.glade.val).j i.glade.val true l }) = t ∧
      RowsDone i false s t { k with cache := c } ∧ t.mem = x.s.mem ∧ t.tags = x.s.tags := by
  subst hl
  have hif : (if x.cut = true then x.s else cacheLines x.s (placeOf s i.glade.val).j i.glade.val true []) = cacheLines x.s (placeOf s i.glade.val).j i.glade.val true [] := by
    rw [hw.2.2]; rfl
  rw [hif]
  obtain ⟨⟨c, k1⟩, k2, k3, k4⟩ := cacheLines_nil x.s (placeOf s i.glade.val).j i.glade.val true
  have he' : curEng (cacheLines x.s (placeOf s i.glade.val).j i.glade.val true []) i = curEng s i := by
    rw [← he]; unfold curEng; rw [k1, engOf_cache, ho.2]
  have e := ended (x := { x with s := cacheLines x.s (placeOf s i.glade.val).j i.glade.val true [] }) (s := s) hw hx he' hn
  have q := closeAcc_quiet (x := { x with s := cacheLines x.s (placeOf s i.glade.val).j i.glade.val true [] }) (s := s) hw hx hi he' hn
  refine ⟨_, c, rfl, ⟨e.1, ?_, fun h hh => ?_⟩, q.1.trans k3, q.2.trans k4⟩
  · rw [e.2.1]; dsimp only; rw [k1, ho.2]; rfl
  · rw [e.2.2 h hh]; dsimp only; rw [k2 h hh, Laws.onGlade_ne ho hh]

theorem engOf_mem (g : Glade) (m : Mem) (e : Engine) : engOf { g with mem := m } e = engOf g e := by cases e <;> rfl

theorem onGlade_memtags {s t : State} {g : Nat} {k : Glade} (h : OnGlade s g t k) : t.mem = s.mem ∧ t.tags = s.tags := by
  rcases h.1 with rfl | ⟨v, rfl⟩ <;> exact ⟨rfl, rfl⟩

theorem gather_own {s : State} {pl : Place} {g : Glade} {a b : Td} {list r : Nat} (ha : InBuffer a) (hf : a.fmt = b.fmt) (hb : tSpace b ≠ 1) (hs : isBlock (tFmt b) = true → b.sspace ≠ 1)
    {x : Machine.Acc} {m m' : Mem} (hx : x.err = 0) (ho : OnGlade s pl.gi x.s { g with mem := m }) (hg : g.tags = [])
    (hm : gatherMem pl.prog.image a b list (some m) r = some m') :
    (gatherRow pl a b list r x).err = 0 ∧ OnGlade s pl.gi (gatherRow pl a b list r x).s { g with mem := m' } := by
  have hgt : (gladeOf x.s pl.gi).tags = [] := by rw [ho.2]; exact hg
  have hmm : (gladeOf x.s pl.gi).mem = m := by rw [ho.2]
  unfold gatherMem at hm
  simp only [Option.bind_some] at hm
  unfold gatherRow
  rw [Laws.gPoisoned_public hgt]
  rw [hmm]
  dsimp only
  rw [if_neg (by simp)]
  split at hm
  next hw =>
    rw [if_pos hw]
    unfold blankRow
    rw [Laws.writeRow_buffer r _ _ ha hgt]
    injection hm with hm
    refine ⟨hx, ?_⟩
    rw [← hm]
    refine Laws.onGlade_trans ho (.inr ⟨_, rfl⟩) ((Laws.gladeOf_setGlade_same _ _ _).trans ?_)
    rw [ho.2]
  next hw =>
    rw [if_neg hw]
    split at hm
    · cases hm
    next hk =>
      rw [if_neg hk]
      injection hm with hm
      have key : ∀ (l : List (List Move)) (x : Machine.Acc) (m : Mem), (∀ q ∈ l, ∀ z ∈ q, MovOk z) → x.err = 0 → OnGlade s pl.gi x.s { g with mem := m } →
          (l.foldl (fun a m => if a.err ≠ 0 then a else moveStep pl m a) x).err = 0 ∧
          OnGlade s pl.gi (l.foldl (fun a m => if a.err ≠ 0 then a else moveStep pl m a) x).s { g with mem := l.foldl (moveMem pl.prog.image) m } := by
        intro l
        induction l with
        | nil => intro x m _ h1 h2; exact ⟨h1, h2⟩
        | cons q r ih =>
          intro x m hq h1 h2
          simp only [List.foldl_cons, h1, ne_eq, not_true_eq_false, if_false]
          obtain ⟨q1, _, q3⟩ := moveStep_own (l := q) (hq q (by simp)) h1 h2 hg
          exact ih _ _ (fun y hy => hq y (by simp [hy])) q1 q3
      rw [← hm]
      exact key _ x m (rowMoves_own ha hf hb hs _ _) hx ho

theorem gatherRow_inv (pl : Place) (a b : Td) (list r : Nat) (x : Machine.Acc) : (gatherRow pl a b list r x).inv = x.inv := by
  unfold gatherRow
  dsimp only
  split
  · rfl
  split
  · unfold blankRow Acc.took; split <;> rfl
  · split
    · rfl
    · generalize rowMoves b a _ r = l
      clear * -
      induction l generalizing x with
      | nil => rfl
      | cons q r ih =>
        rw [List.foldl_cons, ih]
        split
        · rfl
        · exact moveStep_inv _ _ _

theorem gladeOf_storePieces (s : State) (j : Job) (ev : Bool) (t : Tag) (l : List (Nat × Bytes)) (g : Nat) : gladeOf (storePieces s j ev t l) g = gladeOf s g := by
  induction l generalizing s with
  | nil => rfl
  | cons p r ih =>
    unfold storePieces
    rcases Laws.writeLine_cases s j ev p.1 p.2 t with ⟨e, _, h⟩ | ⟨_, h⟩ | ⟨u, _, h⟩
    · rw [h]; exact ih s
    · rw [h]; exact ih s
    · rw [h]; dsimp only; rw [ih]
      obtain ⟨_, _, _, _, _, _, _, h2⟩ := Laws.storeLine_rest s j p.1 p.2 u
      rw [h2]; rfl

theorem gladeOf_loseWrite (s : State) (gi g : Nat) : gladeOf (loseWrite s gi) g = gladeOf s g := by unfold loseWrite; dsimp only; split <;> rfl

theorem spanStore_eng (s : State) (pl : Place) (sp a : Nat) (b : Bytes) (t : Tag) (g : Nat) (e : Engine) : engOf (gladeOf (spanStore s pl sp a b t) g) e = engOf (gladeOf s g) e := by
  unfold spanStore
  split
  · by_cases h : g = pl.gi
    · subst h
      rw [Laws.gladeOf_setGlade_same]
      obtain ⟨tg, h⟩ := Laws.gStore_rest (gladeOf s pl.gi) a b t
      rw [h]; cases e <;> rfl
    · rw [Laws.gladeOf_setGlade_ne _ _ h]
  · split
    · rw [gladeOf_loseWrite]
    · rw [gladeOf_storePieces]
  · rfl

theorem moveStores_eng (s : State) (pl : Place) (l : List (Move × Bytes × Tag)) (g : Nat) (e : Engine) : engOf (gladeOf (moveStores s pl l) g) e = engOf (gladeOf s g) e := by
  unfold moveStores
  induction l generalizing s with
  | nil => rfl
  | cons x r ih => rw [List.foldl_cons, ih, spanStore_eng]

theorem moveStep_eng (pl : Place) (l : List Move) (x : Machine.Acc) (g : Nat) (e : Engine) : engOf (gladeOf (moveStep pl l x).s g) e = engOf (gladeOf x.s g) e := by
  unfold moveStep
  split
  · rfl
  · split
    · rfl
    · rfl
    · exact moveStores_eng _ _ _ _ _

theorem piecesAux_in (f a : Nat) (b : Bytes) : ∀ p ∈ piecesAux f a b, a ≤ p.1 ∧ p.1 + p.2.length ≤ a + b.length := by
  induction f generalizing a b with
  | zero => intro p hp; cases hp
  | succ f ih =>
    intro p hp
    cases b with
    | nil => cases hp
    | cons y r =>
      rw [piecesAux] at hp
      · rcases List.mem_cons.mp hp with rfl | hp
        · dsimp only; rw [List.length_take]; omega
        · by_cases hl : (y :: r).length ≤ 256 - a % 256
          · rw [List.drop_eq_nil_of_le hl] at hp
            cases f <;> cases hp
          · have := ih _ _ p hp
            rw [List.length_drop] at this
            omega
      · simp

/-- A line's key is held where a write of the line passes its checks. -/
theorem sealFor_of_writeCheck {s : State} {j : Job} {ev : Bool} {a n : Nat} {t u : Tag} {g : Seg} (hg : segAt j a = some g) (he : g.enc = true)
    (hc : isCanopy a = false) (h : writeCheck s j ev a n t = .ok (some u)) : (sealFor s j g a).isSome = true := by
  unfold writeCheck at h
  rw [hg] at h
  simp only [hc, he, Bool.false_eq_true, if_false, Bool.true_and] at h
  unfold sealFor
  cases hk : keyOf j g.owner with
  | some k => rfl
  | none =>
    exfalso
    simp only [hk, Option.isNone_none, if_true] at h
    repeat' split at h
    all_goals cases h

/-- A write of a line that passes its checks leaves every line that is not only in host memory so, and changes no byte outside it. -/
theorem storeLine_frame {s : State} {j : Job} {ev : Bool} {a n : Nat} {b : Bytes} {t u : Tag} (h : writeCheck s j ev a n t = .ok (some u)) {d : Nat}
    (hd : hostHeld s (lineOf d) = false) (ho : d < a ∨ a + b.length ≤ d) :
    rd1 (storeLine s j a b u).mem d = rd1 s.mem d ∧ hostHeld (storeLine s j a b u) (lineOf d) = false := by
  refine ⟨by rw [Laws.storeLine_mem, Laws.rd1_wrBytes_outside _ _ _ ho, seenMem_frame _ _ _ _ hd], ?_⟩
  by_cases hx : isCxl (256 * lineOf d) = true
  swap
  · simp [hostHeld, hx]
  have hr : (s.raw.filter (fun l => l ≠ lineOf a)).contains (lineOf d) = false := by
    unfold hostHeld at hd
    simp only [hx, Bool.true_and, Bool.or_eq_false_iff] at hd
    have := hd.1
    simp only [List.contains_eq_mem, decide_eq_false_iff_not, List.mem_filter, not_and] at this ⊢
    intro hm; exact absurd hm this
  have hs : (sealOf s (lineOf d)).isNone = false := by
    unfold hostHeld at hd
    simp only [hx, Bool.true_and, Bool.or_eq_false_iff] at hd
    exact hd.2
  have plain : ∀ (v : State), v.raw = s.raw.filter (fun l => l ≠ lineOf a) → (sealOf v (lineOf d)).isNone = false → hostHeld v (lineOf d) = false := by
    intro v h1 h2
    unfold hostHeld; rw [h1, hr, h2]; simp
  unfold storeLine
  by_cases hc : isCanopy a = true
  · simp only [hc, if_true]; exact plain _ rfl hs
  · have hc' : isCanopy a = false := by simpa using hc
    cases hg : segAt j a with
    | none => simp only [hc', if_false, Bool.false_eq_true]; exact plain _ rfl hs
    | some g =>
      by_cases he : g.enc = true
      · simp only [hc', if_false, Bool.false_eq_true, he, if_true]
        refine plain _ rfl ?_
        have hq := sealFor_of_writeCheck hg he hc' h
        show (tget none (tset none s.seals (lineOf a) (sealFor s j g a)) (lineOf d)).isNone = false
        by_cases hl : lineOf d = lineOf a
        · rw [hl, Laws.tget_tset_same]
          cases hz : sealFor s j g a with
          | none => rw [hz] at hq; cases hq
          | some z => rfl
        · rw [Laws.tget_tset_ne _ _ _ hl]; exact hs
      · simp only [hc', if_false, Bool.false_eq_true, he]; exact plain _ rfl hs

theorem storePieces_frame (j : Job) (ev : Bool) (t : Tag) (d : Nat) (l : List (Nat × Bytes)) (s : State) (hd : hostHeld s (lineOf d) = false)
    (h : ∀ p ∈ l, d < p.1 ∨ p.1 + p.2.length ≤ d) :
    rd1 (storePieces s j ev t l).mem d = rd1 s.mem d ∧ hostHeld (storePieces s j ev t l) (lineOf d) = false := by
  induction l generalizing s with
  | nil => exact ⟨rfl, hd⟩
  | cons p r ih =>
    have hr := fun s hs => ih s hs (fun q hq => h q (by simp [hq]))
    unfold storePieces
    rcases Laws.writeLine_cases s j ev p.1 p.2 t with ⟨e, _, h2⟩ | ⟨_, h2⟩ | ⟨u, h1, h2⟩
    · rw [h2]; exact hr s hd
    · rw [h2]; exact hr s hd
    · rw [h2]; dsimp only
      obtain ⟨k1, k2⟩ := storeLine_frame (b := p.2) h1 hd (h p (by simp))
      obtain ⟨k3, k4⟩ := hr _ k2
      exact ⟨k3.trans k1, k4⟩

theorem spanStore_frame (s : State) (pl : Place) (sp a : Nat) (b : Bytes) (t : Tag) (d : Nat) (hd : hostHeld s (lineOf d) = false)
    (h : sp = 1 → ¬ (a ≤ d ∧ d < a + b.length)) :
    rd1 (spanStore s pl sp a b t).mem d = rd1 s.mem d ∧ hostHeld (spanStore s pl sp a b t) (lineOf d) = false := by
  unfold spanStore
  split
  · exact ⟨rfl, hd⟩
  · split
    · unfold loseWrite; dsimp only; split <;> exact ⟨rfl, hd⟩
    · refine storePieces_frame _ _ _ _ _ _ hd (fun p hp => ?_)
      have h1 := piecesAux_in _ _ _ p hp
      have h2 := h rfl
      omega
  · exact ⟨rfl, hd⟩

theorem moveReads_len {s : State} {pl : Place} {l : List Move} {r : List (Move × Bytes × Tag)} (h : moveReads s pl l = .ok r) :
    ∀ x ∈ r, x.1 ∈ l ∧ x.2.1.length = x.1.n := by
  induction l generalizing r with
  | nil => injection h with h; subst h; intro x hx; cases hx
  | cons m q ih =>
    unfold moveReads at h
    split at h
    · cases h
    next b t hb =>
      split at h
      · cases h
      next l' hl =>
        injection h with h
        subst h
        intro x hx
        rcases List.mem_cons.mp hx with rfl | hx
        · refine ⟨by simp, ?_⟩
          dsimp only
          unfold spanRead at hb
          split at hb
          · cases hb
          next b' l2 hs =>
            split at hb
            · cases hb
            · injection hb with hb
              injection hb with hb _
              subst hb
              unfold spanTags at hs
              split at hs
              · split at hs
                · cases hs
                · injection hs with hs; injection hs with hs _; subst hs; exact Laws.rdBytes_length _ _ _
              · split at hs
                · cases hs
                · injection hs with hs; injection hs with hs _; subst hs; exact Laws.rdBytes_length _ _ _
              · injection hs with hs; injection hs with hs _; subst hs; exact Laws.rdBytes_length _ _ _
        · obtain ⟨h1, h2⟩ := ih hl x hx
          exact ⟨by simp [h1], h2⟩

theorem moveStep_frame (pl : Place) (l : List Move) (x : Machine.Acc) (d : Nat) (hd : hostHeld x.s (lineOf d) = false)
    (h : ∀ m ∈ l, m.dspace = 1 → ¬ (m.dst ≤ d ∧ d < m.dst + m.n)) :
    rd1 (moveStep pl l x).s.mem d = rd1 x.s.mem d ∧ hostHeld (moveStep pl l x).s (lineOf d) = false := by
  unfold moveStep
  split
  · exact ⟨rfl, hd⟩
  next r hr =>
    have hlen := moveReads_len hr
    split
    · exact ⟨rfl, hd⟩
    · exact ⟨rfl, hd⟩
    · have key : ∀ (r : List (Move × Bytes × Tag)) (s : State), hostHeld s (lineOf d) = false → (∀ y ∈ r, y.1 ∈ l ∧ y.2.1.length = y.1.n) →
          rd1 (moveStores s pl r).mem d = rd1 s.mem d ∧ hostHeld (moveStores s pl r) (lineOf d) = false := by
        intro r
        induction r with
        | nil => intro s hs _; exact ⟨rfl, hs⟩
        | cons y q ih =>
          intro s hs hy
          have h1 := hy y (by simp)
          have : moveStores s pl (y :: q) = moveStores (spanStore s pl y.1.dspace y.1.dst y.2.1 y.2.2) pl q := rfl
          rw [this]
          obtain ⟨k1, k2⟩ := spanStore_frame s pl y.1.dspace y.1.dst y.2.1 y.2.2 d hs (by rw [h1.2]; exact h _ h1.1)
          obtain ⟨k3, k4⟩ := ih _ k2 (fun z hz => hy z (by simp [hz]))
          exact ⟨k3.trans k1, k4⟩
      exact key r _ hd hlen

theorem rowPieces_in (sp src dsp dst n : Nat) : ∀ m ∈ rowPieces sp src dsp dst n, m.dspace = dsp ∧ (dsp = 1 → dst ≤ m.dst ∧ m.dst + m.n ≤ dst + n) := by
  intro m hm
  unfold rowPieces at hm
  split at hm
  · simp only [List.mem_singleton] at hm; subst hm
    exact ⟨rfl, fun _ => ⟨le_refl _, le_refl _⟩⟩
  · obtain ⟨k, hk, rfl⟩ := List.mem_map.mp hm
    refine ⟨rfl, fun _ => ?_⟩
    have := List.mem_range.mp hk
    unfold ceilDiv at this
    dsimp only
    omega

theorem runSteps_keeps {α : Type} (P : State → Prop) (f : α → Machine.Acc → Machine.Acc) (l : List α) (a : Machine.Acc) (h : P a.s) (hf : ∀ x ∈ l, ∀ a, P a.s → P (f x a).s) : P (runSteps f l a).s := by
  unfold runSteps
  induction l generalizing a with
  | nil => exact h
  | cons y r ih =>
    rw [List.foldl_cons]
    refine ih _ ?_ (fun x hx => hf x (by simp [hx]))
    unfold oneStep
    split
    · exact h
    · split
      · exact h
      · split
        · exact h
        · exact hf y (by simp) a h

theorem gatherRow_eng (pl : Place) (a b : Td) (list r : Nat) (x : Machine.Acc) (g : Nat) (e : Engine) (hb : InBuffer a ∨ tSpace a = 0): engOf (gladeOf (gatherRow pl a b list r x).s g) e = engOf (gladeOf x.s g) e := by
  unfold gatherRow
  dsimp only
  split
  · rfl
  split
  · unfold blankRow writeRow
    split
    · rfl
    · rfl
    · dsimp only [Acc.took]
      split
      · rw [spanStore_eng, spanStore_eng]
      · rw [spanStore_eng]
  · split
    · rfl
    · generalize rowMoves b a _ r = l
      clear * -
      induction l generalizing x with
      | nil => rfl
      | cons q r ih =>
        rw [List.foldl_cons, ih]
        split
        · rfl
        · exact moveStep_eng _ _ _ _ _

theorem updCmd_glades' (s : State) (acc : BitVec 64) (f : Cmd → Cmd) (g : Nat) : gladeOf (updCmd s acc f) g = gladeOf s g := rfl

theorem dispatchRow_none (pl : Place) (o : RouteOp) (hd : o.dir = 0) (r : Nat) (sels : List (Nat × BitVec 32)) (x : Machine.Acc) :
    (dispatchRow pl o r sels x).1 = x ∧ (x.err = 0 → (dispatchRow pl o r sels x).2 = sels.map (fun q => ⟨x, q.1, q.2, noPos⟩)) := by
  have hone : ∀ n sel x, dispatchOne pl o r n sel x = ⟨x, sel.1, sel.2, noPos⟩ := by intro n sel x; simp [dispatchOne, hd]
  unfold dispatchRow
  have key : ∀ (l : List (Nat × (Nat × BitVec 32))) (a : List Disp), 
      (l.foldl (fun q sel => if q.1.err ≠ 0 then q else let d := dispatchOne pl o r sel.1 sel.2 q.1; (d.a, q.2 ++ [d])) (x, a)).1 = x ∧
      (x.err = 0 → (l.foldl (fun q sel => if q.1.err ≠ 0 then q else let d := dispatchOne pl o r sel.1 sel.2 q.1; (d.a, q.2 ++ [d])) (x, a)).2 = a ++ l.map (fun q => ⟨x, q.2.1, q.2.2, noPos⟩)) := by
    intro l
    induction l with
    | nil => intro a; simp
    | cons y q ih =>
      intro a
      rw [List.foldl_cons]
      by_cases hx : x.err = 0
      · have : (if (x, a).1.err ≠ 0 then (x, a) else let d := dispatchOne pl o r y.1 y.2 (x, a).1; (d.a, (x, a).2 ++ [d])) = (x, a ++ [⟨x, y.2.1, y.2.2, noPos⟩]) := by
          simp only [hx, ne_eq, not_true_eq_false, if_false, hone]
        rw [this]
        refine ⟨(ih _).1, fun h => ?_⟩
        rw [(ih _).2 h]; simp
      · have : (if (x, a).1.err ≠ 0 then (x, a) else let d := dispatchOne pl o r y.1 y.2 (x, a).1; (d.a, (x, a).2 ++ [d])) = (x, a) := by
          simp only [hx, ne_eq, not_false_eq_true, if_true]
        rw [this]
        exact ⟨(ih _).1, fun h => absurd h hx⟩
  obtain ⟨k1, k2⟩ := key (numbered sels) []
  refine ⟨k1, fun h => ?_⟩
  rw [k2 h]
  have : (numbered sels).map (·.2) = sels := by unfold numbered; rw [List.map_snd_zip]; simp
  conv_rhs => rw [← this]
  simp

theorem engOf_cache' (g : Glade) (m : Mem) (e : Engine) : engOf { g with mem := m } e = engOf g e := by cases e <;> rfl

theorem routeRow_own {s : State} {pl : Place} {o : RouteOp} {a b c : Td} {k : Glade} {r : Nat} {x : Machine.Acc × List Nat × Bool} (hd : o.dir = 0)
    (hx : x.1.err = 0) (ho : OnGlade s pl.gi x.1.s k) (hg : k.tags = []) (ha : InBuffer a) (hb : InBuffer b) (hc : InBuffer c) :
    (routeRow pl o a b c r x).1.err = 0 ∧ OnGlade s pl.gi (routeRow pl o a b c r x).1.s { k with
        mem := putRow k.mem c r (routeCodes ((List.range o.eb).map (fun e => (baseWord o.gen e, (memVals k.mem a r).getD e 0))) o.k o.norm o.gen) [] } := by
  have hgt : (gladeOf x.1.s pl.gi).tags = [] := by rw [ho.2]; exact hg
  have hm : (gladeOf x.1.s pl.gi).mem = k.mem := by rw [ho.2]
  unfold routeRow
  rw [Laws.readRow_buffer r ha hgt, Laws.readRow_buffer r hb hgt, hm]
  have hj : join (memRow k.mem a r).tag (memRow k.mem b r).tag = some tagPublic := (by decide : join tagPublic tagPublic = some tagPublic)
  simp only [hj]
  have hcand : ∀ pv, routeCands pl (gladeOf x.1.s pl.gi).cmd o (rowVals a (memRow k.mem a r)) pv tagPublic = (List.range o.eb).map (fun e => (baseWord o.gen e, (memVals k.mem a r).getD e 0)) := by
    intro pv
    unfold routeCands
    have : isTenant tagPublic = false := by decide
    simp [this, memVals]
  rw [hcand]
  generalize hcs : (List.range o.eb).map (fun e => (baseWord o.gen e, (memVals k.mem a r).getD e 0)) = cs
  generalize hx0 : ((x.1.note (rowInf a (memRow k.mem a r) ||| rowInf b (memRow k.mem b r) ||| (routeSelect cs o.k o.norm o.gen).2.fl) 0).event
        (if (routeSelect cs o.k o.norm o.gen).2.cause = 0 then none else some (⟨(routeSelect cs o.k o.norm o.gen).2.cause, r,
          softLane o.eb cs (if o.norm = 0 then selectK o.k cs else cs), 0xFFFF, tagPublic⟩ : LogEv))) = x0
  have h0e : x0.err = 0 := by rw [← hx0]; simpa using hx
  have h0s : x0.s = x.1.s := by rw [← hx0]; simp
  obtain ⟨d1, d2⟩ := dispatchRow_none pl o hd r (routeSelect cs o.k o.norm o.gen).1 x0
  rw [d1, d2 h0e]
  rw [if_neg (by simp [h0e])]
  have hcodes : (((routeSelect cs o.k o.norm o.gen).1.map (fun q => (⟨x0, q.1, q.2, noPos⟩ : Disp))).map (·.word) ++ ((routeSelect cs o.k o.norm o.gen).1.map (fun q => (⟨x0, q.1, q.2, noPos⟩ : Disp))).map (fun y => y.gate.toNat) ++ ((routeSelect cs o.k o.norm o.gen).1.map (fun q => (⟨x0, q.1, q.2, noPos⟩ : Disp))).map (·.pos)) = routeCodes cs o.k o.norm o.gen := by
    unfold routeCodes; simp [Function.comp_def]
  rw [hcodes, h0s, Laws.writeRow_buffer r _ _ hc hgt]
  rw [if_neg (by simp [Acc.took, h0e])]
  refine ⟨by simpa [Acc.took] using h0e, ?_⟩
  refine Laws.onGlade_trans ho (.inr ⟨_, rfl⟩) ((Laws.gladeOf_setGlade_same _ _ _).trans ?_)
  rw [ho.2]

theorem done_plain {i : GI} {s : State} {x : Machine.Acc} {k : Glade} {u : State} (hw : Laws.Whole x) (hx : x.err = 0) (ho : OnGlade s i.glade.val x.s k) (hu : ∀ g, gladeOf u g = gladeOf x.s g)
    (he : engOf k i.eng = curEng s i) (hn : NextIn i s) : RowsDone i false s (settleOut i (closeAcc i false { x with s := u })) k := by
  have hc : curEng u i = curEng s i := by rw [← he]; unfold curEng; rw [hu, ho.2]
  obtain ⟨e1, e2, e3⟩ := ended (x := { x with s := u }) (s := s) hw hx hc hn
  refine ⟨e1, ?_, fun h hh => ?_⟩
  · rw [e2]; dsimp only; rw [hu, ho.2]; rfl
  · rw [e3 h hh]; dsimp only; rw [hu, Laws.onGlade_ne ho hh]

theorem fcastCheck_glades (s : State) (j : Job) (acc : BitVec 64) (o : RouteOp) (es : List Nat) (g : Nat) : gladeOf (fcastCheck s j acc o es) g = gladeOf s g := by
  unfold fcastCheck
  dsimp only
  refine Laws.foldl_keeps (fun t => gladeOf t g = gladeOf s g) _ _ _ rfl ?_
  intro t y h
  split
  · exact h
  · split <;> exact h

theorem redLine_glades (pl : Place) (p : RedPart) (r c0 n : Nat) (v : List (BitVec 32)) (t : Option Tag) (x : Machine.Acc) (g : Nat) :
    gladeOf (redLine pl p r c0 n v t x).s g = gladeOf x.s g := by
  have hy : ∀ (y : Machine.Acc) (a : Nat) (bs : Bytes) (u : Tag), y.s = x.s → gladeOf (if staleHalf y.s (halfOfGlade p.glade) then { y with s := loseWrite y.s p.glade }
      else match devWrite y.s pl.j pl.eval a bs u with
        | .ok s1 => { y with s := s1 }
        | .frozen => { y with frz := true }
        | .err e => y.fail e).s g = gladeOf x.s g := by
    intro y a bs u h
    split
    · rw [← h]; exact gladeOf_loseWrite _ _ _
    · split
      next s1 hs =>
        unfold devWrite at hs
        split at hs
        · cases hs
        · cases hs
        · injection hs with hs
          rw [← h, ← hs]
          exact gladeOf_storePieces _ _ _ _ _ _
      · rw [← h]
      · rw [← h]; rfl
  unfold redLine
  dsimp only
  split
  · rfl
  · split
    · rfl
    · exact hy _ _ _ _ (by rw [Laws.event_s, Laws.note_s])

theorem redAddRow_glades (pl : Place) (p : RedPart) (r : Nat) (row : List (BitVec 32) × List (Option Tag)) (x : Machine.Acc) (g : Nat) :
    gladeOf (redAddRow pl p r row x).s g = gladeOf x.s g := by
  unfold redAddRow
  dsimp only
  generalize List.range (redLines p.td) = l
  generalize hy : x.note (row.1.foldl (fun f v => f ||| infIn v) 0) 0 = y
  have h0 : gladeOf y.s g = gladeOf x.s g := by rw [← hy, Laws.note_s]
  clear hy
  induction l generalizing y with
  | nil => exact h0
  | cons k q ih =>
    rw [List.foldl_cons]
    refine ih _ ?_
    split
    · exact h0
    · rw [redLine_glades]; exact h0

theorem redArrive_glades (pl : Place) (p : RedPart) (src : Td) (x : Machine.Acc) (g : Nat) :
    gladeOf (redArrive pl p src x).s g = gladeOf x.s g := by
  unfold redArrive
  refine runSteps_keeps (fun t => gladeOf t g = gladeOf x.s g) _ _ _ rfl ?_
  intro r _ a ha
  split
  · exact ha
  · rw [redAddRow_glades]; exact ha

theorem redApply_glades (pl : Place) (p : RedPart) (x : Machine.Acc) (g : Nat) : gladeOf (redApply pl p x).s g = gladeOf x.s g := by
  unfold redApply
  refine Laws.foldl_keeps (fun t : Machine.Acc => gladeOf t.s g = gladeOf x.s g) _ _ _ rfl ?_
  intro a row ha
  split
  · exact ha
  · rw [redAddRow_glades]; exact ha

def EngKept (s : State) (g : Nat) (e : Engine) (t : State) : Prop := engOf (gladeOf t g) e = engOf (gladeOf s g) e

theorem passInto_eng (pl : Place) (pf : PassFlags) (st : STile) (vf blk row : Nat) (vec : List (Nat × Nat)) (tag : Tag) (x : Machine.Acc) (e : Engine) :
    engOf (gladeOf (passInto pl pf st vf blk row vec tag x).s pl.gi) e = engOf (gladeOf x.s pl.gi) e := by
  have hs : ∀ (g : Glade) r v t p, engOf (setRow g r v t p) e = engOf g e := by intro g r v t p; cases e <;> rfl
  have ht : ∀ (g : Glade) r t, engOf (setRowTag g r t) e = engOf g e := by intro g r t; cases e <;> rfl
  have hf1 : ∀ (l : List Nat) (g : Glade) v t p, engOf (l.foldl (fun g r => setRow g r v t p) g) e = engOf g e := by
    intro l; induction l with
    | nil => intros; rfl
    | cons y q ih => intro g v t p; rw [List.foldl_cons, ih, hs]
  have hf2 : ∀ (l : List Nat) (g : Glade) t, engOf (l.foldl (fun g r => setRowTag g r t) g) e = engOf g e := by
    intro l; induction l with
    | nil => intros; rfl
    | cons y q ih => intro g t; rw [List.foldl_cons, ih, ht]
  have hi : ∀ (p : Prop) [Decidable p] (a b : Machine.Acc), engOf (gladeOf a.s pl.gi) e = engOf (gladeOf x.s pl.gi) e →
      engOf (gladeOf b.s pl.gi) e = engOf (gladeOf x.s pl.gi) e → engOf (gladeOf (if p then a else b).s pl.gi) e = engOf (gladeOf x.s pl.gi) e := by
    intro p _ a b ha hb; split
    · exact ha
    · exact hb
  unfold passInto
  dsimp only
  refine hi _ _ _ rfl ?_
  split
  · rfl
  · split
    · split <;> simp only [Laws.gladeOf_setGlade_same, hf1, hf2]
    · split
      · split <;> simp only [Laws.gladeOf_setGlade_same, hs]
      · split <;> simp only [Laws.gladeOf_setGlade_same, hs]

theorem groupPass_eng (pl : Place) (o : GroupOp) (a b : Td) (g : Group) (kt : Nat) (st : STile) (x : Machine.Acc) (e : Engine) :
    engOf (gladeOf (groupPass pl o a b g kt st x).s pl.gi) e = engOf (gladeOf x.s pl.gi) e := by
  unfold groupPass
  dsimp only
  refine runSteps_keeps (fun t => engOf (gladeOf t pl.gi) e = engOf (gladeOf x.s pl.gi) e) _ _ _ rfl ?_
  intro r _ y hy
  split
  · exact hy
  · split
    · exact hy
    · split
      · exact hy
      · split
        · exact hy
        · rw [passInto_eng]; exact hy

theorem groupRun_eng (pl : Place) (o : GroupOp) (a b : Td) (g : Group) (x : Machine.Acc) (e : Engine) :
    engOf (gladeOf (groupRun pl o a b g x).s pl.gi) e = engOf (gladeOf x.s pl.gi) e := by
  unfold groupRun
  split
  · rfl
  · split
    · rfl
    · generalize List.range o.kn = l
      induction l generalizing x with
      | nil => rfl
      | cons k q ih =>
        rw [List.foldl_cons, ih]
        split
        · rfl
        · split
          · rfl
          · split
            · rfl
            · split
              · rfl
              · rw [groupPass_eng, Laws.gladeOf_setGlade_same]; cases e <;> rfl

end Sys2Proof.Laws
end

