-- ==== Sys2Proof/Laws/Beyond.lean ====
section
/-! SUPPORT. What no instruction of a glade reaches. -/

namespace Sys2Proof.Laws

open Sys2Proof.Machine Sys2Proof.Safety

theorem enc_of {opc : BitVec 8} {i : GI} {s : State} {c : Instr} {u : Use} {body : State → GOut} (hu : gladeUse opc = u)
    (ho : ∀ j, (gladeInstr opc j).isSome = true) (hc : exec c s = .next (issue opc i u body s)) :
    (mayIssue s i = false → ((gladeUse opc).steps && mayBreak s i) = false → exec c s = .next s) ∧
    (mayIssue s i = true → decodeGlade i.glade i.eng (wordAt s i.glade.val i.eng) = none → exec c s = .next (faultGlade s i.glade.val i.eng stProgram)) ∧
    (mayIssue s i = true → wordAt s i.glade.val i.eng = instrWord opc i → encOk i (gladeUse opc) = false →
      exec c s = .next (faultGlade s i.glade.val i.eng stProgram)) ∧
    (mayIssue s i = true → wordAt s i.glade.val i.eng = instrWord opc i → encOk i (gladeUse opc) = true →
      guardTrue (curEng s i) i.guard.toNat = false → NextIn i s → exec c s = .next (setCur s i (stepOn (curEng s i)))) := by
  have hd := Laws.decodeGlade_isSome i.glade i.eng opc i ho
  subst hu
  rw [hc]
  refine ⟨fun h hb => ?_, fun h hn => ?_, fun h hw he => ?_, fun h hw he hg hn => ?_⟩
  · rw [Laws.issue_of_not_mayIssue _ h hb]
  · simp [issue, h, hn]
  · simp [issue, h, hw, he, hd]
  · have : issue opc i (gladeUse opc) body s = settleOut i (.done s) := by simp [issue, h, hw, he, hd, hg]
    rw [this, Laws.settleOut_done hn]

theorem bey_refl (s : State) : Beyond s s := ⟨rfl, rfl, rfl, rfl, rfl, rfl, rfl, rfl, rfl, rfl, rfl, rfl, rfl, rfl, rfl, rfl, rfl, rfl, rfl, rfl, rfl⟩

theorem bey_trans {s t u : State} (h : Beyond s t) (k : Beyond t u) : Beyond s u := by
  unfold Beyond at *
  obtain ⟨h1, h2, h3, h4, h5, h6, h7, h8, h9, h10, h11, h12, h13, h14, h15, h16, h17, h18, h19, h20, h21⟩ := h
  obtain ⟨k1, k2, k3, k4, k5, k6, k7, k8, k9, k10, k11, k12, k13, k14, k15, k16, k17, k18, k19, k20, k21⟩ := k
  exact ⟨k1.trans h1, k2.trans h2, k3.trans h3, k4.trans h4, k5.trans h5, k6.trans h6, k7.trans h7, k8.trans h8, k9.trans h9, k10.trans h10, k11.trans h11, k12.trans h12, k13.trans h13, k14.trans h14, k15.trans h15, k16.trans h16, k17.trans h17, k18.trans h18, k19.trans h19, k20.trans h20, k21.trans h21⟩

theorem bey_setGlade {s t : State} (h : Beyond s t) (g : Nat) (v : Glade) : Beyond s (setGlade t g v) := h

theorem bey_updCmd {s t : State} (h : Beyond s t) (a : BitVec 64) (f : Cmd → Cmd) : Beyond s (updCmd t a f) := h

theorem bey_finish {s t : State} (h : Beyond s t) (a : BitVec 64) (st : Byte) : Beyond s (finish t a st) := h

theorem bey_noteFrozen {s t : State} (h : Beyond s t) (a : BitVec 64) (b : Bool) : Beyond s (noteFrozen t a b) := h

theorem bey_setCur {s t : State} (h : Beyond s t) (i : GI) (e : Eng) : Beyond s (setCur t i e) := h

theorem bey_foldl {β : Type} {s t : State} (h : Beyond s t) (l : List β) (f : State → β → State) (hf : ∀ u x, Beyond s u → Beyond s (f u x)) : Beyond s (l.foldl f t) :=
  Laws.foldl_keeps (fun u => Beyond s u) f l t h hf

theorem bey_releaseGlades {s t : State} (h : Beyond s t) (a : BitVec 64) : Beyond s (releaseGlades t a) := bey_foldl h _ _ (fun u x hu => hu)

theorem bey_settle {s t : State} (h : Beyond s t) (a : BitVec 64) : Beyond s (settle t a) := by
  unfold settle
  split
  · split
    · split
      · exact h
      · exact bey_releaseGlades h _
    · split
      · split
        · exact h
        · exact bey_releaseGlades h _
      · exact h
  · exact h

theorem bey_faultGlade {s t : State} (h : Beyond s t) (g : Nat) (e : Engine) (st : Byte) : Beyond s (faultGlade t g e st) := by
  unfold faultGlade
  dsimp only
  refine bey_settle ?_ _
  refine bey_foldl ?_ _ _ (fun u x hu => ?_)
  · split
    · exact h
    · exact h
  · split
    · exact hu
    · exact hu

def OutKept (s : State) (o : GOut) : Prop := match o with | .done t => Beyond s t | .jump t _ => Beyond s t | .wait t => Beyond s t | .fault _ t => Beyond s t

theorem bey_goTo {s t : State} (h : Beyond s t) (i : GI) (x : Int) : Beyond s (goTo t i x) := by
  unfold goTo
  dsimp only
  split
  · exact bey_setCur h _ _
  · exact bey_faultGlade (bey_setCur h _ _) _ _ _

theorem bey_branchTo {s t : State} (h : Beyond s t) (i : GI) (x : Int) : Beyond s (branchTo t i x) := by
  unfold branchTo
  dsimp only
  split
  · exact bey_setCur h _ _
  · exact bey_faultGlade h _ _ _

theorem bey_settleOut {s : State} {i : GI} {o : GOut} (h : OutKept s o) : Beyond s (settleOut i o) := by
  cases o with
  | done t => exact bey_goTo (show Beyond s t from h) _ _
  | jump t x => exact bey_branchTo (show Beyond s t from h) _ _
  | wait t => exact h
  | fault st t => exact bey_faultGlade (show Beyond s t from h) _ _ _

theorem bey_issue {opc : BitVec 8} {i : GI} {u : Use} {body : State → GOut} {s : State} (h : OutKept s (body s)) : Beyond s (issue opc i u body s) := by
  unfold issue
  dsimp only
  split
  · exact bey_refl _
  · split
    · exact bey_faultGlade (bey_refl _) _ _ _
    · split
      · exact bey_refl _
      · split
        · exact bey_faultGlade (bey_refl _) _ _ _
        · split
          · exact bey_settleOut (o := .done s) (bey_refl _)
          · exact bey_settleOut h

theorem bey_raise {s t : State} (h : Beyond s t) (a : BitVec 64) (f : BitVec 5) (v : Nat) : Beyond s (raise t a f v) := h

theorem bey_jobCmds {s t : State} (h : Beyond s t) (j : Option Job) (c : List Cmd) : Beyond s { t with job := j, cmds := c } := h

theorem bey_hubWrite {s t : State} (h : Beyond s t) (a : Nat) (b : Bytes) (tg : Tag) : Beyond s (hubWrite t a b tg) := h

theorem bey_logInvalid {s t : State} (h : Beyond s t) (a : BitVec 64) (g : Nat) (pc : BitVec 20) (e : LogEv) : Beyond s (logInvalid t a g pc e) := by
  unfold logInvalid
  split
  · split
    · exact h
    · refine bey_updCmd (bey_jobCmds ?_ _ _) _ _
      split
      · exact h
      · exact bey_hubWrite h _ _ _
  · exact h

theorem bey_closeAcc {s : State} {i : GI} {rc : Bool} {x : Machine.Acc} (h : Beyond s x.s) : OutKept s (closeAcc i rc x) := by
  have hB : ∀ t2, Beyond s t2 → OutKept s (let s3 := (if x.frz = true then noteFrozen t2 (gladeOf x.s i.glade.val).cmd (jobOf t2).strict else t2)
    if x.err ≠ 0 then
    .fault x.err (setCur s3 i { curEng s3 i with progress := BitVec.ofNat 64 x.steps })
    else if x.cut then .wait (setCur s3 i { haltedAt (curEng s3 i) with progress := BitVec.ofNat 64 x.steps })
    else
    let s4 := if x.quota.isSome then setCur s3 i (haltedAt (curEng s3 i)) else s3
    .done (if rc = true then setGlade s4 i.glade.val { gladeOf s4 i.glade.val with rcnt := (gladeOf s4 i.glade.val).rcnt + 1 } else s4)) := by
    intro t2 h2
    have h3 : Beyond s (if x.frz = true then noteFrozen t2 (gladeOf x.s i.glade.val).cmd (jobOf t2).strict else t2) := by
      cases x.frz
      · exact h2
      · exact bey_noteFrozen h2 _ _
    dsimp only
    generalize (if x.frz = true then noteFrozen t2 (gladeOf x.s i.glade.val).cmd (jobOf t2).strict else t2) = s3 at h3
    split
    · exact bey_setCur h3 _ _
    · split
      · exact bey_setCur h3 _ _
      · have h4 : Beyond s (if x.quota.isSome = true then setCur s3 i (haltedAt (curEng s3 i)) else s3) := by
          split
          · exact bey_setCur h3 _ _
          · exact h3
        cases rc
        · exact h4
        · exact bey_setGlade h4 _ _
  unfold closeAcc
  cases hx : x.inv with
  | none => exact hB _ (bey_raise h _ _ _)
  | some e => exact hB _ (bey_logInvalid (bey_raise h _ _ _) _ _ _ _)

theorem bey_startAcc {s t : State} (i : GI) (h : Beyond s t) : Beyond s (startAcc i t).s := by
  unfold startAcc
  dsimp only
  split <;> exact h

theorem bey_loseWrite {s t : State} (h : Beyond s t) (g : Nat) : Beyond s (loseWrite t g) := by unfold loseWrite; dsimp only; split <;> exact h

theorem bey_storePieces {s t : State} (h : Beyond s t) (j : Job) (ev : Bool) (tg : Tag) (l : List (Nat × Bytes)) : Beyond s (storePieces t j ev tg l) := by
  induction l generalizing t with
  | nil => exact h
  | cons p r ih =>
    unfold storePieces
    rcases Laws.writeLine_cases t j ev p.1 p.2 tg with ⟨e, _, h2⟩ | ⟨_, h2⟩ | ⟨u, _, h2⟩
    · rw [h2]; exact ih h
    · rw [h2]; exact ih h
    · rw [h2]; dsimp only
      obtain ⟨tg', sl, po, ra, kc, li, cc, h3⟩ := Laws.storeLine_rest t j p.1 p.2 u
      rw [h3]; exact ih h

theorem bey_spanStore {s t : State} (h : Beyond s t) (pl : Place) (sp a : Nat) (b : Bytes) (tg : Tag) : Beyond s (spanStore t pl sp a b tg) := by
  unfold spanStore
  split
  · exact h
  · split
    · exact bey_loseWrite h _
    · exact bey_storePieces h _ _ _ _
  · exact h

theorem bey_writeRow {s t u : State} (h : Beyond s t) {pl : Place} {td : Td} {r : Nat} {c sc : List Nat} {tg : Tag} (hw : writeRow t pl td r c sc tg = .ok u) : Beyond s u := by
  unfold writeRow at hw
  split at hw
  · cases hw
  · cases hw
  · injection hw with hw
    rw [← hw]
    split
    · exact bey_spanStore (bey_spanStore h _ _ _ _ _) _ _ _ _ _
    · exact bey_spanStore h _ _ _ _ _

theorem bey_spansStore {s t : State} (h : Beyond s t) (pl : Place) (sp : Nat) (tg : Tag) (l : List (Nat × Bytes)) : Beyond s (spansStore t pl sp tg l) :=
  bey_foldl h _ _ (fun u x hu => bey_spanStore hu _ _ _ _ _)

theorem bey_writePart {s t u : State} (h : Beyond s t) {pl : Place} {td : Td} {r : Nat} {c sc : List (Nat × Nat)} {tg : Tag} (hw : writePart t pl td r c sc tg = .ok u) : Beyond s u := by
  unfold writePart at hw
  dsimp only at hw
  split at hw
  · cases hw
  · split at hw
    · cases hw
    · split at hw
      · injection hw with hw
        rw [← hw]
        split
        · exact bey_spansStore (bey_spansStore h _ _ _ _) _ _ _ _
        · exact bey_spansStore h _ _ _ _
      · cases hw

theorem bey_writeOut {s t u : State} (h : Beyond s t) {pl : Place} {td : Td} {r : Nat} {o : RowOut} {tg : Tag} (hw : writeOut t pl td r o tg = .ok u) : Beyond s u := by
  unfold writeOut at hw
  split at hw
  · exact bey_writeRow h hw
  · split at hw
    · injection hw with hw; rw [← hw]; exact h
    · exact bey_writePart h hw

theorem bey_took {s : State} {x : Machine.Acc} {r : RowRes} (h : Beyond s x.s) (hr : ∀ u, r = .ok u → Beyond s u) : Beyond s (x.took r).s := by
  cases r with
  | ok u => exact hr u rfl
  | frozen => exact h
  | err e => exact h

theorem bey_wrote {s : State} {x : Machine.Acc} {o : RowOut} {r : RowRes} (h : Beyond s x.s) (hr : ∀ u, r = .ok u → Beyond s u) : Beyond s (x.wrote o r).s :=
  bey_took (x := x.note o.fl o.van) h hr

theorem bey_runSteps {α : Type} {s : State} {f : α → Machine.Acc → Machine.Acc} {l : List α} {x : Machine.Acc} (h : Beyond s x.s) (hf : ∀ y a, Beyond s a.s → Beyond s (f y a).s) : Beyond s (runSteps f l x).s := by
  unfold runSteps
  induction l generalizing x with
  | nil => exact h
  | cons y r ih =>
    rw [List.foldl_cons]
    refine ih ?_
    unfold oneStep
    split
    · exact h
    · split
      · exact h
      · split
        · exact h
        · exact hf _ _ h

theorem bey_vecWrite {s : State} {x : Machine.Acc} (h : Beyond s x.s) (pl : Place) (t : Td) (r : Nat) (v : List (BitVec 32)) (sel : Nat → Bool) (tg : Tag) : Beyond s (vecWrite pl t r v sel tg x).s := by
  unfold vecWrite
  dsimp only
  split
  · exact bey_wrote h (fun u hu => bey_writeOut h hu)
  · split
    · exact h
    · split
      · exact h
      · exact bey_wrote (x := x.note _ _) h (fun u hu => bey_writeOut h hu)

theorem bey_vopRow {s : State} {x : Machine.Acc} (h : Beyond s x.s) (pl : Place) (f) (fma : Bool) (d a : Td) (b : BSrc) (r : Nat) : Beyond s (vopRow pl f fma d a b r x).s := by
  unfold vopRow
  split
  · split
    · exact h
    · exact bey_vecWrite (x := (x.note _ _).event _) (by rw [Laws.event_s, Laws.note_s]; exact h) _ _ _ _ _ _
  · exact h
  · exact h
  · exact h

theorem bey_reduceRow {s : State} {x : Machine.Acc} (h : Beyond s x.s) (pl : Place) (f) (d a : Td) (r : Nat) : Beyond s (reduceRow pl f d a r x).s := by
  unfold reduceRow
  split
  · exact h
  · exact bey_vecWrite (x := (x.note _ _).event _) (by rw [Laws.event_s, Laws.note_s]; exact h) _ _ _ _ _ _

theorem bey_retagRow {s t : State} (h : Beyond s t) (pl : Place) (td : Td) (r : Nat) (tg : Tag) : Beyond s (retagRow t pl td r tg) := by
  have one : ∀ (u : State) (space a n : Nat), Beyond s u → Beyond s (if space = 0 then
      setGlade u pl.gi ((unitsOf a n).foldl (fun g x => gSetTag g x.1 ((join (gTag g x.1) tg).getD tg)) (gladeOf u pl.gi))
    else if space = 1 then
      (pieces a (zeros n)).foldl (fun s p => match writeCheck s pl.j pl.eval p.1 1 tg with
        | .ok (some u) => if isCanopy p.1 then setTag s (lineOf p.1) u else s
        | _ => s) u
    else u) := by
    intro u space a n hu
    split
    · exact bey_setGlade hu _ _
    · split
      · refine bey_foldl hu _ _ (fun v p hv => ?_)
        split
        · split <;> exact hv
        · exact hv
      · exact hu
  unfold retagRow
  dsimp only
  split
  · exact one _ _ _ _ (one _ _ _ _ h)
  · exact one _ _ _ _ h

theorem bey_selRow {s : State} {x : Machine.Acc} (h : Beyond s x.s) (pl : Place) (a b c : Td) (r : Nat) : Beyond s (selRow pl a b c r x).s := by
  unfold selRow
  split
  · split
    · exact h
    · have hv := fun v sel tg fl => bey_vecWrite (x := x.note fl 0) h pl a r v sel tg
      dsimp only
      split
      · exact hv _ _ _ _
      · exact bey_retagRow (hv _ _ _ _) _ _ _ _
  · exact h
  · exact h
  · exact h

theorem bey_event {s : State} {x : Machine.Acc} (h : Beyond s x.s) (fl : BitVec 5) (n : Nat) (e : Option LogEv) : Beyond s ((x.note fl n).event e).s := by rw [Laws.event_s]; exact h

theorem bey_acc_ite {s : State} {p : Prop} [Decidable p] {a b : Machine.Acc} (ha : Beyond s a.s) (hb : Beyond s b.s) : Beyond s (if p then a else b).s := by
  split
  · exact ha
  · exact hb

theorem bey_convRow {s : State} {x : Machine.Acc} (h : Beyond s x.s) (pl : Place) (o : CvtOp) (a b : Td) (r : Nat) : Beyond s (convRow pl o a b r x).s := by
  unfold convRow
  dsimp only
  split
  · exact h
  · refine bey_acc_ite h ?_
    split
    · exact h
    · split
      · exact bey_wrote (bey_event h _ _ _) (fun u hu => bey_writeOut h hu)
      · split
        · exact h
        · split
          · exact bey_wrote (bey_event h _ _ _) (fun u hu => by cases hu)
          · refine bey_setGlade ?_ _ _
            split
            · rename_i hs
              exact bey_writeOut h hs
            · exact h

theorem bey_passInto {s : State} {x : Machine.Acc} (h : Beyond s x.s) (pl : Place) (pf : PassFlags) (st : STile) (vf blk row : Nat) (vec) (tag : Tag) : Beyond s (passInto pl pf st vf blk row vec tag x).s := by
  unfold passInto
  dsimp only
  have he : ∀ fl n e, ((x.note fl n).event e).s = x.s := by intro fl n e; rw [Laws.event_s, Laws.note_s]
  refine bey_acc_ite h ?_
  split
  · exact h
  · split
    · split <;> exact h
    · split
      · show Beyond s (setGlade _ _ _); rw [he]; exact h
      · split
        · show Beyond s (setGlade _ _ _); rw [Laws.event_s, Laws.note_s, he]; exact h
        · show Beyond s (setGlade _ _ _); rw [Laws.event_s, Laws.note_s, he]; exact h

theorem bey_groupPass {s : State} {x : Machine.Acc} (h : Beyond s x.s) (pl : Place) (o : GroupOp) (a b : Td) (g : Group) (kt : Nat) (st : STile) : Beyond s (groupPass pl o a b g kt st x).s := by
  unfold groupPass
  dsimp only
  refine bey_runSteps h (fun r y hy => ?_)
  split
  · exact hy
  · split
    · exact hy
    · split
      · exact hy
      · split
        · exact hy
        · exact bey_passInto hy _ _ _ _ _ _ _ _

theorem bey_accFold {β : Type} {s : State} {x : Machine.Acc} (l : List β) (f : Machine.Acc → β → Machine.Acc) (h : Beyond s x.s) (hf : ∀ a y, Beyond s a.s → Beyond s (f a y).s) : Beyond s (l.foldl f x).s := by
  induction l generalizing x with
  | nil => exact h
  | cons y r ih => rw [List.foldl_cons]; exact ih (hf _ _ h)

theorem bey_groupRun {s : State} {x : Machine.Acc} (h : Beyond s x.s) (pl : Place) (o : GroupOp) (a b : Td) (g : Group) : Beyond s (groupRun pl o a b g x).s := by
  unfold groupRun
  split
  · exact h
  · split
    · exact h
    · refine bey_accFold _ _ h (fun y k hy => ?_)
      split
      · exact hy
      · split
        · exact hy
        · split
          · exact hy
          · split
            · exact hy
            · exact bey_groupPass (x := { y with s := setGlade y.s pl.gi _ }) hy _ _ _ _ _ _ _

theorem bey_moveStep {s : State} {x : Machine.Acc} (h : Beyond s x.s) (pl : Place) (l : List Move) : Beyond s (moveStep pl l x).s := by
  unfold moveStep
  split
  · exact h
  · split
    · exact h
    · exact h
    · exact bey_foldl h _ _ (fun u y hu => bey_spanStore hu _ _ _ _ _)

theorem bey_cacheLines {s t : State} (h : Beyond s t) (j : Job) (g : Nat) (tile : Bool) (l : List Nat) : Beyond s (cacheLines t j g tile l) := by
  have hl : ∀ u a, Beyond s u → Beyond s (cacheLine j u a) := by
    intro u a hu
    unfold cacheLine
    split
    · exact hu
    · have ha : Beyond s (adoptLine u j a) := by
        unfold adoptLine
        split
        · split <;> exact hu
        · exact hu
      dsimp only
      split <;> exact ha
  have key := bey_foldl h ((l.filter (fun a => (readLine t j a).toOption.isSome)).filter (fun a => !isCanopy a)) (cacheLine j) hl
  unfold cacheLines
  dsimp only
  split
  · exact bey_setGlade key _ _
  · exact key

theorem bey_gatherRow {s : State} {x : Machine.Acc} (h : Beyond s x.s) (pl : Place) (a b : Td) (list r : Nat) : Beyond s (gatherRow pl a b list r x).s := by
  unfold gatherRow
  dsimp only
  split
  · exact h
  split
  · exact bey_took h (fun u hu => bey_writeRow h hu)
  · split
    · exact h
    · refine bey_accFold _ _ h (fun y m hy => ?_)
      split
      · exact hy
      · exact bey_moveStep hy _ _

theorem bey_redLine {s : State} {x : Machine.Acc} (h : Beyond s x.s) (pl : Place) (p : RedPart) (r c0 n : Nat) (v : List (BitVec 32)) (t : Option Tag) : Beyond s (redLine pl p r c0 n v t x).s := by
  have hy : ∀ (y : Machine.Acc) (a : Nat) (bs : Bytes) (u : Tag), Beyond s y.s → Beyond s (if staleHalf y.s (halfOfGlade p.glade) then { y with s := loseWrite y.s p.glade }
      else match devWrite y.s pl.j pl.eval a bs u with
        | .ok s1 => { y with s := s1 }
        | .frozen => { y with frz := true }
        | .err e => y.fail e).s := by
    intro y a bs u h
    split
    · exact bey_loseWrite h _
    · split
      next s1 hs =>
        unfold devWrite at hs
        split at hs
        · cases hs
        · cases hs
        · injection hs with hs
          rw [← hs]
          exact bey_storePieces h _ _ _ _
      · exact h
      · exact h
  unfold redLine
  dsimp only
  split
  · exact h
  · split
    · exact h
    · exact hy _ _ _ _ (bey_event h _ _ _)

theorem bey_redAddRow {s : State} {x : Machine.Acc} (h : Beyond s x.s) (pl : Place) (p : RedPart) (r : Nat) (row) : Beyond s (redAddRow pl p r row x).s := by
  unfold redAddRow
  refine bey_accFold _ _ (by rw [Laws.note_s]; exact h) (fun z k hz => ?_)
  split
  · exact hz
  · exact bey_redLine hz _ _ _ _ _ _ _

theorem bey_redApply {s : State} {x : Machine.Acc} (h : Beyond s x.s) (pl : Place) (p : RedPart) : Beyond s (redApply pl p x).s := by
  unfold redApply
  refine bey_accFold _ _ h (fun z k hz => ?_)
  split
  · exact hz
  · exact bey_redAddRow hz _ _ _ _

theorem bey_redArrive {s : State} {x : Machine.Acc} (h : Beyond s x.s) (pl : Place) (p : RedPart) (src : Td) : Beyond s (redArrive pl p src x).s := by
  unfold redArrive
  refine bey_runSteps h (fun r a ha => ?_)
  split
  · exact ha
  · exact bey_redAddRow ha _ _ _ _

theorem bey_redClose {s : State} {x : Machine.Acc} (h : Beyond s x.s) (pl : Place) (r : Red) : Beyond s (redClose pl r x).1.s := by
  unfold redClose
  generalize r.parts = l
  suffices ∀ (q : Machine.Acc × List RedPart), Beyond s q.1.s → Beyond s (l.foldl (fun (q : Machine.Acc × List RedPart) p =>
    let y := redApply pl p { q.1 with err := 0 }
    if y.err ≠ 0 then ({ y with err := 0 }, q.2 ++ [p]) else (y, q.2)) q).1.s from this _ h
  induction l with
  | nil => intro q hq; exact hq
  | cons p r ih =>
    intro q hq
    rw [List.foldl_cons]
    refine ih _ ?_
    dsimp only
    split <;> exact bey_redApply (x := { q.1 with err := 0 }) hq _ _

theorem bey_dispatchOne {s : State} {x : Machine.Acc} (h : Beyond s x.s) (pl : Place) (o : RouteOp) (r n : Nat) (sel : Nat × BitVec 32) : Beyond s (dispatchOne pl o r n sel x).a.s := by
  have hm : ∀ es id, Beyond s (matchEntry x.s es id).1 := by intro es id; unfold matchEntry; dsimp only; split <;> exact h
  unfold dispatchOne
  dsimp only
  split
  · exact h
  · split
    · exact hm _ _
    · split
      · exact hm _ _
      · split
        · exact hm _ _
        · split
          · exact hm _ _
          · split
            · exact bey_spanStore (bey_spanStore (hm _ _) _ _ _ _ _) _ _ _ _ _
            · exact hm _ _
            · exact hm _ _
            · exact hm _ _

theorem bey_dispatchRow {s : State} {x : Machine.Acc} (h : Beyond s x.s) (pl : Place) (o : RouteOp) (r : Nat) (sels) : Beyond s (dispatchRow pl o r sels x).1.s := by
  unfold dispatchRow
  generalize numbered sels = l
  suffices ∀ (q : Machine.Acc × List Disp), Beyond s q.1.s → Beyond s (l.foldl (fun (q : Machine.Acc × List Disp) sel =>
    if q.1.err ≠ 0 then q else let d := dispatchOne pl o r sel.1 sel.2 q.1; (d.a, q.2 ++ [d])) q).1.s from this _ h
  induction l with
  | nil => intro q hq; exact hq
  | cons p r ih =>
    intro q hq
    rw [List.foldl_cons]
    refine ih _ ?_
    split
    · exact hq
    · exact bey_dispatchOne hq _ _ _ _ _

theorem bey_fst_ite {β : Type} {s : State} {p : Prop} [Decidable p] {a b : Machine.Acc × β} (ha : Beyond s a.1.s) (hb : Beyond s b.1.s) :
    Beyond s (if p then a else b).1.s := by
  split
  · exact ha
  · exact hb

theorem bey_routeStep {β : Type} {s : State} {f : Machine.Acc × β → Machine.Acc × β} {x : Machine.Acc × β} (h : Beyond s x.1.s) (hf : Beyond s (f x).1.s) :
    Beyond s (routeStep f x).1.s := by
  unfold routeStep
  exact bey_fst_ite h (bey_fst_ite h (bey_fst_ite h hf))

theorem bey_routeFold {β : Type} {s : State} (f : Nat → Machine.Acc × β → Machine.Acc × β) (l : List Nat) {x : Machine.Acc × β} (h : Beyond s x.1.s)
    (hf : ∀ r x, Beyond s x.1.s → Beyond s (f r x).1.s) : Beyond s (l.foldl (fun x r => routeStep (f r) x) x).1.s := by
  induction l generalizing x with
  | nil => exact h
  | cons r q ih => rw [List.foldl_cons]; exact ih (bey_routeStep h (hf _ _ h))

theorem bey_keepRouted {s : State} {x : Machine.Acc} (h : Beyond s x.s) (i : GI) (es : List Nat) : Beyond s (keepRouted i x es) := by
  unfold keepRouted
  split
  · exact bey_setCur h _ _
  · exact h

theorem bey_routeRow {s : State} {x : Machine.Acc × List Nat × Bool} (h : Beyond s x.1.s) (pl : Place) (o : RouteOp) (a b c : Td) (r : Nat) : Beyond s (routeRow pl o a b c r x).1.s := by
  unfold routeRow
  split
  · split
    · exact h
    · dsimp only
      generalize hx0 : Acc.event (Acc.note x.1 _ 0) _ = x0
      have h0 : Beyond s x0.s := by rw [← hx0]; exact bey_event h _ _ _
      generalize hq : dispatchRow pl o r _ x0 = d
      have hd' : Beyond s d.1.s := by rw [← hq]; exact bey_dispatchRow h0 _ _ _ _
      have ht : ∀ fl u, (∀ w, u = RowRes.ok w → Beyond s w) → Beyond s ((d.1.note fl 0).took u).s := fun fl u hu => bey_took (x := d.1.note fl 0) hd' hu
      exact bey_fst_ite h0 (bey_fst_ite h0 (ht _ _ (fun u hu => bey_writeRow hd' hu)))
  · exact h
  · exact h

theorem bey_fcastCheck {s t : State} (h : Beyond s t) (j : Job) (acc : BitVec 64) (o : RouteOp) (es : List Nat) : Beyond s (fcastCheck t j acc o es) := by
  unfold fcastCheck
  dsimp only
  refine bey_foldl h _ _ (fun u y hu => ?_)
  split
  · exact hu
  · split <;> exact hu

theorem kept_of {opc : BitVec 8} {i : GI} {s t : State} {c : Instr} {u : Use} {body : State → GOut} (hc : exec c s = .next (issue opc i u body s)) (hb : OutKept s (body s))
    (h : exec c s = .next t) : Beyond s t := by
  rw [hc] at h; injection h with h; rw [← h]; exact bey_issue hb

theorem ok_done {s t : State} (h : Beyond s t) : OutKept s (.done t) := h

theorem ok_jump {s t : State} (h : Beyond s t) (x : Int) : OutKept s (.jump t x) := h

theorem ok_wait {s t : State} (h : Beyond s t) : OutKept s (.wait t) := h

theorem ok_fault {s t : State} (h : Beyond s t) (st : Byte) : OutKept s (.fault st t) := h

theorem ok_check {i : GI} {rc : Bool} {s : State} {x : Machine.Acc} (p : Bool) (h : Beyond s x.s) : OutKept s (if p = true then .fault stProgram s else closeAcc i rc x) := by
  cases p
  · exact bey_closeAcc h
  · exact ok_fault (bey_refl _) _

theorem ok_moveTile (i : GI) (b : Bool) (s : State) : OutKept s (moveTile i b s) := by
  have hx : ∀ l, Beyond s (runSteps (moveStep (placeOf s i.glade.val)) l (startAcc i s)).s := fun l => bey_runSteps (bey_startAcc i (bey_refl s)) (fun y a ha => bey_moveStep ha _ _)
  have hb : ∀ l (p : Bool) j g v, Beyond s (if p then (runSteps (moveStep (placeOf s i.glade.val)) l (startAcc i s)).s
      else cacheLines (runSteps (moveStep (placeOf s i.glade.val)) l (startAcc i s)).s j g true v) := by
    intro l p j g v
    split
    · exact hx _
    · exact bey_cacheLines (hx _) _ _ _ _
  unfold moveTile
  exact ok_check _ (hb _ _ _ _ _)

theorem ok_mm (i : GI) (s : State) (pl : Place) (pf : PassFlags) (st : STile) (b : Td) (row : Nat) (x : Machine.Acc) (hx : Beyond s x.s) (n : Nat) :
    Beyond s (runRows (fun r x =>
          match readRow x.s pl b r with
          | .error er => x.fail er
          | .ok rw => passInto pl pf st (tFmt b) (tBlk b) (row + r) ((rowElems b rw).map (·.2)) rw.tag x) n x).s := by
  refine bey_runSteps hx (fun r y hy => ?_)
  split
  · exact hy
  · exact bey_passInto hy _ _ _ _ _ _ _ _

theorem kept_scalar {opc : BitVec 8} {i : GI} {s t : State} {c : Instr} (hc : gladeInstr opc i = some c) (ho : opc.toNat < 0x19) (h : exec c s = .next t) : Beyond s t := by
  unfold gladeInstr at hc
  split at hc
  all_goals try omega
  all_goals first | (cases hc; done) | (injection hc with hc; subst hc; clear ho)
  · refine kept_of rfl ?_ h
    exact (ok_done (bey_refl _))
  · refine kept_of rfl ?_ h
    exact (ok_wait (bey_setCur (bey_refl _) _ _))
  · refine kept_of rfl ?_ h
    exact (ok_jump (bey_refl _) _)
  · have hl : ∀ (e1 : Eng) (x : Int), OutKept s (if sGet e1 i.sa.toNat = 0 then .done (setCur s i e1) else .jump (setCur s i e1) x) := by
      intro e1 x
      split
      · exact ok_done (bey_setCur (bey_refl _) _ _)
      · exact ok_jump (bey_setCur (bey_refl _) _ _) _
    refine kept_of rfl ?_ h
    exact (hl _ _)
  · refine kept_of rfl ?_ h
    dsimp only; split
    · exact ok_fault (bey_refl _) _
    · exact ok_jump (bey_setCur (bey_refl _) _ _) _
  · refine kept_of rfl ?_ h
    dsimp only; split
    · exact ok_fault (bey_refl _) _
    · split
      · exact ok_fault (bey_refl _) _
      · exact ok_jump (bey_setCur (bey_refl _) _ _) _
  · refine kept_of rfl ?_ h
    have go : ∀ (u : State) (a : Nat) (goal : BitVec 64), Beyond s u → OutKept s (if goal.toNat ≤ (counterAt u (BitVec.ofNat 64 a)).toNat then GOut.done u
        else .wait (setCur u i { curEng u i with st := .waitMeet, meetAddr := BitVec.ofNat 64 a, meetGoal := goal, stalledAt := u.hub.time })) := by
      intro u a goal hu
      split
      · exact ok_done hu
      · exact ok_wait (bey_setCur hu _ _)
    dsimp only; split
    · exact ok_fault (bey_refl _) _
    · split
      · split
        · exact ok_fault (bey_refl _) _
        · exact go _ _ _ (bey_noteFrozen (bey_refl _) _ _)
        · refine go _ _ _ ?_
          split
          · exact bey_loseWrite (bey_refl _) _
          · exact bey_refl _
      · exact go _ _ _ (bey_refl _)
  · refine kept_of rfl ?_ h
    dsimp only; split
    · exact ok_wait (bey_setCur (bey_refl _) _ _)
    · exact ok_done (bey_setGlade (bey_refl _) _ _)
  · refine kept_of rfl ?_ h
    dsimp only; split
    · exact ok_wait (bey_setCur (bey_refl _) _ _)
    · exact ok_done (bey_setCur (bey_setGlade (bey_refl _) _ _) _ _)
  · refine kept_of rfl ?_ h
    exact (ok_done (bey_setCur (bey_refl _) _ _))
  · refine kept_of rfl ?_ h
    dsimp only; split
    · exact ok_fault (bey_refl _) _
    · exact ok_done (bey_setCur (bey_refl _) _ _)
  · refine kept_of rfl ?_ h
    dsimp only; split
    · exact ok_fault (bey_refl _) _
    · exact ok_done (bey_setCur (bey_refl _) _ _)
  · refine kept_of rfl ?_ h
    dsimp only; split
    · exact ok_fault (bey_refl _) _
    · exact ok_done (bey_setCur (bey_refl _) _ _)
  · refine kept_of rfl ?_ h
    exact (ok_done (bey_setCur (bey_refl _) _ _))
  · refine kept_of rfl ?_ h
    exact (ok_done (bey_setCur (bey_refl _) _ _))
  · refine kept_of rfl ?_ h
    dsimp only; split
    · exact ok_fault (bey_refl _) _
    · split
      · exact ok_fault (bey_refl _) _
      · split
        · exact ok_fault (bey_refl _) _
        · exact ok_done (bey_setCur (bey_refl _) _ _)
  · refine kept_of rfl ?_ h
    dsimp only; split
    · exact ok_fault (bey_refl _) _
    · split
      · split
        · exact ok_fault (bey_refl _) _
        split
        · exact ok_fault (bey_refl _) _
        · exact ok_done (bey_spanStore (bey_refl _) _ _ _ _ _)
      · split
        · exact ok_done (bey_noteFrozen (bey_refl _) _ _)
        · exact ok_fault (bey_refl _) _
        · split
          · exact ok_fault (bey_refl _) _
          · exact ok_done (bey_spanStore (bey_refl _) _ _ _ _ _)

theorem ok_ifs {s : State} {o : GOut} (p : Bool) (st : Byte) (h : OutKept s o) : OutKept s (if p = true then .fault st s else o) := by
  cases p
  · exact h
  · exact ok_fault (bey_refl _) _

theorem ok_ifp {s : State} {o : GOut} (p : Prop) [Decidable p] (st : Byte) (h : OutKept s o) : OutKept s (if p then .fault st s else o) := by
  split
  · exact ok_fault (bey_refl _) _
  · exact h

theorem ok_ite {s : State} {o p : GOut} (P : Prop) [Decidable P] (h : OutKept s o) (k : OutKept s p) : OutKept s (if P then o else p) := by
  split
  · exact h
  · exact k

theorem kept_routeF {i : GI} {s t : State} (h : exec (.routeF i) s = .next t) : Beyond s t := by
  refine kept_of rfl ?_ h
  have hk : ∀ (pl : Place) (td : Td) (es : Machine.Acc × List Nat → RowIn → List Nat) (l : List Nat) (x : Machine.Acc × List Nat), Beyond s x.1.s →
      Beyond s (l.foldl (fun x r => routeStep (fun x => match readRow x.1.s pl td r with
        | .error q => (x.1.fail q, x.2)
        | .ok ra => (x.1.note (rowInf td ra) 0, es x ra)) x) x).1.s := fun pl td es l x hx =>
    bey_routeFold (fun r x => match readRow x.1.s pl td r with
        | .error q => (x.1.fail q, x.2)
        | .ok ra => (x.1.note (rowInf td ra) 0, es x ra)) l hx (fun r y hy => by split <;> exact hy)
  have ht : ∀ (p : Bool) (y : Machine.Acc × List Nat) (u z : State), Beyond s u → Beyond s z → OutKept s (if p then closeAcc i false { y.1 with s := u } else closeAcc i false { y.1 with s := z }) := by
    intro p y u z hy hz
    split
    · exact bey_closeAcc hy
    · exact bey_closeAcc hz
  have hy := fun pl td es l q => hk pl td es l (startAcc i s, q) (bey_startAcc i (bey_refl s))
  dsimp only
  refine ok_ifs _ _ (ok_ifs _ _ ?_)
  refine ht _ _ _ _ (bey_keepRouted (hy _ _ _ _ _) _ _) (bey_cacheLines (bey_hubWrite (hy _ _ _ _ _) _ _ _) _ _ _ _)

theorem bey_redBump {s u : State} (hu : Beyond s u) (pl : Place) (acc ctr : BitVec 64) : Beyond s (redBump pl acc ctr u) := by
  unfold redBump
  split
  · exact hu
  · split <;> exact hu

theorem bey_setRed {s u : State} (hu : Beyond s u) (b : BitVec 48) (v : Option Red) : Beyond s (setRed u b v) := hu

theorem ok_redOrdered (i : GI) (pl : Place) (src : Td) (red : Red) (part : RedPart) (free : Bool) (s : State) :
    OutKept s (redOrdered i pl src red part free s) := by
  unfold redOrdered
  dsimp only
  split
  · exact ok_fault (bey_refl s) _
  · have hz : ∀ r fl, Beyond s (redClose pl r { s := s, frz := !free, fl := fl }).1.s := fun r fl => bey_redClose (bey_refl s) _ _
    refine ok_ite _ (bey_closeAcc (bey_setRed (bey_refl s) _ _)) (ok_ite _ (bey_closeAcc (bey_redBump (bey_setRed (hz _ _) _ _) _ _ _)) (bey_closeAcc ?_))
    exact bey_foldl (bey_setRed (hz _ _) _ _) _ _ (fun u x hu => bey_faultGlade hu _ _ _)

theorem ok_redArrival (i : GI) (pl : Place) (src : Td) (red : Red) (part : RedPart) (free : Bool) (s : State) :
    OutKept s (redArrival i pl src red part free s) := by
  have hx : Beyond s (if free then redArrive pl part src (startAcc i s) else { s := s, frz := true }).s := by
    split
    · exact bey_redArrive (bey_startAcc i (bey_refl s)) _ _ _
    · exact bey_refl s
  unfold redArrival
  dsimp only
  generalize (if free then redArrive pl part src (startAcc i s) else { s := s, frz := true } : Machine.Acc) = x at hx
  refine ok_ite _ (bey_closeAcc (bey_setRed hx _ _)) (ok_ite _ (bey_closeAcc ?_) (bey_closeAcc ?_))
  · split <;> exact bey_setRed hx _ _
  · split
    · exact bey_setRed hx _ _
    · exact bey_redBump (bey_setRed hx _ _) _ _ _

theorem kept_red {i : GI} {s t : State} (h : exec (.red i) s = .next t) : Beyond s t := by
  refine kept_of rfl ?_ h
  refine ok_ifs _ _ (ok_ifs _ _ (ok_ifp _ _ ?_))
  split
  · exact ok_fault (bey_refl _) _
  · exact ok_fault (bey_refl _) _
  · refine ok_ifs _ _ (ok_ite _ (ok_redOrdered _ _ _ _ _ _ _) (ok_redArrival _ _ _ _ _ _ _))

theorem kept_tile {opc : BitVec 8} {i : GI} {s t : State} {c : Instr} (hc : gladeInstr opc i = some c) (ho : 0x20 ≤ opc.toNat) (h : exec c s = .next t) : Beyond s t := by
  unfold gladeInstr at hc
  split at hc
  all_goals try omega
  all_goals first | (cases hc; done) | (injection hc with hc; subst hc; clear ho)
  · refine kept_of rfl ?_ h
    exact ok_moveTile _ _ _
  · refine kept_of rfl ?_ h
    exact ok_moveTile _ _ _
  · refine kept_of rfl ?_ h
    have hx : ∀ pl a b list n, Beyond s (runRows (gatherRow pl a b list) n (startAcc i s)).s := fun pl a b list n =>
      bey_runSteps (bey_startAcc i (bey_refl s)) (fun y a ha => bey_gatherRow ha _ _ _ _ _)
    have hb : ∀ pl a b list n (p : Bool) j g v, Beyond s (if p then (runRows (gatherRow pl a b list) n (startAcc i s)).s
        else cacheLines (runRows (gatherRow pl a b list) n (startAcc i s)).s j g true v) := by
      intro pl a b list n p j g v
      split
      · exact hx _ _ _ _ _
      · exact bey_cacheLines (hx _ _ _ _ _) _ _ _ _
    exact ok_check _ (hb _ _ _ _ _ _ _ _ _)
  · refine kept_of rfl ?_ h
    dsimp only; split
    · exact ok_done (bey_cacheLines (bey_refl _) _ _ _ _)
    · exact ok_done (bey_refl _)
  · refine kept_of rfl ?_ h
    dsimp only; split
    · exact ok_fault (bey_refl _) _
    split
    · exact ok_fault (bey_refl _) _
    · exact ok_done (bey_refl s)
  · refine kept_of rfl ?_ h
    dsimp only; split
    · exact ok_fault (bey_refl _) _
    · refine ok_ifs _ _ ?_
      split
      · exact ok_fault (bey_refl _) _
      · exact bey_closeAcc (bey_setGlade (bey_refl _) _ _)
  · refine kept_of rfl ?_ h
    dsimp only; split
    · exact ok_fault (bey_refl _) _
    · refine ok_check _ (ok_mm i s _ _ _ _ _ _ (bey_startAcc i ?_) _)
      split
      · exact bey_setGlade (bey_refl s) _ _
      · exact bey_refl s
  · refine kept_of rfl ?_ h
    refine ok_ifs _ _ (ok_ifs _ _ (bey_closeAcc (bey_accFold _ _ (bey_startAcc i (bey_refl s)) (fun y g hy => ?_))))
    split
    · exact hy
    · exact bey_groupRun hy _ _ _ _ _
  · refine kept_of rfl ?_ h
    dsimp only; split
    · exact ok_fault (bey_refl _) _
    · refine ok_ifs _ _ ?_
      split
      · exact ok_fault (bey_refl _) _
      · refine ok_check _ (bey_runSteps (bey_startAcc i ?_) (fun y a ha => bey_convRow ha _ _ _ _ _))
        generalize (if flagAt _ 2080 7 = true then none else some _ : Option Nat) = sl
        cases sl with
        | none => exact bey_refl _
        | some k => dsimp only; split <;> exact bey_refl s
  · refine kept_of rfl ?_ h
    refine ok_ifs _ _ ?_
    split
    · split
      · exact ok_fault (bey_refl _) _
      · exact bey_closeAcc (bey_runSteps (bey_startAcc i (bey_refl s)) (fun y a ha => bey_reduceRow ha _ _ _ _ _))
    · split
      · exact ok_fault (bey_refl _) _
      · exact ok_check _ (bey_runSteps (bey_startAcc i (bey_refl s)) (fun y a ha => bey_vopRow ha _ _ _ _ _ _ _))
  · refine kept_of rfl ?_ h
    exact ok_check _ (bey_runSteps (bey_startAcc i (bey_refl s)) (fun y a ha => bey_selRow ha _ _ _ _ _))
  · refine kept_of rfl ?_ h
    dsimp only; split
    · exact ok_fault (bey_refl _) _
    · exact ok_check _ (bey_runSteps (bey_startAcc i (bey_refl s)) (fun y a ha => bey_vopRow ha _ _ _ _ _ _ _))
  · refine kept_of rfl ?_ h
    exact ok_check _ (bey_took (x := { s := s }) (bey_refl s) (fun u hu => bey_writeRow (bey_refl s) hu))
  · refine kept_of rfl ?_ h
    refine ok_ifs _ _ (ok_ifs _ _ ?_)
    split
    · exact ok_fault (bey_refl _) _
    · refine ok_ifs _ _ (bey_closeAcc ?_)
      have hrows : ∀ (l : List Nat) (pl : Place) (o : RouteOp) (a b c : Td) q, Beyond s (l.foldl (fun x r => routeStep (routeRow pl o a b c r) x) (startAcc i s, q)).1.s :=
        fun l pl o a b c q => bey_routeFold (routeRow pl o a b c) l (bey_startAcc i (bey_refl s)) (fun r x hx => bey_routeRow hx _ _ _ _ _ _)
      have hin : ∀ (B C : Bool) (u : State) (pl : Place) (o : RouteOp) (es : List Nat) (a : BitVec 64) (f : Cmd → Cmd), Beyond s u → Beyond s (if C then updCmd (if B then fcastCheck u pl.j a o es else u) a f else (if B then fcastCheck u pl.j a o es else u)) := by
        intro B C u pl o es a f hu
        cases B <;> cases C
        · exact hu
        · exact hu
        · exact bey_fcastCheck hu _ _ _ _
        · exact bey_fcastCheck hu _ _ _ _
      exact hin _ _ _ _ _ _ _ _ (bey_keepRouted (hrows _ _ _ _ _ _ _) _ _)
  · exact kept_routeF h
  · exact kept_red h

end Sys2Proof.Laws
end

