-- ==== Sys2Proof/Laws/Hub.lean ====
section
/-! SUPPORT. The host side: cells taken, messages, register writes, resets and errors. -/

namespace Sys2Proof.Laws

open Sys2Proof.Machine Sys2Proof.Safety

theorem hTouch0 (s : State) : ([] : List Host.Cell).foldl hostPoke s = s := rfl

theorem foldChans (l : List Nat) (f : State → Nat → Chan) (u : State) : ∃ c, l.foldl (fun s k => setChan s k (f s k)) u = { u with chans := c } := by
  induction l generalizing u with
  | nil => exact ⟨_, rfl⟩
  | cons k q ih => rw [List.foldl_cons]; obtain ⟨c, h⟩ := ih (setChan u k (f u k)); rw [h]; exact ⟨c, rfl⟩

theorem foldPorts (l : List Nat) (f : State → Nat → Port) (u : State) : ∃ c, l.foldl (fun s k => setPort s k (f s k)) u = { u with ports := c } := by
  induction l generalizing u with
  | nil => exact ⟨_, rfl⟩
  | cons k q ih => rw [List.foldl_cons]; obtain ⟨c, h⟩ := ih (setPort u k (f u k)); rw [h]; exact ⟨c, rfl⟩

theorem foldPds (l : List Nat) (f : State → Nat → Pd) (u : State) : ∃ c, l.foldl (fun s k => setPd s k (f s k)) u = { u with pds := c } := by
  induction l generalizing u with
  | nil => exact ⟨_, rfl⟩
  | cons k q ih => rw [List.foldl_cons]; obtain ⟨c, h⟩ := ih (setPd u k (f u k)); rw [h]; exact ⟨c, rfl⟩

theorem bootParts_rest (s : State) (t : BootTests) : ∃ ch po pd fe, bootParts s t = { s with chans := ch, ports := po, pds := pd, fences := fe } := by
  unfold bootParts
  extract_lets down s1 s2 s3
  obtain ⟨c, h1⟩ : ∃ c, s1 = { s with chans := c } := foldChans _ _ s
  obtain ⟨p, h2⟩ : ∃ c, s2 = { s1 with ports := c } := foldPorts _ _ s1
  obtain ⟨d, h3⟩ : ∃ c, s3 = { s2 with pds := c } := foldPds _ _ s2
  rw [h3, h2, h1]
  exact ⟨_, _, _, _, rfl⟩

theorem recoverRing_rest (s : State) (r : Nat) : ∃ a b, recoverRing s r = { s with rings := a, cmds := b } := by
  unfold recoverRing
  dsimp only
  split
  · exact ⟨_, _, rfl⟩
  · exact ⟨_, _, rfl⟩

theorem recoverAll_rest (l : List Nat) (s : State) : ∃ a b, l.foldl recoverRing s = { s with rings := a, cmds := b } := by
  induction l generalizing s with
  | nil => exact ⟨_, _, rfl⟩
  | cons r q ih =>
    rw [List.foldl_cons]
    obtain ⟨a, b, h⟩ := recoverRing_rest s r
    obtain ⟨a', b', h'⟩ := ih (recoverRing s r)
    rw [h', h]
    exact ⟨_, _, rfl⟩

def bootBase (s : State) (k fell : Bool) : State :=
  { runBank s k with
    flash := { (runBank s k).flash with coldGen := (runBank s k).flash.coldGen + 1 },
    rst := { (runBank s k).rst with rsGen := (runBank s k).flash.coldGen + 1 - 1 },
    boot := { stage := 9, cfgReady := true, devReady := true, fallback := fell } }

theorem takeCell_taken {s u : State} {k : Fin 32} {h : CellHdr} {z : Bool} {p : Pair} (f : State → Pair → State) (ht : CellTaken s k h z u p) :
    takeCell s k.val h z f = f u p := by
  obtain ⟨h1, h2, h3, h4, h5, h6, q, hq, h7, h8, h9, h10, rfl, rfl⟩ := ht
  unfold takeCell arrive
  rw [if_neg (by simp [h1, h2])]
  have hl : linkTake s k.val h.lseq = (setPort s k.val { portOf s k.val with rxNext := (portOf s k.val).rxNext + 1, rxLost := false, nak := false }, true) := by
    unfold linkTake; dsimp only; rw [if_pos h3]
  rw [hl]
  dsimp only
  rw [if_neg (by decide), if_neg (by simpa [and_assoc] using h4), if_neg (by simp [h5, h6])]
  have hp : pairOf (freeBuf (setPort s k.val { portOf s k.val with rxNext := (portOf s k.val).rxNext + 1, rxLost := false, nak := false }) k.val h.vc.toNat) h.src = some q := hq
  rw [hp]
  dsimp only
  have hn : (cellEpoch q h.ep).isNone = false := by cases hc : cellEpoch q h.ep with | none => rw [hc] at h9; simp at h9 | some _ => rfl
  rw [if_neg (by rw [h7, h8, hn]; simp; omega)]
  rfl

theorem takeCell_exec {i : Instr} {k : Fin 32} {h : CellHdr} (hc : cellHead i = some (k, h)) (s : State) (hr : cellRoom s i = true) : ∃ f, exec i s = .next (takeCell s k.val h (cellZero i) f) := by
  cases i <;> simp only [cellHead, Option.some.injEq, Prod.mk.injEq, reduceCtorEq] at hc <;> obtain ⟨rfl, rfl⟩ := hc
  all_goals first | exact ⟨_, rfl⟩ | skip
  rename_i k h b
  simp only [cellRoom, Bool.not_eq_true'] at hr
  refine ⟨?f, ?_⟩
  rotate_left
  · show execDataCellReceive _ _ _ _ = _
    unfold execDataCellReceive
    rw [hr, if_neg (by decide)]
    rfl

theorem pairOf_updPair {s : State} {a : BitVec 16} {p : Pair} (f : Pair → Pair) (hf : ∀ q, (f q).addr = q.addr) (h : pairOf s a = some p) : pairOf (updPair s a f) a = some (f p) := by
  unfold pairOf updPair at *
  dsimp only
  have hp : p.addr = a := by have := List.find?_some h; simpa using this
  rw [List.find?_map]
  have : (fun q : Pair => decide (q.addr = a)) ∘ (fun q : Pair => if q.addr = a then f q else q) = (fun q => decide (q.addr = a)) := by
    funext q; simp only [Function.comp]; split
    · rw [hf]
    · rfl
  rw [this, h]; simp [hp]

theorem peerOk (s : State) (c : PeerCheck) : (!c.chainOk || !c.sigOk || decide (c.svn.toNat < s.rgr.runSvn.toNat)) = !(c.chainOk && c.sigOk && decide (s.rgr.runSvn.toNat ≤ c.svn.toNat)) := by
      by_cases q : c.svn.toNat < s.rgr.runSvn.toNat
      · simp [q, Nat.not_le.mpr q]
      · simp [q, Nat.not_lt.mp q]

theorem onMessage_eq {s : State} {code : Nat} {f : State} (h : MessageWaits s code) : onMessage s code f = .next f := by
  obtain ⟨h1, h2, h3, h4, h5⟩ := h
  unfold onMessage; rw [if_neg (by simp [h1, h2, h3, h4]), if_neg (by simp [h5])]

theorem bankOf_setBank (s : State) (k : Bool) (v : Bank) : bankOf (setBank s k v) k = v := by cases k <;> rfl

theorem bankOf_setBank_ne (s : State) (k : Bool) (v : Bank) : bankOf (setBank s (!k) v) k = bankOf s k := by cases k <;> rfl

theorem inSession_eq {s u : State} {y : Session} {b : Bytes} (h : SessionMessage s u y b) (f : State → Session → Bytes → State) (ten : Bool) (ht : ten = true → y.role = 0) : inSession s ten f = f u y b := by
  obtain ⟨x, p, h1, h2, h3, h4, rfl, rfl, rfl⟩ := h
  unfold inSession
  rw [h1]; dsimp only
  have : ¬ ((decide (mbSession s = 0) || (ten && decide (x.role ≠ 0))) = true) := by
    cases ten
    · simp; simpa using h2
    · have := ht rfl; simp at this; simp [this]; simpa using h2
  rw [if_neg this, if_neg (by omega), h4]

theorem onSpdm_eq {s : State} {m : Bool} {f : State} (h : SpdmReady s m) : onSpdm s m f = .next f := by
  obtain ⟨h1, h2, h3, h4, h5⟩ := h
  unfold onSpdm
  have : (if m = true then decide (s.boot.stage ≠ 0) else barAnswers s) = true := by
    cases m
    · simpa using h3
    · rw [if_pos rfl] at *; exact decide_eq_true h3
  dsimp only
  rw [this, if_neg (by simp [h1, h2, h4]), if_neg (by simp [h5])]

theorem inSpdm_eq {s : State} {m : Bool} {f : State} {sid : BitVec 32} (h : SpdmReady s m) (ho : spdmOpen s sid = true) : inSpdm s m sid f = .next f := by
  unfold inSpdm; rw [onSpdm_eq h, if_pos ho]

theorem inSpdm_none {s : State} {m : Bool} {f : State} {sid : BitVec 32} (h : SpdmReady s m) (ho : spdmOpen s sid = false) : inSpdm s m sid f = .next (spdmError s seInvalidSession) := by
  unfold inSpdm; rw [onSpdm_eq h, if_neg (by simp [ho])]

theorem regWrite_eq {s : State} (hb : barAnswers s = true) (o : BitVec 26) (v : BitVec 64) (r : Reg) (h1 : ¬ (0x20000 ≤ o.toNat ∧ o.toNat < 0x21000)) (h2 : o.toNat % 8 = 0) (h3 : regAt o.toNat = some r) :
    exec (.registerWrite o 8 v) s = .next (if v &&& rsvMask r = 0 then writeField s r v else s) := by
  show execRegisterWrite o 8 v s = _
  unfold execRegisterWrite; dsimp only
  rw [if_neg (by simp [hb]), if_neg (by simpa using h1), if_pos (by simp [h2])]
  unfold writeReg
  rw [if_neg (by simp [hb]), h3]
  by_cases q : v &&& rsvMask r = 0
  · simp [q]
  · simp [q]

theorem regRow {s : State} (o : BitVec 26) (v : BitVec 64) (h1 : ¬ (0x20000 ≤ o.toNat ∧ o.toNat < 0x21000)) (h2 : o.toNat % 8 = 0) :
    Host.Outcome.next (writeReg s o.toNat v) = exec (.registerWrite o 8 v) s := by
  show _ = execRegisterWrite o 8 v s
  unfold execRegisterWrite; dsimp only
  by_cases hb : barAnswers s = true
  · rw [if_neg (by simp [hb]), if_neg (by simpa using h1), if_pos (by simp [h2])]
  · rw [if_pos (by simp [hb])]; unfold writeReg; rw [if_pos (by simp [hb])]

theorem mask16 (v m : BitVec 64) (h : v.toNat < 2 ^ 16) (hm : m &&& 0xFFFF = 0) : v &&& m = 0 := by
  have hv : v = v &&& 0xFFFF := by
    apply BitVec.eq_of_toNat_eq
    rw [BitVec.toNat_and, show (0xFFFF : BitVec 64).toNat = 2 ^ 16 - 1 from rfl, Nat.and_two_pow_sub_one_eq_mod, Nat.mod_eq_of_lt h]
  rw [hv, BitVec.and_assoc, BitVec.and_comm 0xFFFF m, hm]; simp

theorem low16 (v : BitVec 64) (h : v.toNat < 2 ^ 16) (k : BitVec 16) (_ : k.toNat < 2 ^ 16) : (v.extractLsb' 0 16 = k) ↔ v = k.setWidth 64 := by
  constructor
  · intro hh; apply BitVec.eq_of_toNat_eq
    have := congrArg BitVec.toNat hh
    simp at this ⊢
    omega
  · rintro rfl; apply BitVec.eq_of_toNat_eq; simp; omega

theorem selNo (s t : State) (v : BitVec 64) (n : Nat) (h : n ≤ v.toNat) : (Host.Outcome.next (if selOk v n then t else s) : Host.Outcome State Fault Refusal) = .next s := by
  rw [if_neg (by unfold selOk; simp; exact h)]

theorem selYes (s t : State) (v : BitVec 64) (n : Nat) (h : v.toNat < n) : (Host.Outcome.next (if selOk v n then t else s) : Host.Outcome State Fault Refusal) = .next t := by
  rw [if_pos (by unfold selOk; simp; exact h)]

theorem rowWrite {s : State} (hb : barAnswers s = true) (off : Nat) (v : BitVec 64) (r : Reg) (h3 : regAt off = some r) (h : v &&& rsvMask r = 0) : writeReg s off v = writeField s r v := by
  unfold writeReg
  rw [if_neg (by simp [hb]), h3]
  simp [h]

theorem setBit (v : BitVec 64) (k : Nat) (h : v.getLsbD k = true) : withBit v k true = v := by
  unfold withBit; rw [if_pos rfl]
  apply BitVec.eq_of_getLsbD_eq; intro i hi
  rw [BitVec.getLsbD_or]
  by_cases q : i = k
  · rw [q, h]; rfl
  · have : (oneBit k : BitVec 64).getLsbD i = false := by
      unfold oneBit; rw [BitVec.getLsbD_shiftLeft]
      by_cases q2 : i < k
      · simp [q2]
      · have : i - k ≠ 0 := by omega
        simp [this]
    rw [this]; simp

theorem clrBit (v : BitVec 64) (k : Nat) (h : v.getLsbD k = false) : withBit v k false = v := by
  unfold withBit; rw [if_neg (by decide)]
  apply BitVec.eq_of_getLsbD_eq; intro i hi
  rw [BitVec.getLsbD_and, BitVec.getLsbD_not]
  by_cases q : i = k
  · rw [q, h]; rfl
  · have : (oneBit k : BitVec 64).getLsbD i = false := by
      unfold oneBit; rw [BitVec.getLsbD_shiftLeft]
      by_cases q2 : i < k
      · simp [q2]
      · have : i - k ≠ 0 := by omega
        simp [this]
    rw [this]; simp [hi]

theorem setChan_rst_fold (l : List Nat) (f : State → Nat → State) (hf : ∀ s k, (f s k).rst = s.rst ∧ (f s k).fences = s.fences) : ∀ s, (l.foldl f s).rst = s.rst ∧ (l.foldl f s).fences = s.fences := by
  induction l with
  | nil => intro s; exact ⟨rfl, rfl⟩
  | cons a r ih => intro s; rw [List.foldl_cons]; exact ⟨(ih _).1.trans (hf s a).1, (ih _).2.trans (hf s a).2⟩

theorem chanFold (d : Nat) (s : State) : ((List.range 8).foldl (fun s k => setChan s (8 * (d - 16) + k) { chanOf s (8 * (d - 16) + k) with selfref := false }) s).rst = s.rst ∧ ((List.range 8).foldl (fun s k => setChan s (8 * (d - 16) + k) { chanOf s (8 * (d - 16) + k) with selfref := false }) s).fences = s.fences :=
  setChan_rst_fold (List.range 8) (fun s k => setChan s (8 * (d - 16) + k) { chanOf s (8 * (d - 16) + k) with selfref := false }) (fun _ _ => ⟨rfl, rfl⟩) s

theorem portFold (d : Nat) (s : State) : ((List.range 8).foldl (fun s m => setPort s (8 * (d - 20) + m) { portOf s (8 * (d - 20) + m) with st := if (portOf s (8 * (d - 20) + m)).st = 4 then 1 else (portOf s (8 * (d - 20) + m)).st }) s).rst = s.rst ∧ ((List.range 8).foldl (fun s m => setPort s (8 * (d - 20) + m) { portOf s (8 * (d - 20) + m) with st := if (portOf s (8 * (d - 20) + m)).st = 4 then 1 else (portOf s (8 * (d - 20) + m)).st }) s).fences = s.fences :=
  setChan_rst_fold (List.range 8) (fun s m => setPort s (8 * (d - 20) + m) { portOf s (8 * (d - 20) + m) with st := if (portOf s (8 * (d - 20) + m)).st = 4 then 1 else (portOf s (8 * (d - 20) + m)).st }) (fun _ _ => ⟨rfl, rfl⟩) s

theorem temp_fold (r : Tab (BitVec 8)) : ∀ (l : List Nat) (s : State), l.Nodup → ∀ i ∈ l, (pdOf (l.foldl (fun s i => setPd s i { pdOf s i with temp := tget 0 r i }) s) i).temp = tget 0 r i := by
  have keep : ∀ (l : List Nat) (s : State) (i : Nat), i ∉ l → pdOf (l.foldl (fun s i => setPd s i { pdOf s i with temp := tget 0 r i }) s) i = pdOf s i := by
    intro l
    induction l with
    | nil => intros; rfl
    | cons a q ih =>
      intro s i hi
      rw [List.mem_cons, not_or] at hi
      rw [List.foldl_cons, ih _ _ hi.2, pdOf_setPd_ne _ _ hi.1]
  intro l
  induction l with
  | nil => intro s _ i hi; cases hi
  | cons a q ih =>
    intro s hn i hi
    rw [List.nodup_cons] at hn
    rw [List.foldl_cons]
    rcases List.mem_cons.mp hi with rfl | hi
    · rw [keep _ _ _ hn.1]; simp
    · exact ih _ hn.2 i hi

theorem max_fold_lt (r : Tab (BitVec 8)) : ∀ (l : List Nat) (m : Nat), m < 256 → l.foldl (fun m i => max m (tget 0 r i).toNat) m < 256 := by
  intro l
  induction l with
  | nil => intro m h; exact h
  | cons a q ih => intro m h; rw [List.foldl_cons]; exact ih _ (max_lt h (tget 0 r a).isLt)

theorem plan_fold (s : State) (t0 : Tab Plan) : ∀ (l : List Nat), l.Nodup → ∀ i ∈ l, ∀ t, tget {} (l.foldl (fun t i => tset {} t i { margin := (pdOf s i).margin, endDays := (pdOf s i).endDays, limit := (pdOf s i).limit, volt := (pdOf s i).volt }) t) i = ({ margin := (pdOf s i).margin, endDays := (pdOf s i).endDays, limit := (pdOf s i).limit, volt := (pdOf s i).volt } : Plan) := by
  have keep : ∀ (l : List Nat) (i : Nat), i ∉ l → ∀ t : Tab Plan, tget {} (l.foldl (fun t i => tset {} t i { margin := (pdOf s i).margin, endDays := (pdOf s i).endDays, limit := (pdOf s i).limit, volt := (pdOf s i).volt }) t) i = tget {} t i := by
    intro l
    induction l with
    | nil => intros; rfl
    | cons a q ih =>
      intro i hi t
      rw [List.mem_cons, not_or] at hi
      rw [List.foldl_cons, ih _ hi.2, tget_tset_ne _ _ _ hi.1]
  intro l
  induction l with
  | nil => intro _ i hi; cases hi
  | cons a q ih =>
    intro hn i hi t
    rw [List.nodup_cons] at hn
    rw [List.foldl_cons]
    rcases List.mem_cons.mp hi with rfl | hi
    · rw [keep _ _ hn.1, tget_tset_same]
    · exact ih hn.2 i hi _

theorem advanceTo_errs (s : State) (n : Nat) : (advanceTo s n).errs = s.errs := by unfold advanceTo; try split <;> rfl

end Sys2Proof.Laws
end

