-- ==== Sys2Proof/Laws/Keep.lean ====
section
/-! SUPPORT. Canonical memories and the queue: what keeps them, and that the named operations, the rings, runs and frames do. -/

namespace Sys2Proof.Laws

open Sys2Proof.Machine Sys2Proof.Safety

set_option linter.unusedTactic false
set_option linter.unreachableTactic false
set_option linter.unusedSimpArgs false

/-- Device memory and host memory are in canonical form and the queue is `q`. -/
def Canon (q : List Instr) (s : State) : Prop := Memory.wf s.mem = true ∧ Memory.wf s.host = true ∧ s.pending = q

/-- The same of the two memories and the queue by themselves. -/
def CanonMem (q : List Instr) (m h : Mem) (p : List Instr) : Prop := Memory.wf m = true ∧ Memory.wf h = true ∧ p = q

/-- An outcome whose next state, if it has one, is as `Canon` says. -/
def CanonOut (q : List Instr) (o : Host.Outcome State Fault Refusal) : Prop := ∀ t, o = .next t → Canon q t

/-- A result whose state, if it has one, is as `Canon` says. -/
def CanonTry (q : List Instr) (o : Except Byte State) : Prop := ∀ t, o = .ok t → Canon q t

theorem Canon_out {q} {s : State} (h : Canon q s) : CanonMem q s.mem s.host s.pending := h

theorem CanonOut_next {q} {s : State} (h : Canon q s) : CanonOut q (.next s) := by intro t e; cases e; exact h

theorem CanonTry_ok {q} {s : State} (h : Canon q s) : CanonTry q (.ok s) := by intro t e; cases e; exact h

theorem CanonTry_error {q} {b : Byte} : CanonTry q (.error b) := by intro t e; cases e

theorem foldl_canon {q α} (f : State → α → State) (l : List α) (s : State) (hf : ∀ t x, Canon q t → Canon q (f t x)) (h : Canon q s) : Canon q (l.foldl f s) := by
  induction l generalizing s with
  | nil => exact h
  | cons x r ih => exact ih _ (hf _ _ h)

theorem CanonMem_wr {q m h p} (a : Nat) (b : Bytes) (k : CanonMem q m h p) : CanonMem q (wrBytes m a b) h p := ⟨wf_wrBytes _ _ k.1, k.2.1, k.2.2⟩

theorem CanonMem_hw {q m h p} (a : Nat) (b : Bytes) (k : CanonMem q m h p) : CanonMem q m (wrBytes h a b) p := ⟨k.1, wf_wrBytes _ _ k.2.1, k.2.2⟩

theorem CanonMem_clear {q m h p} (a n : Nat) (k : CanonMem q m h p) : CanonMem q (clearRange m a n) h p := ⟨wf_clearRange _ _ k.1, k.2.1, k.2.2⟩

theorem Canon_mk {q} pins boot rst flash hub fences sels msix pba rings cmds glades chans ports pds wv errs epoch halves rgr spdm fab credits job saved mem tags seals poison raw kcache link domShow ccache host out free pending : Canon q (State.mk pins boot rst flash hub fences sels msix pba rings cmds glades chans ports pds wv errs epoch halves rgr spdm fab credits job saved mem tags seals poison raw kcache link domShow ccache host out free pending) = CanonMem q mem host pending := rfl

/-- The same for a write of device memory. -/
def CanonWrite (q : List Instr) (o : WRes) : Prop := ∀ t, o = .ok t → Canon q t

/-- The same for a row written. -/
def CanonRow (q : List Instr) (o : RowRes) : Prop := ∀ t, o = .ok t → Canon q t

/-- The same for an instruction's body. -/
def CanonGlade (q : List Instr) : GOut → Prop
  | .done s => Canon q s
  | .jump s _ => Canon q s
  | .wait s => Canon q s
  | .fault _ s => Canon q s

theorem CanonWrite_ok {q} {s : State} (h : Canon q s) : CanonWrite q (.ok s) := by intro t e; cases e; exact h

theorem CanonWrite_frozen {q} : CanonWrite q .frozen := by intro t e; cases e

theorem CanonWrite_err {q} {b} : CanonWrite q (.err b) := by intro t e; cases e

theorem CanonRow_ok {q} {s : State} (h : Canon q s) : CanonRow q (.ok s) := by intro t e; cases e; exact h

theorem CanonRow_frozen {q} : CanonRow q .frozen := by intro t e; cases e

theorem CanonRow_err {q} {b} : CanonRow q (.err b) := by intro t e; cases e

theorem CanonGlade_done {q} {s : State} (h : Canon q s) : CanonGlade q (.done s) := h

theorem CanonGlade_jump {q} {s : State} {x} (h : Canon q s) : CanonGlade q (.jump s x) := h

theorem CanonGlade_wait {q} {s : State} (h : Canon q s) : CanonGlade q (.wait s) := h

theorem CanonGlade_fault {q} {s : State} {x} (h : Canon q s) : CanonGlade q (.fault x s) := h

theorem CanonWrite_get {q} {o : WRes} {t} (e : o = .ok t) (h : CanonWrite q o) : Canon q t := h t e

theorem CanonRow_get {q} {o : RowRes} {t} (e : o = .ok t) (h : CanonRow q o) : Canon q t := h t e

theorem CanonTry_get {q} {o : Except Byte State} {t} (e : o = .ok t) (h : CanonTry q o) : Canon q t := h t e

theorem CanonPair_get {q} {α : Type} {o : State × α} {t} {x : α} (e : o = (t, x)) (h : Canon q o.1) : Canon q t := by rw [e] at h; exact h

theorem foldlA_canon {q} {α : Type} (f : Machine.Acc → α → Machine.Acc) (l : List α) (s : Machine.Acc) (hf : ∀ t x, Canon q t.s → Canon q (f t x).s) (h : Canon q s.s) : Canon q (l.foldl f s).s := by
  induction l generalizing s with
  | nil => exact h
  | cons x r ih => exact ih _ (hf _ _ h)

theorem foldlP_canon {q} {α β : Type} (f : State × β → α → State × β) (l : List α) (s : State × β) (hf : ∀ t x, Canon q t.1 → Canon q (f t x).1) (h : Canon q s.1) : Canon q (l.foldl f s).1 := by
  induction l generalizing s with
  | nil => exact h
  | cons x r ih => exact ih _ (hf _ _ h)

theorem foldlE_canon {q} {α : Type} (f : EgrRes → α → EgrRes) (l : List α) (s : EgrRes) (hf : ∀ t x, Canon q t.s → Canon q (f t x).s) (h : Canon q s.s) : Canon q (l.foldl f s).s := by
  induction l generalizing s with
  | nil => exact h
  | cons x r ih => exact ih _ (hf _ _ h)

theorem foldlU_canon {q} {α : Type} (f : Upd → α → Upd) (l : List α) (s : Upd) (hf : ∀ t x, Canon q t.s → Canon q (f t x).s) (h : Canon q s.s) : Canon q (l.foldl f s).s := by
  induction l generalizing s with
  | nil => exact h
  | cons x r ih => exact ih _ (hf _ _ h)

theorem foldlWk_canon {q} {α : Type} (f : Walk → α → Walk) (l : List α) (s : Walk) (hf : ∀ t x, Canon q t.s → Canon q (f t x).s) (h : Canon q s.s) : Canon q (l.foldl f s).s := by
  induction l generalizing s with
  | nil => exact h
  | cons x r ih => exact ih _ (hf _ _ h)

theorem CanonMem_filter {q m h p} (f : Host.Cell → Bool) (k : CanonMem q m h p) : CanonMem q (m.filter f) h p := ⟨wf_filter _ k.1, k.2.1, k.2.2⟩

theorem CanonMem_wr1 {q m h p} (a : Nat) (b : Byte) (k : CanonMem q m h p) : CanonMem q (wr1 m a b) h p := ⟨wf_wr1 _ _ k.1, k.2.1, k.2.2⟩

theorem CanonMem_over {q m h p} (l : List Host.Cell) (k : CanonMem q m h p) : CanonMem q (l.foldl (fun m c => wr1 m c.1 c.2) m) h p := ⟨wf_overlay _ k.1, k.2.1, k.2.2⟩

theorem CanonMem_overh {q m h p} (l : List Host.Cell) (k : CanonMem q m h p) : CanonMem q m (l.foldl (fun m c => wr1 m c.1 c.2) h) p := ⟨k.1, wf_overlay _ k.2.1, k.2.2⟩

theorem foldlB_canon {q} {α β : Type} (f : Machine.Acc × β → α → Machine.Acc × β) (l : List α) (s : Machine.Acc × β) (hf : ∀ t x, Canon q t.1.s → Canon q (f t x).1.s) (h : Canon q s.1.s) : Canon q (l.foldl f s).1.s := by
  induction l generalizing s with
  | nil => exact h
  | cons x r ih => exact ih _ (hf _ _ h)

theorem foldlX_canon {q} {α : Type} (f : Except Byte State → α → Except Byte State) (l : List α) (s : Except Byte State) (hf : ∀ t x, CanonTry q t → CanonTry q (f t x)) (h : CanonTry q s) : CanonTry q (l.foldl f s) := by
  induction l generalizing s with
  | nil => exact h
  | cons x r ih => exact ih _ (hf _ _ h)

theorem CanonTry_use {q} {s : State} (h : CanonTry q (.ok s)) : Canon q s := h s rfl

/-- The same for a transfer within the device, which ends with the state it has come to. -/
def CanonCells (q : List Instr) (o : Except (Byte × State) State) : Prop := match o with | .ok s => Canon q s | .error e => Canon q e.2

theorem foldlY_canon {q} {α : Type} (f : Except (Byte × State) State → α → Except (Byte × State) State) (l : List α) (s : Except (Byte × State) State) (hf : ∀ t x, CanonCells q t → CanonCells q (f t x)) (h : CanonCells q s) : CanonCells q (l.foldl f s) := by
  induction l generalizing s with
  | nil => exact h
  | cons x r ih => exact ih _ (hf _ _ h)

theorem CanonCells_ok {q} {o : Except (Byte × State) State} {s} (e : o = .ok s) (h : CanonCells q o) : Canon q s := by rw [e] at h; exact h

theorem CanonCells_error {q} {o : Except (Byte × State) State} {b s} (e : o = .error (b, s)) (h : CanonCells q o) : Canon q s := by rw [e] at h; exact h

theorem Canon_ite {q} {c : Prop} [Decidable c] {a b : State} (ha : Canon q a) (hb : Canon q b) : Canon q (if c then a else b) := by split <;> assumption

theorem CanonGlade_ite {q} {c : Prop} [Decidable c] {a b : GOut} (ha : CanonGlade q a) (hb : CanonGlade q b) : CanonGlade q (if c then a else b) := by split <;> assumption

theorem CanonOut_ite {q} {c : Prop} [Decidable c] {a b : Host.Outcome State Fault Refusal} (ha : CanonOut q a) (hb : CanonOut q b) : CanonOut q (if c then a else b) := by split <;> assumption

theorem CanonMem_hw1 {q m h p} (a : Nat) (b : Byte) (k : CanonMem q m h p) : CanonMem q m (wr1 h a b) p := ⟨k.1, wf_wr1 _ _ k.2.1, k.2.2⟩

theorem CanonMem_seen {q} {s : State} (j : Job) (l : List Nat) (k : Canon q s) : CanonMem q (seenMem s j l) s.host s.pending := ⟨seenMem_wf _ k.1, k.2.1, k.2.2⟩

theorem Canon_host {q} {s : State} (a : Nat) (b : Byte) (k : Canon q s) : Canon q { s with host := wr1 s.host a b } := ⟨k.1, wf_wr1 _ _ k.2.1, k.2.2⟩

theorem foldlC_canon {q} {α : Type} (f : CellRes → α → CellRes) (l : List α) (s : CellRes) (hf : ∀ t x, Canon q t.s → Canon q (f t x).s) (h : Canon q s.s) : Canon q (l.foldl f s).s := by
  induction l generalizing s with
  | nil => exact h
  | cons x r ih => exact ih _ (hf _ _ h)

theorem CanonMem_hclear {q m h p} (a n : Nat) (k : CanonMem q m h p) : CanonMem q m (clearRange h a n) p := ⟨k.1, wf_clearRange _ _ k.2.1, k.2.2⟩

theorem setRing_canon {q : List Instr} (s : State) (r : Nat) (v : Machine.Ring) (h0 : Canon q s) : Canon q (setRing s r v) := by
  unfold setRing
  repeat' (first | with_reducible (first | assumption | apply Canon_out) | simp only [Canon_mk] | split | intro _ | dsimp only)

theorem setGlade_canon {q : List Instr} (s : State) (g : Nat) (v : Glade) (h0 : Canon q s) : Canon q (setGlade s g v) := by
  unfold setGlade
  repeat' (first | with_reducible (first | assumption | apply Canon_out) | simp only [Canon_mk] | split | intro _ | dsimp only)

theorem setChan_canon {q : List Instr} (s : State) (c : Nat) (v : Machine.Chan) (h0 : Canon q s) : Canon q (setChan s c v) := by
  unfold setChan
  repeat' (first | with_reducible (first | assumption | apply Canon_out) | simp only [Canon_mk] | split | intro _ | dsimp only)

theorem setPort_canon {q : List Instr} (s : State) (p : Nat) (v : Port) (h0 : Canon q s) : Canon q (setPort s p v) := by
  unfold setPort
  repeat' (first | with_reducible (first | assumption | apply Canon_out) | simp only [Canon_mk] | split | intro _ | dsimp only)

theorem setPd_canon {q : List Instr} (s : State) (i : Nat) (v : Pd) (h0 : Canon q s) : Canon q (setPd s i v) := by
  unfold setPd
  repeat' (first | with_reducible (first | assumption | apply Canon_out) | simp only [Canon_mk] | split | intro _ | dsimp only)

theorem setHalf_canon {q : List Instr} (s : State) (hh : Nat) (v : Half) (h0 : Canon q s) : Canon q (setHalf s hh v) := by
  unfold setHalf
  repeat' (first | with_reducible (first | assumption | apply Canon_out) | simp only [Canon_mk] | split | intro _ | dsimp only)

theorem emit_canon {q : List Instr} (s : State) (o : Out) (h0 : Canon q s) : Canon q (emit s o) := by
  unfold emit
  repeat' (first | with_reducible (first | assumption | apply Canon_out) | simp only [Canon_mk] | split | intro _ | dsimp only)

theorem advanceTo_canon {q : List Instr} (s : State) (t : Nat) (h0 : Canon q s) : Canon q (advanceTo s t) := by
  unfold advanceTo
  repeat' (first | with_reducible (first | assumption | apply Canon_out) | simp only [Canon_mk] | split | intro _ | dsimp only)

theorem idle_canon {q : List Instr} (s : State) (h0 : Canon q s) : Canon q (idle s) := by
  unfold idle
  repeat' (first | with_reducible (first | assumption | apply Canon_out) | simp only [Canon_mk] | split | intro _ | dsimp only)

theorem drawRandom_canon {q : List Instr} (s : State) (h0 : Canon q s) : Canon q (drawRandom s) := by
  unfold drawRandom
  repeat' (first | with_reducible (first | assumption | apply Canon_out) | simp only [Canon_mk] | split | intro _ | dsimp only)

theorem sendVector_canon {q : List Instr} (s : State) (v : Byte) (h0 : Canon q s) : Canon q (sendVector s v) := by
  unfold sendVector
  repeat' (first | with_reducible (first | assumption | apply Canon_out | apply emit_canon) | simp only [Canon_mk] | split | intro _ | dsimp only)

theorem updCmd_canon {q : List Instr} (s : State) (acc : BitVec 64) (f : Cmd → Cmd) (h0 : Canon q s) : Canon q (updCmd s acc f) := by
  unfold updCmd
  repeat' (first | with_reducible (first | assumption | apply Canon_out) | simp only [Canon_mk] | split | intro _ | dsimp only)

theorem setJob_canon {q : List Instr} (s : State) (j : Job) (h0 : Canon q s) : Canon q (setJob s j) := by
  unfold setJob
  repeat' (first | with_reducible (first | assumption | apply Canon_out) | simp only [Canon_mk] | split | intro _ | dsimp only)

theorem finish_canon {q : List Instr} (s : State) (acc : BitVec 64) (st : Byte) (h0 : Canon q s) : Canon q (finish s acc st) := by
  unfold finish
  repeat' (first | with_reducible (first | assumption | apply Canon_out | apply updCmd_canon) | simp only [Canon_mk] | split | intro _ | dsimp only)

theorem finishWith_canon {q : List Instr} (s : State) (acc : BitVec 64) (st : Byte) (res : Bytes) (h0 : Canon q s) : Canon q (finishWith s acc st res) := by
  unfold finishWith
  repeat' (first | with_reducible (first | assumption | apply Canon_out | apply updCmd_canon | apply finish_canon) | simp only [Canon_mk] | split | intro _ | dsimp only)

theorem noteFrozen_canon {q : List Instr} (s : State) (acc : BitVec 64) (strict : Bool) (h0 : Canon q s) : Canon q (noteFrozen s acc strict) := by
  unfold noteFrozen
  repeat' (first | with_reducible (first | assumption | apply Canon_out | apply updCmd_canon) | simp only [Canon_mk] | split | intro _ | dsimp only)

theorem setSeal_canon {q : List Instr} (s : State) (l : Nat) (v : Option Seal) (h0 : Canon q s) : Canon q (setSeal s l v) := by
  unfold setSeal
  repeat' (first | with_reducible (first | assumption | apply Canon_out) | simp only [Canon_mk] | split | intro _ | dsimp only)

theorem setTag_canon {q : List Instr} (s : State) (l : Nat) (t : Tag) (h0 : Canon q s) : Canon q (setTag s l t) := by
  unfold setTag
  repeat' (first | with_reducible (first | assumption | apply Canon_out) | simp only [Canon_mk] | split | intro _ | dsimp only)

theorem useKey_canon {q : List Instr} (s : State) (die : Nat) (k : Bytes) (h0 : Canon q s) : Canon q (useKey s die k) := by
  unfold useKey
  repeat' (first | with_reducible (first | assumption | apply Canon_out) | simp only [Canon_mk] | split | intro _ | dsimp only)

theorem adoptLine_canon {q : List Instr} (s : State) (j : Job) (a : Nat) (h0 : Canon q s) : Canon q (adoptLine s j a) := by
  unfold adoptLine
  split
  · split
    · exact CanonMem_seen _ _ h0
    · exact h0
  · exact h0

theorem sealRange_canon {q : List Instr} (s : State) (a : Nat) (b : Bytes) (qq : Seal) (h0 : Canon q s) : Canon q (sealRange s a b qq) := by
  unfold sealRange
  repeat' (first | with_reducible (first | assumption | apply Canon_out | apply CanonMem_wr | apply CanonMem_hw | apply CanonMem_filter | apply foldl_canon | apply foldlA_canon | apply foldlB_canon | apply foldlP_canon) | simp only [Canon_mk] | split | intro _ | dsimp only)

theorem markDirty_canon {q : List Instr} (s : State) (a : Nat) (h0 : Canon q s) : Canon q (markDirty s a) := by
  unfold markDirty
  repeat' (first | with_reducible (first | assumption | apply Canon_out) | simp only [Canon_mk] | split | intro _ | dsimp only)

theorem storeLine_canon {q : List Instr} (s : State) (j : Job) (a : Nat) (b : Bytes) (t : Tag) (h0 : Canon q s) : Canon q (storeLine s j a b t) := by
  unfold storeLine
  repeat' (first | with_reducible (first | assumption | apply Canon_out | apply CanonMem_wr | apply CanonMem_hw | apply CanonMem_filter | apply CanonMem_seen | apply markDirty_canon | apply setSeal_canon | apply setTag_canon | apply useKey_canon) | simp only [Canon_mk] | split | intro _ | dsimp only)

theorem writeLine_canon {q : List Instr} (s : State) (j : Job) (eval : Bool) (a : Nat) (b : Bytes) (t : Tag) (h0 : Canon q s) : CanonWrite q (writeLine s j eval a b t) := by
  unfold writeLine
  repeat' (first | with_reducible (first | assumption | apply Canon_out | apply CanonWrite_ok | apply CanonWrite_frozen | apply CanonWrite_err | apply storeLine_canon) | simp only [Canon_mk] | split | intro _ | dsimp only)

theorem storePieces_canon {q : List Instr} (s : State) (j : Job) (eval : Bool) (t : Tag) (l : List (Nat × Bytes)) (h0 : Canon q s) : Canon q (storePieces s j eval t l) := by
  induction l generalizing s with
  | nil => exact h0
  | cons p r ih =>
    unfold storePieces
    split
    · rename_i e; exact ih _ (CanonWrite_get e (writeLine_canon _ _ _ _ _ _ h0))
    · exact ih _ h0

theorem devWrite_canon {q : List Instr} (s : State) (j : Job) (eval : Bool) (a : Nat) (b : Bytes) (t : Tag) (h0 : Canon q s) : CanonWrite q (devWrite s j eval a b t) := by
  unfold devWrite
  repeat' (first | with_reducible (first | assumption | apply Canon_out | apply CanonWrite_ok | apply CanonWrite_frozen | apply CanonWrite_err | apply storePieces_canon) | simp only [Canon_mk] | split | intro _ | dsimp only)

theorem hubWrite_canon {q : List Instr} (s : State) (a : Nat) (b : Bytes) (t : Tag) (h0 : Canon q s) : Canon q (hubWrite s a b t) := ⟨hubWrite_wf _ _ _ h0.1, h0.2.1, h0.2.2⟩

theorem bumpCounter_canon {q : List Instr} (s : State) (a : Nat) (h0 : Canon q s) : Canon q (bumpCounter s a) := by
  unfold bumpCounter
  repeat' (first | with_reducible (first | assumption | apply Canon_out | apply CanonMem_wr | apply CanonMem_hw) | simp only [Canon_mk] | split | intro _ | dsimp only)

theorem clearLines_canon {q : List Instr} (s : State) (a n : Nat) (h0 : Canon q s) : Canon q (clearLines s a n) := by
  unfold clearLines
  repeat' (first | with_reducible (first | assumption | apply Canon_out | apply CanonMem_clear | apply CanonMem_filter) | simp only [Canon_mk] | split | intro _ | dsimp only)

theorem zeroStores_canon {q : List Instr} (s : State) (h0 : Canon q s) : Canon q (zeroStores s) := by
  unfold zeroStores
  repeat' (first | with_reducible (first | assumption | apply Canon_out | apply CanonMem_clear | apply CanonMem_filter | apply foldl_canon | apply foldlA_canon | apply foldlB_canon | apply foldlP_canon) | simp only [Canon_mk] | split | intro _ | dsimp only)

theorem loseWrite_canon {q : List Instr} (s : State) (gi : Nat) (h0 : Canon q s) : Canon q (loseWrite s gi) := by
  unfold loseWrite
  repeat' (first | with_reducible (first | assumption | apply Canon_out | apply setHalf_canon) | simp only [Canon_mk] | split | intro _ | dsimp only)

theorem spanStore_canon {q : List Instr} (s : State) (pl : Place) (space a : Nat) (b : Bytes) (t : Tag) (h0 : Canon q s) : Canon q (spanStore s pl space a b t) := by
  unfold spanStore
  repeat' (first | with_reducible (first | assumption | apply Canon_out | apply storePieces_canon | apply loseWrite_canon | apply setGlade_canon) | simp only [Canon_mk] | split | intro _ | dsimp only)

theorem writeRow_canon {q : List Instr} (s : State) (pl : Place) (t : Td) (r : Nat) (codes scales : List Nat) (tg : Tag) (h0 : Canon q s) : CanonRow q (writeRow s pl t r codes scales tg) := by
  unfold writeRow
  repeat' (first | with_reducible (first | assumption | apply Canon_out | apply CanonRow_ok | apply CanonRow_frozen | apply CanonRow_err | apply spanStore_canon) | simp only [Canon_mk] | split | intro _ | dsimp only)

theorem spansStore_canon {q : List Instr} (s : State) (pl : Place) (space : Nat) (tg : Tag) (ps : List (Nat × Bytes)) (h0 : Canon q s) : Canon q (spansStore s pl space tg ps) := by
  unfold spansStore
  repeat' (first | with_reducible (first | assumption | apply Canon_out | apply spanStore_canon | apply foldl_canon | apply foldlA_canon | apply foldlB_canon | apply foldlP_canon) | simp only [Canon_mk] | split | intro _ | dsimp only)

theorem writePart_canon {q : List Instr} (s : State) (pl : Place) (t : Td) (r : Nat) (es scs : List (Nat × Nat)) (tg : Tag) (h0 : Canon q s) : CanonRow q (writePart s pl t r es scs tg) := by
  unfold writePart
  repeat' (first | with_reducible (first | assumption | apply Canon_out | apply CanonRow_ok | apply CanonRow_frozen | apply CanonRow_err | apply spansStore_canon) | simp only [Canon_mk] | split | intro _ | dsimp only)

theorem acc_note_canon {q : List Instr} (a : Machine.Acc) (fl : BitVec 5) (van : Nat) (h0 : Canon q a.s) : Canon q (Machine.Acc.note a fl van).s := by
  unfold Machine.Acc.note
  repeat' (first | with_reducible (first | assumption | apply Canon_out) | simp only [Canon_mk] | split | intro _ | dsimp only)

theorem acc_event_canon {q : List Instr} (a : Machine.Acc) (e : Option LogEv) (h0 : Canon q a.s) : Canon q (Machine.Acc.event a e).s := by
  unfold Machine.Acc.event
  repeat' (first | with_reducible (first | assumption | apply Canon_out) | simp only [Canon_mk] | split | intro _ | dsimp only)

theorem acc_fail_canon {q : List Instr} (a : Machine.Acc) (st : Byte) (h0 : Canon q a.s) : Canon q (Machine.Acc.fail a st).s := by
  unfold Machine.Acc.fail
  repeat' (first | with_reducible (first | assumption | apply Canon_out) | simp only [Canon_mk] | split | intro _ | dsimp only)

theorem acc_took_canon {q : List Instr} (a : Machine.Acc) (r : RowRes) (hr : CanonRow q r) (h0 : Canon q a.s) : Canon q (Machine.Acc.took a r).s := by
  cases r with
  | ok s => exact hr s rfl
  | frozen => exact h0
  | err e => exact h0

theorem oneStep_canon {q : List Instr} (f : Machine.Acc → Machine.Acc) (a : Machine.Acc) (hf : ∀ a, Canon q a.s → Canon q (f a).s) (h : Canon q a.s) : Canon q (oneStep f a).s := by
  unfold oneStep
  split
  · exact h
  · split
    · exact h
    · split
      · exact h
      · exact hf _ h

theorem runSteps_canon {q : List Instr} {α : Type} (f : α → Machine.Acc → Machine.Acc) (l : List α) (a : Machine.Acc) (hf : ∀ x a, Canon q a.s → Canon q (f x a).s) (h : Canon q a.s) : Canon q (runSteps f l a).s := by
  unfold runSteps
  exact foldlA_canon _ _ _ (fun t x ht => oneStep_canon _ _ (hf x) ht) h

theorem runRows_canon {q : List Instr} (f : Nat → Machine.Acc → Machine.Acc) (n : Nat) (a : Machine.Acc) (hf : ∀ x a, Canon q a.s → Canon q (f x a).s) (h : Canon q a.s) : Canon q (runRows f n a).s := runSteps_canon _ _ _ hf h

theorem logInvalid_canon {q : List Instr} (s : State) (acc : BitVec 64) (gi : Nat) (pc : BitVec 20) (e : LogEv) (h0 : Canon q s) : Canon q (logInvalid s acc gi pc e) := by
  unfold logInvalid
  repeat' (first | with_reducible (first | assumption | apply Canon_out | apply hubWrite_canon | apply updCmd_canon) | simp only [Canon_mk] | split | intro _ | dsimp only)

theorem raise_canon {q : List Instr} (s : State) (acc : BitVec 64) (fl : BitVec 5) (van : Nat) (h0 : Canon q s) : Canon q (raise s acc fl van) := by
  unfold raise
  repeat' (first | with_reducible (first | assumption | apply Canon_out | apply updCmd_canon) | simp only [Canon_mk] | split | intro _ | dsimp only)

theorem startGlade_canon {q : List Instr} (s : State) (p : Prog) (acc : BitVec 64) (slot : Byte) (g rank n : Nat) (args : List (BitVec 64)) (h0 : Canon q s) : Canon q (startGlade s p acc slot g rank n args) := by
  unfold startGlade
  repeat' (first | with_reducible (first | assumption | apply Canon_out | apply setGlade_canon) | simp only [Canon_mk] | split | intro _ | dsimp only)

theorem startGlades_canon {q : List Instr} (s : State) (p : Prog) (acc : BitVec 64) (slot : Byte) (gs : List Nat) (args : List (BitVec 64)) (h0 : Canon q s) : Canon q (startGlades s p acc slot gs args) := by
  unfold startGlades
  repeat' (first | with_reducible (first | assumption | apply Canon_out | apply startGlade_canon | apply foldl_canon | apply foldlA_canon | apply foldlB_canon | apply foldlP_canon) | simp only [Canon_mk] | split | intro _ | dsimp only)

theorem releaseGlades_canon {q : List Instr} (s : State) (acc : BitVec 64) (h0 : Canon q s) : Canon q (releaseGlades s acc) := by
  unfold releaseGlades
  repeat' (first | with_reducible (first | assumption | apply Canon_out | apply setGlade_canon | apply foldl_canon | apply foldlA_canon | apply foldlB_canon | apply foldlP_canon) | simp only [Canon_mk] | split | intro _ | dsimp only)

theorem stepEnded_canon {q : List Instr} (s : State) (h0 : Canon q s) : Canon q (stepEnded s) := by
  unfold stepEnded
  repeat' (first | with_reducible (first | assumption | apply Canon_out | apply releaseGlades_canon) | simp only [Canon_mk] | split | intro _ | dsimp only)

theorem settle_canon {q : List Instr} (s : State) (acc : BitVec 64) (h0 : Canon q s) : Canon q (settle s acc) := by
  unfold settle
  repeat' (first | with_reducible (first | assumption | apply Canon_out | apply releaseGlades_canon | apply stepEnded_canon | apply finish_canon) | simp only [Canon_mk] | split | intro _ | dsimp only)

theorem faultGlade_canon {q : List Instr} (s : State) (g : Nat) (e : Engine) (st : Byte) (h0 : Canon q s) : Canon q (faultGlade s g e st) := by
  unfold faultGlade
  repeat' (first | with_reducible (first | assumption | apply Canon_out | apply setGlade_canon | apply updCmd_canon | apply settle_canon | apply foldl_canon | apply foldlA_canon | apply foldlB_canon | apply foldlP_canon) | simp only [Canon_mk] | split | intro _ | dsimp only)

theorem setCur_canon {q : List Instr} (s : State) (i : GI) (e : Eng) (h0 : Canon q s) : Canon q (setCur s i e) := by
  unfold setCur
  repeat' (first | with_reducible (first | assumption | apply Canon_out | apply setGlade_canon) | simp only [Canon_mk] | split | intro _ | dsimp only)

theorem startAcc_canon {q : List Instr} (i : GI) (s : State) (h0 : Canon q s) : Canon q (startAcc i s).s := by
  unfold startAcc
  repeat' (first | with_reducible (first | assumption | apply Canon_out) | simp only [Canon_mk] | split | intro _ | dsimp only)

theorem goTo_canon {q : List Instr} (s : State) (i : GI) (t : Int) (h0 : Canon q s) : Canon q (goTo s i t) := by
  unfold goTo
  repeat' (first | with_reducible (first | assumption | apply Canon_out | apply faultGlade_canon | apply setCur_canon) | simp only [Canon_mk] | split | intro _ | dsimp only)

theorem branchTo_canon {q : List Instr} (s : State) (i : GI) (t : Int) (h0 : Canon q s) : Canon q (branchTo s i t) := by
  unfold branchTo
  repeat' (first | with_reducible (first | assumption | apply Canon_out | apply faultGlade_canon | apply setCur_canon) | simp only [Canon_mk] | split | intro _ | dsimp only)

theorem settleOut_canon {q : List Instr} (i : GI) (o : GOut) (h : CanonGlade q o) : Canon q (settleOut i o) := by
  cases o with
  | done s => exact goTo_canon _ _ _ h
  | jump s x => exact branchTo_canon _ _ _ h
  | wait s => exact h
  | fault x s => exact faultGlade_canon _ _ _ _ h

theorem issue_canon {q : List Instr} (opc : BitVec 8) (i : GI) (u : Use) (body : State → GOut) (s : State) (hb : ∀ t, Canon q t → CanonGlade q (body t)) (h : Canon q s) : Canon q (issue opc i u body s) := by
  unfold issue
  dsimp only
  repeat' (first | with_reducible assumption | with_reducible apply faultGlade_canon | with_reducible apply settleOut_canon | with_reducible apply hb | with_reducible apply CanonGlade_done | split)

theorem closeAcc_canon {q : List Instr} (i : GI) (rc : Bool) (a : Machine.Acc) (h0 : Canon q a.s) : CanonGlade q (closeAcc i rc a) := by
  unfold closeAcc
  repeat' (first | with_reducible (first | assumption | apply Canon_out | apply CanonGlade_done | apply CanonGlade_jump | apply CanonGlade_wait | apply CanonGlade_fault | apply noteFrozen_canon | apply logInvalid_canon | apply setGlade_canon | apply setCur_canon | apply raise_canon) | simp only [Canon_mk] | split | intro _ | dsimp only)

theorem execTokenReceive_canon {q : List Instr} (gi : Fin 128) (e : Engine) (s : State) (h0 : Canon q s) : CanonOut q (execTokenReceive gi e s) := by
  unfold execTokenReceive
  repeat' (first | with_reducible (first | assumption | apply Canon_out | apply CanonOut_next | apply setGlade_canon | apply goTo_canon) | simp only [Canon_mk] | split | intro _ | dsimp only)

theorem execTokenEnter_canon {q : List Instr} (gi : Fin 128) (e : Engine) (qq : Fin 8) (s : State) (h0 : Canon q s) : CanonOut q (execTokenEnter gi e qq s) := by
  unfold execTokenEnter
  repeat' (first | with_reducible (first | assumption | apply Canon_out | apply CanonOut_next | apply setGlade_canon) | simp only [Canon_mk] | split | intro _ | dsimp only)

theorem execMeetRelease_canon {q : List Instr} (gi : Fin 128) (e : Engine) (s : State) (h0 : Canon q s) : CanonOut q (execMeetRelease gi e s) := by
  unfold execMeetRelease
  repeat' (first | with_reducible (first | assumption | apply Canon_out | apply CanonOut_next | apply setGlade_canon | apply goTo_canon) | simp only [Canon_mk] | split | intro _ | dsimp only)

theorem execMeetTimeout_canon {q : List Instr} (gi : Fin 128) (e : Engine) (s : State) (h0 : Canon q s) : CanonOut q (execMeetTimeout gi e s) := by
  unfold execMeetTimeout
  repeat' (first | with_reducible (first | assumption | apply Canon_out | apply CanonOut_next | apply faultGlade_canon | apply advanceTo_canon) | simp only [Canon_mk] | split | intro _ | dsimp only)

theorem execDeadlock_canon {q : List Instr} (gi : Fin 128) (s : State) (h0 : Canon q s) : CanonOut q (execDeadlock gi s) := by
  unfold execDeadlock
  repeat' (first | with_reducible (first | assumption | apply Canon_out | apply CanonOut_next | apply faultGlade_canon) | simp only [Canon_mk] | split | intro _ | dsimp only)

theorem markRest_canon {q : List Instr} (s : State) (h0 : Canon q s) : Canon q (markRest s) := by
  unfold markRest
  repeat' (first | with_reducible (first | assumption | apply Canon_out) | simp only [Canon_mk] | split | intro _ | dsimp only)

theorem execGladeStop_canon {q : List Instr} (gi : Fin 128) (s : State) (h0 : Canon q s) : CanonOut q (execGladeStop gi s) := by
  unfold execGladeStop
  repeat' (first | with_reducible (first | assumption | apply Canon_out | apply CanonOut_next | apply setGlade_canon | apply markRest_canon | apply settle_canon) | simp only [Canon_mk] | split | intro _ | dsimp only)

theorem passInto_canon {q : List Instr} (pl : Place) (pf : PassFlags) (st : STile) (vf blk row : Nat) (vec : List (Nat × Nat)) (tag : Tag) (a : Machine.Acc) (h0 : Canon q a.s) : Canon q (passInto pl pf st vf blk row vec tag a).s := by
  unfold passInto
  repeat' (first | with_reducible (first | assumption | apply Canon_out | apply acc_event_canon | apply setGlade_canon | apply acc_note_canon | apply acc_fail_canon | apply foldl_canon | apply foldlA_canon | apply foldlB_canon | apply foldlP_canon) | simp only [Canon_mk] | split | intro _ | dsimp only)

theorem execWld_canon {q : List Instr} (i : GI) (s : State) (h0 : Canon q s) : CanonOut q (execWld i s) := by
  unfold execWld
  repeat' (first | with_reducible (first | assumption | apply Canon_out | apply CanonOut_next | apply CanonGlade_done | apply CanonGlade_jump | apply CanonGlade_wait | apply CanonGlade_fault | apply setGlade_canon | apply closeAcc_canon | apply issue_canon) | simp only [Canon_mk] | split | intro _ | dsimp only)

theorem execMm_canon {q : List Instr} (i : GI) (s : State) (h0 : Canon q s) : CanonOut q (execMm i s) := by
  unfold execMm
  repeat' (first | with_reducible (first | assumption | apply Canon_out | apply CanonOut_next | apply CanonGlade_done | apply CanonGlade_jump | apply CanonGlade_wait | apply CanonGlade_fault | apply setGlade_canon | apply acc_fail_canon | apply startAcc_canon | apply closeAcc_canon | apply passInto_canon | apply runRows_canon | apply issue_canon) | simp only [Canon_mk] | split | intro _ | dsimp only)

theorem groupPass_canon {q : List Instr} (pl : Place) (o : GroupOp) (a b : Td) (g : Group) (kt : Nat) (st : STile) (x : Machine.Acc) (h0 : Canon q x.s) : Canon q (groupPass pl o a b g kt st x).s := by
  unfold groupPass
  repeat' (first | with_reducible (first | assumption | apply Canon_out | apply acc_fail_canon | apply passInto_canon | apply runRows_canon) | simp only [Canon_mk] | split | intro _ | dsimp only)

theorem groupRun_canon {q : List Instr} (pl : Place) (o : GroupOp) (a b : Td) (g : Group) (x : Machine.Acc) (h0 : Canon q x.s) : Canon q (groupRun pl o a b g x).s := by
  unfold groupRun
  repeat' (first | with_reducible (first | assumption | apply Canon_out | apply groupPass_canon | apply setGlade_canon | apply acc_fail_canon | apply foldl_canon | apply foldlA_canon | apply foldlB_canon | apply foldlP_canon) | simp only [Canon_mk] | split | intro _ | dsimp only)

theorem execMmG_canon {q : List Instr} (i : GI) (s : State) (h0 : Canon q s) : CanonOut q (execMmG i s) := by
  unfold execMmG
  repeat' (first | with_reducible (first | assumption | apply Canon_out | apply CanonOut_next | apply CanonGlade_done | apply CanonGlade_jump | apply CanonGlade_wait | apply CanonGlade_fault | apply startAcc_canon | apply closeAcc_canon | apply groupRun_canon | apply issue_canon | apply foldl_canon | apply foldlA_canon | apply foldlB_canon | apply foldlP_canon) | simp only [Canon_mk] | split | intro _ | dsimp only)

theorem hostWrite_canon {q : List Instr} (s : State) (a : Nat) (b : Bytes) (h0 : Canon q s) : Canon q (hostWrite s a b) := by
  unfold hostWrite
  repeat' (first | with_reducible (first | assumption | apply Canon_out | apply CanonMem_wr | apply CanonMem_hw) | simp only [Canon_mk] | split | intro _ | dsimp only)

theorem readDoorbell_canon {q : List Instr} (s : State) (r : Nat) (h0 : Canon q s) : Canon q (readDoorbell s r) := by
  unfold readDoorbell
  repeat' (first | with_reducible (first | assumption | apply Canon_out | apply setRing_canon) | simp only [Canon_mk] | split | intro _ | dsimp only)

theorem exposeLine_canon {q : List Instr} (s : State) (l : Nat) (h0 : Canon q s) : Canon q (exposeLine s l) := by
  unfold exposeLine
  repeat' (first | with_reducible (first | assumption | apply Canon_out | apply CanonMem_wr | apply CanonMem_hw) | simp only [Canon_mk] | split | intro _ | dsimp only)

theorem exposeWindow_canon {q : List Instr} (s : State) (h0 : Canon q s) : Canon q (exposeWindow s) := by
  unfold exposeWindow
  repeat' (first | with_reducible (first | assumption | apply Canon_out | apply clearLines_canon | apply exposeLine_canon | apply foldl_canon | apply foldlA_canon | apply foldlB_canon | apply foldlP_canon) | simp only [Canon_mk] | split | intro _ | dsimp only)

theorem spoilSaved_canon {q : List Instr} (s : State) (l : Nat) (h0 : Canon q s) : Canon q (spoilSaved s l) := by
  unfold spoilSaved
  repeat' (first | with_reducible (first | assumption | apply Canon_out) | simp only [Canon_mk] | split | intro _ | dsimp only)

theorem hostByte_canon {q : List Instr} (s : State) (c : Host.Cell) (h0 : Canon q s) : Canon q (hostByte s c) := by
  unfold hostByte
  repeat' (first | with_reducible (first | assumption | apply Canon_out | apply CanonMem_wr1 | apply CanonMem_hw1 | apply CanonMem_over | apply CanonMem_overh) | simp only [Canon_mk] | split | intro _ | dsimp only)

theorem hostPoke_canon {q : List Instr} (s : State) (c : Host.Cell) (h0 : Canon q s) : Canon q (hostPoke s c) := by
  unfold hostPoke
  repeat' (first | with_reducible (first | assumption | apply Canon_out | apply exposeLine_canon | apply spoilSaved_canon | apply hostByte_canon) | simp only [Canon_mk] | split | intro _ | dsimp only)

theorem execDoorbellWrite_canon {q : List Instr} (r : Fin 256) (visible : List Host.Cell) (sqTail cqHead : BitVec 32) (s : State) (h0 : Canon q s) : CanonOut q (execDoorbellWrite r visible sqTail cqHead s) := by
  unfold execDoorbellWrite
  repeat' (first | with_reducible (first | assumption | apply Canon_out | apply CanonOut_next | apply CanonMem_over | apply CanonMem_overh | apply readDoorbell_canon | apply hostWrite_canon | apply hostPoke_canon | apply foldl_canon | apply foldlA_canon | apply foldlB_canon | apply foldlP_canon) | simp only [Canon_mk] | split | intro _ | dsimp only)

theorem execDescriptorAccept_canon {q : List Instr} (r : Fin 256) (s : State) (h0 : Canon q s) : CanonOut q (execDescriptorAccept r s) := by
  unfold execDescriptorAccept
  repeat' (first | with_reducible (first | assumption | apply Canon_out | apply CanonOut_next | apply hostWrite_canon | apply setRing_canon) | simp only [Canon_mk] | split | intro _ | dsimp only)

theorem countCmd_canon {q : List Instr} (s : State) (c : Cmd) (h0 : Canon q s) : Canon q (countCmd s c) := by
  unfold countCmd
  repeat' (first | with_reducible (first | assumption | apply Canon_out) | simp only [Canon_mk] | split | intro _ | dsimp only)

theorem execCompletionRelease_canon {q : List Instr} (r : Fin 256) (s : State) (h0 : Canon q s) : CanonOut q (execCompletionRelease r s) := by
  unfold execCompletionRelease
  repeat' (first | with_reducible (first | assumption | apply Canon_out | apply CanonOut_next | apply sendVector_canon | apply hostWrite_canon | apply countCmd_canon | apply setRing_canon) | simp only [Canon_mk] | split | intro _ | dsimp only)

theorem onCmd_canon {q : List Instr} (s : State) (acc : BitVec 64) (opc : Byte) (f : Cmd → State) (hf : ∀ c, Canon q (f c)) (h : Canon q s) : CanonOut q (onCmd s acc opc f) := by
  unfold onCmd
  split
  · exact CanonOut_next h
  · exact CanonOut_next (hf _)

theorem onJob_canon {q : List Instr} (s : State) (acc : BitVec 64) (opc : Byte) (f : Cmd → Job → State) (hf : ∀ c j, Canon q (f c j)) (h : Canon q s) : CanonOut q (onJob s acc opc f) := by
  unfold onJob
  apply onCmd_canon _ _ _ _ _ h
  intro c
  split
  · exact hf _ _
  · exact finish_canon _ _ _ h

theorem execFence_canon {q : List Instr} (acc : BitVec 64) (s : State) (h0 : Canon q s) : CanonOut q (execFence acc s) := by
  unfold execFence
  repeat' (first | with_reducible (first | assumption | apply Canon_out | apply CanonOut_next | apply finish_canon | apply onCmd_canon) | simp only [Canon_mk] | split | intro _ | dsimp only)

theorem execMark_canon {q : List Instr} (acc : BitVec 64) (s : State) (h0 : Canon q s) : CanonOut q (execMark acc s) := by
  unfold execMark
  repeat' (first | with_reducible (first | assumption | apply Canon_out | apply CanonOut_next | apply finishWith_canon | apply onCmd_canon) | simp only [Canon_mk] | split | intro _ | dsimp only)

theorem setSession_canon {q : List Instr} (s : State) (role tenant : Nat) (v : Option Session) (h0 : Canon q s) : Canon q (setSession s role tenant v) := by
  unfold setSession
  repeat' (first | with_reducible (first | assumption | apply Canon_out) | simp only [Canon_mk] | split | intro _ | dsimp only)

theorem updSeq_canon {q : List Instr} (s : State) (acc : BitVec 64) (f : Sequence → Sequence) (h0 : Canon q s) : Canon q (updSeq s acc f) := by
  unfold updSeq
  repeat' (first | with_reducible (first | assumption | apply Canon_out) | simp only [Canon_mk] | split | intro _ | dsimp only)

theorem egressOne_canon {q : List Instr} (s : State) (j : Job) (acc : BitVec 64) (slot : Nat) (frameOut : Option Nat) (r : Bytes) (h0 : Canon q s) : Canon q (egressOne s j acc slot frameOut r).s := by
  unfold egressOne
  repeat' (first | with_reducible (first | assumption | apply Canon_out | apply CanonWrite_ok | apply CanonWrite_frozen | apply CanonWrite_err | apply setSession_canon | apply devWrite_canon | apply updSeq_canon) | (refine CanonWrite_get (by with_reducible assumption) ?_) | simp only [Canon_mk] | split | intro _ | dsimp only)

theorem refuseSeq_canon {q : List Instr} (s : State) (r : Bytes) (h0 : Canon q s) : Canon q (refuseSeq s r) := by
  unfold refuseSeq
  repeat' (first | with_reducible (first | assumption | apply Canon_out | apply updSeq_canon) | simp only [Canon_mk] | split | intro _ | dsimp only)

theorem egressGlade_canon {q : List Instr} (step : Bool) (acc : BitVec 64) (slot : Nat) (frameOut : Option Nat) (x : EgrRes) (g : Nat) (h0 : Canon q x.s) : Canon q (egressGlade step acc slot frameOut x g).s := by
  unfold egressGlade
  repeat' (first | with_reducible (first | assumption | apply Canon_out | apply CanonMem_wr1 | apply CanonMem_hw1 | apply CanonMem_over | apply CanonMem_overh | apply egressOne_canon | apply refuseSeq_canon | apply foldl_canon | apply foldlA_canon | apply foldlB_canon | apply foldlP_canon | apply foldlE_canon | apply foldlWk_canon) | simp only [Canon_mk] | split | intro _ | dsimp only)

theorem egress_canon {q : List Instr} (s : State) (gs : List Nat) (step : Bool) (acc : BitVec 64) (slot : Nat) (frameOut : Option Nat) (h0 : Canon q s) : Canon q (egress s gs step acc slot frameOut).s := by
  unfold egress
  repeat' (first | with_reducible (first | assumption | apply Canon_out | apply egressGlade_canon | apply foldl_canon | apply foldlA_canon | apply foldlB_canon | apply foldlP_canon | apply foldlE_canon) | simp only [Canon_mk] | split | intro _ | dsimp only)

theorem wakeDomains_canon {q : List Instr} (s : State) (gs : List Nat) (h0 : Canon q s) : Canon q (wakeDomains s gs) := by
  unfold wakeDomains
  repeat' (first | with_reducible (first | assumption | apply Canon_out | apply setPd_canon | apply foldl_canon | apply foldlA_canon | apply foldlB_canon | apply foldlP_canon) | simp only [Canon_mk] | split | intro _ | dsimp only)

theorem markThrottled_canon {q : List Instr} (s : State) (accs : List (BitVec 64)) (h0 : Canon q s) : Canon q (markThrottled s accs) := by
  unfold markThrottled
  repeat' (first | with_reducible (first | assumption | apply Canon_out) | simp only [Canon_mk] | split | intro _ | dsimp only)

theorem gladesDone_canon {q : List Instr} (s : State) (acc : BitVec 64) (h0 : Canon q s) : Canon q (gladesDone s acc) := by
  unfold gladesDone
  repeat' (first | with_reducible (first | assumption | apply Canon_out | apply releaseGlades_canon | apply stepEnded_canon | apply updCmd_canon | apply finish_canon | apply egress_canon) | simp only [Canon_mk] | split | intro _ | dsimp only)

theorem execHaltDone_canon {q : List Instr} (gi : Fin 128) (e : Engine) (s : State) (h0 : Canon q s) : CanonOut q (execHaltDone gi e s) := by
  unfold execHaltDone
  repeat' (first | with_reducible (first | assumption | apply Canon_out | apply CanonOut_next | apply gladesDone_canon | apply setGlade_canon) | simp only [Canon_mk] | split | intro _ | dsimp only)

theorem execRun_canon {q : List Instr} (acc : BitVec 64) (s : State) (h0 : Canon q s) : CanonOut q (execRun acc s) := by
  unfold execRun
  repeat' (first | with_reducible (first | assumption | apply Canon_out | apply CanonOut_next | apply startGlades_canon | apply wakeDomains_canon | apply gladesDone_canon | apply updCmd_canon | apply finish_canon | apply onJob_canon) | simp only [Canon_mk] | split | intro _ | dsimp only)

theorem frameIntake_canon {q : List Instr} (s : State) (c : Cmd) (j : Job) (h0 : Canon q s) : Canon q (frameIntake s c j) := by
  unfold frameIntake
  repeat' (first | with_reducible (first | assumption | apply Canon_out | apply updCmd_canon | apply finish_canon) | simp only [Canon_mk] | split | intro _ | dsimp only)

theorem execFrame_canon {q : List Instr} (acc : BitVec 64) (s : State) (h0 : Canon q s) : CanonOut q (execFrame acc s) := by
  unfold execFrame
  repeat' (first | with_reducible (first | assumption | apply Canon_out | apply CanonOut_next | apply frameIntake_canon | apply onJob_canon) | simp only [Canon_mk] | split | intro _ | dsimp only)

theorem execFrameRelease_canon {q : List Instr} (acc : BitVec 64) (s : State) (h0 : Canon q s) : CanonOut q (execFrameRelease acc s) := by
  unfold execFrameRelease
  repeat' (first | with_reducible (first | assumption | apply Canon_out | apply CanonOut_next | apply advanceTo_canon) | simp only [Canon_mk] | split | intro _ | dsimp only)

theorem execFrameDispatch_canon {q : List Instr} (acc : BitVec 64) (s : State) (h0 : Canon q s) : CanonOut q (execFrameDispatch acc s) := by
  unfold execFrameDispatch
  repeat' (first | with_reducible (first | assumption | apply Canon_out | apply CanonOut_next | apply startGlades_canon | apply wakeDomains_canon | apply gladesDone_canon | apply updCmd_canon | apply finish_canon | apply onJob_canon) | simp only [Canon_mk] | split | intro _ | dsimp only)

theorem execFrameProgramEnd_canon {q : List Instr} (acc : BitVec 64) (s : State) (h0 : Canon q s) : CanonOut q (execFrameProgramEnd acc s) := by
  unfold execFrameProgramEnd
  repeat' (first | with_reducible (first | assumption | apply Canon_out | apply CanonOut_next | apply finishWith_canon | apply onJob_canon) | simp only [Canon_mk] | split | intro _ | dsimp only)

theorem execStreamSet_canon {q : List Instr} (acc : BitVec 64) (s : State) (h0 : Canon q s) : CanonOut q (execStreamSet acc s) := by
  unfold execStreamSet
  repeat' (first | with_reducible (first | assumption | apply Canon_out | apply CanonOut_next | apply finish_canon | apply onJob_canon) | simp only [Canon_mk] | split | intro _ | dsimp only)

end Sys2Proof.Laws
end

