-- ==== Sys2Proof/Laws/KeepGlade.lean ====
section
/-! SUPPORT. Canonical memories and the queue, kept by the links and by every instruction of a glade. -/

namespace Sys2Proof.Laws

open Sys2Proof.Machine Sys2Proof.Safety

set_option linter.unusedTactic false
set_option linter.unreachableTactic false
set_option linter.unusedSimpArgs false

theorem updPair_canon {q : List Instr} (s : State) (a : BitVec 16) (f : Pair → Pair) (h0 : Canon q s) : Canon q (updPair s a f) := by
  unfold updPair
  repeat' (first | with_reducible (first | assumption | apply Canon_out) | simp only [Canon_mk] | split | intro _ | dsimp only)

theorem stampXfer_canon {q : List Instr} (s : State) (c : Cell) (h0 : Canon q s) : Canon q (stampXfer s c) := by
  unfold stampXfer
  repeat' (first | with_reducible (first | assumption | apply Canon_out) | simp only [Canon_mk] | split | intro _ | dsimp only)

theorem putCell_canon {q : List Instr} (s : State) (k : Nat) (c : Cell) (h0 : Canon q s) : Canon q (putCell s k c) := by
  unfold putCell
  repeat' (first | with_reducible (first | assumption | apply Canon_out | apply setPort_canon | apply emit_canon) | simp only [Canon_mk] | split | intro _ | dsimp only)

theorem pumpOne_canon {q : List Instr} (k : Nat) (x : State × List Cell) (c : Cell) (h0 : Canon q x.1) : Canon q (pumpOne k x c).1 := by
  unfold pumpOne
  repeat' (first | with_reducible (first | assumption | apply Canon_out | apply stampXfer_canon | apply setPort_canon | apply updPair_canon | apply putCell_canon) | simp only [Canon_mk] | split | intro _ | dsimp only)

theorem pump_canon {q : List Instr} (s : State) (k : Nat) (h0 : Canon q s) : Canon q (pump s k) := by
  unfold pump
  repeat' (first | with_reducible (first | assumption | apply Canon_out | apply setPort_canon | apply pumpOne_canon | apply foldl_canon | apply foldlA_canon | apply foldlB_canon | apply foldlP_canon) | (refine CanonPair_get (by with_reducible assumption) ?_) | simp only [Canon_mk] | split | intro _ | dsimp only)

theorem sendCells_canon {q : List Instr} (s : State) (k : Nat) (cs : List Cell) (h0 : Canon q s) : Canon q (sendCells s k cs) := by
  unfold sendCells
  repeat' (first | with_reducible (first | assumption | apply Canon_out | apply setPort_canon | apply pump_canon) | simp only [Canon_mk] | split | intro _ | dsimp only)

theorem idleCell_canon {q : List Instr} (s : State) (k : Nat) (h0 : Canon q s) : Canon q (idleCell s k) := by
  unfold idleCell
  repeat' (first | with_reducible (first | assumption | apply Canon_out | apply putCell_canon) | simp only [Canon_mk] | split | intro _ | dsimp only)

theorem sendCtl_canon {q : List Instr} (s : State) (p : Pair) (tag : BitVec 13) (b : Body) (h0 : Canon q s) : Canon q (sendCtl s p tag b) := by
  unfold sendCtl
  repeat' (first | with_reducible (first | assumption | apply Canon_out | apply sendCells_canon) | simp only [Canon_mk] | split | intro _ | dsimp only)

theorem toPairs_canon {q : List Instr} (s : State) (b : Body) (h0 : Canon q s) : Canon q (toPairs s b) := by
  unfold toPairs
  repeat' (first | with_reducible (first | assumption | apply Canon_out | apply sendCtl_canon | apply foldl_canon | apply foldlA_canon | apply foldlB_canon | apply foldlP_canon) | simp only [Canon_mk] | split | intro _ | dsimp only)

theorem sendBindings_canon {q : List Instr} (s : State) (h0 : Canon q s) : Canon q (sendBindings s) := by
  unfold sendBindings
  repeat' (first | with_reducible (first | assumption | apply Canon_out | apply toPairs_canon) | simp only [Canon_mk] | split | intro _ | dsimp only)

theorem sendMasks_canon {q : List Instr} (s : State) (h0 : Canon q s) : Canon q (sendMasks s) := by
  unfold sendMasks
  repeat' (first | with_reducible (first | assumption | apply Canon_out | apply toPairs_canon) | simp only [Canon_mk] | split | intro _ | dsimp only)

theorem linkTake_canon {q : List Instr} (s : State) (k : Nat) (seq : BitVec 16) (h0 : Canon q s) : Canon q (linkTake s k seq).1 := by
  unfold linkTake
  repeat' (first | with_reducible (first | assumption | apply Canon_out | apply setPort_canon) | simp only [Canon_mk] | split | intro _ | dsimp only)

theorem freeBuf_canon {q : List Instr} (s : State) (k vc : Nat) (h0 : Canon q s) : Canon q (freeBuf s k vc) := by
  unfold freeBuf
  repeat' (first | with_reducible (first | assumption | apply Canon_out | apply setPort_canon) | simp only [Canon_mk] | split | intro _ | dsimp only)

theorem arrive_canon {q : List Instr} (s : State) (k : Nat) (h : CellHdr) (z : Bool) (f : State → State) (hf : ∀ t, Canon q t → Canon q (f t)) (h0 : Canon q s) : Canon q (arrive s k h z f) := by
  unfold arrive
  dsimp only
  repeat' (first | with_reducible assumption | with_reducible apply hf | with_reducible apply linkTake_canon | with_reducible apply freeBuf_canon | with_reducible apply Canon_out | simp only [Canon_mk] | with_reducible apply setPort_canon | split)

theorem authFails_canon {q : List Instr} (s : State) (k : Nat) (h0 : Canon q s) : Canon q (authFails s k) := by
  unfold authFails
  repeat' (first | with_reducible (first | assumption | apply Canon_out | apply setPort_canon) | simp only [Canon_mk] | split | intro _ | dsimp only)

theorem takeCell_canon {q : List Instr} (s : State) (k : Nat) (h : CellHdr) (z : Bool) (f : State → Pair → State) (hf : ∀ t p, Canon q t → Canon q (f t p)) (h0 : Canon q s) : Canon q (takeCell s k h z f) := by
  unfold takeCell
  apply arrive_canon _ _ _ _ _ _ h0
  intro t ht
  dsimp only
  repeat' (first | with_reducible assumption | with_reducible apply hf | with_reducible apply authFails_canon | with_reducible apply Canon_out | simp only [Canon_mk] | with_reducible apply updPair_canon | split)

theorem answer_canon {q : List Instr} (s : State) (k : Nat) (vc : BitVec 2) (hh : CellHdr) (cidx : BitVec 19) (b : Body) (h0 : Canon q s) : Canon q (answer s k vc hh cidx b) := by
  unfold answer
  repeat' (first | with_reducible (first | assumption | apply Canon_out | apply sendCells_canon) | simp only [Canon_mk] | split | intro _ | dsimp only)

theorem fillIdle_canon {q : List Instr} (s : State) (k : Nat) (h0 : Canon q s) : Canon q (fillIdle s k) := by
  unfold fillIdle
  repeat' (first | with_reducible (first | assumption | apply Canon_out | apply idleCell_canon | apply foldl_canon | apply foldlA_canon | apply foldlB_canon | apply foldlP_canon) | simp only [Canon_mk] | split | intro _ | dsimp only)

theorem execLinkCellSend_canon {q : List Instr} (k : Fin 32) (s : State) (h0 : Canon q s) : CanonOut q (execLinkCellSend k s) := by
  unfold execLinkCellSend
  repeat' (first | with_reducible (first | assumption | apply Canon_out | apply CanonOut_next | apply fillIdle_canon | apply setPort_canon | apply emit_canon | apply foldl_canon | apply foldlA_canon | apply foldlB_canon | apply foldlP_canon) | simp only [Canon_mk] | split | intro _ | dsimp only)

theorem replayFrom_canon {q : List Instr} (s : State) (k : Nat) (n : BitVec 16) (h0 : Canon q s) : Canon q (replayFrom s k n) := by
  unfold replayFrom
  repeat' (first | with_reducible (first | assumption | apply Canon_out | apply setPort_canon | apply emit_canon | apply foldl_canon | apply foldlA_canon | apply foldlB_canon | apply foldlP_canon) | simp only [Canon_mk] | split | intro _ | dsimp only)

theorem execSlotLost_canon {q : List Instr} (x : LostSlot) (s : State) (h0 : Canon q s) : CanonOut q (execSlotLost x s) := by
  unfold execSlotLost
  repeat' (first | with_reducible (first | assumption | apply Canon_out | apply CanonOut_next | apply setPort_canon) | simp only [Canon_mk] | split | intro _ | dsimp only)

theorem execWavelengthLockLost_canon {q : List Instr} (k : Fin 32) (w : Fin 8) (s : State) (h0 : Canon q s) : CanonOut q (execWavelengthLockLost k w s) := by
  unfold execWavelengthLockLost
  repeat' (first | with_reducible (first | assumption | apply Canon_out | apply CanonOut_next | apply setPort_canon) | simp only [Canon_mk] | split | intro _ | dsimp only)

theorem execWavelengthRelock_canon {q : List Instr} (k : Fin 32) (s : State) (h0 : Canon q s) : CanonOut q (execWavelengthRelock k s) := by
  unfold execWavelengthRelock
  repeat' (first | with_reducible (first | assumption | apply Canon_out | apply CanonOut_next | apply setPort_canon) | simp only [Canon_mk] | split | intro _ | dsimp only)

theorem execPortUp_canon {q : List Instr} (k : Fin 32) (s : State) (h0 : Canon q s) : CanonOut q (execPortUp k s) := by
  unfold execPortUp
  repeat' (first | with_reducible (first | assumption | apply Canon_out | apply CanonOut_next | apply sendMasks_canon | apply setPort_canon) | simp only [Canon_mk] | split | intro _ | dsimp only)

theorem startExchange_canon {q : List Instr} (s : State) (a : BitVec 16) (e : Nat) (init : Bool) (h0 : Canon q s) : Canon q (startExchange s a e init) := by
  unfold startExchange
  repeat' (first | with_reducible (first | assumption | apply Canon_out | apply drawRandom_canon | apply updPair_canon | apply sendCtl_canon) | simp only [Canon_mk] | split | intro _ | dsimp only)

theorem bindPair_canon {q : List Instr} (s : State) (a : BitVec 16) (h0 : Canon q s) : Canon q (bindPair s a) := by
  unfold bindPair
  repeat' (first | with_reducible (first | assumption | apply Canon_out | apply sendCtl_canon) | simp only [Canon_mk] | split | intro _ | dsimp only)

theorem dropPair_canon {q : List Instr} (s : State) (a : BitVec 16) (h0 : Canon q s) : Canon q (dropPair s a) := by
  unfold dropPair
  repeat' (first | with_reducible (first | assumption | apply Canon_out) | simp only [Canon_mk] | split | intro _ | dsimp only)

theorem execPairRekey_canon {q : List Instr} (a : BitVec 16) (s : State) (h0 : Canon q s) : CanonOut q (execPairRekey a s) := by
  unfold execPairRekey
  repeat' (first | with_reducible (first | assumption | apply Canon_out | apply CanonOut_next | apply startExchange_canon) | simp only [Canon_mk] | split | intro _ | dsimp only)

theorem execOldKeyDiscard_canon {q : List Instr} (a : BitVec 16) (s : State) (h0 : Canon q s) : CanonOut q (execOldKeyDiscard a s) := by
  unfold execOldKeyDiscard
  repeat' (first | with_reducible (first | assumption | apply Canon_out | apply CanonOut_next | apply advanceTo_canon | apply updPair_canon) | simp only [Canon_mk] | split | intro _ | dsimp only)

theorem execNop_canon {q : List Instr} (i : GI) (s : State) (h0 : Canon q s) : CanonOut q (execNop i s) := by
  unfold execNop
  repeat' (first | with_reducible (first | assumption | apply Canon_out | apply CanonOut_next | apply CanonGlade_done | apply CanonGlade_jump | apply CanonGlade_wait | apply CanonGlade_fault | apply issue_canon) | simp only [Canon_mk] | split | intro _ | dsimp only)

theorem execHalt_canon {q : List Instr} (i : GI) (s : State) (h0 : Canon q s) : CanonOut q (execHalt i s) := by
  unfold execHalt
  repeat' (first | with_reducible (first | assumption | apply Canon_out | apply CanonOut_next | apply CanonGlade_done | apply CanonGlade_jump | apply CanonGlade_wait | apply CanonGlade_fault | apply setCur_canon | apply issue_canon) | simp only [Canon_mk] | split | intro _ | dsimp only)

theorem execBr_canon {q : List Instr} (i : GI) (s : State) (h0 : Canon q s) : CanonOut q (execBr i s) := by
  unfold execBr
  repeat' (first | with_reducible (first | assumption | apply Canon_out | apply CanonOut_next | apply CanonGlade_done | apply CanonGlade_jump | apply CanonGlade_wait | apply CanonGlade_fault | apply issue_canon) | simp only [Canon_mk] | split | intro _ | dsimp only)

theorem execLoop_canon {q : List Instr} (i : GI) (s : State) (h0 : Canon q s) : CanonOut q (execLoop i s) := by
  unfold execLoop
  repeat' (first | with_reducible (first | assumption | apply Canon_out | apply CanonOut_next | apply CanonGlade_done | apply CanonGlade_jump | apply CanonGlade_wait | apply CanonGlade_fault | apply setCur_canon | apply issue_canon) | simp only [Canon_mk] | split | intro _ | dsimp only)

theorem execCall_canon {q : List Instr} (i : GI) (s : State) (h0 : Canon q s) : CanonOut q (execCall i s) := by
  unfold execCall
  repeat' (first | with_reducible (first | assumption | apply Canon_out | apply CanonOut_next | apply CanonGlade_done | apply CanonGlade_jump | apply CanonGlade_wait | apply CanonGlade_fault | apply setCur_canon | apply issue_canon) | simp only [Canon_mk] | split | intro _ | dsimp only)

theorem execRet_canon {q : List Instr} (i : GI) (s : State) (h0 : Canon q s) : CanonOut q (execRet i s) := by
  unfold execRet
  repeat' (first | with_reducible (first | assumption | apply Canon_out | apply CanonOut_next | apply CanonGlade_done | apply CanonGlade_jump | apply CanonGlade_wait | apply CanonGlade_fault | apply setCur_canon | apply issue_canon) | simp only [Canon_mk] | split | intro _ | dsimp only)

theorem execMeet_canon {q : List Instr} (i : GI) (s : State) (h0 : Canon q s) : CanonOut q (execMeet i s) := by
  unfold execMeet
  repeat' (first | with_reducible (first | assumption | apply Canon_out | apply CanonOut_next | apply CanonGlade_done | apply CanonGlade_jump | apply CanonGlade_wait | apply CanonGlade_fault | apply bumpCounter_canon | apply noteFrozen_canon | apply loseWrite_canon | apply setCur_canon | apply issue_canon) | simp only [Canon_mk] | split | intro _ | dsimp only)

theorem execSignal_canon {q : List Instr} (i : GI) (s : State) (h0 : Canon q s) : CanonOut q (execSignal i s) := by
  unfold execSignal
  repeat' (first | with_reducible (first | assumption | apply Canon_out | apply CanonOut_next | apply CanonGlade_done | apply CanonGlade_jump | apply CanonGlade_wait | apply CanonGlade_fault | apply setGlade_canon | apply setCur_canon | apply issue_canon) | simp only [Canon_mk] | split | intro _ | dsimp only)

theorem execWait_canon {q : List Instr} (i : GI) (s : State) (h0 : Canon q s) : CanonOut q (execWait i s) := by
  unfold execWait
  repeat' (first | with_reducible (first | assumption | apply Canon_out | apply CanonOut_next | apply CanonGlade_done | apply CanonGlade_jump | apply CanonGlade_wait | apply CanonGlade_fault | apply setGlade_canon | apply setCur_canon | apply issue_canon) | simp only [Canon_mk] | split | intro _ | dsimp only)

theorem execMov_canon {q : List Instr} (i : GI) (s : State) (h0 : Canon q s) : CanonOut q (execMov i s) := by
  unfold execMov
  repeat' (first | with_reducible (first | assumption | apply Canon_out | apply CanonOut_next | apply CanonGlade_done | apply CanonGlade_jump | apply CanonGlade_wait | apply CanonGlade_fault | apply setCur_canon | apply issue_canon) | simp only [Canon_mk] | split | intro _ | dsimp only)

theorem execAlu_canon {q : List Instr} (i : GI) (s : State) (h0 : Canon q s) : CanonOut q (execAlu i s) := by
  unfold execAlu
  repeat' (first | with_reducible (first | assumption | apply Canon_out | apply CanonOut_next | apply CanonGlade_done | apply CanonGlade_jump | apply CanonGlade_wait | apply CanonGlade_fault | apply setCur_canon | apply issue_canon) | simp only [Canon_mk] | split | intro _ | dsimp only)

theorem execCmp_canon {q : List Instr} (i : GI) (s : State) (h0 : Canon q s) : CanonOut q (execCmp i s) := by
  unfold execCmp
  repeat' (first | with_reducible (first | assumption | apply Canon_out | apply CanonOut_next | apply CanonGlade_done | apply CanonGlade_jump | apply CanonGlade_wait | apply CanonGlade_fault | apply setCur_canon | apply issue_canon) | simp only [Canon_mk] | split | intro _ | dsimp only)

theorem execTdset_canon {q : List Instr} (i : GI) (s : State) (h0 : Canon q s) : CanonOut q (execTdset i s) := by
  unfold execTdset
  repeat' (first | with_reducible (first | assumption | apply Canon_out | apply CanonOut_next | apply CanonGlade_done | apply CanonGlade_jump | apply CanonGlade_wait | apply CanonGlade_fault | apply setCur_canon | apply issue_canon) | simp only [Canon_mk] | split | intro _ | dsimp only)

theorem execTdadd_canon {q : List Instr} (i : GI) (s : State) (h0 : Canon q s) : CanonOut q (execTdadd i s) := by
  unfold execTdadd
  repeat' (first | with_reducible (first | assumption | apply Canon_out | apply CanonOut_next | apply CanonGlade_done | apply CanonGlade_jump | apply CanonGlade_wait | apply CanonGlade_fault | apply setCur_canon | apply issue_canon) | simp only [Canon_mk] | split | intro _ | dsimp only)

theorem execTdcpy_canon {q : List Instr} (i : GI) (s : State) (h0 : Canon q s) : CanonOut q (execTdcpy i s) := by
  unfold execTdcpy
  repeat' (first | with_reducible (first | assumption | apply Canon_out | apply CanonOut_next | apply CanonGlade_done | apply CanonGlade_jump | apply CanonGlade_wait | apply CanonGlade_fault | apply setCur_canon | apply issue_canon) | simp only [Canon_mk] | split | intro _ | dsimp only)

theorem execLds_canon {q : List Instr} (i : GI) (s : State) (h0 : Canon q s) : CanonOut q (execLds i s) := by
  unfold execLds
  repeat' (first | with_reducible (first | assumption | apply Canon_out | apply CanonOut_next | apply CanonGlade_done | apply CanonGlade_jump | apply CanonGlade_wait | apply CanonGlade_fault | apply setCur_canon | apply issue_canon) | simp only [Canon_mk] | split | intro _ | dsimp only)

theorem execSts_canon {q : List Instr} (i : GI) (s : State) (h0 : Canon q s) : CanonOut q (execSts i s) := by
  unfold execSts
  repeat' (first | with_reducible (first | assumption | apply Canon_out | apply CanonOut_next | apply CanonGlade_done | apply CanonGlade_jump | apply CanonGlade_wait | apply CanonGlade_fault | apply noteFrozen_canon | apply spanStore_canon | apply issue_canon) | simp only [Canon_mk] | split | intro _ | dsimp only)

theorem moveStores_canon {q : List Instr} (s : State) (pl : Place) (l : List (Move × Bytes × Tag)) (h0 : Canon q s) : Canon q (moveStores s pl l) := by
  unfold moveStores
  repeat' (first | with_reducible (first | assumption | apply Canon_out | apply spanStore_canon | apply foldl_canon | apply foldlA_canon | apply foldlB_canon | apply foldlP_canon) | simp only [Canon_mk] | split | intro _ | dsimp only)

theorem moveStep_canon {q : List Instr} (pl : Place) (ms : List Move) (a : Machine.Acc) (h0 : Canon q a.s) : Canon q (moveStep pl ms a).s := by
  unfold moveStep
  repeat' (first | with_reducible (first | assumption | apply Canon_out | apply moveStores_canon | apply acc_fail_canon) | simp only [Canon_mk] | split | intro _ | dsimp only)

theorem cacheLine_canon {q : List Instr} (j : Job) (s : State) (a : Nat) (h0 : Canon q s) : Canon q (cacheLine j s a) := by
  unfold cacheLine
  repeat' (first | with_reducible (first | assumption | apply Canon_out | apply adoptLine_canon | apply useKey_canon) | simp only [Canon_mk] | split | intro _ | dsimp only)

theorem cacheLines_canon {q : List Instr} (s : State) (j : Job) (gi : Nat) (tile : Bool) (l : List Nat) (h0 : Canon q s) : Canon q (cacheLines s j gi tile l) := by
  unfold cacheLines
  repeat' (first | with_reducible (first | assumption | apply Canon_out | apply cacheLine_canon | apply setGlade_canon | apply foldl_canon | apply foldlA_canon | apply foldlB_canon | apply foldlP_canon) | simp only [Canon_mk] | split | intro _ | dsimp only)

theorem moveTile_canon {q : List Instr} (i : GI) (store : Bool) (s : State) (h0 : Canon q s) : CanonGlade q (moveTile i store s) := by
  unfold moveTile
  repeat' (first | with_reducible (first | assumption | apply Canon_out | apply CanonGlade_done | apply CanonGlade_jump | apply CanonGlade_wait | apply CanonGlade_fault | apply cacheLines_canon | apply runSteps_canon | apply startAcc_canon | apply closeAcc_canon | apply moveStep_canon) | simp only [Canon_mk] | split | intro _ | dsimp only)

theorem execLdT_canon {q : List Instr} (i : GI) (s : State) (h0 : Canon q s) : CanonOut q (execLdT i s) := by
  unfold execLdT
  repeat' (first | with_reducible (first | assumption | apply Canon_out | apply CanonOut_next | apply CanonGlade_done | apply CanonGlade_jump | apply CanonGlade_wait | apply CanonGlade_fault | apply moveTile_canon | apply issue_canon) | simp only [Canon_mk] | split | intro _ | dsimp only)

theorem execStT_canon {q : List Instr} (i : GI) (s : State) (h0 : Canon q s) : CanonOut q (execStT i s) := by
  unfold execStT
  repeat' (first | with_reducible (first | assumption | apply Canon_out | apply CanonOut_next | apply CanonGlade_done | apply CanonGlade_jump | apply CanonGlade_wait | apply CanonGlade_fault | apply moveTile_canon | apply issue_canon) | simp only [Canon_mk] | split | intro _ | dsimp only)

theorem blankRow_canon {q : List Instr} (pl : Place) (t : Td) (r : Nat) (a : Machine.Acc) (h0 : Canon q a.s) : Canon q (blankRow pl t r a).s := by
  unfold blankRow
  repeat' (first | with_reducible (first | assumption | apply Canon_out | apply CanonRow_ok | apply CanonRow_frozen | apply CanonRow_err | apply writeRow_canon | apply acc_took_canon) | (refine CanonRow_get (by with_reducible assumption) ?_) | simp only [Canon_mk] | split | intro _ | dsimp only)

theorem gatherRow_canon {q : List Instr} (pl : Place) (dst src : Td) (list r : Nat) (a : Machine.Acc) (h0 : Canon q a.s) : Canon q (gatherRow pl dst src list r a).s := by
  unfold gatherRow
  repeat' (first | with_reducible (first | assumption | apply Canon_out | apply acc_fail_canon | apply moveStep_canon | apply blankRow_canon | apply foldl_canon | apply foldlA_canon | apply foldlB_canon | apply foldlP_canon) | simp only [Canon_mk] | split | intro _ | dsimp only)

theorem execLdG_canon {q : List Instr} (i : GI) (s : State) (h0 : Canon q s) : CanonOut q (execLdG i s) := by
  unfold execLdG
  repeat' (first | with_reducible (first | assumption | apply Canon_out | apply CanonOut_next | apply CanonGlade_done | apply CanonGlade_jump | apply CanonGlade_wait | apply CanonGlade_fault | apply cacheLines_canon | apply gatherRow_canon | apply startAcc_canon | apply closeAcc_canon | apply runRows_canon | apply issue_canon) | simp only [Canon_mk] | split | intro _ | dsimp only)

theorem execPf_canon {q : List Instr} (i : GI) (s : State) (h0 : Canon q s) : CanonOut q (execPf i s) := by
  unfold execPf
  repeat' (first | with_reducible (first | assumption | apply Canon_out | apply CanonOut_next | apply CanonGlade_done | apply CanonGlade_jump | apply CanonGlade_wait | apply CanonGlade_fault | apply cacheLines_canon | apply issue_canon) | simp only [Canon_mk] | split | intro _ | dsimp only)

theorem writeOut_canon {q : List Instr} (s : State) (pl : Place) (t : Td) (r : Nat) (o : RowOut) (tg : Tag) (h0 : Canon q s) : CanonRow q (writeOut s pl t r o tg) := by
  unfold writeOut
  repeat' (first | with_reducible (first | assumption | apply Canon_out | apply CanonRow_ok | apply CanonRow_frozen | apply CanonRow_err | apply writePart_canon | apply writeRow_canon) | (refine CanonRow_get (by with_reducible assumption) ?_) | simp only [Canon_mk] | split | intro _ | dsimp only)

theorem acc_wrote_canon {q : List Instr} (a : Machine.Acc) (o : RowOut) (r : RowRes) (hr : CanonRow q r) (h0 : Canon q a.s) : Canon q (Machine.Acc.wrote a o r).s := by
  unfold Machine.Acc.wrote
  repeat' (first | with_reducible (first | assumption | apply Canon_out | apply acc_note_canon | apply acc_took_canon) | simp only [Canon_mk] | split | intro _ | dsimp only)

theorem convRow_canon {q : List Instr} (pl : Place) (o : CvtOp) (a b : Td) (r : Nat) (x : Machine.Acc) (h0 : Canon q x.s) : Canon q (convRow pl o a b r x).s := by
  unfold convRow
  repeat' (first | with_reducible (first | assumption | apply Canon_out | apply CanonRow_ok | apply CanonRow_frozen | apply CanonRow_err | apply acc_event_canon | apply acc_wrote_canon | apply setGlade_canon | apply acc_note_canon | apply acc_fail_canon | apply writeOut_canon | apply foldl_canon | apply foldlA_canon | apply foldlB_canon | apply foldlP_canon) | (refine CanonRow_get (by with_reducible assumption) ?_) | simp only [Canon_mk] | split | intro _ | dsimp only)

theorem execCvt_canon {q : List Instr} (i : GI) (s : State) (h0 : Canon q s) : CanonOut q (execCvt i s) := by
  unfold execCvt
  repeat' (first | with_reducible (first | assumption | apply Canon_out | apply CanonOut_next | apply CanonGlade_done | apply CanonGlade_jump | apply CanonGlade_wait | apply CanonGlade_fault | apply setGlade_canon | apply startAcc_canon | apply closeAcc_canon | apply runRows_canon | apply convRow_canon | apply issue_canon) | simp only [Canon_mk] | split | intro _ | dsimp only)

theorem execStatRd_canon {q : List Instr} (i : GI) (s : State) (h0 : Canon q s) : CanonOut q (execStatRd i s) := by
  unfold execStatRd
  repeat' (first | with_reducible (first | assumption | apply Canon_out | apply CanonOut_next | apply CanonRow_ok | apply CanonRow_frozen | apply CanonRow_err | apply CanonGlade_done | apply CanonGlade_jump | apply CanonGlade_wait | apply CanonGlade_fault | apply writeRow_canon | apply acc_took_canon | apply closeAcc_canon | apply issue_canon) | (refine CanonRow_get (by with_reducible assumption) ?_) | simp only [Canon_mk] | split | intro _ | dsimp only)

theorem vecWrite_canon {q : List Instr} (pl : Place) (t : Td) (r : Nat) (vals : List (BitVec 32)) (sel : Nat → Bool) (tg : Tag) (x : Machine.Acc) (h0 : Canon q x.s) : Canon q (vecWrite pl t r vals sel tg x).s := by
  unfold vecWrite
  repeat' (first | with_reducible (first | assumption | apply Canon_out | apply CanonRow_ok | apply CanonRow_frozen | apply CanonRow_err | apply acc_wrote_canon | apply acc_note_canon | apply acc_fail_canon | apply writeOut_canon) | (refine CanonRow_get (by with_reducible assumption) ?_) | simp only [Canon_mk] | split | intro _ | dsimp only)

theorem vopRow_canon {q : List Instr} (pl : Place) (f : BitVec 32 → BitVec 32 → BitVec 32 → R32) (fma : Bool) (dst a : Td) (b : BSrc) (r : Nat) (x : Machine.Acc) (h0 : Canon q x.s) : Canon q (vopRow pl f fma dst a b r x).s := by
  unfold vopRow
  repeat' (first | with_reducible (first | assumption | apply Canon_out | apply acc_event_canon | apply acc_note_canon | apply acc_fail_canon | apply vecWrite_canon | apply foldl_canon | apply foldlA_canon | apply foldlB_canon | apply foldlP_canon) | simp only [Canon_mk] | split | intro _ | dsimp only)

theorem reduceRow_canon {q : List Instr} (pl : Place) (f : List (BitVec 32) → R32) (dst a : Td) (r : Nat) (x : Machine.Acc) (h0 : Canon q x.s) : Canon q (reduceRow pl f dst a r x).s := by
  unfold reduceRow
  repeat' (first | with_reducible (first | assumption | apply Canon_out | apply acc_event_canon | apply acc_note_canon | apply acc_fail_canon | apply vecWrite_canon) | simp only [Canon_mk] | split | intro _ | dsimp only)

theorem execVop_canon {q : List Instr} (i : GI) (s : State) (h0 : Canon q s) : CanonOut q (execVop i s) := by
  unfold execVop
  repeat' (first | with_reducible (first | assumption | apply Canon_out | apply CanonOut_next | apply CanonGlade_done | apply CanonGlade_jump | apply CanonGlade_wait | apply CanonGlade_fault | apply reduceRow_canon | apply startAcc_canon | apply closeAcc_canon | apply runRows_canon | apply vopRow_canon | apply issue_canon) | simp only [Canon_mk] | split | intro _ | dsimp only)

theorem retagRow_canon {q : List Instr} (s : State) (pl : Place) (t : Td) (r : Nat) (tg : Tag) (h0 : Canon q s) : Canon q (retagRow s pl t r tg) := by
  unfold retagRow
  repeat' (first | with_reducible (first | assumption | apply Canon_out | apply setGlade_canon | apply setTag_canon | apply foldl_canon | apply foldlA_canon | apply foldlB_canon | apply foldlP_canon) | simp only [Canon_mk] | split | intro _ | dsimp only)

theorem selRow_canon {q : List Instr} (pl : Place) (a b c : Td) (r : Nat) (x : Machine.Acc) (h0 : Canon q x.s) : Canon q (selRow pl a b c r x).s := by
  unfold selRow
  repeat' (first | with_reducible (first | assumption | apply Canon_out | apply acc_note_canon | apply acc_fail_canon | apply vecWrite_canon | apply retagRow_canon) | simp only [Canon_mk] | split | intro _ | dsimp only)

theorem execSel_canon {q : List Instr} (i : GI) (s : State) (h0 : Canon q s) : CanonOut q (execSel i s) := by
  unfold execSel
  repeat' (first | with_reducible (first | assumption | apply Canon_out | apply CanonOut_next | apply CanonGlade_done | apply CanonGlade_jump | apply CanonGlade_wait | apply CanonGlade_fault | apply startAcc_canon | apply closeAcc_canon | apply runRows_canon | apply selRow_canon | apply issue_canon) | simp only [Canon_mk] | split | intro _ | dsimp only)

theorem execSfu_canon {q : List Instr} (i : GI) (s : State) (h0 : Canon q s) : CanonOut q (execSfu i s) := by
  unfold execSfu
  repeat' (first | with_reducible (first | assumption | apply Canon_out | apply CanonOut_next | apply CanonGlade_done | apply CanonGlade_jump | apply CanonGlade_wait | apply CanonGlade_fault | apply startAcc_canon | apply closeAcc_canon | apply runRows_canon | apply vopRow_canon | apply issue_canon) | simp only [Canon_mk] | split | intro _ | dsimp only)

theorem matchEntry_canon {q : List Instr} (s : State) (es : List Group) (id : Nat) (h0 : Canon q s) : Canon q (matchEntry s es id).1 := by
  unfold matchEntry
  repeat' (first | with_reducible (first | assumption | apply Canon_out) | simp only [Canon_mk] | split | intro _ | dsimp only)

theorem dispatchOne_canon {q : List Instr} (pl : Place) (o : RouteOp) (r n : Nat) (sel : Nat × BitVec 32) (x : Machine.Acc) (h0 : Canon q x.s) : Canon q (dispatchOne pl o r n sel x).a.s := by
  unfold dispatchOne
  repeat' (first | with_reducible (first | assumption | apply Canon_out | apply matchEntry_canon | apply spanStore_canon | apply acc_fail_canon) | (refine CanonPair_get (by with_reducible assumption) ?_) | simp only [Canon_mk] | split | intro _ | dsimp only)

theorem dispatchRow_canon {q : List Instr} (pl : Place) (o : RouteOp) (r : Nat) (sels : List (Nat × BitVec 32)) (x : Machine.Acc) (h0 : Canon q x.s) : Canon q (dispatchRow pl o r sels x).1.s := by
  unfold dispatchRow
  repeat' (first | with_reducible (first | assumption | apply Canon_out | apply dispatchOne_canon | apply foldl_canon | apply foldlA_canon | apply foldlB_canon | apply foldlP_canon) | simp only [Canon_mk] | split | intro _ | dsimp only)

theorem routeRow_canon {q : List Instr} (pl : Place) (o : RouteOp) (a b c : Td) (r : Nat) (x : Machine.Acc × List Nat × Bool) (h0 : Canon q x.1.s) : Canon q (routeRow pl o a b c r x).1.s := by
  unfold routeRow
  repeat' (first | with_reducible (first | assumption | apply Canon_out | apply CanonRow_ok | apply CanonRow_frozen | apply CanonRow_err | apply dispatchRow_canon | apply acc_event_canon | apply writeRow_canon | apply acc_note_canon | apply acc_fail_canon | apply acc_took_canon) | (refine CanonRow_get (by with_reducible assumption) ?_) | simp only [Canon_mk] | split | intro _ | dsimp only)

theorem fcastBump_canon {q : List Instr} (s : State) (a gen : Nat) (h0 : Canon q s) : Canon q (fcastBump s a gen) := by
  unfold fcastBump
  repeat' (first | with_reducible (first | assumption | apply Canon_out | apply hubWrite_canon) | simp only [Canon_mk] | split | intro _ | dsimp only)

theorem fcastCheck_canon {q : List Instr} (s : State) (j : Job) (acc : BitVec 64) (o : RouteOp) (es : List Nat) (h0 : Canon q s) : Canon q (fcastCheck s j acc o es) := by
  unfold fcastCheck
  repeat' (first | with_reducible (first | assumption | apply Canon_out | apply fcastBump_canon | apply foldl_canon | apply foldlA_canon | apply foldlB_canon | apply foldlP_canon) | simp only [Canon_mk] | split | intro _ | dsimp only)

theorem routeStep_canon {q : List Instr} {α : Type} (f : Machine.Acc × α → Machine.Acc × α) (x : Machine.Acc × α) (hf : ∀ x, Canon q x.1.s → Canon q (f x).1.s) (h : Canon q x.1.s) : Canon q (routeStep f x).1.s := by
  unfold routeStep
  split
  · exact h
  · split
    · exact h
    · split
      · exact h
      · exact hf _ h

theorem keepRouted_canon {q : List Instr} (i : GI) (x : Machine.Acc) (es : List Nat) (h0 : Canon q x.s) : Canon q (keepRouted i x es) := by
  unfold keepRouted
  repeat' (first | with_reducible (first | assumption | apply Canon_out | apply setCur_canon) | simp only [Canon_mk] | split | intro _ | dsimp only)

theorem execRoute_canon {q : List Instr} (i : GI) (s : State) (h0 : Canon q s) : CanonOut q (execRoute i s) := by
  unfold execRoute
  repeat' (first | with_reducible (first | assumption | apply Canon_out | apply CanonOut_next | apply CanonGlade_done | apply CanonGlade_jump | apply CanonGlade_wait | apply CanonGlade_fault | apply fcastCheck_canon | apply keepRouted_canon | apply routeStep_canon | apply startAcc_canon | apply closeAcc_canon | apply routeRow_canon | apply updCmd_canon | apply issue_canon | apply foldl_canon | apply foldlA_canon | apply foldlB_canon | apply foldlP_canon) | simp only [Canon_mk] | split | intro _ | dsimp only)

theorem execRouteF_canon {q : List Instr} (i : GI) (s : State) (h0 : Canon q s) : CanonOut q (execRouteF i s) := by
  unfold execRouteF
  repeat' (first | with_reducible (first | assumption | apply Canon_out | apply CanonOut_next | apply CanonMem_filter | apply CanonGlade_done | apply CanonGlade_jump | apply CanonGlade_wait | apply CanonGlade_fault | apply cacheLines_canon | apply keepRouted_canon | apply routeStep_canon | apply hubWrite_canon | apply acc_note_canon | apply acc_fail_canon | apply startAcc_canon | apply closeAcc_canon | apply issue_canon | apply foldl_canon | apply foldlA_canon | apply foldlB_canon | apply foldlP_canon) | simp only [Canon_mk] | split | intro _ | dsimp only)

theorem redLine_canon {q : List Instr} (pl : Place) (p : RedPart) (r c0 n : Nat) (vals : List (BitVec 32)) (tag : Option Tag) (x : Machine.Acc) (h0 : Canon q x.s) : Canon q (redLine pl p r c0 n vals tag x).s := by
  unfold redLine
  repeat' (first | with_reducible (first | assumption | apply Canon_out | apply CanonMem_filter | apply CanonWrite_ok | apply CanonWrite_frozen | apply CanonWrite_err | apply loseWrite_canon | apply acc_event_canon | apply devWrite_canon | apply acc_note_canon | apply acc_fail_canon | apply foldl_canon | apply foldlA_canon | apply foldlB_canon | apply foldlP_canon) | (refine CanonWrite_get (by with_reducible assumption) ?_) | simp only [Canon_mk] | split | intro _ | dsimp only)

theorem redAddRow_canon {q : List Instr} (pl : Place) (p : RedPart) (r : Nat) (row : List (BitVec 32) × List (Option Tag)) (x : Machine.Acc) (h0 : Canon q x.s) : Canon q (redAddRow pl p r row x).s := by
  unfold redAddRow
  repeat' (first | with_reducible (first | assumption | apply Canon_out | apply acc_note_canon | apply redLine_canon | apply foldl_canon | apply foldlA_canon | apply foldlB_canon | apply foldlP_canon) | simp only [Canon_mk] | split | intro _ | dsimp only)

theorem redApply_canon {q : List Instr} (pl : Place) (p : RedPart) (x : Machine.Acc) (h0 : Canon q x.s) : Canon q (redApply pl p x).s := by
  unfold redApply
  repeat' (first | with_reducible (first | assumption | apply Canon_out | apply redAddRow_canon | apply foldl_canon | apply foldlA_canon | apply foldlB_canon | apply foldlP_canon) | simp only [Canon_mk] | split | intro _ | dsimp only)

theorem redArrive_canon {q : List Instr} (pl : Place) (p : RedPart) (src : Td) (x : Machine.Acc) (h0 : Canon q x.s) : Canon q (redArrive pl p src x).s := by
  unfold redArrive
  repeat' (first | with_reducible (first | assumption | apply Canon_out | apply redAddRow_canon | apply acc_fail_canon | apply runRows_canon) | simp only [Canon_mk] | split | intro _ | dsimp only)

theorem setRed_canon {q : List Instr} (s : State) (base : BitVec 48) (v : Option Red) (h0 : Canon q s) : Canon q (setRed s base v) := by
  unfold setRed
  repeat' (first | with_reducible (first | assumption | apply Canon_out) | simp only [Canon_mk] | split | intro _ | dsimp only)

theorem redClose_canon {q : List Instr} (pl : Place) (r : Red) (x : Machine.Acc) (h0 : Canon q x.s) : Canon q (redClose pl r x).1.s := by
  unfold redClose
  repeat' (first | with_reducible (first | assumption | apply Canon_out | apply redApply_canon | apply foldl_canon | apply foldlA_canon | apply foldlB_canon | apply foldlP_canon) | simp only [Canon_mk] | split | intro _ | dsimp only)

theorem redBump_canon {q : List Instr} (pl : Place) (acc : BitVec 64) (ctr : BitVec 64) (s : State) (h0 : Canon q s) : Canon q (redBump pl acc ctr s) := by
  unfold redBump
  repeat' (first | with_reducible (first | assumption | apply Canon_out | apply bumpCounter_canon | apply noteFrozen_canon) | simp only [Canon_mk] | split | intro _ | dsimp only)

theorem redOrdered_canon {q : List Instr} (i : GI) (pl : Place) (src : Td) (red : Red) (part : RedPart) (free : Bool) (s : State) (h0 : Canon q s) : CanonGlade q (redOrdered i pl src red part free s) := by
  unfold redOrdered
  repeat' (first | with_reducible (first | assumption | apply Canon_out | apply CanonGlade_done | apply CanonGlade_jump | apply CanonGlade_wait | apply CanonGlade_fault | apply faultGlade_canon | apply closeAcc_canon | apply redClose_canon | apply redBump_canon | apply setRed_canon | apply foldl_canon | apply foldlA_canon | apply foldlB_canon | apply foldlP_canon) | simp only [Canon_mk] | split | intro _ | dsimp only)

theorem redArrival_canon {q : List Instr} (i : GI) (pl : Place) (src : Td) (red : Red) (part : RedPart) (free : Bool) (s : State) (h0 : Canon q s) : CanonGlade q (redArrival i pl src red part free s) := by
  unfold redArrival
  repeat' (first | with_reducible (first | assumption | apply Canon_out | apply CanonGlade_done | apply CanonGlade_jump | apply CanonGlade_wait | apply CanonGlade_fault | apply redArrive_canon | apply startAcc_canon | apply closeAcc_canon | apply redBump_canon | apply setRed_canon) | simp only [Canon_mk] | split | intro _ | dsimp only)

theorem execRed_canon {q : List Instr} (i : GI) (s : State) (h0 : Canon q s) : CanonOut q (execRed i s) := by
  unfold execRed
  repeat' (first | with_reducible (first | assumption | apply Canon_out | apply CanonOut_next | apply CanonGlade_done | apply CanonGlade_jump | apply CanonGlade_wait | apply CanonGlade_fault | apply redOrdered_canon | apply redArrival_canon | apply issue_canon) | simp only [Canon_mk] | split | intro _ | dsimp only)

end Sys2Proof.Laws
end

