-- ==== Sys2Proof/Laws/KeepJobs.lean ====
section
/-! SUPPORT. Canonical memories and the queue, kept by transfers, jobs, tables, adapters, training and serving. -/

namespace Sys2Proof.Laws

open Sys2Proof.Machine Sys2Proof.Safety

set_option linter.unusedTactic false
set_option linter.unreachableTactic false
set_option linter.unusedSimpArgs false

theorem updXfer_canon {q : List Instr} (s : State) (id : Nat) (f : Xfer → Xfer) (h0 : Canon q s) : Canon q (updXfer s id f) := by
  unfold updXfer
  repeat' (first | with_reducible (first | assumption | apply Canon_out) | simp only [Canon_mk] | split | intro _ | dsimp only)

theorem dropXfer_canon {q : List Instr} (s : State) (id : Nat) (h0 : Canon q s) : Canon q (dropXfer s id) := by
  unfold dropXfer
  repeat' (first | with_reducible (first | assumption | apply Canon_out) | simp only [Canon_mk] | split | intro _ | dsimp only)

theorem addXfer_canon {q : List Instr} (s : State) (acc : BitVec 64) (g : Option Nat) (desc : Bytes) (seed : BitVec 64) (h0 : Canon q s) : Canon q (addXfer s acc g desc seed) := by
  unfold addXfer
  repeat' (first | with_reducible (first | assumption | apply Canon_out) | simp only [Canon_mk] | split | intro _ | dsimp only)

theorem execXfer_canon {q : List Instr} (i : GI) (s : State) (h0 : Canon q s) : CanonOut q (execXfer i s) := by
  unfold execXfer
  repeat' (first | with_reducible (first | assumption | apply Canon_out | apply CanonOut_next | apply CanonGlade_done | apply CanonGlade_jump | apply CanonGlade_wait | apply CanonGlade_fault | apply addXfer_canon | apply issue_canon) | simp only [Canon_mk] | split | intro _ | dsimp only)

theorem execHostXfer_canon {q : List Instr} (acc : BitVec 64) (s : State) (h0 : Canon q s) : CanonOut q (execHostXfer acc s) := by
  unfold execHostXfer
  repeat' (first | with_reducible (first | assumption | apply Canon_out | apply CanonOut_next | apply addXfer_canon | apply updCmd_canon | apply onJob_canon) | simp only [Canon_mk] | split | intro _ | dsimp only)

theorem failXfer_canon {q : List Instr} (s : State) (x : Xfer) (st : Byte) (h0 : Canon q s) : Canon q (failXfer s x st) := by
  unfold failXfer
  repeat' (first | with_reducible (first | assumption | apply Canon_out | apply faultGlade_canon | apply dropXfer_canon | apply finish_canon) | simp only [Canon_mk] | split | intro _ | dsimp only)

theorem completeXfer_canon {q : List Instr} (s : State) (x : Xfer) (dropped strict : Bool) (h0 : Canon q s) : Canon q (completeXfer s x dropped strict) := by
  unfold completeXfer
  repeat' (first | with_reducible (first | assumption | apply Canon_out | apply bumpCounter_canon | apply noteFrozen_canon | apply dropXfer_canon | apply updCmd_canon | apply finish_canon) | simp only [Canon_mk] | split | intro _ | dsimp only)

theorem stepWordUpdate_canon {q : List Instr} (s : State) (hh : Head) (h0 : Canon q s) : Canon q (stepWordUpdate s hh) := by
  unfold stepWordUpdate
  repeat' (first | with_reducible (first | assumption | apply Canon_out | apply CanonMem_wr | apply CanonMem_hw) | simp only [Canon_mk] | split | intro _ | dsimp only)

theorem applyLine_canon {q : List Instr} (s : State) (j : Job) (o : Tag) (a : Nat) (b : Bytes) (h0 : Canon q s) : Canon q (applyLine s j o a b) := by
  unfold applyLine
  repeat' (first | with_reducible (first | assumption | apply Canon_out | apply CanonMem_clear | apply CanonMem_filter | apply storeLine_canon) | simp only [Canon_mk] | split | intro _ | dsimp only)

theorem reduceLine_canon {q : List Instr} (j : Job) (hh : Head) (src : BitVec 16) (off : Nat) (a : Nat) (b : Bytes) (r : CellRes) (h0 : Canon q r.s) : Canon q (reduceLine j hh src off a b r).s := by
  unfold reduceLine
  repeat' (first | with_reducible (first | assumption | apply Canon_out | apply CanonMem_wr | apply CanonMem_hw | apply CanonMem_filter | apply setTag_canon | apply foldl_canon | apply foldlA_canon | apply foldlB_canon | apply foldlP_canon | apply foldlC_canon) | simp only [Canon_mk] | split | intro _ | dsimp only)

theorem applyCell_canon {q : List Instr} (s : State) (j : Job) (hh : Head) (src : BitVec 16) (off : Nat) (b : Bytes) (h0 : Canon q s) : Canon q (applyCell s j hh src off b).s := by
  unfold applyCell
  repeat' (first | with_reducible (first | assumption | apply Canon_out | apply reduceLine_canon | apply applyLine_canon | apply foldl_canon | apply foldlA_canon | apply foldlB_canon | apply foldlP_canon | apply foldlC_canon) | simp only [Canon_mk] | split | intro _ | dsimp only)

theorem launch_canon {q : List Instr} (s : State) (x : Xfer) (p : Pair) (o : Tag) (withHead : Bool) (h0 : Canon q s) : Canon q (launch s x p o withHead) := by
  unfold launch
  repeat' (first | with_reducible (first | assumption | apply Canon_out | apply sendCells_canon | apply failXfer_canon | apply updXfer_canon) | simp only [Canon_mk] | split | intro _ | dsimp only)

theorem arriveCount_canon {q : List Instr} (s : State) (a : Nat) (h0 : Canon q s) : Canon q (arriveCount s a) := by
  unfold arriveCount
  repeat' (first | with_reducible (first | assumption | apply Canon_out | apply bumpCounter_canon) | simp only [Canon_mk] | split | intro _ | dsimp only)

theorem localXfer_fold {q : List Instr} (s s1 : State) (x : Xfer) (hh : Head) (j : Job) (h1 : Canon q s1) :
    Canon q ((dataCells s x 0).foldl (fun (r : CellRes) c =>
        if r.err ≠ 0 then r
        else match c.body with
          | .data b =>
            let off := (c.cidx.toNat - 1) * 480
            let y := applyCell r.s j hh s.hub.fabAddr off (b.take (xLen x - off))
            { y with fl := r.fl ||| y.fl, van := r.van + y.van }
          | _ => r) { s := s1 }).s := by
  apply foldlC_canon
  · intro t c ht
    split
    · exact ht
    · split
      · exact applyCell_canon _ _ _ _ _ _ ht
      · exact ht
  · exact h1

theorem localXfer_canon {q : List Instr} (s : State) (x : Xfer) (o : Tag) (h0 : Canon q s) : Canon q (localXfer s x o) := by
  unfold localXfer
  have hs1 : Canon q (if x.start = 1 then stepWordUpdate s (headOf s x o) else s) := by
    split
    · exact stepWordUpdate_canon _ _ h0
    · exact h0
  have hf := localXfer_fold s _ x (headOf s x o) (jobOf s) hs1
  dsimp only
  split
  · exact h0
  · exact failXfer_canon _ _ _ h0
  · apply completeXfer_canon
    apply arriveCount_canon
    exact Canon_out h0
  · split
    · split
      · exact failXfer_canon _ _ _ h0
      · split
        · exact failXfer_canon _ _ _ h0
        · split
          · rename_i e; exact completeXfer_canon _ _ _ _ (CanonWrite_get e (devWrite_canon _ _ _ _ _ _ h0))
          · exact completeXfer_canon _ _ _ _ (noteFrozen_canon _ _ _ h0)
          · exact failXfer_canon _ _ _ h0
    · refine Canon_ite (failXfer_canon _ _ _ (raise_canon _ _ _ _ hf)) (completeXfer_canon _ _ _ _ (arriveCount_canon _ _ (raise_canon _ _ _ _ hf)))

theorem execTransferStart_canon {q : List Instr} (id : Nat) (s : State) (h0 : Canon q s) : CanonOut q (execTransferStart id s) := by
  unfold execTransferStart
  repeat' (first | with_reducible (first | assumption | apply Canon_out | apply CanonOut_next | apply completeXfer_canon | apply noteFrozen_canon | apply localXfer_canon | apply failXfer_canon | apply launch_canon) | simp only [Canon_mk] | split | intro _ | dsimp only)

theorem failWaiting_canon {q : List Instr} (s : State) (a : BitVec 16) (st : Byte) (h0 : Canon q s) : Canon q (failWaiting s a st) := by
  unfold failWaiting
  repeat' (first | with_reducible (first | assumption | apply Canon_out | apply failXfer_canon | apply foldl_canon | apply foldlA_canon | apply foldlB_canon | apply foldlP_canon) | simp only [Canon_mk] | split | intro _ | dsimp only)

theorem execPairBringUp_canon {q : List Instr} (a : BitVec 16) (s : State) (h0 : Canon q s) : CanonOut q (execPairBringUp a s) := by
  unfold execPairBringUp
  split
  · exact CanonOut_next h0
  · split
    · exact CanonOut_next (failWaiting_canon _ _ _ h0)
    · dsimp only
      split
      · exact CanonOut_next h0
      · rename_i s2 e
        apply CanonOut_next; apply startExchange_canon
        simp only [Canon_mk]; apply Canon_out
        split at e
        · cases e; exact h0
        · cases hl : lruPair s with
          | none => rw [hl] at e; cases e
          | some p => rw [hl] at e; cases e; exact dropPair_canon _ _ h0

theorem endExchange_canon {q : List Instr} (s : State) (a : BitVec 16) (p : Pair) (c : PeerCheck) (h0 : Canon q s) : Canon q (endExchange s a p c) := by
  unfold endExchange
  repeat' (first | with_reducible (first | assumption | apply Canon_out | apply failWaiting_canon | apply bindPair_canon | apply dropPair_canon | apply updPair_canon) | simp only [Canon_mk] | split | intro _ | dsimp only)

theorem peerExchange_canon {q : List Instr} (s : State) (a : BitVec 16) (c : PeerCheck) (h0 : Canon q s) : Canon q (peerExchange s a c) := by
  unfold peerExchange
  repeat' (first | with_reducible (first | assumption | apply Canon_out | apply startExchange_canon | apply endExchange_canon) | simp only [Canon_mk] | split | intro _ | dsimp only)

theorem execPairUp_canon {q : List Instr} (x : CellAt) (c : PeerCheck) (s : State) (h0 : Canon q s) : CanonOut q (execPairUp x c s) := by
  unfold execPairUp
  repeat' (first | with_reducible (first | assumption | apply Canon_out | apply CanonOut_next | apply peerExchange_canon | apply takeCell_canon | apply arrive_canon) | simp only [Canon_mk] | split | intro _ | dsimp only)

theorem query_canon {q : List Instr} (s : State) (x : Xfer) (cancel : Bool) (h0 : Canon q s) : Canon q (query s x cancel) := by
  unfold query
  repeat' (first | with_reducible (first | assumption | apply Canon_out | apply sendCtl_canon | apply updXfer_canon) | simp only [Canon_mk] | split | intro _ | dsimp only)

theorem queryDown_canon {q : List Instr} (s : State) (a : BitVec 16) (h0 : Canon q s) : Canon q (queryDown s a) := by
  unfold queryDown
  repeat' (first | with_reducible (first | assumption | apply Canon_out | apply query_canon | apply foldl_canon | apply foldlA_canon | apply foldlB_canon | apply foldlP_canon) | simp only [Canon_mk] | split | intro _ | dsimp only)

theorem execJobBinding_canon {q : List Instr} (x : CellAt) (b : Binding) (s : State) (h0 : Canon q s) : CanonOut q (execJobBinding x b s) := by
  unfold execJobBinding
  repeat' (first | with_reducible (first | assumption | apply Canon_out | apply CanonOut_next | apply queryDown_canon | apply takeCell_canon | apply updPair_canon) | simp only [Canon_mk] | split | intro _ | dsimp only)

theorem execPortMask_canon {q : List Instr} (x : CellAt) (m : BitVec 32) (s : State) (h0 : Canon q s) : CanonOut q (execPortMask x m s) := by
  unfold execPortMask
  repeat' (first | with_reducible (first | assumption | apply Canon_out | apply CanonOut_next | apply queryDown_canon | apply takeCell_canon | apply updPair_canon) | simp only [Canon_mk] | split | intro _ | dsimp only)

theorem setRec_canon {q : List Instr} (s : State) (src : BitVec 16) (tag : BitVec 13) (v : Option InRec) (h0 : Canon q s) : Canon q (setRec s src tag v) := by
  unfold setRec
  repeat' (first | with_reducible (first | assumption | apply Canon_out) | simp only [Canon_mk] | split | intro _ | dsimp only)

theorem refuse_canon {q : List Instr} (s : State) (k : Nat) (hh : CellHdr) (st : Byte) (last : BitVec 19) (h0 : Canon q s) : Canon q (refuse s k hh st last) := by
  unfold refuse
  repeat' (first | with_reducible (first | assumption | apply Canon_out | apply answer_canon) | simp only [Canon_mk] | split | intro _ | dsimp only)

theorem openRec_canon {q : List Instr} (s : State) (hh : CellHdr) (d : Head) (frozen strict : Bool) (h0 : Canon q s) : Canon q (openRec s hh d frozen strict) := by
  unfold openRec
  repeat' (first | with_reducible (first | assumption | apply Canon_out | apply setRec_canon) | simp only [Canon_mk] | split | intro _ | dsimp only)

theorem execHeadCellReceive_canon {q : List Instr} (k : Fin 32) (hh : CellHdr) (d : Head) (s : State) (h0 : Canon q s) : CanonOut q (execHeadCellReceive k hh d s) := by
  unfold execHeadCellReceive
  repeat' (first | with_reducible (first | assumption | apply Canon_out | apply CanonOut_next | apply stepWordUpdate_canon | apply takeCell_canon | apply openRec_canon | apply answer_canon | apply setRec_canon | apply refuse_canon) | simp only [Canon_mk] | split | intro _ | dsimp only)

theorem execReadRequestReceive_canon {q : List Instr} (k : Fin 32) (hh : CellHdr) (d : Head) (s : State) (h0 : Canon q s) : CanonOut q (execReadRequestReceive k hh d s) := by
  unfold execReadRequestReceive
  repeat' (first | with_reducible (first | assumption | apply Canon_out | apply CanonOut_next | apply sendCells_canon | apply takeCell_canon | apply answer_canon | apply refuse_canon) | simp only [Canon_mk] | split | intro _ | dsimp only)

theorem backpressure_canon {q : List Instr} (s : State) (h0 : Canon q s) : Canon q (backpressure s) := by
  unfold backpressure
  repeat' (first | with_reducible (first | assumption | apply Canon_out | apply foldl_canon | apply foldlA_canon | apply foldlB_canon | apply foldlP_canon) | simp only [Canon_mk] | split | intro _ | dsimp only)

theorem takeCredit_canon {q : List Instr} (s : State) (die cls : Nat) (h0 : Canon q s) : Canon q (takeCredit s die cls) := by
  unfold takeCredit
  repeat' (first | with_reducible (first | assumption | apply Canon_out | apply backpressure_canon) | simp only [Canon_mk] | split | intro _ | dsimp only)

theorem execCreditReturn_canon {q : List Instr} (die : Fin 4) (cls : Fin 7) (s : State) (h0 : Canon q s) : CanonOut q (execCreditReturn die cls s) := by
  unfold execCreditReturn
  repeat' (first | with_reducible (first | assumption | apply Canon_out | apply CanonOut_next | apply backpressure_canon) | simp only [Canon_mk] | split | intro _ | dsimp only)

theorem takeData_canon {q : List Instr} (s : State) (k : Nat) (hh : CellHdr) (r : InRec) (payload : Bytes) (h0 : Canon q s) : Canon q (takeData s k hh r payload) := by
  unfold takeData
  repeat' (first | with_reducible (first | assumption | apply Canon_out | apply CanonTry_ok | apply CanonTry_error | apply arriveCount_canon | apply applyCell_canon | apply answer_canon | apply setRec_canon | apply refuse_canon) | simp only [Canon_mk] | split | intro _ | dsimp only)

theorem execDataCellReceive_canon {q : List Instr} (k : Fin 32) (hh : CellHdr) (payload : Bytes) (s : State) (h0 : Canon q s) : CanonOut q (execDataCellReceive k hh payload s) := by
  unfold execDataCellReceive
  repeat' (first | with_reducible (first | assumption | apply Canon_out | apply CanonOut_next | apply takeCredit_canon | apply takeCell_canon | apply takeData_canon | apply answer_canon | apply setRec_canon) | simp only [Canon_mk] | split | intro _ | dsimp only)

theorem execTransferRecordTimeout_canon {q : List Instr} (src : BitVec 16) (tag : BitVec 13) (s : State) (h0 : Canon q s) : CanonOut q (execTransferRecordTimeout src tag s) := by
  unfold execTransferRecordTimeout
  repeat' (first | with_reducible (first | assumption | apply Canon_out | apply CanonOut_next | apply advanceTo_canon | apply sendCells_canon | apply setRec_canon) | simp only [Canon_mk] | split | intro _ | dsimp only)

theorem takeResponse_canon {q : List Instr} (s : State) (die : Nat) (h0 : Canon q s) : Canon q (takeResponse s die) := by
  unfold takeResponse
  repeat' (first | with_reducible (first | assumption | apply Canon_out | apply takeCredit_canon) | simp only [Canon_mk] | split | intro _ | dsimp only)

theorem execResponseCellReceive_canon {q : List Instr} (k : Fin 32) (hh : CellHdr) (owner : Tag) (digest : Digest) (payload : Bytes) (s : State) (h0 : Canon q s) : CanonOut q (execResponseCellReceive k hh owner digest payload s) := by
  unfold execResponseCellReceive
  repeat' (first | with_reducible (first | assumption | apply Canon_out | apply CanonOut_next | apply CanonTry_ok | apply CanonTry_error | apply completeXfer_canon | apply takeResponse_canon | apply applyCell_canon | apply takeCell_canon | apply failXfer_canon | apply updXfer_canon) | simp only [Canon_mk] | split | intro _ | dsimp only)

theorem execCompletionResponse_canon {q : List Instr} (k : Fin 32) (hh : CellHdr) (dropped strict : Bool) (s : State) (h0 : Canon q s) : CanonOut q (execCompletionResponse k hh dropped strict s) := by
  unfold execCompletionResponse
  repeat' (first | with_reducible (first | assumption | apply Canon_out | apply CanonOut_next | apply completeXfer_canon | apply takeCell_canon) | simp only [Canon_mk] | split | intro _ | dsimp only)

theorem resend_canon {q : List Instr} (s : State) (x : Xfer) (start : BitVec 19) (withHead : Bool) (h0 : Canon q s) : Canon q (resend s x start withHead) := by
  unfold resend
  repeat' (first | with_reducible (first | assumption | apply Canon_out | apply failXfer_canon | apply updXfer_canon | apply launch_canon) | simp only [Canon_mk] | split | intro _ | dsimp only)

theorem recordPos_canon {q : List Instr} (s : State) (x : Xfer) (start : BitVec 19) (h0 : Canon q s) : Canon q (recordPos s x start) := by
  unfold recordPos
  repeat' (first | with_reducible (first | assumption | apply Canon_out | apply updXfer_canon) | simp only [Canon_mk] | split | intro _ | dsimp only)

theorem execRefusalReceive_canon {q : List Instr} (k : Fin 32) (hh : CellHdr) (status : Byte) (last : BitVec 19) (s : State) (h0 : Canon q s) : CanonOut q (execRefusalReceive k hh status last s) := by
  unfold execRefusalReceive
  repeat' (first | with_reducible (first | assumption | apply Canon_out | apply CanonOut_next | apply recordPos_canon | apply takeCell_canon | apply failXfer_canon | apply resend_canon) | simp only [Canon_mk] | split | intro _ | dsimp only)

theorem execTargetPreemptedAnswer_canon {q : List Instr} (k : Fin 32) (hh : CellHdr) (last : BitVec 19) (s : State) (h0 : Canon q s) : CanonOut q (execTargetPreemptedAnswer k hh last s) := by
  unfold execTargetPreemptedAnswer
  repeat' (first | with_reducible (first | assumption | apply Canon_out | apply CanonOut_next | apply recordPos_canon | apply takeCell_canon | apply updXfer_canon) | simp only [Canon_mk] | split | intro _ | dsimp only)

theorem execPreemptedRetryTimer_canon {q : List Instr} (id : Nat) (s : State) (h0 : Canon q s) : CanonOut q (execPreemptedRetryTimer id s) := by
  unfold execPreemptedRetryTimer
  repeat' (first | with_reducible (first | assumption | apply Canon_out | apply CanonOut_next | apply advanceTo_canon | apply failXfer_canon | apply updXfer_canon | apply resend_canon) | simp only [Canon_mk] | split | intro _ | dsimp only)

theorem execPositionQuery_canon {q : List Instr} (k : Fin 32) (hh : CellHdr) (cancel : Bool) (s : State) (h0 : Canon q s) : CanonOut q (execPositionQuery k hh cancel s) := by
  unfold execPositionQuery
  repeat' (first | with_reducible (first | assumption | apply Canon_out | apply CanonOut_next | apply takeCell_canon | apply answer_canon | apply setRec_canon | apply refuse_canon) | simp only [Canon_mk] | split | intro _ | dsimp only)

theorem execPositionAnswer_canon {q : List Instr} (k : Fin 32) (hh : CellHdr) (last : BitVec 19) (s : State) (h0 : Canon q s) : CanonOut q (execPositionAnswer k hh last s) := by
  unfold execPositionAnswer
  repeat' (first | with_reducible (first | assumption | apply Canon_out | apply CanonOut_next | apply recordPos_canon | apply takeCell_canon | apply resend_canon) | simp only [Canon_mk] | split | intro _ | dsimp only)

theorem execCompletionTimeout_canon {q : List Instr} (id : Nat) (s : State) (h0 : Canon q s) : CanonOut q (execCompletionTimeout id s) := by
  unfold execCompletionTimeout
  repeat' (first | with_reducible (first | assumption | apply Canon_out | apply CanonOut_next | apply advanceTo_canon | apply query_canon) | simp only [Canon_mk] | split | intro _ | dsimp only)

theorem execPositionQueryTimeout_canon {q : List Instr} (id : Nat) (s : State) (h0 : Canon q s) : CanonOut q (execPositionQueryTimeout id s) := by
  unfold execPositionQueryTimeout
  repeat' (first | with_reducible (first | assumption | apply Canon_out | apply CanonOut_next | apply advanceTo_canon | apply failXfer_canon | apply query_canon) | simp only [Canon_mk] | split | intro _ | dsimp only)

theorem portLeaves_canon {q : List Instr} (s : State) (k : Nat) (st : BitVec 3) (h0 : Canon q s) : Canon q (portLeaves s k st) := by
  unfold portLeaves
  repeat' (first | with_reducible (first | assumption | apply Canon_out | apply sendMasks_canon | apply setPort_canon | apply query_canon | apply foldl_canon | apply foldlA_canon | apply foldlB_canon | apply foldlP_canon) | simp only [Canon_mk] | split | intro _ | dsimp only)

theorem replayOrDown_canon {q : List Instr} (s : State) (k : Nat) (n : BitVec 16) (h0 : Canon q s) : Canon q (replayOrDown s k n) := by
  unfold replayOrDown
  repeat' (first | with_reducible (first | assumption | apply Canon_out | apply replayFrom_canon | apply portLeaves_canon) | simp only [Canon_mk] | split | intro _ | dsimp only)

theorem execLinkCellReceive_canon {q : List Instr} (k : Fin 32) (c : LinkCell) (s : State) (h0 : Canon q s) : CanonOut q (execLinkCellReceive k c s) := by
  unfold execLinkCellReceive
  repeat' (first | with_reducible (first | assumption | apply Canon_out | apply CanonOut_next | apply replayOrDown_canon | apply setPort_canon | apply pump_canon | apply foldl_canon | apply foldlA_canon | apply foldlB_canon | apply foldlP_canon | apply foldlWk_canon) | simp only [Canon_mk] | split | intro _ | dsimp only)

theorem execReplayTimeout_canon {q : List Instr} (k : Fin 32) (s : State) (h0 : Canon q s) : CanonOut q (execReplayTimeout k s) := by
  unfold execReplayTimeout
  repeat' (first | with_reducible (first | assumption | apply Canon_out | apply CanonOut_next | apply replayOrDown_canon | apply advanceTo_canon) | simp only [Canon_mk] | split | intro _ | dsimp only)

theorem execPortDown_canon {q : List Instr} (k : Fin 32) (s : State) (h0 : Canon q s) : CanonOut q (execPortDown k s) := by
  unfold execPortDown
  repeat' (first | with_reducible (first | assumption | apply Canon_out | apply CanonOut_next | apply portLeaves_canon | apply advanceTo_canon) | simp only [Canon_mk] | split | intro _ | dsimp only)

theorem finishAll_canon {q : List Instr} (s : State) (id : BitVec 32) (st : Byte) (h0 : Canon q s) : Canon q (finishAll s id st) := by
  unfold finishAll
  repeat' (first | with_reducible (first | assumption | apply Canon_out) | simp only [Canon_mk] | split | intro _ | dsimp only)

theorem remapIfFree_canon {q : List Instr} (s : State) (h0 : Canon q s) : Canon q (remapIfFree s) := by
  unfold remapIfFree
  repeat' (first | with_reducible (first | assumption | apply Canon_out) | simp only [Canon_mk] | split | intro _ | dsimp only)

theorem raiseEpoch_canon {q : List Instr} (s : State) (h0 : Canon q s) : Canon q (raiseEpoch s) := by
  unfold raiseEpoch
  repeat' (first | with_reducible (first | assumption | apply Canon_out | apply setHalf_canon) | simp only [Canon_mk] | split | intro _ | dsimp only)

theorem dropRecs_canon {q : List Instr} (s : State) (id : BitVec 32) (h0 : Canon q s) : Canon q (dropRecs s id) := by
  unfold dropRecs
  repeat' (first | with_reducible (first | assumption | apply Canon_out) | simp only [Canon_mk] | split | intro _ | dsimp only)

theorem dropKeys_canon {q : List Instr} (s : State) (j : Job) (h0 : Canon q s) : Canon q (dropKeys s j) := by
  unfold dropKeys
  repeat' (first | with_reducible (first | assumption | apply Canon_out | apply foldl_canon | apply foldlA_canon | apply foldlB_canon | apply foldlP_canon) | simp only [Canon_mk] | split | intro _ | dsimp only)

theorem releaseJob_canon {q : List Instr} (s : State) (h0 : Canon q s) : Canon q (releaseJob s) := by
  unfold releaseJob
  repeat' (first | with_reducible (first | assumption | apply Canon_out | apply sendBindings_canon | apply remapIfFree_canon | apply zeroStores_canon | apply raiseEpoch_canon | apply dropRecs_canon | apply dropKeys_canon) | simp only [Canon_mk] | split | intro _ | dsimp only)

theorem endJob_canon {q : List Instr} (s : State) (st : Byte) (h0 : Canon q s) : Canon q (endJob s st) := by
  unfold endJob
  repeat' (first | with_reducible (first | assumption | apply Canon_out | apply releaseJob_canon | apply finishAll_canon) | simp only [Canon_mk] | split | intro _ | dsimp only)

theorem dropSaved_canon {q : List Instr} (s : State) (id : BitVec 32) (st : Byte) (h0 : Canon q s) : Canon q (dropSaved s id st) := by
  unfold dropSaved
  repeat' (first | with_reducible (first | assumption | apply Canon_out | apply remapIfFree_canon | apply zeroStores_canon | apply finishAll_canon | apply dropRecs_canon | apply dropKeys_canon | apply foldl_canon | apply foldlA_canon | apply foldlB_canon | apply foldlP_canon) | simp only [Canon_mk] | split | intro _ | dsimp only)

theorem homeCleared_canon {q : List Instr} (s : State) (a : Nat) (h0 : Canon q s) : Canon q (homeCleared s a) := by
  unfold homeCleared
  repeat' (first | with_reducible (first | assumption | apply Canon_out | apply CanonMem_clear | apply CanonMem_hclear | apply clearLines_canon) | simp only [Canon_mk] | split | intro _ | dsimp only)

theorem imageHome_canon {q : List Instr} (s : State) (v : Saved) (h0 : Canon q s) : Canon q (imageHome s v) := by
  unfold imageHome
  repeat' (first | with_reducible (first | assumption | apply Canon_out | apply homeCleared_canon) | simp only [Canon_mk] | split | intro _ | dsimp only)

theorem clearArea_canon {q : List Instr} (s : State) (keep : BitVec 32) (h0 : Canon q s) : Canon q (clearArea s keep) := by
  unfold clearArea
  repeat' (first | with_reducible (first | assumption | apply Canon_out | apply dropSaved_canon | apply imageHome_canon | apply foldl_canon | apply foldlA_canon | apply foldlB_canon | apply foldlP_canon) | simp only [Canon_mk] | split | intro _ | dsimp only)

theorem fcastTags_canon {q : List Instr} (s : State) (base : Nat) (h0 : Canon q s) : Canon q (fcastTags s base) := by
  unfold fcastTags
  repeat' (first | with_reducible (first | assumption | apply Canon_out | apply setTag_canon | apply foldl_canon | apply foldlA_canon | apply foldlB_canon | apply foldlP_canon) | simp only [Canon_mk] | split | intro _ | dsimp only)

theorem execJobOpen_canon {q : List Instr} (acc : BitVec 64) (s : State) (h0 : Canon q s) : CanonOut q (execJobOpen acc s) := by
  unfold execJobOpen
  repeat' (first | with_reducible (first | assumption | apply Canon_out | apply CanonOut_next | apply sendBindings_canon | apply drawRandom_canon | apply zeroStores_canon | apply raiseEpoch_canon | apply clearArea_canon | apply fcastTags_canon | apply finish_canon | apply onCmd_canon) | simp only [Canon_mk] | split | intro _ | dsimp only)

theorem closeOther_canon {q : List Instr} (s : State) (acc : BitVec 64) (id : BitVec 32) (h0 : Canon q s) : Canon q (closeOther s acc id) := by
  unfold closeOther
  repeat' (first | with_reducible (first | assumption | apply Canon_out | apply sendBindings_canon | apply raiseEpoch_canon | apply dropSaved_canon | apply finish_canon) | simp only [Canon_mk] | split | intro _ | dsimp only)

theorem execJobClose_canon {q : List Instr} (acc : BitVec 64) (s : State) (h0 : Canon q s) : CanonOut q (execJobClose acc s) := by
  unfold execJobClose
  repeat' (first | with_reducible (first | assumption | apply Canon_out | apply CanonOut_next | apply frameIntake_canon | apply releaseJob_canon | apply closeOther_canon | apply updCmd_canon | apply finish_canon | apply onCmd_canon | apply foldl_canon | apply foldlA_canon | apply foldlB_canon | apply foldlP_canon) | simp only [Canon_mk] | split | intro _ | dsimp only)

theorem execJobCloseAbort_canon {q : List Instr} (acc : BitVec 64) (s : State) (h0 : Canon q s) : CanonOut q (execJobCloseAbort acc s) := by
  unfold execJobCloseAbort
  repeat' (first | with_reducible (first | assumption | apply Canon_out | apply CanonOut_next | apply closeOther_canon | apply finish_canon | apply endJob_canon | apply onCmd_canon) | simp only [Canon_mk] | split | intro _ | dsimp only)

theorem stopGlades_canon {q : List Instr} (s : State) (p : Nat → Bool) (h0 : Canon q s) : Canon q (stopGlades s p) := by
  unfold stopGlades
  repeat' (first | with_reducible (first | assumption | apply Canon_out | apply setGlade_canon | apply foldl_canon | apply foldlA_canon | apply foldlB_canon | apply foldlP_canon) | simp only [Canon_mk] | split | intro _ | dsimp only)

theorem restartGlades_canon {q : List Instr} (s : State) (p : Nat → Bool) (h0 : Canon q s) : Canon q (restartGlades s p) := by
  unfold restartGlades
  repeat' (first | with_reducible (first | assumption | apply Canon_out | apply setGlade_canon | apply foldl_canon | apply foldlA_canon | apply foldlB_canon | apply foldlP_canon) | simp only [Canon_mk] | split | intro _ | dsimp only)

theorem shiftTimes_canon {q : List Instr} (s : State) (dt : BitVec 64) (h0 : Canon q s) : Canon q (shiftTimes s dt) := by
  unfold shiftTimes
  repeat' (first | with_reducible (first | assumption | apply Canon_out | apply foldl_canon | apply foldlA_canon | apply foldlB_canon | apply foldlP_canon) | simp only [Canon_mk] | split | intro _ | dsimp only)

theorem execJobPreempt_canon {q : List Instr} (acc : BitVec 64) (s : State) (h0 : Canon q s) : CanonOut q (execJobPreempt acc s) := by
  unfold execJobPreempt
  repeat' (first | with_reducible (first | assumption | apply Canon_out | apply CanonOut_next | apply raiseEpoch_canon | apply stopGlades_canon | apply updCmd_canon | apply finish_canon | apply onCmd_canon) | simp only [Canon_mk] | split | intro _ | dsimp only)

theorem cancelXfer_canon {q : List Instr} (s : State) (x : Xfer) (h0 : Canon q s) : Canon q (cancelXfer s x) := by
  unfold cancelXfer
  repeat' (first | with_reducible (first | assumption | apply Canon_out | apply updXfer_canon | apply query_canon) | simp only [Canon_mk] | split | intro _ | dsimp only)

theorem execPreemptDrainEnd_canon {q : List Instr} (s : State) (h0 : Canon q s) : CanonOut q (execPreemptDrainEnd s) := by
  unfold execPreemptDrainEnd
  repeat' (first | with_reducible (first | assumption | apply Canon_out | apply CanonOut_next | apply cancelXfer_canon | apply advanceTo_canon | apply foldl_canon | apply foldlA_canon | apply foldlB_canon | apply foldlP_canon) | simp only [Canon_mk] | split | intro _ | dsimp only)

theorem answersDue_canon {q : List Instr} (s : State) (h0 : Canon q s) : Canon q (answersDue s) := by
  unfold answersDue
  repeat' (first | with_reducible (first | assumption | apply Canon_out | apply advanceTo_canon | apply foldl_canon | apply foldlA_canon | apply foldlB_canon | apply foldlP_canon) | simp only [Canon_mk] | split | intro _ | dsimp only)

theorem execPreemptSaveDone_canon {q : List Instr} (s : State) (h0 : Canon q s) : CanonOut q (execPreemptSaveDone s) := by
  unfold execPreemptSaveDone
  repeat' (first | with_reducible (first | assumption | apply Canon_out | apply CanonOut_next | apply CanonMem_filter | apply sendBindings_canon | apply homeCleared_canon | apply clearLines_canon | apply zeroStores_canon | apply answersDue_canon | apply finish_canon | apply foldl_canon | apply foldlA_canon | apply foldlB_canon | apply foldlP_canon) | simp only [Canon_mk] | split | intro _ | dsimp only)

theorem restoreLine_canon {q : List Instr} (s : State) (e : Nat × Option Seal) (h0 : Canon q s) : Canon q (restoreLine s e) := by
  have h1 := exposeLine_canon s e.1 h0
  exact ⟨wf_clearRange _ _ h1.1, h1.2.1, h1.2.2⟩

theorem restoreJob_canon {q : List Instr} (s : State) (v : Saved) (h0 : Canon q s) : Canon q (restoreJob s v) := by
  unfold restoreJob
  repeat' (first | with_reducible (first | assumption | apply Canon_out | apply CanonMem_filter | apply CanonMem_wr1 | apply CanonMem_hw1 | apply CanonMem_over | apply CanonMem_overh | apply restoreLine_canon | apply zeroStores_canon | apply shiftTimes_canon | apply foldl_canon | apply foldlA_canon | apply foldlB_canon | apply foldlP_canon) | simp only [Canon_mk] | split | intro _ | dsimp only)

theorem execJobResume_canon {q : List Instr} (acc : BitVec 64) (s : State) (h0 : Canon q s) : CanonOut q (execJobResume acc s) := by
  unfold execJobResume
  repeat' (first | with_reducible (first | assumption | apply Canon_out | apply CanonOut_next | apply raiseEpoch_canon | apply restoreJob_canon | apply dropSaved_canon | apply clearArea_canon | apply updCmd_canon | apply finish_canon | apply onCmd_canon) | simp only [Canon_mk] | split | intro _ | dsimp only)

theorem failFenced_canon {q : List Instr} (s : State) (h0 : Canon q s) : Canon q (failFenced s) := by
  unfold failFenced
  repeat' (first | with_reducible (first | assumption | apply Canon_out | apply faultGlade_canon | apply foldl_canon | apply foldlA_canon | apply foldlB_canon | apply foldlP_canon) | simp only [Canon_mk] | split | intro _ | dsimp only)

theorem reissue_canon {q : List Instr} (s : State) (h0 : Canon q s) : Canon q (reissue s) := by
  unfold reissue
  repeat' (first | with_reducible (first | assumption | apply Canon_out | apply query_canon | apply foldl_canon | apply foldlA_canon | apply foldlB_canon | apply foldlP_canon) | simp only [Canon_mk] | split | intro _ | dsimp only)

theorem execRestoreDone_canon {q : List Instr} (s : State) (h0 : Canon q s) : CanonOut q (execRestoreDone s) := by
  unfold execRestoreDone
  repeat' (first | with_reducible (first | assumption | apply Canon_out | apply CanonOut_next | apply CanonGlade_done | apply CanonGlade_jump | apply CanonGlade_wait | apply CanonGlade_fault | apply restartGlades_canon | apply sendBindings_canon | apply shiftTimes_canon | apply failFenced_canon | apply reissue_canon | apply finish_canon | apply foldl_canon | apply foldlA_canon | apply foldlB_canon | apply foldlP_canon) | simp only [Canon_mk] | split | intro _ | dsimp only)

theorem dropCached_canon {q : List Instr} (s : State) (a n : Nat) (h0 : Canon q s) : Canon q (dropCached s a n) := by
  unfold dropCached
  repeat' (first | with_reducible (first | assumption | apply Canon_out | apply foldl_canon | apply foldlA_canon | apply foldlB_canon | apply foldlP_canon) | simp only [Canon_mk] | split | intro _ | dsimp only)

theorem clearCounters_canon {q : List Instr} (s : State) (a n : Nat) (h0 : Canon q s) : Canon q (clearCounters s a n) := by
  unfold clearCounters
  repeat' (first | with_reducible (first | assumption | apply Canon_out | apply CanonMem_clear | apply foldl_canon | apply foldlA_canon | apply foldlB_canon | apply foldlP_canon) | simp only [Canon_mk] | split | intro _ | dsimp only)

theorem scrubLine_canon {q : List Instr} (s : State) (l : Nat) (h0 : Canon q s) : Canon q (scrubLine s l) := by
  unfold scrubLine
  repeat' (first | with_reducible (first | assumption | apply Canon_out | apply CanonMem_wr | apply CanonMem_hw | apply setSeal_canon) | simp only [Canon_mk] | split | intro _ | dsimp only)

theorem scrubRange_canon {q : List Instr} (s : State) (a n : Nat) (h0 : Canon q s) : Canon q (scrubRange s a n) := by
  unfold scrubRange
  repeat' (first | with_reducible (first | assumption | apply Canon_out | apply scrubLine_canon | apply foldl_canon | apply foldlA_canon | apply foldlB_canon | apply foldlP_canon) | simp only [Canon_mk] | split | intro _ | dsimp only)

theorem execSegSet_canon {q : List Instr} (acc : BitVec 64) (s : State) (h0 : Canon q s) : CanonOut q (execSegSet acc s) := by
  unfold execSegSet
  repeat' (first | with_reducible (first | assumption | apply Canon_out | apply CanonOut_next | apply clearCounters_canon | apply dropCached_canon | apply scrubRange_canon | apply finish_canon | apply onJob_canon) | simp only [Canon_mk] | split | intro _ | dsimp only)

theorem execProgLoad_canon {q : List Instr} (acc : BitVec 64) (s : State) (h0 : Canon q s) : CanonOut q (execProgLoad acc s) := by
  unfold execProgLoad
  repeat' (first | with_reducible (first | assumption | apply Canon_out | apply CanonOut_next | apply finish_canon | apply onJob_canon) | simp only [Canon_mk] | split | intro _ | dsimp only)

theorem fillLines_canon {q : List Instr} (s : State) (j : Job) (a : Nat) (b : Bytes) (h0 : Canon q s) : Canon q (fillLines s j a b) := by
  unfold fillLines
  repeat' (first | with_reducible (first | assumption | apply Canon_out | apply CanonMem_wr | apply CanonMem_hw | apply CanonMem_filter | apply setSeal_canon | apply setTag_canon | apply foldl_canon | apply foldlA_canon | apply foldlB_canon | apply foldlP_canon) | simp only [Canon_mk] | split | intro _ | dsimp only)

theorem execBaseLoad_canon {q : List Instr} (acc : BitVec 64) (s : State) (h0 : Canon q s) : CanonOut q (execBaseLoad acc s) := by
  unfold execBaseLoad
  repeat' (first | with_reducible (first | assumption | apply Canon_out | apply CanonOut_next | apply sendBindings_canon | apply dropCached_canon | apply fillLines_canon | apply finish_canon | apply onJob_canon) | simp only [Canon_mk] | split | intro _ | dsimp only)

theorem execBaseRetire_canon {q : List Instr} (acc : BitVec 64) (s : State) (h0 : Canon q s) : CanonOut q (execBaseRetire acc s) := by
  unfold execBaseRetire
  repeat' (first | with_reducible (first | assumption | apply Canon_out | apply CanonOut_next | apply sendBindings_canon | apply finish_canon | apply onJob_canon) | simp only [Canon_mk] | split | intro _ | dsimp only)

theorem execSlotBind_canon {q : List Instr} (acc : BitVec 64) (s : State) (h0 : Canon q s) : CanonOut q (execSlotBind acc s) := by
  unfold execSlotBind
  repeat' (first | with_reducible (first | assumption | apply Canon_out | apply CanonOut_next | apply finish_canon | apply onJob_canon) | simp only [Canon_mk] | split | intro _ | dsimp only)

theorem revokeSeqs_canon {q : List Instr} (s : State) (t : Nat) (h0 : Canon q s) : Canon q (revokeSeqs s t) := by
  unfold revokeSeqs
  repeat' (first | with_reducible (first | assumption | apply Canon_out | apply finishWith_canon | apply foldl_canon | apply foldlA_canon | apply foldlB_canon | apply foldlP_canon | apply foldlWk_canon) | simp only [Canon_mk] | split | intro _ | dsimp only)

theorem execSlotRevoke_canon {q : List Instr} (acc : BitVec 64) (s : State) (h0 : Canon q s) : CanonOut q (execSlotRevoke acc s) := by
  unfold execSlotRevoke
  repeat' (first | with_reducible (first | assumption | apply Canon_out | apply CanonOut_next | apply setSession_canon | apply revokeSeqs_canon | apply finish_canon | apply onJob_canon) | simp only [Canon_mk] | split | intro _ | dsimp only)

theorem execTenantSlotFree_canon {q : List Instr} (t : Fin 4096) (s : State) (h0 : Canon q s) : CanonOut q (execTenantSlotFree t s) := by
  unfold execTenantSlotFree
  repeat' (first | with_reducible (first | assumption | apply Canon_out | apply CanonOut_next) | simp only [Canon_mk] | split | intro _ | dsimp only)

theorem execDomainSet_canon {q : List Instr} (acc : BitVec 64) (s : State) (h0 : Canon q s) : CanonOut q (execDomainSet acc s) := by
  unfold execDomainSet
  repeat' (first | with_reducible (first | assumption | apply Canon_out | apply CanonOut_next | apply finish_canon | apply onJob_canon) | simp only [Canon_mk] | split | intro _ | dsimp only)

theorem writeHome_canon {q : List Instr} (s : State) (j : Job) (t : Nat) (a : Nat) (b : Bytes) (gen : BitVec 32) (h0 : Canon q s) : Canon q (writeHome s j t a b gen) := by
  unfold writeHome
  repeat' (first | with_reducible (first | assumption | apply Canon_out | apply dropCached_canon | apply sealRange_canon) | simp only [Canon_mk] | split | intro _ | dsimp only)

theorem claimSlot_canon {q : List Instr} (s : State) (j : Job) (t ix : Nat) (layer : BitVec 8) (home : Nat) (b : Bytes) (h0 : Canon q s) : Canon q (claimSlot s j t ix layer home b) := by
  unfold claimSlot
  repeat' (first | with_reducible (first | assumption | apply Canon_out | apply writeHome_canon) | simp only [Canon_mk] | split | intro _ | dsimp only)

theorem execAdapterLoad_canon {q : List Instr} (acc : BitVec 64) (s : State) (h0 : Canon q s) : CanonOut q (execAdapterLoad acc s) := by
  unfold execAdapterLoad
  repeat' (first | with_reducible (first | assumption | apply Canon_out | apply CanonOut_next | apply claimSlot_canon | apply updCmd_canon | apply finish_canon | apply onJob_canon) | simp only [Canon_mk] | split | intro _ | dsimp only)

theorem switchSlot_canon {q : List Instr} (s : State) (j : Job) (ix home : Nat) (shape : Slot → Slot) (h0 : Canon q s) : Canon q (switchSlot s j ix home shape) := by
  unfold switchSlot
  repeat' (first | with_reducible (first | assumption | apply Canon_out | apply dropCached_canon | apply writeHome_canon) | simp only [Canon_mk] | split | intro _ | dsimp only)

theorem execAdapterSwitch_canon {q : List Instr} (acc : BitVec 64) (s : State) (h0 : Canon q s) : CanonOut q (execAdapterSwitch acc s) := by
  unfold execAdapterSwitch
  repeat' (first | with_reducible (first | assumption | apply Canon_out | apply CanonOut_next | apply switchSlot_canon | apply finish_canon) | simp only [Canon_mk] | split | intro _ | dsimp only)

theorem execAdapterRelease_canon {q : List Instr} (acc : BitVec 64) (s : State) (h0 : Canon q s) : CanonOut q (execAdapterRelease acc s) := by
  unfold execAdapterRelease
  repeat' (first | with_reducible (first | assumption | apply Canon_out | apply CanonOut_next | apply updCmd_canon | apply finish_canon | apply onJob_canon) | simp only [Canon_mk] | split | intro _ | dsimp only)

theorem execSlotReleaseDone_canon {q : List Instr} (ix : Fin 65536) (s : State) (h0 : Canon q s) : CanonOut q (execSlotReleaseDone ix s) := by
  unfold execSlotReleaseDone
  repeat' (first | with_reducible (first | assumption | apply Canon_out | apply CanonOut_next | apply dropCached_canon | apply finish_canon) | simp only [Canon_mk] | split | intro _ | dsimp only)

theorem execAdapterPrefetch_canon {q : List Instr} (acc : BitVec 64) (s : State) (h0 : Canon q s) : CanonOut q (execAdapterPrefetch acc s) := by
  unfold execAdapterPrefetch
  repeat' (first | with_reducible (first | assumption | apply Canon_out | apply CanonOut_next | apply updCmd_canon | apply finish_canon | apply onJob_canon | apply foldl_canon | apply foldlA_canon | apply foldlB_canon | apply foldlP_canon) | simp only [Canon_mk] | split | intro _ | dsimp only)

theorem execAdapterEvict_canon {q : List Instr} (acc : BitVec 64) (s : State) (h0 : Canon q s) : CanonOut q (execAdapterEvict acc s) := by
  unfold execAdapterEvict
  repeat' (first | with_reducible (first | assumption | apply Canon_out | apply CanonOut_next | apply updCmd_canon | apply finish_canon | apply onJob_canon | apply foldl_canon | apply foldlA_canon | apply foldlB_canon | apply foldlP_canon) | simp only [Canon_mk] | split | intro _ | dsimp only)

theorem fillFails_canon {q : List Instr} (s : State) (j : Job) (i : Nat) (h0 : Canon q s) : Canon q (fillFails s j i) := by
  unfold fillFails
  repeat' (first | with_reducible (first | assumption | apply Canon_out | apply finishWith_canon | apply finish_canon | apply foldl_canon | apply foldlA_canon | apply foldlB_canon | apply foldlP_canon) | simp only [Canon_mk] | split | intro _ | dsimp only)

theorem execAdapterFetchDone_canon {q : List Instr} (ix : Fin 65536) (s : State) (h0 : Canon q s) : CanonOut q (execAdapterFetchDone ix s) := by
  unfold execAdapterFetchDone
  repeat' (first | with_reducible (first | assumption | apply Canon_out | apply CanonOut_next | apply fillFails_canon) | simp only [Canon_mk] | split | intro _ | dsimp only)

theorem setCounters_canon {q : List Instr} (s : State) (l : List Nat) (v : Nat) (h0 : Canon q s) : Canon q (setCounters s l v) := by
  unfold setCounters
  repeat' (first | with_reducible (first | assumption | apply Canon_out | apply hubWrite_canon | apply foldl_canon | apply foldlA_canon | apply foldlB_canon | apply foldlP_canon) | simp only [Canon_mk] | split | intro _ | dsimp only)

theorem commitUnit_canon {q : List Instr} (s : State) (j : Job) (r : TRec) (i t ver : Nat) (parts : List (Nat × Bytes)) (h0 : Canon q s) : Canon q (commitUnit s j r i t ver parts) := by
  unfold commitUnit
  repeat' (first | with_reducible (first | assumption | apply Canon_out | apply setCounters_canon | apply storeLine_canon | apply foldl_canon | apply foldlA_canon | apply foldlB_canon | apply foldlP_canon) | simp only [Canon_mk] | split | intro _ | dsimp only)

theorem stopWith_canon {q : List Instr} (s : State) (j : Job) (acc : BitVec 64) (x : Stop) (h0 : Canon q s) : Canon q (stopWith s j acc x) := by
  unfold stopWith
  repeat' (first | with_reducible (first | assumption | apply Canon_out | apply noteFrozen_canon | apply finish_canon) | simp only [Canon_mk] | split | intro _ | dsimp only)

theorem updateUnit_canon {q : List Instr} (j : Job) (acc : BitVec 64) (hh : Hyper) (c1 c2 eta : BitVec 32) (r : TRec) (t : Nat) (x : Upd) (u : Nat × Nat) (h0 : Canon q x.s) : Canon q (updateUnit j acc hh c1 c2 eta r t x u).s := by
  unfold updateUnit
  repeat' (first | with_reducible (first | assumption | apply Canon_out | apply commitUnit_canon | apply raise_canon) | simp only [Canon_mk] | split | intro _ | dsimp only)

theorem execUpdate_canon {q : List Instr} (acc : BitVec 64) (s : State) (h0 : Canon q s) : CanonOut q (execUpdate acc s) := by
  unfold execUpdate
  repeat' (first | with_reducible (first | assumption | apply Canon_out | apply CanonOut_next | apply finishWith_canon | apply updateUnit_canon | apply stopWith_canon | apply finish_canon | apply raise_canon | apply onJob_canon | apply foldl_canon | apply foldlA_canon | apply foldlB_canon | apply foldlP_canon | apply foldlU_canon) | simp only [Canon_mk] | split | intro _ | dsimp only)

theorem execInstall_canon {q : List Instr} (acc : BitVec 64) (s : State) (h0 : Canon q s) : CanonOut q (execInstall acc s) := by
  unfold execInstall
  repeat' (first | with_reducible (first | assumption | apply Canon_out | apply CanonOut_next | apply claimSlot_canon | apply updCmd_canon | apply finish_canon | apply onJob_canon) | simp only [Canon_mk] | split | intro _ | dsimp only)

theorem execCheckpointOut_canon {q : List Instr} (acc : BitVec 64) (s : State) (h0 : Canon q s) : CanonOut q (execCheckpointOut acc s) := by
  unfold execCheckpointOut
  repeat' (first | with_reducible (first | assumption | apply Canon_out | apply CanonOut_next | apply CanonWrite_ok | apply CanonWrite_frozen | apply CanonWrite_err | apply finishWith_canon | apply devWrite_canon | apply stopWith_canon | apply finish_canon | apply onJob_canon) | (refine CanonWrite_get (by with_reducible assumption) ?_) | simp only [Canon_mk] | split | intro _ | dsimp only)

theorem restoreTensor_canon {q : List Instr} (s : State) (j : Job) (t : Nat) (b : Bytes) (r : TRec) (offs : List Nat) (h0 : Canon q s) : Canon q (restoreTensor s j t b r offs) := by
  unfold restoreTensor
  repeat' (first | with_reducible (first | assumption | apply Canon_out | apply commitUnit_canon | apply foldl_canon | apply foldlA_canon | apply foldlB_canon | apply foldlP_canon) | simp only [Canon_mk] | split | intro _ | dsimp only)

theorem restoreAll_canon {q : List Instr} (s : State) (j : Job) (t : Nat) (b : Bytes) (rs : List TRec) (h0 : Canon q s) : Canon q (restoreAll s j t b rs) := by
  unfold restoreAll
  repeat' (first | with_reducible (first | assumption | apply Canon_out | apply restoreTensor_canon | apply foldl_canon | apply foldlA_canon | apply foldlB_canon | apply foldlP_canon) | simp only [Canon_mk] | split | intro _ | dsimp only)

theorem execCheckpointIn_canon {q : List Instr} (acc : BitVec 64) (s : State) (h0 : Canon q s) : CanonOut q (execCheckpointIn acc s) := by
  unfold execCheckpointIn
  repeat' (first | with_reducible (first | assumption | apply Canon_out | apply CanonOut_next | apply restoreAll_canon | apply stopWith_canon | apply finish_canon | apply onJob_canon) | simp only [Canon_mk] | split | intro _ | dsimp only)

theorem dropSeq_canon {q : List Instr} (s : State) (qq : Sequence) (st : Byte) (h0 : Canon q s) : Canon q (dropSeq s qq st) := by
  unfold dropSeq
  repeat' (first | with_reducible (first | assumption | apply Canon_out | apply finishWith_canon) | simp only [Canon_mk] | split | intro _ | dsimp only)

theorem execAdmit_canon {q : List Instr} (acc : BitVec 64) (s : State) (h0 : Canon q s) : CanonOut q (execAdmit acc s) := by
  unfold execAdmit
  repeat' (first | with_reducible (first | assumption | apply Canon_out | apply CanonOut_next | apply finishWith_canon | apply updCmd_canon | apply onJob_canon) | simp only [Canon_mk] | split | intro _ | dsimp only)

theorem execRetire_canon {q : List Instr} (acc : BitVec 64) (s : State) (h0 : Canon q s) : CanonOut q (execRetire acc s) := by
  unfold execRetire
  dsimp only
  repeat' (first | with_reducible (first | assumption | apply Canon_out | apply CanonOut_next | apply dropSeq_canon | apply finish_canon | apply updSeq_canon | apply onJob_canon) | simp only [Canon_mk] | split | intro _ | dsimp only)

theorem dropEnded_canon {q : List Instr} (s : State) (h0 : Canon q s) : Canon q (dropEnded s) := by
  unfold dropEnded
  repeat' (first | with_reducible (first | assumption | apply Canon_out | apply dropSeq_canon | apply foldl_canon | apply foldlA_canon | apply foldlB_canon | apply foldlP_canon | apply foldlWk_canon) | simp only [Canon_mk] | split | intro _ | dsimp only)

theorem spillSeq_canon {q : List Instr} (s : State) (qq : Sequence) (h0 : Canon q s) : Canon q (spillSeq s qq) := by
  unfold spillSeq
  repeat' (first | with_reducible (first | assumption | apply Canon_out | apply dropCached_canon | apply sealRange_canon | apply updSeq_canon) | simp only [Canon_mk] | split | intro _ | dsimp only)

theorem growSeq_canon {q : List Instr} (n : Nat) (s : State) (d : Nat) (acc : BitVec 64) (h0 : Canon q s) : Canon q (growSeq n s d acc) := by
  induction n generalizing s with
  | zero => exact h0
  | succ n ih =>
    unfold growSeq
    dsimp only
    repeat' (first | with_reducible assumption | with_reducible apply ih | with_reducible apply updSeq_canon | with_reducible apply spillSeq_canon | split)

theorem returnSeq_canon {q : List Instr} (d : Nat) (w : Walk) (acc : BitVec 64) (h0 : Canon q w.s) : Canon q (returnSeq d w acc).s := by
  unfold returnSeq
  repeat' (first | with_reducible (first | assumption | apply Canon_out | apply dropSeq_canon | apply updSeq_canon) | simp only [Canon_mk] | split | intro _ | dsimp only)

theorem parkSeq_canon {q : List Instr} (s : State) (qq : Sequence) (h0 : Canon q s) : Canon q (parkSeq s qq) := by
  unfold parkSeq
  repeat' (first | with_reducible (first | assumption | apply Canon_out | apply dropSeq_canon | apply updSeq_canon) | simp only [Canon_mk] | split | intro _ | dsimp only)

theorem joinSeq_canon {q : List Instr} (d : Nat) (w : Walk) (acc : BitVec 64) (h0 : Canon q w.s) : Canon q (joinSeq d w acc).s := by
  unfold joinSeq
  repeat' (first | with_reducible (first | assumption | apply Canon_out | apply parkSeq_canon | apply updSeq_canon) | simp only [Canon_mk] | split | intro _ | dsimp only)

theorem boundaryDomain_canon {q : List Instr} (s : State) (d : Nat) (h0 : Canon q s) : Canon q (boundaryDomain s d) := by
  unfold boundaryDomain
  repeat' (first | with_reducible (first | assumption | apply Canon_out | apply returnSeq_canon | apply growSeq_canon | apply joinSeq_canon | apply foldl_canon | apply foldlA_canon | apply foldlB_canon | apply foldlP_canon | apply foldlWk_canon) | simp only [Canon_mk] | split | intro _ | dsimp only)

theorem expireParked_canon {q : List Instr} (s : State) (h0 : Canon q s) : Canon q (expireParked s) := by
  unfold expireParked
  repeat' (first | with_reducible (first | assumption | apply Canon_out | apply dropSeq_canon | apply foldl_canon | apply foldlA_canon | apply foldlB_canon | apply foldlP_canon | apply foldlWk_canon) | simp only [Canon_mk] | split | intro _ | dsimp only)

theorem execStepBoundary_canon {q : List Instr} (s : State) (h0 : Canon q s) : CanonOut q (execStepBoundary s) := by
  unfold execStepBoundary
  repeat' (first | with_reducible (first | assumption | apply Canon_out | apply CanonOut_next | apply boundaryDomain_canon | apply expireParked_canon | apply dropEnded_canon | apply foldl_canon | apply foldlA_canon | apply foldlB_canon | apply foldlP_canon) | simp only [Canon_mk] | split | intro _ | dsimp only)

theorem execStepStart_canon {q : List Instr} (s : State) (h0 : Canon q s) : CanonOut q (execStepStart s) := by
  unfold execStepStart
  repeat' (first | with_reducible (first | assumption | apply Canon_out | apply CanonOut_next | apply markThrottled_canon | apply startGlades_canon | apply wakeDomains_canon | apply gladesDone_canon | apply advanceTo_canon | apply hubWrite_canon) | simp only [Canon_mk] | split | intro _ | dsimp only)

theorem execParkLimitExpiry_canon {q : List Instr} (acc : BitVec 64) (s : State) (h0 : Canon q s) : CanonOut q (execParkLimitExpiry acc s) := by
  unfold execParkLimitExpiry
  repeat' (first | with_reducible (first | assumption | apply Canon_out | apply CanonOut_next | apply advanceTo_canon) | simp only [Canon_mk] | split | intro _ | dsimp only)

end Sys2Proof.Laws
end

