-- ==== Sys2Proof/Laws/KeepHost.lean ====
section
/-! SUPPORT. Canonical memories and the queue, kept by the host path, Ranger, SPDM, registers, power, errors and pins. -/

namespace Sys2Proof.Laws

open Sys2Proof.Machine Sys2Proof.Safety

set_option linter.unusedTactic false
set_option linter.unreachableTactic false
set_option linter.unusedSimpArgs false

theorem execStagingWrite_canon {q : List Instr} (a : BitVec 30) (b : Bytes) (s : State) (h0 : Canon q s) : CanonOut q (execStagingWrite a b s) := by
  unfold execStagingWrite
  repeat' (first | with_reducible (first | assumption | apply Canon_out | apply CanonOut_next | apply CanonMem_wr | apply CanonMem_hw | apply CanonMem_filter | apply takeCredit_canon | apply scrubLine_canon | apply foldl_canon | apply foldlA_canon | apply foldlB_canon | apply foldlP_canon) | simp only [Canon_mk] | split | intro _ | dsimp only)

theorem execStagingRead_canon {q : List Instr} (a : BitVec 30) (n : Nat) (s : State) (h0 : Canon q s) : CanonOut q (execStagingRead a n s) := by
  unfold execStagingRead
  repeat' (first | with_reducible (first | assumption | apply Canon_out | apply CanonOut_next | apply emit_canon) | simp only [Canon_mk] | split | intro _ | dsimp only)

theorem execConfigRequest_canon {q : List Instr} (s : State) (h0 : Canon q s) : CanonOut q (execConfigRequest s) := by
  unfold execConfigRequest
  repeat' (first | with_reducible (first | assumption | apply Canon_out | apply CanonOut_next | apply emit_canon) | simp only [Canon_mk] | split | intro _ | dsimp only)

theorem execFruRead_canon {q : List Instr} (off n : Nat) (s : State) (h0 : Canon q s) : CanonOut q (execFruRead off n s) := by
  unfold execFruRead
  repeat' (first | with_reducible (first | assumption | apply Canon_out | apply CanonOut_next | apply emit_canon) | simp only [Canon_mk] | split | intro _ | dsimp only)

theorem execMctpTelemetry_canon {q : List Instr} (s : State) (h0 : Canon q s) : CanonOut q (execMctpTelemetry s) := by
  unfold execMctpTelemetry
  repeat' (first | with_reducible (first | assumption | apply Canon_out | apply CanonOut_next | apply acc_fail_canon | apply emit_canon) | simp only [Canon_mk] | split | intro _ | dsimp only)

theorem mbReply_canon {q : List Instr} (s : State) (result : BitVec 8) (body : Bytes) (h0 : Canon q s) : Canon q (mbReply s result body) := by
  unfold mbReply
  repeat' (first | with_reducible (first | assumption | apply Canon_out | apply sendVector_canon | apply hostWrite_canon) | simp only [Canon_mk] | split | intro _ | dsimp only)

theorem onMessage_canon {q : List Instr} (s : State) (code : Nat) (f : State) (h0 : Canon q s) (h1 : Canon q f) : CanonOut q (onMessage s code f) := by
  unfold onMessage
  repeat' (first | with_reducible (first | assumption | apply Canon_out | apply CanonOut_next | apply mbReply_canon) | simp only [Canon_mk] | split | intro _ | dsimp only)

theorem mbReplyIn_canon {q : List Instr} (s : State) (x : Session) (body : Bytes) (h0 : Canon q s) : Canon q (mbReplyIn s x body) := by
  unfold mbReplyIn
  repeat' (first | with_reducible (first | assumption | apply Canon_out | apply mbReply_canon) | simp only [Canon_mk] | split | intro _ | dsimp only)

theorem inSession_canon {q : List Instr} (s : State) (b : Bool) (f : State → Session → Bytes → State) (hf : ∀ t x y, Canon q t → Canon q (f t x y)) (h0 : Canon q s) : Canon q (inSession s b f) := by
  unfold inSession
  dsimp only
  repeat' (first | with_reducible assumption | with_reducible apply hf | with_reducible apply mbReply_canon | with_reducible apply Canon_out | simp only [Canon_mk] | split)

theorem setBank_canon {q : List Instr} (s : State) (b : Bool) (v : Bank) (h0 : Canon q s) : Canon q (setBank s b v) := by
  unfold setBank
  repeat' (first | with_reducible (first | assumption | apply Canon_out) | simp only [Canon_mk] | split | intro _ | dsimp only)

theorem makeReport_canon {q : List Instr} (s : State) (nonce : Bytes) (mask : Nat) (ten : Option Nat) (h0 : Canon q s) : Canon q (makeReport s nonce mask ten).1 := by
  unfold makeReport
  repeat' (first | with_reducible (first | assumption | apply Canon_out | apply drawRandom_canon) | simp only [Canon_mk] | split | intro _ | dsimp only)

theorem execReport_canon {q : List Instr} (s : State) (h0 : Canon q s) : CanonOut q (execReport s) := by
  unfold execReport
  repeat' (first | with_reducible (first | assumption | apply Canon_out | apply CanonOut_next | apply makeReport_canon | apply onMessage_canon | apply mbReplyIn_canon | apply inSession_canon | apply mbReply_canon) | (refine CanonPair_get (by with_reducible assumption) ?_) | simp only [Canon_mk] | split | intro _ | dsimp only)

theorem recordOwner_canon {q : List Instr} (s : State) (role : Nat) (d : Digest) (h0 : Canon q s) : Canon q (recordOwner s role d) := by
  unfold recordOwner
  repeat' (first | with_reducible (first | assumption | apply Canon_out) | simp only [Canon_mk] | split | intro _ | dsimp only)

theorem eraseEph_canon {q : List Instr} (s : State) (nonce : Bytes) (h0 : Canon q s) : Canon q (eraseEph s nonce) := by
  unfold eraseEph
  repeat' (first | with_reducible (first | assumption | apply Canon_out) | simp only [Canon_mk] | split | intro _ | dsimp only)

theorem execSessionOpen_canon {q : List Instr} (s : State) (h0 : Canon q s) : CanonOut q (execSessionOpen s) := by
  unfold execSessionOpen
  repeat' (first | with_reducible (first | assumption | apply Canon_out | apply CanonOut_next | apply recordOwner_canon | apply drawRandom_canon | apply setSession_canon | apply onMessage_canon | apply eraseEph_canon | apply mbReply_canon) | simp only [Canon_mk] | split | intro _ | dsimp only)

theorem execSessionClose_canon {q : List Instr} (s : State) (h0 : Canon q s) : CanonOut q (execSessionClose s) := by
  unfold execSessionClose
  repeat' (first | with_reducible (first | assumption | apply Canon_out | apply CanonOut_next | apply setSession_canon | apply onMessage_canon | apply mbReplyIn_canon | apply inSession_canon | apply mbReply_canon) | simp only [Canon_mk] | split | intro _ | dsimp only)

theorem execSetPolicy_canon {q : List Instr} (s : State) (h0 : Canon q s) : CanonOut q (execSetPolicy s) := by
  unfold execSetPolicy
  repeat' (first | with_reducible (first | assumption | apply Canon_out | apply CanonOut_next | apply onMessage_canon | apply mbReplyIn_canon | apply inSession_canon | apply mbReply_canon) | simp only [Canon_mk] | split | intro _ | dsimp only)

theorem execSetCkptKey_canon {q : List Instr} (s : State) (h0 : Canon q s) : CanonOut q (execSetCkptKey s) := by
  unfold execSetCkptKey
  repeat' (first | with_reducible (first | assumption | apply Canon_out | apply CanonOut_next | apply drawRandom_canon | apply onMessage_canon | apply mbReplyIn_canon | apply inSession_canon | apply mbReply_canon) | simp only [Canon_mk] | split | intro _ | dsimp only)

theorem execAdapterList_canon {q : List Instr} (s : State) (h0 : Canon q s) : CanonOut q (execAdapterList s) := by
  unfold execAdapterList
  repeat' (first | with_reducible (first | assumption | apply Canon_out | apply CanonOut_next | apply onMessage_canon | apply mbReplyIn_canon | apply inSession_canon | apply mbReply_canon) | simp only [Canon_mk] | split | intro _ | dsimp only)

theorem execProgTable_canon {q : List Instr} (s : State) (h0 : Canon q s) : CanonOut q (execProgTable s) := by
  unfold execProgTable
  repeat' (first | with_reducible (first | assumption | apply Canon_out | apply CanonOut_next | apply onMessage_canon | apply mbReply_canon) | simp only [Canon_mk] | split | intro _ | dsimp only)

theorem execJobConfig_canon {q : List Instr} (s : State) (h0 : Canon q s) : CanonOut q (execJobConfig s) := by
  unfold execJobConfig
  repeat' (first | with_reducible (first | assumption | apply Canon_out | apply CanonOut_next | apply onMessage_canon | apply mbReply_canon) | simp only [Canon_mk] | split | intro _ | dsimp only)

theorem execCertChain_canon {q : List Instr} (s : State) (h0 : Canon q s) : CanonOut q (execCertChain s) := by
  unfold execCertChain
  repeat' (first | with_reducible (first | assumption | apply Canon_out | apply CanonOut_next | apply onMessage_canon | apply mbReply_canon) | simp only [Canon_mk] | split | intro _ | dsimp only)

theorem execFwStage_canon {q : List Instr} (s : State) (h0 : Canon q s) : CanonOut q (execFwStage s) := by
  unfold execFwStage
  repeat' (first | with_reducible (first | assumption | apply Canon_out | apply CanonOut_next | apply CanonMem_wr | apply CanonMem_hw | apply onMessage_canon | apply mbReply_canon | apply setBank_canon) | simp only [Canon_mk] | split | intro _ | dsimp only)

theorem execFwActivate_canon {q : List Instr} (check : Fin 6) (s : State) (h0 : Canon q s) : CanonOut q (execFwActivate check s) := by
  unfold execFwActivate
  repeat' (first | with_reducible (first | assumption | apply Canon_out | apply CanonOut_next | apply onMessage_canon | apply mbReply_canon | apply setBank_canon) | simp only [Canon_mk] | split | intro _ | dsimp only)

theorem execFwAbandon_canon {q : List Instr} (s : State) (h0 : Canon q s) : CanonOut q (execFwAbandon s) := by
  unfold execFwAbandon
  repeat' (first | with_reducible (first | assumption | apply Canon_out | apply CanonOut_next | apply onMessage_canon | apply mbReply_canon | apply setBank_canon) | simp only [Canon_mk] | split | intro _ | dsimp only)

theorem execFwCommitSvn_canon {q : List Instr} (s : State) (h0 : Canon q s) : CanonOut q (execFwCommitSvn s) := by
  unfold execFwCommitSvn
  repeat' (first | with_reducible (first | assumption | apply Canon_out | apply CanonOut_next | apply onMessage_canon | apply mbReply_canon) | simp only [Canon_mk] | split | intro _ | dsimp only)

theorem execDrbgReseed_canon {q : List Instr} (s : State) (h0 : Canon q s) : CanonOut q (execDrbgReseed s) := by
  unfold execDrbgReseed
  repeat' (first | with_reducible (first | assumption | apply Canon_out | apply CanonOut_next) | simp only [Canon_mk] | split | intro _ | dsimp only)

theorem execEphemeralKeyExpiry_canon {q : List Instr} (s : State) (h0 : Canon q s) : CanonOut q (execEphemeralKeyExpiry s) := by
  have h : ∀ n (r : Ranger), Canon q { advanceTo s n with rgr := r } := fun n r => advanceTo_canon s n h0
  unfold execEphemeralKeyExpiry
  split
  · exact CanonOut_next h0
  · exact CanonOut_ite (CanonOut_next (h _ _)) (CanonOut_next h0)

theorem spdmError_canon {q : List Instr} (s : State) (code : Byte) (h0 : Canon q s) : Canon q (spdmError s code) := by
  unfold spdmError
  repeat' (first | with_reducible (first | assumption | apply Canon_out | apply emit_canon) | simp only [Canon_mk] | split | intro _ | dsimp only)

theorem onSpdm_canon {q : List Instr} (s : State) (mctp : Bool) (f : State) (h0 : Canon q s) (h1 : Canon q f) : CanonOut q (onSpdm s mctp f) := by
  unfold onSpdm
  repeat' (first | with_reducible (first | assumption | apply Canon_out | apply CanonOut_next | apply spdmError_canon) | simp only [Canon_mk] | split | intro _ | dsimp only)

theorem spdmUnsupported_canon {q : List Instr} (s : State) (code : Byte) (h0 : Canon q s) : Canon q (spdmUnsupported s code) := by
  unfold spdmUnsupported
  repeat' (first | with_reducible (first | assumption | apply Canon_out | apply emit_canon) | simp only [Canon_mk] | split | intro _ | dsimp only)

theorem updSpdm_canon {q : List Instr} (s : State) (sid : BitVec 32) (f : SpdmSes → SpdmSes) (h0 : Canon q s) : Canon q (updSpdm s sid f) := by
  unfold updSpdm
  repeat' (first | with_reducible (first | assumption | apply Canon_out) | simp only [Canon_mk] | split | intro _ | dsimp only)

theorem answerIn_canon {q : List Instr} (s : State) (sid : BitVec 32) (kind code : Byte) (b : Bytes) (h0 : Canon q s) : Canon q (answerIn s sid kind code b) := by
  unfold answerIn
  repeat' (first | with_reducible (first | assumption | apply Canon_out | apply updSpdm_canon | apply emit_canon) | simp only [Canon_mk] | split | intro _ | dsimp only)

theorem spdmIn_canon {q : List Instr} (s : State) (sid : BitVec 32) (code : Byte) (b : Bytes) (h0 : Canon q s) : Canon q (spdmIn s sid code b) := by
  unfold spdmIn
  repeat' (first | with_reducible (first | assumption | apply Canon_out | apply answerIn_canon) | simp only [Canon_mk] | split | intro _ | dsimp only)

theorem tdispIn_canon {q : List Instr} (s : State) (sid : BitVec 32) (code : Byte) (b : Bytes) (h0 : Canon q s) : Canon q (tdispIn s sid code b) := by
  unfold tdispIn
  repeat' (first | with_reducible (first | assumption | apply Canon_out | apply answerIn_canon) | simp only [Canon_mk] | split | intro _ | dsimp only)

theorem inSpdm_canon {q : List Instr} (s : State) (mctp : Bool) (sid : BitVec 32) (f : State) (h0 : Canon q s) (h1 : Canon q f) : CanonOut q (inSpdm s mctp sid f) := by
  unfold inSpdm
  repeat' (first | with_reducible (first | assumption | apply Canon_out | apply CanonOut_next | apply spdmError_canon | apply onSpdm_canon) | simp only [Canon_mk] | split | intro _ | dsimp only)

theorem aliasSign_canon {q : List Instr} (s : State) (b : Bytes) (h0 : Canon q s) : Canon q (aliasSign s b).1 := by
  unfold aliasSign
  repeat' (first | with_reducible (first | assumption | apply Canon_out | apply drawRandom_canon) | simp only [Canon_mk] | split | intro _ | dsimp only)

theorem execGetVersion_canon {q : List Instr} (mctp : Bool) (s : State) (h0 : Canon q s) : CanonOut q (execGetVersion mctp s) := by
  unfold execGetVersion
  repeat' (first | with_reducible (first | assumption | apply Canon_out | apply CanonOut_next | apply onSpdm_canon | apply emit_canon) | simp only [Canon_mk] | split | intro _ | dsimp only)

theorem execGetCapabilities_canon {q : List Instr} (mctp : Bool) (s : State) (h0 : Canon q s) : CanonOut q (execGetCapabilities mctp s) := by
  unfold execGetCapabilities
  repeat' (first | with_reducible (first | assumption | apply Canon_out | apply CanonOut_next | apply onSpdm_canon | apply emit_canon) | simp only [Canon_mk] | split | intro _ | dsimp only)

theorem execGetDigests_canon {q : List Instr} (mctp : Bool) (s : State) (h0 : Canon q s) : CanonOut q (execGetDigests mctp s) := by
  unfold execGetDigests
  repeat' (first | with_reducible (first | assumption | apply Canon_out | apply CanonOut_next | apply onSpdm_canon | apply emit_canon) | simp only [Canon_mk] | split | intro _ | dsimp only)

theorem execGetCertificate_canon {q : List Instr} (mctp : Bool) (slot : Byte) (offset len : BitVec 16) (s : State) (h0 : Canon q s) : CanonOut q (execGetCertificate mctp slot offset len s) := by
  unfold execGetCertificate
  repeat' (first | with_reducible (first | assumption | apply Canon_out | apply CanonOut_next | apply spdmUnsupported_canon | apply onSpdm_canon | apply emit_canon) | simp only [Canon_mk] | split | intro _ | dsimp only)

theorem execChallenge_canon {q : List Instr} (mctp : Bool) (slot : Byte) (nonce : Digest) (s : State) (h0 : Canon q s) : CanonOut q (execChallenge mctp slot nonce s) := by
  unfold execChallenge
  repeat' (first | with_reducible (first | assumption | apply Canon_out | apply CanonOut_next | apply spdmUnsupported_canon | apply drawRandom_canon | apply aliasSign_canon | apply onSpdm_canon | apply emit_canon) | (refine CanonPair_get (by with_reducible assumption) ?_) | simp only [Canon_mk] | split | intro _ | dsimp only)

theorem measurement_canon {q : List Instr} (s : State) (block : Nat) (nonce : Digest) (h0 : Canon q s) : Canon q (measurement s block nonce).1 := by
  unfold measurement
  repeat' (first | with_reducible (first | assumption | apply Canon_out | apply makeReport_canon) | (refine CanonPair_get (by with_reducible assumption) ?_) | simp only [Canon_mk] | split | intro _ | dsimp only)

theorem execGetMeasurements_canon {q : List Instr} (mctp : Bool) (block : Byte) (nonce : Digest) (s : State) (h0 : Canon q s) : CanonOut q (execGetMeasurements mctp block nonce s) := by
  unfold execGetMeasurements
  repeat' (first | with_reducible (first | assumption | apply Canon_out | apply CanonOut_next | apply spdmUnsupported_canon | apply measurement_canon | apply aliasSign_canon | apply onSpdm_canon | apply emit_canon | apply foldl_canon | apply foldlA_canon | apply foldlB_canon | apply foldlP_canon) | (refine CanonPair_get (by with_reducible assumption) ?_) | simp only [Canon_mk] | split | intro _ | dsimp only)

theorem execKeyExchange_canon {q : List Instr} (mctp : Bool) (req : BitVec 16) (k : KeyShare) (s : State) (h0 : Canon q s) : CanonOut q (execKeyExchange mctp req k s) := by
  unfold execKeyExchange
  repeat' (first | with_reducible (first | assumption | apply Canon_out | apply CanonOut_next | apply drawRandom_canon | apply spdmError_canon | apply aliasSign_canon | apply onSpdm_canon | apply emit_canon) | (refine CanonPair_get (by with_reducible assumption) ?_) | simp only [Canon_mk] | split | intro _ | dsimp only)

theorem execFinish_canon {q : List Instr} (mctp : Bool) (sid : BitVec 32) (macOk : Bool) (s : State) (h0 : Canon q s) : CanonOut q (execFinish mctp sid macOk s) := by
  unfold execFinish
  repeat' (first | with_reducible (first | assumption | apply Canon_out | apply CanonOut_next | apply spdmError_canon | apply updSpdm_canon | apply onSpdm_canon | apply spdmIn_canon) | simp only [Canon_mk] | split | intro _ | dsimp only)

theorem execHeartbeat_canon {q : List Instr} (mctp : Bool) (sid : BitVec 32) (s : State) (h0 : Canon q s) : CanonOut q (execHeartbeat mctp sid s) := by
  unfold execHeartbeat
  repeat' (first | with_reducible (first | assumption | apply Canon_out | apply CanonOut_next | apply spdmIn_canon | apply inSpdm_canon) | simp only [Canon_mk] | split | intro _ | dsimp only)

theorem execKeyUpdate_canon {q : List Instr} (x : SpdmAt) (op : Byte) (s : State) (h0 : Canon q s) : CanonOut q (execKeyUpdate x op s) := by
  unfold execKeyUpdate
  repeat' (first | with_reducible (first | assumption | apply Canon_out | apply CanonOut_next | apply updSpdm_canon | apply spdmIn_canon | apply inSpdm_canon) | simp only [Canon_mk] | split | intro _ | dsimp only)

theorem execEndSession_canon {q : List Instr} (mctp : Bool) (sid : BitVec 32) (s : State) (h0 : Canon q s) : CanonOut q (execEndSession mctp sid s) := by
  unfold execEndSession
  repeat' (first | with_reducible (first | assumption | apply Canon_out | apply CanonOut_next | apply spdmIn_canon | apply inSpdm_canon) | simp only [Canon_mk] | split | intro _ | dsimp only)

theorem execIdeKm_canon {q : List Instr} (x : SpdmAt) (stream : Byte) (key : Digest) (s : State) (h0 : Canon q s) : CanonOut q (execIdeKm x stream key s) := by
  unfold execIdeKm
  repeat' (first | with_reducible (first | assumption | apply Canon_out | apply CanonOut_next | apply spdmIn_canon | apply inSpdm_canon) | simp only [Canon_mk] | split | intro _ | dsimp only)

theorem execSpdmUnsupportedRequest_canon {q : List Instr} (mctp : Bool) (code : Byte) (s : State) (h0 : Canon q s) : CanonOut q (execSpdmUnsupportedRequest mctp code s) := by
  unfold execSpdmUnsupportedRequest
  repeat' (first | with_reducible (first | assumption | apply Canon_out | apply CanonOut_next | apply spdmUnsupported_canon | apply onSpdm_canon) | simp only [Canon_mk] | split | intro _ | dsimp only)

theorem tdiError_canon {q : List Instr} (s : State) (sid : BitVec 32) (code : Nat) (h0 : Canon q s) : Canon q (tdiError s sid code) := by
  unfold tdiError
  repeat' (first | with_reducible (first | assumption | apply Canon_out | apply tdispIn_canon) | simp only [Canon_mk] | split | intro _ | dsimp only)

theorem setTdi_canon {q : List Instr} (s : State) (t : TdiSt) (h0 : Canon q s) : Canon q (setTdi s t) := by
  unfold setTdi
  repeat' (first | with_reducible (first | assumption | apply Canon_out) | simp only [Canon_mk] | split | intro _ | dsimp only)

theorem execGetTdispVersion_canon {q : List Instr} (x : SpdmAt) (s : State) (h0 : Canon q s) : CanonOut q (execGetTdispVersion x s) := by
  unfold execGetTdispVersion
  repeat' (first | with_reducible (first | assumption | apply Canon_out | apply CanonOut_next | apply tdispIn_canon | apply inSpdm_canon) | simp only [Canon_mk] | split | intro _ | dsimp only)

theorem execGetTdispCapabilities_canon {q : List Instr} (x : SpdmAt) (s : State) (h0 : Canon q s) : CanonOut q (execGetTdispCapabilities x s) := by
  unfold execGetTdispCapabilities
  repeat' (first | with_reducible (first | assumption | apply Canon_out | apply CanonOut_next | apply tdispIn_canon | apply inSpdm_canon) | simp only [Canon_mk] | split | intro _ | dsimp only)

theorem execLockInterfaceRequest_canon {q : List Instr} (x : SpdmAt) (s : State) (h0 : Canon q s) : CanonOut q (execLockInterfaceRequest x s) := by
  unfold execLockInterfaceRequest
  repeat' (first | with_reducible (first | assumption | apply Canon_out | apply CanonOut_next | apply drawRandom_canon | apply tdiError_canon | apply tdispIn_canon | apply inSpdm_canon | apply setTdi_canon) | simp only [Canon_mk] | split | intro _ | dsimp only)

theorem execGetDeviceInterfaceReport_canon {q : List Instr} (x : SpdmAt) (s : State) (h0 : Canon q s) : CanonOut q (execGetDeviceInterfaceReport x s) := by
  unfold execGetDeviceInterfaceReport
  repeat' (first | with_reducible (first | assumption | apply Canon_out | apply CanonOut_next | apply tdiError_canon | apply tdispIn_canon | apply inSpdm_canon) | simp only [Canon_mk] | split | intro _ | dsimp only)

theorem execGetDeviceInterfaceState_canon {q : List Instr} (x : SpdmAt) (s : State) (h0 : Canon q s) : CanonOut q (execGetDeviceInterfaceState x s) := by
  unfold execGetDeviceInterfaceState
  repeat' (first | with_reducible (first | assumption | apply Canon_out | apply CanonOut_next | apply tdispIn_canon | apply inSpdm_canon) | simp only [Canon_mk] | split | intro _ | dsimp only)

theorem execStartInterfaceRequest_canon {q : List Instr} (x : SpdmAt) (nonce : Digest) (s : State) (h0 : Canon q s) : CanonOut q (execStartInterfaceRequest x nonce s) := by
  unfold execStartInterfaceRequest
  repeat' (first | with_reducible (first | assumption | apply Canon_out | apply CanonOut_next | apply tdiError_canon | apply tdispIn_canon | apply inSpdm_canon | apply setTdi_canon) | simp only [Canon_mk] | split | intro _ | dsimp only)

theorem execStopInterfaceRequest_canon {q : List Instr} (x : SpdmAt) (s : State) (h0 : Canon q s) : CanonOut q (execStopInterfaceRequest x s) := by
  unfold execStopInterfaceRequest
  repeat' (first | with_reducible (first | assumption | apply Canon_out | apply CanonOut_next | apply tdispIn_canon | apply inSpdm_canon | apply setTdi_canon) | simp only [Canon_mk] | split | intro _ | dsimp only)

theorem groveLost_canon {q : List Instr} (s : State) (d : Nat) (h0 : Canon q s) : Canon q (groveLost s d) := by
  unfold groveLost
  repeat' (first | with_reducible (first | assumption | apply Canon_out | apply faultGlade_canon | apply setGlade_canon | apply foldl_canon | apply foldlA_canon | apply foldlB_canon | apply foldlP_canon) | simp only [Canon_mk] | split | intro _ | dsimp only)

theorem endCtl_canon {q : List Instr} (s : State) (p : Cmd → Bool) (st : Byte) (h0 : Canon q s) : Canon q (endCtl s p st) := by
  unfold endCtl
  repeat' (first | with_reducible (first | assumption | apply Canon_out | apply finish_canon | apply foldl_canon | apply foldlA_canon | apply foldlB_canon | apply foldlP_canon) | simp only [Canon_mk] | split | intro _ | dsimp only)

theorem canopyLost_canon {q : List Instr} (s : State) (d : Nat) (h0 : Canon q s) : Canon q (canopyLost s d) := by
  unfold canopyLost
  repeat' (first | with_reducible (first | assumption | apply Canon_out | apply setChan_canon | apply endJob_canon | apply endCtl_canon | apply foldl_canon | apply foldlA_canon | apply foldlB_canon | apply foldlP_canon) | simp only [Canon_mk] | split | intro _ | dsimp only)

theorem horizonLost_canon {q : List Instr} (s : State) (hh : Nat) (h0 : Canon q s) : Canon q (horizonLost s hh) := by
  unfold horizonLost
  repeat' (first | with_reducible (first | assumption | apply Canon_out | apply portLeaves_canon | apply setPort_canon | apply foldl_canon | apply foldlA_canon | apply foldlB_canon | apply foldlP_canon) | simp only [Canon_mk] | split | intro _ | dsimp only)

theorem startDieReset_canon {q : List Instr} (s : State) (d : Nat) (h0 : Canon q s) : Canon q (startDieReset s d) := by
  unfold startDieReset
  repeat' (first | with_reducible (first | assumption | apply Canon_out | apply horizonLost_canon | apply raiseEpoch_canon | apply canopyLost_canon | apply groveLost_canon | apply setPd_canon | apply foldl_canon | apply foldlA_canon | apply foldlB_canon | apply foldlP_canon) | simp only [Canon_mk] | split | intro _ | dsimp only)

theorem fenceChannel_canon {q : List Instr} (s : State) (c : Nat) (h0 : Canon q s) : Canon q (fenceChannel s c) := by
  unfold fenceChannel
  repeat' (first | with_reducible (first | assumption | apply Canon_out | apply remapIfFree_canon | apply raiseEpoch_canon | apply setChan_canon) | simp only [Canon_mk] | split | intro _ | dsimp only)

theorem fencePort_canon {q : List Instr} (s : State) (k : Nat) (h0 : Canon q s) : Canon q (fencePort s k) := by
  unfold fencePort
  repeat' (first | with_reducible (first | assumption | apply Canon_out | apply portLeaves_canon | apply raiseEpoch_canon) | simp only [Canon_mk] | split | intro _ | dsimp only)

theorem framesLost_canon {q : List Instr} (s : State) (d : Nat) (h0 : Canon q s) : Canon q (framesLost s d) := by
  unfold framesLost
  repeat' (first | with_reducible (first | assumption | apply Canon_out | apply finish_canon | apply foldl_canon | apply foldlA_canon | apply foldlB_canon | apply foldlP_canon) | simp only [Canon_mk] | split | intro _ | dsimp only)

theorem fenceDie_canon {q : List Instr} (s : State) (d : Nat) (h0 : Canon q s) : Canon q (fenceDie s d) := by
  unfold fenceDie
  repeat' (first | with_reducible (first | assumption | apply Canon_out | apply raiseEpoch_canon | apply setChan_canon | apply setPd_canon | apply foldl_canon | apply foldlA_canon | apply foldlB_canon | apply foldlP_canon) | simp only [Canon_mk] | split | intro _ | dsimp only)

theorem hubDieReset_canon {q : List Instr} (s : State) (d : Nat) (h0 : Canon q s) : Canon q (hubDieReset s d) := by
  unfold hubDieReset
  repeat' (first | with_reducible (first | assumption | apply Canon_out | apply startDieReset_canon) | simp only [Canon_mk] | split | intro _ | dsimp only)

theorem execDieResetDone_canon {q : List Instr} (die : Fin 24) (pass : Bool) (s : State) (h0 : Canon q s) : CanonOut q (execDieResetDone die pass s) := by
  unfold execDieResetDone
  repeat' (first | with_reducible (first | assumption | apply Canon_out | apply CanonOut_next | apply framesLost_canon | apply fenceDie_canon | apply setChan_canon | apply setPort_canon | apply foldl_canon | apply foldlA_canon | apply foldlB_canon | apply foldlP_canon) | simp only [Canon_mk] | split | intro _ | dsimp only)

theorem jobResetNow_canon {q : List Instr} (s : State) (h0 : Canon q s) : Canon q (jobResetNow s) := by
  unfold jobResetNow
  repeat' (first | with_reducible (first | assumption | apply Canon_out | apply endJob_canon | apply endCtl_canon) | simp only [Canon_mk] | split | intro _ | dsimp only)

theorem savePlan_canon {q : List Instr} (s : State) (h0 : Canon q s) : Canon q (savePlan s) := by
  unfold savePlan
  repeat' (first | with_reducible (first | assumption | apply Canon_out | apply foldl_canon | apply foldlA_canon | apply foldlB_canon | apply foldlP_canon) | simp only [Canon_mk] | split | intro _ | dsimp only)

theorem shutdownNow_canon {q : List Instr} (s : State) (h0 : Canon q s) : Canon q (shutdownNow s) := by
  have h1 : ∀ x, Canon q (savePlan { s with rst := x }) := by
    intro x
    apply savePlan_canon
    simp only [Canon_mk]
    exact Canon_out h0
  have h2 : ∀ x, Canon q ((List.range 32).foldl (fun s c => setChan s c { chanOf s c with selfref := true }) ((List.range 4).foldl horizonLost (savePlan { s with rst := x }))) := fun x =>
    foldl_canon _ _ _ (fun t c h => setChan_canon _ _ _ h) (foldl_canon _ _ _ (fun t c h => horizonLost_canon _ _ h) (h1 x))
  unfold shutdownNow
  dsimp only
  simp only [Canon_mk]
  with_reducible apply Canon_out
  with_reducible apply h2

theorem restartScan_canon {q : List Instr} (s : State) (h0 : Canon q s) : Canon q (restartScan s) := by
  unfold restartScan
  repeat' (first | with_reducible (first | assumption | apply Canon_out | apply hostWrite_canon | apply foldl_canon | apply foldlA_canon | apply foldlB_canon | apply foldlP_canon) | simp only [Canon_mk] | split | intro _ | dsimp only)

theorem writeRingCfg_canon {q : List Instr} (s : State) (v : BitVec 64) (h0 : Canon q s) : Canon q (writeRingCfg s v) := by
  unfold writeRingCfg
  repeat' (first | with_reducible (first | assumption | apply Canon_out | apply readDoorbell_canon | apply setRing_canon) | simp only [Canon_mk] | split | intro _ | dsimp only)

theorem ringResetNow_canon {q : List Instr} (s : State) (h0 : Canon q s) : Canon q (ringResetNow s) := by
  unfold ringResetNow
  repeat' (first | with_reducible (first | assumption | apply Canon_out | apply readDoorbell_canon | apply sendVector_canon | apply setRing_canon) | simp only [Canon_mk] | split | intro _ | dsimp only)

theorem tdiTouch_canon {q : List Instr} (s : State) (h0 : Canon q s) : Canon q (tdiTouch s) := by
  unfold tdiTouch
  repeat' (first | with_reducible (first | assumption | apply Canon_out) | simp only [Canon_mk] | split | intro _ | dsimp only)

theorem writeRingBase_canon {q : List Instr} (s : State) (f : Machine.Ring → Machine.Ring) (h0 : Canon q s) : Canon q (writeRingBase s f) := by
  unfold writeRingBase
  repeat' (first | with_reducible (first | assumption | apply Canon_out | apply tdiTouch_canon | apply setRing_canon) | simp only [Canon_mk] | split | intro _ | dsimp only)

theorem writePdCtl_canon {q : List Instr} (s : State) (m : Nat) (h0 : Canon q s) : Canon q (writePdCtl s m) := by
  unfold writePdCtl
  repeat' (first | with_reducible (first | assumption | apply Canon_out | apply setPd_canon) | simp only [Canon_mk] | split | intro _ | dsimp only)

theorem writePortCfg_canon {q : List Instr} (s : State) (en : Bool) (h0 : Canon q s) : Canon q (writePortCfg s en) := by
  unfold writePortCfg
  repeat' (first | with_reducible (first | assumption | apply Canon_out | apply portLeaves_canon | apply setPort_canon | apply setPd_canon) | simp only [Canon_mk] | split | intro _ | dsimp only)

theorem writeRstCtl_canon {q : List Instr} (s : State) (v : BitVec 64) (h0 : Canon q s) : Canon q (writeRstCtl s v) := by
  unfold writeRstCtl
  repeat' (first | with_reducible (first | assumption | apply Canon_out | apply startDieReset_canon | apply jobResetNow_canon | apply shutdownNow_canon) | simp only [Canon_mk] | split | intro _ | dsimp only)

theorem writeRestartCtl_canon {q : List Instr} (s : State) (v : BitVec 64) (h0 : Canon q s) : Canon q (writeRestartCtl s v) := by
  unfold writeRestartCtl
  repeat' (first | with_reducible (first | assumption | apply Canon_out | apply restartScan_canon) | simp only [Canon_mk] | split | intro _ | dsimp only)

theorem writeMbCtl_canon {q : List Instr} (s : State) (v : BitVec 64) (h0 : Canon q s) : Canon q (writeMbCtl s v) := by
  unfold writeMbCtl
  repeat' (first | with_reducible (first | assumption | apply Canon_out | apply mbReply_canon) | simp only [Canon_mk] | split | intro _ | dsimp only)

theorem writeField_canon {q : List Instr} (s : State) (r : Reg) (v : BitVec 64) (h0 : Canon q s) : Canon q (writeField s r v) := by
  unfold writeField
  repeat' (first | with_reducible (first | assumption | apply Canon_out | apply writeRestartCtl_canon | apply writeRingBase_canon | apply exposeWindow_canon | apply backpressure_canon | apply writeRingCfg_canon | apply ringResetNow_canon | apply writePortCfg_canon | apply writeRstCtl_canon | apply writePdCtl_canon | apply writeMbCtl_canon | apply tdiTouch_canon | apply setRing_canon) | simp only [Canon_mk] | split | intro _ | dsimp only)

theorem writeReg_canon {q : List Instr} (s : State) (off : Nat) (v : BitVec 64) (h0 : Canon q s) : Canon q (writeReg s off v) := by
  unfold writeReg
  repeat' (first | with_reducible (first | assumption | apply Canon_out | apply writeField_canon) | simp only [Canon_mk] | split | intro _ | dsimp only)

theorem writeMsix_canon {q : List Instr} (s : State) (o n : Nat) (v : BitVec 64) (h0 : Canon q s) : Canon q (writeMsix s o n v) := by
  unfold writeMsix
  repeat' (first | with_reducible (first | assumption | apply Canon_out | apply CanonMem_wr1 | apply CanonMem_hw1 | apply CanonMem_over | apply CanonMem_overh | apply emit_canon | apply foldl_canon | apply foldlA_canon | apply foldlB_canon | apply foldlP_canon) | simp only [Canon_mk] | split | intro _ | dsimp only)

theorem execRegisterWrite_canon {q : List Instr} (offset : BitVec 26) (size : Nat) (value : BitVec 64) (s : State) (h0 : Canon q s) : CanonOut q (execRegisterWrite offset size value s) := by
  unfold execRegisterWrite
  repeat' (first | with_reducible (first | assumption | apply Canon_out | apply CanonOut_next | apply writeMsix_canon | apply writeReg_canon) | simp only [Canon_mk] | split | intro _ | dsimp only)

theorem execRingEnable_canon {q : List Instr} (v : BitVec 64) (s : State) (h0 : Canon q s) : CanonOut q (execRingEnable v s) := by
  unfold execRingEnable
  repeat' (first | with_reducible (first | assumption | apply Canon_out | apply CanonOut_next | apply writeReg_canon) | simp only [Canon_mk] | split | intro _ | dsimp only)

theorem execRingDisable_canon {q : List Instr} (v : BitVec 64) (s : State) (h0 : Canon q s) : CanonOut q (execRingDisable v s) := by
  unfold execRingDisable
  repeat' (first | with_reducible (first | assumption | apply Canon_out | apply CanonOut_next | apply writeReg_canon) | simp only [Canon_mk] | split | intro _ | dsimp only)

theorem execRingReset_canon {q : List Instr} (v : BitVec 64) (s : State) (h0 : Canon q s) : CanonOut q (execRingReset v s) := by
  unfold execRingReset
  repeat' (first | with_reducible (first | assumption | apply Canon_out | apply CanonOut_next | apply writeReg_canon) | simp only [Canon_mk] | split | intro _ | dsimp only)

theorem execJobReset_canon {q : List Instr} (v : BitVec 64) (s : State) (h0 : Canon q s) : CanonOut q (execJobReset v s) := by
  unfold execJobReset
  repeat' (first | with_reducible (first | assumption | apply Canon_out | apply CanonOut_next | apply writeReg_canon) | simp only [Canon_mk] | split | intro _ | dsimp only)

theorem execShutdown_canon {q : List Instr} (v : BitVec 64) (s : State) (h0 : Canon q s) : CanonOut q (execShutdown v s) := by
  unfold execShutdown
  repeat' (first | with_reducible (first | assumption | apply Canon_out | apply CanonOut_next | apply writeReg_canon) | simp only [Canon_mk] | split | intro _ | dsimp only)

theorem execDieReset_canon {q : List Instr} (c : DieCause) (s : State) (h0 : Canon q s) : CanonOut q (execDieReset c s) := by
  unfold execDieReset
  repeat' (first | with_reducible (first | assumption | apply Canon_out | apply CanonOut_next | apply hubDieReset_canon | apply writeReg_canon) | simp only [Canon_mk] | split | intro _ | dsimp only)

theorem execRestartScan_canon {q : List Instr} (v : BitVec 64) (s : State) (h0 : Canon q s) : CanonOut q (execRestartScan v s) := by
  unfold execRestartScan
  repeat' (first | with_reducible (first | assumption | apply Canon_out | apply CanonOut_next | apply writeReg_canon) | simp only [Canon_mk] | split | intro _ | dsimp only)

theorem execPortEnable_canon {q : List Instr} (v : BitVec 64) (s : State) (h0 : Canon q s) : CanonOut q (execPortEnable v s) := by
  unfold execPortEnable
  repeat' (first | with_reducible (first | assumption | apply Canon_out | apply CanonOut_next | apply writeReg_canon) | simp only [Canon_mk] | split | intro _ | dsimp only)

theorem execPortDisable_canon {q : List Instr} (v : BitVec 64) (s : State) (h0 : Canon q s) : CanonOut q (execPortDisable v s) := by
  unfold execPortDisable
  repeat' (first | with_reducible (first | assumption | apply Canon_out | apply CanonOut_next | apply writeReg_canon) | simp only [Canon_mk] | split | intro _ | dsimp only)

theorem execPdModeOn_canon {q : List Instr} (v : BitVec 64) (s : State) (h0 : Canon q s) : CanonOut q (execPdModeOn v s) := by
  unfold execPdModeOn
  repeat' (first | with_reducible (first | assumption | apply Canon_out | apply CanonOut_next | apply writeReg_canon) | simp only [Canon_mk] | split | intro _ | dsimp only)

theorem execPdModeAuto_canon {q : List Instr} (v : BitVec 64) (s : State) (h0 : Canon q s) : CanonOut q (execPdModeAuto v s) := by
  unfold execPdModeAuto
  repeat' (first | with_reducible (first | assumption | apply Canon_out | apply CanonOut_next | apply writeReg_canon) | simp only [Canon_mk] | split | intro _ | dsimp only)

theorem execPdModeOff_canon {q : List Instr} (v : BitVec 64) (s : State) (h0 : Canon q s) : CanonOut q (execPdModeOff v s) := by
  unfold execPdModeOff
  repeat' (first | with_reducible (first | assumption | apply Canon_out | apply CanonOut_next | apply writeReg_canon) | simp only [Canon_mk] | split | intro _ | dsimp only)

theorem execWvCap_canon {q : List Instr} (v : BitVec 64) (s : State) (h0 : Canon q s) : CanonOut q (execWvCap v s) := by
  unfold execWvCap
  repeat' (first | with_reducible (first | assumption | apply Canon_out | apply CanonOut_next | apply writeReg_canon) | simp only [Canon_mk] | split | intro _ | dsimp only)

theorem pdContentsLost_canon {q : List Instr} (s : State) (i : Nat) (h0 : Canon q s) : Canon q (pdContentsLost s i) := by
  unfold pdContentsLost
  repeat' (first | with_reducible (first | assumption | apply Canon_out | apply setGlade_canon | apply setPort_canon | apply foldl_canon | apply foldlA_canon | apply foldlB_canon | apply foldlP_canon) | simp only [Canon_mk] | split | intro _ | dsimp only)

theorem execPdPowerOff_canon {q : List Instr} (pd : Fin 50) (s : State) (h0 : Canon q s) : CanonOut q (execPdPowerOff pd s) := by
  unfold execPdPowerOff
  repeat' (first | with_reducible (first | assumption | apply Canon_out | apply CanonOut_next | apply pdContentsLost_canon | apply setPd_canon) | simp only [Canon_mk] | split | intro _ | dsimp only)

theorem execPdClockStop_canon {q : List Instr} (pd : Fin 50) (s : State) (h0 : Canon q s) : CanonOut q (execPdClockStop pd s) := by
  unfold execPdClockStop
  repeat' (first | with_reducible (first | assumption | apply Canon_out | apply CanonOut_next | apply setPd_canon) | simp only [Canon_mk] | split | intro _ | dsimp only)

theorem execPdWakeReady_canon {q : List Instr} (pd : Fin 50) (s : State) (h0 : Canon q s) : CanonOut q (execPdWakeReady pd s) := by
  unfold execPdWakeReady
  repeat' (first | with_reducible (first | assumption | apply Canon_out | apply CanonOut_next | apply setPd_canon) | simp only [Canon_mk] | split | intro _ | dsimp only)

theorem execClockPointChange_canon {q : List Instr} (die : Fin 16) (s : State) (h0 : Canon q s) : CanonOut q (execClockPointChange die s) := by
  unfold execClockPointChange
  repeat' (first | with_reducible (first | assumption | apply Canon_out | apply CanonOut_next | apply setPd_canon) | simp only [Canon_mk] | split | intro _ | dsimp only)

theorem showThrottle_canon {q : List Instr} (s : State) (h0 : Canon q s) : Canon q (showThrottle s) := by
  unfold showThrottle
  repeat' (first | with_reducible (first | assumption | apply Canon_out) | simp only [Canon_mk] | split | intro _ | dsimp only)

theorem execThermalSample_canon {q : List Instr} (r : ThermalReading) (s : State) (h0 : Canon q s) : CanonOut q (execThermalSample r s) := by
  have hf : ∀ l : List Nat, Canon q (l.foldl (fun s i => setPd s i { pdOf s i with temp := tget 0 r.temps i }) s) := fun l =>
    foldl_canon _ _ _ (fun t i h => setPd_canon _ _ _ h) h0
  have h : ∀ (l : List Nat) (x : Hub) (y : Wv), Canon q (showThrottle { l.foldl (fun s i => setPd s i { pdOf s i with temp := tget 0 r.temps i }) s with hub := x, wv := y }) := by
    intro l x y
    apply showThrottle_canon
    simp only [Canon_mk]
    exact Canon_out (hf l)
  unfold execThermalSample
  generalize List.range 50 = l
  dsimp only
  split
  · exact CanonOut_next h0
  · exact CanonOut_next (h _ _ _)

theorem lowerDie_canon {q : List Instr} (s : State) (d : Nat) (h0 : Canon q s) : Canon q (lowerDie s d) := by
  unfold lowerDie
  repeat' (first | with_reducible (first | assumption | apply Canon_out | apply markThrottled_canon | apply setPd_canon) | simp only [Canon_mk] | split | intro _ | dsimp only)

theorem execThrottleLower_canon {q : List Instr} (s : State) (h0 : Canon q s) : CanonOut q (execThrottleLower s) := by
  have h : ∀ n (l : List Nat) x y, Canon q (showThrottle { l.foldl lowerDie (advanceTo s n) with hub := x, wv := y }) := by
    intro n l x y
    apply showThrottle_canon
    simp only [Canon_mk]
    exact Canon_out (foldl_canon _ _ _ (fun t d hh => lowerDie_canon _ _ hh) (advanceTo_canon s n h0))
  unfold execThrottleLower
  generalize s.wv.loweredAt.toNat + 1000000 = n
  generalize List.range 16 = l
  dsimp only
  split
  · exact CanonOut_next h0
  · exact CanonOut_next (h _ _ _ _)

theorem raiseDie_canon {q : List Instr} (s : State) (d : Nat) (h0 : Canon q s) : Canon q (raiseDie s d) := by
  unfold raiseDie
  repeat' (first | with_reducible (first | assumption | apply Canon_out | apply CanonGlade_done | apply CanonGlade_jump | apply CanonGlade_wait | apply CanonGlade_fault | apply setPd_canon) | simp only [Canon_mk] | split | intro _ | dsimp only)

theorem execThrottleRaise_canon {q : List Instr} (s : State) (h0 : Canon q s) : CanonOut q (execThrottleRaise s) := by
  have h : ∀ n x, Canon q (showThrottle { (List.range 16).foldl raiseDie (advanceTo s n) with wv := x }) := by
    intro n x
    apply showThrottle_canon
    simp only [Canon_mk]
    exact Canon_out (foldl_canon _ _ _ (fun t d hh => raiseDie_canon _ _ hh) (advanceTo_canon s n h0))
  unfold execThrottleRaise
  split
  · exact CanonOut_next h0
  · rename_i t _
    generalize t.toNat + 10000000 = n
    refine CanonOut_ite (CanonOut_next h0) ?_
    dsimp only
    exact CanonOut_next (h n _)

theorem execAlternateIssueInterval_canon {q : List Instr} (die : Fin 16) (s : State) (h0 : Canon q s) : CanonOut q (execAlternateIssueInterval die s) := by
  unfold execAlternateIssueInterval
  repeat' (first | with_reducible (first | assumption | apply Canon_out | apply CanonOut_next | apply CanonGlade_done | apply CanonGlade_jump | apply CanonGlade_wait | apply CanonGlade_fault | apply setPd_canon) | simp only [Canon_mk] | split | intro _ | dsimp only)

theorem measureOne_canon {q : List Instr} (s : State) (r : WvReading) (h0 : Canon q s) : Canon q (measureOne s r) := by
  unfold measureOne
  repeat' (first | with_reducible (first | assumption | apply Canon_out | apply setPd_canon) | simp only [Canon_mk] | split | intro _ | dsimp only)

theorem execWvMeasure_canon {q : List Instr} (r : List WvReading) (s : State) (h0 : Canon q s) : CanonOut q (execWvMeasure r s) := by
  unfold execWvMeasure
  repeat' (first | with_reducible (first | assumption | apply Canon_out | apply CanonOut_next | apply measureOne_canon | apply foldl_canon | apply foldlA_canon | apply foldlB_canon | apply foldlP_canon) | simp only [Canon_mk] | split | intro _ | dsimp only)

theorem execWvPlanSave_canon {q : List Instr} (s : State) (h0 : Canon q s) : CanonOut q (execWvPlanSave s) := by
  unfold execWvPlanSave
  repeat' (first | with_reducible (first | assumption | apply Canon_out | apply CanonOut_next | apply savePlan_canon) | simp only [Canon_mk] | split | intro _ | dsimp only)

theorem queueRec_canon {q : List Instr} (s : State) (f : Nat → ERec) (h0 : Canon q s) : Canon q (queueRec s f).1 := by
  unfold queueRec
  repeat' (first | with_reducible (first | assumption | apply Canon_out) | simp only [Canon_mk] | split | intro _ | dsimp only)

theorem collect_canon {q : List Instr} (s : State) (k : ErrKey) (c : ErrClass) (acc : BitVec 64) (h0 : Canon q s) : Canon q (collect s k c acc) := by
  unfold collect
  repeat' (first | with_reducible (first | assumption | apply Canon_out) | simp only [Canon_mk] | split | intro _ | dsimp only)

theorem gladePoison_canon {q : List Instr} (s : State) (gi off : Nat) (h0 : Canon q s) : Canon q (gladePoison s gi off) := by
  unfold gladePoison
  repeat' (first | with_reducible (first | assumption | apply Canon_out | apply setGlade_canon) | simp only [Canon_mk] | split | intro _ | dsimp only)

theorem poisonAt_canon {q : List Instr} (s : State) (k : ErrKey) (a : Nat) (h0 : Canon q s) : Canon q (poisonAt s k a) := by
  unfold poisonAt
  repeat' (first | with_reducible (first | assumption | apply Canon_out | apply gladePoison_canon) | simp only [Canon_mk] | split | intro _ | dsimp only)

theorem errEffect_canon {q : List Instr} (s : State) (k : ErrKey) (c : ErrClass) (poisoned : Option (BitVec 48)) (h0 : Canon q s) : Canon q (errEffect s k c poisoned) := by
  unfold errEffect
  repeat' (first | with_reducible (first | assumption | apply Canon_out | apply faultGlade_canon | apply poisonAt_canon | apply setChan_canon | apply setPort_canon) | simp only [Canon_mk] | split | intro _ | dsimp only)

theorem testChan_canon {q : List Instr} (s : State) (k : ErrKey) (h0 : Canon q s) : Canon q (testChan s k) := by
  unfold testChan
  repeat' (first | with_reducible (first | assumption | apply Canon_out | apply setChan_canon) | simp only [Canon_mk] | split | intro _ | dsimp only)

theorem execErrorReport_canon {q : List Instr} (k : ErrKey) (c : ErrClass) (poisoned : Option (BitVec 48)) (acc : BitVec 64) (s : State) (h0 : Canon q s) : CanonOut q (execErrorReport k c poisoned acc s) := by
  unfold execErrorReport
  repeat' (first | with_reducible (first | assumption | apply Canon_out | apply CanonOut_next | apply errEffect_canon | apply testChan_canon | apply collect_canon) | simp only [Canon_mk] | split | intro _ | dsimp only)

theorem queueOutcome_canon {q : List Instr} (s : State) (t : ETest) (k : ErrKey) (o : Byte) (h0 : Canon q s) : Canon q (queueOutcome s t k o) := by
  unfold queueOutcome
  repeat' (first | with_reducible (first | assumption | apply Canon_out | apply queueRec_canon) | (refine CanonPair_get (by with_reducible assumption) ?_) | simp only [Canon_mk] | split | intro _ | dsimp only)

theorem execErrRecordClose_canon {q : List Instr} (k : ErrKey) (s : State) (h0 : Canon q s) : CanonOut q (execErrRecordClose k s) := by
  unfold execErrRecordClose
  repeat' (first | with_reducible (first | assumption | apply Canon_out | apply CanonOut_next | apply queueOutcome_canon | apply advanceTo_canon | apply queueRec_canon) | (refine CanonPair_get (by with_reducible assumption) ?_) | simp only [Canon_mk] | split | intro _ | dsimp only)

theorem execErrRecordWrite_canon {q : List Instr} (s : State) (h0 : Canon q s) : CanonOut q (execErrRecordWrite s) := by
  unfold execErrRecordWrite
  repeat' (first | with_reducible (first | assumption | apply Canon_out | apply CanonOut_next | apply sendVector_canon | apply hostWrite_canon) | simp only [Canon_mk] | split | intro _ | dsimp only)

theorem fenceKey_canon {q : List Instr} (s : State) (k : ErrKey) (h0 : Canon q s) : Canon q (fenceKey s k) := by
  unfold fenceKey
  repeat' (first | with_reducible (first | assumption | apply Canon_out | apply startDieReset_canon | apply fenceChannel_canon | apply fencePort_canon) | simp only [Canon_mk] | split | intro _ | dsimp only)

theorem chanReturns_canon {q : List Instr} (s : State) (k : ErrKey) (h0 : Canon q s) : Canon q (chanReturns s k) := by
  unfold chanReturns
  repeat' (first | with_reducible (first | assumption | apply Canon_out | apply setChan_canon) | simp only [Canon_mk] | split | intro _ | dsimp only)

theorem execSelfTestDone_canon {q : List Instr} (k : ErrKey) (pass : Bool) (s : State) (h0 : Canon q s) : CanonOut q (execSelfTestDone k pass s) := by
  unfold execSelfTestDone
  repeat' (first | with_reducible (first | assumption | apply Canon_out | apply CanonOut_next | apply queueOutcome_canon | apply chanReturns_canon | apply fenceKey_canon) | simp only [Canon_mk] | split | intro _ | dsimp only)

theorem grantHalf_canon {q : List Instr} (s : State) (hh : Nat) (h0 : Canon q s) : Canon q (grantHalf s hh) := by
  unfold grantHalf
  repeat' (first | with_reducible (first | assumption | apply Canon_out | apply restartGlades_canon | apply setHalf_canon) | simp only [Canon_mk] | split | intro _ | dsimp only)

theorem execLeaseGrant_canon {q : List Instr} (s : State) (h0 : Canon q s) : CanonOut q (execLeaseGrant s) := by
  unfold execLeaseGrant
  repeat' (first | with_reducible (first | assumption | apply Canon_out | apply CanonOut_next | apply advanceTo_canon | apply grantHalf_canon) | simp only [Canon_mk] | split | intro _ | dsimp only)

theorem execLeaseLapse_canon {q : List Instr} (hh : Fin 2) (s : State) (h0 : Canon q s) : CanonOut q (execLeaseLapse hh s) := by
  unfold execLeaseLapse
  repeat' (first | with_reducible (first | assumption | apply Canon_out | apply CanonOut_next | apply stopGlades_canon | apply advanceTo_canon | apply setHalf_canon) | simp only [Canon_mk] | split | intro _ | dsimp only)

theorem execLeaseAck_canon {q : List Instr} (hh : Fin 2) (ep : BitVec 64) (s : State) (h0 : Canon q s) : CanonOut q (execLeaseAck hh ep s) := by
  unfold execLeaseAck
  repeat' (first | with_reducible (first | assumption | apply Canon_out | apply CanonOut_next | apply setHalf_canon | apply collect_canon) | simp only [Canon_mk] | split | intro _ | dsimp only)

theorem failLost_canon {q : List Instr} (s : State) (hh : Nat) (acc : BitVec 64) (h0 : Canon q s) : Canon q (failLost s hh acc) := by
  unfold failLost
  repeat' (first | with_reducible (first | assumption | apply Canon_out | apply faultGlade_canon) | simp only [Canon_mk] | split | intro _ | dsimp only)

theorem clearEnded_canon {q : List Instr} (s : State) (hh : Nat) (h0 : Canon q s) : Canon q (clearEnded s hh) := by
  unfold clearEnded
  repeat' (first | with_reducible (first | assumption | apply Canon_out | apply setGlade_canon | apply foldl_canon | apply foldlA_canon | apply foldlB_canon | apply foldlP_canon) | simp only [Canon_mk] | split | intro _ | dsimp only)

theorem execHalfResync_canon {q : List Instr} (hh : Fin 2) (s : State) (h0 : Canon q s) : CanonOut q (execHalfResync hh s) := by
  unfold execHalfResync
  repeat' (first | with_reducible (first | assumption | apply Canon_out | apply CanonOut_next | apply restartGlades_canon | apply raiseEpoch_canon | apply clearEnded_canon | apply failLost_canon | apply setHalf_canon | apply foldl_canon | apply foldlA_canon | apply foldlB_canon | apply foldlP_canon) | simp only [Canon_mk] | split | intro _ | dsimp only)

theorem execHubFault_canon {q : List Instr} (s : State) (h0 : Canon q s) : CanonOut q (execHubFault s) := by
  unfold execHubFault
  repeat' (first | with_reducible (first | assumption | apply Canon_out | apply CanonOut_next) | simp only [Canon_mk] | split | intro _ | dsimp only)

theorem domainsOff_canon {q : List Instr} (s : State) (h0 : Canon q s) : Canon q (domainsOff s) := by
  unfold domainsOff
  repeat' (first | with_reducible (first | assumption | apply Canon_out | apply setPd_canon | apply foldl_canon | apply foldlA_canon | apply foldlB_canon | apply foldlP_canon) | simp only [Canon_mk] | split | intro _ | dsimp only)

theorem coldReset_canon {q : List Instr} (s : State) (kind : BitVec 3) (h0 : Canon q s) : Canon q (coldReset s kind) := by
  have h1 := (exposeWindow_canon _ h0).2.1
  unfold coldReset
  apply domainsOff_canon
  exact ⟨rfl, h1, h0.2.2⟩

theorem powerOff_canon {q : List Instr} (s : State) (kind : BitVec 3) (h0 : Canon q s) : Canon q (powerOff s kind) := by
  unfold powerOff
  repeat' (first | with_reducible (first | assumption | apply Canon_out | apply coldReset_canon) | simp only [Canon_mk] | split | intro _ | dsimp only)

theorem execModPwrEnAssert_canon {q : List Instr} (s : State) (h0 : Canon q s) : CanonOut q (execModPwrEnAssert s) := by
  unfold execModPwrEnAssert
  repeat' (first | with_reducible (first | assumption | apply Canon_out | apply CanonOut_next) | simp only [Canon_mk] | split | intro _ | dsimp only)

theorem execModPwrEnDeassert_canon {q : List Instr} (s : State) (h0 : Canon q s) : CanonOut q (execModPwrEnDeassert s) := by
  unfold execModPwrEnDeassert
  repeat' (first | with_reducible (first | assumption | apply Canon_out | apply CanonOut_next | apply powerOff_canon) | simp only [Canon_mk] | split | intro _ | dsimp only)

theorem execInputFault_canon {q : List Instr} (s : State) (h0 : Canon q s) : CanonOut q (execInputFault s) := by
  unfold execInputFault
  repeat' (first | with_reducible (first | assumption | apply Canon_out | apply CanonOut_next | apply powerOff_canon) | simp only [Canon_mk] | split | intro _ | dsimp only)

theorem execThermalTrip_canon {q : List Instr} (s : State) (h0 : Canon q s) : CanonOut q (execThermalTrip s) := by
  unfold execThermalTrip
  repeat' (first | with_reducible (first | assumption | apply Canon_out | apply CanonOut_next | apply powerOff_canon) | simp only [Canon_mk] | split | intro _ | dsimp only)

theorem execPerstAssert_canon {q : List Instr} (s : State) (h0 : Canon q s) : CanonOut q (execPerstAssert s) := by
  unfold execPerstAssert
  repeat' (first | with_reducible (first | assumption | apply Canon_out | apply CanonOut_next | apply coldReset_canon) | simp only [Canon_mk] | split | intro _ | dsimp only)

theorem bootStops_canon {q : List Instr} (s : State) (code : Nat) (h0 : Canon q s) : Canon q (bootStops s code) := by
  unfold bootStops
  repeat' (first | with_reducible (first | assumption | apply Canon_out) | simp only [Canon_mk] | split | intro _ | dsimp only)

theorem runBank_canon {q : List Instr} (s : State) (k : Bool) (h0 : Canon q s) : Canon q (runBank s k) := by
  unfold runBank
  repeat' (first | with_reducible (first | assumption | apply Canon_out) | simp only [Canon_mk] | split | intro _ | dsimp only)

theorem bootParts_canon {q : List Instr} (s : State) (t : BootTests) (h0 : Canon q s) : Canon q (bootParts s t) := by
  unfold bootParts
  repeat' (first | with_reducible (first | assumption | apply Canon_out | apply setChan_canon | apply setPort_canon | apply setPd_canon | apply foldl_canon | apply foldlA_canon | apply foldlB_canon | apply foldlP_canon) | simp only [Canon_mk] | split | intro _ | dsimp only)

theorem bootOn_canon {q : List Instr} (s : State) (t : BootTests) (k fell : Bool) (h0 : Canon q s) : Canon q (bootOn s t k fell) := by
  unfold bootOn
  repeat' (first | with_reducible (first | assumption | apply Canon_out | apply bootParts_canon | apply setHalf_canon | apply runBank_canon) | simp only [Canon_mk] | split | intro _ | dsimp only)

theorem execPerstDeassert_canon {q : List Instr} (t : BootTests) (s : State) (h0 : Canon q s) : CanonOut q (execPerstDeassert t s) := by
  unfold execPerstDeassert
  repeat' (first | with_reducible (first | assumption | apply Canon_out | apply CanonOut_next | apply bootStops_canon | apply bootOn_canon) | simp only [Canon_mk] | split | intro _ | dsimp only)

theorem recoverRing_canon {q : List Instr} (s : State) (r : Nat) (h0 : Canon q s) : Canon q (recoverRing s r) := by
  unfold recoverRing
  repeat' (first | with_reducible (first | assumption | apply Canon_out | apply setRing_canon) | simp only [Canon_mk] | split | intro _ | dsimp only)

theorem missGlades_canon {q : List Instr} (s : State) (missed : BitVec 128) (h0 : Canon q s) : Canon q (missGlades s missed) := by
  unfold missGlades
  repeat' (first | with_reducible (first | assumption | apply Canon_out | apply faultGlade_canon | apply foldl_canon | apply foldlA_canon | apply foldlB_canon | apply foldlP_canon) | simp only [Canon_mk] | split | intro _ | dsimp only)

theorem cancelAll_canon {q : List Instr} (s : State) (h0 : Canon q s) : Canon q (cancelAll s) := by
  unfold cancelAll
  repeat' (first | with_reducible (first | assumption | apply Canon_out | apply cancelXfer_canon | apply foldl_canon | apply foldlA_canon | apply foldlB_canon | apply foldlP_canon) | simp only [Canon_mk] | split | intro _ | dsimp only)

theorem warmCleared_canon {q : List Instr} (s : State) (h0 : Canon q s) : Canon q (warmCleared s) := by
  unfold warmCleared
  repeat' (first | with_reducible (first | assumption | apply Canon_out) | simp only [Canon_mk] | split | intro _ | dsimp only)

theorem warmOn_canon {q : List Instr} (s : State) (fell : Bool) (h0 : Canon q s) : Canon q (warmOn s fell) := by
  unfold warmOn
  repeat' (first | with_reducible (first | assumption | apply Canon_out | apply restartGlades_canon | apply raiseEpoch_canon | apply setHalf_canon) | simp only [Canon_mk] | split | intro _ | dsimp only)

theorem savedFirst_canon {q : List Instr} (s : State) (h0 : Canon q s) : Canon q (savedFirst s) := by
  unfold savedFirst
  split
  · rename_i t e; exact execPreemptSaveDone_canon s h0 t e
  · exact h0

theorem execWarmReset_canon {q : List Instr} (b : BankChecks) (missed : BitVec 128) (s : State) (h0 : Canon q s) : CanonOut q (execWarmReset b missed s) := by
  unfold execWarmReset
  repeat' (first | with_reducible (first | assumption | apply Canon_out | apply CanonOut_next | apply CanonGlade_done | apply CanonGlade_jump | apply CanonGlade_wait | apply CanonGlade_fault | apply recoverRing_canon | apply warmCleared_canon | apply stopGlades_canon | apply missGlades_canon | apply savedFirst_canon | apply bootStops_canon | apply cancelAll_canon | apply reissue_canon | apply runBank_canon | apply warmOn_canon | apply foldl_canon | apply foldlA_canon | apply foldlB_canon | apply foldlP_canon) | simp only [Canon_mk] | split | intro _ | dsimp only)

end Sys2Proof.Laws
end

