-- ==== Sys2Proof/Laws/Words.lean ====
section
/-! SUPPORT. The glade instruction word: its fields put together and taken apart. -/

namespace Sys2Proof.Laws

open Sys2Proof.Machine Sys2Proof.Safety

theorem gl (w : BitVec n) (a k j : Nat) : (w.extractLsb' a k).getLsbD j = (decide (j < k) && w.getLsbD (a + j)) := BitVec.getLsbD_extractLsb' ..

/-- Bits of an append above its low part are those of its high part. -/
theorem extract_hi {m k : Nat} (x : BitVec m) (y : BitVec k) (a n : Nat) (h : k ≤ a) : (x ++ y).extractLsb' a n = x.extractLsb' (a - k) n := by
  apply BitVec.eq_of_getLsbD_eq; intro j hj
  rw [gl, gl, BitVec.getLsbD_append, if_neg (by omega), show a + j - k = a - k + j by omega]

/-- The low bits of an append are its low part. -/
theorem extract_lo {m k : Nat} (x : BitVec m) (y : BitVec k) : (x ++ y).extractLsb' 0 k = y := by
  apply BitVec.eq_of_getLsbD_eq; intro j hj
  rw [gl, decide_eq_true hj, Bool.true_and, BitVec.getLsbD_append, Nat.zero_add, if_pos hj]

/-- Two neighbouring pieces of a value make the piece that covers both. -/
theorem extract_join {n : Nat} (w : BitVec n) (a k m : Nat) : w.extractLsb' (a + k) m ++ w.extractLsb' a k = w.extractLsb' a (m + k) := by
  apply BitVec.eq_of_getLsbD_eq; intro j hj
  rw [BitVec.getLsbD_append, gl, gl, gl, decide_eq_true hj, Bool.true_and]
  split
  · rename_i h; rw [decide_eq_true h, Bool.true_and]
  · rw [decide_eq_true (by omega), Bool.true_and, show a + k + (j - k) = a + j by omega]

/-- The whole of a value is the value. -/
theorem extract_all {n : Nat} (w : BitVec n) : w.extractLsb' 0 n = w := by
  apply BitVec.eq_of_getLsbD_eq; intro j hj
  rw [gl, decide_eq_true hj, Bool.true_and, Nat.zero_add]

theorem wordFields_instrWord (op : BitVec 8) (i : GI) : wordFields i.glade i.eng (instrWord op i) = i := by
  rcases i with ⟨g, e, guard, rsv, flags, ta, tb, tc, sa, sb, sc, imm⟩
  simp only [wordFields, instrWord]
  congr 1
  · exact (extract_hi _ _ _ _ (by omega)).trans ((extract_lo _ _))
  · rw [show BitVec.extractLsb' 57 7 _ = _ from (extract_hi _ _ _ _ (by omega)).trans ((extract_hi _ _ _ _ (by omega)).trans ((extract_hi _ _ _ _ (by omega)).trans ((extract_hi _ _ _ _ (by omega)).trans ((extract_hi _ _ _ _ (by omega)).trans ((extract_hi _ _ _ _ (by omega)).trans ((extract_hi _ _ _ _ (by omega)).trans ((extract_hi _ _ _ _ (by omega)).trans ((extract_hi _ _ _ _ (by omega)).trans ((extract_hi _ _ _ _ (by omega)).trans ((extract_lo _ _))))))))))), show BitVec.extractLsb' 13 3 _ = _ from (extract_hi _ _ _ _ (by omega)).trans ((extract_hi _ _ _ _ (by omega)).trans ((extract_lo _ _)))]
    exact (extract_join rsv 0 3 7).trans (extract_all rsv)
  · exact (extract_hi _ _ _ _ (by omega)).trans ((extract_hi _ _ _ _ (by omega)).trans ((extract_hi _ _ _ _ (by omega)).trans ((extract_lo _ _))))
  · exact (extract_hi _ _ _ _ (by omega)).trans ((extract_hi _ _ _ _ (by omega)).trans ((extract_hi _ _ _ _ (by omega)).trans ((extract_hi _ _ _ _ (by omega)).trans ((extract_lo _ _)))))
  · exact (extract_hi _ _ _ _ (by omega)).trans ((extract_hi _ _ _ _ (by omega)).trans ((extract_hi _ _ _ _ (by omega)).trans ((extract_hi _ _ _ _ (by omega)).trans ((extract_hi _ _ _ _ (by omega)).trans ((extract_lo _ _))))))
  · exact (extract_hi _ _ _ _ (by omega)).trans ((extract_hi _ _ _ _ (by omega)).trans ((extract_hi _ _ _ _ (by omega)).trans ((extract_hi _ _ _ _ (by omega)).trans ((extract_hi _ _ _ _ (by omega)).trans ((extract_hi _ _ _ _ (by omega)).trans ((extract_lo _ _)))))))
  · exact (extract_hi _ _ _ _ (by omega)).trans ((extract_hi _ _ _ _ (by omega)).trans ((extract_hi _ _ _ _ (by omega)).trans ((extract_hi _ _ _ _ (by omega)).trans ((extract_hi _ _ _ _ (by omega)).trans ((extract_hi _ _ _ _ (by omega)).trans ((extract_hi _ _ _ _ (by omega)).trans ((extract_lo _ _))))))))
  · exact (extract_hi _ _ _ _ (by omega)).trans ((extract_hi _ _ _ _ (by omega)).trans ((extract_hi _ _ _ _ (by omega)).trans ((extract_hi _ _ _ _ (by omega)).trans ((extract_hi _ _ _ _ (by omega)).trans ((extract_hi _ _ _ _ (by omega)).trans ((extract_hi _ _ _ _ (by omega)).trans ((extract_hi _ _ _ _ (by omega)).trans ((extract_lo _ _)))))))))
  · exact (extract_hi _ _ _ _ (by omega)).trans ((extract_hi _ _ _ _ (by omega)).trans ((extract_hi _ _ _ _ (by omega)).trans ((extract_hi _ _ _ _ (by omega)).trans ((extract_hi _ _ _ _ (by omega)).trans ((extract_hi _ _ _ _ (by omega)).trans ((extract_hi _ _ _ _ (by omega)).trans ((extract_hi _ _ _ _ (by omega)).trans ((extract_hi _ _ _ _ (by omega)).trans ((extract_lo _ _))))))))))
  · exact (extract_hi _ _ _ _ (by omega)).trans ((extract_hi _ _ _ _ (by omega)).trans ((extract_hi _ _ _ _ (by omega)).trans ((extract_hi _ _ _ _ (by omega)).trans ((extract_hi _ _ _ _ (by omega)).trans ((extract_hi _ _ _ _ (by omega)).trans ((extract_hi _ _ _ _ (by omega)).trans ((extract_hi _ _ _ _ (by omega)).trans ((extract_hi _ _ _ _ (by omega)).trans ((extract_hi _ _ _ _ (by omega)).trans ((extract_hi _ _ _ _ (by omega)).trans (extract_all _)))))))))))

theorem instrWord_parts (g : Fin 128) (e : Engine) (w : BitVec 128) : instrWord (wordOpc w) (wordFields g e w) = w := by
  have h7 : (w.extractLsb' 57 7 ++ w.extractLsb' 13 3).extractLsb' 3 7 = w.extractLsb' 57 7 :=
    (extract_hi _ _ 3 7 (by omega)).trans (extract_all _)
  have h3 : (w.extractLsb' 57 7 ++ w.extractLsb' 13 3).extractLsb' 0 3 = w.extractLsb' 13 3 := extract_lo _ _
  unfold wordFields instrWord wordOpc
  dsimp only
  rw [h7, h3]
  rw [extract_join w 57 7 64, extract_join w 52 5 (64 + 7), extract_join w 47 5 (64 + 7 + 5), extract_join w 42 5 (64 + 7 + 5 + 5), extract_join w 36 6 (64 + 7 + 5 + 5 + 5), extract_join w 30 6 (64 + 7 + 5 + 5 + 5 + 6), extract_join w 24 6 (64 + 7 + 5 + 5 + 5 + 6 + 6), extract_join w 16 8 (64 + 7 + 5 + 5 + 5 + 6 + 6 + 6), extract_join w 13 3 (64 + 7 + 5 + 5 + 5 + 6 + 6 + 6 + 8), extract_join w 8 5 (64 + 7 + 5 + 5 + 5 + 6 + 6 + 6 + 8 + 3), extract_join w 0 8 (64 + 7 + 5 + 5 + 5 + 6 + 6 + 6 + 8 + 3 + 5)]
  exact extract_all w

theorem gladeParts_instr (c : Instr) (op : BitVec 8) (i : GI) (h : gladeParts c = some (op, i)) : gladeInstr op i = some c := by
  cases c <;> first | (simp only [gladeParts, Option.some.injEq, Prod.mk.injEq] at h; obtain ⟨rfl, rfl⟩ := h; rfl) | (simp only [gladeParts] at h; cases h)

theorem gladeInstr_parts (op : BitVec 8) (i : GI) (c : Instr) (h : gladeInstr op i = some c) : gladeParts c = some (op, i) := by
  unfold gladeInstr at h
  split at h
  all_goals first
    | (cases h; rename_i e; simp only [gladeParts]; congr 2; exact BitVec.eq_of_toNat_eq e.symm)
    | cases h

end Sys2Proof.Laws
end

