-- ==== Sys2Proof/Tests/Slice0.lean ====
section
/-! SUPPORT. Tests on small states: an ill-formed command for each check of Instr.wf, instruction words written out from R131 and R139, values that the spec names, and for each statement states and operands that meet its hypotheses. -/

open Sys2Proof Sys2Proof.Machine Sys2Proof.Safety Sys2Proof.Laws

namespace Sys2Proof.Tests

set_option Elab.async false

/-! ### Fixtures -/

/-- A booted module. -/
def upState : State := { pins := { perst := false, pwrEn := true, pwrGood := true }, boot := { stage := 9, cfgReady := true, devReady := true } }

/-- A job without tables, with its whole Canopy managed. -/
def job0 : Job := { id := 7, pblock := [], managed := [20, 20, 20, 20] }

/-- The same job with one read-write PUBLIC segment over a canopy die's slice. -/
def job1 : Job := { job0 with segs := [(0, { base := 0x4000000000, len := 0x50000000, owner := 0x1000, access := 1, valid := true })] }

/-- An engine that runs at address 4 of a section of addresses 4 to 7. -/
def engAt (regs : List (Nat × BitVec 64)) (tds : List (Nat × Td)) : Eng := { pc := 4, s := regs, td := tds, st := .running, sectStart := 4, sectEnd := 8 }

/-- A state in which an engine of a glade stands at an instruction's word. -/
def atWord (opc : BitVec 8) (i : GI) (j : Job) (e : Eng) (g : Glade) (s : State) : State :=
  { s with job := some { j with progs := [(0, { image := wrBytes [] 64 (bvLe (instrWord opc i) 16), size := 256 })] },
           glades := [(i.glade.val, setEng { g with cmd := 9 } i.eng e)] }

/-- The usual case: a booted module, the job with a segment, nothing in the glade's stores. -/
def on (opc : BitVec 8) (i : GI) (regs : List (Nat × BitVec 64)) (tds : List (Nat × Td)) : State := atWord opc i job1 (engAt regs tds) {} upState

/-- A W32 tile in the tile buffer. -/
def w32 (base : BitVec 48) (rows cols : Nat) : Td := { base := base, fmt := 7, rows := BitVec.ofNat 12 (rows - 1), cols := BitVec.ofNat 12 (cols - 1), pitch := 256 }

/-- A W32 tile in the accumulator window. -/
def win (row rows cols : Nat) : Td := { w32 (BitVec.ofNat 48 (0x1000000 + 1024 * row)) rows cols with pitch := 1024 }

/-- An M4 tile in the tile buffer, with its scales. -/
def m4 (base : BitVec 48) (rows cols : Nat) : Td :=
  { w32 base rows cols with fmt := 1, blk := 0, sbase := base + 0x8000, spitch := 256 }

def gx (fl : BitVec 8) (m : BitVec 64) : GI := { glade := 3, eng := .xe, flags := fl, imm := m }
def ga (fl : BitVec 8) (m : BitVec 64) : GI := { glade := 127, eng := .ae, flags := fl, imm := m }

/-! ### Well-formed commands: each check refuses an ill-formed operand -/

theorem test_wf_doorbell : (Instr.doorbellWrite 0 [(5, 1), (5, 2)] 0 0).wf = false ∧ (Instr.doorbellWrite 0 [(2 ^ 64, 1)] 0 0).wf = false ∧
    (Instr.doorbellWrite 0 [(4, 1), (5, 2)] 0 0).wf = true := by decide +kernel

def hdr0 : CellHdr := { lseq := 0, vc := 2, dst := 5, src := 9, ep := false, kind := 1, pctr := 1, tag := 3, cidx := 1, auth := true }

theorem test_wf_cells : (Instr.dataCellReceive 0 hdr0 (zeros 479)).wf = false ∧ (Instr.responseCellReceive 0 hdr0 0 0 (zeros 481)).wf = false ∧
    (Instr.dataCellReceive 0 hdr0 (zeros 480)).wf = true := by decide +kernel

theorem test_wf_staging : (Instr.stagingWrite 0 []).wf = false ∧ (Instr.stagingWrite 0x3FFFFFFF [1, 2]).wf = false ∧
    (Instr.stagingRead 0 257).wf = false ∧ (Instr.stagingRead 0x3FFFFFFF 1).wf = true := by decide +kernel

theorem test_wf_fru : (Instr.fruRead 255 2).wf = false ∧ (Instr.fruRead 255 1).wf = true := by decide +kernel

theorem test_wf_register : (Instr.registerWrite 0 9 0).wf = false ∧ (Instr.registerWrite 0 0 0).wf = false ∧ (Instr.registerWrite 0 8 0).wf = true := by
  decide +kernel

theorem test_wf_readings : (Instr.wvMeasure [⟨3, 0, 0, 0, 0, 0, 0, 0⟩, ⟨3, 0, 0, 0, 0, 0, 0, 0⟩]).wf = false ∧
    (Instr.thermalSample ⟨[(50, 0)], 0⟩).wf = false ∧ (Instr.thermalSample ⟨[(0, 20), (49, 30)], 0⟩).wf = true := by decide +kernel

/-! ### Instruction words written out from R131 and R139, low field first from the right:
IMM, [63:57], SC, SB, SA, TC, TB, TA, FLAGS, [15:13], GUARD, OPC -/

theorem test_word_branch :
    decodeGlade 0 .ae (0xFFFFFFFFFFFFFFFF#64 ++ 0b0000000_00000_00000_00000_000000_000000_000000_00000000_000_00000_00000010#64) =
      some (.br { glade := 0, eng := .ae, imm := 0xFFFFFFFFFFFFFFFF }) := by decide +kernel

theorem test_word_alu :
    decodeGlade 127 .xe (5#64 ++ 0b0000000_00000_00010_11111_000000_000000_000000_00010000_000_10000_00010001#64) =
      some (.alu { glade := 127, eng := .xe, guard := 16, flags := 0x10, sa := 31, sb := 2, imm := 5 }) := by decide +kernel

theorem test_word_tdset :
    decodeGlade 1 .ae (0#64 ++ 0b0000000_00000_00000_00111_000000_000000_111111_00001011_000_00000_00010100#64) =
      some (.tdset { glade := 1, eng := .ae, flags := 0x0B, ta := 63, sa := 7 }) := by decide +kernel

theorem test_word_gather :
    decodeGlade 2 .ae (0#64 ++ 0b0000000_00000_00101_00100_000000_000010_000001_00000000_000_00000_00100010#64) =
      some (.ldG { glade := 2, eng := .ae, ta := 1, tb := 2, sa := 4, sb := 5 }) := by decide +kernel

theorem test_word_convert :
    decodeGlade 2 .xe (0x3F800000BF800000#64 ++ 0b0000000_00000_00000_00001_000011_000010_000001_01110001_000_00001_00110011#64) =
      some (.cvt { glade := 2, eng := .xe, guard := 1, flags := 0x71, ta := 1, tb := 2, tc := 3, sa := 1, imm := 0x3F800000BF800000 }) := by decide +kernel

theorem test_word_vector :
    decodeGlade 2 .xe (0#64 ++ 0b0000000_00000_11111_00000_000011_000010_000001_00100011_000_00000_00110100#64) =
      some (.vop { glade := 2, eng := .xe, flags := 0x23, ta := 1, tb := 2, tc := 3, sb := 31 }) := by decide +kernel

theorem test_word_signal_send :
    decodeGlade 2 .ae (0#64 ++ 0b0000000_00000_00000_00110_000000_000000_000000_00000111_000_00000_00001000#64) =
      some (.signal { glade := 2, eng := .ae, flags := 7, sa := 6 }) := by decide +kernel

theorem test_word_reserved : decodeGlade 0 .ae 0x07#128 = none ∧ decodeGlade 0 .ae 0x0B#128 = none ∧ decodeGlade 0 .xe 0xFF#128 = none := by decide +kernel

/-! ### Queue, reset and the glade's instructions -/

theorem witness_front_command : let s := { upState with pending := [.hubFault, .leaseGrant] };
    s.pending = .hubFault :: [.leaseGrant] ∧ State.reset.pending = [] := ⟨rfl, rfl⟩

theorem witness_step_memory : MemWf { upState with pending := [.hubFault] } ∧ ∃ t, step { upState with pending := [.hubFault] } = .next t :=
  ⟨⟨by decide +kernel, by decide +kernel⟩, (execHubFault_answers { upState with pending := [] } : _)⟩

theorem witness_word_round_trip : gladeParts (.mov (gx 0 1)) = some (0x10, gx 0 1) ∧ decodeGlade 3 .xe (instrWord 0x10 (gx 0 1)) = some (.mov (gx 0 1)) := by
  decide +kernel

theorem witness_may_not_issue : gladeInstr 0x10 (gx 0 1) = some (.mov (gx 0 1)) ∧ mayIssue State.reset (gx 0 1) = false := by decide +kernel

theorem witness_reserved_word : let s := on 0xFF (gx 0 1) [] [];
    mayIssue s (gx 0 1) = true ∧ decodeGlade 3 .xe (wordAt s 3 .xe) = none := by decide +kernel

theorem witness_unused_field : let i := { gx 0 1 with sb := 1 };
    mayIssue (on 0x10 i [] []) i = true ∧ wordAt (on 0x10 i [] []) 3 .xe = instrWord 0x10 i ∧ encOk i (gladeUse 0x10) = false := by decide +kernel

theorem witness_guard_false : let i := { gx 0 1 with guard := 16 };
    let s := atWord 0x10 i job1 { engAt [] [] with p := 0x80 } {} upState;
    mayIssue s i = true ∧ wordAt s 3 .xe = instrWord 0x10 i ∧ encOk i (gladeUse 0x10) = true ∧ guardTrue (curEng s i) 16 = false ∧ NextIn i s := by
  unfold NextIn; decide +kernel

theorem witness_frame : ∃ t, exec (.mov (gx 0 1)) (on 0x10 (gx 0 1) [] []) = .next t := execMov_answers _ _

theorem witness_mov : let i := { gx 0 (-1) with sa := 31 };
    NextIn i (on 0x10 i [] []) ∧ Issues 0x10 { sa := true, imm := allImm } i (on 0x10 i [] []) := by
  unfold Issues NextIn; decide +kernel

theorem witness_tdadd : let i := { gx 0 0 with ta := 63, sa := 31, sb := 1 };
    NextIn i (on 0x15 i [] []) ∧ Issues 0x15 { ta := true, sa := true, sb := true } i (on 0x15 i [] []) := by
  unfold Issues NextIn; decide +kernel

theorem witness_tdcpy : let i := { gx 0 0 with ta := 63, tb := 1 };
    NextIn i (on 0x16 i [] []) ∧ Issues 0x16 { ta := true, tb := true } i (on 0x16 i [] []) := by
  unfold Issues NextIn; decide +kernel

theorem witness_alu : ∀ f : Fin 32, let i := { gx (BitVec.ofNat 8 f.val) 64 with sa := 1, sb := 2, sc := 3 };
    NextIn i (on 0x11 i [] []) ∧ Issues 0x11 { sa := true, sb := true, sc := true, imm := allImm, flags := 0x1F } i (on 0x11 i [] []) := by
  unfold Issues NextIn; decide +kernel

theorem witness_cmp : ∀ f ∈ [0x00, 0x75, 0x86, 0xF5, 0xFF], let i := { gx (BitVec.ofNat 8 f) 64 with sb := 2, sc := 3 };
    NextIn i (on 0x12 i [] []) ∧ Issues 0x12 { sb := true, sc := true, imm := allImm, flags := 0xFF } i (on 0x12 i [] []) := by
  unfold Issues NextIn; decide +kernel

theorem witness_tdset : ∀ f : Fin 32, let i := { gx (BitVec.ofNat 8 f.val) 64 with ta := 63, sa := 1 };
    NextIn i (on 0x14 i [] []) ∧ Issues 0x14 { ta := true, sa := true, imm := allImm, flags := 0x1F } i (on 0x14 i [] []) := by
  unfold Issues NextIn; decide +kernel

/-- Branches from address 4 of the section 4 to 7: to its first and last address, and to the addresses beside it; the last address has no next one. -/
theorem witness_branches : (∀ m ∈ [(0 : Int), 3], let i := gx 0 (BitVec.ofInt 64 m);
      Issues 0x02 { imm := allImm } i (on 0x02 i [] []) ∧ TargetIn i (on 0x02 i [] []) (4 + m)) ∧
    (∀ m ∈ [(-1 : Int), 4], let i := gx 0 (BitVec.ofInt 64 m);
      Issues 0x02 { imm := allImm } i (on 0x02 i [] []) ∧ ¬ TargetIn i (on 0x02 i [] []) (4 + m)) ∧
    (let i := gx 0 0;
      Issues 0x00 {} i (on 0x00 i [] []) ∧ NextIn i (on 0x00 i [] []) ∧
      ¬ NextIn i (atWord 0x00 i job1 { engAt [] [] with sectEnd := 5 } {} upState) ∧
      Issues 0x00 {} i (atWord 0x00 i job1 { engAt [] [] with sectEnd := 5 } {} upState)) := by
  unfold Issues NextIn TargetIn; decide +kernel

theorem witness_loops : (let i := { gx 0 0 with sa := 1 };
      Issues 0x03 { sa := true, imm := allImm } i (on 0x03 i [(1, 1)] []) ∧ NextIn i (on 0x03 i [(1, 1)] []) ∧ sGet (sSet (engAt [(1, 1)] []) 1 0) 1 = 0) ∧
    (∀ m ∈ [(0 : Int), 4], let i := { gx 0 (BitVec.ofInt 64 m) with sa := 1 };
      Issues 0x03 { sa := true, imm := allImm } i (on 0x03 i [] []) ∧ sGet (sSet (engAt [] []) 1 (sGet (engAt [] []) 1 - 1)) 1 ≠ 0 ∧
      (TargetIn i (on 0x03 i [] []) (4 + m) ↔ m = 0)) := by
  unfold Issues NextIn TargetIn; decide +kernel

theorem witness_calls : let e := fun n => { engAt [] [] with stack := List.replicate n 4 };
    (∀ n ∈ [0, 15, 16], let s := atWord 0x04 (gx 0 1) job1 (e n) {} upState;
      Issues 0x04 { imm := allImm } (gx 0 1) s ∧ TargetIn (gx 0 1) s 5) ∧ ¬ TargetIn (gx 0 4) (on 0x04 (gx 0 4) [] []) 8 ∧
      Issues 0x04 { imm := allImm } (gx 0 4) (on 0x04 (gx 0 4) [] []) ∧
    (∀ a ∈ [3, 4, 7, 8], let s := atWord 0x05 (gx 0 0) job1 { engAt [] [] with stack := [5, BitVec.ofNat 20 a] } {} upState;
      Issues 0x05 {} (gx 0 0) s ∧ (curEng s (gx 0 0)).stack = [5] ++ [BitVec.ofNat 20 a] ∧ (TargetIn (gx 0 0) s ((BitVec.ofNat 20 a).toNat : Int) ↔ 4 ≤ a ∧ a ≤ 7)) ∧
    Issues 0x05 {} (gx 0 0) (on 0x05 (gx 0 0) [] []) := by
  unfold Issues TargetIn; decide +kernel

theorem witness_signal_send : ∀ n ∈ [0, 63, 64], let i := { ga 7 0 with sa := 1 };
    let s := atWord 0x08 i job1 (engAt [] []) { queues := if n = 0 then [] else [(7, List.replicate n 1)] } upState;
    Issues 0x08 { sa := true, flags := 7 } i s ∧ NextIn i s ∧ outQueue .ae 7 = 7 ∧ queueUsed (gladeOf s 127) 7 = n := by
  unfold Issues NextIn; decide +kernel

theorem witness_wait : let i := { ga 7 0 with sa := 1 };
    (let s := atWord 0x09 i job1 (engAt [] []) { queues := [(15, [8])] } upState;
      Issues 0x09 { sa := true, flags := 7 } i s ∧ NextIn i s ∧ queueOf (gladeOf s 127) (inQueue .ae 7) = [8]) ∧
    (Issues 0x09 { sa := true, flags := 7 } i (on 0x09 i [] []) ∧ queueOf (gladeOf (on 0x09 i [] []) 127) 15 = []) := by
  unfold Issues NextIn; decide +kernel

theorem witness_tokens :
    (let s := { upState with glades := [(127, { sent := [(15, [8, 9])] })] };
      sentOf (gladeOf s 127) (outQueue .xe 7) = 8 :: [9]) ∧
    (let s := { upState with glades := [(127, { ae := { engAt [] [] with st := .waitToken, waitQ := 15 }, queues := [(15, [8])], cmd := 9 })] };
      let g := gladeOf s 127;
      g.ae.st = .waitToken ∧ inQueue .ae (g.ae.waitQ % 8) = g.ae.waitQ ∧ g.stopReq = false ∧ g.stopped = false ∧ gladeFaulted g = false ∧
      queueOf g g.ae.waitQ = 8 :: [] ∧ NextIn { glade := 127, eng := .ae } s) := by
  unfold NextIn; decide +kernel

theorem witness_halt : Issues 0x01 {} (ga 0 0) (on 0x01 (ga 0 0) [] []) ∧
    (let s := { upState with job := some job1, glades := [(127, { ae := { st := .waitMem }, xe := { st := .running }, cmd := 9 })] };
      let g := gladeOf s 127;
      g.ae.st = .waitMem ∧ g.stopReq = false ∧ g.stopped = false ∧ gladeFaulted g = false ∧ g.cmd ≠ 0 ∧ mayHalt s 127 .ae = true ∧ engHalted g.xe = false) := by
  unfold Issues; decide +kernel

theorem witness_deadlock : ∀ e ∈ [({ st := .halted } : Eng), { st := .waitToken, waitQ := 0 }],
    let g : Glade := { ae := { st := .waitToken, waitQ := 8 }, xe := e, cmd := 9 };
    g.cmd ≠ 0 ∧ g.stopped = false ∧ cannotProceed g .ae = true ∧ cannotProceed g .xe = true ∧ engHalted g.ae = false := by decide +kernel

theorem witness_glade_stop :
    let s := { upState with glades := [(0, { ae := { st := .running }, cmd := 9, stopReq := true }), (1, { ae := { st := .running }, cmd := 9 })] };
    let g := gladeOf s 0;
    let s1 := setGlade s 0 { g with ae := stopEng g.ae, xe := stopEng g.xe, stopReq := false, stopped := true };
    g.stopReq = true ∧ g.stopped = false ∧ (gladesOf s1 9).any (fun o => !gladeEnded (gladeOf s1 o)) = true := by decide +kernel

/-! ### Glade instructions over tiles and memory -/

/-- A result that is no error, and that a check accepts. -/
def isOk {ε α : Type} (r : Except ε α) (p : α → Bool) : Bool :=
  match r with
  | .ok x => p x
  | .error _ => false

/-- The status with which a read ends. -/
def errOf {α : Type} (r : Except Byte α) : Byte :=
  match r with
  | .ok _ => 0
  | .error e => e

theorem witness_meet : ∀ f ∈ [0, 1], ∀ goal ∈ [0, 1, 2], let i := { ga (BitVec.ofNat 8 f) 0 with sa := 1, sb := 2 }
    let s := on 0x06 i [(1, 0x4000000008), (2, BitVec.ofNat 64 goal)] [];
    Issues 0x06 { sa := true, sb := true, flags := 1 } i s ∧ NextIn i s ∧ CounterAt s (sGet (curEng s i) 1).toNat ∧
    isOk (writeCheck s (jobOf s) (placeOf s 127).eval 0x4000000008 8 tagPublic) (fun u => u.isSome) = true ∧ staleHalf s (halfOfGlade 127) = false ∧
    leNat (rdBytes s.mem 0x4000000008 8) = 0 ∧ (sGet (curEng s i) 2).toNat = goal := by
  unfold Issues NextIn CounterAt; decide +kernel

theorem witness_meet_events : ∀ goal ∈ [0, 1],
    let e := { engAt [] [] with st := .waitMeet, meetAddr := 0x4000000008, meetGoal := BitVec.ofNat 64 goal, stalledAt := 5 }
    let s := { upState with job := some job1, glades := [(3, { xe := e, cmd := 9 })] }
    let g := gladeOf s 3;
    g.xe.st = .waitMeet ∧ g.stopReq = false ∧ g.stopped = false ∧ gladeFaulted g = false ∧ NextIn { glade := 3, eng := .xe } s ∧
    (g.xe.meetGoal.toNat ≤ leNat (rdBytes s.mem g.xe.meetAddr.toNat 8) ↔ goal = 0) := by
  unfold NextIn; decide +kernel

/-- LDS at the last words of the tile buffer and of the window, at an address beside a word and in space 3, and from a line of a tenant. -/
theorem witness_lds : let i := { gx 0 8 with sa := 1, sb := 2 }
    let u : Use := { sa := true, sb := true, imm := allImm, flags := 3 }
    (∀ a ∈ [0xBFFFF0, 0x13FFFF0], let s := on 0x17 i [(2, BitVec.ofNat 64 a)] [];
      NextIn i s ∧ Issues 0x17 u i s ∧ scalarPlace (placeOf s 3) 0 (a + 8) false = true ∧
      isOk (spanRead s (placeOf s 3) 0 (a + 8) 8) (fun x => x.2 = tagPublic) = true) ∧
    (∀ a ∈ [4, 0x13FFFF8], let s := on 0x17 i [(2, BitVec.ofNat 64 a)] [];
      NextIn i s ∧ Issues 0x17 u i s ∧ scalarPlace (placeOf s 3) 0 (a + 8) false = false) ∧
    (let s := atWord 0x17 i job1 (engAt [] []) { tags := [(0, 5)] } upState;
      NextIn i s ∧ Issues 0x17 u i s ∧ scalarPlace (placeOf s 3) 0 8 false = true ∧ isOk (spanRead s (placeOf s 3) 0 8 8) (fun x => x.2 ≠ tagPublic) = true) := by
  unfold Issues NextIn; decide +kernel

theorem witness_sts : let i := fun f => { gx f 8 with sa := 1, sb := 2 }
    let u : Use := { sa := true, sb := true, imm := allImm, flags := 3 }
    (let s := on 0x18 (i 0) [] [];
      NextIn (i 0) s ∧ Issues 0x18 u (i 0) s ∧ scalarPlace (placeOf s 3) 0 8 true = true ∧ gTag (gladeOf s 3) 8 = tagPublic) ∧
    (let s := atWord 0x18 (i 0) job1 (engAt [] []) { tags := [(0, 5)] } upState;
      Issues 0x18 u (i 0) s ∧ scalarPlace (placeOf s 3) 0 8 true = true ∧ gTag (gladeOf s 3) 8 ≠ tagPublic ∧ gTag (gladeOf s 3) 8 ≠ tagPoison) ∧
    (let s := on 0x18 (i 2) [] [];
      Issues 0x18 u (i 2) s ∧ scalarPlace (placeOf s 3) 2 8 true = false) ∧
    (∀ t ∈ [0, 1], let s := atWord 0x18 (i 1) job1 (engAt [(2, 0x4000000000)] []) {} { upState with tags := if t = 0 then [] else [(0x40000000, 5)] }
      NextIn (i 1) s ∧ Issues 0x18 u (i 1) s ∧ scalarPlace (placeOf s 3) 1 0x4000000008 true = true ∧
      isOk (writeCheck s (placeOf s 3).j (placeOf s 3).eval 0x4000000008 8 tagPublic) (fun x => x.isSome) = true ∧
      (lineTag s (placeOf s 3).j 0x4000000008 = tagPublic ↔ t = 0) ∧ staleHalf s (halfOfGlade 3) = false) := by
  unfold Issues NextIn; decide +kernel

/-- The conditions that VOP, SEL and SFU put on tdA and tdB. -/
def VecTiles (i : GI) (s : State) (a b : Td) : Prop :=
  NextIn i s ∧ (gladeOf s 3).tags = [] ∧ InBuffer a ∧ InBuffer b ∧ vecDst (placeOf s 3) a = true ∧ vecSrc (placeOf s 3) b = true ∧ tRows a = tRows b ∧
  tdGet (curEng s i) 1 = a ∧ tdGet (curEng s i) 2 = b

def xi (fl : BitVec 8) (m : BitVec 64) : GI := { gx fl m with ta := 1, tb := 2 }
def xt (opc : BitVec 8) (i : GI) (a b c : Td) : State := on opc i [(1, 0x3000), (2, 0x3F800000)] [(1, a), (2, b), (3, c)]

/-- An elementwise VOP on a tile, on a scalar, on a broadcast column and on no operand, into a W32 and into a block-scaled tile. -/
theorem witness_vop : ∀ f ∈ [0x00, 0x01, 0x03, 0x20, 0x40, 0x06], ∀ a ∈ [w32 0 2 3, m4 0 2 3],
    let i := { xi (BitVec.ofNat 8 f) 0 with tc := 3, sb := 2 }
    let s := xt 0x34 i a (w32 0x1000 2 3) (w32 0x2000 2 3);
    Issues 0x34 { ta := true, tb := true, tc := true, sb := true, flags := 0x7F, only := some .xe, steps := true } i s ∧ VecTiles i s a (w32 0x1000 2 3) ∧
    (i.flags.getLsbD 5 && i.flags.getLsbD 6) = false ∧ i.flags.getLsbD 4 = false ∧ (vopFn (i.flags.toNat % 16)).isSome = true ∧
    tCols a = tCols (w32 0x1000 2 3) ∧ InBuffer (w32 0x2000 2 3) ∧ vecSrc (placeOf s 3) (w32 0x2000 2 3) = true := by
  unfold Issues VecTiles NextIn InBuffer; decide +kernel

theorem witness_vop_reduce : ∀ f ∈ [0x10, 0x11, 0x12], let i := { xi (BitVec.ofNat 8 f) 0 with tc := 3, sb := 2 }
    let s := xt 0x34 i (w32 0 2 1) (w32 0x1000 2 64) (w32 0x2000 2 3);
    Issues 0x34 { ta := true, tb := true, tc := true, sb := true, flags := 0x7F, only := some .xe, steps := true } i s ∧ VecTiles i s (w32 0 2 1) (w32 0x1000 2 64) ∧
    i.flags.getLsbD 4 = true ∧ (reduceFn (i.flags.toNat % 16)).isSome = true := by
  unfold Issues VecTiles NextIn InBuffer; decide +kernel

theorem witness_sfu_sel : (∀ f ∈ [0, 5], let i := xi (BitVec.ofNat 8 f) 0;
      let s := xt 0x36 i (w32 0 2 3) (w32 0x1000 2 3) {};
      Issues 0x36 { ta := true, tb := true, flags := 7, only := some .xe, steps := true } i s ∧ VecTiles i s (w32 0 2 3) (w32 0x1000 2 3) ∧ (sfuFn f).isSome = true) ∧
    (let i := { xi 0 0 with tc := 3 }
      let s := xt 0x35 i (m4 0 2 3) (w32 0x1000 2 3) (w32 0x2000 2 3);
      Issues 0x35 { ta := true, tb := true, tc := true, only := some .xe, steps := true } i s ∧ VecTiles i s (m4 0 2 3) (w32 0x1000 2 3) ∧
      InBuffer (w32 0x2000 2 3) ∧ vecSrc (placeOf s 3) (w32 0x2000 2 3) = true) := by
  unfold Issues VecTiles NextIn InBuffer; decide +kernel

theorem witness_stat_read : ∀ n ∈ [0, 63], let i := { gx 0 (BitVec.ofNat 64 n) with ta := 1 }
    let s := xt 0x37 i (w32 0 1 2) {} {};
    Issues 0x37 { ta := true, imm := 63, only := some .xe } i s ∧ NextIn i s ∧ (gladeOf s 3).tags = [] ∧ (statOf (gladeOf s 3) n).tag = tagPublic ∧
    InBuffer (w32 0 1 2) ∧ tdDst (placeOf s 3) (w32 0 1 2) = true ∧ tFmt (w32 0 1 2) = fmtW32 ∧ 2 ≤ tCols (w32 0 1 2) := by
  unfold Issues NextIn InBuffer; decide +kernel

/-- A stationary tile of 256 by 256 M16 elements, and passes of 2 rows of 4 columns into single and pair rows, overwriting and accumulating. -/
theorem witness_array :
    (let a : Td := { fmt := 5, rows := 255, cols := 255, pitch := 512 }
      let i := { gx 0 0 with ta := 1 }
      let s := on 0x30 i [] [(1, a)];
      NextIn i s ∧ Issues 0x30 { ta := true, flags := 3, only := some .xe } i s ∧ (gladeOf s 3).shadow = none ∧ (gladeOf s 3).tags = [] ∧ InBuffer a ∧
      tRows a ≤ maxDepth (tFmt a) 0 ∧ tCols a ≤ 256 ∧ tileOk (placeOf s 3).j (placeOf s 3).prog a (tCols a) (tRows a) = true) ∧
    (∀ f ∈ [0, 1, 2, 3, 7], let i := xi (BitVec.ofNat 8 f) 0;
      let b : Td := { base := 0x1000, fmt := 5, rows := 1, cols := 3, pitch := 256 }
      let st : STile := { fmt := 5, pack := 0, rows := 4, cols := 4, blk := 16, codes := [], scales := [], tag := 0x1000, marked := false }
      let pf := passFlags i.flags;
      let s := atWord 0x31 i job1 (engAt [] [(1, win 2 2 4), (2, b)])
        { shadow := some st, pair := if pf.pair then [(4, true), (5, true), (6, true), (7, true)] else [] } upState;
      let w := if pf.pair then win 4 2 4 else win 2 2 4
      let s := { s with glades := [(3, { gladeOf s 3 with xe := engAt [] [(1, w), (2, b)] })] }
      Issues 0x31 { ta := true, tb := true, flags := 7, only := some .xe, steps := true } i s ∧ NextIn i s ∧ (gladeOf s 3).shadow = some st ∧ st.tag = tagPublic ∧
      (gladeOf s 3).tags = [] ∧ InBuffer b ∧ passTile (placeOf s 3) w pf.pair = true ∧ tdOk (placeOf s 3) b = true ∧ tCols b = st.rows ∧ tRows w = tRows b ∧
      (pairDepth st.fmt.toNat st.pack.toNat (tFmt b)).isSome = true ∧ modesOk (gladeOf s 3) pf.pair (firstRow w pf.pair) (tRows w) = true) := by
  unfold Issues NextIn InBuffer; decide +kernel

/-- CVT of single rows and of pair rows, with a residual tile and without, its parameter block all zero. -/
theorem witness_convert : ∀ f ∈ [0x00, 0x14, 0x21, 0x41, 0x63], let i := { xi (BitVec.ofNat 8 f) (-1) with tc := 3, sa := 1 }
    let b : Td := { base := 0x1000, fmt := 5, rows := 1, cols := 3, pitch := 256 }
    let c : Td := { base := 0x2000, fmt := 6, rows := 1, cols := 3, pitch := 256 }
    let pair := i.flags.getLsbD 6;
    let a := win 2 2 4;
    let s := atWord 0x33 i job1 (engAt [(1, 0x3000)] [(1, a), (2, b), (3, c)]) { pair := if pair then [(2, true), (3, true), (4, true), (5, true)] else [] } upState;
    let blk := rdBytes (gladeOf s 3).mem (sGet (curEng s i) 1).toNat 2304;
    Issues 0x33 { ta := true, tb := true, tc := true, sa := true, flags := 0x7F, imm := allImm, only := some .xe, steps := true } i s ∧ NextIn i s ∧
    (convFn (i.flags.toNat % 16)).isSome = true ∧ (gladeOf s 3).tags = [] ∧ InBuffer b ∧ passTile (placeOf s 3) a pair = true ∧
    tdDst (placeOf s 3) b = true ∧ tFmt b ≠ fmtF8 ∧ tRows a = tRows b ∧ tCols a = tCols b ∧
    (InBuffer c ∧ tdOk (placeOf s 3) c = true ∧ tFmt c = fmtW24 ∧ tRows a = tRows c ∧ tCols a = tCols c) ∧
    (sGet (curEng s i) 1).toNat % 256 = 0 ∧ inScratch (jobOf s) (sGet (curEng s i) 1).toNat 2304 = true ∧
    modesOk (gladeOf s 3) pair (firstRow a pair) (tRows a) = true ∧ flagAt blk 2080 6 = false ∧ zeroAt blk 2081 223 = true ∧ maskWhole blk b = true := by
  unfold Issues NextIn InBuffer; decide +kernel

def ai (fl : BitVec 8) : GI := { ga fl 0 with ta := 1, tb := 2 }
def at_ (opc : BitVec 8) (i : GI) (a b : Td) (m : Mem) : State := atWord opc i job1 (engAt [(1, 0x3000), (2, 2)] [(1, a), (2, b)]) { mem := m } upState

theorem witness_load : ∀ sp ∈ [0, 2], let i := ai 0;
    let b := { w32 (if sp = 2 then 256 else 0x1000) 2 3 with space := BitVec.ofNat 2 sp }
    let s1 := at_ 0x20 i (w32 0 2 3) b [];
    let s := { s1 with job := s1.job.map (fun j => { j with progs := [(0, { progOf j 0 with image := wrBytes (progOf j 0).image 32 (natLe 256 4 ++ natLe 768 4), size := 1024 })] }) }
    NextIn i s ∧ Issues 0x20 { ta := true, tb := true, only := some .ae, steps := true } i s ∧ (gladeOf s 127).tags = [] ∧ InBuffer (w32 0 2 3) ∧
    tdDst (placeOf s 127) (w32 0 2 3) = true ∧ tdOk (placeOf s 127) b = true ∧ tSpace b ≠ 1 ∧ (isBlock (tFmt b) = true → b.sspace ≠ 1) := by
  unfold Issues NextIn InBuffer; decide +kernel

/-- A gather of two rows: the second row of the source, and a blank row. -/
theorem witness_gather : let i := { ai 0 with sa := 1, sb := 2 }
    let m := wrBytes [] 0x3000 (natLe 1 4 ++ natLe 0xFFFFFFFF 4);
    let s := at_ 0x22 i (w32 0 2 3) (w32 0x1000 2 3) m;
    NextIn i s ∧ Issues 0x22 { ta := true, tb := true, sa := true, sb := true, only := some .ae, steps := true } i s ∧ (gladeOf s 127).tags = [] ∧
    (sGet (curEng s i) 1).toNat = 0x3000 ∧ (sGet (curEng s i) 2).toNat = 2 ∧ inScratch (jobOf s) 0x3000 8 = true ∧
    tdDst (placeOf s 127) (w32 0 2 3) = true ∧ tdOk (placeOf s 127) (w32 0x1000 2 3) = true ∧
    (List.range 2).foldl (gatherMem (placeOf s 127).prog.image (w32 0 2 3) (w32 0x1000 2 3) 0x3000) (some m) ≠ none := by
  unfold Issues NextIn; decide +kernel

/-- Moves from Canopy and into it, none of whose steps faults. -/
theorem witness_moves : let dev := { w32 0x4000000000 2 3 with space := 1 }
    (let s := at_ 0x20 (ai 0) (w32 0 2 3) dev [];
      NextIn (ai 0) s ∧ Issues 0x20 { ta := true, tb := true, only := some .ae, steps := true } (ai 0) s ∧ tdDst (placeOf s 127) (w32 0 2 3) = true ∧ tdOk (placeOf s 127) dev = true ∧
      (runSteps (moveStep (placeOf s 127)) ((List.range 2).flatMap (fun r => rowMoves dev (w32 0 2 3) r r)) { s := s }).err = 0) ∧
    (let s := at_ 0x21 (ai 0) dev (w32 0 2 3) [];
      NextIn (ai 0) s ∧ Issues 0x21 { ta := true, tb := true, only := some .ae, steps := true } (ai 0) s ∧ tdDst (placeOf s 127) dev = true ∧ tdOk (placeOf s 127) (w32 0 2 3) = true ∧
      (runSteps (moveStep (placeOf s 127)) ((List.range 2).flatMap (fun r => rowMoves (w32 0 2 3) dev r r)) { s := s }).err = 0) ∧
    (let i := { ai 0 with sa := 1, sb := 2 }
      let s := at_ 0x22 i (w32 0 2 3) dev [];
      NextIn i s ∧ Issues 0x22 { ta := true, tb := true, sa := true, sb := true, only := some .ae, steps := true } i s ∧ tdOk (placeOf s 127) dev = true ∧
      (runRows (gatherRow (placeOf s 127) (w32 0 2 3) dev 0x3000) 2 { s := s }).err = 0) := by
  unfold Issues NextIn; decide +kernel

theorem witness_prefetch_xfer : (let i := { ga 1 0 with ta := 1 }
      NextIn i (on 0x23 i [] []) ∧ Issues 0x23 { ta := true, flags := 1, only := some .ae } i (on 0x23 i [] [])) ∧
    (let i := { ga 0 0 with sa := 1 }
      let s := on 0x24 i [(1, 0x40)] [];
      NextIn i s ∧ Issues 0x24 { sa := true, only := some .ae } i s ∧ (sGet (curEng s i) 1).toNat % 64 = 0 ∧ inScratch (jobOf s) 0x40 64 = true ∧
      gPoisoned (gladeOf s 3) 0x40 64 = false) := by
  unfold Issues NextIn; decide +kernel

/-- ROUTE to 1 of 1 expert and to 16 of 256. -/
theorem witness_route : ∀ x ∈ [((0 : Nat), 1, 3), (0xFFF00, 256, 48)],
    let i : GI := { gx 0 (BitVec.ofNat 64 x.1) with ta := 1, tb := 2, tc := 3, sb := 4, sc := 5 }
    let a := { w32 0 2 x.2.1 with pitch := 1024 }
    let b := w32 0x1000 2 1;
    let c := w32 0x2000 2 x.2.2;
    let s := on 0x38 i [] [(1, a), (2, b), (3, c)];
    let o := routeOp i.imm.toNat 0 0 0;
    NextIn i s ∧ Issues 0x38 { ta := true, tb := true, tc := true, sa := true, sb := true, sc := true, imm := routeImm, only := some .xe, steps := true } i s ∧
    (gladeOf s 3).tags = [] ∧ InBuffer a ∧ InBuffer b ∧ InBuffer c ∧ tdOk (placeOf s 3) a = true ∧ tdOk (placeOf s 3) b = true ∧ tdDst (placeOf s 3) c = true ∧
    o.eb ≤ tCols a ∧ o.norm ≠ 3 ∧ tCols c = 3 * o.k := by
  unfold Issues NextIn InBuffer; decide +kernel

theorem witness_forecast : let i := { gx 0 0xFFF00 with ta := 1 }
    let a := { w32 0 2 256 with pitch := 1024 }
    let s := on 0x39 i [] [(1, a)];
    let o := routeOp i.imm.toNat 0 0 0;
    NextIn i s ∧ Issues 0x39 { ta := true, imm := 0xFFFFFF, only := some .xe, steps := true } i s ∧ (gladeOf s 3).tags = [] ∧ InBuffer a ∧ tdOk (placeOf s 3) a = true ∧
    tFmt a = fmtW32 ∧ o.eb ≤ tCols a ∧ o.norm ≠ 3 := by
  unfold Issues NextIn InBuffer; decide +kernel

theorem witness_grouped : let i : GI := { xi 0 (2 ^ 48) with sa := 1, sb := 2, sc := 3 }
    let b : Td := { base := 0x1000, fmt := 5, rows := 63, cols := 3, pitch := 256 }
    let u : Use := { ta := true, tb := true, sa := true, sb := true, sc := true, flags := 7, imm := ~~~(0xF800 : BitVec 64), only := some .xe, steps := true }
    let o := GroupOp.mk 0 0 false 0 0 1 0 (passFlags 0);
    Issues 0x32 u i (on 0x32 i [(1, 0x3000), (2, 0)] [(1, win 0 64 4), (2, b)]) ∧
    (let s := on 0x32 i [(1, 0x3000), (2, 1)] [(1, win 0 64 4), (2, b)];
      Issues 0x32 u i s ∧ NextIn i s ∧ passTile (placeOf s 3) (win 0 64 4) false = true ∧ tdOk (placeOf s 3) b = true ∧ o.kn ≠ 0 ∧
      inScratch (placeOf s 3).j 0x3000 16 = true ∧ gPoisoned (gladeOf s 3) 0x3000 16 = false ∧ tFmt b ≠ fmtW32 ∧ tFmt b ≠ fmtF8 ∧
      (((List.range 1).map (fun k => groupAt (rdBytes (gladeOf s 3).mem (0x3000 + 16 * k) 16))).foldl
        (fun x g => if x.err ≠ 0 then x else groupRun (placeOf s 3) o (win 0 64 4) b g x) { s := s }).err = 0) := by
  unfold Issues NextIn; decide +kernel

/-- One group of two rows of base expert 0, whose tile the base's directory and the layout of its copy place: 4 by 4 elements of M16 in Canopy. No value of
the layout is fixed by the model: the test says what it asks of it. -/
theorem witness_one_group (hd : Config.projDims 0 0 0 0 = (1, 1)) (hl : Config.projTile 0 0 0 0 false 0 0 = [5, 0, 4, 4, 0, 256, 0, 0]) :
    let i : GI := { xi 0 (2 ^ 48) with sa := 1, sb := 2, sc := 3 }
    let b : Td := { base := 0x1000, fmt := 5, rows := 63, cols := 3, pitch := 256 }
    let j := { job1 with baseA := { loaded := true, current := true, nat := 0x4000200000, table := [⟨0, 0, 0, 0⟩] } }
    let s := atWord 0x32 i j (engAt [(1, 0x3000), (2, 1)] [(1, win 0 64 4), (2, b)]) { mem := wrBytes [] 0x3000 (natLe 0 4 ++ natLe 2 4 ++ natLe 0 4 ++ natLe 64 4) } upState;
    let g := groupAt (rdBytes (gladeOf s 3).mem 0x3000 16);
    (Issues 0x32 (gladeUse 0x32) i s ∧ NextIn i s ∧ (gladeOf s 3).tags = [] ∧ InBuffer b ∧ idPriv g.id = false ∧ g.count = 2 ∧ g.first % 64 = 0 ∧ g.cap % 64 = 0 ∧
      g.first + g.count ≤ tRows b ∧ g.first + g.count ≤ tRows (win 0 64 4)) ∧
    ∃ st, groupTile s (placeOf s 3) g.id 0 0 false (tFmt b) 0 0 = .ok st ∧ (pairDepth st.fmt.toNat st.pack.toNat (tFmt b)).isSome = true ∧ st.rows ≤ tCols b ∧
      st.tag ≠ tagPoison := by
  intro i b j s g
  refine ⟨by unfold Issues NextIn InBuffer; decide +kernel, ?_⟩
  have h0 : g.id = 0 := by decide +kernel
  have hg : groupTile s (placeOf s 3) g.id 0 0 false (tFmt b) 0 0 =
      readSTile s (placeOf s 3) (projTd [5, 0, 4, 4, 0, 256, 0, 0] 0x4000200000 1) (packFor 5 (tFmt b)) 4 4 := by
    rw [h0]; unfold groupTile baseTile
    have e : baseEntry (baseOf (placeOf s 3).j (idGen 0)) 0 0 (idIndex 0) = some ⟨0, 0, 0, 0⟩ := by decide +kernel
    dsimp only
    rw [if_pos (by decide), e]
    dsimp only
    rw [show idGen 0 = 0 from rfl, show idIndex 0 = 0 from rfl, hd, hl, show (baseOf (placeOf s 3).j 0).nat.toNat = 0x4000200000 by decide +kernel]
    simp only [Bool.false_and, Bool.false_or, if_false, Bool.false_eq_true, Nat.add_zero]
    rfl
  have hr : isOk (readSTile s (placeOf s 3) (projTd [5, 0, 4, 4, 0, 256, 0, 0] 0x4000200000 1) (packFor 5 (tFmt b)) 4 4)
      (fun st => (pairDepth st.fmt.toNat st.pack.toNat (tFmt b)).isSome && decide (st.rows ≤ tCols b) && decide (st.tag ≠ tagPoison)) = true := by decide +kernel
  rw [hg]
  cases hx : readSTile s (placeOf s 3) (projTd [5, 0, 4, 4, 0, 256, 0, 0] 0x4000200000 1) (packFor 5 (tFmt b)) 4 4 with
  | error e => rw [hx] at hr; simp [isOk] at hr
  | ok st =>
    rw [hx] at hr
    simp only [isOk, Bool.and_eq_true, decide_eq_true_eq] at hr
    exact ⟨st, rfl, hr.1.1, hr.1.2, hr.2⟩

theorem witness_reduce : let i : GI := { xi 0 0 with sa := 4, sb := 5 }
    let a := w32 0 2 3;
    let b := { w32 0x4000000000 2 3 with space := 1 }
    let s := on 0x3A i [(4, 1)] [(1, a), (2, b)];
    let pl := placeOf s 3;
    Issues 0x3A { ta := true, tb := true, sa := true, sb := true, flags := 1, only := some .xe, steps := true } i s ∧ NextIn i s ∧ sGet (curEng s i) 4 = 1 ∧
    sGet (curEng s i) 5 = 0 ∧ tdOk pl a = true ∧ tdOk pl b = true ∧ InBuffer a ∧ redManaged pl.j b = true ∧
    isOk (redTarget s pl b) id = true ∧ (gladeOf s 3).tags = [] ∧ pl.j.reds.find? (fun r => r.base = b.base) = none ∧
    staleHalf s (halfOfGlade 3) = false ∧ (redPer b = 64 ∧ redLines b = 1 ∧ ∀ r < 2, inManaged pl.j (rowAddr b r) = true ∧ isOk (readLine s pl.j (rowAddr b r)) (fun t => t = tagPublic) = true ∧
      isOk (writeCheck s pl.j pl.eval (rowAddr b r) 12 tagPublic) (fun u => u = some tagPublic) = true) := by
  unfold Issues NextIn InBuffer; decide +kernel

/-! ### Commands of the rings -/

/-- A field of a descriptor's operands: value and width in bytes. -/
def ops (l : List (Nat × Nat)) : Bytes := l.flatMap (fun x => natLe x.1 x.2)

/-- An accepted command: opcode, operands, header flags and tenant. -/
def cmdOf (ring : Nat) (opc : Byte) (o : Bytes) (tenant : Nat := 0) (flags : Byte := 0) : Cmd :=
  { acc := 5, ring := ring, index := 0, desc := padTo ([opc, flags] ++ natLe tenant 2 ++ zeros 4 ++ o) 128, job := if ring = 0 then 0 else 7 }

/-- A booted module with a job and commands. -/
def withCmds (j : Job) (l : List Cmd) : State := { upState with job := some j, cmds := l }

/-- A job with a bound tenant slot 1, a program in slot 0 and a PUBLIC segment over a canopy die and over the staging window. -/
def job2 : Job :=
  { job1 with
    segs := [(0, { base := 0x4000000000, len := 0x50000000, owner := 0x1000, access := 1, valid := true }),
             (1, { base := 0, len := 0x40000000, owner := 0x1000, access := 1, valid := true }),
             (2, { base := 0x8000000000, len := 0x10000000, owner := 1, access := 1, valid := true, enc := true, vsrc := 1, vbase := 0x4000100000 })],
    progs := [(0, { size := 1024 })], tenants := [(1, { st := .bound, digest := 77 })],
    doms := [(0, { quads := 0xFF, cways := 0xFFFF, tways := 0xFFFF, valid := true })] }

/-- A command is ready in a state. -/
def isReady (s : State) (c : Cmd) (opc : Byte) : Bool := decide (ready s 5 opc = some c)

theorem witness_rings :
    (let s := { upState with rings := [(255, { st := .draining, sqTail := 1, accepted := 1 })] };
      (ringOf s 255).st ≠ .disabled ∧ hubUp s = true ∧ s.boot.devReady = true) ∧
    (ringOf upState 255).st = .disabled ∧ mayAccept upState 0 = false ∧ mayRelease upState 255 = none ∧
    (let s := { upState with rings := [(0, { st := .enabled, sqTail := 64 })] };
      mayAccept s 0 = true) ∧
    (let s := { upState with rings := [(255, { st := .enabled, sqTail := 1 })], job := some { job0 with rings := 1 <<< 255 } };
      mayAccept s 255 = true) ∧
    (let c := { cmdOf 0 0x40 [] with ph := .done };
      let s := { upState with rings := [(0, { st := .draining, accepted := 1 })], cmds := [c] };
      nextRecord s 0 = some c ∧ mayRelease s 0 = some c ∧ ringSaved s 0 = false ∧ c.ph = .done ∧ hubUp s = true ∧ s.boot.devReady = true ∧ ((ringOf s 0).released - (ringOf s 0).cqHead).toNat < ringN (ringOf s 0) ∧
      hdrFlag c 1 = false) := by decide +kernel

theorem witness_fence_mark : let f := cmdOf 1 0x0B [];
    let m := cmdOf 1 0x0C [];
    isReady (withCmds job2 [f]) f 0x0B = true ∧ isReady (withCmds job2 [m]) m 0x0C = true := by decide +kernel

theorem witness_pins : ({ upState with pins := { latched := true } } : State).pins.latched = true ∧ State.reset.pins.latched = false ∧
    upState.pins.pwrGood = true ∧ upState.pins.perst = false ∧ State.reset.pins.pwrGood = false ∧
    ({ upState with pins := { pwrGood := true } } : State).pins.perst = true := by decide +kernel

/-- Both banks pass, the first fails and the other boots, and neither passes. -/
theorem witness_boot : let s := { State.reset with pins := { pwrGood := true } };
    let t := fun a b => (⟨⟨a, b⟩, 0, 0, 0, 0⟩ : BootTests);
    s.pins.perst = true ∧ s.pins.pwrGood = true ∧ bootBank { s with pins := { s.pins with perst := false } } (t 0 5).banks (firstBank s) = some (false, false) ∧
    bootBank { s with pins := { s.pins with perst := false } } (t 1 0).banks (firstBank s) = some (true, true) ∧
    bootBank { s with pins := { s.pins with perst := false } } (t 2 3).banks (firstBank s) = none ∧
    upState.pins.pwrGood = true ∧ upState.pins.perst = false ∧ upState.boot.cfgReady = true ∧ upState.job = none ∧ upState.fab.xfers = [] ∧
    bootBank upState ⟨0, 0⟩ (firstBank upState) = some (false, false) ∧ bootBank upState ⟨5, 5⟩ (firstBank upState) = none := by decide +kernel

theorem witness_run : let c := fun m => cmdOf 1 0x01 (ops [(0, 16), (m, 16)]);
    let s := fun m => withCmds job2 [c m];
    (∀ m ∈ [0, 1, 2 ^ 127], isReady (s m) (c m) 0x01 = true ∧ (c m).ph = .accepted ∧ hdrFlag (c m) 0 = false ∧
      (cmdGlades (c m) = [] ↔ m = 0) ∧ (∀ g ∈ cmdGlades (c m), gladeFenced (s m) g = false) ∧ (progOf job2 (opB (c m) 0 1 8).toNat).size ≠ 0 ∧
      (∀ g ∈ cmdGlades (c m), gladeHeld (s m) g = false ∧ (gladeOf (s m) g).cmd = 0 ∧ halfActs (s m) g = true) ∧
      frameWaits (s m) job2 (cmdGlades (c m)) = false ∧ earlierRun (s m) (c m) (cmdGlades (c m)) = false ∧ domainsReady (s m) (cmdGlades (c m)) = true) ∧
    (∃ g ∈ cmdGlades (c 1), gladeFenced { s 1 with fences := { grove := 1 } } g = true) ∧ isReady { s 1 with fences := { grove := 1 } } (c 1) 0x01 = true ∧
    (let d := cmdOf 1 0x01 (ops [(1, 16), (1, 16)]);
      isReady (withCmds job2 [d]) d 0x01 = true ∧ (progOf job2 (opB d 0 1 8).toNat).size = 0) ∧
    (∃ g ∈ cmdGlades (c 1), gladeHeld { s 1 with rst := { held := 1 } } g = true) ∧ isReady { s 1 with rst := { held := 1 } } (c 1) 0x01 = true := by decide +kernel

theorem witness_started_glade : ([1, 2, 3, 4, 5, 6, 7, 8] : List (BitVec 64)).length ≤ 8 := by decide

def str0 : Machine.Stream := { enabled := true, main := 0, fallback := 0, tenant := 1, period := 1000, deadline := 500, glades := 1 }
def jobF : Job := { job2 with streams := [(2, str0), (1023, { str0 with enabled := false })] }

/-- FRAME on an enabled stream, on a disabled one, beyond the last one, and of an unbound tenant; then released, dispatched and ended. -/
theorem witness_frames : let c := fun n => cmdOf 1 0x04 (ops [(n, 2)]);
    (∀ n ∈ [2, 1023, 1024], isReady (withCmds jobF [c n]) (c n) 0x04 = true ∧ (c n).ph = .accepted ∧ (c n).release = none ∧
      streamBusy (withCmds jobF [c n]) (c n) 0x4A (fun _ => true) = false ∧ streamBusy (withCmds jobF [c n]) (c n) 0x04 (fun d => d.release.isNone) = false ∧
      (opN (c n) 0 2 < 1024 ↔ n ≠ 1024) ∧ ((streamOf jobF n).enabled = true ↔ n = 2)) ∧
    tenantServes jobF 1 5 = true ∧ gladesIn (withCmds jobF []) (streamOf jobF 2).glades ≠ [] ∧
    gladesIn { withCmds jobF [] with fences := { grove := 1 } } (streamOf jobF 2).glades = [] ∧ tenantServes { jobF with tenants := [] } 1 5 = false ∧
    isReady (withCmds { jobF with tenants := [] } [c 2]) (c 2) 0x04 = true ∧
    (let d := { c 2 with release := some 0 };
      let s := withCmds jobF [d];
      isReady s d 0x04 = true ∧ frameCan s jobF d = true ∧ (∀ e ∈ s.cmds, frameCan s jobF e = true → frameBefore jobF e d = false) ∧
      domainsReady s [0] = true ∧ gladesIn s (streamOf jobF 2).glades = [0] ∧ (progOf jobF 0).size ≠ 0) ∧
    (∀ st ∈ [0, 0x26], let d := { c 2 with release := some 0, ph := .running, progress := 1, status := BitVec.ofNat 8 st };
      isReady (withCmds jobF [d]) d 0x04 = true ∧ d.strictHit = false ∧ d.frozen = false ∧ d.warn = false ∧ d.fallback = false) := by decide +kernel

theorem witness_stream_set : let c := fun (n t : Nat) => cmdOf 0 0x4A (ops [(n, 2), (t, 2), (1, 1), (0, 3), (9, 4), (9, 4), (0, 8), (1, 16)]);
    (∀ n ∈ [1023, 1024], ∀ t ∈ [1, 2], let s := withCmds jobF [c n t];
      isReady s (c n t) 0x4A = true ∧ streamBusy s (c n t) 0x04 (fun _ => true) = false ∧ (streamOk (c n t) = true ↔ n = 1023) ∧
      (isBound jobF (opN (c n t) 2 2 % 4096) = true ↔ t = 1)) ∧
    (let f := { cmdOf 1 0x04 (ops [(2, 2)]) with acc := 4 };
      let s := withCmds jobF [f, c 2 1];
      isReady s (c 2 1) 0x4A = true ∧ streamBusy s (c 2 1) 0x04 (fun _ => true) = true) := by decide +kernel

theorem witness_admit_retire : let c := fun (t n : Nat) => cmdOf 1 0x02 (ops [(t, 4), (n, 4), (1, 4)]);
    (∀ t ∈ [1, 2], ∀ n ∈ [0, 2 ^ 24 - 1, 2 ^ 24], isReady (withCmds job2 [c t n]) (c t n) 0x02 = true ∧ (c t n).ph = .accepted ∧
      (isBound job2 (opN (c t n) 0 2 % 4096) = true ↔ t = 1) ∧
      (opN (c t n) 4 4 = 0 ∨ opN (c t n) 8 4 = 0 ∨ 2 ^ 24 < opN (c t n) 4 4 + opN (c t n) 8 4 ↔ n ≠ 2 ^ 24 - 1) ∧ spillOk job2 1 (opN (c t n) 40 8) 4096 = true) ∧
    (∀ st ∈ [SeqSt.queued, SeqSt.parked, SeqSt.running], ∀ t ∈ [0, 1], let r := cmdOf 1 0x03 (ops [(1, 8), (3, 8)]) t;
      let d := { c 1 9 with acc := 3, ph := .running };
      let q : Sequence := { acc := 3, tenant := 1, st := st, prompt := [], plen := 9, maxNew := 1, out := 0, outLen := 0, spill := 0, user := 0 };
      let s := withCmds { job2 with seqs := [q] } [d, r];
      isReady s r 0x03 = true ∧ findCmd s (opB r 8 8 64) = some d ∧ d.ring = opN r 0 1 ∧ opcOf d = 0x02 ∧ d.job = job2.id ∧
      [q].find? (fun q => q.acc = opB r 8 8 64) = some q ∧ (q.tenant = hdrTenant r ↔ t = 1)) ∧
    (let r := cmdOf 1 0x03 (ops [(1, 8), (3, 8)]);
      isReady (withCmds job2 [r]) r 0x03 = true ∧ findCmd (withCmds job2 [r]) (opB r 8 8 64) = none) := by decide +kernel

theorem witness_serving : let q : Sequence := { acc := 3, tenant := 1, st := .parked, prompt := [], plen := 9, maxNew := 1, out := 0, outLen := 0, spill := 0, user := 0 }
    let j := { job2 with seqs := [q], stepGlades := 3 };
    let s := withCmds { j with stepReady := true } [];
    hubUp s = true ∧ j.st = 2 ∧ j.seqs.find? (fun q => q.acc = 3 && q.st = .parked) = some q ∧ j.stepping = false ∧ j.stepReady = false ∧
    gladesIn s j.stepGlades = [0, 1] ∧ (progOf j j.stepSlot.toNat).size ≠ 0 ∧
    (∀ g ∈ [0, 1], gladeHeld s g = false ∧ (gladeOf s g).cmd = 0 ∧ halfActs s g = true) ∧ frameWaits s j [0, 1] = false ∧ domainsReady s [0, 1] = true ∧
    throttledNow s [0, 1] = false := by decide +kernel

/-! ### Training, adapters, checkpoints and tables -/

/-- A record of a tensor of one unit: weights, momentum and remainders in the tenant's segment, its gradient in Canopy (R271, R272). -/
def recBytes0 : Bytes := ops [(0x8000000000, 8), (0x8000004000, 8), (0x8000007000, 8), (0x4000200000, 8), (0x4000300000, 8), (8192, 8), (0, 1), (0, 1),
  (0, 2), (0, 4), (256, 4), (16, 4), (0, 8), (0, 8)]

def memT (counter : Nat) : Mem := wrBytes (wrBytes [] 0x4000000000 recBytes0) 0x4000100000 ((List.range 9).flatMap (fun _ => natLe counter 4))

/-- UPDATE with STEP 0, and the step word at an address or none. -/
def updCmd0 (rec gstep : Nat) : Cmd := cmdOf 1 0x05 (ops [(0, 4), (0, 4), (rec, 8), (gstep, 8)])

def updState (m : Mem) (c : Cmd) : State := { withCmds job2 [c] with mem := m }

theorem witness_update : let c := updCmd0 0x4000000000 0;
    (∀ v ∈ [0, 1, 2], let s := updState (memT v) c;
      isReady s c 0x05 = true ∧ opN c 0 1 = 0 ∧ tensorTurn s job2 c = true ∧
      isOk (checkTensor s job2 0x4000000000 0 true true none (hyperOk (hyperOf c))) (fun x => decide (updUnits x.1 x.2.1 = [0]) &&
        decide (countersSound s (unitCounters job2 x.1 0) = true) &&
        decide (unitDo s x.1 0 (unitCounters job2 x.1 0) = (if v = 0 then .apply 0 else if v = 1 then .skip else .skew))) = true) ∧
    (let s := { updState (memT 0) c with poison := [0x40001000] };
      isReady s c 0x05 = true ∧ tensorTurn s job2 c = true ∧
      isOk (checkTensor s job2 0x4000000000 0 true true none (hyperOk (hyperOf c))) (fun x => !countersSound s (unitCounters job2 x.1 0)) = true) := by
  decide +kernel

theorem witness_update_skew : let c := updCmd0 0x4000000000 0x4000400000;
    let s := updState (memT 0) c;
    isReady s c 0x05 = true ∧ tensorTurn s job2 c = true ∧ opN c 16 8 ≠ 0 ∧ s.poison.contains (lineOf 0x4000400000) = false ∧
    ({ s with poison := [lineOf 0x4000400000] } : State).poison.contains (lineOf 0x4000400000) = true ∧
    ¬ (wordPlace s job2 0x4000400000 = true ∧ leNat (rdBytes s.mem 0x4000400000 8) % 2 ^ 34 = 2 ^ 32) ∧
    isOk (checkTensor s job2 0x4000000000 0x4000400000 true true none (hyperOk (hyperOf c))) (fun _ => true) = true := by decide +kernel

theorem witness_update_refused : let c := updCmd0 0x4050000000 0;
    let s := updState [] c;
    isReady s c 0x05 = true ∧ tensorTurn s job2 c = true ∧ isOk (checkTensor s job2 0x4050000000 0 true true none (hyperOk (hyperOf c))) (fun _ => true) = false ∧
    (let d := { updCmd0 0x4000000000 0 with acc := 4 };
      let e := updCmd0 0x4000000000 0;
      let s := { updState (memT 0) e with cmds := [d, e] };
      isReady s e 0x05 = true ∧ tensorTurn s job2 e = false) := by decide +kernel

/-- The session under whose upload key an object of tenant 1 is wrapped. -/
def sess1 : Session := { role := 0, tenant := 1, sid := 9, upKey := 4, egrKey := 0, reqKey := 0, rspKey := 0, civ := [], seq := 0, iv := [], ivCnt := 0 }

/-- The header of an object of a kind that wraps `len` bytes for a tenant under a session (R444). -/
def object (kind tenant : Nat) (sid : BitVec 64) (len : Nat) : Bytes := wrapHeader kind sid [] len 0 0 tenant

/-- What readWrapped asks of the bytes at an address beside the key. -/
def wraps (s : State) (j : Job) (kind tenant : Nat) (sid : BitVec 64) (a n : Nat) : Bool :=
  let obj := rdBytes (seenMem s j (linesOf a n)) a n;
  let h := obj.take 64;
  !(n ≠ 0 && (linesOf a n).any (fun l => match segAt j (max l a) with | some g => g.owner ≠ tagPublic | none => false)) &&
  isOk (devRead s j a n) (fun _ => true) &&
  (80 ≤ obj.length && obj.length = 80 + fieldLe obj 32 8 && fieldLe h 0 4 = 0x57504D4C && fieldLe h 4 2 = 1 && fieldLe h 6 1 = kind &&
     zeroAt h 7 1 && fieldLe h 8 8 = sid.toNat && zeroAt h 28 4 && zeroAt h 40 8 && zeroAt h 48 2 && fieldLe h 50 2 = tenant && zeroAt h 52 12)

/-- What the cipher gives for the object at an address: the plaintext if its tag verifies. -/
def opened (s : State) (j : Job) (key : Digest) (a n : Nat) : Option Bytes :=
  let obj := rdBytes (seenMem s j (linesOf a n)) a n;
  Config.gcmOpen key (((obj.take 64).drop 16).take 12) (obj.take 64) (obj.drop 64)

/-- An object that is well formed and whose tag verifies is read as its plaintext. No value of the cipher is fixed by the model: the tests below say what they
ask of it. -/
theorem wraps_reads {s : State} {j : Job} {key : Digest} {kind tenant a n : Nat} {sid : BitVec 64} {p : Bytes} (h : wraps s j kind tenant sid a n = true)
    (ho : opened s j key a n = some p) : readWrapped s j (some (key, sid)) kind tenant a n = .ok (padTo p (fieldLe (rdBytes (seenMem s j (linesOf a n)) a n) 32 8)) := by
  unfold wraps at h
  simp only [Bool.and_eq_true, Bool.not_eq_true'] at h
  obtain ⟨⟨h1, h2⟩, h3⟩ := h
  unfold readWrapped
  split
  · rename_i hc
    exact absurd (hc.symm.trans h1) (by decide)
  unfold devRead at h2 ⊢
  cases hl : lineTags s j (linesOf a n) with
  | error e => rw [hl] at h2; simp [isOk] at h2
  | ok l =>
    rw [hl] at h2; dsimp only at h2 ⊢
    cases hj : joinAll l with
    | none => rw [hj] at h2; simp [isOk] at h2
    | some t =>
      dsimp only
      unfold unwrapObject
      dsimp only
      rw [if_pos (by simp only [Bool.and_eq_true]; exact h3)]
      unfold opened at ho
      dsimp only at ho
      rw [ho]
      rfl

/-- Objects of tenant 1: 80 bytes that wrap nothing at address 0, and 336 that wrap 256 bytes at 0x1000. -/
def objMem (kind tenant : Nat) (sid : BitVec 64) : Mem := wrBytes (wrBytes [] 0 (object kind tenant sid 0)) 0x1000 (object kind tenant sid 256)

theorem witness_object : let s := { withCmds job2 [] with mem := objMem 1 1 9, rgr := { sessions := [sess1] } };
    uploadKey s 0 1 = some (4, 9) ∧ wraps s job2 1 1 9 0 80 = true ∧ wraps s job2 1 1 9 0x1000 336 = true ∧
    fieldLe (rdBytes s.mem 0 80) 32 8 = 0 ∧ fieldLe (rdBytes s.mem 0x1000 336) 32 8 = 256 ∧
    readWrapped (withCmds job2 []) job2 none 1 1 0 0 = .error stIntegrity := by
  refine ⟨by decide +kernel, by decide +kernel, by decide +kernel, by decide +kernel, by decide +kernel, rfl⟩

/-- ADMIT whose prompt is such an object. -/
theorem witness_admit : let c := cmdOf 1 0x02 (ops [(1, 4), (9, 4), (1, 4), (0, 4), (0x1000, 8)]);
    let s := { withCmds job2 [c] with mem := objMem 3 1 9, rgr := { sessions := [sess1] } };
    ∀ p, opened s job2 4 0x1000 336 = some p → isReady s c 0x02 = true ∧ isBound job2 (opN c 0 2 % 4096) = true ∧
      readPrompt s job2 1 (opN c 16 8) = .ok (padTo p 256) := by
  intro c s p h
  have h1 : isOk (readPublic s job2 0x1000 64) (fun b => decide (80 + fieldLe b 32 8 = 336)) = true := by decide +kernel
  have h2 : wraps s job2 3 1 9 0x1000 336 = true := by decide +kernel
  have h3 : uploadKey s 0 1 = some (4, 9) := by decide +kernel
  have h4 : fieldLe (rdBytes (seenMem s job2 (linesOf 0x1000 336)) 0x1000 336) 32 8 = 256 := by decide +kernel
  have h5 : opN c 16 8 = 0x1000 := by decide +kernel
  refine ⟨by decide +kernel, by decide +kernel, ?_⟩
  rw [h5]; unfold readPrompt
  cases hr : readPublic s job2 0x1000 64 with
  | error e => rw [hr] at h1; simp [isOk] at h1
  | ok b =>
    rw [hr] at h1; simp only [isOk, decide_eq_true_eq] at h1
    dsimp only; rw [h1, h3, wraps_reads h2 h, h4]

/-- The job of the adapter tests: tenant 1 holds a second die's slice unencrypted, and some slots. -/
def jobA (v : Slot) : Job :=
  { job2 with segs := job2.segs ++ [(3, { base := 0x4050000000, len := 0x50000000, owner := 1, access := 1, valid := true })], slots := [(65535, v)] }
def slotV (st : SlotSt) (owner : BitVec 12) : Slot := { st := st, owner := owner, layer := 2, width := 1, home := 0x8000000000, size := 256 }

/-- UPDATE in MODE 1 onto a free slot, onto a slot being released, of an unbound tenant, from a source outside the tenant's segments. -/
theorem witness_install : let c := fun (src : Nat) => cmdOf 1 0x05 (ops [(1, 4), (65535, 4), (src, 8), (0x8000100000, 8)]);
    (∀ st ∈ [SlotSt.free, SlotSt.releasing, SlotSt.ready], let j := jobA (slotV st 1);
      let s := withCmds j [c 0x4050000000];
      isReady s (c 0x4050000000) 0x05 = true ∧ opN (c 0x4050000000) 0 1 = 1 ∧ switchPending s j 65535 = false ∧ (slotOf j 65535).st = st ∧ isBound j 1 = true) ∧
    isBound (jobA (slotV .ready 2)) 2 = false ∧
    (∀ n, coveredBy (jobA (slotV .ready 1)) (fun g => g.owner = tagTenant 1) 0x4000000000 (n + 1) = false) := by
  refine ⟨by decide +kernel, by decide +kernel, ?_⟩
  intro n
  have h : (linesOf 0x4000000000 (n + 1)).all (fun l => match segAt (jobA (slotV .ready 1)) (max l 0x4000000000) with | some g => decide (g.owner = tagTenant 1) | none => false) = false := by
    unfold linesOf
    rw [if_neg (by omega), List.all_eq_false]
    refine ⟨0x4000000000, ?_, by decide +kernel⟩
    rw [List.mem_map]
    exact ⟨0, by simp, by decide +kernel⟩
  unfold coveredBy
  rw [Bool.and_eq_false_iff]
  exact Or.inr h

/-- With a model width of 256: 52,736 bytes of a copy of width 1 from Canopy to a HOME in the window. -/
theorem witness_install_copies : let j := jobA (slotV .ready 1);
    let c := cmdOf 1 0x05 (ops [(1, 4), (65535, 4), (0x4050000000, 8), (0x8000100000, 8)]);
    let s := withCmds j [c];
    copySize 256 1 0 false = 52736 ∧ coveredBy j (fun g => g.owner = tagTenant 1) 0x4050000000 52736 = true ∧ homeOk j 1 0x8000100000 52736 = true ∧
    ((linesOf 0x4050000000 52736).filterMap (lineOwner s j)).all (fun x => (join x (tagTenant 1)).isSome) = true ∧ (slotOf j 65535).gen.toNat + 1 ≠ 2 ^ 32 ∧
    evalOpen s j 1 = false ∧ isOk (readFor s j 1 0x4050000000 52736) (fun _ => true) = true := by decide +kernel

def loadCmd (t n fl : Nat) : Cmd := cmdOf 0 0x47 (ops [(65535, 2), (t, 2), (2, 1), (1, 1), (fl, 2), (0x1000, 8), (n, 8), (0x8000100000, 8)])

/-- ADAPTER_LOAD of an unbound tenant, of an object that is not unwrapped, onto a slot of another tenant, and of an object of the wrong size. -/
theorem witness_adapter_load : let j := fun v => jobA v;
    (∀ t ∈ [1, 2], ∀ v ∈ [slotV .free 0, slotV .ready 1, slotV .ready 3], let s := withCmds (j v) [loadCmd t 336 0];
      isReady s (loadCmd t 336 0) 0x47 = true ∧ (opN (loadCmd t 336 0) 6 1).testBit 1 = false ∧ switchPending s (j v) 65535 = false ∧
      (isBound (j v) (opN (loadCmd t 336 0) 2 2 % 4096) = true ↔ t = 1) ∧ uploadKey s 0 t = none ∧ widthOk 1 = true ∧ claimFits (j v) 1 65535 2 = true) ∧
    (let s := { withCmds (j (slotV .ready 1)) [loadCmd 1 336 0] with mem := objMem 1 1 9, rgr := { sessions := [sess1] } };
      uploadKey s 0 1 = some (4, 9) ∧ wraps s (j (slotV .ready 1)) 1 1 9 0x1000 336 = true ∧ opN (loadCmd 1 336 0) 8 8 = 0x1000 ∧ opN (loadCmd 1 336 0) 16 8 = 336) := by
  decide +kernel

/-- An object that wraps 52,736 bytes, the size of a copy of width 1 at a model width of 256. -/
theorem witness_adapter_load_object : let j := jobA (slotV .ready 1);
    let s := { withCmds j [loadCmd 1 52816 0] with mem := wrBytes [] 0x1000 (object 1 1 9 52736), rgr := { sessions := [sess1] } };
    isReady s (loadCmd 1 52816 0) 0x47 = true ∧ wraps s j 1 1 9 0x1000 52816 = true ∧ homeOk j 1 (opN (loadCmd 1 52816 0) 24 8) 52736 = true := by decide +kernel

/-- The switch of a load that has claimed its slot, and of an install. -/
theorem witness_switch : let j := jobA (slotV .loading 1);
    (let d := { loadCmd 1 336 0 with ph := .running };
      isReady (withCmds j [d]) d 0x47 = true ∧ earlierAll (withCmds j [d]) 5 j = true ∧ (slotOf j 65535).res ≠ .fetching ∧ (slotOf j 65535).st ≠ .releasing) ∧
    (let d := { cmdOf 1 0x05 (ops [(1, 4), (65535, 4), (0, 8), (0, 8)]) with ph := .running };
      isReady (withCmds j [d]) d 0x05 = true ∧ opN d 0 1 = 1 ∧ earlierAll (withCmds j [d]) 5 j = true) := by decide +kernel

theorem witness_release : (∀ t ∈ [1, 2], ∀ v ∈ [slotV .free 0, slotV .ready 1, slotV .ready 3], let c := loadCmd t 336 2;
      let s := { withCmds (jobA v) [c] with mem := objMem 1 1 9, rgr := { sessions := [sess1] } };
      isReady s c 0x47 = true ∧ (opN c 6 1).testBit 1 = true ∧ (isBound (jobA v) (opN c 2 2 % 4096) = true ↔ t = 1) ∧
      uploadKey s 0 1 = some (4, 9) ∧ wraps s (jobA v) 1 1 9 0x1000 336 = true) ∧
    (∀ u ∈ [0, 1], let v := { slotV .releasing 1 with use := BitVec.ofNat 16 u, relAcc := 5 };
      let d := { loadCmd 1 336 2 with ph := .running };
      let s := withCmds (jobA v) [d];
      hubUp s = true ∧ (slotOf (jobA v) 65535).st = .releasing ∧ ((slotOf (jobA v) 65535).use = 0 ↔ u = 0) ∧ earlierDone s 5 7 = true ∧
      (∀ e ∈ s.cmds, e.acc = 5 → opcOf e = 0x47 ∧ e.ph = .running ∧ findCmd s 5 = some e)) ∧
    (let e := { cmdOf 1 0x01 [] with acc := 4 };
      earlierDone (withCmds (jobA { slotV .releasing 1 with relAcc := 5 }) [e]) 5 7 = false) := by decide +kernel

/-- ADAPTER_PREFETCH of one slot and of none, of a tenant that is not served, behind an earlier one, and beyond the pool. -/
theorem witness_prefetch : let c := fun (ix t fl : Nat) => cmdOf 1 0x07 (ops [(ix, 2), (t, 2), (fl, 4)]);
    let j := { jobA (slotV .ready 1) with doms := [(0, { valid := true, quads := 0xFF, cways := 0xFFFF, apool := 8 })] };
    (∀ ix ∈ [65535, 0], let s := withCmds j [c ix 1 0];
      isReady s (c ix 1 0) 0x07 = true ∧ tenantServes j (opN (c ix 1 0) 2 2 % 4096) 5 = true ∧ residencyTurn s j (c ix 1 0) = true ∧
      namedSlots j (c ix 1 0) = (if ix = 0 then [] else [65535]) ∧ prefetchFits j 1 (namedSlots j (c ix 1 0)) false = true) ∧
    isReady (withCmds j [c 65535 2 0]) (c 65535 2 0) 0x07 = true ∧ tenantServes j 2 5 = false ∧
    (let s := withCmds j [{ c 65535 1 0 with acc := 4 }, c 65535 1 0];
      isReady s (c 65535 1 0) 0x07 = true ∧ residencyTurn s j (c 65535 1 0) = false) ∧
    prefetchFits (jobA (slotV .ready 1)) 1 [65535] false = false ∧ residencyTurn (withCmds (jobA (slotV .ready 1)) [c 65535 1 0]) (jobA (slotV .ready 1)) (c 65535 1 0) = true := by
  decide +kernel

theorem witness_evict : let c := cmdOf 1 0x08 (ops [(65535, 2), (1, 2), (4, 4)]);
    (∀ r ∈ [Res.cached, Res.hot], let j := jobA { slotV .ready 1 with res := r };
      let s := withCmds j [c];
      isReady s c 0x08 = true ∧ namedSlots j c = [65535] ∧ c.ph = .accepted ∧ tenantServes j 1 5 = true ∧ residencyTurn s j c = true) ∧
    (let j := { jobA (slotV .ready 2) with tenants := [] };
      let c := cmdOf 1 0x08 (ops [(65535, 2), (2, 2), (0, 4)]);
      isReady (withCmds j [c]) c 0x08 = true ∧ namedSlots j c = [65535] ∧ tenantServes j 2 5 = false) := by decide +kernel

/-- A fill whose slot was replaced meanwhile, one whose HOME can not be read, for the first and the second time, and one that succeeds. -/
theorem witness_fetch_done : let v := { slotV .ready 1 with res := .fetching, want := .cached };
    let s := withCmds (jobA v) [];
    hubUp s = true ∧ (jobA v).st = 2 ∧ (slotOf (jobA v) 65535).res = .fetching ∧ (slotOf (jobA v) 65535).fillGen = (slotOf (jobA v) 65535).gen ∧
    readHome { s with seals := [(0x80000000, some (homeSeal (jobA v) 1 0))], poison := [0x80000000] } (jobA v) v = none ∧ ({ v with gen := 1 } : Slot).fillGen ≠ 1 ∧ ({ v with refetch := true } : Slot).refetch = true ∧
    (readHome { s with seals := [(0x80000000, some (homeSeal (jobA v) 1 0))] } (jobA v) v).isSome = true ∧ v.want ≠ .hot := by decide +kernel

/-! ### Checkpoints, tables and jobs -/

def ten1 : Tenant := { st := .bound, digest := 77, policy := [0, 1], ckpt := some 6 }
def jobC : Job := { job2 with tenants := [(1, ten1)] }

def wrote (r : WRes) : Bool :=
  match r with
  | .ok _ => true
  | _ => false

/-- A record of an empty tensor, and a list that names it once. -/
def memC : Mem := wrBytes (wrBytes [] 0x4000000000 (ops [(0x8000000000, 8), (0x8000000000, 8), (0x8000000000, 8), (0, 8), (0, 8), (0, 8), (0, 8), (0, 4), (16, 4)])) 0x4000000100 (natLe 0x4000000000 8)
def ckptCmd (opc : Byte) (t n len : Nat) : Cmd := cmdOf 1 opc (ops [(t, 2), (n, 2), (0, 4), (0x4000000100, 8), (0x2000, 8), (len, 8)])

/-- CHECKPOINT_OUT with no tensor and with too many, with one into a buffer that is one byte short and one that fits, without a key, and of an unbound tenant. -/
theorem witness_checkpoint_out :
    (∀ n ∈ [0, 1025], let c := ckptCmd 0x09 1 n 592;
      let s := { withCmds jobC [c] with mem := memC };
      isReady s c 0x09 = true ∧ tensorTurn s jobC c = true ∧ isBound jobC (opN c 0 2 % 4096) = true ∧ (opN c 2 2 = 0 ∨ 1024 < opN c 2 2)) ∧
    (∀ len ∈ [592, 591], let c := ckptCmd 0x09 1 1 len;
      let s := { withCmds jobC [c] with mem := memC };
      isReady s c 0x09 = true ∧ tensorTurn s jobC c = true ∧
      isOk (ckptCheck s jobC c 1 false) (fun rs => decide (80 + (placeAll rs).2 = 592) &&
        isOk (ckptPlain s jobC 1 (opB c 32 8 64) rs) (fun pt => decide (pt.length = 512))) = true ∧
      (linesOf 0x2000 592).all (fun l => match segAt jobC (max l 0x2000) with | some g => decide (g.owner = tagPublic) | none => true) = true ∧
      ten1.ckpt = some 6 ∧ policyCkpt ten1 = true) ∧
    ({ ten1 with ckpt := none } : Tenant).ckpt = none ∧ policyCkpt { ten1 with policy := [0, 0] } = false ∧
    (let c := ckptCmd 0x09 2 1 592;
      let s := { withCmds jobC [c] with mem := memC };
      isReady s c 0x09 = true ∧ tensorTurn s jobC c = true ∧ isBound jobC (opN c 0 2 % 4096) = false) ∧
    (let c := ckptCmd 0x09 1 1 592;
      let s := { withCmds jobC [{ updCmd0 0x4000000000 0 with acc := 4 }, c] with mem := wrBytes (memT 0) 0x4000000100 (natLe 0x4000000000 8) };
      isReady s c 0x09 = true ∧ tensorTurn s jobC c = false) := by decide +kernel

/-- What a write into one line checks does not depend on the bytes themselves. -/
theorem check_length (s : State) (j : Job) (ev : Bool) (t : Tag) : ∀ (f a : Nat) (b c : Bytes), b.length = c.length →
    checkPieces s j ev t (piecesAux f a b) = checkPieces s j ev t (piecesAux f a c)
  | 0, _, _, _, _ => rfl
  | f + 1, a, [], [], _ => rfl
  | f + 1, a, x :: b, y :: c, h => by
    unfold piecesAux checkPieces
    have e : ((x :: b).take (256 - a % 256)).length = ((y :: c).take (256 - a % 256)).length := by rw [List.length_take, List.length_take, h]
    dsimp only
    rw [e, check_length s j ev t f _ ((x :: b).drop (256 - a % 256)) ((y :: c).drop (256 - a % 256)) (by rw [List.length_drop, List.length_drop, h])]

/-- The image of 592 bytes reaches its buffer, whatever the cipher gives. -/
theorem witness_checkpoint_write (key : Digest) (iv pt : Bytes) (h : pt.length = 512) : let s := { withCmds jobC [ckptCmd 0x09 1 1 592] with mem := memC };
    wrote (devWrite s jobC false 0x2000 (wrapObject key (wrapHeader 4 0 iv pt.length 0 0 0) iv pt) tagPublic) = true := by
  intro s
  have hl : (wrapObject key (wrapHeader 4 0 iv pt.length 0 0 0) iv pt).length = (zeros 592).length := by
    have hz : ∀ n, (zeros n).length = n := fun n => List.length_replicate
    have hp : ∀ (b : Bytes) n, (padTo b n).length = n := fun b n => by unfold padTo; rw [List.length_take, List.length_append, hz]; omega
    unfold wrapObject wrapHeader
    simp only [List.length_append, hp, hz, natLe_length, bvLe_length, h]
  unfold devWrite pieces
  rw [hl, check_length s jobC false tagPublic _ _ _ (zeros 592) hl, show checkPieces s jobC false tagPublic (piecesAux (zeros 592).length 0x2000 (zeros 592)) = .ok true from by
    decide +kernel]
  rfl

/-- CHECKPOINT_IN of an object that is not unwrapped, and of one whose tag verifies. -/
theorem witness_checkpoint_in : let c := ckptCmd 0x0A 1 1 592;
    let s := { withCmds jobC [c] with mem := wrBytes memC 0x2000 (object 4 0 0 512) };
    isReady s c 0x0A = true ∧ tensorTurn s jobC c = true ∧ wraps s jobC 4 0 0 0x2000 592 = true ∧ fieldLe (rdBytes s.mem 0x2000 592) 32 8 = 512 ∧
    rangeManaged jobC 0x4000000100 8 = true ∧ (ckptRecs s c).all (fun a => rangeManaged jobC a 256) = true ∧ 0 < opN c 2 2 ∧ opN c 2 2 ≤ 1024 ∧
    ckptMatches jobC 1 1 [] (ckptNamed s jobC c) = false ∧
    isOk (ckptCheck s jobC c 1 true) (fun rs => isOk (ckptPlain s jobC 1 0 rs) (fun b => ckptMatches jobC 1 1 b (ckptNamed s jobC c) && decide (b.length = 512))) = true ∧
    isOk (readWrapped { s with mem := memC } jobC (some (6, 0)) 4 0 0x2000 592) (fun _ => true) = false := by decide +kernel

def segCmd (ix base owner len : Nat) (acc : BitVec 64) : Cmd :=
  { cmdOf 0 0x44 (ops [(ix, 8), (base + owner * 2 ^ 48 + 2 ^ 61 + 2 ^ 63, 8), (len, 8)]) with acc := acc }

/-- SEG_SET of the last entry and beyond it, of the last owner and beyond it, onto a free range and onto one that another segment holds, and after a command
that has not completed. -/
theorem witness_segments :
    (∀ x ∈ [(4095, 0x1002, 0x40A0000000), (4096, 0x1000, 0x40A0000000), (3, 0x1003, 0x40A0000000), (3, 1, 0x4000000000), (0, 0x1000, 0x4000000000)],
      let c := segCmd x.1 x.2.2 x.2.1 4096 5;
      let s := withCmds job2 [c];
      isReady s c 0x44 = true ∧ opN c 0 2 = x.1 ∧ (entryOf c).owner.toNat = x.2.1 ∧ (entryOf c).valid = true ∧ earlierDone s 5 7 = true ∧
      incomingOn s job2 (segOf job2 x.1).base.toNat (segOf job2 x.1).len.toNat = false ∧ incomingOn s job2 (entryOf c).base.toNat 4096 = false ∧
      (segOk s job2 x.1 (entryOf c) = true ↔ x = (3, 1, 0x40A0000000) ∨ x.1 = 0 ∨ x.1 = 4096 ∨ x.2.1 = 0x1003)) ∧
    (let c := segCmd 3 0x40A0000000 1 4096 5;
      let s := withCmds job2 [{ cmdOf 1 0x01 [] with acc := 4 }, c];
      isReady s c 0x44 = true ∧ earlierDone s 5 7 = false) := by decide +kernel

/-- A program image of 1,024 bytes with two sections of one instruction and no constants (R121). -/
def image0 : Bytes := padTo (ops [(0x4C4D4152, 4), (0x00010000, 4), (1024, 4), (0, 4), (16, 4), (17, 4), (17, 4), (18, 4), (512, 4)]) 1024
def progCmd (n : Nat) : Cmd := cmdOf 0 0x45 (ops [(0, 8), (0x2000, 8), (n, 8)])

theorem witness_program :
    (∀ n ∈ [0, 255, 257, 2 ^ 24 + 256], isReady (withCmds job2 [progCmd n]) (progCmd n) 0x45 = true ∧ opN (progCmd n) 16 8 = n ∧ (n < 256 ∨ 2 ^ 24 < n ∨ n % 256 ≠ 0)) ∧
    (let s := { withCmds job2 [progCmd 1024] with mem := wrBytes [] 0x2000 image0 };
      isReady s (progCmd 1024) 0x45 = true ∧ isOk (readPublic s job2 0x2000 1024) (fun b => imageOk b 1024) = true ∧ progUsed s job2 0 = false ∧
      isOk (readPublic { s with mem := [] } job2 0x2000 1024) (fun b => imageOk b 1024) = false ∧
      isOk (readPublic { s with poison := [0x22] } job2 0x2000 1024) (fun _ => true) = false ∧
      progUsed (withCmds job2 [{ cmdOf 1 0x01 [] with ph := .running, acc := 4 }, progCmd 1024]) job2 0 = true) := by decide +kernel

def baseCmd (k fl n nl : Nat) : Cmd := cmdOf 0 0x46 (ops [(k, 1), (fl, 7), (0x1000, 8), (n, 8), (0x8020000000, 8), (0x8030000000, 8), (nl, 8)])
def jobB : Job :=
  { job2 with segs := job2.segs ++ [(3, { base := 0x8020000000, len := 0x1000, owner := 0x1001, access := 2, valid := true, enc := true, vsrc := 3 }),
                                    (4, { base := 0x8030000000, len := 0x1000, owner := 0x1001, access := 2, valid := true, enc := true, vsrc := 3 })] }

/-- BASE_LOAD of a loaded tag, of an object that is not unwrapped, and of one that wraps an empty directory twice; BASE_RETIRE behind an earlier command and alone. -/
theorem witness_base :
    (let s := withCmds { jobB with baseA := { loaded := true } } [baseCmd 0 0 592 256];
      isReady s (baseCmd 0 0 592 256) 0x46 = true ∧ opN (baseCmd 0 0 592 256) 1 1 % 2 = 0 ∧ (baseOf { jobB with baseA := { loaded := true } } 0).loaded = true) ∧
    (let c := baseCmd 0 0 592 256;
      let s := { withCmds jobB [c] with mem := wrBytes [] 0x1000 (object 2 0 9 512), rgr := { sessions := [{ sess1 with role := 1 }] } };
      isReady s c 0x46 = true ∧ (baseOf jobB 0).loaded = false ∧ uploadKey (withCmds jobB [c]) 1 0 = none ∧ uploadKey s 1 0 = some (4, 9) ∧
      wraps s jobB 2 0 9 0x1000 592 = true ∧ fieldLe (rdBytes s.mem 0x1000 592) 32 8 = 512 ∧ opN c 40 8 = 256 ∧ baseDir (zeros 256) = some [] ∧
      baseDir ([255] ++ zeros 255) = none ∧ copyPlace jobB (tagBase 0) (opN c 24 8) 256 = true ∧ copyPlace jobB (tagBase 0) (opN c 32 8) 256 = true ∧
      copyPlace jobB (tagBase 1) (opN c 24 8) 256 = false ∧ (linesOf 0x8020000000 256 ++ linesOf 0x8030000000 256).all (fun l => !onFenced s l) = true) ∧
    (let c := baseCmd 1 1 0 0;
      isReady (withCmds jobB [c]) c 0x46 = true ∧ opN c 1 1 % 2 = 1 ∧ opN c 0 1 = 1 ∧ earlierDone (withCmds jobB [c]) 5 7 = true ∧
      isReady (withCmds jobB [{ cmdOf 1 0x01 [] with acc := 4 }, c]) c 0x46 = true ∧ earlierDone (withCmds jobB [{ cmdOf 1 0x01 [] with acc := 4 }, c]) 5 7 = false) := by
  decide +kernel

/-- SLOT_BIND of the last slot and beyond it, to a domain that is not valid, again and to another owner; SLOT_REVOKE and the end of a revocation. -/
theorem witness_tenants : let c := fun (t d dg : Nat) => cmdOf 0 0x48 (ops [(t, 2), (d, 1), (0, 5), (dg, 32)]);
    (∀ x ∈ [(4095, 0, 77), (4096, 0, 77), (2, 1, 77), (2, 8, 77), (1, 0, 77), (1, 0, 78)], let m := c x.1 x.2.1 x.2.2;
      isReady (withCmds job2 [m]) m 0x48 = true ∧ opN m 0 2 = x.1 ∧ opN m 2 1 = x.2.1 ∧ opB m 8 32 256 = BitVec.ofNat 256 x.2.2 ∧
      ((domOf job2 x.2.1).valid = true ↔ x.2.1 = 0) ∧ ((tenOf job2 x.1).st = .bound ↔ x.1 = 1)) ∧
    (∀ t ∈ [1, 2, 4096], let m := cmdOf 0 0x49 (ops [(t, 2)]);
      isReady (withCmds job2 [m]) m 0x49 = true ∧ opN m 0 2 = t ∧ (isBound job2 t = true ↔ t = 1)) ∧
    (let j := { job2 with tenants := [(4095, { st := .revoking })] };
      (tenOf j 4095).st = .revoking ∧ hubUp (withCmds j []) = true ∧ slotsOwned j 4095 = [] ∧ j.seqs = [] ∧ (withCmds j []).cmds = []) := by decide +kernel

/-- DOMAIN_SET of a domain beyond the last, of one that shares quads with a valid domain, and of one that does not. -/
theorem witness_domains : let c := fun (d q : Nat) => cmdOf 0 0x4B (ops [(d, 1), (1, 1), (q, 2), (0xF0, 2), (0xF0, 2), (4, 1), (8, 1)]);
    let j := { job2 with doms := [(0, { valid := true, quads := 0x0F, cways := 0x0F, tways := 0x0F })] };
    ∀ x ∈ [(7, 0x30), (8, 0x30), (7, 0x18)], let m := c x.1 x.2;
      isReady (withCmds j [m]) m 0x4B = true ∧ opN m 0 1 = x.1 ∧ (domainOk (withCmds j [m]) j x.1 (domainOf m) = true ↔ x = (7, 0x30)) := by decide +kernel

/-- A parameter block of job 7 (R302). -/
def block0 : Bytes := padTo (ops [(7, 4), (0, 3), (8, 1), (20, 1), (20, 1), (20, 1), (20, 1), (0, 4), (0, 4), (1, 2), (1, 2), (4, 4), (0, 4), (0x4000000000, 8),
  (0x4000010000, 8), (0x4000020000, 8)]) 256

theorem witness_job_open : let c := fun a => cmdOf 0 0x40 (ops [(a, 8)]);
    let s := fun a => { upState with cmds := [c a], host := wrBytes [] 0x100 block0 };
    isReady (s 0x100) (c 0x100) 0x40 = true ∧ opN (c 0x100) 0 8 % 256 = 0 ∧ openOk (s 0x100) (rdBytes (s 0x100).host 0x100 256) = true ∧
    isReady (s 0x101) (c 0x101) 0x40 = true ∧ isReady (s 0x200) (c 0x200) 0x40 = true ∧ openOk (s 0x200) (rdBytes (s 0x200).host 0x200 256) = false := by decide +kernel

theorem witness_job_close : let c := fun (id a : Nat) => cmdOf 0 0x41 (ops [(id, 4), (a, 1)]);
    let j7 := { job2 with st := 7 };
    (∀ a ∈ [0, 1], isReady (withCmds job2 [c 7 a]) (c 7 a) 0x41 = true ∧ opB (c 7 a) 0 4 32 = 7 ∧ opN (c 7 a) 4 1 = a ∧ job2.id = 7 ∧ job2.st ≠ 7 ∧
      isReady (withCmds job2 [c 8 a]) (c 8 a) 0x41 = true ∧ job2.id ≠ opB (c 8 a) 0 4 32) ∧
    isReady (withCmds j7 [c 7 0]) (c 7 0) 0x41 = true ∧ (withCmds j7 [c 7 0]).cmds.all (fun d => d.ring = 0 || d.job ≠ 7 || d.ph = .done) = true ∧
    (let s := withCmds j7 [{ cmdOf 1 0x01 [] with acc := 4 }, c 7 0];
      isReady s (c 7 0) 0x41 = true ∧ s.cmds.any (fun d => d.ring ≠ 0 && d.job = 7 && d.ph ≠ .done) = true) := by decide +kernel

theorem witness_job_preempt : let c := cmdOf 0 0x42 (ops [(7, 4)]);
    let jp := { job2 with preempt := true };
    let r := { c with ph := .running };
    (isReady (withCmds jp [c]) c 0x42 = true ∧ c.ph = .accepted ∧ jp.id = opB c 0 4 32 ∧ jp.st = 2 ∧ (withCmds jp [c]).saved.length < 4) ∧
    (isReady (withCmds job2 [c]) c 0x42 = true ∧ job2.preempt = false) ∧ isReady { upState with cmds := [c] } c 0x42 = true ∧
    (∀ st ∈ [3, 4], let s := withCmds { jp with st := BitVec.ofNat 3 st } [r];
      runningCtl s 0x42 = some r ∧ hubUp s = true ∧ gladesAtRest s = true ∧ s.fab.xfers = []) ∧
    gladesAtRest { withCmds { jp with st := 3 } [r] with glades := [(0, { cmd := 9 })] } = false ∧
    runningCtl { withCmds { jp with st := 3 } [r] with glades := [(0, { cmd := 9 })] } 0x42 = some r ∧
    (let x : Xfer := { id := 0, acc := 3, glade := none, desc := [], seed := 0, st := .sent };
      let s := { withCmds { jp with st := 3 } [r] with fab := { xfers := [x] } };
      gladesAtRest s = true ∧ s.fab.xfers.filter (fun x => x.st = .sent || x.st = .queried || x.st = .preempted) = [x] ∧ runningCtl s 0x42 = some r) := by decide +kernel

theorem witness_job_resume : let c := cmdOf 0 0x43 (ops [(7, 4)]);
    let v := fun (l a : Bool) => ({ job := { job2 with st := 5 }, glades := [], mem := [], tags := [], poison := [], xfers := [], inArea := a, lost := l } : Saved);
    (isReady (withCmds job2 [c]) c 0x43 = true) ∧ imageHurt upState (v false false) = false ∧ imageHurt upState { v false false with spoiled := true } = true ∧
    (∀ a ∈ [false, true], ∀ l ∈ [false, true], let s := { upState with cmds := [c], saved := [v l a] };
      isReady s c 0x43 = true ∧ c.ph = .accepted ∧ s.job = none ∧ s.saved.find? (fun v => v.job.id = opB c 0 4 32) = some (v l a) ∧
      (∀ d < 4, s.rst.held.getLsbD (16 + d) = false)) ∧
    (let r := { c with ph := .running };
      let s := withCmds { job2 with st := 6 } [r];
      runningCtl s 0x43 = some r ∧ hubUp s = true ∧ (s.job.map (·.st)) = some 6) := by decide +kernel

/-! ### The fabric -/

/-- A device of address 5 in the fabric, its port 0 up, paired with device 9, which is bound to the same job. -/
def pair0 : Pair := { addr := 9, up := true, exchange := false, bind := some ⟨7, 2, 0, 0, 1⟩ }
def fabState (j : Job) (f : Fab) : State :=
  { withCmds j [] with hub := { fabAddr := 5, fabSet := true }, ports := [(0, { st := 3 })], fab := { f with pairs := [pair0] } }

def hdr (vc kind : BitVec 2) (cidx : BitVec 19) : CellHdr := { hdr0 with vc := vc, kind := kind, cidx := cidx }

/-- The pair and the state that an accepted cell leaves. -/
def takenPair (s : State) (k : Fin 32) (h : CellHdr) (q : Pair) : Pair :=
  { q with rx := tset 0 q.rx (rxKey h.ep k.val h.vc.toNat) h.pctr, lastUse := s.hub.time, newPorts := if (q.epoch % 2 = 1) = h.ep then q.newPorts ||| ((1 : BitVec 32) <<< k.val) else q.newPorts }
def taken (s : State) (k : Fin 32) (h : CellHdr) (q : Pair) : State := updPair (cellIn s k h) h.src (fun _ => takenPair s k h q)

/-- Whether the receiving end accepts a cell of a pair. -/
def takes (s : State) (k : Fin 32) (h : CellHdr) (q : Pair) : Bool :=
  hubUp s && decide ((portOf s k.val).st = 3) && decide (h.lseq = (portOf s k.val).rxNext) && decide (¬ (h.dst = 0 ∧ h.vc = 0)) && decide (h.dst = s.hub.fabAddr) && s.hub.fabSet &&
  decide (pairOf s h.src = some q) && q.up && h.auth && (cellEpoch q h.ep).isSome && decide ((tget 0 q.rx (rxKey h.ep k.val h.vc.toNat)).toNat < h.pctr.toNat)

theorem takes_cell {s : State} {k : Fin 32} {h : CellHdr} {z : Bool} {q : Pair} (ht : takes s k h q = true) : CellTaken s k h z (taken s k h q) (takenPair s k h q) := by
  unfold takes at ht
  simp only [Bool.and_eq_true, decide_eq_true_eq] at ht
  obtain ⟨⟨⟨⟨⟨⟨⟨⟨⟨⟨h1, h2⟩, h3⟩, h4⟩, h5⟩, h6⟩, h7⟩, h8⟩, h9⟩, h10⟩, h11⟩ := ht
  exact ⟨h1, h2, h3, fun hz => h4 ⟨hz.1, hz.2.1⟩, h5, h6, q, h7, h8, h9, h10, h11, rfl, rfl⟩

/-- A cell on a port that is down, out of order, for nobody, for another device, of no pair, and of a pair: not up, not authentic, of a dropped key, with the
last PCTR. -/
theorem witness_cells : let i := fun h => Instr.positionAnswer 0 h 0;
    let s := fabState job2 {};
    (∀ c ∈ [i hdr0, .dataCellReceive 0 hdr0 []], cellHead c = some (0, hdr0) ∧ cellRoom s c = true) ∧ cellHead (.responseCellReceive 0 hdr0 0 0 []) = some (0, hdr0) ∧
    (portOf { s with ports := [] } 0).st ≠ 3 ∧ hubUp s = true ∧ (portOf s 0).st = 3 ∧ ({ hdr0 with lseq := 1 } : CellHdr).lseq ≠ (portOf s 0).rxNext ∧
    hdr0.lseq = (portOf s 0).rxNext ∧ ({ hdr0 with dst := 0, vc := 0 } : CellHdr).dst = 0 ∧ cellZero (.dataCellReceive 0 hdr0 [0, 0]) = true ∧ ¬ (hdr0.dst = 0 ∧ hdr0.vc = 0) ∧ ({ hdr0 with dst := 6 } : CellHdr).dst ≠ s.hub.fabAddr ∧
    hdr0.dst = s.hub.fabAddr ∧ s.hub.fabSet = true ∧ pairOf s 8 = none ∧ pairOf s hdr0.src = some pair0 ∧ ({ pair0 with up := false } : Pair).up = false ∧
    cellEpoch pair0 true = none ∧ ({ hdr0 with pctr := 0 } : CellHdr).pctr.toNat ≤ (tget 0 pair0.rx (rxKey false 0 2)).toNat := by decide +kernel

def head0 : Head :=
  { jobId := 7, kind := 0, flags := 0, fmt := 0, raddr := 0x4000001000, len := 256, rcnt := 0, rstep := 0, stepWord := 0, owner := 0x1000, oldTag := 0, oldValid := false,
    start := 1, seed := 0, digest := 0 }
def rec0 (d : Head) : InRec := { src := 9, tag := 3, head := d, last := 0 }
def jobFrozen : Job := { job2 with segs := [(0, { base := 0x4000000000, len := 0x50000000, owner := 0x1000, access := 2, valid := true })] }

/-- Heads: of an open record, of a job that is stopped, of another job, onto a read-write and onto a frozen range. -/
theorem witness_heads : let h := hdr 2 0 0;
    (∀ j ∈ [job2, jobFrozen, { job2 with st := 3 }], takes (fabState j {}) 0 h pair0 = true ∧ recOf (taken (fabState j {}) 0 h pair0) 9 3 = none) ∧
    h.vc = 2 ∧ h.kind = 0 ∧ head0.kind ≠ 1 ∧ head0.start = 1 ∧ head0.oldValid = false ∧
    headCheck (taken (fabState job2 {}) 0 h pair0) head0 false = .ok ∧ headCheck (taken (fabState jobFrozen {}) 0 h pair0) head0 false = .dropped ∧
    headCheck (taken (fabState { job2 with st := 3 } {}) 0 h pair0) head0 false = .preempted ∧
    headCheck (taken (fabState job2 {}) 0 h pair0) { head0 with jobId := 8 } false = .refuse stEgress ∧
    (let s := fabState job2 { recs := [rec0 head0] };
      takes s 0 h pair0 = true ∧ recOf (taken s 0 h pair0) 9 3 = some (rec0 head0)) := by decide +kernel

/-- Read requests: refused, of a base tag that the peer does not hold, and answered. -/
theorem witness_read_requests : let h := hdr 0 0 0;
    let d := { head0 with kind := 1 };
    let s := fabState job2 {};
    takes s 0 h pair0 = true ∧ d.start = 1 ∧ headCheck (taken s 0 h pair0) { d with len := 0 } false = .refuse stProgram ∧
    headCheck (taken s 0 h pair0) d false = .ok ∧ isOk (devRead (taken s 0 h pair0) job2 0x4000001000 256) (fun x => baseAllowed (taken s 0 h pair0) (takenPair s 0 h pair0) x.2) = true ∧
    (let q := { s with tags := [(0x40000010, 0x1001)] };
      takes q 0 h pair0 = true ∧ headCheck (taken q 0 h pair0) d false = .ok ∧
      isOk (devRead (taken q 0 h pair0) job2 0x4000001000 256) (fun x => !baseAllowed (taken q 0 h pair0) (takenPair q 0 h pair0) x.2) = true) := by decide +kernel

/-- Data cells of a write of three cells: below the last, after a gap, in order, and the last one; and a reduce cell onto another tenant's line. -/
theorem witness_data_cells : let d := { head0 with len := 1024 };
    let r := { rec0 d with last := 1 };
    let s := fabState job2 { recs := [r] };
    (∀ i ∈ [1, 2, 3, 4], takes s 0 (hdr 2 1 (BitVec.ofNat 19 i)) pair0 = true) ∧ s.fab.dead = [] ∧ recOf s 9 3 = some r ∧ r.st = .opened ∧ r.frozen = false ∧
    cellWaits s (hdr 2 1 2) = false ∧ jobStopped s 7 = false ∧ r.lost = false ∧ cellCount 1024 = 3 ∧
    (∀ i ∈ [2, 3], let h := hdr 2 1 (BitVec.ofNat 19 i);
      let v := takeCredit (taken s 0 h pair0) 0 3;
      (applyCell v (jobOf v) d 9 ((i - 1) * 480) ((zeros 480).take (1024 - (i - 1) * 480))).err = 0) ∧
    (let d := { head0 with kind := 2, fmt := 7, owner := 1, digest := 77 };
      let s := { fabState job2 { recs := [rec0 d] } with tags := [(0x40000010, 2)] };
      let h := hdr 2 1 1;
      takes s 0 h pair0 = true ∧ recOf s 9 3 = some (rec0 d) ∧
      (applyCell (takeCredit (taken s 0 h pair0) 0 3) job2 d 9 0 ((zeros 480).take 256)).err ≠ 0) := by decide +kernel

/-- A transfer of the host to device 9: kind, local address, peer address, length. -/
def xfer0 (kind len : Nat) (st : XferSt) : Xfer :=
  { id := 4, acc := 5, glade := none, tag := 3, st := st, seed := 0,
    desc := padTo (ops [(kind, 1), (0, 3), (9, 2), (0, 2), (0x4000001000, 8), (0x4000002000, 8), (len, 8)]) 64 }

/-- The answers to a transfer that was sent: completions, refusals, positions, and read data of three cells. -/
theorem witness_sender_cells : (∀ k ∈ [0, 1, 2], ∀ vk ∈ [0, 1, 2, 3], let s := fabState job2 { xfers := [xfer0 k 1024 .sent] };
      let h := hdr 1 (BitVec.ofNat 2 vk) 1;
      takes s 0 h pair0 = true ∧ ourXfer (taken s 0 h pair0) h = some (xfer0 k 1024 .sent) ∧ h.vc = 1 ∧ (xKind (xfer0 k 1024 .sent) ≠ 1 ↔ k ≠ 1) ∧
      jobRunsNow (taken s 0 h pair0) = true ∧ hearsAnswers (taken s 0 h pair0) = true ∧ jobSt (taken s 0 h pair0) = 2) ∧
    jobRunsNow (taken (fabState { job2 with st := 3 } { xfers := [xfer0 0 1024 .sent] }) 0 (hdr 1 0 1) pair0) = false ∧
    (∀ last ∈ [0, 2], let x := { xfer0 1 1024 .sent with rxLast := BitVec.ofNat 19 last };
      let s := fabState job2 { xfers := [x] };
      let h := hdr 1 2 (BitVec.ofNat 19 (last + 1));
      let u := taken s 0 h pair0;
      let b := (zeros 480).take (1024 - last * 480);
      takes s 0 h pair0 = true ∧ ourXfer u h = some x ∧ h.kind = 2 ∧ h.cidx.toNat = x.rxLast.toNat + 1 ∧ isTenant (0x1000 : Tag) = false ∧
      (pieces (xLaddr x + last * 480) b).all (fun q => isOk (writeCheck u (jobOf u) (xPlace u x).eval (256 * lineOf q.1) 256 0x1000) (fun _ => true)) = true ∧
      (applyCell u (jobOf u) { headOf u x 0x1000 with raddr := fieldBv x.desc 8 8 64, kind := 0 } u.hub.fabAddr (last * 480) b).err = 0) ∧
    isTenant (1 : Tag) = true ∧ isBound job2 1 = true ∧ (tenOf job2 1).digest ≠ 78 ∧
    (∀ r ∈ [[], [rec0 head0]], takes (fabState job2 { recs := r }) 0 (hdr 3 0 0) pair0 = true ∧
      recOf (taken (fabState job2 { recs := r }) 0 (hdr 3 0 0) pair0) 9 3 = r.head?) := by decide +kernel

/-- The transfer engine: a host XFER, and a waiting transfer that fails a check, whose target is frozen, that stays local, whose peer is not paired, may not be
paired, is down, is up; then its timers. -/
theorem witness_transfers : let c := cmdOf 1 0x06 [];
    isReady (withCmds job2 [c]) c 0x06 = true ∧ c.ph = .accepted ∧
    (let s := fabState job2 { xfers := [xfer0 0 256 .waiting] };
      hubUp s = true ∧ s.fab.xfers.find? (fun x => x.id = 4) = some (xfer0 0 256 .waiting) ∧ jobSt s = 2 ∧ isOk (xferCheck s (xfer0 0 256 .waiting)) (fun o => o.2) = true ∧
      isOk (xferCheck s (xfer0 0 255 .waiting)) (fun _ => true) = false ∧ xDst (xfer0 0 256 .waiting) ≠ s.hub.fabAddr ∧
      xDst (xfer0 0 256 .waiting) = ({ s.hub with fabAddr := 9 } : Hub).fabAddr ∧ pairOf s 9 = some pair0 ∧ pair0.up = true ∧ pair0.bind ≠ none ∧
      pairOf { s with fab := {} } 9 = none ∧ ({ pair0 with bind := none } : Pair).bind = none) ∧
    isOk (xferCheck (fabState jobFrozen {}) (xfer0 1 256 .waiting)) (fun o => !o.2) = true ∧
    (∀ st ∈ [XferSt.sent, .queried, .preempted, .resend], let s := fabState job2 { xfers := [xfer0 0 256 st] };
      s.fab.xfers.find? (fun x => x.id = 4) = some (xfer0 0 256 st) ∧ jobRunsNow s = true ∧ cellsWait s (xfer0 0 256 st) = false) ∧
    (let s := fabState job2 { recs := [rec0 head0] };
      recOf s 9 3 = some (rec0 head0) ∧ pairOf s 9 = some pair0 ∧ (rec0 head0).st = .opened) := by decide +kernel

theorem witness_pairs : let s := fabState job2 {};
    let t := fun l => { s with fab := { pairs := l } };
    hubUp s = true ∧ pairOf s 8 = none ∧ mayPair s 8 = true ∧ s.boot.devReady = true ∧ rangerReady s = true ∧ s.fab.pairs.length < 1024 ∧
    rangerReady { s with rgr := { updating := true } } = false ∧ hubUp { s with rgr := { updating := true } } = true ∧
    (pairOf (t [{ addr := 9 }]) 9).isSome = true ∧ ({ addr := 9 } : Pair).exchange = true ∧ ({ addr := 9 } : Pair).up = false ∧
    (∀ c ∈ [({ chainOk := true, sigOk := true, svn := 0 } : PeerCheck), { chainOk := false, sigOk := true, svn := 0 }, { chainOk := true, sigOk := false, svn := 127 }], (c.chainOk && c.sigOk && decide (s.rgr.runSvn.toNat ≤ c.svn.toNat)) = (c.chainOk && c.sigOk)) ∧
    (let p := { pair0 with exchange := true };
      pairOf (t [p]) 9 = some p ∧ p.up = true) ∧ takes s 0 (hdr 3 3 0) pair0 = true ∧ (hdr 3 3 0).lseq = (portOf s 0).rxNext ∧
    pairOf (t [{ pair0 with up := false }]) 9 = some { pair0 with up := false } ∧
    (let p := { pair0 with tx := [(0, 0x80000000)], oldKey := true };
      pairOf (t [p]) 9 = some p ∧ p.up = true ∧ p.exchange = false ∧ p.tx.any (fun x => decide (2 ^ 31 ≤ x.2.toNat)) = true ∧ p.oldKey = true) := by decide +kernel

/-- A full table whose pairs all have a transfer at work. -/
theorem witness_pairs_full : let s := { fabState job2 { recs := [rec0 head0] } with fab := { pairs := List.replicate 1024 pair0, recs := [rec0 head0] } };
    rangerReady s = true ∧ mayPair s 8 = true ∧ 1024 ≤ s.fab.pairs.length ∧ lruPair s = none ∧ pairOf s 8 = none := by decide +kernel

theorem witness_link : let s := { fabState job2 {} with credits := [(27, 512)] };
    let c : Machine.Cell := { vc := 0, dst := 9, tag := 0, cidx := 0, pctr := 0, ep := false, body := .mask 0 };
    let p := { portOf s 0 with unacked := [(0, c)] };
    hubUp s = true ∧ (portOf s 0).st = 3 ∧ (portOf s 0).linkSlot = 0 ∧ p.unacked = (0, c) :: [] ∧
    (∀ n ∈ [0, 1], ((BitVec.ofNat 16 n : BitVec 16) - 0).toNat ≤ p.unacked.length) ∧
    (∀ st ∈ [0, 1, 2, 4], let q : Port := { st := BitVec.ofNat 3 st, lock := 0xFF };
      q.enable = true ∧ horizonUp s (31 / 8) = true ∧ q.st ≠ 5 ∧ q.st ≠ 6 ∧ q.lock = 0xFF) ∧
    creditsUsed s 3 6 ≠ 0 ∧ creditsUsed s 0 0 = 0 := by decide +kernel

/-- One line written and read in the staging window; held back, out of credits, on a fenced channel and poisoned. -/
theorem witness_host_path : let s := upState;
    hubUp s = true ∧ s.boot.devReady = true ∧ s.hub.hostHold = false ∧ creditsFree s 0 2 ≠ 0 ∧ pieces 0x100 [1, 2] = [(0x100, [1, 2])] ∧ backed s 0x100 = true ∧
    onFenced s 0x100 = false ∧ sealOf s 1 = none ∧ ({ s.hub with hostHold := true } : Hub).hostHold = true ∧ creditsFree { s with credits := [(2, 1024)] } 0 2 = 0 ∧
    onFenced { s with fences := { chan := 0xF } } 0x100 = true ∧ linesOf 0x100 256 = [0x100] ∧ (1 : Nat) ∈ ({ s with poison := [1] } : State).poison ∧
    s.pins.pwrGood = true ∧ s.pins.perst = false ∧ s.pins.inputOk = true ∧ s.boot.stage ≠ 0 := by decide +kernel

/-! ### Ranger and SPDM -/

/-- Ranger works on a message: code, session, SEQ and body. -/
def msg (code : Nat) (sid : BitVec 64) (seq : Nat) (body : Bytes) : State :=
  { withCmds job2 [] with host := wrBytes [] 0 (natLe code 2 ++ zeros 2 ++ natLe body.length 4 ++ bvLe sid 8 ++ natLe seq 8 ++ body), rgr := { busy := true, sessions := [sess1] } }

def waits (s : State) (code : Nat) : Bool := hubUp s && s.boot.devReady && s.rgr.busy && mbCode s = code && mbWellFormed s

theorem waits_message {s : State} {code : Nat} (h : waits s code = true) : MessageWaits s code := by
  unfold waits at h
  simp only [Bool.and_eq_true, decide_eq_true_eq] at h
  exact ⟨h.1.1.1.1, h.1.1.1.2, h.1.1.2, h.1.2, h.2⟩

theorem witness_messages : (∀ n ∈ [63, 64], waits (msg 1 0 0 (zeros n)) 1 = true ∧ mbSession (msg 1 0 0 (zeros n)) = 0 ∧ mbLen (msg 1 0 0 (zeros n)) = n) ∧
    rgrStateNow { msg 1 0 0 (zeros 64) with rst := { held := 1 } } ≠ 0 ∧ waits { msg 1 0 0 (zeros 64) with rst := { held := 1 } } 1 = true ∧
    (∀ c ∈ [0x07, 0x09, 0x11, 0x12, 0x13], waits (msg c 0 0 []) c = true ∧ mbLen (msg c 0 0 []) = 0) ∧ waits (msg 8 0 0 (zeros 8)) 8 = true ∧
    (∀ off ∈ [0, 2 ^ 25 - 1], let s := msg 0x10 0 0 (natLe off 8 ++ [7]);
      waits s 0x10 = true ∧ (mbBody s).length = 9 ∧ fieldLe (mbBody s) 0 8 + ((mbBody s).drop 8).length ≤ 2 ^ 25) ∧
    (let s := { msg 0x11 0 0 [] with rgr := { busy := true, updating := true } };
      waits s 0x11 = true ∧ s.rgr.updating = true ∧ (msg 0x11 0 0 []).rgr.updating = false) ∧
    (∀ f ∈ [0, 1], let s := { msg 0x13 0 0 [] with rgr := { busy := true, runSvn := 1 }, flash := { fusedSvn := BitVec.ofNat 7 f } };
      waits s 0x13 = true ∧ (s.rgr.runSvn.toNat ≤ s.flash.fusedSvn.toNat ↔ f = 1)) ∧
    2 ^ 20 ≤ ({ drbg := 2 ^ 20 } : Ranger).drbg ∧ ({ ephs := [⟨[], [], 0, 0⟩] } : Ranger).ephs ≠ [] := by decide +kernel

theorem witness_activate : ({} : Flash).fusedSvn.toNat ≤ (bankSvn (bankOf (msg 0x11 0 0 []) true)).toNat ∧ (1 : Fin 6).val ≠ 0 := ⟨Nat.zero_le _, by decide⟩

/-- A message of session 9 with the next SEQ, whose tag verifies: of every code, with the body that the cipher gives. -/
theorem witness_session_message (code n : Nat) (p : Bytes) (hc : (code, n) ∈ [(1, 64), (3, 0), (4, 580), (5, 32), (6, 0)]) : let s := msg code 9 1 (zeros (n + 16));
    Config.gcmOpen sess1.reqKey (mbIv sess1 (mbSeq s)) (mbHeader s) (mbBody s) = some p →
    let y := { sess1 with seq := mbSeq s };
    MessageWaits s code ∧ y.role = 0 ∧
    SessionMessage s { s with rgr := { s.rgr with sessions := s.rgr.sessions.map (fun z => if z.sid = sess1.sid then y else z) } } y (padTo p (mbLen s - 16)) := by
  intro s ho y
  have h : waits s code = true ∧ s.rgr.sessions.find? (fun x => x.sid = mbSession s) = some sess1 ∧ mbSession s ≠ 0 ∧ sess1.seq.toNat < (mbSeq s).toNat := by
    simp only [List.mem_cons, Prod.mk.injEq, List.not_mem_nil, or_false] at hc
    rcases hc with ⟨h1, h2⟩ | ⟨h1, h2⟩ | ⟨h1, h2⟩ | ⟨h1, h2⟩ | ⟨h1, h2⟩ <;> subst h1 <;> subst h2 <;> decide +kernel
  exact ⟨waits_message h.1, rfl, sess1, p, h.2.1, h.2.2.1, h.2.2.2, ho, rfl, rfl, rfl⟩

theorem witness_session_bodies : (∀ p, padTo p 0 = []) ∧ (padTo [] 64).length = 64 ∧ (padTo [] 32).length = 32 ∧ policyOk (padTo [0, 1] 580) = true ∧
    policyOk (padTo [2, 1] 580) = false ∧ 24 + (adapterList job2 1).length + 16 ≤ 16384 := by
  refine ⟨fun p => rfl, by decide +kernel, by decide +kernel, by decide +kernel, by decide +kernel, by decide +kernel⟩

/-- The body of a SESSION_OPEN of tenant 1 (role 0), or of the base owner of BASE_A (role 1), against a report whose nonce is all zeros. -/
def openBody (role ten : Nat) : Bytes := natLe role 1 ++ zeros 1 ++ natLe ten 2 ++ zeros 224
def eph0 : Eph := { nonce := zeros 32, report := [], time := 0, num := 0 }

/-- With a signature that verifies, for each role; the tenant's slot is bound to the key's digest. -/
theorem witness_session_open (r : Nat) (hr : r ∈ [0, 1, 2])
    (hv : Config.ecdsaVerify (((openBody r 1).drop 100).take 64) (Config.sha256 (eph0.report ++ (openBody r 1).take 164)) ((openBody r 1).drop 164) = true) :
    let kd := Config.sha256 (((openBody r 1).drop 100).take 64);
    let j := { job2 with tenants := [(1, { st := .bound, digest := kd })] };
    let s := { msg 2 0 0 (openBody r 1) with rgr := { busy := true, ephs := [eph0] }, job := some j };
    MessageWaits s 0x02 ∧ OpenChecks s (mbBody s) eph0 r 1 kd ∧ heldSids s = [] := by
  intro kd j s
  have hb : mbBody s = openBody r 1 :=
    (by decide +kernel : ∀ r ∈ [0, 1, 2], mbBody { msg 2 0 0 (openBody r 1) with rgr := { busy := true, ephs := [eph0] } } = openBody r 1) r hr
  have hw : waits s 0x02 = true :=
    (by decide +kernel : ∀ r ∈ [0, 1, 2], waits { msg 2 0 0 (openBody r 1) with rgr := { busy := true, ephs := [eph0] } } 0x02 = true) r hr
  have hk := (by decide +kernel : ∀ r ∈ [0, 1, 2], (openBody r 1).length = 228 ∧ fieldLe (openBody r 1) 0 1 = r ∧ fieldLe (openBody r 1) 2 2 = 1 ∧ r ≤ 2 ∧
    zeroAt (openBody r 1) 1 1 = true ∧ ((openBody r 1).drop 4).take 32 = zeros 32) r hr
  refine ⟨waits_message hw, ⟨rfl, ?_⟩, rfl⟩
  rw [hb]
  exact ⟨hk.1, hk.2.1.symm, hk.2.2.1.symm, rfl, hk.2.2.2.1, hk.2.2.2.2.1, fun _ => by decide, rfl, by rw [hk.2.2.2.2.2]; rfl, hv, fun _ => ⟨rfl, rfl, rfl⟩, fun _ => Or.inl (by show (baseOf j (r - 1)).owner = none; unfold baseOf; split <;> rfl)⟩

/-- A responder that is ready, one that is not yet, and one whose path is stopped, over PCIe and over MCTP. -/
theorem witness_spdm : (∀ m, SpdmReady upState m) ∧ (∀ m : Bool, if m then upState.boot.stage ≠ 0 else barAnswers upState = true) ∧
    (let s := { upState with boot := { stage := 8, cfgReady := true } };
      barAnswers s = true ∧ s.boot.devReady = false) ∧ State.reset.pins.pwrGood = false ∧ rgrStateNow upState = 0 ∧ rgrStateNow { upState with rst := { held := 1 } } ≠ 0 ∧
    { sid := 5 } ∈ ({ sessions := [{ sid := 5 }] } : Spdm).sessions ∧ spdmOpen upState 5 = false ∧
    spdmOpen { upState with spdm := { sessions := [{ sid := 5, est := true }] } } 5 = true ∧
    (∀ t ∈ [TdiSt.unlocked, .locked, .run, .error], ({ tdi := t } : Spdm).tdi = t) := by
  unfold SpdmReady; decide +kernel

/-! ### Registers, power, errors and leases -/

theorem witness_registers : barAnswers upState = true ∧ barAnswers State.reset = false ∧ regAt 0x00000 = some .hubId ∧ regAt 0x00018 = some .capA ∧ regAt 0x1FFF8 = none ∧
    ((0 : BitVec 64) &&& rsvMask .cxlWin = 0) ∧ ((512 : BitVec 64).extractLsb' 0 10).toNat ≤ 512 ∧ upState.job = none ∧ upState.saved = [] ∧
    (0xFFFE : BitVec 64).toNat < 2 ^ 16 ∧ (256 : BitVec 64).toNat = 256 ∧ (255 : BitVec 64).toNat < 256 ∧ (49 : BitVec 64).toNat < 50 ∧
    (∀ n ∈ [6, 15], ((BitVec.ofNat 64 (2 * n + 1) : BitVec 64) &&& rsvMask .ringCfg = 0) ∧ 6 ≤ ((BitVec.ofNat 64 (2 * n + 1) : BitVec 64).extractLsb' 1 4).toNat ∧
      (BitVec.ofNat 64 (2 * n + 1) : BitVec 64).getLsbD 0 = true ∧ (BitVec.ofNat 64 (2 * n) : BitVec 64).getLsbD 0 = false) ∧
    (∀ p ∈ [0, 31, 40, 48], (modeOk p 1 = true ↔ p ≤ 31)) := by decide +kernel

theorem witness_control : ((23 * 256 : BitVec 64).extractLsb' 8 5).toNat < 24 ∧ ((24 * 256 : BitVec 64).extractLsb' 8 5).toNat = 24 ∧
    (∀ v ∈ [1, 2, 4], (BitVec.ofNat 64 (23 * 256 + v) : BitVec 64) &&& rsvMask .rstCtl = 0) ∧ ((1 : BitVec 64) &&& rsvMask .restartCtl = 0) ∧
    upState.boot.devReady = true ∧ upState.rst.rsBusy = false ∧ upState.rings = [] ∧ ({ held := 1 <<< 23 } : Resets).held.getLsbD 23 = true ∧
    ({ held := 1 } : Resets).held.getLsbD 0 = true ∧ (portOf upState 0).st ≠ 5 ∧ (pdOf upState 40).mode ≠ 1 ∧
    (pdOf { upState with pds := [(40, { mode := 2 })] } 40).mode ≠ 0 := by decide +kernel

theorem witness_power : let s := fun p => { upState with pds := p };
    hubUp upState = true ∧ pdIdle upState 0 = true ∧ pdIdle upState 31 = true ∧ (pdOf upState 0).mode = 1 ∧ (pdOf upState 0).st = 0 ∧ (pdOf upState 32).mode ≠ 2 ∧
    (pdOf (s [(0, { mode := 2 })]) 0).mode = 2 ∧ pdIdle (s [(0, { mode := 2 })]) 0 = true ∧ (pdOf (s [(1, { mode := 2, st := 1 })]) 1).st = 1 ∧
    (pdOf (s [(49, { st := 4 })]) 49).st = 4 ∧ ({ condTemp := 1 } : Wv).condTemp ≠ 0 ∧ ({ condPower := 1 } : Wv).condPower ≠ 0 ∧ upState.wv.condTemp = 0 ∧
    upState.wv.condPower = 0 ∧ upState.wv.coolSince = none ∧ ({ coolSince := some 3 } : Wv).coolSince = some 3 ∧ isPhotonic 40 = false ∧ isGroveCompute 40 = false := by
  decide +kernel

def key0 : ErrKey := ⟨6, 31, 0⟩
def open0 : EOpen := { key := key0, cls := .corrected, time := 3, witness := 0, acc := 0 }
def erec0 : ERec := { seq := 0, time := 0, kind := 1, cls := .corrected, outcome := 3, key := key0, witness := 0, late := 0, acc := 0, link := 0 }

/-- A first report, a further one, the close of a record with room in the queue and without, a record for the ring with room and without, and the end of a test. -/
theorem witness_errors : hubUp upState = true ∧ key0.unit.val ≠ 2 ∧ key0.unit.val ≠ 4 ∧ key0.unit.val ≠ 5 ∧ upState.errs.opened = [] ∧ upState.errs.tests = [] ∧
    keyFenced upState key0 = false ∧ [open0].find? (fun o => o.key = key0) = some open0 ∧ open0.key = key0 ∧
    (∀ n ∈ [255, 256], (List.replicate n erec0).length = n) ∧
    (∀ t ∈ [63, 64], let e : Errs := { enable := true, tail := BitVec.ofNat 32 t, heldRec := [erec0] };
      e.heldRec = erec0 :: [] ∧ e.enable = true ∧ e.vector = 0 ∧ ((e.tail - e.head).toNat < 2 ^ e.size.toNat ↔ t = 63)) ∧
    (∀ n ∈ [0, 1, 2], let t : ETest := { key := key0, cls := .corrected, time := 0, acc := 0 };
      let s := { upState with errs := { tests := [t], passes := List.replicate n (key0, 0) } };
      testFor s key0 = some t ∧ t.key = key0 ∧ s.errs.opened = [] ∧ recentPasses s key0 = n) := by decide +kernel

theorem witness_leases : let x := fun v => ({ upState with halves := [(1, v)], epoch := 5 } : State);
    hubUp (x {}) = true ∧ (x {}).boot.devReady = true ∧ (halfOf (x {}) 1).lease = none ∧ (halfOf (x { lease := some 3 }) 1).lease = some 3 ∧ (4 : BitVec 64).toNat < (x {}).epoch.toNat ∧
    (halfOf (x {}) 1).stale = 0 ∧ (halfOf (x { stale := 1 }) 1).stale = 1 ∧ (halfOf (x { stale := 1 }) 1).withheld = false ∧
    (halfOf (x { withheld := true, stopped := true }) 1).withheld = true ∧ (halfOf (x { withheld := true, stopped := true }) 1).stopped = true := by decide +kernel

/-! ### Values of the manual's examples -/

/-- The state after a command, or after reset where it has none. -/
def after (c : Instr) (s : State) : State :=
  match exec c s with
  | .next t => t
  | _ => State.reset

/-- Chapter "Number formats", "Example: writing one M8 block". -/
theorem test_m8_block : let e := encodeRow 2 1 (fun _ => .nearest) ([0x40500000, 0x3F9C0000, 0xC0200000, 0x3C400000, 0x3B800000] ++ List.replicate 27 0);
    e.scales = [0x7A] ∧ e.codes.take 5 = [0x7A, 0x64, 0xF4, 0x02, 0x00] ∧ e.codes.drop 5 = List.replicate 27 0 ∧ e.vanish = 1 := by decide +kernel

/-- "Example: one stochastic G8 element": 24,576 and 18.0 under the scale 127, with the two random fields of the example. -/
theorem test_g8_stochastic : [0x9A3C, 0x1F00].map (fun r => encodeRow 3 0 (fun _ => .stoch r) [0x43600000, 0x40C80000]) =
    [⟨[127], [0x7A, 0x51], 0, 0⟩, ⟨[127], [0x7A, 0x50], 0, 0⟩] := by decide +kernel

/-- "Example: updates smaller than one ulp", steps 1, 4 and 5: the W32 codes of 1 − 2^−13, 1 − 4 × 2^−13 and 1 − 5 × 2^−13. -/
theorem test_remainder : [0x3FBFFC00, 0x3FBFF000, 0x3FBFEC00].map splitWeight = [(0x3E00, 0xF0, 0), (0x3E00, 0xC0, 0), (0x3DFF, 0x60, 0)] := by decide +kernel

/-- "Example: two frames behind a long step", steps 2, 4 and 7. -/
theorem test_monitor : estimate 16 160000 6000 = 184000 ∧ learn 122000 118000 3000 = (118500, 3250) ∧ estimate 16 118500 3250 = 131500 ∧
    learn 121000 118500 3250 = (118812, 3063) := by decide +kernel

/-- "Example: the first wrap of a ring". -/
theorem test_ring_phase : (∀ i ∈ [60, 63], phase 64 i = true) ∧ ∀ i ∈ [64, 69], phase 64 i = false := by decide +kernel

/-- "Example: a grove die wears out of its top point": the margin, its end and the peak with the die's LIMIT at 1. -/
theorem test_wear : let s := after (.wvMeasure [{ pd := 10, need0 := 868, need1 := 800, need2 := 760, need3 := 730, vmax := 900, decline := 5, hours := 20000 }]) upState;
    (pdOf s 10).margin = 15 ∧ (pdOf s 10).volt = 885 ∧ endOf 20000 5 155 = 12916 ∧
    (readReg upState .wvPeak).toNat % 2 ^ 32 = 14260 ∧ (readReg { upState with pds := [(10, { mode := 1, limit := 1 })] } .wvPeak).toNat % 2 ^ 32 = 14124 := by decide +kernel

/-- "Example: bringing up ring 7 through its window", steps 1, 9 and 11. -/
theorem test_ring_window : let r : Ring := { sq := 0x10200000, cq := 0x10200200 >>> 4, jnl := 1, db := 1 };
    let s := { upState with sels := { ring := 7 }, rings := [(7, r)] };
    readReg s .hubId = 0x010000B040964C59 ∧ ringOf (after (.registerWrite 0x10000 8 0x0714) s) 7 = { r with size := 10, vector := 7 } ∧
    (ringOf (after (.registerWrite 0x10000 8 0x0715) { s with rings := [(7, { r with size := 10, vector := 7 })] }) 7).st = .enabled := by decide +kernel

def seqX (acc : BitVec 64) (st : SeqSt) (pos plen pages : Nat) : Sequence :=
  { acc := acc, tenant := 1, st := st, prompt := [], plen := plen, maxNew := 10000, pos := pos, pages := pages, out := 0, outLen := 0, spill := 0x8000000000, user := 0 }
def jobS (l : List Sequence) : Job :=
  { job2 with seqs := l, stepRows := 512, chunk := 256, pageKib := 16384, doms := [(0, { quads := 1, cways := 1, tways := 1, valid := true, kvpool := 1 })] }

/-- What a boundary leaves of the sequences: number, state, pages and rows in the step. -/
def seqsAfter (l : List Sequence) : List (Nat × SeqSt × Nat × Nat) :=
  match (after .stepBoundary (withCmds (jobS l) [])).job with
  | some j => j.seqs.map (fun q => (q.acc.toNat, q.st, q.pages, q.inStep))
  | none => []

/-- Chapter "Serving", "Example: the step where pages run out", boundary 1: 64 pages, B ended, A and C in need of a page, E returns (with no
page counted as spilled, so that its range need not be written out here), F joins, G is deferred. -/
theorem test_boundary_join : seqsAfter [seqX 10 .running 5120 9 20, { seqX 12 .running 3000 9 15 with ended := some 0 }, seqX 14 .spilled 2300 9 0, seqX 15 .running 3072 9 12,
    seqX 17 .running 2500 9 10, seqX 20 .queued 0 2800 0, seqX 21 .queued 0 600 0] =
    [(10, .running, 21, 1), (14, .running, 9, 1), (15, .running, 13, 1), (17, .running, 10, 1), (20, .running, 11, 256), (21, .queued, 0, 0)] := by decide +kernel

end Sys2Proof.Tests
end

section
/-! The statements about the block as a whole: one step, the reset state, and what a register write does. -/

namespace Sys2Proof.Proofs

open Sys2Proof.Machine Sys2Proof.Safety Sys2Proof.Laws

/-! ### One step -/

theorem step_of_nil {s : State} (h : s.pending = []) : step s = .next (idle s) := by
  unfold step; rw [h]

theorem step_of_cons {s : State} {c : Instr} {r : List Instr} (h : s.pending = c :: r) :
    step s = exec c { s with pending := r } := by
  unfold step; rw [h]

/-- Every command keeps the memories canonical and the queue as it finds it, whatever its operands: one arm per command, as in `exec`. -/
theorem exec_canon {q : List Instr} (c : Instr) (s : State) (h : Canon q s) : CanonOut q (exec c s) :=
  match c with
  | .nop _ => execNop_canon _ s h
  | .halt _ => execHalt_canon _ s h
  | .haltDone _ _ => execHaltDone_canon _ _ s h
  | .br _ => execBr_canon _ s h
  | .loop _ => execLoop_canon _ s h
  | .call _ => execCall_canon _ s h
  | .ret _ => execRet_canon _ s h
  | .meet _ => execMeet_canon _ s h
  | .meetRelease _ _ => execMeetRelease_canon _ _ s h
  | .meetTimeout _ _ => execMeetTimeout_canon _ _ s h
  | .signal _ => execSignal_canon _ s h
  | .tokenEnter _ _ _ => execTokenEnter_canon _ _ _ s h
  | .wait _ => execWait_canon _ s h
  | .tokenReceive _ _ => execTokenReceive_canon _ _ s h
  | .deadlock _ => execDeadlock_canon _ s h
  | .mov _ => execMov_canon _ s h
  | .alu _ => execAlu_canon _ s h
  | .cmp _ => execCmp_canon _ s h
  | .tdset _ => execTdset_canon _ s h
  | .tdadd _ => execTdadd_canon _ s h
  | .tdcpy _ => execTdcpy_canon _ s h
  | .lds _ => execLds_canon _ s h
  | .sts _ => execSts_canon _ s h
  | .ldT _ => execLdT_canon _ s h
  | .stT _ => execStT_canon _ s h
  | .ldG _ => execLdG_canon _ s h
  | .pf _ => execPf_canon _ s h
  | .xfer _ => execXfer_canon _ s h
  | .wld _ => execWld_canon _ s h
  | .mm _ => execMm_canon _ s h
  | .mmG _ => execMmG_canon _ s h
  | .cvt _ => execCvt_canon _ s h
  | .vop _ => execVop_canon _ s h
  | .sel _ => execSel_canon _ s h
  | .sfu _ => execSfu_canon _ s h
  | .statRd _ => execStatRd_canon _ s h
  | .route _ => execRoute_canon _ s h
  | .routeF _ => execRouteF_canon _ s h
  | .red _ => execRed_canon _ s h
  | .gladeStop _ => execGladeStop_canon _ s h
  | .doorbellWrite _ _ _ _ => execDoorbellWrite_canon _ _ _ _ s h
  | .descriptorAccept _ => execDescriptorAccept_canon _ s h
  | .completionRelease _ => execCompletionRelease_canon _ s h
  | .run _ => execRun_canon _ s h
  | .admitSeq _ => execAdmit_canon _ s h
  | .retire _ => execRetire_canon _ s h
  | .frame _ => execFrame_canon _ s h
  | .update _ => execUpdate_canon _ s h
  | .install _ => execInstall_canon _ s h
  | .hostXfer _ => execHostXfer_canon _ s h
  | .adapterPrefetch _ => execAdapterPrefetch_canon _ s h
  | .adapterEvict _ => execAdapterEvict_canon _ s h
  | .checkpointOut _ => execCheckpointOut_canon _ s h
  | .checkpointIn _ => execCheckpointIn_canon _ s h
  | .fence _ => execFence_canon _ s h
  | .mark _ => execMark_canon _ s h
  | .jobOpen _ => execJobOpen_canon _ s h
  | .jobClose _ => execJobClose_canon _ s h
  | .jobCloseAbort _ => execJobCloseAbort_canon _ s h
  | .jobPreempt _ => execJobPreempt_canon _ s h
  | .preemptDrainEnd => execPreemptDrainEnd_canon s h
  | .preemptSaveDone => execPreemptSaveDone_canon s h
  | .jobResume _ => execJobResume_canon _ s h
  | .segSet _ => execSegSet_canon _ s h
  | .progLoad _ => execProgLoad_canon _ s h
  | .baseLoad _ => execBaseLoad_canon _ s h
  | .baseRetire _ => execBaseRetire_canon _ s h
  | .adapterLoad _ => execAdapterLoad_canon _ s h
  | .adapterSwitch _ => execAdapterSwitch_canon _ s h
  | .adapterRelease _ => execAdapterRelease_canon _ s h
  | .slotReleaseDone _ => execSlotReleaseDone_canon _ s h
  | .slotBind _ => execSlotBind_canon _ s h
  | .slotRevoke _ => execSlotRevoke_canon _ s h
  | .tenantSlotFree _ => execTenantSlotFree_canon _ s h
  | .streamSet _ => execStreamSet_canon _ s h
  | .domainSet _ => execDomainSet_canon _ s h
  | .stepBoundary => execStepBoundary_canon s h
  | .stepStart => execStepStart_canon s h
  | .parkLimitExpiry _ => execParkLimitExpiry_canon _ s h
  | .adapterFetchDone _ => execAdapterFetchDone_canon _ s h
  | .frameRelease _ => execFrameRelease_canon _ s h
  | .frameDispatch _ => execFrameDispatch_canon _ s h
  | .frameProgramEnd _ => execFrameProgramEnd_canon _ s h
  | .transferStart _ => execTransferStart_canon _ s h
  | .pairBringUp _ => execPairBringUp_canon _ s h
  | .pairUp _ _ => execPairUp_canon _ _ s h
  | .pairRekey _ => execPairRekey_canon _ s h
  | .oldKeyDiscard _ => execOldKeyDiscard_canon _ s h
  | .jobBinding _ _ => execJobBinding_canon _ _ s h
  | .portMask _ _ => execPortMask_canon _ _ s h
  | .headCellReceive _ _ _ => execHeadCellReceive_canon _ _ _ s h
  | .readRequestReceive _ _ _ => execReadRequestReceive_canon _ _ _ s h
  | .dataCellReceive _ _ _ => execDataCellReceive_canon _ _ _ s h
  | .responseCellReceive _ _ _ _ _ => execResponseCellReceive_canon _ _ _ _ _ s h
  | .completionResponse _ _ _ _ => execCompletionResponse_canon _ _ _ _ s h
  | .refusalReceive _ _ _ _ => execRefusalReceive_canon _ _ _ _ s h
  | .targetPreemptedAnswer _ _ _ => execTargetPreemptedAnswer_canon _ _ _ s h
  | .preemptedRetryTimer _ => execPreemptedRetryTimer_canon _ s h
  | .positionQuery _ _ _ => execPositionQuery_canon _ _ _ s h
  | .positionAnswer _ _ _ => execPositionAnswer_canon _ _ _ s h
  | .completionTimeout _ => execCompletionTimeout_canon _ s h
  | .positionQueryTimeout _ => execPositionQueryTimeout_canon _ s h
  | .transferRecordTimeout _ _ => execTransferRecordTimeout_canon _ _ s h
  | .linkCellSend _ => execLinkCellSend_canon _ s h
  | .linkCellReceive _ _ => execLinkCellReceive_canon _ _ s h
  | .slotLost _ => execSlotLost_canon _ s h
  | .replayTimeout _ => execReplayTimeout_canon _ s h
  | .wavelengthLockLost _ _ => execWavelengthLockLost_canon _ _ s h
  | .wavelengthRelock _ => execWavelengthRelock_canon _ s h
  | .portDown _ => execPortDown_canon _ s h
  | .portUp _ => execPortUp_canon _ s h
  | .creditReturn _ _ => execCreditReturn_canon _ _ s h
  | .stagingWrite _ _ => execStagingWrite_canon _ _ s h
  | .stagingRead _ _ => execStagingRead_canon _ _ s h
  | .configRequest => execConfigRequest_canon s h
  | .fruRead _ _ => execFruRead_canon _ _ s h
  | .mctpTelemetry => execMctpTelemetry_canon s h
  | .report => execReport_canon s h
  | .sessionOpen => execSessionOpen_canon s h
  | .sessionClose => execSessionClose_canon s h
  | .setPolicy => execSetPolicy_canon s h
  | .setCkptKey => execSetCkptKey_canon s h
  | .adapterList => execAdapterList_canon s h
  | .progTable => execProgTable_canon s h
  | .jobConfig => execJobConfig_canon s h
  | .certChain => execCertChain_canon s h
  | .fwStage => execFwStage_canon s h
  | .fwActivate _ => execFwActivate_canon _ s h
  | .fwAbandon => execFwAbandon_canon s h
  | .fwCommitSvn => execFwCommitSvn_canon s h
  | .getVersion _ => execGetVersion_canon _ s h
  | .getCapabilities _ => execGetCapabilities_canon _ s h
  | .getDigests _ => execGetDigests_canon _ s h
  | .getCertificate _ _ _ _ => execGetCertificate_canon _ _ _ _ s h
  | .challenge _ _ _ => execChallenge_canon _ _ _ s h
  | .getMeasurements _ _ _ => execGetMeasurements_canon _ _ _ s h
  | .keyExchange _ _ _ => execKeyExchange_canon _ _ _ s h
  | .finish _ _ _ => execFinish_canon _ _ _ s h
  | .heartbeat _ _ => execHeartbeat_canon _ _ s h
  | .keyUpdate _ _ => execKeyUpdate_canon _ _ s h
  | .endSession _ _ => execEndSession_canon _ _ s h
  | .ideKm _ _ _ => execIdeKm_canon _ _ _ s h
  | .spdmUnsupportedRequest _ _ => execSpdmUnsupportedRequest_canon _ _ s h
  | .getTdispVersion _ => execGetTdispVersion_canon _ s h
  | .getTdispCapabilities _ => execGetTdispCapabilities_canon _ s h
  | .lockInterfaceRequest _ => execLockInterfaceRequest_canon _ s h
  | .getDeviceInterfaceReport _ => execGetDeviceInterfaceReport_canon _ s h
  | .getDeviceInterfaceState _ => execGetDeviceInterfaceState_canon _ s h
  | .startInterfaceRequest _ _ => execStartInterfaceRequest_canon _ _ s h
  | .stopInterfaceRequest _ => execStopInterfaceRequest_canon _ s h
  | .registerWrite _ _ _ => execRegisterWrite_canon _ _ _ s h
  | .ringEnable _ => execRingEnable_canon _ s h
  | .ringDisable _ => execRingDisable_canon _ s h
  | .ringReset _ => execRingReset_canon _ s h
  | .jobReset _ => execJobReset_canon _ s h
  | .shutdown _ => execShutdown_canon _ s h
  | .dieReset _ => execDieReset_canon _ s h
  | .dieResetDone _ _ => execDieResetDone_canon _ _ s h
  | .restartScan _ => execRestartScan_canon _ s h
  | .portEnable _ => execPortEnable_canon _ s h
  | .portDisable _ => execPortDisable_canon _ s h
  | .pdModeOn _ => execPdModeOn_canon _ s h
  | .pdModeAuto _ => execPdModeAuto_canon _ s h
  | .pdModeOff _ => execPdModeOff_canon _ s h
  | .pdPowerOff _ => execPdPowerOff_canon _ s h
  | .pdClockStop _ => execPdClockStop_canon _ s h
  | .pdWakeReady _ => execPdWakeReady_canon _ s h
  | .wvCap _ => execWvCap_canon _ s h
  | .clockPointChange _ => execClockPointChange_canon _ s h
  | .wvMeasure _ => execWvMeasure_canon _ s h
  | .wvPlanSave => execWvPlanSave_canon s h
  | .thermalSample _ => execThermalSample_canon _ s h
  | .throttleLower => execThrottleLower_canon s h
  | .throttleRaise => execThrottleRaise_canon s h
  | .alternateIssueInterval _ => execAlternateIssueInterval_canon _ s h
  | .thermalTrip => execThermalTrip_canon s h
  | .errorReport _ _ _ _ => execErrorReport_canon _ _ _ _ s h
  | .errRecordClose _ => execErrRecordClose_canon _ s h
  | .errRecordWrite => execErrRecordWrite_canon s h
  | .selfTestDone _ _ => execSelfTestDone_canon _ _ s h
  | .leaseGrant => execLeaseGrant_canon s h
  | .leaseLapse _ => execLeaseLapse_canon _ s h
  | .leaseAck _ _ => execLeaseAck_canon _ _ s h
  | .halfResync _ => execHalfResync_canon _ s h
  | .hubFault => execHubFault_canon s h
  | .drbgReseed => execDrbgReseed_canon s h
  | .ephemeralKeyExpiry => execEphemeralKeyExpiry_canon s h
  | .modPwrEnAssert => execModPwrEnAssert_canon s h
  | .modPwrEnDeassert => execModPwrEnDeassert_canon s h
  | .perstAssert => execPerstAssert_canon s h
  | .perstDeassert _ => execPerstDeassert_canon _ s h
  | .inputFault => execInputFault_canon s h
  | .warmReset _ _ => execWarmReset_canon _ _ s h
  | .restoreDone => execRestoreDone_canon s h

/-- The next state of a step is canonical, with the queue's rest as its queue. -/
theorem step_canon (s : State) (h : MemWf s) : CanonOut s.pending.tail (step s) := by
  obtain ⟨hmem, hhost⟩ := h
  cases hp : s.pending with
  | nil =>
    rw [step_of_nil hp]
    exact CanonOut_next (idle_canon s ⟨hmem, hhost, hp⟩)
  | cons c r =>
    rw [step_of_cons hp]
    exact exec_canon c { s with pending := r } ⟨hmem, hhost, rfl⟩

/-- Settles O4: each command keeps both memories canonical and the queue as it stands, and `step` has taken its own command from that queue. -/
theorem stepKeepsMemory : Obligations.StepKeepsMemory := by
  intro s t hs ht
  obtain ⟨hmem, hhost, hpending⟩ := step_canon s hs t ht
  exact ⟨⟨hmem, hhost⟩, hpending⟩

/-- Settles O1, by the two cases of the queue. -/
theorem stepRunsFrontCommand : Obligations.StepRunsFrontCommand :=
  ⟨fun _ _ _ => step_of_cons, fun _ => step_of_nil⟩

/-! ### The reset state -/

theorem ringOf_reset (n : Nat) : ringOf State.reset n = {} := rfl

theorem pdOf_reset_mode (n : Nat) : (pdOf State.reset n).mode = if n < 32 then 1 else 0 := by
  show (pdInit n).mode = _
  unfold pdInit
  split <;> rfl

theorem rdBytes_nil (a n : Nat) : rdBytes [] a n = List.replicate n 0 := by
  show (List.range n).map (fun _ => (0 : Byte)) = _
  rw [List.map_const', List.length_range]

/-- Settles O2: the listed registers are finitely many closed values, and a table without entries reads its default everywhere. -/
theorem resetState : Obligations.ResetState := by
  refine ⟨by decide, fun n => ?_, pdOf_reset_mode, rfl, rfl, rfl, rfl, rfl, rdBytes_nil⟩
  rw [ringOf_reset]
  exact ⟨rfl, rfl, rfl, rfl, rfl⟩

/-! ### The bits that a row sets or clears -/

theorem withBits_on (v : BitVec 64) : withBit (withBit v 0 false) 1 false = v &&& ~~~3 := by
  show v &&& ~~~1 &&& ~~~2 = _
  rw [BitVec.and_assoc]; rfl

theorem high_bit_of_lt_four {k : BitVec 64} (hk : k.toNat < 2 ^ 2) {i : Nat} (hi : i + 2 < 64) : k[i + 2] = false := by
  rw [BitVec.getElem_eq_testBit_toNat]
  exact Nat.testBit_lt_two_pow (lt_of_lt_of_le hk (Nat.pow_le_pow_right (by decide) (by omega)))

/-- The bits that MODE sets or clears are 0 and 1, so two words are compared there and, in one goal, above. -/
theorem eq_of_low_two {x y : BitVec 64} (h0 : x[0] = y[0]) (h1 : x[1] = y[1])
    (hrest : ∀ (i : Nat) (hi : i + 2 < 64), x[i + 2] = y[i + 2]) : x = y := by
  ext i hi
  rcases i with _ | _ | i
  · exact h0
  · exact h1
  · exact hrest i hi

theorem withBits_auto (v : BitVec 64) : withBit (withBit v 0 true) 1 false = v &&& ~~~3 ||| 1 := by
  show (v ||| 1) &&& ~~~2 = v &&& ~~~3 ||| 1
  refine eq_of_low_two (by simp) (by simp) fun i hi => ?_
  simp only [BitVec.getElem_and, BitVec.getElem_or, BitVec.getElem_not,
    high_bit_of_lt_four (k := 1) (by decide), high_bit_of_lt_four (k := 2) (by decide), high_bit_of_lt_four (k := 3) (by decide)]
  simp

theorem withBits_off (v : BitVec 64) : withBit (withBit v 0 false) 1 true = v &&& ~~~3 ||| 2 := by
  show v &&& ~~~1 ||| 2 = v &&& ~~~3 ||| 2
  refine eq_of_low_two (by simp) (by simp) fun i hi => ?_
  simp only [BitVec.getElem_and, BitVec.getElem_or, BitVec.getElem_not,
    high_bit_of_lt_four (k := 1) (by decide), high_bit_of_lt_four (k := 2) (by decide), high_bit_of_lt_four (k := 3) (by decide)]

theorem low_two_eq {x : BitVec 64} {m : BitVec 2} (h0 : x.getLsbD 0 = m[0]) (h1 : x.getLsbD 1 = m[1]) : x.extractLsb' 0 2 = m := by
  ext i hi
  rw [BitVec.getElem_extractLsb', Nat.zero_add]
  rcases i with _ | _ | i
  · exact h0
  · exact h1
  · omega

theorem enable_set (v : BitVec 64) : (v ||| 1).getLsbD 0 = true := by simp
theorem enable_cleared (v : BitVec 64) : (v &&& ~~~1).getLsbD 0 = false := by simp
theorem done_bit_kept (v : BitVec 64) : (v ||| 1).getLsbD 1 = v.getLsbD 1 := by simp

theorem mode_on (v : BitVec 64) : (v &&& ~~~3).extractLsb' 0 2 = 0 := low_two_eq (by simp) (by simp)
theorem mode_auto (v : BitVec 64) : (v &&& ~~~3 ||| 1).extractLsb' 0 2 = 1 := low_two_eq (by simp) (by simp)
theorem mode_off (v : BitVec 64) : (v &&& ~~~3 ||| 2).extractLsb' 0 2 = 2 := low_two_eq (by simp) (by simp)

/-! ### Where a register write lands (R14, R537 to R540) -/

section Writes

variable {s : State}

theorem hubUp_of_barAnswers (hb : barAnswers s = true) : hubUp s = true := by
  unfold barAnswers at hb
  exact (Bool.and_eq_true_iff.mp hb).2

theorem registerWrite_unanswered (hb : barAnswers s = false) (o : BitVec 26) (n : Nat) (v : BitVec 64) :
    exec (.registerWrite o n v) s = .next s := by
  show execRegisterWrite o n v s = _
  unfold execRegisterWrite
  simp [hb]

theorem registerWrite_misplaced {o : BitVec 26} {n : Nat} (ho : ¬ (0x20000 ≤ o.toNat ∧ o.toNat < 0x21000))
    (hn : n ≠ 8 ∨ o.toNat % 8 ≠ 0) (v : BitVec 64) : exec (.registerWrite o n v) s = .next s := by
  have hskip : (decide (n = 8) && decide (o.toNat % 8 = 0)) = false := by
    rcases hn with h | h <;> simp [h]
  show execRegisterWrite o n v s = _
  unfold execRegisterWrite
  simp only [hskip]
  split
  · rfl
  · rw [if_neg (by simpa using ho)]; rfl

theorem registerWrite_reserved {o : BitVec 26} (ho : ¬ (0x20000 ≤ o.toNat ∧ o.toNat < 0x21000)) (h8 : o.toNat % 8 = 0)
    (hr : regAt o.toNat = none) (v : BitVec 64) : exec (.registerWrite o 8 v) s = .next s := by
  rw [← regRow o v ho h8]
  unfold writeReg
  rw [hr, ite_self]

theorem registerWrite_msix (hb : barAnswers s = true) {o : BitVec 26} (hlo : 0x20000 ≤ o.toNat) (hhi : o.toNat < 0x21000)
    (n : Nat) (v : BitVec 64) : exec (.registerWrite o n v) s =
      .next (if (n = 4 ∨ n = 8) ∧ o.toNat % n = 0 then writeMsix s (o.toNat - 0x20000) n v else s) := by
  show execRegisterWrite o n v s = _
  unfold execRegisterWrite
  simp [hb, hlo, hhi]

/-! ### The rows that name a register write are that write -/

theorem exec_ringEnable (v : BitVec 64) : exec (.ringEnable v) s = exec (.registerWrite 0x10000 8 (v ||| 1)) s :=
  regRow 0x10000 (v ||| 1) (by decide) rfl
theorem exec_ringDisable (v : BitVec 64) : exec (.ringDisable v) s = exec (.registerWrite 0x10000 8 (v &&& ~~~1)) s :=
  regRow 0x10000 (v &&& ~~~1) (by decide) rfl
theorem exec_ringReset (v : BitVec 64) : exec (.ringReset v) s = exec (.registerWrite 0x10038 8 (v ||| 1)) s :=
  regRow 0x10038 (v ||| 1) (by decide) rfl
theorem exec_jobReset (v : BitVec 64) : exec (.jobReset v) s = exec (.registerWrite 0x01038 8 (v ||| 1)) s :=
  regRow 0x01038 (v ||| 1) (by decide) rfl
theorem exec_shutdown (v : BitVec 64) : exec (.shutdown v) s = exec (.registerWrite 0x01038 8 (v ||| 2)) s :=
  regRow 0x01038 (v ||| 2) (by decide) rfl
theorem exec_dieReset_host (v : BitVec 64) : exec (.dieReset (.host v)) s = exec (.registerWrite 0x01038 8 (v ||| 4)) s :=
  regRow 0x01038 (v ||| 4) (by decide) rfl
theorem exec_restartScan (v : BitVec 64) : exec (.restartScan v) s = exec (.registerWrite 0x01050 8 (v ||| 1)) s :=
  regRow 0x01050 (v ||| 1) (by decide) rfl
theorem exec_portEnable (v : BitVec 64) : exec (.portEnable v) s = exec (.registerWrite 0x13000 8 (v ||| 1)) s :=
  regRow 0x13000 (v ||| 1) (by decide) rfl
theorem exec_portDisable (v : BitVec 64) : exec (.portDisable v) s = exec (.registerWrite 0x13000 8 (v &&& ~~~1)) s :=
  regRow 0x13000 (v &&& ~~~1) (by decide) rfl
theorem exec_pdModeOn (v : BitVec 64) : exec (.pdModeOn v) s = exec (.registerWrite 0x16000 8 (v &&& ~~~3)) s := by
  rw [← withBits_on]; exact regRow 0x16000 _ (by decide) rfl
theorem exec_pdModeAuto (v : BitVec 64) : exec (.pdModeAuto v) s = exec (.registerWrite 0x16000 8 (v &&& ~~~3 ||| 1)) s := by
  rw [← withBits_auto]; exact regRow 0x16000 _ (by decide) rfl
theorem exec_pdModeOff (v : BitVec 64) : exec (.pdModeOff v) s = exec (.registerWrite 0x16000 8 (v &&& ~~~3 ||| 2)) s := by
  rw [← withBits_off]; exact regRow 0x16000 _ (by decide) rfl
theorem exec_wvCap (v : BitVec 64) : exec (.wvCap v) s = exec (.registerWrite 0x03000 8 v) s :=
  regRow 0x03000 v (by decide) rfl

/-! ### What each register takes while BAR0 answers -/

section Answered

variable (hb : barAnswers s = true)
include hb

theorem write_ringCfg (v : BitVec 64) : exec (.registerWrite 0x10000 8 v) s =
    .next (if v &&& rsvMask .ringCfg = 0 then writeRingCfg s v else s) :=
  regWrite_eq hb 0x10000 v .ringCfg (by decide) rfl rfl

theorem write_ringReset (v : BitVec 64) : exec (.registerWrite 0x10038 8 v) s =
    .next (if v &&& rsvMask .ringReset = 0 then writeField s .ringReset v else s) :=
  regWrite_eq hb 0x10038 v .ringReset (by decide) rfl rfl

theorem write_rstCtl (v : BitVec 64) : exec (.registerWrite 0x01038 8 v) s =
    .next (if v &&& rsvMask .rstCtl = 0 then writeRstCtl s v else s) :=
  regWrite_eq hb 0x01038 v .rstCtl (by decide) rfl rfl

theorem write_restartCtl (v : BitVec 64) : exec (.registerWrite 0x01050 8 v) s =
    .next (if v &&& rsvMask .restartCtl = 0 then writeRestartCtl s v else s) :=
  regWrite_eq hb 0x01050 v .restartCtl (by decide) rfl rfl

theorem write_portCfg (v : BitVec 64) : exec (.registerWrite 0x13000 8 v) s =
    .next (if v &&& rsvMask .portCfg = 0 then writePortCfg s (v.getLsbD 0) else s) :=
  regWrite_eq hb 0x13000 v .portCfg (by decide) rfl rfl

theorem write_pdCtl (v : BitVec 64) : exec (.registerWrite 0x16000 8 v) s =
    .next (if v &&& rsvMask .pdCtl = 0 then writePdCtl s (v.extractLsb' 0 2).toNat else s) :=
  regWrite_eq hb 0x16000 v .pdCtl (by decide) rfl rfl

theorem write_wvCap (v : BitVec 64) : exec (.registerWrite 0x03000 8 v) s =
    .next (if v &&& rsvMask .wvCap = 0 then { s with wv := { s.wv with cap := v.extractLsb' 0 32 } } else s) :=
  regWrite_eq hb 0x03000 v .wvCap (by decide) rfl rfl

/-- A select register keeps its number where the value is out of its range (R546). -/
theorem write_select_refused {o : BitVec 26} {r : Reg} {n : Nat} {t : State} {v : BitVec 64}
    (ho : ¬ (0x20000 ≤ o.toNat ∧ o.toNat < 0x21000)) (h8 : o.toNat % 8 = 0) (hr : regAt o.toNat = some r)
    (hw : writeField s r v = if selOk v n then t else s) (hn : n ≤ v.toNat) : exec (.registerWrite o 8 v) s = .next s := by
  rw [regWrite_eq hb o v r ho h8 hr, hw]
  split
  · exact selNo s t v n hn
  · rfl

/-- A select register takes a number in its range (R546). -/
theorem write_select_taken {o : BitVec 26} {r : Reg} {n : Nat} {t : State} {v : BitVec 64}
    (ho : ¬ (0x20000 ≤ o.toNat ∧ o.toNat < 0x21000)) (h8 : o.toNat % 8 = 0) (hr : regAt o.toNat = some r)
    (hm : rsvMask r = 0xFFFFFFFFFFFF0000) (hw : writeField s r v = if selOk v n then t else s) (h16 : n ≤ 2 ^ 16)
    (hn : v.toNat < n) : exec (.registerWrite o 8 v) s = .next t := by
  have hmask : v &&& rsvMask r = 0 := by rw [hm]; exact mask16 v _ (lt_of_lt_of_le hn h16) rfl
  rw [regWrite_eq hb o v r ho h8 hr, if_pos hmask, hw]
  exact selYes s t v n hn

end Answered

/-! ### The fields that a write sets, and when -/

theorem writeField_cxlWin (v : BitVec 64) : writeField s .cxlWin v =
    if (v.extractLsb' 0 10).toNat ≤ 512 ∧ s.job = none ∧ s.saved = [] then
      (fun u => tdiTouch { u with hub := { u.hub with split := v.extractLsb' 0 10, winBase := v.extractLsb' 30 34 } })
        (if v.extractLsb' 30 34 = s.hub.winBase then s else exposeWindow s) else s := by
  have hrefused : (decide (512 < (v.extractLsb' 0 10).toNat) || s.job.isSome || decide (s.saved ≠ [])) = true ↔
      ¬ ((v.extractLsb' 0 10).toNat ≤ 512 ∧ s.job = none ∧ s.saved = []) := by
    rw [Bool.or_eq_true, Bool.or_eq_true, decide_eq_true_iff, decide_eq_true_iff, Option.isSome_iff_ne_none, ← not_le]
    tauto
  exact (if_congr hrefused rfl rfl).trans (ite_not _ _ _)

theorem writeField_fabAddr {v : BitVec 64} (hv : v.toNat < 2 ^ 16) : writeField s .fabAddr v =
    if s.hub.fabSet = false ∧ v ≠ 0 ∧ v ≠ 0xFFFF then
      { s with hub := { s.hub with fabAddr := v.setWidth 16, fabSet := true } } else s := by
  have hrefused : (s.hub.fabSet || decide (v.extractLsb' 0 16 = 0) || decide (v.extractLsb' 0 16 = 0xFFFF)) = true ↔
      ¬ (s.hub.fabSet = false ∧ v ≠ 0 ∧ v ≠ 0xFFFF) := by
    rw [Bool.or_eq_true, Bool.or_eq_true, decide_eq_true_iff, decide_eq_true_iff, low16 v hv 0 (by decide),
      low16 v hv 0xFFFF (by decide), ← Bool.not_eq_true]
    rw [show (0 : BitVec 16).setWidth 64 = 0 from rfl, show (0xFFFF : BitVec 16).setWidth 64 = 0xFFFF from rfl]
    tauto
  rw [BitVec.setWidth_eq_extractLsb' (by decide)]
  exact (if_congr hrefused rfl rfl).trans (ite_not _ _ _)

/-- A ring without one of its four bases, as `writeRingCfg` tests it. -/
theorem base_missing_iff (g : Machine.Ring) : (decide (g.sq = 0) || decide (g.cq = 0) || decide (g.jnl = 0) || decide (g.db = 0)) = true ↔
    g.sq = 0 ∨ g.cq = 0 ∨ g.jnl = 0 ∨ g.db = 0 := by
  simp only [Bool.or_eq_true, decide_eq_true_iff, or_assoc]

section RingCfg

variable {v : BitVec 64} {g : Machine.Ring} (hg : g = ringOf s s.sels.ring.toNat)
include hg

theorem writeRingCfg_refused (hen : v.getLsbD 0 = true)
    (h : s.boot.devReady = false ∨ (g.st = .disabled ∧ (g.sq = 0 ∨ g.cq = 0 ∨ g.jnl = 0 ∨ g.db = 0))) : writeRingCfg s v = s := by
  subst hg
  unfold writeRingCfg
  dsimp only
  rw [hen]
  rcases h with hready | ⟨hst, hmissing⟩
  · rw [hready, if_pos (c := (true && !false) = true) rfl, ite_self]
  · rw [(base_missing_iff _).mpr hmissing, hst, if_pos (c := (true && decide _ && true) = true) rfl, ite_self, ite_self]

variable (hsize : 6 ≤ (v.extractLsb' 1 4).toNat)
include hsize

theorem writeRingCfg_enabled (hen : v.getLsbD 0 = true) (hready : s.boot.devReady = true) (hst : g.st ≠ .disabled) :
    writeRingCfg s v = setRing s s.sels.ring.toNat { g with st := .enabled } := by
  subst hg
  unfold writeRingCfg
  dsimp only
  rw [if_neg (Nat.not_lt.mpr hsize), hen]
  simp [hready, hst]

theorem writeRingCfg_started (hen : v.getLsbD 0 = true) (hready : s.boot.devReady = true) (hst : g.st = .disabled)
    (hbases : ¬ (g.sq = 0 ∨ g.cq = 0 ∨ g.jnl = 0 ∨ g.db = 0)) (hsz : v.extractLsb' 1 4 = g.size) (hvec : v.extractLsb' 8 8 = g.vector) :
    writeRingCfg s v = readDoorbell (setRing s s.sels.ring.toNat { g with st := .enabled }) s.sels.ring.toNat := by
  subst hg
  rw [← base_missing_iff, Bool.not_eq_true] at hbases
  unfold writeRingCfg
  dsimp only
  rw [if_neg (Nat.not_lt.mpr hsize), hen, hbases]
  simp [hready, hst, hsz, hvec]

theorem writeRingCfg_draining (hen : v.getLsbD 0 = false) (hst : g.st = .enabled) : writeRingCfg s v = setRing s s.sels.ring.toNat
    { g with st := if g.released = g.accepted && !ringSaved s s.sels.ring.toNat then .disabled else .draining } := by
  subst hg
  unfold writeRingCfg drainedIn drained
  dsimp only
  rw [if_neg (Nat.not_lt.mpr hsize), hen, hst]
  cases ringSaved s s.sels.ring.toNat <;> by_cases hdone : (ringOf s s.sels.ring.toNat).released = (ringOf s s.sels.ring.toNat).accepted <;>
    simp [hdone]

end RingCfg

theorem writeField_ringReset_set {v : BitVec 64} (hv : v.getLsbD 0 = true) : writeField s .ringReset v =
    ringResetNow (setRing s s.sels.ring.toNat
      { ringOf s s.sels.ring.toNat with resetDone := (ringOf s s.sels.ring.toNat).resetDone && !v.getLsbD 1 }) := by
  unfold writeField
  exact if_pos hv

theorem writePortCfg_disable {p : Port} (hp : p = portOf s s.sels.port.toNat) (h5 : p.st ≠ 5) (h6 : p.st ≠ 6) :
    writePortCfg s false = portLeaves (setPort s s.sels.port.toNat { p with enable := false }) s.sels.port.toNat 5 := by
  subst hp
  unfold writePortCfg
  rw [if_pos (by rfl)]
  dsimp only
  rw [if_neg (by simpa using ⟨h6, h5⟩)]

theorem writePdCtl_refused {m : Nat} (h : modeOk s.sels.pd.toNat m = false) : writePdCtl s m = s := by
  unfold writePdCtl
  dsimp only
  rw [if_pos (by rw [h]; rfl)]

theorem writePdCtl_auto {p : Pd} (hp : p = pdOf s s.sels.pd.toNat) (h : modeOk s.sels.pd.toNat 1 = true) :
    writePdCtl s 1 = setPd s s.sels.pd.toNat
      { p with mode := 1, pending := false, st := if s.sels.pd.toNat < 32 ∧ p.st = 3 then 4 else p.st } := by
  subst hp
  unfold writePdCtl
  dsimp only
  rw [if_neg (by rw [h]; decide), if_neg (by decide)]
  simp

/-! ### Die resets (R466, R472, R473) -/

theorem hubDieReset_answered (hb : barAnswers s = true) (d : Nat) :
    hubDieReset s d = if s.boot.devReady then startDieReset s d else s := by
  unfold hubDieReset
  rw [hubUp_of_barAnswers hb, Bool.true_and]

theorem dieResetDone_notHeld {d : Fin 24} (hheld : s.rst.held.getLsbD d.val = false) (pass : Bool) :
    exec (.dieResetDone d pass) s = .next s := by
  show execDieResetDone d pass s = _
  unfold execDieResetDone
  dsimp only
  rw [hheld, if_pos (by rfl)]

theorem dieResetDone_pass {d : Fin 24} {s1 : State} (hup : hubUp s = true) (hheld : s.rst.held.getLsbD d.val = true)
    (hs1 : s1 = { s with rst := { s.rst with dieBusy := false, held := s.rst.held &&& ~~~(oneBit d.val) } }) :
    exec (.dieResetDone d true) s = .next (if d.val < 16 then s1
      else if d.val < 20 then (List.range 8).foldl (fun s k =>
        setChan s (8 * (d.val - 16) + k) { chanOf s (8 * (d.val - 16) + k) with selfref := false }) s1
      else (List.range 8).foldl (fun s m => setPort s (8 * (d.val - 20) + m)
        { portOf s (8 * (d.val - 20) + m) with
          st := if (portOf s (8 * (d.val - 20) + m)).st = 4 then 1 else (portOf s (8 * (d.val - 20) + m)).st }) s1) := by
  subst hs1
  show execDieResetDone d true s = _
  unfold execDieResetDone
  dsimp only
  rw [hheld, hup, if_neg (by decide), if_neg (by decide)]
  split
  · rfl
  · split <;> rfl

end Writes

/-! ### The two statements about register writes -/

/-- Settles O55: a write lands in the MSI-X table, in the register at its offset or nowhere; each row is the write it names; and each
register's clause is the lemma about its field's write. -/
theorem registerWriteResults : Obligations.RegisterWriteResults := by
  intro s v
  refine ⟨fun o n => ⟨fun hb => registerWrite_unanswered hb o n v, fun hb ho => ⟨fun hn => registerWrite_misplaced ho hn v, ?place⟩,
      fun hb hlo hhi => registerWrite_msix hb hlo hhi n v⟩,
    ⟨exec_ringEnable v, exec_ringDisable v, exec_ringReset v, exec_jobReset v, exec_shutdown v,
      exec_dieReset_host v, exec_restartScan v, exec_portEnable v, exec_portDisable v, exec_pdModeOn v, exec_pdModeAuto v,
      exec_pdModeOff v, exec_wvCap v⟩,
    fun hb => ⟨?window, ?fabric, ?selectRefused, ?ringSelect, ?domainSelect, ?ringCfg, ?port, ?domain⟩⟩
  case place =>
    rintro rfl h8
    exact ⟨fun hr => registerWrite_reserved ho h8 hr v, fun r hr => regWrite_eq hb o v r ho h8 hr⟩
  case window =>
    intro hm
    rw [regWrite_eq hb 0x01008 v .cxlWin (by decide) rfl rfl, if_pos hm, writeField_cxlWin]
  case fabric =>
    intro hv
    rw [regWrite_eq hb 0x01028 v .fabAddr (by decide) rfl rfl, if_pos (mask16 v _ hv rfl), writeField_fabAddr hv]
  case selectRefused =>
    simp only [List.forall_mem_cons]
    exact ⟨write_select_refused hb (by decide) rfl (r := .ringSel) rfl rfl, write_select_refused hb (by decide) rfl (r := .gladeSel) rfl rfl,
      write_select_refused hb (by decide) rfl (r := .chanSel) rfl rfl, write_select_refused hb (by decide) rfl (r := .portSel) rfl rfl,
      write_select_refused hb (by decide) rfl (r := .domSel) rfl rfl, write_select_refused hb (by decide) rfl (r := .streamSel) rfl rfl,
      write_select_refused hb (by decide) rfl (r := .pdSel) rfl rfl, fun _ h => absurd h List.not_mem_nil⟩
  case ringSelect => exact write_select_taken hb (by decide) rfl (r := .ringSel) rfl rfl rfl (by decide)
  case domainSelect => exact write_select_taken hb (by decide) rfl (r := .pdSel) rfl rfl rfl (by decide)
  case ringCfg =>
    intro g hg hm hsize
    rw [write_ringCfg hb, if_pos hm]
    refine ⟨fun hen h => ?_, fun hen hready hst => ?_, fun hen hready hst hsq hcq hjnl hdb hsz hvec => ?_, fun hen hst => ?_⟩
    · rw [writeRingCfg_refused hg hen h]
    · rw [writeRingCfg_enabled hg hsize hen hready hst]
    · rw [writeRingCfg_started hg hsize hen hready hst (by tauto) hsz hvec]
    · rw [writeRingCfg_draining hg hsize hen hst]
  case port =>
    rintro p hp rfl h5 h6
    rw [write_portCfg hb, if_pos (by rfl), ← writePortCfg_disable hp h5 h6]
    rfl
  case domain =>
    rintro p hp rfl
    rw [write_pdCtl hb, if_pos (by rfl)]
    exact ⟨fun h => congrArg _ (writePdCtl_refused h), fun h => congrArg _ (writePdCtl_auto hp h)⟩

/-- Settles O60: each row is the write that it names, of a register whose write is known for every value; the hub's own die reset and the
end of one read the hub alone. -/
theorem registerRowsComplete : Obligations.RegisterRowsComplete := by
  intro s v hb
  refine ⟨(exec_ringEnable v).trans (write_ringCfg hb _), (exec_ringDisable v).trans (write_ringCfg hb _), ?ringReset,
    (exec_jobReset v).trans (write_rstCtl hb _), (exec_shutdown v).trans (write_rstCtl hb _),
    (exec_dieReset_host v).trans (write_rstCtl hb _), fun d => congrArg Host.Outcome.next (hubDieReset_answered hb d.val),
    fun d pass hheld => dieResetDone_notHeld hheld pass, fun d s1 hheld hs1 => dieResetDone_pass (hubUp_of_barAnswers hb) hheld hs1,
    (exec_restartScan v).trans (write_restartCtl hb _), ?portEnable, ?portDisable, ?modeOn, ?modeAuto, ?modeOff,
    (exec_wvCap v).trans (write_wvCap hb v)⟩
  case ringReset => rw [exec_ringReset, write_ringReset hb, writeField_ringReset_set (enable_set v), done_bit_kept]
  case portEnable => rw [exec_portEnable, write_portCfg hb, enable_set]
  case portDisable => rw [exec_portDisable, write_portCfg hb, enable_cleared]
  case modeOn => rw [exec_pdModeOn, write_pdCtl hb, mode_on]; rfl
  case modeAuto => rw [exec_pdModeAuto, write_pdCtl hb, mode_auto]; rfl
  case modeOff => rw [exec_pdModeOff, write_pdCtl hb, mode_off]; rfl

end Sys2Proof.Proofs
end

section
/-! The cell array and the conversion stage: WLD, MM and CVT among PUBLIC lines. -/

namespace Sys2Proof.Proofs

open Sys2Proof.Machine Sys2Proof.Safety Sys2Proof.Laws

/-! ### An instruction's rows in order, from a glade that the instruction has prepared -/

@[simp] theorem curEng_setGlade (s : State) (i : GI) (k : Glade) : curEng (setGlade s i.glade.val k) i = engOf k i.eng := by
  unfold curEng; rw [gladeOf_setGlade_same]

/-- A glade's engines are two of its fields, whatever its others hold. -/
theorem engOf_congr {k l : Glade} (hae : l.ae = k.ae) (hxe : l.xe = k.xe) (e : Engine) : engOf l e = engOf k e := by
  cases e
  · exact hae
  · exact hxe

theorem progress_of_issues {opc : BitVec 8} {u : Use} {i : GI} {s : State} (h : Issues opc u i s) (hu : u.steps = true) :
    (curEng s i).progress = 0 := by
  obtain ⟨_, _, _, _, hp⟩ := h
  exact hp hu

/-- Preparing the glade before the first row, without touching its engine or its stop request, leaves the instruction at its first step
(R125, R126). -/
theorem startAcc_prepared {opc : BitVec 8} {u : Use} {i : GI} {s : State} (k : Glade) (h : Issues opc u i s) (hu : u.steps = true)
    (he : engOf k i.eng = curEng s i) (hq : k.stopReq = (gladeOf s i.glade.val).stopReq) :
    startAcc i (setGlade s i.glade.val k) = { s := setGlade s i.glade.val k } := by
  have hfirst := progress_of_issues h hu
  obtain ⟨hm, _⟩ := h
  simp [startAcc, he, hq, stopReq_of_mayIssue hm, hfirst]

/-- What the rows of an instruction rely on in their glade: its lines are PUBLIC, and its command, its rounding counter and the engine at
work are those of the state where the instruction began. -/
def RowReady (s : State) (i : GI) (k : Glade) : Prop :=
  k.tags = [] ∧ k.cmd = (gladeOf s i.glade.val).cmd ∧ k.rcnt = (gladeOf s i.glade.val).rcnt ∧ engOf k i.eng = curEng s i

/-- Rows that each turn a ready glade `k` into the ready glade `f k r` turn the prepared glade into the fold of `f` (R126). -/
theorem rowsDone_of_rows {i : GI} {rc : Bool} {s t : State} {k0 : Glade} {row : Nat → Acc → Acc} {f : Glade → Nat → Glade} (n : Nat)
    (hn : NextIn i s) (ht : OnGlade s i.glade.val t k0) (h0 : RowReady s i k0)
    (hrow : ∀ r (x : Acc) k, x.err = 0 → OnGlade s i.glade.val x.s k → RowReady s i k →
      (row r x).err = 0 ∧ OnGlade s i.glade.val (row r x).s (f k r))
    (hkeep : ∀ k r, RowReady s i k → RowReady s i (f k r)) :
    RowsDone i rc s (settleOut i (closeAcc i rc (runRows row n { s := t }))) ((List.range n).foldl f k0) := by
  obtain ⟨hwhole, herr, hon, _, _, _, heng⟩ := runSteps_fold (fun u k => OnGlade s i.glade.val u k ∧ RowReady s i k) f row (List.range n)
    (fun r _ x k hx hR => (hrow r x k hx hR.1 hR.2).imp_right (fun h => ⟨h, hkeep k r hR.2⟩)) { s := t } k0 ⟨rfl, rfl, rfl⟩ rfl ⟨ht, h0⟩
  exact rowsDone hwhole herr hon heng hn

/-! ### WLD (R86, R150) -/

/-- WLD over empty shadow registers, of a tile that fits the array and can be read. -/
theorem exec_wld {i : GI} {s : State} {a : Td} {st : STile} (hi : Issues 0x30 { ta := true, flags := 3, only := some .xe } i s)
    (ha : a = tdGet (curEng s i) i.ta.toNat) (hempty : (gladeOf s i.glade.val).shadow = none)
    (hdepth : tRows a ≤ maxDepth (tFmt a) (i.flags.toNat % 4)) (hcols : tCols a ≤ 256)
    (hok : tileOk (placeOf s i.glade.val).j (placeOf s i.glade.val).prog a (tCols a) (tRows a) = true)
    (hread : readSTile s (placeOf s i.glade.val) a (i.flags.toNat % 4) (tRows a) (tCols a) = .ok st) :
    exec (.wld i) s = .next (settleOut i (closeAcc i false
      { s := setGlade s i.glade.val { gladeOf s i.glade.val with shadow := some st }
        fl := if st.marked then flInfIn else 0
        steps := tCols a })) := by
  subst ha
  show execWld i s = _
  unfold execWld
  rw [issue_of_issues _ hi (fun _ => rfl)]
  dsimp only
  rw [if_neg (by simp [hempty]), if_neg (by simp [hok, hdepth, hcols]), hread]

/-! ### MM (R86, R91, R92, R97, R98, R151) -/

/-- One row of MM: row `r` of tdB passes the tile into row `r` of window tile tdA, in pair rows for a pair pass (R151). -/
def mmRow (pl : Place) (pf : PassFlags) (st : STile) (a b : Td) (r : Nat) (x : Acc) : Acc :=
  match readRow x.s pl b r with
  | .error e => x.fail e
  | .ok y => passInto pl pf st (tFmt b) (tBlk b) (firstRow a pf.pair + r) ((rowElems b y).map (·.2)) y.tag x

/-- MM with a loaded shadow tile that fits its operands runs one pass of tdB's rows against it. -/
theorem exec_mm {i : GI} {s : State} {a b : Td} {pl : Place} {pf : PassFlags} {st : STile}
    (hi : Issues 0x31 { ta := true, tb := true, flags := 7, only := some .xe, steps := true } i s)
    (ha : a = tdGet (curEng s i) i.ta.toNat) (hb : b = tdGet (curEng s i) i.tb.toNat) (hpl : pl = placeOf s i.glade.val)
    (hpf : pf = passFlags i.flags) (hshadow : (gladeOf s i.glade.val).shadow = some st) (hpass : passTile pl a pf.pair = true)
    (hbok : tdOk pl b = true) (hdepth : tCols b = st.rows) (hrows : tRows a = tRows b)
    (hpair : (pairDepth st.fmt.toNat st.pack.toNat (tFmt b)).isSome = true)
    (hmodes : pf.acc = true → modesOk (gladeOf s i.glade.val) pf.pair (firstRow a pf.pair) (tRows a) = true) :
    exec (.mm i) s = .next (settleOut i (closeAcc i false (runRows (mmRow pl pf st a b) (tRows b)
      { s := setGlade s i.glade.val { gladeOf s i.glade.val with shadow := none, active := some st } }))) := by
  have hfirst := progress_of_issues hi rfl
  have haccept : (pf.acc && !modesOk (gladeOf s i.glade.val) pf.pair (firstRow a pf.pair) (tRows a)) = false := by
    cases hacc : pf.acc
    · rfl
    · rw [hmodes hacc]; rfl
  have hpair' := Option.isSome_iff_ne_none.mp hpair
  show execMm i s = _
  unfold execMm
  rw [issue_of_issues _ hi (fun _ => rfl)]
  dsimp only
  rw [if_pos hfirst, hshadow, ← ha, ← hb, ← hpl, ← hpf]
  dsimp only
  rw [haccept, if_neg (by simp [hpass, hbok, hdepth, hrows, hpair']), if_pos hfirst,
    startAcc_prepared { gladeOf s i.glade.val with shadow := none, active := some st } hi rfl (engOf_congr rfl rfl _) rfl]
  rfl

/-- A glade changed in its memory, its tags and its window modes alone. -/
def MemoryChanged (k l : Glade) : Prop := ∃ m tg p, l = { k with mem := m, tags := tg, pair := p }

theorem memoryChanged_setRow {k l : Glade} (h : MemoryChanged k l) (r : Nat) (v : List (BitVec 32)) (t : Tag) (p : Bool) :
    MemoryChanged k (setRow l r v t p) := by
  obtain ⟨_, _, _, rfl⟩ := h
  exact ⟨_, _, _, rfl⟩

/-- A pass changes window rows, or nothing: the bytes, the tags and the modes of at most two rows. -/
theorem passGlade_memoryChanged (pf : PassFlags) (st : STile) (vf blk row : Nat) (vec : List (Nat × Nat)) (k : Glade) :
    MemoryChanged k (passGlade pf st vf blk row vec k) := by
  have hself : MemoryChanged k k := ⟨_, _, _, rfl⟩
  have hone := memoryChanged_setRow hself
  have htwo := fun r v t p => memoryChanged_setRow (hone r v t p)
  unfold passGlade
  dsimp only
  split
  · split
    · exact hself
    · split
      · exact htwo _ _ _ _ _ _ _ _
      · exact hone _ _ _ _
  · split
    · split
      · exact htwo _ _ _ _ _ _ _ _
      · exact hone _ _ _ _
    · split
      · exact htwo _ _ _ _ _ _ _ _
      · exact hone _ _ _ _

/-- A pass of a PUBLIC tile leaves its glade ready for the next row. -/
theorem passGlade_ready {s : State} {i : GI} {pf : PassFlags} {st : STile} {vf blk row : Nat} {vec : List (Nat × Nat)} {k : Glade}
    (hst : st.tag = tagPublic) (h : RowReady s i k) : RowReady s i (passGlade pf st vf blk row vec k) := by
  obtain ⟨htags, hcmd, hcnt, heng⟩ := h
  refine ⟨passGlade_tags hst htags, ?_⟩
  obtain ⟨m, tg, p, hrest⟩ := passGlade_memoryChanged pf st vf blk row vec k
  rw [hrest]
  exact ⟨hcmd, hcnt, (engOf_congr rfl rfl _).trans heng⟩

/-- A row of MM from the buffer, its lines and the tile PUBLIC. -/
theorem mmRow_step {s : State} {i : GI} {pl : Place} (hpl : pl.gi = i.glade.val) {pf : PassFlags} {st : STile} {a b : Td} {r : Nat} {x : Acc}
    {k : Glade} (hst : st.tag = tagPublic) (hb : InBuffer b) (hx : x.err = 0) (ho : OnGlade s i.glade.val x.s k) (hk : RowReady s i k) :
    (mmRow pl pf st a b r x).err = 0 ∧ OnGlade s i.glade.val (mmRow pl pf st a b r x).s
      (passGlade pf st (tFmt b) (tBlk b) (firstRow a pf.pair + r) ((rowElems b (memRow k.mem b r)).map (·.2)) k) := by
  have hglade : gladeOf x.s pl.gi = k := hpl ▸ ho.2
  unfold mmRow
  rw [readRow_buffer r hb (by rw [hglade]; exact hk.1), hglade]
  exact passInto_step hpl (by rw [hst]; decide) (by rw [hst]; decide) (.inr ⟨hst, hk.1⟩) hx ho

/-! ### CVT (R111 to R119, R159, R160) -/

/-- The glade as CVT's first row finds it: its statistics slot cleared where FLAGS[4] asks for it (R119, R159). -/
def cvtStart (i : GI) (slot : Option Nat) (k : Glade) : Glade :=
  match slot with
  | some n => if i.flags.getLsbD 4 then setStat k n {} else k
  | none => k

theorem cvtStart_ready {s : State} {i : GI} (slot : Option Nat) (h : (gladeOf s i.glade.val).tags = []) :
    RowReady s i (cvtStart i slot (gladeOf s i.glade.val)) := by
  have hstat : ∃ q, cvtStart i slot (gladeOf s i.glade.val) = { gladeOf s i.glade.val with stats := q } := by
    unfold cvtStart
    split
    · split <;> exact ⟨_, rfl⟩
    · exact ⟨_, rfl⟩
  obtain ⟨q, hq⟩ := hstat
  rw [hq]
  exact ⟨h, rfl, rfl, engOf_congr rfl rfl _⟩

/-- The state in which CVT's rows begin: as it was, or with the statistics slot cleared. -/
def cvtState (i : GI) (slot : Option Nat) (s : State) : State :=
  match slot with
  | some n => if i.flags.getLsbD 4 then setGlade s i.glade.val (setStat (gladeOf s i.glade.val) n {}) else s
  | none => s

theorem cvtState_onGlade (i : GI) (slot : Option Nat) (s : State) :
    OnGlade s i.glade.val (cvtState i slot s) (cvtStart i slot (gladeOf s i.glade.val)) := by
  unfold cvtState cvtStart
  cases slot with
  | none => exact onGlade_self _ _
  | some n =>
    dsimp only
    split
    · exact ⟨.inr ⟨_, rfl⟩, gladeOf_setGlade_same _ _ _⟩
    · exact onGlade_self _ _

theorem startAcc_cvtState {opc : BitVec 8} {u : Use} {i : GI} {s : State} (slot : Option Nat) (hi : Issues opc u i s) (hu : u.steps = true) :
    startAcc i (cvtState i slot s) = { s := cvtState i slot s } := by
  unfold cvtState
  cases slot with
  | none => exact startAcc_of_issues hi hu
  | some n =>
    dsimp only
    split
    · exact startAcc_prepared _ hi hu (engOf_congr rfl rfl _) rfl
    · exact startAcc_of_issues hi hu

/-- CVT with operands and a PUBLIC parameter block that pass its checks runs the rows of tdA through the conversion stage (R159, R160). -/
theorem exec_cvt {i : GI} {s : State} {a b c : Td} {pl : Place} {blk : Bytes} {off : Nat} {fn : BitVec 32 → R32} {slot : Option Nat} {o : CvtOp}
    (hi : Issues 0x33 { ta := true, tb := true, tc := true, sa := true, flags := 0x7F, imm := allImm, only := some .xe, steps := true } i s)
    (ha : a = tdGet (curEng s i) i.ta.toNat) (hb : b = tdGet (curEng s i) i.tb.toNat) (hc : c = tdGet (curEng s i) i.tc.toNat)
    (hpl : pl = placeOf s i.glade.val) (hoff : off = (sGet (curEng s i) i.sa.toNat).toNat)
    (hfn : convFn (i.flags.toNat % 16) = some fn) (hslot : slot = (if flagAt blk 2080 7 then none else some ((blk.getD 2080 0).toNat % 64)))
    (ho : o = ⟨fn, i.flags.toNat % 16 ≠ 0, i.imm.extractLsb' 0 32, i.imm.extractLsb' 32 32, if i.flags.getLsbD 5 then some c else none,
      i.flags.getLsbD 6, blk, tagPublic, slot⟩)
    (hread : spanRead s pl 0 off 2304 = .ok (blk, tagPublic)) (hpass : passTile pl a (i.flags.getLsbD 6) = true) (hdst : tdDst pl b = true)
    (hwin : tWindow b = true → tCol0 b = 0) (hf8 : tFmt b ≠ fmtF8) (hrows : tRows a = tRows b) (hcols : tCols a = tCols b)
    (hres : i.flags.getLsbD 5 = true → tdOk pl c = true ∧ tFmt c = fmtW24 ∧ tRows a = tRows c ∧ tCols a = tCols c)
    (halign : off % 256 = 0) (hscratch : inScratch pl.j off 2304 = true)
    (hmodes : modesOk (gladeOf s i.glade.val) (i.flags.getLsbD 6) (firstRow a (i.flags.getLsbD 6)) (tRows a) = true)
    (hrsv : flagAt blk 2080 6 = false) (hzero : zeroAt blk 2081 223 = true) (hmask : maskWhole blk b = true) :
    exec (.cvt i) s = .next (settleOut i (closeAcc i (tStoch b) (runRows (convRow pl o a b) (tRows a) { s := cvtState i slot s }))) := by
  have hfirst := progress_of_issues hi rfl
  have hwindow : (tWindow b && decide (tCol0 b ≠ 0)) = false := by
    cases hw : tWindow b
    · rfl
    · simp [hwin hw]
  have hresidual : (i.flags.getLsbD 5 &&
      (!tdOk pl c || decide (tFmt c ≠ fmtW24) || decide (tRows a ≠ tRows c) || decide (tCols a ≠ tCols c))) = false := by
    cases hn : i.flags.getLsbD 5
    · rfl
    · obtain ⟨h1, h2, h3, h4⟩ := hres hn
      simp [h1, h2, ← h3, ← h4]
  show execCvt i s = _
  unfold execCvt
  rw [issue_of_issues _ hi (fun _ => rfl)]
  dsimp only
  rw [hfn, ← ha, ← hb, ← hc, ← hpl, ← hoff]
  dsimp only
  rw [hwindow, hresidual, hpass, hmodes, if_neg (by simp [hdst, hf8, ← hrows, ← hcols, halign, hscratch]), hread]
  dsimp only
  rw [if_neg (by simp [hrsv, hzero, hmask]), ← hslot, ← ho, ← startAcc_cvtState slot hi rfl]
  simp only [hfirst, decide_true, Bool.and_true]
  rfl

/-- A row of CVT among PUBLIC lines leaves its glade ready for the next row. -/
theorem convGlade_ready {s : State} {i : GI} {o : CvtOp} {a b : Td} {r : Nat} {k : Glade} (h : RowReady s i k) :
    RowReady s i (convGlade s i.glade.val o a b r k) := by
  obtain ⟨htags, hcmd, hcnt, heng⟩ := h
  obtain ⟨etags, ecmd, ecnt, eeng⟩ := convGlade_rest s i.glade.val o a b r k
  exact ⟨etags.trans htags, ecmd.trans hcmd, ecnt.trans hcnt, (eeng i.eng).trans heng⟩

/-! ### The statement about the array and the conversion stage -/

/-- Settles O19: WLD's tile is the one that memory holds; MM and CVT run their checks and then their rows in order, each row a pass or a
conversion of the glade that the rows before it left. -/
theorem arrayConvertResults : Obligations.ArrayConvertResults := by
  refine ⟨fun i s a b hn ha hb htags => ⟨?wld, ?mm⟩, ?cvt⟩
  case wld =>
    intro hi hempty hbuf hdepth hcols hok
    have hread := readSTile_buffer (pl := placeOf s i.glade.val) (i.flags.toNat % 4) (tRows a) (tCols a) hbuf htags
    refine ⟨_, exec_wld hi ha hempty hdepth hcols hok hread, ?_⟩
    exact rowsDone ⟨rfl, rfl, rfl⟩ rfl ⟨.inr ⟨_, rfl⟩, gladeOf_setGlade_same _ _ _⟩ (engOf_congr rfl rfl _) hn
  case mm =>
    intro st hi hshadow hst hbuf hpass hbok hdepth hrows hpair hmodes
    refine ⟨_, exec_mm hi ha hb rfl rfl hshadow hpass hbok hdepth hrows hpair hmodes, ?_⟩
    exact rowsDone_of_rows (tRows b) hn ⟨.inr ⟨_, rfl⟩, gladeOf_setGlade_same _ _ _⟩
      ⟨htags, rfl, rfl, engOf_congr rfl rfl _⟩
      (fun r x k hx ho hk => mmRow_step rfl hst hbuf hx ho hk) (fun k r hk => passGlade_ready hst hk)
  case cvt =>
    intro i s a b c blk fn slot o hi hn ha hb hc hblk hfn hslot ho htags hbuf hpass hdst hwin hf8 hrows hcols hres halign hscratch hmodes hrsv
      hzero hmask
    have hread : spanRead s (placeOf s i.glade.val) 0 (sGet (curEng s i) i.sa.toNat).toNat 2304 = .ok (blk, tagPublic) := by
      rw [spanRead_own _ _ (by decide) htags, hblk]; rfl
    refine ⟨_, exec_cvt hi ha hb hc rfl rfl hfn hslot ho hread hpass hdst hwin hf8 hrows hcols (fun h => (hres h).2) halign hscratch hmodes
      hrsv hzero hmask, ?_⟩
    have hresBuf : ∀ t, o.res = some t → InBuffer t := by
      intro t ht
      rw [ho] at ht
      dsimp only at ht
      split at ht
      next h => cases ht; exact (hres h).1
      next => cases ht
    exact rowsDone_of_rows (tRows a) hn (cvtState_onGlade i slot s) (cvtStart_ready slot htags)
      (fun r x k hx hon ⟨hk, hcmd, hcnt, _⟩ => convRow_step (pl := placeOf s i.glade.val) (by rw [ho]) (fun n _ => join_public _) hx hon hk
        hcmd hcnt hbuf hresBuf)
      (fun k r hk => convGlade_ready hk)

end Sys2Proof.Proofs
end

section
/-! Glade programs: the instruction word, control flow, scalar registers, predicates and tile descriptors. -/

namespace Sys2Proof.Proofs

open Sys2Proof.Machine Sys2Proof.Safety Sys2Proof.Laws

/-! ### The instruction word (R131, R139) -/

theorem decodeGlade_of_parts {c : Instr} {op : BitVec 8} {i : GI} (h : gladeParts c = some (op, i)) :
    decodeGlade i.glade i.eng (instrWord op i) = some c := by
  unfold decodeGlade
  rw [wordOpc_instrWord, wordFields_instrWord]
  exact gladeParts_instr c op i h

theorem encodeGlade_of_parts {c : Instr} {op : BitVec 8} {i : GI} (h : gladeParts c = some (op, i)) : encodeGlade c = some (instrWord op i) := by
  unfold encodeGlade
  rw [h]; rfl

/-- Settles O6: a word is its opcode and its fields put together, and an opcode and its fields are those of one instruction. -/
theorem gladeWordRoundTrip : Obligations.GladeWordRoundTrip := by
  refine ⟨fun c op i h => ⟨encodeGlade_of_parts h, decodeGlade_of_parts h⟩, fun g e w c h => ?_⟩
  have hparts : gladeParts c = some (wordOpc w, wordFields g e w) := gladeInstr_parts _ _ c h
  refine ⟨?_, wordOpc w, wordFields g e w, hparts, rfl, rfl⟩
  rw [encodeGlade_of_parts hparts, instrWord_parts]

/-! ### Instructions that write one register, predicate or descriptor -/

/-- A body's result in a command of an engine that issues the instruction. -/
theorem next_issue {opc : BitVec 8} {u : Use} {i : GI} {s t : State} (body : State → GOut) (hi : Issues opc u i s)
    (ho : ∀ j, (gladeInstr opc j).isSome = true) (ht : settleOut i (body s) = t) :
    (.next (issue opc i u body s) : Host.Outcome State Fault Refusal) = .next t := by
  rw [issue_of_issues body hi ho, ht]

theorem settleOut_sSet {i : GI} {s : State} (hn : NextIn i s) (r : Nat) (v : BitVec 64) :
    settleOut i (.done (setCur s i (sSet (curEng s i) r v))) = setCur s i (stepOn (sSet (curEng s i) r v)) :=
  settleOut_setCur (by simp) (by simp) (by simp) hn

theorem settleOut_tdSet {i : GI} {s : State} (hn : NextIn i s) (k : Nat) (t : Td) :
    settleOut i (.done (setCur s i (tdSet (curEng s i) k t))) = setCur s i (stepOn (tdSet (curEng s i) k t)) :=
  settleOut_setCur rfl rfl rfl hn

theorem settleOut_setPred {i : GI} {s : State} (hn : NextIn i s) (k : Nat) (b : Bool) :
    settleOut i (.done (setCur s i (setPred (curEng s i) k b))) = setCur s i (stepOn (setPred (curEng s i) k b)) :=
  settleOut_setCur rfl rfl rfl hn

/-- Settles O9: each body writes one register or one descriptor, and the engine moves on. -/
theorem movTdaddTdcpyResults : Obligations.MovTdaddTdcpyResults := by
  intro i s hn
  refine ⟨fun hi => ?_, fun hi => ?_, fun hi => ?_⟩
  · exact next_issue _ hi (fun _ => rfl) (settleOut_sSet hn _ _)
  · exact next_issue _ hi (fun _ => rfl) (settleOut_tdSet hn _ _)
  · exact next_issue _ hi (fun _ => rfl) (settleOut_tdSet hn _ _)

/-- A predicate reads the truth written to it, and another predicate reads as before (R141). -/
theorem getLsbD_setPred (e : Eng) {k j : Nat} (b : Bool) (hk : k < 8) (hj : j < 8) :
    (setPred e k b).p.getLsbD j = if j = k then b else e.p.getLsbD j := by
  have hbit : ((1 : BitVec 8) <<< k).getLsbD j = decide (j = k) := by
    rw [BitVec.getLsbD_shiftLeft]
    by_cases h : j = k
    · simp [h, hk]
    · simp [h]
      omega
  unfold setPred
  cases b
  · simp only [Bool.false_eq_true, if_false, BitVec.getLsbD_and, BitVec.getLsbD_not, hbit, hj]
    by_cases h : j = k <;> simp [h]
  · simp only [if_true, BitVec.getLsbD_or, hbit]
    by_cases h : j = k <;> simp [h]

/-- Settles O10: an assigned code's operation or condition is written, and a reserved code faults. -/
theorem aluCmpResults : Obligations.AluCmpResults := by
  refine ⟨fun i s hn => ⟨fun hi => ?alu, fun hi => ?cmp⟩, fun e k j b hk hj => getLsbD_setPred e b hk hj⟩
  case alu =>
    refine (next_issue _ hi (fun _ => rfl) rfl).trans ?_
    dsimp only
    generalize i.flags.toNat % 16 = n
    match n with
    | 0 | 1 | 2 | 3 | 4 | 5 | 6 | 7 | 8 | 9 | 10 => exact congrArg _ (settleOut_sSet hn _ _)
    | _ + 11 => rfl
  case cmp =>
    refine (next_issue _ hi (fun _ => rfl) rfl).trans ?_
    dsimp only
    generalize i.flags.toNat % 16 = n
    match n with
    | 0 | 1 | 2 | 3 | 4 | 5 => exact congrArg _ (settleOut_setPred hn _ _)
    | _ + 6 => rfl

/-- Settles O11: an assigned code's field takes the value, and a reserved code faults. -/
theorem tdsetResults : Obligations.TdsetResults := by
  intro i s hn hi
  refine (next_issue _ hi (fun _ => rfl) rfl).trans ?_
  dsimp only
  generalize i.flags.toNat % 16 = n
  match n with
  | 0 | 1 | 2 | 3 | 4 | 5 | 6 | 7 | 8 | 9 | 10 | 11 => exact congrArg _ (settleOut_tdSet hn _ _)
  | _ + 12 => rfl

/-! ### Where a branch goes (R139) -/

theorem branchTo_outside {i : GI} {s : State} {t : Int} (h : ¬ TargetIn i s t) : branchTo s i t = faultGlade s i.glade.val i.eng stProgram := by
  unfold branchTo
  rw [if_neg]
  simpa [TargetIn] using h

/-- The instruction at the section's last word falls through its end. -/
theorem goTo_next_outside {i : GI} {s : State} (h : ¬ NextIn i s) :
    goTo s i ((curEng s i).pc.toNat + 1) = faultGlade (setCur s i (stepOn (curEng s i))) i.glade.val i.eng stProgram := by
  unfold goTo
  rw [ofInt_succ, if_neg]
  · rfl
  · unfold NextIn at h
    simp only [Bool.and_eq_true, decide_eq_true_eq]
    omega

/-- A target is judged by the section alone, which a change of registers or of the call stack leaves as it is. -/
theorem targetIn_setCur {i : GI} {s : State} {f : Eng} {t : Int} (hstart : f.sectStart = (curEng s i).sectStart)
    (hend : f.sectEnd = (curEng s i).sectEnd) : TargetIn i (setCur s i f) t ↔ TargetIn i s t := by
  unfold TargetIn
  rw [curEng_setCur, hstart, hend]

/-- A branch inside the section, taken after the engine has been left as `f`. -/
theorem branchTo_setCur {i : GI} {s : State} {f : Eng} {t : Int} (hstart : f.sectStart = (curEng s i).sectStart)
    (hend : f.sectEnd = (curEng s i).sectEnd) (h : TargetIn i s t) : branchTo (setCur s i f) i t = setCur s i (atAddr f t) := by
  rw [branchTo_inside ((targetIn_setCur hstart hend).mpr h), curEng_setCur, setCur_setCur]

theorem exec_nop {i : GI} {s : State} (hi : Issues 0x00 {} i s) : exec (.nop i) s = .next (goTo s i ((curEng s i).pc.toNat + 1)) :=
  next_issue _ hi (fun _ => rfl) rfl

theorem exec_br {i : GI} {s : State} (hi : Issues 0x02 { imm := allImm } i s) :
    exec (.br i) s = .next (branchTo s i ((curEng s i).pc.toNat + i.imm.toInt)) :=
  next_issue _ hi (fun _ => rfl) rfl

/-- LOOP with its counter decremented in `f`: on at 0, else a branch. -/
theorem exec_loop {i : GI} {s : State} {f : Eng} (hi : Issues 0x03 { sa := true, imm := allImm } i s)
    (hf : f = sSet (curEng s i) i.sa.toNat (sGet (curEng s i) i.sa.toNat - 1)) :
    exec (.loop i) s = .next (if sGet f i.sa.toNat = 0 then settleOut i (.done (setCur s i f))
      else branchTo (setCur s i f) i ((curEng s i).pc.toNat + i.imm.toInt)) := by
  subst hf
  refine next_issue _ hi (fun _ => rfl) ?_
  dsimp only
  split <;> rfl

/-- CALL: a fault with sixteen calls stacked or a target outside the section, else a branch with the next address stacked. -/
theorem exec_call {i : GI} {s : State} (hi : Issues 0x04 { imm := allImm } i s) :
    (16 ≤ (curEng s i).stack.length ∨ ¬ TargetIn i s ((curEng s i).pc.toNat + i.imm.toInt) →
      exec (.call i) s = .next (faultGlade s i.glade.val i.eng stProgram)) ∧
    ((curEng s i).stack.length < 16 → TargetIn i s ((curEng s i).pc.toNat + i.imm.toInt) →
      exec (.call i) s = .next (branchTo (setCur s i { curEng s i with stack := (curEng s i).stack ++ [(curEng s i).pc + 1] }) i
        ((curEng s i).pc.toNat + i.imm.toInt))) := by
  refine ⟨fun h => next_issue _ hi (fun _ => rfl) ?_, fun hlen hin => next_issue _ hi (fun _ => rfl) ?_⟩
  · dsimp only
    rw [if_pos (by unfold TargetIn at h; simp; omega)]
    rfl
  · dsimp only
    rw [if_neg (by unfold TargetIn at hin; simp; omega)]
    rfl

theorem exec_ret_empty {i : GI} {s : State} (hi : Issues 0x05 {} i s) (h : (curEng s i).stack = []) :
    exec (.ret i) s = .next (faultGlade s i.glade.val i.eng stProgram) := by
  refine next_issue _ hi (fun _ => rfl) ?_
  dsimp only
  rw [h]
  rfl

/-- RET with an address stacked: a fault if it lies outside the section, else a branch to it with the rest stacked. -/
theorem exec_ret_stacked {i : GI} {s : State} {st : List (BitVec 20)} {a : BitVec 20} (hi : Issues 0x05 {} i s)
    (h : (curEng s i).stack = st ++ [a]) :
    (TargetIn i s a.toNat → exec (.ret i) s = .next (branchTo (setCur s i { curEng s i with stack := st }) i a.toNat)) ∧
    (¬ TargetIn i s a.toNat → exec (.ret i) s = .next (faultGlade s i.glade.val i.eng stProgram)) := by
  refine ⟨fun hin => next_issue _ hi (fun _ => rfl) ?_, fun hout => next_issue _ hi (fun _ => rfl) ?_⟩ <;>
    dsimp only <;> rw [h, List.getLast?_concat, List.dropLast_concat] <;> dsimp only
  · rw [if_neg (by unfold TargetIn at hin; simp; omega)]
    rfl
  · rw [if_pos (by unfold TargetIn at hout; simp; omega)]
    rfl

/-- Settles O12: each instruction's outcome by its own equation, and each target inside the section or outside it. -/
theorem branchResults : Obligations.BranchResults := by
  intro i s
  refine ⟨fun hi => ⟨fun hin => ?_, fun hout => ?_⟩, fun hi => ⟨fun hin => ?_, fun hout => ?_⟩, fun hi => ⟨fun h0 hn => ?_, fun h0 hin => ?_,
    fun h0 hout => ?_⟩, fun hi => ⟨fun hin hlen => ?_, fun h => ?_⟩, fun hi => ⟨exec_ret_empty hi, fun st a h => ⟨fun hin => ?_, ?_⟩⟩⟩
  · rw [exec_nop hi, goTo_next hin]
  · rw [exec_nop hi, goTo_next_outside hout]; rfl
  · rw [exec_br hi, branchTo_inside hin]
  · rw [exec_br hi, branchTo_outside hout]; rfl
  · rw [exec_loop hi rfl, if_pos h0, settleOut_sSet hn]
  · rw [exec_loop hi rfl, if_neg h0, branchTo_setCur (by simp) (by simp) hin]
  · rw [exec_loop hi rfl, if_neg h0, branchTo_outside (by rwa [targetIn_setCur (by simp) (by simp)])]; rfl
  · exact ((exec_call hi).2 hlen hin).trans (congrArg _ (branchTo_setCur rfl rfl hin))
  · exact (exec_call hi).1 h.symm
  · exact ((exec_ret_stacked hi h).1 hin).trans (congrArg _ (branchTo_setCur rfl rfl hin))
  · exact (exec_ret_stacked hi h).2

/-! ### Token queues (R135, R136) -/

/-- Changing an engine after the rest of its glade changes both. -/
theorem setCur_setGlade (s : State) (i : GI) (k : Glade) (f : Eng) :
    setCur (setGlade s i.glade.val k) i f = setGlade s i.glade.val (setEng k i.eng f) := by
  unfold setCur
  rw [gladeOf_setGlade_same, setGlade_setGlade]

/-- Moving on in any state `t` whose engine has been left as `f`, at the address and in the section of `s`. -/
theorem goTo_setCur {i : GI} {s t : State} {f : Eng} (hn : NextIn i s) (hpc : f.pc = (curEng s i).pc)
    (hstart : f.sectStart = (curEng s i).sectStart) (hend : f.sectEnd = (curEng s i).sectEnd) :
    goTo (setCur t i f) i ((curEng s i).pc.toNat + 1) = setCur t i (stepOn f) := by
  have hnext := goTo_next (i := i) (s := setCur t i f) (by rw [NextIn, curEng_setCur, hpc, hstart, hend]; exact hn)
  rwa [curEng_setCur, hpc, setCur_setCur] at hnext

theorem settleOut_setCur_of {i : GI} {s t : State} {f : Eng} (hn : NextIn i s) (hpc : f.pc = (curEng s i).pc)
    (hstart : f.sectStart = (curEng s i).sectStart) (hend : f.sectEnd = (curEng s i).sectEnd) :
    settleOut i (.done (setCur t i f)) = setCur t i (stepOn f) := by
  rw [← goTo_setCur hn hpc hstart hend, ← hpc]
  simp [settleOut]

/-- SIGNAL: a stall while the outgoing queue is full, else a token on its way (R135). -/
theorem exec_signal {i : GI} {s : State} {g : Glade} {q : Nat} (hi : Issues 0x08 { sa := true, flags := 7 } i s)
    (hg : g = gladeOf s i.glade.val) (hq : q = outQueue i.eng (i.flags.toNat % 8)) :
    (queueUsed g q < 64 → NextIn i s → exec (.signal i) s = .next (setCur (setGlade s i.glade.val
      { g with sent := tset [] g.sent q (sentOf g q ++ [(sGet (curEng s i) i.sa.toNat).setWidth 32]) }) i (stepOn (curEng s i)))) ∧
    (64 ≤ queueUsed g q → exec (.signal i) s = .next (setCur s i { curEng s i with st := .waitToken, waitQ := q })) := by
  subst hg hq
  refine ⟨fun hfree hn => next_issue _ hi (fun _ => rfl) ?_, fun hfull => next_issue _ hi (fun _ => rfl) ?_⟩
  · dsimp only
    rw [if_neg (by omega)]
    have heng : ∀ l, engOf { gladeOf s i.glade.val with sent := l } i.eng = curEng s i := fun l => engOf_congr rfl rfl _
    rw [settleOut_done (by simpa only [NextIn, curEng_setGlade, heng] using hn), curEng_setGlade, heng]
  · dsimp only
    rw [if_pos hfull]
    rfl

/-- WAIT: a stall on an empty incoming queue, else its oldest token in sA (R136). -/
theorem exec_wait {i : GI} {s : State} {g : Glade} {q : Nat} (hi : Issues 0x09 { sa := true, flags := 7 } i s)
    (hg : g = gladeOf s i.glade.val) (hq : q = inQueue i.eng (i.flags.toNat % 8)) :
    (∀ t r, queueOf g q = t :: r → NextIn i s → exec (.wait i) s = .next (setCur (setGlade s i.glade.val (takeToken g i.eng q)) i
      (stepOn (sSet (curEng s i) i.sa.toNat (t.setWidth 64))))) ∧
    (queueOf g q = [] → exec (.wait i) s = .next (setCur s i { curEng s i with st := .waitToken, waitQ := q, waitSa := i.sa })) := by
  subst hg hq
  refine ⟨fun t r ht hn => next_issue _ hi (fun _ => rfl) ?_, fun hempty => next_issue _ hi (fun _ => rfl) ?_⟩
  · dsimp only
    rw [ht]
    dsimp only
    rw [curEng_setGlade, engOf_takeToken]
    exact settleOut_setCur_of hn (by simp; rfl) (by simp; rfl) (by simp; rfl)
  · dsimp only
    rw [hempty]
    rfl

/-- A token that has come while its receiver is stalled on the queue (R136). -/
theorem exec_tokenReceive {gi : Fin 128} {e : Engine} {s : State} {g : Glade} {en : Eng} {t : BitVec 32} {r : List (BitVec 32)}
    (hg : g = gladeOf s gi.val) (hen : en = engOf g e) (hst : en.st = .waitToken) (hq : inQueue e (en.waitQ % 8) = en.waitQ)
    (hreq : g.stopReq = false) (hstop : g.stopped = false) (hfault : gladeFaulted g = false) (ht : queueOf g en.waitQ = t :: r)
    (hn : NextIn { glade := gi, eng := e } s) :
    exec (.tokenReceive gi e) s = .next (setCur (setGlade s gi.val (takeToken g e en.waitQ)) { glade := gi, eng := e }
      (stepOn (sSet { en with st := .running } en.waitSa.toNat (t.setWidth 64)))) := by
  have hwaits : waitsOn g e en.waitQ = true := by simp [waitsOn, ← hen, hst]
  show execTokenReceive gi e s = _
  unfold execTokenReceive
  dsimp only
  rw [← hg, ← hen, if_pos (by simp [hwaits, hq, hreq, hstop, hfault]), ht]
  dsimp only
  have heng : en = curEng s { glade := gi, eng := e } := by rw [hen, hg]; rfl
  rw [engOf_takeToken, ← hen, ← setCur_setGlade s { glade := gi, eng := e }]
  rw [heng]
  exact congrArg _ (goTo_setCur hn (by simp) (by simp) (by simp))

/-- Settles O13: SIGNAL and WAIT by the state of their queue, and the two events by the token at its head. -/
theorem tokenQueueResults : Obligations.TokenQueueResults := by
  refine ⟨fun i s => ⟨fun hi => exec_signal hi rfl rfl, fun hi => exec_wait hi rfl rfl⟩, fun gi e q s t r ht => ?enter,
    fun gi e s t r hst hq hreq hstop hfault ht hn => exec_tokenReceive rfl rfl hst hq hreq hstop hfault ht hn⟩
  case enter =>
    show execTokenEnter gi e q s = _
    unfold execTokenEnter
    dsimp only at ht ⊢
    rw [ht]

/-! ### Halting, deadlock and stops (R126, R137, R138, R182) -/

/-- While an engine of the command's glades has not halted, the command goes on (R138). -/
theorem gladesDone_of_working {s : State} {acc : BitVec 64} {g : Nat} (hg : g ∈ gladesOf s acc)
    (h : engHalted (gladeOf s g).ae = false ∨ engHalted (gladeOf s g).xe = false) : gladesDone s acc = s := by
  have hany : ((gladesOf s acc).all fun g => engHalted (gladeOf s g).ae && engHalted (gladeOf s g).xe) = false := by
    rw [List.all_eq_false]
    refine ⟨g, hg, ?_⟩
    rcases h with h | h <;> simp [h]
  unfold gladesDone
  dsimp only
  rw [hany, if_pos (by simp)]

/-- While a glade of the command has not ended, a faulted command is not completed (R182). -/
theorem settle_of_working {s : State} {acc : BitVec 64} (h : ((gladesOf s acc).any fun g => !gladeEnded (gladeOf s g)) = true) :
    settle s acc = s := by
  have hall : ((gladesOf s acc).all fun g => gladeEnded (gladeOf s g)) = false := by
    obtain ⟨g, hg, hw⟩ := List.any_eq_true.mp h
    exact List.all_eq_false.mpr ⟨g, hg, by simpa using hw⟩
  unfold settle
  rw [if_neg (by simp [hall])]

theorem exec_haltDone {gi : Fin 128} {e : Engine} {s : State} {g : Glade} (hg : g = gladeOf s gi.val) (hst : (engOf g e).st = .waitMem)
    (hreq : g.stopReq = false) (hstop : g.stopped = false) (hfault : gladeFaulted g = false) (hcmd : g.cmd ≠ 0)
    (hmay : mayHalt s gi.val e = true) :
    exec (.haltDone gi e) s = .next (gladesDone (setGlade s gi.val (setEng g e { engOf g e with st := .halted })) g.cmd) := by
  show execHaltDone gi e s = _
  unfold execHaltDone
  dsimp only
  rw [← hg, if_pos (by simp [hst, hreq, hstop, hfault, hmay]; exact hcmd)]

theorem setEng_cmd (g : Glade) (e : Engine) (v : Eng) : (setEng g e v).cmd = g.cmd := by cases e <;> rfl

/-- The first engine of a glade to halt leaves the rest as it is (R138). -/
theorem haltDone_otherWorking {gi : Fin 128} {e : Engine} {s : State} {g : Glade} {v : Eng} (hcmd : g.cmd ≠ 0)
    (hother : engHalted (engOf g (otherEng e)) = false) :
    gladesDone (setGlade s gi.val (setEng g e v)) g.cmd = setGlade s gi.val (setEng g e v) := by
  have hne : setEng g e v ≠ {} := fun h => hcmd (by rw [← setEng_cmd g e v, h])
  have hmem := mem_gladesOf s gi.val (setEng g e v) hne
  rw [setEng_cmd] at hmem
  refine gladesDone_of_working hmem ?_
  rw [gladeOf_setGlade_same]
  cases e
  · exact .inr hother
  · exact .inl hother

theorem exec_deadlock {gi : Fin 128} {s : State} {g : Glade} (hg : g = gladeOf s gi.val) (hcmd : g.cmd ≠ 0) (hstop : g.stopped = false)
    (hae : cannotProceed g .ae = true) (hxe : cannotProceed g .xe = true) (hwork : (engHalted g.ae && engHalted g.xe) = false) :
    exec (.deadlock gi) s = .next (faultGlade s gi.val (if engHalted g.xe then .ae else .xe) stProgram) := by
  show execDeadlock gi s = _
  unfold execDeadlock
  dsimp only
  rw [← hg, hwork, if_pos (by simp [hstop, hae, hxe]; exact hcmd)]

/-- Settles O14: HALT stalls; HALT_DONE, DEADLOCK and GLADE_STOP by their conditions, and the command goes on while a glade of it works. -/
theorem haltDeadlockStopResults : Obligations.HaltDeadlockStopResults := by
  refine ⟨⟨fun i s hi => next_issue _ hi (fun _ => rfl) rfl, ?haltDone⟩, ?deadlock, ?stop⟩
  case haltDone =>
    intro gi e s g hst hreq hstop hfault hcmd hmay hother
    rw [exec_haltDone rfl hst hreq hstop hfault hcmd hmay, haltDone_otherWorking hcmd hother]
  case deadlock =>
    intro gi s g hcmd hstop hae hxe
    refine ⟨fun hx => ?_, fun hx ha => ?_⟩
    · rw [exec_deadlock rfl hcmd hstop hae hxe (by rw [hx, Bool.and_false]), if_neg (by rw [hx]; decide)]; rfl
    · rw [exec_deadlock rfl hcmd hstop hae hxe (by rw [ha, Bool.false_and]), if_pos hx]; rfl
  case stop =>
    intro gi s g s1 hreq hstop
    have hexec : exec (.gladeStop gi) s = .next (settle s1 g.cmd) := by
      show execGladeStop gi s = _
      unfold execGladeStop
      dsimp only
      rw [if_pos (by rw [hreq, hstop]; rfl)]
    exact ⟨hexec, fun hw => by rw [hexec, settle_of_working hw]⟩

end Sys2Proof.Proofs
end

section
/-! Glade programs: meetings, and the 8-byte scalar loads and stores. -/

namespace Sys2Proof.Proofs

open Sys2Proof.Machine Sys2Proof.Safety Sys2Proof.Laws

/-! ### Meetings (R179, R180) -/

theorem counterCheck_counterAt {s : State} {a : Nat} (h : CounterAt s a) : counterCheck s (jobOf s) a = stOk := by
  obtain ⟨halign, hmanaged, hseg, hpoison, htag⟩ := h
  unfold counterCheck
  rw [if_neg (by simp [halign]), if_neg (by rw [hmanaged, Option.isNone_eq_false_iff.mpr hseg]; decide), if_neg (by rw [hpoison]; decide), if_neg (by simp [htag])]

/-- The value of a counter as the model reads it is the 8 bytes at its address. -/
theorem counterAt_toNat (s : State) (a : BitVec 64) : (counterAt s a).toNat = leNat (rdBytes s.mem a.toNat 8) := by
  have hlt := leNat_lt (rdBytes s.mem a.toNat 8)
  rw [rdBytes_length] at hlt
  unfold counterAt
  rw [BitVec.toNat_ofNat, Nat.mod_eq_of_lt hlt]

/-- A counter after 1 has been added to it (R179). -/
theorem leNat_bumpCounter (s : State) (a : Nat) :
    leNat (rdBytes (bumpCounter s a).mem a 8) = (leNat (rdBytes s.mem a 8) + 1) % 2 ^ 64 := by
  have hread : rdBytes (bumpCounter s a).mem a 8 = natLe ((leNat (rdBytes s.mem a 8) + 1) % 2 ^ 64) 8 := by
    have h := rdBytes_wrBytes_same s.mem a (natLe ((leNat (rdBytes s.mem a 8) + 1) % 2 ^ 64) 8)
    rwa [natLe_length] at h
  rw [hread, leNat_natLe]
  omega

/-- The state in which MEET looks at its counter: with 1 added to it where FLAGS[0] asks for it. -/
def meetState (i : GI) (s : State) (a : Nat) : State := if i.flags.getLsbD 0 then bumpCounter s a else s

@[simp] theorem curEng_meetState (i : GI) (s : State) (a : Nat) : curEng (meetState i s a) i = curEng s i := by
  unfold meetState
  split <;> rfl

@[simp] theorem hub_meetState (i : GI) (s : State) (a : Nat) : (meetState i s a).hub = s.hub := by
  unfold meetState
  split <;> rfl

/-- MEET on a counter that it may name and add to: on once the counter has reached sB, else a stall (R179). -/
theorem exec_meet {i : GI} {s : State} {a : Nat} {goal : BitVec 64} (hi : Issues 0x06 { sa := true, sb := true, flags := 1 } i s)
    (ha : a = (sGet (curEng s i) i.sa.toNat).toNat) (hgoal : goal = sGet (curEng s i) i.sb.toNat) (hcounter : CounterAt s a)
    (hadd : i.flags.getLsbD 0 = true → (∃ u, writeCheck s (jobOf s) (placeOf s i.glade.val).eval a 8 tagPublic = .ok (some u)) ∧
      staleHalf s (halfOfGlade i.glade.val) = false) :
    exec (.meet i) s = .next (if goal.toNat ≤ (counterAt (meetState i s a) (BitVec.ofNat 64 a)).toNat then settleOut i (.done (meetState i s a))
      else setCur (meetState i s a) i
        { curEng s i with st := .waitMeet, meetAddr := BitVec.ofNat 64 a, meetGoal := goal, stalledAt := s.hub.time }) := by
  refine next_issue _ hi (fun _ => rfl) ?_
  dsimp only
  rw [← ha, ← hgoal, if_neg (by rw [show (placeOf s i.glade.val).j = jobOf s from rfl, counterCheck_counterAt hcounter]; simp)]
  cases hflag : i.flags.getLsbD 0
  · simp only [meetState, hflag, Bool.false_eq_true, if_false]
    split <;> rfl
  · obtain ⟨⟨u, hu⟩, hfresh⟩ := hadd hflag
    simp only [meetState, hflag, if_true, counterAddCheck, show (placeOf s i.glade.val).j = jobOf s from rfl, hu, hfresh, Bool.false_eq_true, if_false]
    split <;> rfl

/-- What MEET compares with sB. -/
theorem counterAt_meetState (i : GI) (s : State) (v : BitVec 64) : (counterAt (meetState i s v.toNat) (BitVec.ofNat 64 v.toNat)).toNat =
    if i.flags.getLsbD 0 then (leNat (rdBytes s.mem v.toNat 8) + 1) % 2 ^ 64 else leNat (rdBytes s.mem v.toNat 8) := by
  rw [BitVec.ofNat_toNat, BitVec.setWidth_eq, counterAt_toNat]
  unfold meetState
  split
  · exact leNat_bumpCounter s v.toNat
  · rfl

/-- Settles O15: MEET by its counter's value, and its two events by their conditions. -/
theorem meetResults : Obligations.MeetResults := by
  refine ⟨fun i s hi hn hcounter hadd => ?meet, fun gi e s hst hreq hstop hfault hn hgoal => ?release, fun gi e s hst hstop hfault hgoal => ?timeout⟩
  case meet =>
    have hexec := exec_meet hi rfl rfl hcounter hadd
    rw [counterAt_meetState] at hexec
    refine ⟨fun hreached => ?_, fun hbelow => ?_⟩
    · rw [hexec, if_pos hreached, settleOut_done (by simpa only [NextIn, curEng_meetState] using hn), curEng_meetState]
      rfl
    · rw [hexec, if_neg (by omega)]
      rfl
  case release =>
    show execMeetRelease gi e s = _
    unfold execMeetRelease
    dsimp only at *
    rw [if_pos (by rw [counterAt_toNat]; simp [hst, hreq, hstop, hfault, hgoal])]
    exact congrArg _ (goTo_setCur (i := { glade := gi, eng := e }) hn rfl rfl rfl)
  case timeout =>
    show execMeetTimeout gi e s = _
    unfold execMeetTimeout
    dsimp only at *
    rw [if_pos (by rw [counterAt_toNat]; simp [hst, hstop, hfault]; exact hgoal)]
    rfl

/-! ### Scalar loads and stores (R143) -/

/-- LDS: a fault at an address that R143 refuses or on a line that is not PUBLIC, else the 8 bytes in sA. -/
theorem exec_lds {i : GI} {s : State} {pl : Place} {sp a : Nat} (hi : Issues 0x17 { sa := true, sb := true, imm := allImm, flags := 3 } i s)
    (hpl : pl = placeOf s i.glade.val) (hsp : sp = i.flags.toNat % 4) (ha : a = (sGet (curEng s i) i.sb.toNat + i.imm).toNat) :
    (scalarPlace pl sp a false = false → exec (.lds i) s = .next (faultGlade s i.glade.val i.eng stProgram)) ∧
    (∀ (b : Bytes) (t : Tag), scalarPlace pl sp a false = true → spanRead s pl sp a 8 = .ok (b, t) →
      (t = tagPublic → NextIn i s →
        exec (.lds i) s = .next (setCur s i (stepOn (sSet (curEng s i) i.sa.toNat (BitVec.ofNat 64 (leNat b)))))) ∧
      (t ≠ tagPublic → exec (.lds i) s = .next (faultGlade s i.glade.val i.eng stOwnerMix))) := by
  refine ⟨fun hbad => next_issue _ hi (fun _ => rfl) ?_, fun b t hok hread => ⟨fun ht hn => next_issue _ hi (fun _ => rfl) ?_,
    fun ht => next_issue _ hi (fun _ => rfl) ?_⟩⟩ <;> dsimp only <;> rw [← ha, ← hsp, ← hpl]
  · rw [hbad]; rfl
  · rw [hok, hread]
    dsimp only
    rw [if_neg (by simp), if_neg (by simp [ht]), settleOut_sSet hn]
  · rw [hok, hread]
    dsimp only
    rw [if_neg (by simp), if_pos ht]
    rfl

/-- STS into the tile-buffer space: a fault on a line that is not PUBLIC, else a store of sA. -/
theorem exec_sts_buffer {i : GI} {s : State} {pl : Place} {a : Nat} (hi : Issues 0x18 { sa := true, sb := true, imm := allImm, flags := 3 } i s)
    (hpl : pl = placeOf s i.glade.val) (hsp : i.flags.toNat % 4 = 0) (ha : a = (sGet (curEng s i) i.sb.toNat + i.imm).toNat)
    (hok : scalarPlace pl 0 a true = true) :
    (gTag (gladeOf s i.glade.val) a = tagPublic →
      exec (.sts i) s = .next (settleOut i (.done (spanStore s pl 0 a (bvLe (sGet (curEng s i) i.sa.toNat) 8) tagPublic)))) ∧
    (gTag (gladeOf s i.glade.val) a ≠ tagPublic → gTag (gladeOf s i.glade.val) a ≠ tagPoison →
      exec (.sts i) s = .next (faultGlade s i.glade.val i.eng stOwnerMix)) := by
  refine ⟨fun ht => next_issue _ hi (fun _ => rfl) ?_, fun ht hp => next_issue _ hi (fun _ => rfl) ?_⟩ <;>
    dsimp only <;> rw [← ha, hsp, ← hpl, hok, if_neg (by simp), if_pos rfl]
  · rw [ht, if_neg (by decide), if_neg (by simp)]
  · rw [if_neg hp, if_pos ht]
    rfl

/-- STS into device memory, at an address that may be written: a fault on a line that is not PUBLIC, else a store of sA. -/
theorem exec_sts_device {i : GI} {s : State} {pl : Place} {a : Nat} {u : Tag}
    (hi : Issues 0x18 { sa := true, sb := true, imm := allImm, flags := 3 } i s) (hpl : pl = placeOf s i.glade.val)
    (hsp : i.flags.toNat % 4 = 1) (ha : a = (sGet (curEng s i) i.sb.toNat + i.imm).toNat) (hok : scalarPlace pl 1 a true = true)
    (hu : writeCheck s pl.j pl.eval a 8 tagPublic = .ok (some u)) :
    (lineTag s pl.j a = tagPublic →
      exec (.sts i) s = .next (settleOut i (.done (spanStore s pl 1 a (bvLe (sGet (curEng s i) i.sa.toNat) 8) tagPublic)))) ∧
    (lineTag s pl.j a ≠ tagPublic → exec (.sts i) s = .next (faultGlade s i.glade.val i.eng stOwnerMix)) := by
  refine ⟨fun ht => next_issue _ hi (fun _ => rfl) ?_, fun ht => next_issue _ hi (fun _ => rfl) ?_⟩ <;>
    dsimp only <;> rw [← ha, hsp, ← hpl, hok, hu, if_neg (by simp), if_neg (by decide)] <;> dsimp only
  · rw [if_neg (by simp [ht])]
  · rw [if_pos ht]
    rfl

/-- The address of a scalar access is a multiple of 8 (R143). -/
theorem aligned_of_scalarPlace {pl : Place} {sp a : Nat} {st : Bool} (h : scalarPlace pl sp a st = true) : a % 8 = 0 := by
  unfold scalarPlace at h
  rw [Bool.and_eq_true] at h
  simpa using h.1

/-- An 8-byte store at an aligned address of device memory is the store of one line. -/
theorem spanStore_word {s : State} {pl : Place} {a : Nat} {b : Bytes} {u : Tag} (hb : b.length = 8) (ha : a % 8 = 0)
    (hfresh : staleHalf s (halfOfGlade pl.gi) = false) (hu : writeCheck s pl.j pl.eval a 8 tagPublic = .ok (some u)) :
    spanStore s pl 1 a b tagPublic = storeLine s pl.j a b u := by
  simp only [spanStore, hfresh, Bool.false_eq_true, if_false, pieces_eight a b hb ha, storePieces, writeLine, hb, hu]

/-- A store in the buffer leaves its bytes in the glade's memory, device memory as it is, and the engine to move on. -/
theorem sts_buffer_result {i : GI} {s : State} {pl : Place} {a : Nat} {b : Bytes} {t : Tag} (hpl : pl.gi = i.glade.val) (hn : NextIn i s) :
    let u := settleOut i (.done (spanStore s pl 0 a b t))
    curEng u i = stepOn (curEng s i) ∧ (gladeOf u i.glade.val).mem = wrBytes (gladeOf s i.glade.val).mem a b ∧ u.mem = s.mem := by
  obtain ⟨tg, hstore⟩ := gStore_rest (gladeOf s i.glade.val) a b t
  have heng : engOf (gStore (gladeOf s i.glade.val) a b t) i.eng = curEng s i := by rw [hstore]; exact engOf_congr rfl rfl _
  have hs : spanStore s pl 0 a b t = setGlade s i.glade.val (gStore (gladeOf s i.glade.val) a b t) := by rw [spanStore, hpl]
  dsimp only
  rw [hs, settleOut_done (by simpa only [NextIn, curEng_setGlade, heng] using hn), curEng_setGlade, heng]
  refine ⟨curEng_setCur _ _ _, ?_, rfl⟩
  rw [setCur_setGlade, gladeOf_setGlade_same, hstore]
  cases i.eng <;> rfl

/-- A store of a line of device memory leaves its bytes over what was seen of the line, and the engine to move on. -/
theorem sts_device_result {i : GI} {s : State} {j : Job} {a : Nat} {b : Bytes} {t : Tag} (hn : NextIn i s) :
    let u := settleOut i (.done (storeLine s j a b t))
    curEng u i = stepOn (curEng s i) ∧ u.mem = wrBytes (seenMem s j [a]) a b := by
  have hc : curEng (storeLine s j a b t) i = curEng s i := by
    obtain ⟨_, _, _, _, _, _, _, h⟩ := storeLine_rest s j a b t
    rw [h]; rfl
  dsimp only
  rw [settleOut_done (by simpa only [NextIn, hc] using hn), hc]
  exact ⟨curEng_setCur _ _ _, storeLine_mem s j a b t⟩

/-- Settles O16: LDS by what it reads; STS by the tag of its line, in the tile-buffer space and in device memory. -/
theorem scalarLoadStoreResults : Obligations.ScalarLoadStoreResults := by
  intro i s hn e a pl sp
  refine ⟨fun hi => ⟨(exec_lds hi rfl rfl rfl).1, fun b t hok hread => ?_⟩, fun hi => ⟨fun hbad => ?refused, fun hok hsp => ?buffer,
    fun u hok hsp hu => ?device⟩⟩
  · obtain ⟨hpublic, hother⟩ := (exec_lds hi rfl rfl rfl).2 b t hok hread
    exact ⟨fun ht => hpublic ht hn, hother⟩
  case refused =>
    refine next_issue _ hi (fun _ => rfl) ?_
    dsimp only
    rw [if_pos (by rw [hbad]; rfl)]
    rfl
  case buffer =>
    rw [hsp] at hok
    obtain ⟨hpublic, hother⟩ := exec_sts_buffer hi rfl hsp rfl hok
    exact ⟨fun ht => ⟨_, hpublic ht, sts_buffer_result rfl hn⟩, hother⟩
  case device =>
    rw [hsp] at hok
    obtain ⟨hpublic, hother⟩ := exec_sts_device hi rfl hsp rfl hok hu
    refine ⟨fun ht hfresh => ?_, hother⟩
    have hexec := hpublic ht
    rw [spanStore_word (bvLe_length _ _) (aligned_of_scalarPlace hok) hfresh hu] at hexec
    obtain ⟨heng, hmem⟩ := sts_device_result (i := i) (s := s) (j := pl.j) (a := a) (b := bvLe (sGet e i.sa.toNat) 8) (t := u) hn
    refine ⟨_, hexec, heng, hmem, fun hheld d hd => ?_⟩
    rw [hmem, seenMem_of_not_held (by simpa using hheld)]
    exact rd1_wrBytes_outside _ _ _ (by rw [bvLe_length]; omega)

end Sys2Proof.Proofs
end

section
/-! Starting glades: what a started glade holds, and the command RUN. -/

namespace Sys2Proof.Proofs

open Sys2Proof.Machine Sys2Proof.Safety Sys2Proof.Laws

/-! ### Writing a list of entries into a table -/

/-- A key that the list does not write keeps its entry. -/
theorem tget_foldl_tset_notMem {α : Type} [DecidableEq α] (d : α) (l : List (Nat × α)) (t : Tab α) {k : Nat} (h : k ∉ l.map (·.1)) :
    tget d (l.foldl (fun t r => tset d t r.1 r.2) t) k = tget d t k := by
  induction l generalizing t with
  | nil => rfl
  | cons x r ih =>
    rw [List.map_cons, List.mem_cons, not_or] at h
    rw [List.foldl_cons, ih _ h.2, tget_tset_ne d t x.2 h.1]

/-- A key that the list writes once takes that entry. -/
theorem tget_foldl_tset_mem {α : Type} [DecidableEq α] (d : α) (l : List (Nat × α)) (t : Tab α) {k : Nat} {v : α} (hn : (l.map (·.1)).Nodup)
    (h : (k, v) ∈ l) : tget d (l.foldl (fun t r => tset d t r.1 r.2) t) k = v := by
  induction l generalizing t with
  | nil => cases h
  | cons x r ih =>
    rw [List.map_cons, List.nodup_cons] at hn
    rw [List.foldl_cons]
    rcases List.mem_cons.mp h with rfl | h
    · rw [tget_foldl_tset_notMem d r _ hn.1, tget_tset_same]
    · exact ih _ hn.2 h

theorem mem_numbered {α : Type} (l : List α) {k : Nat} (h : k < l.length) : (k, l[k]) ∈ numbered l := by
  unfold numbered
  rw [List.mem_iff_getElem]
  exact ⟨k, by simpa using h, by simp⟩

theorem numbered_keys {α : Type} (l : List α) : (numbered l).map (·.1) = List.range l.length := by
  unfold numbered
  rw [List.map_fst_zip]
  simp

/-! ### A started glade (R127) -/

/-- The registers that a command sets when it starts a glade, by their numbers (R127). -/
def startRegs (g rank n : Nat) (args : List (BitVec 64)) : List (Nat × BitVec 64) :=
  [(1, BitVec.ofNat 64 g), (2, BitVec.ofNat 64 rank), (3, BitVec.ofNat 64 n)] ++ (numbered args).map (fun x => (4 + x.1, x.2))

theorem startRegs_keys (g rank n : Nat) (args : List (BitVec 64)) :
    (startRegs g rank n args).map (·.1) = [1, 2, 3] ++ (List.range args.length).map (4 + ·) := by
  rw [← numbered_keys args, List.map_map]
  simp [startRegs]

theorem startRegs_nodup (g rank n : Nat) (args : List (BitVec 64)) : ((startRegs g rank n args).map (·.1)).Nodup := by
  rw [startRegs_keys, List.nodup_append]
  refine ⟨by decide, List.nodup_range.map (fun _ _ h => Nat.add_left_cancel h), fun a ha b hb hab => ?_⟩
  obtain ⟨k, _, rfl⟩ := List.mem_map.mp hb
  simp at ha
  omega

theorem sGet_startEng {entry fin g rank n : Nat} {args : List (BitVec 64)} {r : Nat} (hr : r ≠ 0) :
    sGet (startEng entry fin g rank n args) r = tget 0 ((startRegs g rank n args).foldl (fun t x => tset 0 t x.1 x.2) []) r := by
  unfold sGet
  rw [if_neg hr]
  rfl

theorem sGet_startEng_of_mem {entry fin g rank n : Nat} {args : List (BitVec 64)} {r : Nat} {v : BitVec 64} (hr : r ≠ 0)
    (h : (r, v) ∈ startRegs g rank n args) : sGet (startEng entry fin g rank n args) r = v := by
  rw [sGet_startEng hr]
  exact tget_foldl_tset_mem 0 _ [] (startRegs_nodup g rank n args) h

theorem sGet_startEng_of_unset {entry fin g rank n : Nat} {args : List (BitVec 64)} {r : Nat} (hr : 4 + args.length ≤ r) :
    sGet (startEng entry fin g rank n args) r = 0 := by
  rw [sGet_startEng (by omega), tget_foldl_tset_notMem]
  · rfl
  · rw [startRegs_keys]
    simp only [List.mem_append, List.mem_map, List.mem_range, not_or, not_exists, not_and]
    exact ⟨by simp; omega, fun x hx h => by omega⟩

theorem sGet_startEng_arg {entry fin g rank n : Nat} {args : List (BitVec 64)} (r : Nat) :
    sGet (startEng entry fin g rank n args) (4 + r) = args.getD r 0 := by
  by_cases h : r < args.length
  · rw [sGet_startEng_of_mem (by omega) (List.mem_append_right _ (List.mem_map.mpr ⟨_, mem_numbered args h, rfl⟩)), List.getD_eq_getElem _ _ h]
  · rw [sGet_startEng_of_unset (by omega), List.getD_eq_default _ _ (by omega)]

/-- Each engine of a started glade is at the start of a command. -/
theorem engOf_startGlade (s : State) (p : Prog) (acc : BitVec 64) (slot : Byte) (g rank n : Nat) (args : List (BitVec 64)) (e : Engine) :
    ∃ entry fin, engOf (gladeOf (startGlade s p acc slot g rank n args) g) e = startEng entry fin g rank n args := by
  unfold startGlade
  rw [gladeOf_setGlade_same]
  cases e <;> exact ⟨_, _, rfl⟩

/-- Settles O30: each register of a started engine is one that the command sets, or 0. -/
theorem startedGlade : Obligations.StartedGlade := by
  intro s p acc slot g rank n args k hlen hk
  have hglade : ∀ e, ∃ entry fin, engOf k e = startEng entry fin g rank n args := hk ▸ engOf_startGlade s p acc slot g rank n args
  refine ⟨fun e => ?_, ?_⟩
  · obtain ⟨entry, fin, he⟩ := hglade e
    rw [he]
    refine ⟨rfl, fun _ => rfl, sGet_startEng_of_mem (by decide) ?_, sGet_startEng_of_mem (by decide) ?_, sGet_startEng_of_mem (by decide) ?_,
      fun r _ => sGet_startEng_arg r, fun r hr => sGet_startEng_of_unset (by omega), rfl, rfl, fun _ => rfl⟩ <;> simp [startRegs]
  · unfold startGlade at hk ⊢
    rw [gladeOf_setGlade_same] at hk
    subst hk
    exact ⟨fun _ => ⟨rfl, rfl⟩, rfl, rfl, rfl, rfl, rfl, fun h hh => gladeOf_setGlade_ne _ _ hh⟩

/-! ### RUN (R124, R293, R392, R402) -/

/-- What a RUN that has passed its checks waits for (R124, R293, R321, R402). -/
theorem runWaits_iff {s : State} {c : Cmd} {j : Job} {gs : List Nat} :
    (gs.any (gladeHeld s) || (hdrFlag c 0 && !evalFree s c) || !gladesFree s gs || frameWaits s j gs || earlierRun s c gs) = true ↔
    (∃ g ∈ gs, gladeHeld s g = true) ∨ (∃ g ∈ gs, (gladeOf s g).cmd ≠ 0 ∨ halfActs s g = false) ∨
      (hdrFlag c 0 = true ∧ evalFree s c = false) ∨ frameWaits s j gs = true ∨ earlierRun s c gs = true := by
  have hbusy : (!gladesFree s gs) = true ↔ ∃ g ∈ gs, (gladeOf s g).cmd ≠ 0 ∨ halfActs s g = false := by
    unfold gladesFree
    rw [Bool.not_eq_true', List.all_eq_false]
    simp only [Bool.and_eq_true, decide_eq_true_eq, not_and_or, Bool.not_eq_true]
  rw [Bool.or_eq_true, Bool.or_eq_true, Bool.or_eq_true, Bool.or_eq_true, hbusy, List.any_eq_true, Bool.and_eq_true, Bool.not_eq_true']
  simp only [or_assoc]
  exact or_congr_right or_left_comm

/-- Settles O29: the checks of RUN in their order; where none of them decides it waits, wakes its domains or starts its glades. -/
theorem runResults : Obligations.RunResults := by
  intro acc s c j p gs hready hj hph hp hgs
  have hexec : exec (.run acc) s = _ := onJob_eq hready hj
  dsimp only at hexec
  rw [← hgs, ← hp, if_neg (by simp [hph])] at hexec
  refine ⟨fun hnone => ?_, fun hsome hfenced => ?_, fun hsome hclear => ⟨fun heval hserves => ?_, fun hserves => ⟨fun hempty => ?_,
    fun hprog hwaits => ?_, fun hprog hfree hupdates hframe hearlier => ?_⟩⟩⟩
  · rw [hexec, if_pos hnone]
  · rw [hexec, if_neg hsome, if_pos (by simpa using hfenced)]
  all_goals rw [if_neg hsome, if_neg (by simpa using hclear)] at hexec
  · rw [hexec, if_pos (by simp [heval, hserves])]
  all_goals rw [if_neg (by simpa using hserves)] at hexec
  · rw [hexec, if_pos hempty]
  all_goals rw [if_neg hprog] at hexec
  · rw [hexec, if_pos (runWaits_iff.mpr hwaits)]
  · rw [if_neg ?goes] at hexec
    · refine ⟨fun hnot => ?_, fun hup => ?_⟩
      · rw [hexec, if_pos (by simp [hnot])]
      · rw [hexec, if_neg (by simp [hup])]
    case goes =>
      intro hwait
      rcases runWaits_iff.mp hwait with ⟨g, hg, hheld⟩ | ⟨g, hg, hbusy⟩ | ⟨heval, hnot⟩ | hf | he
      · simp [(hfree g hg).1] at hheld
      · obtain ⟨_, hcmd, hacts⟩ := hfree g hg
        simp [hcmd, hacts] at hbusy
      · simp [hupdates heval] at hnot
      · simp [hframe] at hf
      · simp [hearlier] at he

end Sys2Proof.Proofs
end

section
/-! The vector and special-function unit: VOP, SFU, SEL and STAT_RD over tiles of PUBLIC lines in the glade's own buffer. -/

namespace Sys2Proof.Proofs

open Sys2Proof.Machine Sys2Proof.Safety Sys2Proof.Laws

/-! ### VOP (R161 to R163) -/

/-- A row reduction of VOP, its tiles and its code accepted. -/
theorem exec_vop_reduce {i : GI} {s : State} {a b : Td} {pl : Place} {f : List (BitVec 32) → R32}
    (hi : Issues 0x34 { ta := true, tb := true, tc := true, sb := true, flags := 0x7F, only := some .xe, steps := true } i s)
    (ha : a = tdGet (curEng s i) i.ta.toNat) (hb : b = tdGet (curEng s i) i.tb.toNat) (hpl : pl = placeOf s i.glade.val)
    (hdst : vecDst pl a = true) (hsrc : vecSrc pl b = true) (hrows : tRows a = tRows b)
    (hflags : (i.flags.getLsbD 5 && i.flags.getLsbD 6) = false) (hreduce : i.flags.getLsbD 4 = true)
    (hf : reduceFn (i.flags.toNat % 16) = some f) :
    exec (.vop i) s = .next (settleOut i (closeAcc i (tStoch a) (runRows (reduceRow pl f a b) (tRows a) { s := s }))) := by
  refine next_issue _ hi (fun _ => rfl) ?_
  dsimp only
  rw [← ha, ← hb, ← hpl, hflags, hdst, hsrc, if_neg (by simp [hrows]), if_pos hreduce, hf, startAcc_of_issues hi rfl]

/-- An elementwise VOP, its tiles and its code accepted. -/
theorem exec_vop_elementwise {i : GI} {s : State} {a b : Td} {pl : Place} {f : BitVec 32 → BitVec 32 → BitVec 32 → R32} {src : BSrc}
    (hi : Issues 0x34 { ta := true, tb := true, tc := true, sb := true, flags := 0x7F, only := some .xe, steps := true } i s)
    (ha : a = tdGet (curEng s i) i.ta.toNat) (hb : b = tdGet (curEng s i) i.tb.toNat) (hpl : pl = placeOf s i.glade.val)
    (hdst : vecDst pl a = true) (hsrc : vecSrc pl b = true) (hrows : tRows a = tRows b) (hcols : tCols a = tCols b)
    (hflags : (i.flags.getLsbD 5 && i.flags.getLsbD 6) = false) (helement : i.flags.getLsbD 4 = false)
    (hf : vopFn (i.flags.toNat % 16) = some f)
    (hoperand : src = (if !vopUsesB (i.flags.toNat % 16) then .none
      else if i.flags.getLsbD 5 then .scalar ((sGet (curEng s i) i.sb.toNat).setWidth 32)
      else if i.flags.getLsbD 6 then .bcast (tdGet (curEng s i) i.tc.toNat) else .tile (tdGet (curEng s i) i.tc.toNat)))
    (htile : ∀ t, src = .tile t → vecSrc pl t = true ∧ tRows t = tRows a ∧ tCols t = tCols a)
    (hbcast : ∀ t, src = .bcast t → vecSrc pl t = true ∧ tRows t = tRows a) :
    exec (.vop i) s = .next (settleOut i (closeAcc i (tStoch a)
      (runRows (vopRow pl f (decide (i.flags.toNat % 16 = 3)) a b src) (tRows a) { s := s }))) := by
  have haccept : ∀ {p q : Bool}, p = false → q = true → ¬ (p || !q) = true := by rintro _ _ rfl rfl; decide
  refine next_issue _ hi (fun _ => rfl) ?_
  dsimp only
  rw [← ha, ← hb, ← hpl, hflags, hdst, hsrc, if_neg (by simp [hrows]), if_neg (by rw [helement]; decide), hf]
  dsimp only
  rw [← hoperand, startAcc_of_issues hi rfl]
  exact congrArg (settleOut i) (if_neg (haccept (by simp [hcols]) (bsrc_ok pl a src htile hbcast)))

/-- A memory after row `r` of an elementwise operation: its results on the rows of `b` and of operands `y` and `z`, encoded into `a`'s row. -/
def vopMem (s : State) (g : Nat) (f : BitVec 32 → BitVec 32 → BitVec 32 → R32) (a b : Td) (y z : BSrc) (m : Mem) (r : Nat) : Mem :=
  putVals m a r (roundAt s g a r) (((memVals m b r).zip ((memB m y r (tCols b)).zip (memB m z r (tCols b)))).map (fun v => (f v.1 v.2.1 v.2.2).v))

/-- The rows of an elementwise operation in order; `z` is the existing element where the operation takes it. -/
theorem rowsDone_vop {i : GI} {s : State} {rc : Bool} {a b : Td} {y z : BSrc} {fma : Bool} {f : BitVec 32 → BitVec 32 → BitVec 32 → R32} (n : Nat)
    (hn : NextIn i s) (htags : (gladeOf s i.glade.val).tags = []) (hbufA : InBuffer a) (hbufB : InBuffer b)
    (hbufY : ∀ t, y = .tile t ∨ y = .bcast t → InBuffer t) (hcolsY : ∀ t, y = .tile t → tCols t = tCols b) (hcols : tCols a = tCols b)
    (hz : z = if fma then .tile a else .none) :
    RowsDone i rc s (settleOut i (closeAcc i rc (runRows (vopRow (placeOf s i.glade.val) f fma a b y) n { s := s })))
      ((List.range n).foldl (fun k r => { k with mem := vopMem s i.glade.val f a b y z k.mem r }) (gladeOf s i.glade.val)) := by
  subst hz
  exact rows_put hn htags (fun r _ x k hx ho ht hc hr => vopRow_step rfl hbufA hbufB hbufY hcolsY hcols hx ho ht hc hr)

/-- A memory after row `r` of a row reduction: its result in column 0 (R161, R163). -/
def reduceMem (s : State) (g : Nat) (f : List (BitVec 32) → R32) (a b : Td) (m : Mem) (r : Nat) : Mem :=
  putSel m a r (roundAt s g a r) ((f (memVals m b r)).v :: List.replicate (tCols a - 1) 0) (fun c => c = 0)

/-- Settles O17: a reduction or an elementwise operation runs its rows in order, each row's results over the memory that the rows before
it left. -/
theorem vopRowResults : Obligations.VopRowResults := by
  intro i s a b op hi hn ha hb hop htags hbufA hbufB hdst hsrc hrows hflags
  subst hop
  refine ⟨fun f hreduce hf => ?reduce, fun f src helement hf hcols hoperand htile hbcast => ?elementwise⟩
  case reduce =>
    refine ⟨_, exec_vop_reduce hi ha hb rfl hdst hsrc hrows hflags hreduce hf, ?_⟩
    exact rows_put (F := reduceMem s i.glade.val f a b) hn htags
      (fun r _ x k hx ho ht hc hr => reduceRow_step rfl hbufA hbufB hx ho ht hc hr)
  case elementwise =>
    refine ⟨_, exec_vop_elementwise hi ha hb rfl hdst hsrc hrows hcols hflags helement hf hoperand (fun t ht => (htile t ht).2)
      (fun t ht => (hbcast t ht).2), ?_⟩
    have hexisting : (if i.flags.toNat % 16 = 3 then BSrc.tile a else .none) = if decide (i.flags.toNat % 16 = 3) then .tile a else .none := by
      by_cases h : i.flags.toNat % 16 = 3 <;> simp [h]
    exact rowsDone_vop (tRows a) hn htags hbufA hbufB (fun t ht => ht.elim (fun h => (htile t h).1) (fun h => (hbcast t h).1))
      (fun t ht => (htile t ht).2.2.2.trans hcols) hcols hexisting

/-! ### SFU, SEL and STAT_RD (R164 to R166) -/

/-- A map over pairs that looks at the first list alone, where the second is long enough. -/
theorem zip_map_fst {α β γ : Type} {l : List α} {m : List β} {f : α → γ} (h : l.length ≤ m.length) :
    (l.zip m).map (fun v => f v.1) = l.map f := by
  conv_rhs => rw [← List.map_fst_zip h]
  rw [List.map_map]
  rfl

/-- An operation that takes `b` alone (R165). -/
theorem vopMem_unary (s : State) (g : Nat) (f : BitVec 32 → R32) (a b : Td) (m : Mem) (r : Nat) :
    vopMem s g (fun v _ _ => f v) a b .none .none m r = putVals m a r (roundAt s g a r) ((memVals m b r).map (fun v => (f v).v)) := by
  unfold vopMem
  rw [zip_map_fst (f := fun v => (f v).v) (by simp [memVals_length, memB])]

/-- A memory after row `r` of SEL: the elements of `c` where those of `b` are neither zero nor NaN (R164). -/
def selMem (s : State) (g : Nat) (a b c : Td) (m : Mem) (r : Nat) : Mem :=
  putSel m a r (roundAt s g a r) (memVals m c r) (fun n => ((memVals m b r).map (fun v => !isZero32 v && !isNan32 v)).getD n false)

theorem exec_sfu {i : GI} {s : State} {a b : Td} {pl : Place} {f : BitVec 32 → R32}
    (hi : Issues 0x36 { ta := true, tb := true, flags := 7, only := some .xe, steps := true } i s)
    (ha : a = tdGet (curEng s i) i.ta.toNat) (hb : b = tdGet (curEng s i) i.tb.toNat) (hpl : pl = placeOf s i.glade.val)
    (hdst : vecDst pl a = true) (hsrc : vecSrc pl b = true) (hrows : tRows a = tRows b) (hcols : tCols a = tCols b)
    (hf : sfuFn (i.flags.toNat % 8) = some f) :
    exec (.sfu i) s = .next (settleOut i (closeAcc i (tStoch a)
      (runRows (vopRow pl (fun v _ _ => f v) false a b .none) (tRows a) { s := s }))) := by
  refine next_issue _ hi (fun _ => rfl) ?_
  dsimp only
  rw [hf, ← ha, ← hb, ← hpl, hdst, hsrc]
  dsimp only
  rw [if_neg (by simp [hrows, hcols]), startAcc_of_issues hi rfl]

theorem exec_sel {i : GI} {s : State} {a b c : Td} {pl : Place}
    (hi : Issues 0x35 { ta := true, tb := true, tc := true, only := some .xe, steps := true } i s)
    (ha : a = tdGet (curEng s i) i.ta.toNat) (hb : b = tdGet (curEng s i) i.tb.toNat) (hc : c = tdGet (curEng s i) i.tc.toNat)
    (hpl : pl = placeOf s i.glade.val) (hdst : vecDst pl a = true) (hsrcB : vecSrc pl b = true) (hsrcC : vecSrc pl c = true)
    (hrowsB : tRows a = tRows b) (hcolsB : tCols a = tCols b) (hrowsC : tRows a = tRows c) (hcolsC : tCols a = tCols c) :
    exec (.sel i) s = .next (settleOut i (closeAcc i (tStoch a) (runRows (selRow pl a b c) (tRows a) { s := s }))) := by
  refine next_issue _ hi (fun _ => rfl) ?_
  dsimp only
  rw [← ha, ← hb, ← hc, ← hpl, hdst, hsrcB, hsrcC, if_neg (by simp [← hrowsB, ← hrowsC, ← hcolsB, ← hcolsC]), startAcc_of_issues hi rfl]

/-- The row of STAT_RD: the slot's largest magnitude, its vanish count, and zeros behind (R166). -/
def statCodes (q : Stat) (a : Td) : List Nat := [q.amax.toNat, q.vanish.toNat] ++ List.replicate (tCols a - 2) 0

/-- STAT_RD of a PUBLIC slot into a tile of the buffer whose lines are PUBLIC. -/
theorem exec_statRd {i : GI} {s : State} {a : Td} {k : Glade} {q : Stat} (hi : Issues 0x37 { ta := true, imm := 63, only := some .xe } i s)
    (ha : a = tdGet (curEng s i) i.ta.toNat) (hk : k = gladeOf s i.glade.val) (hq : q = statOf k (i.imm.toNat % 64))
    (htags : k.tags = []) (hpublic : q.tag = tagPublic) (hbuf : InBuffer a) (hdst : tdDst (placeOf s i.glade.val) a = true)
    (hfmt : tFmt a = fmtW32) (hcols : 2 ≤ tCols a) :
    exec (.statRd i) s = .next (settleOut i (closeAcc i false
      { s := setGlade s i.glade.val { k with mem := putRow k.mem a 0 (statCodes q a) [] } })) := by
  refine next_issue _ hi (fun _ => rfl) ?_
  subst hk
  dsimp only
  rw [← ha, ← hq, hdst, if_neg (by simp [hfmt]; omega), hpublic, writeRow_buffer 0 _ _ hbuf htags]
  rfl

/-- Settles O18: SFU and SEL run their rows in order, and STAT_RD writes one row. -/
theorem sfuSelStatResults : Obligations.SfuSelStatResults := by
  refine ⟨fun i s a b c hn ha hb hc htags hbufA hbufB hdst hsrc hrows hcols => ⟨fun f hi hf => ?sfu, fun hi hbufC hsrcC hrowsC hcolsC => ?sel⟩,
    fun i s a q hi hn ha hq htags hpublic hbuf hdst hfmt hcols => ?stat⟩
  case sfu =>
    refine ⟨_, exec_sfu hi ha hb rfl hdst hsrc hrows hcols hf, ?_⟩
    have hdone := rowsDone_vop (rc := tStoch a) (f := fun v _ _ => f v) (y := .none) (z := .none) (fma := false) (tRows a) hn htags hbufA
      hbufB (by simp) (by simp) hcols rfl
    simp only [vopMem_unary] at hdone
    exact hdone
  case sel =>
    refine ⟨_, exec_sel hi ha hb hc rfl hdst hsrc hsrcC hrows hcols hrowsC hcolsC, ?_⟩
    exact rows_put (F := selMem s i.glade.val a b c) hn htags
      (fun r _ x k hx ho ht hc hr => selRow_step rfl hbufA hbufB hbufC hx ho ht hc hr)
  case stat =>
    refine ⟨_, exec_statRd hi ha rfl hq htags hpublic hbuf hdst hfmt hcols, ?_⟩
    exact rowsDone ⟨rfl, rfl, rfl⟩ rfl ⟨.inr ⟨_, rfl⟩, gladeOf_setGlade_same _ _ _⟩ (engOf_mem _ _ _) hn

end Sys2Proof.Proofs
end

section
/-! Moves of tiles: LD_T, LD_G and ST_T, the prefetch PF, and XFER. -/

namespace Sys2Proof.Proofs

open Sys2Proof.Machine Sys2Proof.Safety Sys2Proof.Laws

/-! ### Steps that no stop cuts (R126) -/

theorem whole_start (s : State) : Whole { s := s } := ⟨rfl, rfl, rfl⟩

theorem whole_oneStep {f : Acc → Acc} {a : Acc} (h : Whole a) : Whole (oneStep f a) := by
  obtain ⟨hskip, hquota, hcut⟩ := h
  unfold oneStep
  split
  · exact ⟨hskip, hquota, hcut⟩
  · split
    · exact ⟨hskip, hquota, hcut⟩
    · split
      next hq => simp [hquota] at hq
      next => exact ⟨hskip, hquota, rfl⟩

theorem whole_runSteps {α : Type} {f : α → Acc → Acc} (l : List α) {a : Acc} (h : Whole a) : Whole (runSteps f l a) := by
  unfold runSteps
  induction l generalizing a with
  | nil => exact h
  | cons x r ih => exact ih (whole_oneStep h)

theorem oneStep_ok {f : Acc → Acc} {a : Acc} (h : Whole a) (ha : a.err = 0) (hf : (f a).err = 0) :
    (oneStep f a).err = 0 ∧ (oneStep f a).s = (f a).s := by
  obtain ⟨hskip, hquota, hcut⟩ := h
  simp [oneStep, ha, hf, hskip, hquota, hcut]

/-! ### LD_T, ST_T and LD_G run their steps (R144, R145, R147) -/

/-- The steps of a whole tile, row by row (R126). -/
def tileMoves (a b : Td) : List (List Move) := (List.range (tRows a)).flatMap (fun r => rowMoves b a r r)

theorem exec_ldT {i : GI} {s : State} {a b : Td} {pl : Place} {x : Acc}
    (hi : Issues 0x20 { ta := true, tb := true, only := some .ae, steps := true } i s)
    (ha : a = tdGet (curEng s i) i.ta.toNat) (hb : b = tdGet (curEng s i) i.tb.toNat) (hpl : pl = placeOf s i.glade.val)
    (hdst : tdDst pl a = true) (hsrc : tdOk pl b = true) (hspace : tSpace a = 0) (hfmt : a.fmt = b.fmt) (hblk : a.blk = b.blk)
    (hrows : a.rows = b.rows) (hcols : a.cols = b.cols) (hx : x = runSteps (moveStep pl) (tileMoves a b) { s := s }) :
    exec (.ldT i) s = .next (settleOut i (closeAcc i false
      { x with s := if x.cut then x.s else cacheLines x.s pl.j i.glade.val true (tileLines b) })) := by
  refine next_issue _ hi (fun _ => rfl) ?_
  unfold moveTile
  dsimp only
  rw [← ha, ← hb, ← hpl, if_neg (by simp [hdst, hsrc, hspace, hfmt, hblk, hrows, hcols]), startAcc_of_issues hi rfl]
  simp only [Bool.false_or]
  subst hx
  rfl

theorem exec_stT {i : GI} {s : State} {a b : Td} {pl : Place}
    (hi : Issues 0x21 { ta := true, tb := true, only := some .ae, steps := true } i s)
    (ha : a = tdGet (curEng s i) i.ta.toNat) (hb : b = tdGet (curEng s i) i.tb.toNat) (hpl : pl = placeOf s i.glade.val)
    (hdst : tdDst pl a = true) (hsrc : tdOk pl b = true) (hspaceA : tSpace a = 1) (hspaceB : tSpace b = 0) (hfmt : a.fmt = b.fmt)
    (hblk : a.blk = b.blk) (hrows : a.rows = b.rows) (hcols : a.cols = b.cols) :
    exec (.stT i) s = .next (settleOut i (closeAcc i false (runSteps (moveStep pl) (tileMoves a b) { s := s }))) := by
  refine next_issue _ hi (fun _ => rfl) ?_
  unfold moveTile
  dsimp only
  rw [← ha, ← hb, ← hpl, if_neg (by simp [hdst, hsrc, hspaceA, hspaceB, hfmt, hblk, hrows, hcols]), startAcc_of_issues hi rfl]
  rfl

theorem exec_ldG {i : GI} {s : State} {a b : Td} {pl : Place} {list n : Nat} {x : Acc}
    (hi : Issues 0x22 { ta := true, tb := true, sa := true, sb := true, only := some .ae, steps := true } i s)
    (ha : a = tdGet (curEng s i) i.ta.toNat) (hb : b = tdGet (curEng s i) i.tb.toNat) (hpl : pl = placeOf s i.glade.val)
    (hlist : list = (sGet (curEng s i) i.sa.toNat).toNat) (hcount : n = (sGet (curEng s i) i.sb.toNat).toNat)
    (hdst : tdDst pl a = true) (hsrc : tdOk pl b = true) (hspace : tSpace a = 0) (hfmt : a.fmt = b.fmt) (hblk : a.blk = b.blk)
    (hcols : a.cols = b.cols) (hn : n ≤ tRows a) (halign : list % 4 = 0) (hscratch : inScratch (jobOf s) list (4 * n) = true)
    (hx : x = runRows (gatherRow pl a b list) n { s := s }) :
    exec (.ldG i) s = .next (settleOut i (closeAcc i false
      { x with s := if x.cut then x.s else cacheLines x.s pl.j i.glade.val true (tileLines b) })) := by
  have hscratch' : inScratch pl.j list (4 * n) = true := hpl ▸ hscratch
  refine next_issue _ hi (fun _ => rfl) ?_
  dsimp only
  rw [← ha, ← hb, ← hpl, ← hlist, ← hcount, if_neg (by simp [hdst, hsrc, hspace, hfmt, hblk, hcols, halign, hscratch', hn]),
    startAcc_of_issues hi rfl, ← hx]

/-! ### Loads inside the buffer or from the image (R126, R144, R147) -/

/-- A glade with another memory, its other fields as they were. -/
def OnMem (s : State) (g : Nat) (t : State) (m : Mem) : Prop := OnGlade s g t { gladeOf s g with mem := m }

/-- A step of a load inside the buffer or from the image, among PUBLIC lines. -/
theorem moveStep_onMem {s : State} {pl : Place} {l : List Move} {x : Acc} {m : Mem} (htags : (gladeOf s pl.gi).tags = [])
    (hl : ∀ p ∈ l, MovOk p) (hx : x.err = 0) (ho : OnMem s pl.gi x.s m) :
    (moveStep pl l x).err = 0 ∧ OnMem s pl.gi (moveStep pl l x).s (moveMem pl.prog.image m l) := by
  obtain ⟨herr, _, hon⟩ := moveStep_own (g := gladeOf s pl.gi) hl hx ho htags
  exact ⟨herr, hon⟩

/-- A gather that has met an entry which names no row stays without a result. -/
theorem foldl_gatherMem_none (img : Mem) (a b : Td) (list : Nat) (l : List Nat) : l.foldl (gatherMem img a b list) none = none := by
  induction l with
  | nil => rfl
  | cons r q ih => exact ih

/-- The rows of a gather, among PUBLIC lines of the buffer, where each entry of its list names a row (R147). -/
theorem gather_fold {s : State} {pl : Place} {a b : Td} {list : Nat} (htags : (gladeOf s pl.gi).tags = []) (ha : InBuffer a) (hfmt : a.fmt = b.fmt)
    (hspace : tSpace b ≠ 1) (hsspace : isBlock (tFmt b) = true → b.sspace ≠ 1) (l : List Nat) {x : Acc} {m m' : Mem} (hw : Whole x)
    (hx : x.err = 0) (ho : OnMem s pl.gi x.s m) (hm : l.foldl (gatherMem pl.prog.image a b list) (some m) = some m') :
    (runSteps (gatherRow pl a b list) l x).err = 0 ∧ OnMem s pl.gi (runSteps (gatherRow pl a b list) l x).s m' := by
  induction l generalizing x m with
  | nil => cases hm; exact ⟨hx, ho⟩
  | cons r q ih =>
    rw [List.foldl_cons] at hm
    cases hr : gatherMem pl.prog.image a b list (some m) r with
    | none =>
      rw [hr, foldl_gatherMem_none] at hm
      cases hm
    | some m1 =>
      rw [hr] at hm
      obtain ⟨herr, hon⟩ := gather_own ha hfmt hspace hsspace hx ho htags hr
      obtain ⟨herr1, hs1⟩ := oneStep_ok hw hx herr
      exact ih (whole_oneStep hw) herr1 (hs1 ▸ hon) hm

/-- Settles O20: the moves of LD_T and the rows of LD_G, each over the memory that those before it left. -/
theorem loadTileResults : Obligations.LoadTileResults := by
  intro i s a b img hn ha hb himg htags hbuf hdst hsrc hspace hsspace hfmt hblk hcols
  subst himg
  refine ⟨fun hi hrows => ?tile, fun list n hi hlist hcount hle halign hscratch hsome => ?gather⟩
  case tile =>
    have hmoves : ∀ l ∈ tileMoves a b, ∀ m ∈ l, MovOk m := fun l hl => by
      obtain ⟨r, _, hr⟩ := List.mem_flatMap.mp hl
      exact rowMoves_own hbuf hfmt hspace hsspace r r l hr
    obtain ⟨hwhole, herr, hon⟩ := runSteps_fold (OnMem s i.glade.val) (moveMem (placeOf s i.glade.val).prog.image) (moveStep (placeOf s i.glade.val))
      (tileMoves a b) (fun l hl x m hx ho => moveStep_onMem (pl := placeOf s i.glade.val) htags (hmoves l hl) hx ho)
      { s := s } (gladeOf s i.glade.val).mem (whole_start s) rfl (onGlade_self _ _)
    obtain ⟨t, c, ht, hdone, hmem, htag⟩ := done_cache (tileLines_nil hspace hsspace) hwhole herr (runSteps_inv _ (moveStep_inv _) _ _) hon
      (engOf_mem _ _ _) hn
    obtain ⟨hmem', htag'⟩ := onGlade_memtags hon
    refine ⟨t, c, ?_, hdone, hmem.trans hmem', htag.trans htag'⟩
    rw [exec_ldT hi ha hb rfl hdst hsrc (tSpace_zero hbuf.1) hfmt hblk hrows hcols rfl, ht]
  case gather =>
    obtain ⟨m, hm⟩ := Option.ne_none_iff_exists'.mp hsome
    obtain ⟨herr, hon⟩ := gather_fold (pl := placeOf s i.glade.val) htags hbuf hfmt hspace hsspace (List.range n) (whole_start s) rfl
      (onGlade_self _ _) hm
    obtain ⟨t, c, ht, hdone, hmem, htag⟩ := done_cache (tileLines_nil hspace hsspace) (whole_runSteps (List.range n) (whole_start s)) herr
      (runSteps_inv _ (gatherRow_inv _ _ _ _) _ _) hon (engOf_mem _ _ _) hn
    obtain ⟨hmem', htag'⟩ := onGlade_memtags hon
    refine ⟨t, c, m, ?_, hm, hdone, hmem.trans hmem', htag.trans htag'⟩
    rw [exec_ldG hi ha hb rfl hlist hcount hdst hsrc (tSpace_zero hbuf.1) hfmt hblk hcols hle halign hscratch rfl]
    exact congrArg _ ht

/-! ### Loads and stores of any space (R126, R144 to R146) -/

/-- A load whose steps ran without a fault, with the lines of its source brought into the caches. -/
theorem loaded {i : GI} {s : State} {x : Acc} {j : Job} {l : List Nat} (hw : Whole x) (hx : x.err = 0) (hinv : x.inv = none)
    (heng : curEng x.s i = curEng s i) (hn : NextIn i s) :
    let t := settleOut i (closeAcc i false { x with s := if x.cut then x.s else cacheLines x.s j i.glade.val true l })
    Ended i s t (cacheLines x.s j i.glade.val true l) ∧ t.tags = x.s.tags ∧
      ∀ d, hostHeld x.s (lineOf d) = false → rd1 t.mem d = rd1 x.s.mem d := by
  obtain ⟨⟨c, hglade⟩, _, htags, _, _, hbytes⟩ := cacheLines_rest x.s j i.glade.val true l
  have hcur : curEng (cacheLines x.s j i.glade.val true l) i = curEng s i := by
    rw [← heng]; unfold curEng; rw [hglade, engOf_cache]
  have hs : (if x.cut then x.s else cacheLines x.s j i.glade.val true l) = cacheLines x.s j i.glade.val true l := by
    obtain ⟨_, _, hcut⟩ := hw
    rw [hcut]; rfl
  have hended := ended (x := { x with s := cacheLines x.s j i.glade.val true l }) hw hx hcur hn
  obtain ⟨hmem, htag⟩ := closeAcc_quiet (x := { x with s := cacheLines x.s j i.glade.val true l }) hw hx hinv hcur hn
  dsimp only
  rw [hs]
  exact ⟨hended, htag.trans htags, fun d hd => by rw [hmem]; exact (hbytes d hd).1⟩

theorem runMoves_eng (pl : Place) (l : List (List Move)) (s : State) (i : GI) : curEng (runSteps (moveStep pl) l { s := s }).s i = curEng s i :=
  runSteps_keeps (fun t => curEng t i = curEng s i) _ l _ rfl (fun m _ x hx => (moveStep_eng pl m x _ _).trans hx)

theorem runGather_eng {pl : Place} {a b : Td} {list : Nat} (n : Nat) (s : State) (i : GI) (ha : tSpace a = 0) :
    curEng (runRows (gatherRow pl a b list) n { s := s }).s i = curEng s i :=
  runSteps_keeps (fun t => curEng t i = curEng s i) _ (List.range n) _ rfl (fun r _ x hx => (gatherRow_eng pl a b list r x _ _ (.inr ha)).trans hx)

/-- Every piece of a row's moves into device memory lies in the row's elements or in its scale bytes (R145). -/
theorem rowMoves_in {a b : Td} {r : Nat} (hfmt : a.fmt = b.fmt) (hblk : a.blk = b.blk) (hcols : a.cols = b.cols) :
    ∀ l ∈ rowMoves b a r r, ∀ m ∈ l, m.dspace = 1 → (rowAddr a r ≤ m.dst ∧ m.dst + m.n ≤ rowAddr a r + rowBytes a) ∨
      (isBlock (tFmt a) = true ∧ a.sspace = 1 ∧ scaleAddr a r ≤ m.dst ∧ m.dst + m.n ≤ scaleAddr a r + nBlocks a) := by
  have hbytes : rowBytes b = rowBytes a := by simp [rowBytes, tFmt, tCols, hfmt, hcols]
  have hblocks : nBlocks b = nBlocks a := by simp [nBlocks, tCols, tBlk, hcols, hblk]
  have hf : tFmt b = tFmt a := by simp [tFmt, hfmt]
  have elements : ∀ m ∈ rowPieces (tSpace b) (rowAddr b r) (tSpace a) (rowAddr a r) (rowBytes b), m.dspace = 1 →
      rowAddr a r ≤ m.dst ∧ m.dst + m.n ≤ rowAddr a r + rowBytes a := fun m hm h1 => by
    obtain ⟨hd, hin⟩ := rowPieces_in _ _ _ _ _ m hm
    rw [hbytes] at hin
    exact hin (hd.symm.trans h1)
  intro l hl m hm h1
  unfold rowMoves at hl
  dsimp only at hl
  split at hl
  next hk =>
    rw [List.mem_singleton] at hl
    subst hl
    rcases List.mem_append.mp hm with h | h
    · exact .inl (elements m h h1)
    · obtain ⟨hd, hin⟩ := rowPieces_in _ _ _ _ _ m h
      rw [hblocks] at hin
      have hs : a.sspace.toNat = 1 := hd.symm.trans h1
      exact .inr ⟨hf ▸ hk, BitVec.eq_of_toNat_eq hs, hin hs⟩
  next =>
    obtain ⟨p, hp, rfl⟩ := List.mem_map.mp hl
    rw [List.mem_singleton] at hm
    subst hm
    exact .inl (elements _ hp h1)

/-- A byte outside the rows of the destination, in a line that is not only in host memory, keeps its value through a tile's moves. -/
theorem tileMoves_frame {pl : Place} {a b : Td} {s : State} {d : Nat} (hfmt : a.fmt = b.fmt) (hblk : a.blk = b.blk) (hcols : a.cols = b.cols)
    (hheld : hostHeld s (lineOf d) = false)
    (hout : ∀ r, r < tRows a → ¬ (rowAddr a r ≤ d ∧ d < rowAddr a r + rowBytes a) ∧
      (isBlock (tFmt a) = true → a.sspace = 1 → ¬ (scaleAddr a r ≤ d ∧ d < scaleAddr a r + nBlocks a))) :
    rd1 (runSteps (moveStep pl) (tileMoves a b) { s := s }).s.mem d = rd1 s.mem d := by
  refine (runSteps_keeps (fun t => rd1 t.mem d = rd1 s.mem d ∧ hostHeld t (lineOf d) = false) _ (tileMoves a b) { s := s } ⟨rfl, hheld⟩
    (fun l hl x hx => ?_)).1
  obtain ⟨r, hr, hl⟩ := List.mem_flatMap.mp hl
  obtain ⟨helements, hscales⟩ := hout r (List.mem_range.mp hr)
  obtain ⟨hmem, hheld'⟩ := moveStep_frame pl l x d hx.2 (fun m hm h1 hin => by
    rcases rowMoves_in hfmt hblk hcols l hl m hm h1 with h | ⟨hk, hs, h⟩
    · exact helements (by omega)
    · exact hscales hk hs (by omega))
  exact ⟨hmem.trans hx.1, hheld'⟩

/-- Settles O21: each move runs its steps in order; a load then brings lines into the caches, and a store's pieces lie in the rows of its
destination. -/
theorem moveTileResults : Obligations.MoveTileResults := by
  intro i s a b pl hn ha hb hpl hdst hsrc hfmt hblk hcols
  refine ⟨fun x hi hrows hspace hx herr => ?load, fun x list n hi hspace hlist hcount hle halign hscratch hx herr => ?gather,
    fun x hi hrows hspaceA hspaceB hx herr => ?store⟩
  case load =>
    refine ⟨_, exec_ldT hi ha hb hpl hdst hsrc hspace hfmt hblk hrows hcols hx, ?_⟩
    subst hx
    exact loaded (whole_runSteps _ (whole_start s)) herr (runSteps_inv _ (moveStep_inv pl) _ _) (runMoves_eng _ _ s i) hn
  case gather =>
    refine ⟨_, exec_ldG hi ha hb hpl hlist hcount hdst hsrc hspace hfmt hblk hcols hle halign hscratch hx, ?_⟩
    subst hx
    exact loaded (whole_runSteps _ (whole_start s)) herr (runSteps_inv _ (gatherRow_inv pl a b list) _ _) (runGather_eng n s i hspace) hn
  case store =>
    refine ⟨_, exec_stT hi ha hb hpl hdst hsrc hspaceA hspaceB hfmt hblk hrows hcols, ?_⟩
    have hwhole := whole_runSteps (f := moveStep pl) (tileMoves a b) (whole_start s)
    change x = runSteps (moveStep pl) (tileMoves a b) { s := s } at hx
    rw [← hx] at hwhole ⊢
    have heng : curEng x.s i = curEng s i := hx ▸ runMoves_eng pl (tileMoves a b) s i
    have hinv : x.inv = none := hx ▸ runSteps_inv _ (moveStep_inv pl) _ _
    obtain ⟨hmem, htags⟩ := closeAcc_quiet hwhole herr hinv heng hn
    refine ⟨ended hwhole herr heng hn, hmem, htags, fun d hheld hout => ?_⟩
    rw [hmem, hx]
    exact tileMoves_frame hfmt hblk hcols hheld hout

/-! ### PF and XFER (R148, R149) -/

/-- PF brings lines in where its descriptor is well formed, and else nothing (R148). -/
theorem exec_pf {i : GI} {s : State} {a : Td} {pl : Place} (hi : Issues 0x23 { ta := true, flags := 1, only := some .ae } i s)
    (ha : a = tdGet (curEng s i) i.ta.toNat) (hpl : pl = placeOf s i.glade.val) :
    exec (.pf i) s = .next (settleOut i (.done (if tdOk pl a then cacheLines s pl.j i.glade.val (i.flags.getLsbD 0) (tileLines a) else s))) := by
  refine next_issue _ hi (fun _ => rfl) ?_
  dsimp only
  rw [← ha, ← hpl]
  split <;> rfl

/-- An instruction that changed its glade in the caches alone. -/
theorem rowsDone_cache {i : GI} {s u : State} {c : List CLine} (hn : NextIn i s)
    (hglade : gladeOf u i.glade.val = { gladeOf s i.glade.val with cache := c }) (hother : ∀ h, h ≠ i.glade.val → gladeOf u h = gladeOf s h) :
    settleOut i (.done u) = setCur u i (stepOn (curEng s i)) ∧ RowsDone i false s (settleOut i (.done u)) { gladeOf s i.glade.val with cache := c } := by
  have heng : curEng u i = curEng s i := by unfold curEng; rw [hglade, engOf_cache]
  have hset : settleOut i (.done u) = setCur u i (stepOn (curEng s i)) := by
    rw [settleOut_done (by simpa only [NextIn, heng] using hn), heng]
  rw [hset]
  refine ⟨rfl, curEng_setCur _ _ _, ?_, fun h hh => ?_⟩
  · rw [setCur, gladeOf_setGlade_same, hglade]; rfl
  · rw [setCur, gladeOf_setGlade_ne _ _ hh, hother h hh]

/-- Settles O22: PF by what bringing lines in keeps, and XFER by its descriptor's place. -/
theorem prefetchXferResults : Obligations.PrefetchXferResults := by
  refine fun i s hn => ⟨fun hi => ?pf, fun a hi ha halign hscratch hclean => ?xfer⟩
  case pf =>
    have hexec := exec_pf hi rfl rfl
    split at hexec
    · obtain ⟨⟨c, hglade⟩, hother, htags, hcmds, hhost, hbytes⟩ := cacheLines_rest s (placeOf s i.glade.val).j i.glade.val (i.flags.getLsbD 0)
        (tileLines (tdGet (curEng s i) i.ta.toNat))
      obtain ⟨hset, hdone⟩ := rowsDone_cache hn hglade hother
      refine ⟨_, c, hexec, hdone, ?_⟩
      rw [hset]
      exact ⟨hhost, htags, hcmds, hbytes⟩
    · obtain ⟨hset, hdone⟩ := rowsDone_cache hn (glade_cache_self _) (fun _ _ => rfl)
      refine ⟨_, _, hexec, hdone, ?_⟩
      rw [hset]
      exact ⟨rfl, rfl, rfl, fun _ _ => ⟨rfl, rfl⟩⟩
  case xfer =>
    refine next_issue _ hi (fun _ => rfl) ?_
    dsimp only
    rw [← ha, if_neg (by simp [halign, hscratch]), hclean]
    exact settleOut_done hn

end Sys2Proof.Proofs
end

section
/-! ROUTE without a directory, and ROUTE_F with its forecast record. -/

namespace Sys2Proof.Proofs

open Sys2Proof.Machine Sys2Proof.Safety Sys2Proof.Laws

/-! ### Rows that collect (R126) -/

/-- Rows that each carry a relation from `m` to `f m r` without a fault carry it to the fold of `f`: as `runSteps_fold`, for rows that
collect something beside the state. -/
theorem routeStep_fold {α μ : Type} (R : State → α → μ → Prop) (f : μ → Nat → μ) (row : Nat → Acc × α → Acc × α) (l : List Nat)
    (h : ∀ r ∈ l, ∀ (x : Acc × α) (m : μ), x.1.err = 0 → R x.1.s x.2 m → (row r x).1.err = 0 ∧ R (row r x).1.s (row r x).2 (f m r))
    (x : Acc × α) (m : μ) (hw : Whole x.1) (hx : x.1.err = 0) (hR : R x.1.s x.2 m) :
    let y := l.foldl (fun x r => routeStep (row r) x) x
    Whole y.1 ∧ y.1.err = 0 ∧ R y.1.s y.2 (l.foldl f m) := by
  induction l generalizing x m with
  | nil => exact ⟨hw, hx, hR⟩
  | cons r q ih =>
    obtain ⟨hskip, hquota, hcut⟩ := hw
    obtain ⟨herr, hrow⟩ := h r (by simp) x m hx hR
    have hstep : routeStep (row r) x = ({ (row r x).1 with steps := x.1.steps + 1, skip := x.1.skip, quota := x.1.quota, cut := false }, (row r x).2) := by
      simp [routeStep, hx, herr, hskip, hquota, hcut]
    rw [List.foldl_cons, List.foldl_cons, hstep]
    exact ih (fun k hk => h k (by simp [hk])) _ (f m r) ⟨hskip, hquota, rfl⟩ herr hrow

theorem routeStep_inv {α : Type} {row : Nat → Acc × α → Acc × α} (h : ∀ r x, (row r x).1.inv = x.1.inv) (l : List Nat) (x : Acc × α) :
    (l.foldl (fun x r => routeStep (row r) x) x).1.inv = x.1.inv := by
  induction l generalizing x with
  | nil => rfl
  | cons r q ih =>
    rw [List.foldl_cons, ih]
    unfold routeStep
    split
    · rfl
    · split
      · rfl
      · split
        · rfl
        · exact h r x

theorem routedBefore_of_issues {opc : BitVec 8} {u : Use} {i : GI} {s : State} (h : Issues opc u i s) (hu : u.steps = true) :
    routedBefore (curEng s i) = [] := by
  unfold routedBefore
  rw [if_pos (progress_of_issues h hu)]

/-! ### ROUTE (R167 to R172) -/

/-- The rows of ROUTE from an instruction's first step: what was dispatched and whether a selection was dropped beside the state. -/
def routeRows (pl : Place) (o : RouteOp) (a b c : Td) (s : State) : Acc × List Nat × Bool :=
  (List.range (tRows a)).foldl (fun x r => routeStep (routeRow pl o a b c r) x) ({ s := s }, [], false)

theorem exec_route {i : GI} {s : State} {a b c : Td} {pl : Place} {o : RouteOp} {y : Acc × List Nat × Bool}
    (hi : Issues 0x38 { ta := true, tb := true, tc := true, sa := true, sb := true, sc := true, imm := routeImm, only := some .xe, steps := true } i s)
    (ha : a = tdGet (curEng s i) i.ta.toNat) (hb : b = tdGet (curEng s i) i.tb.toNat) (hc : c = tdGet (curEng s i) i.tc.toNat)
    (hpl : pl = placeOf s i.glade.val) (hdir : sGet (curEng s i) i.sa.toNat = 0)
    (ho : o = routeOp i.imm.toNat 0 (sGet (curEng s i) i.sb.toNat).toNat (sGet (curEng s i) i.sc.toNat).toNat)
    (hnorm : o.norm ≠ 3) (heb : o.eb ≤ tCols a) (haok : tdOk pl a = true) (hbok : tdOk pl b = true) (hcok : tdDst pl c = true)
    (hfa : tFmt a = fmtW32) (hfb : tFmt b = fmtW32) (hfc : tFmt c = fmtW32) (hcols : tCols c = 3 * o.k) (hrowsB : tRows a = tRows b)
    (hrowsC : tRows a = tRows c) (hy : y = routeRows pl o a b c s) :
    exec (.route i) s = .next (settleOut i (closeAcc i false { y.1 with
      s := if y.2.2 then updCmd (keepRouted i y.1 y.2.1) (gladeOf s i.glade.val).cmd (fun d => { d with warn := true })
        else keepRouted i y.1 y.2.1 })) := by
  have hodir : o.dir = 0 := by rw [ho]; rfl
  have hzero : (sGet (curEng s i) i.sa.toNat).toNat = 0 := by rw [hdir]; rfl
  have hcounters : routeCounters s pl.j o = false := by simp [routeCounters, hodir]
  refine next_issue _ hi (fun _ => rfl) ?_
  dsimp only
  rw [← ha, ← hb, ← hc, ← hpl, hzero, ← ho, if_neg (by simp [hnorm, haok, hbok, hcok, hfa, hfb, hfc, hcols, ← hrowsB, ← hrowsC, heb]),
    if_neg (by simp [hodir]), if_pos hodir]
  dsimp only
  rw [hcounters, startAcc_of_issues hi rfl, routedBefore_of_issues hi rfl]
  simp only [hodir, ne_eq, not_true_eq_false, decide_false, Bool.and_false, Bool.false_eq_true, if_false]
  subst hy
  rfl

/-- A glade after row `r` of ROUTE (R169 to R172). -/
def routeGlade (o : RouteOp) (a c : Td) (k : Glade) (r : Nat) : Glade :=
  { k with mem := putRow k.mem c r (routeCodes ((List.range o.eb).map (fun e => (baseWord o.gen e, (memVals k.mem a r).getD e 0))) o.k o.norm o.gen) [] }

/-- The rows of ROUTE in order, among PUBLIC lines of the buffer. -/
theorem routeRows_done {i : GI} {s : State} {pl : Place} {o : RouteOp} {a b c : Td} (hpl : pl.gi = i.glade.val) (hdir : o.dir = 0)
    (htags : (gladeOf s i.glade.val).tags = []) (ha : InBuffer a) (hb : InBuffer b) (hc : InBuffer c) :
    let y := routeRows pl o a b c s
    let k := (List.range (tRows a)).foldl (routeGlade o a c) (gladeOf s i.glade.val)
    Whole y.1 ∧ y.1.err = 0 ∧ OnGlade s i.glade.val y.1.s k ∧ engOf k i.eng = curEng s i := by
  obtain ⟨hw, herr, hon, _, heng⟩ := routeStep_fold
    (fun t (_ : List Nat × Bool) k => OnGlade s i.glade.val t k ∧ k.tags = [] ∧ engOf k i.eng = curEng s i) (routeGlade o a c)
    (routeRow pl o a b c) (List.range (tRows a))
    (fun r _ x k hx ⟨hon, ht, he⟩ => by
      obtain ⟨herr, hnext⟩ := routeRow_own (b := b) (r := r) hdir hx (hpl ▸ hon) ht ha hb hc
      exact ⟨herr, hpl ▸ hnext, ht, (engOf_mem _ _ _).trans he⟩)
    ({ s := s }, [], false) (gladeOf s i.glade.val) (whole_start s) rfl ⟨onGlade_self _ _, htags, rfl⟩
  exact ⟨hw, herr, hon, heng⟩

/-! ### ROUTE_F (R176, R222, R223) -/

/-- One row of ROUTE_F: the experts that it selects and that no row before it has (R176). -/
def routeFRow (pl : Place) (o : RouteOp) (a : Td) (r : Nat) (x : Acc × List Nat) : Acc × List Nat :=
  match readRow x.1.s pl a r with
  | .error q => (x.1.fail q, x.2)
  | .ok ra =>
    let cs := (List.range o.eb).map (fun e => (baseWord o.gen e, (rowVals a ra).getD e 0))
    let es := (selectK o.k cs).map (fun c => idIndex c.1)
    (x.1.note (rowInf a ra) 0, x.2 ++ es.filter (fun e => !x.2.contains e))

/-- The experts collected after row `r` of ROUTE_F. -/
def routeFSel (o : RouteOp) (a : Td) (m : Mem) (l : List Nat) (r : Nat) : List Nat :=
  l ++ ((selectK o.k ((List.range o.eb).map (fun e => (baseWord o.gen e, (memVals m a r).getD e 0)))).map (fun q => idIndex q.1)).filter
    (fun e => !l.contains e)

theorem routeFRow_inv (pl : Place) (o : RouteOp) (a : Td) (r : Nat) (x : Acc × List Nat) : (routeFRow pl o a r x).1.inv = x.1.inv := by
  unfold routeFRow
  split <;> rfl

/-- A row of ROUTE_F among PUBLIC lines of the buffer reads, and changes no state. -/
theorem routeFRow_own {pl : Place} {o : RouteOp} {a : Td} {r : Nat} {x : Acc × List Nat} (ha : InBuffer a)
    (htags : (gladeOf x.1.s pl.gi).tags = []) :
    (routeFRow pl o a r x).1.err = x.1.err ∧ (routeFRow pl o a r x).1.s = x.1.s ∧
      (routeFRow pl o a r x).2 = routeFSel o a (gladeOf x.1.s pl.gi).mem x.2 r := by
  unfold routeFRow
  rw [readRow_buffer r ha htags]
  exact ⟨rfl, rfl, rfl⟩

/-- The rows of ROUTE_F from an instruction's first step. -/
def routeFRows (pl : Place) (o : RouteOp) (a : Td) (s : State) : Acc × List Nat :=
  (List.range (tRows a)).foldl (fun x r => routeStep (routeFRow pl o a r) x) ({ s := s }, [])

/-- The rows of ROUTE_F collect their selections and change no state. -/
theorem routeFRows_done {s : State} {pl : Place} {o : RouteOp} {a : Td} (htags : (gladeOf s pl.gi).tags = []) (ha : InBuffer a) :
    let y := routeFRows pl o a s
    Whole y.1 ∧ y.1.err = 0 ∧ y.1.inv = none ∧ y.1.s = s ∧
      y.2 = (List.range (tRows a)).foldl (routeFSel o a (gladeOf s pl.gi).mem) [] := by
  obtain ⟨hw, herr, hs, hsel⟩ := routeStep_fold (fun t l m => t = s ∧ l = m) (routeFSel o a (gladeOf s pl.gi).mem) (routeFRow pl o a)
    (List.range (tRows a))
    (fun r _ x m hx ⟨hs, hl⟩ => by
      obtain ⟨herr, hstate, hsel⟩ := routeFRow_own (o := o) (r := r) (x := x) ha (by rw [hs]; exact htags)
      exact ⟨herr.trans hx, hstate.trans hs, by rw [hsel, hs, hl]⟩)
    ({ s := s }, []) [] (whole_start s) rfl ⟨rfl, rfl⟩
  exact ⟨hw, herr, routeStep_inv (routeFRow_inv pl o a) _ _, hs, hsel⟩

theorem exec_routeF {i : GI} {s : State} {a : Td} {pl : Place} {o : RouteOp} {y : Acc × List Nat} {ra : Nat} {old : Bytes}
    (hi : Issues 0x39 { ta := true, imm := 0xFFFFFF, only := some .xe, steps := true } i s)
    (ha : a = tdGet (curEng s i) i.ta.toNat) (hpl : pl = placeOf s i.glade.val) (ho : o = routeOp i.imm.toNat 0 0 0)
    (hnorm : o.norm ≠ 3) (heb : o.eb ≤ tCols a) (haok : tdOk pl a = true) (hfmt : tFmt a = fmtW32)
    (hra : ra = fcastAddr pl.j o.gen o.layer) (hcounters : inCounters pl.j ra 64 = false)
    (hy : y = routeFRows pl o a s) (herr : y.1.err = 0) (hcut : y.1.cut = false)
    (hold : old = (if leNat (rdBytes y.1.s.mem (ra + 32) 8) = (gladeOf s i.glade.val).cmd.toNat then rdBytes y.1.s.mem ra 32 else zeros 32)) :
    exec (.routeF i) s = .next (settleOut i (closeAcc i false { y.1 with
      s := cacheLines (hubWrite y.1.s ra (bitmapOr old y.2 ++ bvLe (gladeOf s i.glade.val).cmd 8) (tagBase o.gen)) pl.j i.glade.val false
        (y.2.flatMap (expertLines pl.j o.gen o.layer)) })) := by
  refine next_issue _ hi (fun _ => rfl) ?_
  dsimp only
  rw [← ha, ← hpl, ← ho, ← hra, if_neg (by simp [hnorm, haok, hfmt, heb]), if_neg (by simp [hcounters]), startAcc_of_issues hi rfl,
    routedBefore_of_issues hi rfl]
  have hgo : ¬ (decide ((routeFRows pl o a s).1.err ≠ 0) || (routeFRows pl o a s).1.cut) = true := by rw [← hy]; simp [herr, hcut]
  rw [hold, hy]
  exact congrArg (settleOut i) (if_neg hgo)

/-- An instruction that no stop cuts keeps nothing for the rest of its rows (R126). -/
theorem keepRouted_of_whole {i : GI} {x : Acc} (h : Whole x) (es : List Nat) : keepRouted i x es = x.s := by
  obtain ⟨_, _, hcut⟩ := h
  unfold keepRouted
  rw [hcut]
  rfl

/-- Bringing lines into the Canopy cache region alone changes no glade (R196). -/
theorem gladeOf_cacheLines_canopy (s : State) (j : Job) (g : Nat) (l : List Nat) (h : Nat) : gladeOf (cacheLines s j g false l) h = gladeOf s h := by
  obtain ⟨hglades, _⟩ := cacheAll_keeps j ((l.filter (fun a => (readLine s j a).toOption.isSome)).filter (fun a => !isCanopy a)) s
  exact gladeOf_eqg hglades h

/-- What ROUTE_F leaves once the forecast record has been written in `w`: the glade goes on, and lines are brought in. -/
theorem recorded {i : GI} {s w : State} {x : Acc} {j : Job} {l : List Nat} (hw : Whole x) (hx : x.err = 0) (hinv : x.inv = none) (hs : x.s = s)
    (hglades : w.glades = s.glades) (hn : NextIn i s) :
    let t := settleOut i (closeAcc i false { x with s := cacheLines w j i.glade.val false l })
    RowsDone i false s t (gladeOf s i.glade.val) ∧ t.tags = w.tags ∧ ∀ d, hostHeld w (lineOf d) = false → rd1 t.mem d = rd1 w.mem d := by
  obtain ⟨_, _, htags, _, _, hbytes⟩ := cacheLines_rest w j i.glade.val false l
  have hgladeOf : ∀ g, gladeOf (cacheLines w j i.glade.val false l) g = gladeOf s g := fun g =>
    (gladeOf_cacheLines_canopy w j i.glade.val l g).trans (gladeOf_eqg hglades g)
  have hcur : curEng (cacheLines w j i.glade.val false l) i = curEng s i := by unfold curEng; rw [hgladeOf]
  obtain ⟨hmem, htag⟩ := closeAcc_quiet (x := { x with s := cacheLines w j i.glade.val false l }) hw hx hinv hcur hn
  refine ⟨?_, htag.trans htags, fun d hd => by rw [hmem]; exact (hbytes d hd).1⟩
  exact done_plain hw hx (hs ▸ onGlade_self s _) (fun g => by rw [hgladeOf, hs]) rfl hn

/-- Settles O23: ROUTE writes a row of selections for each row of its logits; ROUTE_F collects its selections, and then writes the forecast
record. -/
theorem routeResults : Obligations.RouteResults := by
  intro i s a b c o hn ha hb hc htags hbufA haok hfa heb hnorm
  refine ⟨fun hi ho hdir hbufB hbufC hbok hcok hfb hfc hcols hrowsB hrowsC => ?route, fun sel ra old w hi ho hsel hra hcounters hold hw => ?routeF⟩
  case route =>
    obtain ⟨hwhole, herr, hon, heng⟩ := routeRows_done (pl := placeOf s i.glade.val) (o := o) rfl (by rw [ho]; rfl) htags hbufA hbufB hbufC
    refine ⟨_, exec_route hi ha hb hc rfl hdir ho hnorm heb haok hbok hcok hfa hfb hfc hcols hrowsB hrowsC rfl, ?_⟩
    refine done_plain hwhole herr hon (fun g => ?_) heng hn
    rw [keepRouted_of_whole hwhole]
    split <;> rfl
  case routeF =>
    obtain ⟨y, hy⟩ : ∃ y, y = routeFRows (placeOf s i.glade.val) o a s := ⟨_, rfl⟩
    obtain ⟨hwhole, herr, hinv, hstate, hlist⟩ := routeFRows_done (pl := placeOf s i.glade.val) (o := o) htags hbufA
    rw [← hy] at hwhole herr hinv hstate hlist
    have hcut : y.1.cut = false := hwhole.2.2
    have hexec := exec_routeF hi ha rfl ho hnorm heb haok hfa hra hcounters hy herr hcut (old := old) (by rw [hstate]; exact hold)
    rw [hstate, hlist.trans hsel.symm, ← hw] at hexec
    exact ⟨_, hexec, recorded hwhole herr hinv hstate (by rw [hw]; rfl) hn⟩

end Sys2Proof.Proofs
end

section
/-! MM_G: its groups in order, and one group of a base expert against one contraction tile. -/

namespace Sys2Proof.Proofs

open Sys2Proof.Machine Sys2Proof.Safety Sys2Proof.Laws

/-! ### The groups in order (R126, R154) -/

theorem groupPass_whole (pl : Place) (o : GroupOp) (a b : Td) (g : Group) (kt : Nat) (st : STile) {x : Acc} (h : Whole x) :
    Whole (groupPass pl o a b g kt st x) :=
  whole_runSteps (List.range g.count) h

/-- No stop cuts a group where none cuts the instruction: each contraction tile passes rows, faults, or is passed over. -/
theorem groupRun_whole (pl : Place) (o : GroupOp) (a b : Td) (g : Group) {x : Acc} (h : Whole x) : Whole (groupRun pl o a b g x) := by
  unfold groupRun
  split
  · exact h
  · split
    · exact h
    · refine foldl_keeps Whole _ _ _ h (fun y k hy => ?_)
      split
      · exact hy
      · split
        · exact hy
        · split
          · exact hy
          · split
            · exact hy
            · exact groupPass_whole pl o a b g (o.k0 + k) _ hy

/-- The groups of an instruction, passed over after a fault. -/
def groupsRun (pl : Place) (o : GroupOp) (a b : Td) (gs : List Group) (x : Acc) : Acc :=
  gs.foldl (fun x g => if x.err ≠ 0 then x else groupRun pl o a b g x) x

/-- Where no stop cuts the instruction, its groups run as `groupsRun` says. -/
theorem groupsRun_eq (pl : Place) (o : GroupOp) (a b : Td) (gs : List Group) {x : Acc} (h : Whole x) :
    gs.foldl (fun x g => if x.err ≠ 0 || x.cut then x else groupRun pl o a b g x) x = groupsRun pl o a b gs x ∧
      Whole (groupsRun pl o a b gs x) := by
  unfold groupsRun
  induction gs generalizing x with
  | nil => exact ⟨rfl, h⟩
  | cons g q ih =>
    have hcut : x.cut = false := h.2.2
    have hstep : Whole (if x.err ≠ 0 then x else groupRun pl o a b g x) := by
      split
      · exact h
      · exact groupRun_whole pl o a b g h
    rw [List.foldl_cons, List.foldl_cons, hcut]
    simpa only [Bool.or_false, decide_eq_true_eq] using ih hstep

theorem groupsRun_eng (pl : Place) (o : GroupOp) (a b : Td) (gs : List Group) (x : Acc) (e : Engine) :
    engOf (gladeOf (groupsRun pl o a b gs x).s pl.gi) e = engOf (gladeOf x.s pl.gi) e := by
  refine foldl_keeps (fun y : Acc => engOf (gladeOf y.s pl.gi) e = engOf (gladeOf x.s pl.gi) e) _ _ _ rfl (fun y g hy => ?_)
  split
  · exact hy
  · exact (groupRun_eng pl o a b g y e).trans hy

/-- The use of fields of MM_G (R139). -/
def mmGUse : Use :=
  { ta := true, tb := true, sa := true, sb := true, sc := true, flags := 7, imm := ~~~(0xF800 : BitVec 64), only := some .xe, steps := true }

/-- MM_G's operands in an instruction (R154, R155). -/
def groupOp (i : GI) (s : State) : GroupOp :=
  ⟨bitsOf i.imm.toNat 0 8, bitsOf i.imm.toNat 8 2, i.imm.toNat.testBit 10, bitsOf i.imm.toNat 16 16, bitsOf i.imm.toNat 32 16,
    bitsOf i.imm.toNat 48 16, (sGet (curEng s i) i.sc.toNat).toNat, passFlags i.flags⟩

/-- The group list of a memory (R152, R153). -/
def groupList (m : Mem) (list n : Nat) : List Group := (List.range n).map (fun k => groupAt (rdBytes m (list + 16 * k) 16))

theorem exec_mmG_empty {i : GI} {s : State} (hi : Issues 0x32 mmGUse i s) (hn : (sGet (curEng s i) i.sb.toNat).toNat = 0) :
    exec (.mmG i) s = .next (faultGlade s i.glade.val i.eng stProgram) := by
  refine next_issue _ hi (fun _ => rfl) ?_
  exact congrArg (settleOut i) (if_pos (by simp only [hn, decide_true, Bool.or_true, Bool.true_or]))

theorem exec_mmG {i : GI} {s : State} {a b : Td} {pl : Place} {o : GroupOp} {n list : Nat} (hi : Issues 0x32 mmGUse i s)
    (ha : a = tdGet (curEng s i) i.ta.toNat) (hb : b = tdGet (curEng s i) i.tb.toNat) (hpl : pl = placeOf s i.glade.val) (ho : o = groupOp i s)
    (hn : n = (sGet (curEng s i) i.sb.toNat).toNat) (hlist : list = (sGet (curEng s i) i.sa.toNat).toNat)
    (hpass : passTile pl a o.pf.pair = true) (hbok : tdOk pl b = true) (hn0 : n ≠ 0) (hkn : o.kn ≠ 0)
    (hscratch : inScratch pl.j list (16 * n) = true) (h32 : tFmt b ≠ fmtW32) (h8 : tFmt b ≠ fmtF8)
    (hpoison : gPoisoned (gladeOf s i.glade.val) list (16 * n) = false) :
    exec (.mmG i) s = .next (settleOut i (closeAcc i false (groupsRun pl o a b (groupList (gladeOf s i.glade.val).mem list n) { s := s }))) := by
  refine next_issue _ hi (fun _ => rfl) ?_
  subst ho
  dsimp only
  rw [← ha, ← hb, ← hpl, ← hn, ← hlist]
  refine (congrArg (settleOut i) (if_neg ?checks)).trans ((congrArg (settleOut i) (if_neg ?clean)).trans ?groups)
  case checks => simpa [hbok, hn0, hscratch, h32, h8] using ⟨hpass, hkn⟩
  case clean => simp [hpoison]
  case groups =>
    rw [startAcc_of_issues hi rfl]
    exact congrArg (fun x => settleOut i (closeAcc i false x)) (groupsRun_eq pl (groupOp i s) a b _ (whole_start s)).1

/-! ### Rows of the buffer while window rows carry other tags (R91, R227) -/

/-- Every line of the tile buffer, as against the window's rows, is PUBLIC. -/
def BufferPublic (k : Glade) : Prop := ∀ u, u < 65536 → tget tagPublic k.tags u = tagPublic

theorem bufferPublic_of_nil {k : Glade} (h : k.tags = []) : BufferPublic k := fun u _ => by rw [h]; rfl

/-- The units of a range below the window are lines of the tile buffer. -/
theorem unitsAux_below {f a n : Nat} (h : a + n ≤ winBase) {u : Nat × Nat} (hu : u ∈ unitsAux f a n) : u.1 < winBase := by
  induction f generalizing a n with
  | zero => exact absurd hu List.not_mem_nil
  | succ f ih =>
    unfold unitsAux at hu
    split at hu
    · exact absurd hu List.not_mem_nil
    next hn =>
      rcases List.mem_cons.mp hu with rfl | hu
      · show a < winBase
        omega
      · exact ih (by omega) hu

theorem gTags_below {k : Glade} (hk : BufferPublic k) {a n : Nat} (h : a + n ≤ winBase) : ∀ t ∈ gTags k a n, t = tagPublic := by
  intro t ht
  obtain ⟨u, hu, rfl⟩ := List.mem_map.mp ht
  have hlt := unitsAux_below h hu
  have hunit : unitOf u.1 < 65536 := by
    unfold unitOf inWindow winBase at *
    rw [if_neg (by simp; omega)]
    omega
  exact hk _ hunit

theorem spanTags_below {s : State} {pl : Place} (hk : BufferPublic (gladeOf s pl.gi)) {a n : Nat} (h : a + n ≤ winBase) :
    spanTags s pl 0 a n = .ok (rdBytes (gladeOf s pl.gi).mem a n, gTags (gladeOf s pl.gi) a n) := by
  have hclean : gPoisoned (gladeOf s pl.gi) a n = false := by
    unfold gPoisoned
    rw [List.contains_eq_mem, decide_eq_false_iff_not]
    intro hp
    exact absurd (gTags_below hk h _ hp) (by decide)
  simp [spanTags, hclean]

/-- A row of a tile that lies in the buffer below the window, the buffer's lines PUBLIC. -/
theorem readRow_below {s : State} {pl : Place} {t : Td} {r : Nat} (hb : InBuffer t) (hk : BufferPublic (gladeOf s pl.gi))
    (hrow : rowAddr t r + rowBytes t ≤ winBase) (hscale : isBlock (tFmt t) = true → scaleAddr t r + nBlocks t ≤ winBase) :
    readRow s pl t r = .ok (memRow (gladeOf s pl.gi).mem t r) := by
  obtain ⟨hspace, hsspace⟩ := hb
  have hspan := spanTags_below hk hrow
  have htags := gTags_below hk hrow
  unfold rowBytes at hspan htags
  unfold readRow readRowN memRow
  rw [tSpace_zero hspace, hspan]
  dsimp only
  cases hblock : isBlock (tFmt t) with
  | true =>
    have hzero : t.sspace.toNat = 0 := by rw [hsspace hblock]; rfl
    have hspan' := spanTags_below hk (hscale hblock)
    have htags' := gTags_below hk (hscale hblock)
    unfold nBlocks at hspan' htags'
    rw [if_pos rfl, hzero, hspan']
    dsimp only
    rw [joinAll_public _ (fun x hx => (List.mem_append.mp hx).elim (htags x) (htags' x))]
    rfl
  | false =>
    rw [if_neg (by decide)]
    dsimp only
    rw [joinAll_public _ (fun x hx => htags x (by simpa using hx))]
    rfl

theorem scratch_below {j : Job} {a n : Nat} (h : inScratch j a n = true) : a + n ≤ winBase := by
  unfold inScratch scratchSize bufSize at h
  have := of_decide_eq_true h
  unfold winBase
  omega

/-- The last byte of a row does not pass the last byte of the plane (R130). -/
theorem row_in_plane {base pitch rows n r : Nat} (hr : r < rows) : base + r * pitch + n ≤ base + ((rows - 1) * pitch + n) := by
  have := Nat.mul_le_mul_right pitch (Nat.le_sub_one_of_lt hr)
  omega

/-- A tile of another format than W32 in the tile-buffer space lies below the window (R130). -/
theorem rows_below {pl : Place} {t : Td} {r : Nat} (hb : InBuffer t) (hok : tdOk pl t = true) (h32 : tFmt t ≠ fmtW32) (hr : r < tRows t) :
    rowAddr t r + rowBytes t ≤ winBase ∧ (isBlock (tFmt t) = true → scaleAddr t r + nBlocks t ≤ winBase) := by
  obtain ⟨hspace, hsspace⟩ := hb
  unfold tdOk tileOk planeOk at hok
  simp only [Bool.and_eq_true, Bool.or_eq_true, Bool.not_eq_true', tSpace_zero hspace] at hok
  obtain ⟨⟨⟨_, hplane⟩, hwindow⟩, hscales⟩ := hok
  have hwin : tWindow t = false := hwindow.resolve_right (fun h => h32 (of_decide_eq_true h.1.1))
  have hbase : ¬ winBase ≤ tBase t := by
    simpa [tWindow, tSpace_zero hspace, inWindow] using hwin
  constructor
  · rcases hplane with h | ⟨_, h⟩
    · exact (row_in_plane hr).trans (scratch_below h)
    · exact absurd (by simp [inWin] at h; exact h.1) hbase
  · intro hblock
    have hzero : t.sspace.toNat = 0 := by rw [hsspace hblock]; rfl
    rcases hscales with h | ⟨_, h⟩
    · simp [hblock] at h
    · rw [hzero] at h
      simp only [Bool.not_true, Bool.false_and, Bool.or_false] at h
      exact (row_in_plane hr).trans (scratch_below h)

/-! ### One group of a base expert (R156, R157) -/

/-- The join of a set of tags joins with PUBLIC to itself (R228). -/
theorem joinAll_public_join {l : List Tag} {u : Tag} (h : joinAll l = some u) : joinAll [tagPublic, u] = some u := by
  unfold joinAll at h
  split at h
  next t r ht =>
    have htenant : isTenant t = true := (List.mem_filter.mp (ht ▸ List.mem_cons_self : t ∈ l.filter isTenant)).2
    split at h
    · cases h
      have hp : isTenant tagPublic = false := by decide
      simp [joinAll, hp, htenant]
    · cases h
  next =>
    split at h
    next t r ht =>
      have hbase : isBase t = true := (List.mem_filter.mp (ht ▸ List.mem_cons_self : t ∈ l.filter isBase)).2
      split at h
      · cases h
        rcases (by simpa [isBase] using hbase : u = tagBaseA ∨ u = tagBaseB) with rfl | rfl <;> decide
      · cases h
    next => cases h; decide

/-- A base expert's tile carries the join of its lines' tags (R150, R228). -/
theorem groupTile_tag {s : State} {pl : Place} {id layer proj vf kt col : Nat} {copy : Bool} {st : STile} (hid : idPriv id = false)
    (h : groupTile s pl id layer proj copy vf kt col = .ok st) : joinAll [tagPublic, st.tag] = some st.tag := by
  have hread : ∀ {t : Td} {pack rows cols : Nat}, readSTile s pl t pack rows cols = .ok st → joinAll [tagPublic, st.tag] = some st.tag := by
    intro t pack rows cols h
    unfold readSTile at h
    split at h
    · cases h
    · split at h
      · cases h
      next u hu => cases h; exact joinAll_public_join hu
  unfold groupTile baseTile at h
  simp only [hid, Bool.not_false, if_true] at h
  split at h
  · cases h
  · split at h
    · cases h
    · exact hread h

/-- One row of a group against contraction tile `kt`, whose depth is `depth` (R154, R157). -/
def groupRow (pl : Place) (o : GroupOp) (a b : Td) (g : Group) (kt depth : Nat) (acc : Bool) (st : STile) (r : Nat) (x : Acc) : Acc :=
  match readRow x.s pl b (g.first - o.sc + r) with
  | .error er => x.fail er
  | .ok row =>
    if !groupOwnerOk pl.j g.id o.proj row.tag then x.fail stOwnerMix
    else
      let vec := (((rowElems b row).map (·.2)).drop (depth * kt)).take st.rows
      let dst := firstRow a o.pf.pair + (g.first - o.sc + r)
      if acc && !modesOk (gladeOf x.s pl.gi) o.pf.pair dst 1 then x.fail stProgram
      else if vec.length ≠ st.rows then x.fail stProgram
      else passInto pl { o.pf with acc := acc } st (tFmt b) (tBlk b) dst vec row.tag x

theorem groupPass_rows (pl : Place) (o : GroupOp) (a b : Td) (g : Group) (kt : Nat) (st : STile) (x : Acc) :
    groupPass pl o a b g kt st x =
      runRows (groupRow pl o a b g kt ((pairDepth st.fmt.toNat st.pack.toNat (tFmt b)).getD 256) (o.pf.acc || kt ≠ o.k0) st) g.count x := rfl

theorem rowElems_memRow_length (m : Mem) (t : Td) (r : Nat) : (rowElems t (memRow m t r)).length = tCols t := by
  simp [rowElems, numbered, memRow]

/-- The elements of a row that pass the tile of a group of one contraction tile. -/
def groupVec (m : Mem) (b : Td) (st : STile) (r : Nat) : List (Nat × Nat) := ((rowElems b (memRow m b r)).map (·.2)).take st.rows

/-- A glade after a row of a group against its one contraction tile (R154). -/
def groupGlade (o : GroupOp) (a b : Td) (g : Group) (st : STile) (k : Glade) (r : Nat) : Glade :=
  passGlade o.pf st (tFmt b) (tBlk b) (firstRow a o.pf.pair + (g.first - o.sc + r)) (groupVec k.mem b st (g.first - o.sc + r)) k

/-- A PUBLIC row may pass a base expert's tile (R157, R228). -/
theorem groupOwnerOk_public {j : Job} {id : Nat} (proj : Nat) (hid : idPriv id = false) : groupOwnerOk j id proj tagPublic = true := by
  unfold groupOwnerOk tagBase
  rw [hid, if_neg (by decide)]
  split <;> decide

/-- A row of a base expert's group from the buffer, its lines PUBLIC, against the one contraction tile of an overwriting pass. -/
theorem groupRow_step {s : State} {i : GI} {pl : Place} (hpl : pl.gi = i.glade.val) {o : GroupOp} {a b : Td} {g : Group} {st : STile} {r depth : Nat}
    {x : Acc} {k : Glade} (hid : idPriv g.id = false) (hacc : o.pf.acc = false) (hb : InBuffer b) (hbok : tdOk pl b = true)
    (h32 : tFmt b ≠ fmtW32) (hr : g.first - o.sc + r < tRows b) (hrows : st.rows ≤ tCols b) (hpoison : st.tag ≠ tagPoison)
    (hjoin : joinAll [tagPublic, st.tag] = some st.tag) (hx : x.err = 0) (hon : OnGlade s i.glade.val x.s k) (hk : BufferPublic k) :
    (groupRow pl o a b g 0 depth false st r x).err = 0 ∧
      OnGlade s i.glade.val (groupRow pl o a b g 0 depth false st r x).s (groupGlade o a b g st k r) := by
  have hglade : gladeOf x.s pl.gi = k := hpl ▸ hon.2
  obtain ⟨hrow, hscale⟩ := rows_below hb hbok h32 hr
  have hlen : (groupVec k.mem b st (g.first - o.sc + r)).length = st.rows := by
    simp only [groupVec, List.length_take, List.length_map, rowElems_memRow_length]
    omega
  have hpf : { o.pf with acc := false } = o.pf := by rw [← hacc]
  unfold groupRow
  rw [readRow_below hb (hglade ▸ hk) hrow hscale, hglade]
  dsimp only
  have hvec : (((rowElems b (memRow k.mem b (g.first - o.sc + r))).map (·.2)).drop (depth * 0)).take st.rows =
    groupVec k.mem b st (g.first - o.sc + r) := rfl
  rw [if_neg (by rw [show (memRow k.mem b (g.first - o.sc + r)).tag = tagPublic from rfl, groupOwnerOk_public o.proj hid]; decide),
    if_neg (by simp), hvec, if_neg (by simp [hlen]), hpf]
  exact passInto_step hpl hpoison hjoin (.inl hacc) hx hon

/-- A group of a base expert with one contraction tile fetches the tile and passes its rows. -/
theorem groupRun_one {pl : Place} {o : GroupOp} {a b : Td} {g : Group} {s : State} {st : STile} (hcount : g.count ≠ 0) (hfirst : g.first % 64 = 0)
    (hcap : g.cap % 64 = 0) (hsc : o.sc ≤ g.first) (hsrc : g.first - o.sc + g.count ≤ tRows b) (hdst : g.first - o.sc + g.count ≤ tRows a)
    (hkn : o.kn = 1) (hk0 : o.k0 = 0) (htile : groupTile s pl g.id o.layer o.proj o.copy (tFmt b) 0 o.col = .ok st)
    (hpair : (pairDepth st.fmt.toNat st.pack.toNat (tFmt b)).isSome = true) :
    groupRun pl o a b g { s := s } = groupPass pl o a b g 0 st
      { s := setGlade s pl.gi { gladeOf s pl.gi with shadow := none, active := some st } } := by
  have hpair' : ¬ (pairDepth st.fmt.toNat st.pack.toNat (tFmt b)).isNone = true := by
    rw [Option.isNone_iff_eq_none]
    exact Option.isSome_iff_ne_none.mp hpair
  unfold groupRun
  rw [if_neg hcount, if_neg (by simp [hfirst, hcap]; omega), hkn, List.range_one, List.foldl_cons, List.foldl_nil, if_neg (by simp),
    if_neg (by simpa using hcount), hk0]
  dsimp only [Nat.add_zero]
  rw [htile]
  exact if_neg hpair'

theorem bufferPublic_groupGlade {o : GroupOp} {a b : Td} {g : Group} {st : STile} {k : Glade} {r : Nat} (h : BufferPublic k) :
    BufferPublic (groupGlade o a b g st k r) := fun u hu => (passGlade_low hu).trans (h u hu)

theorem engOf_groupGlade (o : GroupOp) (a b : Td) (g : Group) (st : STile) (k : Glade) (r : Nat) (e : Engine) :
    engOf (groupGlade o a b g st k r) e = engOf k e := by
  obtain ⟨m, tg, p, h⟩ := passGlade_memoryChanged o.pf st (tFmt b) (tBlk b) (firstRow a o.pf.pair + (g.first - o.sc + r))
    (groupVec k.mem b st (g.first - o.sc + r)) k
  unfold groupGlade
  rw [h]
  exact engOf_congr rfl rfl _

/-- The rows of a base expert's group pass the tile into the window, one after another. -/
theorem groupPass_done {s t : State} {i : GI} {pl : Place} (hpl : pl.gi = i.glade.val) {o : GroupOp} {a b : Td} {g : Group} {st : STile}
    {k : Glade} (hid : idPriv g.id = false) (hacc : o.pf.acc = false) (hk0 : o.k0 = 0) (hb : InBuffer b) (hbok : tdOk pl b = true)
    (h32 : tFmt b ≠ fmtW32) (hsrc : g.first - o.sc + g.count ≤ tRows b) (hrows : st.rows ≤ tCols b) (hpoison : st.tag ≠ tagPoison)
    (hjoin : joinAll [tagPublic, st.tag] = some st.tag) (hon : OnGlade s i.glade.val t k) (hk : BufferPublic k)
    (heng : engOf k i.eng = curEng s i) (hn : NextIn i s) :
    RowsDone i false s (settleOut i (closeAcc i false (groupPass pl o a b g 0 st { s := t })))
      ((List.range g.count).foldl (groupGlade o a b g st) k) := by
  rw [groupPass_rows, hacc, hk0]
  obtain ⟨hwhole, herr, hon', _, heng'⟩ := runSteps_fold (fun u k => OnGlade s i.glade.val u k ∧ BufferPublic k ∧ engOf k i.eng = curEng s i)
    (groupGlade o a b g st) (groupRow pl o a b g 0 ((pairDepth st.fmt.toNat st.pack.toNat (tFmt b)).getD 256) false st) (List.range g.count)
    (fun r hr x k hx ⟨hon, hk, heng⟩ => by
      have hlt := List.mem_range.mp hr
      obtain ⟨herr, hrow⟩ := groupRow_step (r := r) hpl hid hacc hb hbok h32 (by omega) hrows hpoison hjoin hx hon hk
      exact ⟨herr, hrow, bufferPublic_groupGlade hk, (engOf_groupGlade o a b g st k r _).trans heng⟩)
    { s := t } k (whole_start t) rfl ⟨hon, hk, heng⟩
  exact rowsDone hwhole herr hon' heng' hn

end Sys2Proof.Proofs
end

section
/-! RED in arrival order: a contribution added line by line to PUBLIC lines of the managed region. -/

namespace Sys2Proof.Proofs

open Sys2Proof.Machine Sys2Proof.Safety Sys2Proof.Laws

/-! ### A state that differs from another where adding to a target may change it (R178) -/

/-- A state as `s` is, with memory `m`, for what a contribution's lines are checked against: the fences, the lines' tags, poison (which a
whole line's write clears), the glades and the halves. -/
def Reduced (s u : State) (m : Mem) : Prop :=
  u.mem = m ∧ u.fences = s.fences ∧ (∀ l, tagOf u l = tagOf s l) ∧ (∀ l, s.poison.contains l = false → u.poison.contains l = false) ∧
  u.glades = s.glades ∧ ∀ h, staleHalf u h = staleHalf s h

theorem reduced_self (s : State) : Reduced s s s.mem := ⟨rfl, rfl, fun _ => rfl, fun _ h => h, rfl, fun _ => rfl⟩

theorem backed_congr {s u : State} (h : u.fences = s.fences) (a : Nat) : backed u a = backed s a := by
  unfold backed backedSize quadChans
  rw [h]

theorem onFenced_congr {s u : State} (h : u.fences = s.fences) (a : Nat) : onFenced u a = onFenced s a := by
  unfold onFenced chanAt quadChans
  rw [h]

/-- A managed line that could be read still can, with the same tag. -/
theorem readLine_reduced {s u : State} {m : Mem} {j : Job} {a : Nat} {t : Tag} (h : Reduced s u m) (ha : isCanopy a = true)
    (hr : readLine s j a = .ok t) : readLine u j a = .ok t := by
  obtain ⟨_, hfences, htags, hpoison, _, _⟩ := h
  unfold readLine at hr ⊢
  cases hseg : segAt j a with
  | none => rw [hseg] at hr; cases hr
  | some g =>
    rw [hseg] at hr
    simp only [backed_congr hfences, onFenced_congr hfences, ha, if_true, htags] at hr ⊢
    split at hr
    · cases hr
    next hback =>
      rw [if_neg hback]
      split at hr
      · cases hr
      next hclean =>
        obtain ⟨hp, hf⟩ : s.poison.contains (lineOf a) = false ∧ onFenced s a = false := by
          rw [← Bool.or_eq_false_iff]; exact Bool.eq_false_iff.mpr hclean
        rw [hpoison _ hp, hf]
        exact hr

/-- A managed line that could be written still can, taking the same tag. -/
theorem writeCheck_reduced {s u : State} {m : Mem} {j : Job} {ev : Bool} {a n : Nat} {t v : Tag} (h : Reduced s u m) (ha : isCanopy a = true)
    (hw : writeCheck s j ev a n t = .ok (some v)) : writeCheck u j ev a n t = .ok (some v) := by
  obtain ⟨_, hfences, htags, hpoison, _, _⟩ := h
  unfold writeCheck at hw ⊢
  simp only [backed_congr hfences, onFenced_congr hfences, ha, if_true, htags] at hw ⊢
  cases hp : s.poison.contains (lineOf a) with
  | false =>
    rw [hp] at hw
    rw [hpoison _ hp]
    exact hw
  | true =>
    rw [hp] at hw
    by_cases hn : n = 256
    · simpa only [if_pos hn] using hw
    · simp only [if_neg hn, if_true] at hw
      repeat' split at hw
      all_goals cases hw

theorem not_cxl_of_canopy {a : Nat} (h : isCanopy a = true) : isCxl (256 * lineOf a) = false := by
  unfold isCanopy canopyBase canopySlice at h
  unfold isCxl cxlBase lineOf
  simp only [Bool.and_eq_true, decide_eq_true_eq] at h
  rw [Bool.and_eq_false_iff]
  left
  rw [decide_eq_false_iff_not]
  omega

/-- The tag of a managed line is the one stored with it (R227). -/
theorem readLine_canopy_tag {s : State} {j : Job} {a : Nat} {t : Tag} (ha : isCanopy a = true) (h : readLine s j a = .ok t) :
    tagOf s (lineOf a) = t := by
  unfold readLine at h
  simp only [ha, if_true] at h
  repeat' split at h
  all_goals cases h
  rfl

/-- Bytes with tag PUBLIC stored in a PUBLIC line of the managed region. -/
theorem storeLine_reduced {s u : State} {m : Mem} {j : Job} {a : Nat} (b : Bytes) (h : Reduced s u m) (ha : isCanopy a = true)
    (ht : tagOf s (lineOf a) = tagPublic) : Reduced s (storeLine u j a b tagPublic) (wrBytes m a b) := by
  obtain ⟨hmem, hfences, htags, hpoison, hglades, hstale⟩ := h
  have hseen : seenMem u j [a] = m := by
    rw [seenMem_of_not_held (by simpa using hostHeld_of_not_cxl (not_cxl_of_canopy ha)), hmem]
  unfold storeLine
  rw [if_pos ha, hseen]
  refine ⟨rfl, hfences, fun l => ?tag, fun l hl => ?poison, hglades, hstale⟩
  case tag =>
    by_cases hl : l = lineOf a
    · rw [hl, tagOf_setTag_same, ht]
    · rw [tagOf_setTag_ne _ _ hl]; exact htags l
  case poison =>
    have hu := hpoison l hl
    show (if b.length = 256 then _ else _ : List Nat).contains l = false
    split
    · rw [List.contains_eq_mem, decide_eq_false_iff_not] at hu ⊢
      exact fun hmem => hu (List.mem_filter.mp hmem).1
    · exact hu

/-- A write inside one line that has passed its check. -/
theorem devWrite_line {u : State} {j : Job} {ev : Bool} {a : Nat} {b : Bytes} {t v : Tag} (hb : b ≠ []) (ha : a % 256 + b.length ≤ 256)
    (hw : writeCheck u j ev a b.length t = .ok (some v)) : devWrite u j ev a b t = .ok (storeLine u j a b v) := by
  have hline : writeLine u j ev a b t = .ok (storeLine u j a b v) := by
    unfold writeLine
    rw [hw]
  unfold devWrite
  rw [pieces_inside a b hb ha]
  simp only [checkPieces, hw, storePieces, hline]

/-! ### The lines of a target (R178) -/

/-- A target's elements fill its lines: 64 of W32, 128 of M16. -/
theorem redPer_mul {t : Td} (h : tFmt t = fmtW32 ∨ tFmt t = fmtM16) : redPer t * (fmtBits (tFmt t) / 8) = 256 := by
  unfold redPer
  rcases h with h | h <;> rw [h] <;> decide

theorem redLine_some {t : Td} {l : Nat} (h : tFmt t = fmtW32 ∨ tFmt t = fmtM16) (hl : l < redLines t) : l * redPer t < tCols t := by
  have hpos : 0 < redPer t := Nat.pos_of_ne_zero (fun h0 => by have := redPer_mul h; rw [h0] at this; omega)
  unfold redLines ceilDiv at hl
  have := (Nat.le_div_iff_mul_le hpos).mp (Nat.succ_le_of_lt hl)
  rw [Nat.succ_mul] at this
  have hcols : 0 < tCols t := Nat.succ_pos _
  omega

theorem sumBytes_length (p : RedPart) (r c0 n : Nat) (vals : List (BitVec 32)) (b : Bytes) :
    (sumBytes p.td (redSums p r c0 n vals b)).length = n * (fmtBits (tFmt p.td) / 8) := by
  have hlen : ∀ l : List (Nat × BitVec 5 × Nat), (sumBytes p.td l).length = l.length * (fmtBits (tFmt p.td) / 8) := by
    intro l
    simp [sumBytes, List.length_flatMap]
  rw [hlen]
  unfold redSums
  rw [List.length_map, List.length_range]

/-- The rows of a tile stand on whole lines (R130). -/
theorem rowAddr_aligned {pl : Place} {t : Td} (h : tdOk pl t = true) (r : Nat) : rowAddr t r % 256 = 0 := by
  unfold tdOk tileOk at h
  simp only [Bool.and_eq_true, decide_eq_true_eq] at h
  obtain ⟨⟨⟨⟨⟨⟨⟨_, hbase⟩, hpitch⟩, _⟩, _⟩, _⟩, _⟩, _⟩ := h
  unfold rowAddr
  rw [Nat.add_mod, Nat.mul_mod, hbase, hpitch, Nat.mul_zero]

/-- Columns of line `l` of a target row (R178). -/
def redCount (t : Td) (l : Nat) : Nat := min (redPer t) (tCols t - l * redPer t)

/-- The bytes of line `l` of row `r` with a contribution's values added (R178). -/
def lineSums (p : RedPart) (r : Nat) (vals : List (BitVec 32)) (m : Mem) (l : Nat) : Bytes :=
  sumBytes p.td (redSums p r (l * redPer p.td) (redCount p.td l) vals
    (rdBytes m (rowAddr p.td r + 256 * l) (redCount p.td l * (fmtBits (tFmt p.td) / 8))))

/-- A memory with those bytes written. -/
def redLineMem (p : RedPart) (r : Nat) (vals : List (BitVec 32)) (m : Mem) (l : Nat) : Mem :=
  wrBytes m (rowAddr p.td r + 256 * l) (lineSums p r vals m l)

theorem lineSums_length (p : RedPart) (r : Nat) (vals : List (BitVec 32)) (m : Mem) (l : Nat) :
    (lineSums p r vals m l).length = redCount p.td l * (fmtBits (tFmt p.td) / 8) := sumBytes_length _ _ _ _ _ _

/-- A line's sums are at least one byte and at most the line. -/
theorem lineSums_fits {p : RedPart} {l : Nat} (hfmt : tFmt p.td = fmtW32 ∨ tFmt p.td = fmtM16) (hl : l < redLines p.td) (r : Nat)
    (vals : List (BitVec 32)) (m : Mem) : 0 < (lineSums p r vals m l).length ∧ (lineSums p r vals m l).length ≤ 256 := by
  have hmul := redPer_mul hfmt
  have hsome := redLine_some hfmt hl
  have hw : 0 < fmtBits (tFmt p.td) / 8 := Nat.pos_of_ne_zero (fun h0 => by rw [h0] at hmul; omega)
  have hper : 0 < redPer p.td := Nat.pos_of_ne_zero (fun h0 => by rw [h0] at hmul; omega)
  rw [lineSums_length]
  constructor
  · exact Nat.mul_pos (by unfold redCount; omega) hw
  · rw [← hmul]
    exact Nat.mul_le_mul_right _ (Nat.min_le_left _ _)

/-- One PUBLIC line of a contribution added to a line that RED may add to. -/
theorem redLine_step {s : State} {pl : Place} {p : RedPart} {r l : Nat} {vals : List (BitVec 32)} {x : Acc} {m : Mem}
    (hfmt : tFmt p.td = fmtW32 ∨ tFmt p.td = fmtM16) (hok : tdOk pl p.td = true) (hl : l < redLines p.td)
    (hline : RedLineOk s pl p.td r l) (hstale : staleHalf s (halfOfGlade p.glade) = false) (hx : x.err = 0) (hR : Reduced s x.s m) :
    (redLine pl p r (l * redPer p.td) (redCount p.td l) vals (some tagPublic) x).err = 0 ∧
      Reduced s (redLine pl p r (l * redPer p.td) (redCount p.td l) vals (some tagPublic) x).s (redLineMem p r vals m l) := by
  obtain ⟨hmanaged, hread, hwrite⟩ := hline
  have hcanopy : isCanopy (rowAddr p.td r + 256 * l) = true := (Bool.and_eq_true_iff.mp hmanaged).1
  have haddr : rowAddr p.td r + l * redPer p.td * (fmtBits (tFmt p.td) / 8) = rowAddr p.td r + 256 * l := by
    rw [Nat.mul_assoc, redPer_mul hfmt, Nat.mul_comm]
  obtain ⟨hpos, hle⟩ := lineSums_fits hfmt hl r vals m
  have halign := rowAddr_aligned hok r
  have hdev : devWrite x.s pl.j pl.eval (rowAddr p.td r + 256 * l) (lineSums p r vals m l) tagPublic =
      .ok (storeLine x.s pl.j (rowAddr p.td r + 256 * l) (lineSums p r vals m l) tagPublic) :=
    devWrite_line (List.length_pos_iff.mp hpos) (by omega) (by rw [lineSums_length]; exact writeCheck_reduced hR hcanopy hwrite)
  have hy : (redLine pl p r (l * redPer p.td) (redCount p.td l) vals (some tagPublic) x).err = 0 ∧
      (redLine pl p r (l * redPer p.td) (redCount p.td l) vals (some tagPublic) x).s =
        storeLine x.s pl.j (rowAddr p.td r + 256 * l) (lineSums p r vals m l) tagPublic := by
    obtain ⟨hmem, _, _, _, _, hhalf⟩ := id hR
    unfold lineSums at hdev ⊢
    unfold redLine
    dsimp only
    rw [haddr, readLine_reduced hR hcanopy hread, hmem]
    simp only [Option.bind_some, show join tagPublic tagPublic = some tagPublic by decide, event_s, note_s, hhalf, hstale, hdev,
      event_err, note_err, hx, Bool.false_eq_true, if_false, and_self]
  obtain ⟨herr, hs⟩ := hy
  refine ⟨herr, ?_⟩
  rw [hs]
  exact storeLine_reduced _ hR hcanopy (readLine_canopy_tag hcanopy hread)

/-- Row `r` of a contribution added line by line. -/
def redRowMem (p : RedPart) (r : Nat) (vals : List (BitVec 32)) (m : Mem) : Mem := (List.range (redLines p.td)).foldl (redLineMem p r vals) m

/-- A PUBLIC row of a contribution added to a row whose lines RED may add to. -/
theorem redAddRow_step {s : State} {pl : Place} {p : RedPart} {r : Nat} {row : List (BitVec 32) × List (Option Tag)} {x : Acc} {m : Mem}
    (hfmt : tFmt p.td = fmtW32 ∨ tFmt p.td = fmtM16) (hok : tdOk pl p.td = true) (hlines : ∀ l, l < redLines p.td → RedLineOk s pl p.td r l)
    (htags : ∀ l, l < redLines p.td → row.2.getD l none = some tagPublic) (hstale : staleHalf s (halfOfGlade p.glade) = false)
    (hx : x.err = 0) (hR : Reduced s x.s m) :
    (redAddRow pl p r row x).err = 0 ∧ Reduced s (redAddRow pl p r row x).s (redRowMem p r row.1 m) := by
  have hfold : ∀ (ls : List Nat) (y : Acc) (m : Mem), (∀ l ∈ ls, l < redLines p.td) → y.err = 0 → Reduced s y.s m →
      let z := ls.foldl (fun x k => if x.err ≠ 0 then x
        else redLine pl p r (k * redPer p.td) (redCount p.td k) row.1 (row.2.getD k none) x) y
      z.err = 0 ∧ Reduced s z.s (ls.foldl (redLineMem p r row.1) m) := by
    intro ls
    induction ls with
    | nil => exact fun y m _ hy hR => ⟨hy, hR⟩
    | cons l q ih =>
      intro y m hls hy hR
      have hl := hls l List.mem_cons_self
      obtain ⟨herr, hR'⟩ := redLine_step (vals := row.1) hfmt hok hl (hlines l hl) hstale hy hR
      rw [List.foldl_cons, List.foldl_cons, if_neg (by simp [hy]), htags l hl]
      exact ih _ _ (fun k hk => hls k (List.mem_cons_of_mem _ hk)) herr hR'
  exact hfold (List.range (redLines p.td)) (x.note _ 0) m (fun l hl => List.mem_range.mp hl) hx hR

/-! ### A contribution from the buffer (R178) -/

/-- A row of a contribution in the buffer, its lines PUBLIC: its values, and PUBLIC for each of the target's lines. -/
theorem redRow_buffer {s : State} {pl : Place} {a b : Td} {r : Nat} (ha : InBuffer a) (htags : (gladeOf s pl.gi).tags = []) :
    redRow s pl a b r = .ok (memVals (gladeOf s pl.gi).mem a r, (List.range (redLines b)).map (fun _ => some tagPublic)) := by
  obtain ⟨hspace, hsspace⟩ := ha
  have hpublic : ∀ (x n y k : Nat), joinAll (gTags (gladeOf s pl.gi) x n ++ gTags (gladeOf s pl.gi) y k) = some tagPublic := fun x n y k =>
    joinAll_public _ (fun t ht => (List.mem_append.mp ht).elim (gTags_public htags _ _ t) (gTags_public htags _ _ t))
  have hone : ∀ (x n : Nat), joinAll (gTags (gladeOf s pl.gi) x n ++ []) = some tagPublic := fun x n =>
    joinAll_public _ (fun t ht => gTags_public htags _ _ t (by simpa using ht))
  have hspan : ∀ (x n : Nat), spanTags s pl 0 x n = .ok (rdBytes (gladeOf s pl.gi).mem x n, gTags (gladeOf s pl.gi) x n) := fun x n => by
    simp [spanTags, gPoisoned_public htags]
  unfold redRow memVals memRow
  cases hblock : isBlock (tFmt a) with
  | true =>
    have hzero : a.sspace.toNat = 0 := by rw [hsspace hblock]; rfl
    simp only [tSpace_zero hspace, hzero, hspan, if_true, Except.toOption, Option.elim_some, hpublic]
  | false =>
    simp only [tSpace_zero hspace, hspan, Bool.false_eq_true, if_false, Except.toOption, Option.elim_some, hone, List.map_nil]

theorem numbered_map_range {α : Type} (n : Nat) (f : Nat → α) : numbered ((List.range n).map f) = (List.range n).map (fun r => (r, f r)) :=
  List.ext_getElem (by simp [numbered]) (fun k _ _ => by simp [numbered])

/-- A target after a contribution, as the fold over its rows. -/
theorem redMem_rows (p : RedPart) (n : Nat) (f : Nat → List (BitVec 32)) (m : Mem) :
    redMem p ((List.range n).map f) m = (List.range n).foldl (fun m r => redRowMem p r (f r) m) m := by
  unfold redMem
  rw [numbered_map_range, List.foldl_map]
  rfl

/-- A contribution from the buffer into lines that RED may add to, its lines and theirs PUBLIC. -/
theorem redArrive_done {s : State} {pl : Place} {p : RedPart} {a : Td} (hfmt : tFmt p.td = fmtW32 ∨ tFmt p.td = fmtM16) (hok : tdOk pl p.td = true)
    (ha : InBuffer a) (htags : (gladeOf s pl.gi).tags = []) (hlines : ∀ r l, r < tRows a → l < redLines p.td → RedLineOk s pl p.td r l)
    (hstale : staleHalf s (halfOfGlade p.glade) = false) :
    let x := redArrive pl p a { s := s }
    Whole x ∧ x.err = 0 ∧ Reduced s x.s (redMem p ((List.range (tRows a)).map (memVals (gladeOf s pl.gi).mem a)) s.mem) := by
  rw [redMem_rows]
  refine runSteps_fold (Reduced s) _ _ (List.range (tRows a)) (fun r hr x m hx hR => ?_) { s := s } s.mem (whole_start s) rfl (reduced_self s)
  obtain ⟨_, _, _, _, hglades, _⟩ := id hR
  have hglade := gladeOf_eqg hglades pl.gi
  rw [redRow_buffer ha (by rw [hglade]; exact htags), hglade]
  exact redAddRow_step hfmt hok (fun l => hlines r l (List.mem_range.mp hr)) (fun l hl => by simp [hl]) hstale hx hR

/-- The only contribution of a reduction in arrival order, without a counter, closes it as it arrives (R178). -/
theorem redArrival_only {i : GI} {s : State} {pl : Place} {a : Td} {p : RedPart} {base : BitVec 48} {x : Acc} (hstart : startAcc i s = { s := s })
    (hx : x = redArrive pl p a { s := s }) (herr : x.err = 0) (hcut : x.cut = false) :
    redArrival i pl a { base := base, n := 1, ordered := false } p true s = closeAcc i false { x with s := setRed x.s base none } := by
  unfold redArrival
  dsimp only
  rw [if_pos rfl, hstart, ← hx, hcut, herr, if_neg (by decide), if_neg (by decide), if_neg (by decide)]
  rfl

/-- The use of fields of RED (R139). -/
def redUse : Use := { ta := true, tb := true, sa := true, sb := true, flags := 1, only := some .xe, steps := true }

/-- RED of the only contribution of a reduction in arrival order, without a counter, adds it and drops the reduction (R177, R178). -/
theorem exec_red {i : GI} {s : State} {a b : Td} {pl : Place} {p : RedPart} {x : Acc} (hi : Issues 0x3A redUse i s)
    (ha : a = tdGet (curEng s i) i.ta.toNat) (hb : b = tdGet (curEng s i) i.tb.toNat) (hpl : pl = placeOf s i.glade.val)
    (hflags : i.flags = 0) (hsa : sGet (curEng s i) i.sa.toNat = 1) (hsb : sGet (curEng s i) i.sb.toNat = 0) (haok : tdOk pl a = true)
    (hbok : tdOk pl b = true) (hspaceA : tSpace a = 0) (h8 : tFmt a ≠ fmtF8) (hfmt : tFmt b = fmtW32 ∨ tFmt b = fmtM16) (hrows : tRows a = tRows b)
    (hcols : tCols a = tCols b) (hspaceB : tSpace b = 1) (hmanaged : redManaged pl.j b = true) (htarget : redTarget s pl b = .ok true)
    (hopen : pl.j.reds.find? (fun r => r.base = b.base) = none)
    (hp : p = ⟨i.glade.val, (gladeOf s i.glade.val).cmd, b, gladeSeed s (gladeOf s i.glade.val).cmd, (gladeOf s i.glade.val).rcnt, []⟩)
    (hx : x = redArrive pl p a { s := s }) (herr : x.err = 0) (hcut : x.cut = false) :
    exec (.red i) s = .next (settleOut i (closeAcc i false { x with s := setRed x.s b.base none })) := by
  refine next_issue _ hi (fun _ => rfl) ?_
  dsimp only
  have hfmt' : ¬ (tFmt b ≠ fmtW32 ∧ tFmt b ≠ fmtM16) := fun h => hfmt.elim h.1 h.2
  rw [← ha, ← hb, ← hpl, hsa, hsb, if_neg (by simpa [haok, hbok, hspaceA, h8, hrows, hcols] using hfmt'), if_neg (by simp [hspaceB, hmanaged]),
    if_pos rfl, if_neg (by simp), if_pos rfl, htarget, hopen, hflags]
  refine congrArg (settleOut i) ((if_neg (by simp)).trans ((if_neg (by decide)).trans ?_))
  subst hp hpl
  exact redArrival_only (startAcc_of_issues hi rfl) hx herr hcut

/-- Closing the reduction changes no glade and no byte: what it leaves is what the contribution's lines left. -/
theorem red_closed {i : GI} {s : State} {x : Acc} {base : BitVec 48} (hw : Whole x) (hx : x.err = 0) (hglades : x.s.glades = s.glades)
    (hn : NextIn i s) :
    let t := settleOut i (closeAcc i false { x with s := setRed x.s base none })
    Ended i s t x.s ∧ (x.inv = none → t.mem = x.s.mem) := by
  have hcur : curEng (setRed x.s base none) i = curEng s i := by
    unfold curEng
    rw [gladeOf_eqg (show (setRed x.s base none).glades = s.glades from hglades)]
  exact ⟨ended (x := { x with s := setRed x.s base none }) hw hx hcur hn,
    fun hinv => (closeAcc_quiet (x := { x with s := setRed x.s base none }) hw hx hinv hcur hn).1⟩

/-- Settles O24: the groups of MM_G run in order, one group of a base expert passes its rows through the tile, and a contribution that is
the only one of its reduction is added line by line. -/
theorem groupedReduceResults : Obligations.GroupedReduceResults := by
  intro i s a b pl k ha hb hpl hk
  subst hk
  have hgi : pl.gi = i.glade.val := by rw [hpl]; rfl
  refine ⟨fun o n list hi ho hn hlist => ⟨fun h0 => exec_mmG_empty hi (hn ▸ h0),
    fun hpass hbok hn0 hkn hscratch h32 h8 hnext => ⟨?groups, ?one⟩⟩, ?red⟩
  case groups =>
    intro x hpoison hx herr
    have hrun : x = groupsRun pl o a b (groupList (gladeOf s i.glade.val).mem list n) { s := s } := hx
    have hwhole : Whole x := hrun ▸ (groupsRun_eq pl o a b _ (whole_start s)).2
    have heng : curEng x.s i = curEng s i := by
      have := groupsRun_eng pl o a b (groupList (gladeOf s i.glade.val).mem list n) { s := s } i.eng
      rwa [← hrun, hgi] at this
    exact ⟨_, exec_mmG hi ha hb hpl ho hn hlist hpass hbok hn0 hkn hscratch h32 h8 hpoison, hrun ▸ ended hwhole herr heng hnext⟩
  case one =>
    intro g st hone hg htags hbuf hkn1 hk0 hacc hid hcount hfirst hcap hsc hsrc hdst htile hpair hrows hpoison
    have hlist1 : groupList (gladeOf s i.glade.val).mem list n = [g] := by rw [hone, hg]; rfl
    refine ⟨_, exec_mmG hi ha hb hpl ho hn hlist hpass hbok hn0 hkn hscratch h32 h8 (gPoisoned_public htags _ _), ?_⟩
    rw [hlist1]
    show RowsDone i false s (settleOut i (closeAcc i false (groupRun pl o a b g { s := s }))) _
    rw [groupRun_one hcount hfirst hcap hsc hsrc hdst hkn1 hk0 htile hpair, hgi]
    exact groupPass_done hgi hid hacc hk0 hbuf hbok h32 hsrc hrows hpoison (groupTile_tag hid htile)
      ⟨.inr ⟨_, rfl⟩, gladeOf_setGlade_same _ _ _⟩ (bufferPublic_of_nil htags) (engOf_congr rfl rfl _) hnext
  case red =>
    intro p hi hnext hflags hsa hsb haok hbok hspaceA h8 hfmt hrows hcols hspaceB hmanaged htarget hbuf htags hopen hstale hlines hp
    have htd : p.td = b := by rw [hp]
    have hglade : p.glade = i.glade.val := by rw [hp]
    obtain ⟨hwhole, herr, hmem, _, _, _, hglades, _⟩ := redArrive_done (s := s) (pl := pl) (p := p) (a := a) (htd ▸ hfmt) (htd ▸ hbok) hbuf
      (hgi ▸ htags) (fun r l hr hl => htd ▸ hlines r l (hrows ▸ hr) (htd ▸ hl)) (hglade ▸ hstale)
    obtain ⟨hended, hquiet⟩ := red_closed (base := b.base) hwhole herr hglades hnext
    rw [hgi] at hmem
    exact ⟨_, _, exec_red hi ha hb hpl hflags hsa hsb haok hbok hspaceA h8 hfmt hrows hcols hspaceB hmanaged htarget hopen hp rfl herr hwhole.2.2,
      rfl, herr, hended, hmem, hquiet⟩

end Sys2Proof.Proofs
end

section
/-! SEG_SET and PROG_LOAD: the checks in their order, and the one entry that each replaces. -/

namespace Sys2Proof.Proofs

open Sys2Proof.Machine Sys2Proof.Safety Sys2Proof.Laws

/-! ### What SEG_SET waits for (R207, R359) -/

/-- What a SEG_SET waits for: an earlier command of the job, or an incoming transfer on the range that goes or on the range that comes. -/
theorem segSetWaits_iff {s : State} {acc : BitVec 64} {j : Job} {o g : Seg} :
    (!earlierDone s acc j.id || (o.valid && incomingOn s j o.base.toNat o.len.toNat) ||
      (g.valid && incomingOn s j g.base.toNat g.len.toNat)) = true ↔
    earlierDone s acc j.id = false ∨ (o.valid = true ∧ incomingOn s j o.base.toNat o.len.toNat = true) ∨
      (g.valid = true ∧ incomingOn s j g.base.toNat g.len.toNat = true) := by
  rw [Bool.or_eq_true, Bool.or_eq_true, Bool.not_eq_true', Bool.and_eq_true, Bool.and_eq_true, or_assoc]

/-- It goes on once the earlier commands have completed and neither range, where its entry is valid, has an incoming transfer open. -/
theorem not_segSetWaits {s : State} {acc : BitVec 64} {j : Job} {o g : Seg} (hdone : earlierDone s acc j.id = true)
    (hold : o.valid = false ∨ incomingOn s j o.base.toNat o.len.toNat = false)
    (hnew : g.valid = false ∨ incomingOn s j g.base.toNat g.len.toNat = false) :
    ¬ (!earlierDone s acc j.id || (o.valid && incomingOn s j o.base.toNat o.len.toNat) ||
      (g.valid && incomingOn s j g.base.toNat g.len.toNat)) = true := by
  rw [← Bool.and_eq_false_iff] at hold hnew
  simp only [hdone, hold, hnew, Bool.not_true, Bool.or_self, Bool.false_eq_true, not_false_eq_true]

/-! ### The statement about SEG_SET and PROG_LOAD (R121 to R123, R202, R207, R359) -/

/-- Settles O39: the checks of SEG_SET and of PROG_LOAD in their order. The job that each leaves differs in one entry of one table; the caches,
counters and seals that SEG_SET clears on the way belong to no job. -/
theorem segmentProgramResults : Obligations.SegmentProgramResults := by
  intro acc s c j hj
  refine ⟨fun ix g o hready hix hg ho => ?segSet, fun slot n hready hslot hn => ?progLoad⟩
  case segSet =>
    have hexec : exec (.segSet acc) s = _ := onJob_eq hready hj
    dsimp only at hexec
    rw [← hix, ← hg, ← ho] at hexec
    refine ⟨fun hbad => ?_, fun hlow howner => ⟨fun hwaits => ?_, fun hdone hold hnew => ⟨fun hvalid hnot => ?_, fun hok => ?_⟩⟩⟩
    · rw [hexec, if_pos (by simpa using hbad)]
    all_goals rw [if_neg (by simp only [Bool.or_eq_true, decide_eq_true_eq]; omega)] at hexec
    · rw [hexec, if_pos (segSetWaits_iff.mpr hwaits)]
    all_goals rw [if_neg (not_segSetWaits hdone hold hnew)] at hexec
    · rw [hexec, if_pos (by simp [hvalid, hnot])]
    · rw [if_neg (by rcases hok with h | h <;> simp [h])] at hexec
      exact ⟨_, _, hexec, rfl, tget_tset_same _ _ _ _, fun i hi => tget_tset_ne _ _ _ hi, rfl, rfl, rfl⟩
  case progLoad =>
    have hexec : exec (.progLoad acc) s = _ := onJob_eq hready hj
    dsimp only at hexec
    rw [← hslot, ← hn] at hexec
    refine ⟨fun hlen => ?_, fun hmin hmax hmod =>
      ⟨fun e hread => ?_, fun b hread => ⟨fun himage => ?_, fun himage hused => ?_, fun himage hfree => ?_⟩⟩⟩
    · rw [hexec, if_pos (by simpa [or_assoc] using hlen)]
    all_goals
      rw [if_neg (by simp only [Bool.or_eq_true, decide_eq_true_eq]; omega), hread] at hexec
      dsimp only at hexec
    · exact hexec
    · rw [hexec, if_pos (by simp [himage])]
    all_goals rw [if_neg (by simp [himage])] at hexec
    · rw [hexec, if_pos hused]
    · rw [if_neg (by simp [hfree])] at hexec
      exact ⟨_, hexec, tget_tset_same _ _ _ _, fun i hi => tget_tset_ne _ _ _ hi, rfl⟩

end Sys2Proof.Proofs
end

section
/-! The host's paths into the device: the staging window, configuration requests, the FRU content and telemetry. -/

namespace Sys2Proof.Proofs

open Sys2Proof.Machine Sys2Proof.Safety Sys2Proof.Laws

/-! ### The staging window (R214, R217, R376, R377, R492, R500) -/

theorem stagingOpen_of_ready {s : State} (hup : hubUp s = true) (hdev : s.boot.devReady = true) : stagingOpen s = true := by
  simp [stagingOpen, hup, hdev]

/-- Taking a credit and exposing a line's ciphertext leave the poison marks. -/
theorem scrubLine_takeCredit_poison (s : State) (die cls l : Nat) : (scrubLine (takeCredit s die cls) l).poison = s.poison := by
  unfold scrubLine
  split <;> rfl

theorem exec_stagingWrite_wait {s : State} (a : BitVec 30) (b : Bytes) (h : s.hub.hostHold = true ∨ creditsFree s 0 2 = 0) :
    exec (.stagingWrite a b) s = .next s :=
  if_pos (by rcases h with h | h <;> simp [h])

/-- A write that goes on takes its credit first; a piece whose channel is fenced or whose place is not backed then stores nothing. -/
theorem exec_stagingWrite_go {s : State} {a : BitVec 30} {b : Bytes} (hopen : stagingOpen s = true) (hhold : s.hub.hostHold = false)
    (hfree : creditsFree s 0 2 ≠ 0) {l : Nat} {d : Bytes} (hp : pieces a.toNat b = [(l, d)]) :
    exec (.stagingWrite a b) s = .next (if (backed s l && !onFenced s l) = true then
      { scrubLine (takeCredit s 0 2) (lineOf l) with
        mem := wrBytes (scrubLine (takeCredit s 0 2) (lineOf l)).mem l d,
        poison := if d.length = 256 then s.poison.filter (fun x => x ≠ lineOf l) else s.poison }
      else takeCredit s 0 2) := by
  refine (if_neg (by simp [hopen, hhold, hfree])).trans ?_
  rw [hp, List.filter_singleton]
  by_cases hstores : (backed s l && !onFenced s l) = true
  · rw [if_pos hstores]
    simp only [hstores, cond_true, List.foldl_cons, List.foldl_nil, scrubLine_takeCredit_poison]
  · simp [hstores]

/-- A line of the window that a host's read finds poisoned: not backed, on a fenced channel, or marked. -/
theorem stagingUnreadable_iff {s : State} {l : Nat} :
    (!backed s l || onFenced s l || s.poison.contains (lineOf l)) = true ↔ backed s l = false ∨ onFenced s l = true ∨ lineOf l ∈ s.poison := by
  rw [Bool.or_eq_true, Bool.or_eq_true, Bool.not_eq_true', List.contains_iff_mem, or_assoc]

theorem exec_stagingRead_poisoned {s : State} {a : BitVec 30} {n : Nat} (hopen : stagingOpen s = true)
    (h : ∃ l ∈ linesOf a.toNat n, backed s l = false ∨ onFenced s l = true ∨ lineOf l ∈ s.poison) :
    exec (.stagingRead a n) s = .next (emit s .poisoned) := by
  obtain ⟨l, hl, hbad⟩ := h
  exact (if_neg (by simp [hopen])).trans (if_pos (List.any_eq_true.mpr ⟨l, hl, stagingUnreadable_iff.mpr hbad⟩))

theorem exec_stagingRead_data {s : State} {a : BitVec 30} {n : Nat} (hopen : stagingOpen s = true)
    (h : ∀ l ∈ linesOf a.toNat n, backed s l = true ∧ onFenced s l = false ∧ lineOf l ∉ s.poison) :
    exec (.stagingRead a n) s = .next (emit s (.readData ((List.range n).map (fun k =>
      (storedLine s (lineOf (a.toNat + k))).getD ((a.toNat + k) % 256) 0)))) := by
  refine (if_neg (by simp [hopen])).trans (if_neg fun hany => ?_)
  obtain ⟨l, hl, hbad⟩ := List.any_eq_true.mp hany
  obtain ⟨hbacked, hfence, hpoison⟩ := h l hl
  simp [hbacked, hfence, hpoison] at hbad

/-! ### Configuration requests, the FRU content and telemetry (R463, R464, R561) -/

theorem exec_configRequest {s : State} (hpwr : s.pins.pwrGood = true) (hperst : s.pins.perst = false) :
    exec .configRequest s = .next (emit s (if s.boot.cfgReady then .configDone else .retry)) :=
  if_neg (by simp [hpwr, hperst])

/-- The seven bytes of the telemetry: the two coolant temperatures, which are measured, stand between the maximum and the boot's cause. -/
theorem exec_mctpTelemetry {s : State} (hpwr : s.pins.pwrGood = true) (hperst : s.pins.perst = false) (hstage : s.boot.stage ≠ 0) :
    exec .mctpTelemetry s = .next (emit { s with free := s.free + 2 } (.telemetry (natLe s.hub.powerW.toNat 2 ++
      [s.hub.maxTemp, Config.fill s.free, Config.fill (s.free + 1), s.boot.fail, BitVec.ofNat 8 (nat s.hub.fault)]))) :=
  if_neg (by simpa [hpwr, hperst] using hstage)

/-- Settles O50: the staging window, configuration requests, the FRU content and the telemetry, each by what its instruction answers. -/
theorem hostPathResults : Obligations.HostPathResults := by
  intro s
  refine ⟨fun a b hup hdev => ?staging, fun a n hup hdev => ?reading, exec_configRequest, fun off n hrail => if_pos hrail,
    fun hpwr hperst hstage => ⟨_, exec_mctpTelemetry hpwr hperst hstage, List.take_left' (natLe_length _ _), rfl, rfl, rfl⟩⟩
  case staging =>
    have hopen := stagingOpen_of_ready hup hdev
    refine ⟨exec_stagingWrite_wait a b, fun l d hhold hfree hp hbacked hfence => ?_, fun l d hhold hfree hp hfence => ?_⟩
    · rw [exec_stagingWrite_go hopen hhold hfree hp, if_pos (by simp [hbacked, hfence])]
    · rw [exec_stagingWrite_go hopen hhold hfree hp, if_neg (by simp [hfence])]
  case reading =>
    have hopen := stagingOpen_of_ready hup hdev
    exact ⟨exec_stagingRead_poisoned hopen, exec_stagingRead_data hopen⟩

end Sys2Proof.Proofs
end

section
/-! Tenant slots and domains: SLOT_BIND, SLOT_REVOKE, TENANT_SLOT_FREE and DOMAIN_SET. -/

namespace Sys2Proof.Proofs

open Sys2Proof.Machine Sys2Proof.Safety Sys2Proof.Laws

/-- A tenant's slot that is being revoked: without policy and checkpoint key (R239, R443). -/
def revokingTenant (o : Tenant) (acc : BitVec 64) : Tenant :=
  { o with st := .revoking, revAcc := acc, policy := [], ckpt := none, ckptIv := [], ckptCnt := 0 }

/-- The job whose tenant is being revoked: the tenant's READY experts are being released (R239, R248). -/
def revokingJob (j : Job) (t : Nat) (acc : BitVec 64) : Job :=
  { setTen j t (revokingTenant (tenOf j t) acc) with
    slots := j.slots.map (fun e => if e.2.st = .ready && e.2.owner.toNat = t then (e.1, { e.2 with st := .releasing, relAcc := acc }) else e) }

theorem tenOf_revokingJob_same (j : Job) (t : Nat) (acc : BitVec 64) : tenOf (revokingJob j t acc) t = revokingTenant (tenOf j t) acc :=
  tenOf_setTen_same j t (revokingTenant (tenOf j t) acc)

theorem tenOf_revokingJob_ne (j : Job) {t x : Nat} (acc : BitVec 64) (h : x ≠ t) : tenOf (revokingJob j t acc) x = tenOf j x :=
  tenOf_setTen_ne j (revokingTenant (tenOf j t) acc) h

theorem exec_slotRevoke_bound {acc : BitVec 64} {s : State} {c : Cmd} {j : Job} (hready : ready s acc 0x49 = some c) (hj : s.job = some j)
    (hslot : opN c 0 2 < 4096) (hbound : isBound j (opN c 0 2) = true) :
    exec (.slotRevoke acc) s = .next (finish (revokeSeqs (setSession { s with job := some (revokingJob j (opN c 0 2) acc) } 0 (opN c 0 2) none)
      (opN c 0 2)) acc stOk) :=
  (onJob_eq hready hj).trans (congrArg Host.Outcome.next (if_neg (by simp [hbound, hslot])))

/-- Ending the sequences of a tenant that is being revoked keeps the table of tenants, and leaves none of them without an end. -/
theorem revokingJob_revokeSeqs (s : State) (j : Job) (t : Nat) (acc : BitVec 64) :
    ∃ k, (revokeSeqs (setSession { s with job := some (revokingJob j t acc) } 0 t none) t).job = some k ∧
      (∀ x, tenOf k x = tenOf (revokingJob j t acc) x) ∧ ∀ q ∈ k.seqs, q.tenant = t → q.ended = some stRevoked := by
  obtain ⟨k, hk, htenants, hended⟩ :=
    revokeSeqs_job (s := setSession { s with job := some (revokingJob j t acc) } 0 t none) (j := revokingJob j t acc) t rfl
  exact ⟨k, hk, fun x => by unfold tenOf; rw [htenants], hended⟩

/-- Settles O41: the checks of SLOT_BIND, SLOT_REVOKE and DOMAIN_SET in their order, and the one entry of the tenants' or the domains' table that each
replaces. -/
theorem tenantDomainResults : Obligations.TenantDomainResults := by
  intro acc s c j hj
  refine ⟨fun t d dig o hready ht hd hdig ho => ?bind, fun t hready ht => ?revoke, fun t hst hup hslots hseqs hcmds => ?free,
    fun d v hready hd hv => ?domain⟩
  case bind =>
    have hexec : exec (.slotBind acc) s = _ := onJob_eq hready hj
    dsimp only at hexec
    rw [← ht, ← hd, ← hdig, ← ho] at hexec
    refine ⟨fun hbad => ?_, fun hslot hdom hvalid => ⟨fun hfree => ?_, fun hbound hsame => ?_, fun hother => ?_⟩⟩
    · rw [hexec, if_pos (by simpa [or_assoc] using hbad)]
    all_goals rw [if_neg (by simp only [hvalid, Bool.not_true, Bool.or_false, Bool.or_eq_true, decide_eq_true_eq]; omega)] at hexec
    · rw [if_pos hfree] at hexec
      exact ⟨_, hexec, tenOf_setTen_same _ _ _, fun u hu => tenOf_setTen_ne _ _ hu⟩
    · rw [if_neg (by simp [hbound]), if_pos (by simp [hbound, hsame])] at hexec
      exact ⟨_, hexec, tenOf_setTen_same _ _ _, fun u hu => tenOf_setTen_ne _ _ hu⟩
    · rw [hexec, if_neg (by rcases hother with h | ⟨h, _⟩ <;> simp [h]), if_neg (by rcases hother with h | ⟨_, h⟩ <;> simp [h])]
  case revoke =>
    have hexec : exec (.slotRevoke acc) s = _ := onJob_eq hready hj
    dsimp only at hexec
    rw [← ht] at hexec
    refine ⟨fun hbad => ?_, fun hslot hbound => ?_⟩
    · rw [hexec, if_pos (by simpa using hbad)]
    · subst ht
      obtain ⟨k, hk, htenants, hended⟩ := revokingJob_revokeSeqs s j (opN c 0 2) acc
      exact ⟨_, k, exec_slotRevoke_bound hready hj hslot hbound, hk, (htenants _).trans (tenOf_revokingJob_same _ _ _),
        fun x hx => (htenants x).trans (tenOf_revokingJob_ne _ _ hx), hended⟩
  case free =>
    show execTenantSlotFree t s = _
    have hnoseq : j.seqs.any (fun q => q.tenant = t.val) = false := any_false _ _ fun q hq => decide_eq_false (hseqs q hq)
    have hnocmd : s.cmds.any (tenantCmd s j t.val) = false := any_false _ _ hcmds
    simp only [execTenantSlotFree, hj, hst, hup, hslots, hnoseq, hnocmd, decide_true, Bool.not_false, Bool.and_self, if_true]
  case domain =>
    have hexec : exec (.domainSet acc) s = _ := onJob_eq hready hj
    dsimp only at hexec
    rw [← hd, ← hv] at hexec
    refine ⟨fun hbad => ?_, fun hok => ?_⟩
    · rw [hexec, if_pos (by simp [hbad])]
    · rw [if_neg (by simp [hok])] at hexec
      exact ⟨_, hexec, domOf_setDom_same _ _ _, fun x hx => domOf_setDom_ne _ _ hx⟩

end Sys2Proof.Proofs
end

section
/-! BASE_LOAD and its retire flag: the checks in their order, and the base generations that each leaves. -/

namespace Sys2Proof.Proofs

open Sys2Proof.Machine Sys2Proof.Safety Sys2Proof.Laws

/-- Setting one base generation leaves the other. -/
theorem baseOf_setBase_other (j : Job) {k : Nat} (v : BaseGen) (h : k ≤ 1) : baseOf (setBase j (1 - k) v) k = baseOf j k := by
  rcases Nat.le_one_iff_eq_zero_or_eq_one.mp h with rfl | rfl <;> rfl

/-- Filling a generation's two copies, dropping their cached lines and sending the bindings leave the job as it is. -/
theorem loadedBase_job (s : State) (j : Job) (nt tr n : Nat) (x y : Bytes) :
    (sendBindings (dropCached (dropCached (fillLines (fillLines { s with job := some j } j nt x) j tr y) nt n) tr n)).job = some j := by
  rw [sendBindings_job, dropCached_job, dropCached_job, fillLines_job, fillLines_job]

/-- Settles O40: the checks of BASE_LOAD in their order. Filling the segments, dropping cached lines and sending the bindings leave the job alone, so the
two generations are those that `setBase` writes. -/
theorem baseResults : Obligations.BaseResults := by
  intro acc s c j k hj hready hk
  refine ⟨fun hflag => ?load, fun hflag => ?retire⟩
  case load =>
    have hexec : exec (.baseLoad acc) s = _ := onJob_eq hready hj
    dsimp only at hexec
    rw [← hk, if_neg (by omega)] at hexec
    refine ⟨fun hloaded => ?_, fun hloaded => ⟨fun e hread => ?_, fun b nt tr nl hread hnt htr hnl => ?_⟩⟩
    · rw [hexec, if_pos hloaded]
    all_goals
      rw [if_neg (by simp [hloaded]), hread] at hexec
      dsimp only at hexec
    · exact hexec
    rw [← hnt, ← htr, ← hnl] at hexec
    refine ⟨fun hdir => ?_, fun tbl hdir hbad => ?_, fun tbl hdir hlen hnat htrn => ⟨fun hfenced => ?_, fun hclear hone => ?_⟩⟩
    all_goals
      rw [hdir] at hexec
      dsimp only at hexec
    · exact hexec
    · rw [hexec, if_pos (by simpa [or_assoc] using hbad)]
    all_goals rw [if_neg (by simp [hlen, hnat, htrn])] at hexec
    · rw [hexec, if_pos (List.any_eq_true.mpr hfenced)]
    · rw [if_neg (by simp only [any_false _ _ hclear, Bool.false_eq_true, not_false_eq_true])] at hexec
      have hload := baseOf_setBase_other (k := k) (v := { baseOf j (1 - k) with current := false }) (h := hone)
      refine ⟨_, _, hexec, loadedBase_job _ _ _ _ _ _ _, ?_, ?_, ?_, ?_, ?_, baseSet _ _ _⟩ <;> rw [hload, baseSet]
  case retire =>
    have hexec : exec (.baseRetire acc) s = _ := onJob_eq hready hj
    dsimp only at hexec
    rw [← hk] at hexec
    refine ⟨fun hwait => ?_, fun hdone hone => ?_⟩
    · rw [hexec, if_pos (by simp [hwait])]
    · rw [if_neg (by simp [hflag, hdone])] at hexec
      exact ⟨_, _, hexec, sendBindings_job _, baseSet _ _ _, baseSetOther _ _ _ hone⟩

end Sys2Proof.Proofs
end

section
/-! The serving step: a parked request's limit, the step boundary and the step's start. -/

namespace Sys2Proof.Proofs

open Sys2Proof.Machine Sys2Proof.Safety Sys2Proof.Laws

theorem jobOf_of_some {s : State} {j : Job} (h : s.job = some j) : jobOf s = j := by
  unfold jobOf; rw [h]; rfl

/-- The current job may build and start steps: it is open or closing (R306, R312). -/
theorem stepRefused_eq_false {s : State} {j : Job} (hup : hubUp s = true) (hst : j.st = 2 ∨ j.st = 7) :
    (!hubUp s || !(decide (j.st = 2) || decide (j.st = 7))) = false := by
  rw [hup]; rcases hst with h | h <;> simp [h]

/-! ### The step boundary (R312, R316) -/

/-- A boundary leaves a built step exactly where some sequence took a row, whatever the walk over the domains did before: recording the free pages
leaves the sequences. -/
theorem stepReady_built {o : Option Job} {k : Job} (h : o.map (fun m => refreshFree { m with stepReady := decide (0 < stepUsed m) }) = some k) :
    k.stepReady = true ↔ 0 < stepUsed k := by
  obtain ⟨m, _, rfl⟩ := Option.map_eq_some_iff.mp h
  exact decide_eq_true_iff

theorem exec_stepBoundary_waits {s : State} {j : Job} (hj : s.job = some j) (h : j.stepping = true ∨ j.stepReady = true) :
    exec .stepBoundary s = .next s := by
  show execStepBoundary s = _
  unfold execStepBoundary
  rw [hj]
  exact if_pos (by rcases h with h | h <;> simp [h])

theorem exec_stepBoundary_builds {s : State} {j : Job} (hj : s.job = some j) (hup : hubUp s = true) (hst : j.st = 2 ∨ j.st = 7)
    (hrun : j.stepping = false) (hbuilt : j.stepReady = false) :
    ∃ t, exec .stepBoundary s = .next t ∧ ∀ k, t.job = some k → (k.stepReady = true ↔ 0 < stepUsed k) := by
  show ∃ t, execStepBoundary s = .next t ∧ _
  unfold execStepBoundary
  rw [hj]
  dsimp only
  rw [if_neg (by simp only [stepRefused_eq_false hup hst, hrun, hbuilt, Bool.or_self, Bool.false_eq_true, not_false_eq_true])]
  generalize List.foldl boundaryDomain _ (List.range 8) = w
  exact ⟨_, rfl, fun k hk => stepReady_built hk⟩

/-! ### The step's start (R253, R315, R317) -/

/-- A set of glades is free where each is idle and its half acts. -/
theorem gladesFree_of {s : State} {gs : List Nat} (h : ∀ g ∈ gs, (gladeOf s g).cmd = 0 ∧ halfActs s g = true) : gladesFree s gs = true :=
  List.all_eq_true.mpr fun g hg => by simp [h g hg]

/-- Settles O33: the clock at a parked request's limit, the step boundary, and the step's start. -/
theorem servingStepResults : Obligations.ServingStepResults := by
  intro s j hj hup hst
  refine ⟨fun acc q hopen hq => ?limit, exec_stepBoundary_waits hj, exec_stepBoundary_builds hj hup hst,
    fun gs s0 s1 n hgs hbuilt hrun hsome hprog hidle hframe hawake hs0 hn hs1 => ?start⟩
  case limit =>
    show execParkLimitExpiry acc s = _
    unfold execParkLimitExpiry
    rw [jobOf_of_some hj, hq]
    exact if_pos (by simp [hup, jobOpen, jobSt, hj, hopen])
  case start =>
    have hheld : gs.any (gladeHeld s) = false := any_false _ _ fun g hg => (hidle g hg).1
    have hfree : gladesFree s gs = true := gladesFree_of fun g hg => (hidle g hg).2
    subst hgs hs1 hn hs0
    show execStepStart s = _
    unfold execStepStart
    rw [hj]
    dsimp only
    rw [if_neg ?starts, if_neg (by simp [hawake])]
    case starts =>
      simp only [stepRefused_eq_false hup hst, hbuilt, hrun, hsome, hprog, hheld, hfree, hframe, decide_false, Bool.not_true, Bool.or_self,
        Bool.false_eq_true, not_false_eq_true]

end Sys2Proof.Proofs
end

section
/-! Loading and releasing expert slots: UPDATE in MODE 1, ADAPTER_LOAD, ADAPTER_SWITCH and SLOT_RELEASE_DONE. -/

namespace Sys2Proof.Proofs

open Sys2Proof.Machine Sys2Proof.Safety Sys2Proof.Laws

/-! ### ADAPTER_SWITCH (R247, R292) -/

/-- The shape that an ADAPTER_LOAD gives its slot (R241, R244). -/
def loadShape (c : Cmd) (v : Slot) : Slot :=
  { v with layer := opB c 4 1 8, width := BitVec.ofNat 6 (opN c 5 1), blk := BitVec.ofNat 2 (opN c 5 1 / 64), tcopy := decide (opN c 6 1 % 2 = 1) }

theorem exec_adapterSwitch_of_load {acc : BitVec 64} {s : State} {c : Cmd} {j : Job} (hj : s.job = some j) (hready : ready s acc 0x47 = some c)
    (hload : (opN c 6 1).testBit 1 = false) (hph : c.ph = .running) (hearlier : earlierAll s acc j = true) :
    exec (.adapterSwitch acc) s = .next (finish (switchSlot s j (opN c 0 2) (opN c 24 8) (loadShape c)) acc stOk) := by
  obtain ⟨hfind, hup⟩ := ready_of hready
  have hsome := Option.isSome_of_eq_some hready
  show execAdapterSwitch acc s = _
  unfold execAdapterSwitch
  rw [hfind, hj]
  dsimp only
  rw [if_neg (by simp [hph, hup, hearlier]), if_pos (by simpa [ready_opc hready, hload] using hsome)]
  rfl

theorem exec_adapterSwitch_of_install {acc : BitVec 64} {s : State} {c : Cmd} {j : Job} (hj : s.job = some j) (hready : ready s acc 0x05 = some c)
    (hmode : opN c 0 1 = 1) (hph : c.ph = .running) (hearlier : earlierAll s acc j = true) :
    exec (.adapterSwitch acc) s = .next (finish (switchSlot s j (opN c 4 2) (opN c 16 8) id) acc stOk) := by
  obtain ⟨hfind, hup⟩ := ready_of hready
  have hsome := Option.isSome_of_eq_some hready
  show execAdapterSwitch acc s = _
  unfold execAdapterSwitch
  rw [hfind, hj]
  dsimp only
  rw [if_neg (by simp [hph, hup, hearlier]), if_neg (by simp [ready_opc hready]), if_pos (by simpa [ready_opc hready, hmode] using hsome)]

/-! ### The statement about loads and switches (R245, R247, R292) -/

/-- Settles O35: the checks of UPDATE in MODE 1 and of ADAPTER_LOAD in their order, and the one slot that a switch replaces. -/
theorem adapterLoadResults : Obligations.AdapterLoadResults := by
  intro acc s c j hj
  refine ⟨fun ix src home n v t hready hmode hph hix hturn hsrc hhome hv ht hn => ?install,
    fun ix t n v hready hload hph hix ht hturn hn hv => ?load, fun ix v hready hload hph hearlier hix hv => ?switch,
    fun hready hmode hph hearlier => exec_adapterSwitch_of_install hj hready hmode hph hearlier⟩
  case install =>
    have hexec : exec (.install acc) s = _ := onJob_eq hready hj
    dsimp only at hexec
    rw [← hix, ← hsrc, ← hhome, ← hv, ← ht, ← hn, if_neg (by simp [hmode, hph, hturn])] at hexec
    refine ⟨fun hst => ?_, fun hfree hreleasing => ⟨fun hbound => ?_, fun hbound hcover => ?_, fun hbound hcover hhomeOk hjoin hlimit => ?_,
      fun b hbound hcover hhomeOk hjoin hgen heval hread => ?_⟩⟩
    · rw [hexec, if_pos (by simpa using hst)]
    all_goals rw [if_neg (by simp [hfree, hreleasing])] at hexec
    · rw [hexec, if_pos (by simp [hbound])]
    all_goals rw [if_neg (by simp [hbound])] at hexec
    · rw [hexec, if_pos (by simpa using hcover)]
    all_goals
      rw [if_neg (by simp [hcover, hhomeOk]), if_neg (by
        rw [any_false _ _ fun x hx => Option.isNone_eq_false_iff.mpr (hjoin x hx)]; exact Bool.false_ne_true)] at hexec
    · rw [hexec, if_pos (by simpa using hlimit)]
    · rw [hexec, if_neg (by simp only [decide_eq_false hgen, heval, Bool.or_self, Bool.false_eq_true, not_false_eq_true]), hread]
  case load =>
    have hexec : exec (.adapterLoad acc) s = _ := onJob_eq hready hj
    dsimp only at hexec
    rw [← hix, ← ht, ← hn, ← hv, if_neg (by simp [hload, hph, hturn])] at hexec
    refine ⟨fun hbound => ?_, fun e hbound hread => ?_, fun b hbound hread => ⟨fun hused howner => ?_, fun hmine => ⟨fun hbad => ?_,
      fun hwidth hfits hgen => ⟨fun hhome => ?_, fun hhome hlen => ?_, fun hhome hlen => ?_⟩⟩⟩⟩
    · rw [hexec, if_pos (by simp [hbound])]
    all_goals
      rw [if_neg (by simp [hbound]), hread] at hexec
      dsimp only at hexec
    · exact hexec
    · rw [hexec, if_pos (by simp [hused, howner])]
    all_goals rw [if_neg (by rcases hmine with h | h <;> simp [h])] at hexec
    · rw [hexec, if_pos (by simpa [or_assoc] using hbad)]
    all_goals
      rw [if_neg (by simp only [hwidth, hfits, decide_eq_false hgen, Bool.not_true, Bool.or_self, Bool.false_eq_true, not_false_eq_true])] at hexec
    · rw [hexec, if_pos (by simp [hhome])]
    all_goals rw [if_neg (by simp [hhome])] at hexec
    · rw [hexec, if_pos hlen]
    · rw [hexec, if_neg (by simp [hlen])]
  case switch =>
    subst hv hix
    refine ⟨_, _, _, exec_adapterSwitch_of_load hj hready hload hph hearlier, rfl, (slotOf_setSlot_same _ _ _).symm, rfl, rfl, rfl, rfl, rfl, rfl,
      fun hres => if_neg hres, fun hst hten => if_neg (by simp [hst, hten]), fun i hi => slotOf_setSlot_ne _ _ hi⟩

/-! ### The statement about releases (R245, R248) -/

/-- A released slot is free: its generation has risen, every copy of it is dropped, and an ADAPTER_LOAD that released it has completed. -/
theorem exec_slotReleaseDone_frees {s : State} {j : Job} {ix : Fin 65536} {v : Slot} (hj : s.job = some j) (hv : v = slotOf j ix.val)
    (hup : hubUp s = true) (hst : v.st = .releasing) (huse : v.use = 0) (hearlier : earlierAll s v.relAcc j = true) :
    ∃ t, exec (.slotReleaseDone ix) s = .next t ∧ t.job = some (setSlot j ix.val { gen := satAdd v.gen 1 }) ∧
      ∀ d, findCmd s v.relAcc = some d → opcOf d = 0x47 → d.ph = .running →
        findCmd t v.relAcc = some { d with ph := .done, status := finalStatus d stOk } := by
  have hexec : exec (.slotReleaseDone ix) s = execSlotReleaseDone ix s := rfl
  unfold execSlotReleaseDone at hexec
  rw [hj] at hexec
  dsimp only at hexec
  rw [← hv, if_neg (by simp [hst, huse, hup, hearlier])] at hexec
  generalize hs1 : dropCached _ v.home.toNat v.size = s1 at hexec
  have hjob : s1.job = some (setSlot j ix.val { gen := satAdd v.gen 1 }) := hs1 ▸ rfl
  have hfind : findCmd s1 v.relAcc = findCmd s v.relAcc := hs1 ▸ rfl
  rw [hfind] at hexec
  cases hc : findCmd s v.relAcc with
  | none =>
    rw [hc] at hexec
    exact ⟨s1, hexec, hjob, fun d hd => nomatch hd⟩
  | some c =>
    rw [hc] at hexec hfind
    dsimp only at hexec
    by_cases hload : opcOf c = 0x47 ∧ c.ph = .running
    · rw [if_pos (by simp [hload])] at hexec
      refine ⟨_, hexec, hjob, fun d hd _ hph => ?_⟩
      cases hd
      rw [findCmd_finish s1 _ _ hfind, if_neg (by simp [hph])]
    · rw [if_neg (by simpa using hload)] at hexec
      refine ⟨s1, hexec, hjob, fun d hd hopc hph => ?_⟩
      cases hd
      exact absurd ⟨hopc, hph⟩ hload

theorem exec_slotReleaseDone_waits {s : State} {j : Job} {ix : Fin 65536} {v : Slot} (hj : s.job = some j) (hv : v = slotOf j ix.val)
    (h : v.use ≠ 0 ∨ earlierAll s v.relAcc j = false) : exec (.slotReleaseDone ix) s = .next s := by
  show execSlotReleaseDone ix s = _
  unfold execSlotReleaseDone
  rw [hj]
  dsimp only
  rw [← hv]
  exact if_pos (by rcases h with h | h <;> simp only [h, ne_eq, not_false_eq_true, decide_true, Bool.not_false, Bool.or_true, Bool.true_or])

/-- Settles O36: the checks of ADAPTER_LOAD with RELEASE in their order, and the slot that SLOT_RELEASE_DONE frees. -/
theorem slotReleaseResults : Obligations.SlotReleaseResults := by
  intro acc s c j hj
  refine ⟨fun ix t v hready hrelease hph hix ht hv hturn => ?release, fun ix v hv hup hst =>
    ⟨exec_slotReleaseDone_waits hj hv, fun huse hearlier => ?done⟩⟩
  case release =>
    have hexec : exec (.adapterRelease acc) s = _ := onJob_eq hready hj
    dsimp only at hexec
    rw [← hix, ← ht, ← hv, if_neg (by simp [hrelease, hph, hturn])] at hexec
    refine ⟨fun hbound => ?_, fun e hbound hread => ?_, fun b hbound hread => ⟨fun hfree => ?_, fun hused howner => ?_, fun hused howner => ?_⟩⟩
    · rw [hexec, if_pos (by simp [hbound])]
    all_goals
      rw [if_neg (by simp [hbound]), hread] at hexec
      dsimp only at hexec
    · exact hexec
    · rw [hexec, if_pos hfree]
    all_goals rw [if_neg hused] at hexec
    · rw [hexec, if_pos howner]
    · rw [hexec, if_neg (by simp [howner])]
  case done =>
    obtain ⟨t, hexec, hjob, hload⟩ := exec_slotReleaseDone_frees hj hv hup hst huse hearlier
    exact ⟨t, _, _, hexec, hjob, (slotOf_setSlot_same _ _ _).symm, rfl, rfl, rfl, rfl, fun i hi => slotOf_setSlot_ne _ _ hi,
      fun d _ _ hopc hph hd => hload d hd hopc hph⟩

end Sys2Proof.Proofs
end

section
/-! Residency: ADAPTER_PREFETCH, ADAPTER_EVICT and ADAPTER_FETCH_DONE. -/

namespace Sys2Proof.Proofs

open Sys2Proof.Machine Sys2Proof.Safety Sys2Proof.Laws

/-! ### A command that names one slot (R254) -/

/-- The one copy that a prefetch names has got there: it is HOT, or CACHED where no more was asked. -/
theorem arrived_singleton {j : Job} {i : Nat} {hot : Bool} :
    ([i].all fun i => decide ((slotOf j i).res = .hot) || (!hot && decide ((slotOf j i).res = .cached))) = true ↔
      (slotOf j i).res = .hot ∨ (hot = false ∧ (slotOf j i).res = .cached) := by
  simp

/-- The one copy that an evict names has gone: from HOT where that was asked, else to HOME. -/
theorem gone_singleton {j : Job} {i : Nat} {hot : Bool} :
    ([i].all fun i => if hot then decide ((slotOf j i).res ≠ .hot) else decide ((slotOf j i).res = .home)) = true ↔
      if hot then (slotOf j i).res ≠ .hot else (slotOf j i).res = .home := by
  cases hot <;> simp

/-! ### The statement about residency (R253 to R255, R264) -/

/-- Settles O37: the checks of ADAPTER_PREFETCH and ADAPTER_EVICT in their order with what each does to the slot it names, and the end of a fill. -/
theorem residencyResults : Obligations.ResidencyResults := by
  intro acc s c j hj
  refine ⟨fun hot l hready hhot hl => ?prefetch, fun i v hready hl hv => ?evict, fun ix v hup hst hv hres => ?fill⟩
  case prefetch =>
    have hexec : exec (.adapterPrefetch acc) s = _ := onJob_eq hready hj
    dsimp only at hexec
    rw [← hhot, ← hl] at hexec
    refine ⟨fun hph hserves => ?_, fun hph hserves => ⟨fun hturn => ?_, fun hturn hfits => ?_, fun hturn hfits hnone => ?_,
      fun i v k u x hturn hone hfits hv hk hu hx => ?_⟩, fun i v k u hph hone hv hk hu => ?again⟩
    case again =>
      rw [if_neg (by simp [hph]), hone] at hexec
      simp only [List.foldl_cons, List.foldl_nil, Bool.and_eq_true, decide_eq_true_eq, ← hv] at hexec
      rw [← hk, ← hu] at hexec
      rw [hexec]
      exact congrArg _ (if_congr arrived_singleton rfl rfl)
    all_goals rw [if_pos hph] at hexec
    · rw [hexec, if_pos (by simp [hserves])]
    all_goals rw [if_neg (by simp [hserves])] at hexec
    · rw [hexec, if_pos (by simp [hturn])]
    all_goals rw [if_neg (by simp [hturn])] at hexec
    · rw [hexec, if_pos (by simp [hfits])]
    all_goals rw [if_neg (by simp [hfits])] at hexec
    · rw [hnone] at hexec
      exact hexec
    · subst hone hv hk hu hx
      rw [hexec]
      exact congrArg _ (if_congr arrived_singleton rfl rfl)
  case evict =>
    have hexec : exec (.adapterEvict acc) s = _ := onJob_eq hready hj
    dsimp only at hexec
    rw [hl] at hexec
    refine ⟨fun hph hserves => ?_, fun k hgoes hk => ?_⟩
    · rw [hexec, if_pos (by simp [hph, hserves])]
    · rw [if_neg (by rcases hgoes with ⟨hph, hserves, _⟩ | hph <;> simp [*]), if_neg (by rcases hgoes with ⟨_, _, hturn⟩ | hph <;> simp [*])] at hexec
      subst hv hk
      rw [hexec]
      exact congrArg _ (if_congr gone_singleton rfl rfl)
  case fill =>
    have hexec : exec (.adapterFetchDone ix) s = execAdapterFetchDone ix s := rfl
    unfold execAdapterFetchDone at hexec
    rw [hj] at hexec
    dsimp only at hexec
    rw [← hv, if_neg (by rcases hst with h | h <;> simp [hup, h]), if_neg (by simp [hres])] at hexec
    refine ⟨fun hgen => ?_, fun hgen hread hfirst => ?_, fun hgen hread hagain => ?_, fun b k hgen hread hk => ?_⟩
    · rw [hexec, if_pos hgen]
    all_goals
      rw [if_neg (by simp [hgen]), hread] at hexec
      dsimp only at hexec
    · rw [hexec, if_neg (by simp [hfirst])]
    · rw [hexec, if_pos hagain]
    · rw [hexec, hk]

end Sys2Proof.Proofs
end

section
/-! Training steps: UPDATE in MODE 0, and CHECKPOINT_OUT and CHECKPOINT_IN. -/

namespace Sys2Proof.Proofs

open Sys2Proof.Machine Sys2Proof.Safety Sys2Proof.Laws

/-! ### The gradient step word (R269, R274, R492) -/

theorem stepWordStop_of_poisoned {s : State} {j : Job} {a n : Nat} (hpoison : s.poison.contains (lineOf a) = true) :
    stepWordStop s j a n = some stDevice :=
  if_pos hpoison

theorem stepWordStop_of_other {s : State} {j : Job} {a n : Nat} (hread : s.poison.contains (lineOf a) = false)
    (hother : ¬ (wordPlace s j a = true ∧ leNat (rdBytes s.mem a 8) % 2 ^ 34 = n + 2 ^ 32)) : stepWordStop s j a n = some stStepSkew := by
  unfold stepWordStop
  rw [if_neg (by rw [hread]; exact Bool.false_ne_true), if_neg (by simpa only [Bool.and_eq_true, decide_eq_true_eq] using hother)]

/-! ### The statement about updates (R270, R274, R283, R290) -/

/-- Settles O34: the checks of UPDATE in MODE 0 in their order; past the last of them its units are applied in ascending order. -/
theorem updateResults : Obligations.UpdateResults := by
  rintro acc s c j h g hready hj hmode rfl rfl
  have hexec : exec (.update acc) s = _ := onJob_eq hready hj
  dsimp only at hexec
  refine ⟨fun hturn => ?_, fun hturn => ⟨fun e hcheck => ?_, fun r rows t us hcheck hus => ?checked⟩⟩
  · rw [hexec, if_pos (by simp [hturn])]
  all_goals
    rw [if_neg (by simp [hmode, hturn]), hcheck] at hexec
    dsimp only at hexec
  · exact hexec
  case checked =>
    rw [← hus] at hexec
    refine ⟨fun hword hpoison => ?_, fun hword hread hother => ?_, fun hnamed => ⟨fun hdamaged => ?_, fun hsound => ⟨fun hskew => ?_, fun x hnone hx => ?_⟩⟩⟩
    · rw [if_neg hword, stepWordStop_of_poisoned hpoison] at hexec
      exact hexec
    · rw [if_neg hword, stepWordStop_of_other hread hother] at hexec
      exact hexec
    all_goals rw [ite_eq_left_iff.mpr hnamed.resolve_left, if_neg (by simp)] at hexec
    · obtain ⟨u, hu, hbad⟩ := hdamaged
      rw [hexec, if_pos (by rw [Bool.not_eq_true']; exact List.all_eq_false.mpr ⟨u, hu, by simp [hbad]⟩)]
    all_goals rw [List.all_eq_true.mpr hsound, if_neg (by simp)] at hexec
    · obtain ⟨u, hu, hbad⟩ := hskew
      rw [hexec, if_pos (List.any_eq_true.mpr ⟨u, hu, decide_eq_true hbad⟩)]
    · rw [hexec, any_false _ _ fun u hu => decide_eq_false (hnone u hu), if_neg (by simp), hx]

/-! ### The statement about checkpoints (R285, R295 to R299) -/

/-- Both checkpoint commands begin alike, whatever follows: they wait for their turn (R285), and then ask that the tenant is bound (R297, R298). -/
theorem waits_then_revoked {acc : BitVec 64} {s rest : State} {c : Cmd} {j : Job} {t : Nat} {out : Host.Outcome State Fault Refusal}
    (hout : out = .next (if !tensorTurn s j c then s else if !isBound j t then finish s acc stRevoked else rest)) :
    (tensorTurn s j c = false → out = .next s) ∧ (tensorTurn s j c = true → isBound j t = false → out = .next (finish s acc stRevoked)) :=
  ⟨fun hturn => by rw [hout, if_pos (by simp [hturn])], fun hturn hfree => by rw [hout, if_neg (by simp [hturn]), if_pos (by simp [hfree])]⟩

/-- Settles O38: the checks of CHECKPOINT_OUT and of CHECKPOINT_IN in their order, with the image that the one writes and what the other restores. -/
theorem checkpointResults : Obligations.CheckpointResults := by
  rintro acc s c j t ten hj rfl rfl
  refine ⟨?turn, fun hready hturn hbound => ?out, fun hready hturn hbound => ?into⟩
  case turn =>
    rintro o (rfl | rfl) hready
    · rw [if_pos rfl]
      exact waits_then_revoked (onJob_eq hready hj)
    · rw [if_neg (by decide)]
      exact waits_then_revoked (onJob_eq hready hj)
  case out =>
    have hexec : exec (.checkpointOut acc) s = _ := onJob_eq hready hj
    dsimp only at hexec
    rw [if_neg (by simp [hturn]), if_neg (by simp [hbound])] at hexec
    refine ⟨fun hcount => ?_, fun rs need hfirst hlast hcheck hneed => ⟨fun hbarred => ?_, fun key hkey hallowed => ⟨fun hshort => ?_,
      fun pt iv s1 hroom hpublic hplain hiv hwrite => ?_⟩⟩⟩
    · rw [hexec, if_pos (by simpa using hcount)]
    all_goals
      rw [if_neg (by simp only [Bool.or_eq_true, decide_eq_true_eq]; omega), hcheck] at hexec
      dsimp only at hexec
      rw [← hneed] at hexec
    · rw [hexec]
      cases hkey : (tenOf j (opN c 0 2 % 4096)).ckpt with
      | none => rfl
      | some key => exact congrArg _ (if_pos (by simp [hbarred.resolve_left (by simp [hkey])]))
    all_goals
      rw [hkey] at hexec
      dsimp only at hexec
      rw [if_neg (by simp [hallowed])] at hexec
    · rw [hexec, if_pos hshort]
    · rw [if_neg hroom.not_gt, any_false _ _ fun l hl => ?owned, if_neg (by simp), hplain] at hexec
      case owned =>
        split
        next g hg => simp [hpublic l hl g hg]
        next => rfl
      dsimp only at hexec
      rw [← hiv, hwrite] at hexec
      dsimp only at hexec
      rw [hexec, hkey]
  case into =>
    have hexec : exec (.checkpointIn acc) s = _ := onJob_eq hready hj
    dsimp only at hexec
    rw [if_neg (by simp [hturn]), if_neg (by simp [hbound])] at hexec
    refine ⟨fun e hread => ?_, fun b hread hfirst hlast => ⟨fun hother => ?_, fun e hmatches hcheck => ?_, fun rs hmatches hcheck => ?_⟩⟩
    all_goals
      rw [hread] at hexec
      dsimp only at hexec
    · exact hexec
    all_goals rw [if_neg (by simp only [Bool.or_eq_true, decide_eq_true_eq]; omega)] at hexec
    · rw [hexec, if_pos (by simp [hother])]
    all_goals
      rw [if_neg (by simp [hmatches]), hcheck] at hexec
      exact hexec

end Sys2Proof.Proofs
end

section
/-! Frames: FRAME with its release, its dispatch and the end of its program, and STREAM_SET. -/

namespace Sys2Proof.Proofs

open Sys2Proof.Machine Sys2Proof.Safety Sys2Proof.Laws

/-! ### A frame's intake, release and dispatch (R320, R321, R323, R499) -/

theorem frStream_eq (c : Cmd) : frStream c = opN c 0 2 := rfl

theorem exec_frame_intake {acc : BitVec 64} {s : State} {c : Cmd} {j : Job} (hready : ready s acc 0x04 = some c) (hj : s.job = some j)
    (hsets : streamBusy s c 0x4A (fun _ => true) = false) (hframes : streamBusy s c 0x04 (fun d => d.release.isNone) = false) :
    exec (.frame acc) s = .next (frameIntake s c j) :=
  (onJob_eq hready hj).trans (congrArg Host.Outcome.next (if_neg (by rw [hsets, hframes]; exact Bool.false_ne_true)))

theorem exec_frameRelease {acc : BitVec 64} {s : State} {c : Cmd} {r : BitVec 64} (hready : ready s acc 0x04 = some c) (hrel : c.release = some r)
    (hph : c.ph = .accepted) : exec (.frameRelease acc) s = .next (advanceTo s r.toNat) := by
  obtain ⟨hfind, hup⟩ := ready_of hready
  show execFrameRelease acc s = _
  unfold execFrameRelease
  rw [hfind]
  dsimp only
  rw [hrel]
  exact if_pos (by simp [hph, hup])

/-- A frame that can be dispatched has a glade of its stream left. -/
theorem frameCan_glades {s : State} {j : Job} {c : Cmd} (h : frameCan s j c = true) : gladesIn s (streamOf j (frStream c)).glades ≠ [] := by
  simp only [frameCan, Bool.and_eq_true, decide_eq_true_eq] at h
  obtain ⟨⟨⟨_, hglades⟩, _⟩, _⟩ := h
  exact hglades

/-! ### The end of a frame's program (R322, R324) -/

/-- A command that noted no drop and no condition ends with its own status (R511). -/
theorem finalStatus_unmarked {c : Cmd} (st : Byte) (hstrict : c.strictHit = false) (hfrozen : c.frozen = false) (hwarn : c.warn = false) :
    finalStatus c st = st := by
  unfold finalStatus
  rw [hstrict, hfrozen, hwarn, if_neg Bool.false_ne_true]
  by_cases hst : st = 0
  · subst hst
    rfl
  · rw [if_pos hst, ite_self]

/-- The stream as the end of a frame's program leaves it: the estimate of the program that ran has learned from a run of time `x`
that ended OK, FALLBACK or LATE, and a late frame is counted (R322, R324). -/
def learnedStream (t : Stream) (fallback : Bool) (st : Byte) (x : Nat) : Stream :=
  let t1 := if st = stOk || st = stFallback || st = stLate then
      (if fallback then { t with eFb := (learn x t.eFb t.dFb).1, dFb := (learn x t.eFb t.dFb).2 }
       else { t with eMain := (learn x t.eMain t.dMain).1, dMain := (learn x t.eMain t.dMain).2 })
    else t
  if st = stLate then { t1 with lates := satAdd t1.lates 1 } else t1

/-- A fault status teaches the monitor nothing. -/
theorem learnedStream_fault (t : Stream) (fallback : Bool) {st : Byte} (x : Nat) (h : 16 ≤ st.toNat) : learnedStream t fallback st x = t := by
  have hok : st ≠ stOk := by rintro rfl; exact absurd h (by decide)
  have hfb : st ≠ stFallback := by rintro rfl; exact absurd h (by decide)
  have hlate : st ≠ stLate := by rintro rfl; exact absurd h (by decide)
  simp [learnedStream, hok, hfb, hlate]

/-- The main program's run that ended on time or late: its estimate learns, and a late one is counted. -/
theorem learnedStream_main (t : Stream) (late : Prop) [Decidable late] (x : Nat) :
    learnedStream t false (if late then stLate else stOk) x = { t with
      eMain := t.eMain + ((x : Int) - t.eMain).tdiv 8, dMain := t.dMain + (((((x : Int) - t.eMain).natAbs : Nat) : Int) - t.dMain).tdiv 4,
      lates := if late then satAdd t.lates 1 else t.lates } := by
  by_cases h : late
  · rw [if_pos h, if_pos h]
    rfl
  · rw [if_neg h, if_neg h]
    rfl

/-- A program that ended without a fault has the status LATE exactly where it ended late (R324). -/
theorem lateStatus_iff (late : Prop) [Decidable late] : (if late then stLate else stOk) = stLate ↔ late := by
  by_cases h : late
  · simp [h]
  · simp [h, stOk, stLate]

theorem exec_frameProgramEnd {acc : BitVec 64} {s : State} {c : Cmd} {j : Job} {r : BitVec 64} {own : Byte} (hready : ready s acc 0x04 = some c)
    (hj : s.job = some j) (hrel : c.release = some r) (hph : c.ph = .running) (hprog : c.progress ≠ 0) (hstrict : c.strictHit = false)
    (hfrozen : c.frozen = false) (hwarn : c.warn = false)
    (hown : own = if c.status ≠ 0 then c.status else if frDeadline j c r < s.hub.time.toNat then stLate else if c.fallback then stFallback else stOk) :
    exec (.frameProgramEnd acc) s = .next (finishWith { s with
      job := some (setStream j (frStream c) (learnedStream (streamOf j (frStream c)) c.fallback own (s.hub.time.toNat - c.started.toNat))) } acc own
      (natLe (if own = stLate then min (s.hub.time.toNat - frDeadline j c r) (2 ^ 32 - 1) else 0) 4 ++ [BitVec.ofNat 8 (nat c.fallback)])) := by
  have hexec : exec (.frameProgramEnd acc) s = _ := onJob_eq hready hj
  rw [hrel] at hexec
  dsimp only at hexec
  rw [if_neg (by simp [hph, hprog])] at hexec
  simp only [finalStatus_unmarked _ hstrict hfrozen hwarn, decide_eq_true_eq, ← hown] at hexec
  exact hexec

/-! ### The statement about frames and streams -/

/-- Settles O31: FRAME and FRAME_DISPATCH by their checks in order, the end of a frame's program by the stream that it leaves, and STREAM_SET by its
wait and its checks. -/
theorem frameResults : Obligations.FrameResults := by
  refine ⟨fun acc s c j t hready hj ht => ⟨fun hph hnone hsets hframes => ?intake, fun r hrel hph => exec_frameRelease hready hrel hph,
    fun r hrel hph hgone => ?gone, fun r gs slot hrel hcan hfirst hgs hawake hslot hprog => ?dispatch⟩,
    fun acc s c j t hj ht => ⟨fun r own dl hready hrel hph hprog hstrict hfrozen hwarn hdl hown => ?ended, fun hready => ?streamSet⟩⟩
  case intake =>
    have hexec := exec_frame_intake hready hj hsets hframes
    unfold frameIntake at hexec
    dsimp only at hexec
    rw [if_neg (by simp [hph, hnone]), frStream_eq, ← ht] at hexec
    refine ⟨fun hbad => ?_, fun hlow hon hrevoked => ?_, fun hlow hon hserves hgone => ?_, fun r hlow hon hserves hglades hr => ?_⟩
    · rw [hexec, if_pos (by simpa using hbad)]
    all_goals rw [if_neg (by simp [hlow, hon])] at hexec
    · rw [hexec, if_pos (by simp [hrevoked])]
    all_goals rw [if_neg (by simp [hserves])] at hexec
    · rw [hexec, if_pos hgone]
    · subst hr
      exact hexec.trans (congrArg Host.Outcome.next (if_neg hglades))
  case gone =>
    subst ht
    exact (onJob_eq hready hj).trans (congrArg Host.Outcome.next (if_pos (by simp [hph, hrel, frStream_eq, hgone])))
  case dispatch =>
    have hexec : exec (.frameDispatch acc) s = _ := onJob_eq hready hj
    have hturn : s.cmds.any (fun d => frameCan s j d && frameBefore j d c) = false :=
      any_false _ _ fun d hd => Bool.and_eq_false_imp.mpr (hfirst d hd)
    dsimp only at hexec
    rw [if_neg (by simp [frameCan_glades hcan]), if_neg (by simp [hcan, hturn]), frStream_eq, ← ht, ← hgs, if_neg (by simp [hawake]),
      hrel] at hexec
    dsimp only at hexec
    rw [← hslot, if_neg hprog] at hexec
    exact hexec
  case ended =>
    subst ht hdl
    have hexec := exec_frameProgramEnd hready hj hrel hph hprog hstrict hfrozen hwarn hown
    refine ⟨fun hfault => ?_, fun x hok hmain hx => ?_⟩
    · have hnotLate : own ≠ stLate := by rintro rfl; exact absurd hfault (by decide)
      rw [learnedStream_fault _ _ _ hfault, if_neg hnotLate] at hexec
      exact hexec
    · rw [if_neg (not_not.mpr hok), hmain, if_neg Bool.false_ne_true] at hown
      rw [hmain, hown, learnedStream_main, if_congr (lateStatus_iff _) rfl rfl, ← hown, ← hx] at hexec
      exact hexec
  case streamSet =>
    have hexec : exec (.streamSet acc) s = _ := onJob_eq hready hj
    dsimp only at hexec
    refine ⟨fun hbusy => ?_, fun hfree => ⟨fun hbad => ?_, fun hok hbound => ?_⟩⟩
    · rw [hexec, if_pos hbusy]
    all_goals rw [if_neg (Bool.eq_false_iff.mp hfree)] at hexec
    · rw [hexec, if_pos (by simpa using hbad)]
    · rw [if_neg (by simp [hok, hbound])] at hexec
      subst ht
      refine ⟨_, _, hexec, rfl, rfl, rfl, rfl, ?_, rfl, rfl, rfl, rfl, rfl, rfl, fun hoff => ⟨?_, ?_⟩⟩
      · exact BitVec.eq_of_toNat_eq (by simp)
      · exact if_pos (by simp [frStream_eq, hoff])
      · exact if_pos (by simp [frStream_eq, hoff])

end Sys2Proof.Proofs
end

section
/-! Sequences: ADMIT and RETIRE. -/

namespace Sys2Proof.Proofs

open Sys2Proof.Machine Sys2Proof.Safety Sys2Proof.Laws

/-- A RETIRE that names no accepted command finds no sequence (R311). -/
theorem exec_retire_unnamed {acc : BitVec 64} {s : State} {c : Cmd} {j : Job} (hready : ready s acc 0x03 = some c) (hj : s.job = some j)
    (hnone : findCmd s (opB c 8 8 64) = none) : exec (.retire acc) s = .next (finish s acc stWarn) := by
  have hexec : exec (.retire acc) s = _ := onJob_eq hready hj
  dsimp only at hexec
  simp only [hnone] at hexec
  rw [hexec, Bool.false_and, if_neg Bool.false_ne_true, List.find?_eq_none.mpr]
  intro q _
  by_cases hq : q.acc = opB c 8 8 64
  · simp [hq, hnone]
  · simp [hq]

/-- Settles O32: the checks of ADMIT in their order, and RETIRE by the sequence that it names. -/
theorem admitRetireResults : Obligations.AdmitRetireResults := by
  intro acc s c j hj
  refine ⟨fun hready hph => ?admission, fun d q hready hd hring hopc hjob hrun hq => c5r acc s c j d q hj hready hd hring hopc hjob hrun hq,
    fun hready hnone => exec_retire_unnamed hready hj hnone⟩
  case admission =>
    have hexec : exec (.admitSeq acc) s = _ := onJob_eq hready hj
    dsimp only at hexec
    rw [if_neg (by simp [hph])] at hexec
    refine ⟨fun hfree => ?_, fun hbound hbad => ?_, fun b q hbound hprompt hnew hlimit hspill hread hq => ?_⟩
    · rw [hexec, if_pos (by simp [hfree])]
      rfl
    all_goals rw [if_neg (by simp [hbound])] at hexec
    · rw [hexec, if_pos (by simp only [Bool.or_eq_true, decide_eq_true_eq]; tauto)]
      rfl
    · rw [if_neg (by simp only [hprompt, hnew, hspill, Bool.or_eq_true, decide_eq_true_eq]; simpa using hlimit), hread] at hexec
      rw [hexec, hq]

end Sys2Proof.Proofs
end

section
/-! Jobs: JOB_OPEN and JOB_CLOSE. -/

namespace Sys2Proof.Proofs

open Sys2Proof.Machine Sys2Proof.Safety Sys2Proof.Laws

/-! ### JOB_OPEN (R302, R303) -/

/-- Setting the forecast table's tags leaves every part of the state but the tags. -/
theorem fcastTags_eq (s : State) (base : Nat) : ∃ tags, fcastTags s base = { s with tags := tags } :=
  ⟨_, congrArg (fun t : State => { t with tags := (fcastTags s base).tags }) (fcastTags_ne s base)⟩

/-- Sending the bindings leaves the domains shown. -/
theorem sendB_domShow (s : State) : (sendBindings s).domShow = s.domShow := by
  show (offLink (sendBindings s)).domShow = _
  rw [sendBindings_off]
  rfl

/-- Raising the command epoch writes it and the halves that adopt it (R503). -/
theorem raiseEpoch_eq (s : State) : ∃ halves, raiseEpoch s = { s with halves := halves, epoch := s.epoch + 1 } := by
  unfold raiseEpoch setHalf
  exact ⟨_, rfl⟩

/-- What follows the stores of an opened job, its forecast table's tags, the raised epoch and its bindings, leaves the rest of the state. -/
theorem opening_keeps {s t : State} {base : Nat} (ht : t = sendBindings (raiseEpoch (fcastTags s base))) :
    t.job = s.job ∧ t.epoch = s.epoch + 1 ∧ t.hub = s.hub ∧ t.mem = s.mem ∧ t.glades = s.glades ∧ t.domShow = s.domShow := by
  obtain ⟨tags, htags⟩ := fcastTags_eq s base
  obtain ⟨halves, hhalves⟩ := raiseEpoch_eq { s with tags := tags }
  rw [ht, htags, hhalves]
  exact ⟨sendB_job _, sendB_epoch _, sendB_hub _, sendB_mem _, sendB_glades _, sendB_domShow _⟩

/-! ### JOB_CLOSE (R306) -/

/-- A JOB_ID that the current job does not have: JOB_CLOSE ends a saved job or is refused, whatever its ABORT flag. -/
theorem exec_jobClose_other {acc : BitVec 64} {s : State} {c : Cmd} (abort : Bool) (hready : ready s acc 0x41 = some c)
    (hflag : opN c 4 1 = if abort then 1 else 0) (hother : ∀ j, s.job = some j → j.id ≠ opB c 0 4 32) :
    exec (if abort then .jobCloseAbort acc else .jobClose acc) s = .next (closeOther s acc (opB c 0 4 32)) := by
  cases abort with
  | true =>
    refine (onCmd_eq hready).trans (congrArg Host.Outcome.next ?_)
    dsimp only
    rw [if_neg (by simp [hflag]), if_neg]
    cases hj : s.job with
    | none => simp
    | some j => simpa using hother j hj
  | false =>
    refine (onCmd_eq hready).trans (congrArg Host.Outcome.next ?_)
    dsimp only
    rw [if_neg (by simp [hflag])]
    cases hj : s.job with
    | none => rfl
    | some j => exact if_pos (hother j hj)

/-- Every command of a job on the rings is done, as JOB_CLOSE waits for (R306). -/
theorem jobCommandsDone_iff {s : State} {id : BitVec 32} :
    s.cmds.all (fun d => !(decide (d.ring ≠ 0) && decide (d.job = id)) || decide (d.ph = .done)) = true ↔
      ∀ d ∈ s.cmds, d.ring ≠ 0 → d.job = id → d.ph = .done := by
  rw [List.all_eq_true]
  refine forall₂_congr fun d _ => ?_
  by_cases hring : d.ring = 0 <;> by_cases hjob : d.job = id <;> simp [hring, hjob]

/-- Settles O42: JOB_OPEN by its check and the state that it leaves, JOB_CLOSE by the job that it names and its ABORT flag. -/
theorem jobOpenCloseResults : Obligations.JobOpenCloseResults := by
  intro acc s c
  refine ⟨fun b j s1 hready hb => ?jobOpen, fun id hready hid => ⟨fun abort hflag hother => ?other, fun j hj hjob => ?current⟩⟩
  case jobOpen =>
    have hexec : exec (.jobOpen acc) s = _ := onCmd_eq hready
    dsimp only at hexec
    rw [← hb] at hexec
    refine ⟨fun hbad => ?_, fun haligned hok hj hs1 => ?_⟩
    · rw [hexec, if_pos (by simpa using hbad)]
    · rw [if_neg (by simp [haligned, hok])] at hexec
      subst hj hs1
      obtain ⟨hjob, hepoch, hhub, hmem, hglades, hshow⟩ := opening_keeps rfl
      refine ⟨_, hexec, hjob, rfl, rfl, rfl, hepoch, ?_, ?_, ?_, ?_, hmem, hglades, hshow⟩ <;> rw [hhub]
  case other =>
    subst hid
    exact exec_jobClose_other abort hready hflag hother
  case current =>
    have habort : exec (.jobCloseAbort acc) s = _ := onCmd_eq hready
    have hclose : exec (.jobClose acc) s = _ := onCmd_eq hready
    dsimp only at habort hclose
    rw [hj] at hclose
    dsimp only at hclose
    rw [← hid] at habort hclose
    refine ⟨fun hflag => ?_, fun hflag hst hdone => ?_, fun hflag hst hopen => ?_, fun hflag hst => ?_⟩
    · rw [habort, if_neg (by simp [hflag]), if_pos (by simp [hj, hjob]), endJob, jobOf_of_some hj, hjob]
    all_goals rw [if_neg (by simp [hflag]), if_neg (by simp [hjob])] at hclose
    · rw [hclose, if_neg (by simp [hst]), if_pos (jobCommandsDone_iff.mpr hdone)]
    · obtain ⟨d, hd, hring, hdjob, hph⟩ := hopen
      rw [hclose, if_neg (by simp [hst]), if_neg fun hall => hph (jobCommandsDone_iff.mp hall d hd hring hdjob)]
    · rw [if_pos hst] at hclose
      refine ⟨_, _, hclose, rfl, rfl, fun e he => ?_⟩
      obtain ⟨_, _, rfl⟩ := List.mem_map.mp he
      rfl

end Sys2Proof.Proofs
end

section
/-! Preemption: JOB_PREEMPT with its two ends, JOB_RESUME and RESTORE_DONE. -/

namespace Sys2Proof.Proofs

open Sys2Proof.Machine Sys2Proof.Safety Sys2Proof.Laws

/-! ### JOB_PREEMPT and the end of its drain (R326, R327, R329) -/

theorem exec_preemptDrainEnd_waits {s : State} {c : Cmd} {j : Job} (hj : s.job = some j) (hctl : runningCtl s 0x42 = some c)
    (hwork : gladesAtRest s = false) : exec .preemptDrainEnd s = .next s := by
  show execPreemptDrainEnd s = _
  unfold execPreemptDrainEnd
  rw [hj, hctl]
  exact if_pos (by simp [hwork])

/-- A drain that ends cancels the remote requests `l` still open, whose time has passed, and the job is SAVING. -/
theorem exec_preemptDrainEnd_ends {s : State} {c : Cmd} {j : Job} {l : List Xfer} (hj : s.job = some j) (hctl : runningCtl s 0x42 = some c)
    (hup : hubUp s = true) (hst : j.st = 3) (hrest : gladesAtRest s = true)
    (hl : l = s.fab.xfers.filter (fun x => x.st = .sent || x.st = .queried || x.st = .preempted)) {u : State}
    (hu : u = l.foldl cancelXfer (if l = [] then s else advanceTo s (max c.started.toNat j.restAt.toNat + j.drainUs * 1000))) :
    exec .preemptDrainEnd s = .next { u with job := u.job.map (fun k => { k with st := 4 }) } := by
  show execPreemptDrainEnd s = _
  unfold execPreemptDrainEnd
  rw [hj, hctl]
  dsimp only
  rw [if_neg (by simp [hst, hrest, hup]), ← hl, ← hu]

/-! ### The end of the save (R327, R328) -/

theorem advanceTo_eq (s : State) (t : Nat) : ∃ now, advanceTo s t = { s with hub := { s.hub with time := now } } := by
  unfold advanceTo
  split
  · exact ⟨s.hub.time, rfl⟩
  · exact ⟨_, rfl⟩

/-- Waiting for the peers' answers takes time and nothing else. -/
theorem answersDue_eq (s : State) : ∃ now, answersDue s = { s with hub := { s.hub with time := now } } := by
  refine foldl_keeps (fun u => ∃ now, u = { s with hub := { s.hub with time := now } }) _ _ s ⟨s.hub.time, rfl⟩ ?_
  rintro _ x ⟨now, rfl⟩
  exact advanceTo_eq _ _

/-- Clearing the save area, or SAVE_HOME, for an image leaves the list of images. -/
theorem imagePlace_saved (p : Prop) [Decidable p] (s : State) (area : List (Nat × Nat)) (home : Nat) :
    (if p then area.foldl (fun s r => clearLines s r.1 r.2) s else homeCleared s home).saved = s.saved := by
  split
  · exact foldl_view State.saved (fun s (r : Nat × Nat) => clearLines s r.1 r.2) (fun _ _ => rfl) area s
  · rfl

/-- The image that PREEMPT_SAVE_DONE keeps of a job (R328). -/
def savedImage (s : State) (c : Cmd) (j : Job) : Saved :=
  { job := { j with st := 5, saveCount := j.saveCount + 1 }, glades := s.glades,
    mem := s.mem.filter (fun x => isCanopy x.1 || windowCached s (lineOf x.1)), tags := s.tags, ccache := s.ccache,
    seals := s.seals.filter (fun e => windowCached s e.1), poison := s.poison.filter (fun l => isCanopy (256 * l)), xfers := s.fab.xfers,
    exc := s.hub.exc, drops := s.hub.frozenDrop, parkTo := s.hub.parkTimeouts, parkFu := s.hub.parkFull, sess := s.rgr.sessions,
    time := c.started, inArea := s.fences.chan = 0 }

theorem exec_preemptSaveDone {s : State} {c : Cmd} {j : Job} (hj : s.job = some j) (hctl : runningCtl s 0x42 = some c) (hup : hubUp s = true)
    (hst : j.st = 4) :
    ∃ t, exec .preemptSaveDone s = .next (finish t c.acc stOk) ∧ t.job = none ∧ t.saved = s.saved ++ [savedImage s c j] ∧ t.fab.xfers = [] ∧
      t.rgr.sessions = [] := by
  have hexec : exec .preemptSaveDone s = execPreemptSaveDone s := rfl
  obtain ⟨now, hnow⟩ := answersDue_eq s
  unfold execPreemptSaveDone at hexec
  rw [hj, hctl] at hexec
  dsimp only at hexec
  rw [if_neg (by simp [hst, hup]), hnow] at hexec
  refine ⟨_, hexec, rfl, ?_, rfl, rfl⟩
  refine (imagePlace_saved _ _ _ _).trans ?_
  exact congrArg (· ++ [savedImage s c j]) (sendB_saved _)

/-! ### JOB_RESUME (R331, R423, R472, R500) -/

theorem exec_jobResume_of_image {acc : BitVec 64} {s : State} {c : Cmd} {v : Saved} (hready : ready s acc 0x43 = some c) (hph : c.ph = .accepted)
    (hnone : s.job = none) (hv : s.saved.find? (fun v => v.job.id = opB c 0 4 32) = some v) (hheld : ∀ d < 4, s.rst.held.getLsbD (16 + d) = false) :
    exec (.jobResume acc) s = .next (
      if (v.inArea && v.lost) = true then finish (raiseEpoch (dropSaved s v.job.id stDevice)) acc stDevice
      else if (imageHurt s v && decide (Config.choice s.free % 2 = 0)) = true then finish { s with free := s.free + 1 } acc stIntegrity
      else updCmd (raiseEpoch (restoreJob (clearArea s v.job.id) v)) acc (fun d => { d with ph := .running, started := s.hub.time })) := by
  have hexec : exec (.jobResume acc) s = _ := onCmd_eq hready
  rw [if_neg (by simp [hph]), hv] at hexec
  dsimp only at hexec
  rw [if_neg (by simp [hnone]), any_false _ _ fun d hd => hheld d (List.mem_range.mp hd), if_neg Bool.false_ne_true] at hexec
  exact hexec

/-! ### The statement about preemption -/

/-- Settles O43: JOB_PREEMPT and JOB_RESUME by their checks, the drain by the requests it leaves open, the save by its image. -/
theorem jobPreemptResumeResults : Obligations.JobPreemptResumeResults := by
  intro acc s c
  refine ⟨fun hready hph => ?preempt, fun j hj hctl hup => ⟨fun hst => exec_preemptDrainEnd_waits hj hctl, fun hst hrest hclosed => ?drained,
    fun hst hrest l u hl hopen hu => ?cancelled, fun hst => ?saved⟩, fun hready hph => ?resume, fun j s1 s2 hj hctl hup hst hs1 hs2 => ?restored⟩
  case preempt =>
    have hexec : exec (.jobPreempt acc) s = _ := onCmd_eq hready
    dsimp only at hexec
    rw [if_neg (by simp [hph])] at hexec
    refine ⟨fun hbad => ?_, fun j hj hid hst hpre hroom => ?_⟩
    · rcases hbad with hnone | ⟨j, hj, hbad⟩
      · rw [hnone] at hexec
        exact hexec
      · rw [hj] at hexec
        rw [hexec]
        exact congrArg _ (if_pos (by simpa [or_assoc] using hbad))
    · rw [hj] at hexec
      rw [hexec]
      exact congrArg _ (if_neg (by simp [hid, hst, hpre, hroom]))
  case drained =>
    have hnil : [] = s.fab.xfers.filter (fun x => x.st = .sent || x.st = .queried || x.st = .preempted) :=
      (List.filter_eq_nil_iff.mpr fun x hx => by simp [hclosed x hx]).symm
    rw [exec_preemptDrainEnd_ends hj hctl hup hst hrest hnil rfl, if_pos rfl, List.foldl_nil, hj]
    rfl
  case cancelled =>
    exact exec_preemptDrainEnd_ends hj hctl hup hst hrest hl (by rw [if_neg hopen, hu])
  case saved =>
    obtain ⟨t, hexec, hjob, hsaved, hxfers, hsess⟩ := exec_preemptSaveDone hj hctl hup hst
    exact ⟨t, savedImage s c j, hexec, hjob, hsaved, rfl, rfl, rfl, rfl, rfl, rfl, rfl, rfl, rfl, hxfers, hsess⟩
  case resume =>
    refine ⟨fun hbad => ?_, fun v hnone hv hheld => ⟨fun harea hlost => ?_, fun u hkept hu => ⟨fun hwhole => ?_, fun hhurt => ?_⟩⟩⟩
    · have hexec : exec (.jobResume acc) s = _ := onCmd_eq hready
      rw [if_neg (by simp [hph])] at hexec
      cases hv : s.saved.find? (fun v => v.job.id = opB c 0 4 32) with
      | none =>
        rw [hv] at hexec
        exact hexec
      | some v =>
        rw [hv] at hexec
        rw [hexec]
        exact congrArg _ (if_pos (by simpa [hv] using hbad))
    all_goals rw [exec_jobResume_of_image hready hph hnone hv hheld]
    · rw [if_pos (by simp [harea, hlost])]
    all_goals rw [if_neg (by rcases hkept with h | h <;> simp [h]), ← hu]
    · rw [if_neg (by simp [hwhole])]
    · by_cases hhit : Config.choice s.free % 2 = 0
      · exact .inr (by rw [if_pos (by simp [hhurt, hhit])])
      · exact .inl (by rw [if_neg (by simp [hhit])])
  case restored =>
    subst hs1 hs2
    show execRestoreDone s = _
    unfold execRestoreDone
    rw [hj, hctl]
    exact if_neg (by simp [hst, hup])

end Sys2Proof.Proofs
end

section
/-! Cells: what the receiving end of a port does with a cell, up to its authentication. -/

namespace Sys2Proof.Proofs

open Sys2Proof.Machine Sys2Proof.Safety Sys2Proof.Laws

/-! ### What a port does with an arriving cell (R341, R343 to R345) -/

section Arriving

variable {s : State} {k : Fin 32} {h : CellHdr} {z : Bool} {f : State → State}

theorem arrive_down (hdown : hubUp s = false ∨ (portOf s k.val).st ≠ 3) : arrive s k.val h z f = s :=
  if_pos (by simpa using hdown)

variable (hup : hubUp s = true) (hst : (portOf s k.val).st = 3)
include hup hst

theorem arrive_outOfOrder (hseq : h.lseq ≠ (portOf s k.val).rxNext) :
    arrive s k.val h z f = setPort s k.val { portOf s k.val with rxLost := true, nak := true } := by
  unfold arrive linkTake
  dsimp only
  rw [if_neg (by simp [hup, hst]), if_neg hseq]
  exact if_pos rfl

variable (hseq : h.lseq = (portOf s k.val).rxNext)
include hseq

/-- A cell in order is discarded where it is idle; any other frees its buffer, and is for this device or for another. -/
theorem arrive_inOrder : arrive s k.val h z f =
    if (decide (h.dst = 0) && decide (h.vc = 0) && z) = true then
      setPort s k.val { portOf s k.val with rxNext := (portOf s k.val).rxNext + 1, rxLost := false, nak := false }
    else if (decide (h.dst ≠ s.hub.fabAddr) || !s.hub.fabSet) = true then
      setPort (cellIn s k h) k.val { portOf (cellIn s k h) k.val with misrout := satAdd (portOf (cellIn s k h) k.val).misrout 1 }
    else f (cellIn s k h) := by
  unfold arrive linkTake
  dsimp only
  rw [if_neg (by simp [hup, hst]), if_pos hseq]
  exact if_neg Bool.false_ne_true

theorem arrive_idle (hidle : h.dst = 0 ∧ h.vc = 0 ∧ z = true) : arrive s k.val h z f =
    setPort s k.val { portOf s k.val with rxNext := (portOf s k.val).rxNext + 1, rxLost := false, nak := false } := by
  rw [arrive_inOrder hup hst hseq, if_pos (by simp [hidle])]

variable (hbusy : ¬ (h.dst = 0 ∧ h.vc = 0 ∧ z = true))
include hbusy

theorem arrive_misrouted (hother : h.dst ≠ s.hub.fabAddr ∨ s.hub.fabSet = false) : arrive s k.val h z f =
    setPort (cellIn s k h) k.val { portOf (cellIn s k h) k.val with misrout := satAdd (portOf (cellIn s k h) k.val).misrout 1 } := by
  rw [arrive_inOrder hup hst hseq, if_neg (by simpa [and_assoc] using hbusy), if_pos (by simpa using hother)]

variable (hdst : h.dst = s.hub.fabAddr) (hset : s.hub.fabSet = true)
include hdst hset

theorem arrive_ours : arrive s k.val h z f = f (cellIn s k h) := by
  rw [arrive_inOrder hup hst hseq, if_neg (by simpa [and_assoc] using hbusy), if_neg (by simp [hdst, hset])]

/-! ### A cell for this device that fails its authentication (R344, R349) -/

theorem takeCell_unpaired {g : State → Pair → State} (hnone : pairOf s h.src = none) :
    takeCell s k.val h z g = authFails (cellIn s k h) k.val := by
  unfold takeCell
  rw [arrive_ours hup hst hseq hbusy hdst hset, show pairOf (cellIn s k h) h.src = none from hnone]

theorem takeCell_unauthentic {g : State → Pair → State} {q : Pair} (hpair : pairOf s h.src = some q)
    (hbad : q.up = false ∨ h.auth = false ∨ cellEpoch q h.ep = none ∨ h.pctr.toNat ≤ (tget 0 q.rx (rxKey h.ep k.val h.vc.toNat)).toNat) :
    takeCell s k.val h z g = authFails (cellIn s k h) k.val := by
  unfold takeCell
  rw [arrive_ours hup hst hseq hbusy hdst hset, show pairOf (cellIn s k h) h.src = some q from hpair]
  exact if_pos (by simpa [or_assoc] using hbad)

end Arriving

/-! ### The statement about received cells -/

/-- Settles O44: every cell but an exchange's is taken by `takeCell`, and each clause is what an arriving cell meets first. -/
theorem cellAcceptanceResults : Obligations.CellAcceptanceResults := by
  rintro i k h s p hhead hroom rfl
  obtain ⟨f, hexec⟩ := takeCell_exec hhead s hroom
  rw [hexec]
  refine ⟨fun hdown => congrArg _ (arrive_down hdown), fun hup hst => ⟨fun hseq => congrArg _ (arrive_outOfOrder hup hst hseq),
    fun hseq hdst hvc hzero => congrArg _ (arrive_idle hup hst hseq ⟨hdst, hvc, hzero⟩), ?_⟩⟩
  rintro _ _ hseq rfl rfl hbusy
  exact ⟨fun hother => congrArg _ (arrive_misrouted hup hst hseq hbusy hother), fun hdst hset =>
    ⟨fun hnone => congrArg _ (takeCell_unpaired hup hst hseq hbusy hdst hset hnone),
      fun q hpair hbad => congrArg _ (takeCell_unauthentic hup hst hseq hbusy hdst hset hpair hbad)⟩⟩

end Sys2Proof.Proofs
end

section
/-! The cells of a transfer at its target: heads, read requests and data cells. -/

namespace Sys2Proof.Proofs

open Sys2Proof.Machine Sys2Proof.Safety Sys2Proof.Laws

/-- Accepting a cell leaves the records of transfers. -/
theorem recOf_taken {s u : State} {k : Fin 32} {h : CellHdr} {z : Bool} {p : Pair} (ht : CellTaken s k h z u p) (src : BitVec 16) (tag : BitVec 13) :
    recOf u src tag = recOf s src tag := by
  obtain ⟨_, _, _, _, _, _, _, _, _, _, _, _, _, rfl⟩ := ht
  rfl

/-! ### Heads (R358, R363, R368) -/

section Heads

variable {s u : State} {k : Fin 32} {h : CellHdr} {p : Pair} (ht : CellTaken s k h false u p)
  {d : Head} (hvc : h.vc = 2) (hkind : h.kind = 0) (hwrite : d.kind ≠ 1) (hstart : d.start = 1) (hfirst : d.oldValid = false)
include ht hvc hkind hwrite hstart hfirst

theorem exec_headCellReceive_duplicate {r : InRec} (hrec : recOf u h.src h.tag = some r) (hopen : r.st = .opened) (hhead : r.head = d) :
    exec (.headCellReceive k h d) s = .next (setRec u h.src h.tag (some { r with time := u.hub.time })) := by
  refine congrArg Host.Outcome.next ((takeCell_taken _ ht).trans ?_)
  dsimp only
  rw [if_neg (by simpa [hvc, hkind] using hwrite), hrec]
  exact if_pos (by simp [hstart, hfirst, hopen, hhead])

/-- A first head of a transfer without a record is answered by its check. -/
theorem exec_headCellReceive_first (hrec : recOf u h.src h.tag = none) :
    (headCheck u d false = .preempted → exec (.headCellReceive k h d) s = .next (answer u k.val 1 h 0 (.preempted 0))) ∧
    (∀ st, headCheck u d false = .refuse st → exec (.headCellReceive k h d) s = .next (refuse u k.val h st 0)) ∧
    (headCheck u d false = .ok → exec (.headCellReceive k h d) s = .next (openRec (stepWordUpdate u d) h d false false)) ∧
    (headCheck u d false = .dropped → exec (.headCellReceive k h d) s = .next
      (openRec { u with hub := { u.hub with frozenDrop := satAdd u.hub.frozenDrop 1 } } h d true (jobOf u).strict)) := by
  have hexec : exec (.headCellReceive k h d) s = _ := congrArg Host.Outcome.next (takeCell_taken _ ht)
  dsimp only at hexec
  have hisFirst : (decide (d.start = 1) && !d.oldValid) = true := by simp [hstart, hfirst]
  have hbefore : d.start - 1 = 0 := by rw [hstart]; rfl
  rw [if_neg (by simpa [hvc, hkind] using hwrite), hrec, hisFirst, hbefore, if_neg (by simp)] at hexec
  refine ⟨fun hcheck => ?_, fun st hcheck => ?_, fun hcheck => ?_, fun hcheck => ?_⟩
  all_goals
    rw [hcheck] at hexec
    exact hexec

end Heads

/-! ### Read requests (R359) -/

section ReadRequests

variable {s u : State} {k : Fin 32} {h : CellHdr} {p : Pair} (ht : CellTaken s k h false u p)
  {d : Head} (hvc : h.vc = 0) (hkind : h.kind = 0) (hread : d.kind = 1)
include ht hvc hkind hread

theorem exec_readRequestReceive_refused {st : Byte} (hcheck : headCheck u d false = .refuse st) :
    exec (.readRequestReceive k h d) s = .next (refuse u k.val h st (d.start - 1)) := by
  refine congrArg Host.Outcome.next ((takeCell_taken _ ht).trans ?_)
  dsimp only
  rw [if_neg (by simp [hread, hvc, hkind]), hcheck]

/-- A range that the request may read is refused where its base generation is not the peer's (R352), and else sent cell by cell. -/
theorem exec_readRequestReceive_read {b : Bytes} {t : Tag} (hcheck : headCheck u d false = .ok)
    (hrange : devRead u (jobOf u) d.raddr.toNat d.len.toNat = .ok (b, t)) : exec (.readRequestReceive k h d) s = .next (
      if !baseAllowed u p t then refuse u k.val h stEgress (d.start - 1)
      else sendCells u k.val ((List.range (cellCount d.len.toNat + 1 - d.start.toNat)).map fun i =>
        mkCell 1 h.src h.tag (BitVec.ofNat 19 (d.start.toNat + i))
          (.readData t (tagDigest (jobOf u) t) (padTo ((b.drop ((d.start.toNat + i - 1) * 480)).take 480) 480)))) := by
  refine congrArg Host.Outcome.next ((takeCell_taken _ ht).trans ?_)
  dsimp only
  rw [if_neg (by simp [hread, hvc, hkind]), hcheck]
  dsimp only
  rw [hrange]

end ReadRequests

/-! ### Data cells (R364, R366) -/

section DataCells

variable {s u : State} {k : Fin 32} {h : CellHdr} {b : Bytes} {p : Pair} (ht : CellTaken s k h (b.all fun x => x = 0) u p) {r : InRec}
  (hvc : h.vc = 2) (hkind : h.kind = 1) (hlive : (h.src, h.tag) ∉ u.fab.dead) (hrec : recOf s h.src h.tag = some r) (hopen : r.st = .opened)
  (hroom : cellWaits s h = false) (hruns : jobStopped u r.head.jobId = false)
include ht hvc hkind hlive hrec hopen hroom hruns

/-- A data cell of an open record renews the record's time; past the last cell applied it is a gap or the next cell. -/
theorem exec_dataCellReceive : exec (.dataCellReceive k h b) s = .next (
    if h.cidx.toNat ≤ r.last.toNat then setRec u h.src h.tag (some { r with time := u.hub.time })
    else if r.last.toNat + 1 < h.cidx.toNat then
      if r.lost then setRec u h.src h.tag (some { r with time := u.hub.time })
      else answer (setRec u h.src h.tag (some { r with time := u.hub.time, lost := true })) k.val 1 h 0 (.position r.last)
    else takeData (takeCredit u (cellDie u (cellAddr r h)) 3) k.val h r b) := by
  refine (if_neg (by simp [hroom])).trans (congrArg Host.Outcome.next ((takeCell_taken _ ht).trans ?_))
  dsimp only
  rw [if_neg (by simpa [hvc, hkind] using hlive), recOf_taken ht, hrec]
  dsimp only
  rw [if_neg (by simp [hopen]), if_neg (by simp [hruns])]

theorem exec_dataCellReceive_below (hbelow : h.cidx.toNat ≤ r.last.toNat) :
    exec (.dataCellReceive k h b) s = .next (setRec u h.src h.tag (some { r with time := u.hub.time })) := by
  rw [exec_dataCellReceive ht hvc hkind hlive hrec hopen hroom hruns, if_pos hbelow]

theorem exec_dataCellReceive_gap (hgap : r.last.toNat + 1 < h.cidx.toNat) (hnew : r.lost = false) : exec (.dataCellReceive k h b) s = .next
    (answer (setRec u h.src h.tag (some { r with time := u.hub.time, lost := true })) k.val 1 h 0 (.position r.last)) := by
  rw [exec_dataCellReceive ht hvc hkind hlive hrec hopen hroom hruns, if_neg (by omega), if_pos hgap, if_neg (by simp [hnew])]

theorem exec_dataCellReceive_inOrder (hnext : h.cidx.toNat = r.last.toNat + 1) :
    exec (.dataCellReceive k h b) s = .next (takeData (takeCredit u (cellDie u (cellAddr r h)) 3) k.val h r b) := by
  rw [exec_dataCellReceive ht hvc hkind hlive hrec hopen hroom hruns, if_neg (by omega), if_neg (by omega)]

end DataCells

/-! ### The statement about a transfer's target -/

/-- Settles O45: heads by their check, read requests by what the range reads, data cells by their CIDX against the last cell applied. -/
theorem targetCellResults : Obligations.TargetCellResults := by
  intro k h z s u p ht
  refine ⟨?heads, ?reads, ?data⟩
  case heads =>
    rintro d rfl hvc hkind hwrite hstart hfirst
    exact ⟨fun r => exec_headCellReceive_duplicate ht hvc hkind hwrite hstart hfirst,
      exec_headCellReceive_first ht hvc hkind hwrite hstart hfirst⟩
  case reads =>
    rintro d rfl hvc hkind hread
    refine ⟨fun st => exec_readRequestReceive_refused ht hvc hkind hread, fun b t hcheck hrange => ⟨fun hbase => ?_, fun hbase hstart => ?_⟩⟩
    all_goals rw [exec_readRequestReceive_read ht hvc hkind hread hcheck hrange]
    · rw [if_pos (by simp [hbase])]
    · rw [if_neg (by simp [hbase]), hstart]
      simp
  case data =>
    rintro b r v rfl hvc hkind hlive hrec hopen hroom hruns rfl
    refine ⟨exec_dataCellReceive_below ht hvc hkind hlive hrec hopen hroom hruns,
      exec_dataCellReceive_gap ht hvc hkind hlive hrec hopen hroom hruns, ?_⟩
    rintro _ hnext rfl
    rw [exec_dataCellReceive_inOrder ht hvc hkind hlive hrec hopen hroom hruns hnext]
    refine ⟨fun herr => congrArg _ (if_pos herr), fun herr hmore => congrArg _ ?_, fun herr hlast => congrArg _ ?_⟩
    · exact (if_neg (by simpa using herr)).trans (if_pos hmore)
    · exact (if_neg (by simpa using herr)).trans (if_neg (by omega))

end Sys2Proof.Proofs
end

section
/-! The cells of a transfer at its sender: completions, refusals, positions and read data; and a position query at the target. -/

namespace Sys2Proof.Proofs

open Sys2Proof.Machine Sys2Proof.Safety Sys2Proof.Laws

/-! ### Answers of the target (R365 to R368) -/

section Answers

variable {s u : State} {k : Fin 32} {h : CellHdr} {p : Pair} (ht : CellTaken s k h false u p)
  {x : Xfer} (hx : ourXfer u h = some x) (hvc : h.vc = 1) (hkind : h.kind = 2)
include ht hx hvc hkind

theorem exec_completionResponse {dropped strict : Bool} (hwrite : xKind x ≠ 1) (hhears : hearsAnswers u = true) :
    exec (.completionResponse k h dropped strict) s = .next (completeXfer u x dropped strict) := by
  refine congrArg Host.Outcome.next ((takeCell_taken _ ht).trans ?_)
  rw [hx]
  exact if_pos (by simp [hvc, hkind, hwrite, hhears])

/-- A refusal fails a transfer with its status; with status 0 it tells where the closed record stood. -/
theorem exec_refusalReceive (st : Byte) (last : BitVec 19) : exec (.refusalReceive k h st last) s = .next (
    if st ≠ 0 then (if hearsAnswers u then failXfer u x st else u)
    else if jobRunsNow u then resend u x (last + 1) true else recordPos u x (last + 1)) := by
  refine congrArg Host.Outcome.next ((takeCell_taken _ ht).trans ?_)
  rw [hx]
  exact if_neg (by simp [hvc, hkind])

theorem exec_targetPreemptedAnswer (last : BitVec 19) : exec (.targetPreemptedAnswer k h last) s = .next (
    if jobSt u = 4 then recordPos u x (last + 1)
    else updXfer u x.id fun y => { y with
      st := .preempted, start := last + 1, since := u.hub.time, preSince := some (y.preSince.getD u.hub.time) }) := by
  refine congrArg Host.Outcome.next ((takeCell_taken _ ht).trans ?_)
  rw [hx]
  exact if_neg (by simp [hvc, hkind])

theorem exec_positionAnswer (last : BitVec 19) (hst : x.st = .sent ∨ x.st = .queried) : exec (.positionAnswer k h last) s = .next (
    if jobRunsNow u then resend u x (last + 1) false else recordPos u x (last + 1)) := by
  refine congrArg Host.Outcome.next ((takeCell_taken _ ht).trans ?_)
  rw [hx]
  exact if_neg (by rcases hst with hst | hst <;> simp [hvc, hkind, hst])

end Answers

/-! ### Read data (R359, R364) -/

section ReadData

variable {s u : State} {k : Fin 32} {h : CellHdr} {p : Pair} {b : Bytes} (ht : CellTaken s k h (b.all fun x => x = 0) u p)
  {x : Xfer} (hx : ourXfer u h = some x) (hvc : h.vc = 1) (hkind : h.kind = 2) (hread : xKind x = 1) (hhears : hearsAnswers u = true)
include hvc hkind hread hhears

/-- The device hears the data of a read while its job runs or drains (R330). -/
theorem readData_heard : ¬ (decide (h.vc ≠ 1) || decide (h.kind ≠ 2) || decide (xKind x ≠ 1) || !hearsAnswers u) = true := by
  simp [hvc, hkind, hread, hhears]

include ht hx

theorem exec_responseCellReceive_outOfOrder {o : Tag} {dg : Digest} (hgap : h.cidx.toNat ≠ x.rxLast.toNat + 1) :
    exec (.responseCellReceive k h o dg b) s = .next u := by
  refine congrArg Host.Outcome.next ((takeCell_taken _ ht).trans ?_)
  rw [hx]
  exact (if_neg (readData_heard hvc hkind hread hhears)).trans (if_pos hgap)

variable (hnext : h.cidx.toNat = x.rxLast.toNat + 1)
include hnext

theorem exec_responseCellReceive_ownerMix {o : Tag} {dg : Digest} (hten : isTenant o = true)
    (hother : ¬ (isBound (jobOf u) o.toNat = true ∧ (tenOf (jobOf u) o.toNat).digest = dg)) :
    exec (.responseCellReceive k h o dg b) s = .next (failXfer u x stOwnerMix) := by
  refine congrArg Host.Outcome.next ((takeCell_taken _ ht).trans ?_)
  rw [hx]
  refine (if_neg (readData_heard hvc hkind hread hhears)).trans ((if_neg (not_not_intro hnext)).trans (if_pos ?_))
  simpa [hten, Decidable.imp_iff_not_or] using hother

/-- Read data whose owner this device holds, onto lines that may be written, is written at LADDR. -/
theorem exec_responseCellReceive_written {o : Tag} {dg : Digest} {off : Nat} (hoff : off = (h.cidx.toNat - 1) * 480)
    (howner : isTenant o = false ∨ (isBound (jobOf u) o.toNat = true ∧ (tenOf (jobOf u) o.toNat).digest = dg))
    (hok : ∀ q ∈ pieces (xLaddr x + off) (b.take (xLen x - off)), ∃ f, writeCheck u (jobOf u) (xPlace u x).eval (256 * lineOf q.1) 256 o = .ok f)
    {w : State} (hw : w = (applyCell (takeResponse u (cellDie u (xLaddr x + off))) (jobOf u)
      { headOf u x o with raddr := fieldBv x.desc 8 8 64, kind := 0 } u.hub.fabAddr off (b.take (xLen x - off))).s) :
    exec (.responseCellReceive k h o dg b) s = .next (
      if h.cidx.toNat < cellCount (xLen x) then updXfer w x.id (fun y => { y with rxLast := h.cidx, since := u.hub.time })
      else completeXfer w x false false) := by
  subst hoff hw
  refine congrArg Host.Outcome.next ((takeCell_taken _ ht).trans ?_)
  rw [hx]
  refine (if_neg (readData_heard hvc hkind hread hhears)).trans ((if_neg (not_not_intro hnext)).trans ((if_neg ?_).trans ?_))
  · rcases howner with hpublic | ⟨hbound, hdigest⟩
    · simp [hpublic]
    · simp [hbound, hdigest]
  · dsimp only
    rw [List.findSome?_eq_none_iff.mpr]
    intro q hq
    obtain ⟨f, hf⟩ := hok q hq
    rw [hf]

end ReadData

/-! ### The position query (R329, R367) -/

section Query

variable {s u : State} {k : Fin 32} {h : CellHdr} {p : Pair} (ht : CellTaken s k h false u p) (hvc : h.vc = 3) (hkind : h.kind = 3)
include ht hvc hkind

theorem exec_positionQuery_unknown {cancel : Bool} (hrec : recOf u h.src h.tag = none) :
    exec (.positionQuery k h cancel) s = .next (answer u k.val 1 h 0 (.position 0)) := by
  refine congrArg Host.Outcome.next ((takeCell_taken _ ht).trans ?_)
  rw [if_neg (by simp [hvc, hkind]), hrec]

theorem exec_positionQuery_opened {cancel : Bool} {r : InRec} (hrec : recOf u h.src h.tag = some r) (hopen : r.st = .opened) :
    exec (.positionQuery k h cancel) s = .next
      (answer (if cancel then setRec u h.src h.tag (some { r with st := .cancelled }) else u) k.val 1 h 0 (.position r.last)) := by
  refine congrArg Host.Outcome.next ((takeCell_taken _ ht).trans ?_)
  rw [if_neg (by simp [hvc, hkind]), hrec]
  dsimp only
  rw [hopen]

end Query

/-! ### The statement about a transfer's sender -/

/-- Settles O46: each answer by the transfer that it names and the job's state, read data by its CIDX, owner and lines, a query by the record. -/
theorem senderCellResults : Obligations.SenderCellResults := by
  intro k h z s u p ht
  refine ⟨fun x hx hvc hkind => ⟨?completion, ?refusal, ?preempted, ?other, ?position, ?readData⟩, ?query⟩
  case completion =>
    rintro dropped strict rfl hwrite hhears
    exact exec_completionResponse ht hx hvc hkind hwrite hhears
  case refusal =>
    rintro st last rfl
    rw [exec_refusalReceive ht hx hvc hkind]
    refine ⟨fun hst => by rw [if_pos hst], fun hst hruns => ?_, fun hst hruns => ?_⟩ <;> rw [if_neg (by simp [hst]), hruns] <;> rfl
  case preempted =>
    rintro last rfl hsaving
    rw [exec_targetPreemptedAnswer ht hx hvc hkind, if_pos hsaving]
  case other =>
    rintro last rfl hsaving
    rw [exec_targetPreemptedAnswer ht hx hvc hkind, if_neg hsaving]
  case position =>
    rintro last rfl hst
    exact exec_positionAnswer ht hx hvc hkind last hst
  case readData =>
    rintro o dg b off w rfl hread hhears hoff hw
    exact ⟨exec_responseCellReceive_outOfOrder ht hx hvc hkind hread hhears,
      fun hnext => exec_responseCellReceive_ownerMix ht hx hvc hkind hread hhears hnext,
      fun hnext howner hok => exec_responseCellReceive_written ht hx hvc hkind hread hhears hnext hoff howner hok hw⟩
  case query =>
    rintro cancel rfl hvc hkind
    exact ⟨exec_positionQuery_unknown ht hvc hkind, fun r => exec_positionQuery_opened ht hvc hkind⟩

end Sys2Proof.Proofs
end

section
/-! The transfer engine: XFER of the host, TRANSFER_START and the timers of transfers and of incoming records. -/

namespace Sys2Proof.Proofs

open Sys2Proof.Machine Sys2Proof.Safety Sys2Proof.Laws

/-! ### TRANSFER_START (R354 to R357) -/

section TransferStart

variable {s : State} {id : Nat} {x : Xfer} (hup : hubUp s = true) (hst : x.st = .waiting ∨ x.st = .resend) (hjob : jobSt s = 2 ∨ jobSt s = 7)
include hup hst hjob

/-- The engine does not pass over a transfer that waits while its job runs. -/
theorem transferStart_due :
    ¬ (!hubUp s || !(decide (x.st = .waiting) || decide (x.st = .resend)) || !(decide (jobSt s = 2) || decide (jobSt s = 7))) = true := by
  rcases hst with hst | hst <;> rcases hjob with hjob | hjob <;> simp [hup, hst, hjob]

variable (hx : s.fab.xfers.find? (fun x => x.id = id) = some x)
include hx

theorem exec_transferStart_refused {e : Byte} (hcheck : xferCheck s x = .error e) : exec (.transferStart id) s = .next (failXfer s x e) := by
  show execTransferStart id s = _
  unfold execTransferStart
  rw [hx]
  refine (if_neg (transferStart_due hup hst hjob)).trans ?_
  rw [hcheck]

variable {o : Tag} {free : Bool} (hcheck : xferCheck s x = .ok (o, free))
include hcheck

theorem exec_transferStart_local (hdst : xDst x = s.hub.fabAddr) (hset : s.hub.fabSet = true) : exec (.transferStart id) s = .next (
    if free then localXfer s x o else completeXfer (noteFrozen s x.acc (jobOf s).strict) x false false) := by
  show execTransferStart id s = _
  unfold execTransferStart
  rw [hx]
  refine (if_neg (transferStart_due hup hst hjob)).trans ?_
  rw [hcheck]
  exact if_pos (by simp [hdst, hset])

variable (hfar : xDst x ≠ s.hub.fabAddr ∨ s.hub.fabSet = false)
include hfar

/-- A transfer to another device goes by its pair: without one it waits for it or is EGRESS; a pair that is not up or not bound makes it wait; and
a bound one refuses it, has no port for it, or takes it. -/
theorem exec_transferStart_far : exec (.transferStart id) s = .next (
    (pairOf s (xDst x)).elim (if mayPair s (xDst x) then s else failXfer s x stEgress) fun p =>
      if !p.up || p.bind.isNone then s
      else if !isPeer s p || (xKind x ≠ 1 && !baseAllowed s p o) then failXfer s x stEgress
      else if portsBoth s p = [] then failXfer s x stDevice
      else if !free then completeXfer (noteFrozen s x.acc (jobOf s).strict) x false false
      else launch s x p o true) := by
  show execTransferStart id s = _
  unfold execTransferStart
  rw [hx]
  refine (if_neg (transferStart_due hup hst hjob)).trans ?_
  rw [hcheck]
  refine (if_neg (by simpa [Decidable.imp_iff_not_or] using hfar)).trans ?_
  cases pairOf s (xDst x) with
  | none => exact (apply_ite Host.Outcome.next _ _ _).symm
  | some p => simp only [Option.elim_some, apply_ite Host.Outcome.next]

end TransferStart

/-- R355's check of the peer, as it refuses a transfer and as it lets one pass. -/
theorem peerRefused_eq (peer read base : Bool) : (!peer || (!read && !base)) = !(peer && (read || base)) := by
  rw [Bool.not_and, Bool.not_or]

/-! ### The timers (R366 to R368) -/

section Timers

variable {s : State} {id : Nat} {x : Xfer} (hup : hubUp s = true) (hx : s.fab.xfers.find? (fun x => x.id = id) = some x)
include hup hx

theorem exec_completionTimeout (hst : x.st = .sent) (hgone : cellsWait s x = false) :
    exec (.completionTimeout id) s = .next (query (advanceTo s (x.since.toNat + 1000000)) x false) := by
  show execCompletionTimeout id s = _
  unfold execCompletionTimeout
  rw [hx]
  exact if_neg (by simp [hst, hup, hgone])

theorem exec_positionQueryTimeout (hst : x.st = .queried) (hruns : jobRunsNow s = true) : exec (.positionQueryTimeout id) s = .next (
    if 3 ≤ x.queries then failXfer (advanceTo s (x.since.toNat + 50000)) x stDevice
    else query (advanceTo s (x.since.toNat + 50000)) x false) := by
  show execPositionQueryTimeout id s = _
  unfold execPositionQueryTimeout
  rw [hx]
  exact (if_neg (by simp [hst, hup, hruns])).trans (apply_ite Host.Outcome.next _ _ _).symm

theorem exec_preemptedRetryTimer (hst : x.st = .preempted) (hruns : jobRunsNow s = true) {s1 : State}
    (hs1 : s1 = advanceTo s (x.since.toNat + 100000)) : exec (.preemptedRetryTimer id) s = .next (
    if (x.preSince.getD x.since).toNat + (jobOf s).meetMs * 1000000 < s1.hub.time.toNat then failXfer s1 x stProgram
    else updXfer (resend s1 x x.start true) id fun y => { y with preSince := x.preSince }) := by
  subst hs1
  show execPreemptedRetryTimer id s = _
  unfold execPreemptedRetryTimer
  rw [hx]
  exact (if_neg (by simp [hst, hup, hruns])).trans (apply_ite Host.Outcome.next _ _ _).symm

end Timers

/-- A record that is silent is closed, and refused on the lowest port that is up at both ends, where there is one. -/
theorem exec_transferRecordTimeout {s : State} (hup : hubUp s = true) {src : BitVec 16} {tag : BitVec 13} {r : InRec} {p : Pair}
    (hrec : recOf s src tag = some r) (hpair : pairOf s src = some p) (hst : r.st = .opened ∨ r.st = .cancelled) {s1 : State}
    (hs1 : s1 = setRec (advanceTo s (r.time.toNat + 1000000)) src tag (some { r with st := .closed })) :
    exec (.transferRecordTimeout src tag) s = .next ((portsBoth s1 p).head?.elim s1 fun k => sendCells s1 k [mkCell 1 src tag 0 (.refusal 0 r.last)]) := by
  subst hs1
  show execTransferRecordTimeout src tag s = _
  unfold execTransferRecordTimeout
  rw [hrec, hpair]
  refine (if_neg (by rcases hst with hst | hst <;> simp [hst, hup])).trans ?_
  dsimp only
  cases portsBoth _ p <;> rfl

/-! ### The statement about the transfer engine -/

/-- Settles O47: the host's XFER, a transfer's start by its check, its address and its pair, and each timer by the state it finds. -/
theorem transferEngineResults : Obligations.TransferEngineResults := by
  intro s hup
  refine ⟨fun acc c j hready hj hph => (onJob_eq hready hj).trans (congrArg _ (if_neg (by simp [hph]))),
    fun id x hx => ⟨fun hst hjob => ?start, exec_completionTimeout hup hx, exec_positionQueryTimeout hup hx,
      fun s1 hst hruns => exec_preemptedRetryTimer hup hx hst hruns⟩, fun src tag r p s1 hrec hpair hst hs1 => ?record⟩
  case start =>
    refine ⟨fun e => exec_transferStart_refused hup hst hjob hx, ?_⟩
    rintro o free _ hcheck rfl
    refine ⟨exec_transferStart_local hup hst hjob hx hcheck, fun hfar => ?_⟩
    rw [exec_transferStart_far hup hst hjob hx hcheck hfar]
    refine ⟨fun hnone => by rw [hnone]; rfl, fun p hpair => ⟨fun hwait => ?_, fun hpup hbind => ?_⟩⟩
    all_goals rw [hpair, Option.elim_some]
    · rw [if_pos (by simpa using hwait)]
    · rw [if_neg (by simpa [hpup] using hbind), decide_not, peerRefused_eq]
      cases free <;> rfl
  case record =>
    rw [exec_transferRecordTimeout hup hrec hpair hst hs1]
    cases portsBoth s1 p <;> rfl

end Sys2Proof.Proofs
end

section
/-! Pairs: bring-up, the end of an exchange, rekeying, and a peer's binding, port mask and exchange as they arrive. -/

namespace Sys2Proof.Proofs

open Sys2Proof.Machine Sys2Proof.Safety Sys2Proof.Laws

/-! ### Bring-up (R347, R439) -/

section BringUp

variable {s : State} {a : BitVec 16} (hup : hubUp s = true) (hnone : pairOf s a = none) (hmay : mayPair s a = true) (hdev : s.boot.devReady = true)
include hup hnone hmay hdev

theorem exec_pairBringUp_rangerBusy (hbusy : rangerReady s = false) : exec (.pairBringUp a) s = .next (failWaiting s a stEgress) :=
  (if_neg (by simp [hnone, hmay, hup, hdev])).trans (if_pos (by simp [hbusy]))

variable (hready : rangerReady s = true)
include hready

theorem exec_pairBringUp_room (hroom : s.fab.pairs.length < 1024) : exec (.pairBringUp a) s = .next
    (startExchange { s with fab := { s.fab with pairs := s.fab.pairs ++ [{ addr := a, lastUse := s.hub.time }] } } a 0
      (s.fab.xfers.any fun x => xDst x = a)) := by
  refine (if_neg (by simp [hnone, hmay, hup, hdev])).trans ((if_neg (by simp [hready])).trans ?_)
  rw [if_pos hroom]

theorem exec_pairBringUp_full (hfull : 1024 ≤ s.fab.pairs.length) (hlru : lruPair s = none) : exec (.pairBringUp a) s = .next s := by
  refine (if_neg (by simp [hnone, hmay, hup, hdev])).trans ((if_neg (by simp [hready])).trans ?_)
  rw [if_neg (by omega), hlru]
  rfl

end BringUp

/-! ### The end of an exchange (R347, R348, R350) -/

/-- The pair that a rekey leaves: the next epoch with its counters at 0, and the old key held (R350). -/
def rekeyed (s : State) (p : Pair) (c : PeerCheck) (q : Pair) : Pair :=
  { q with exchange := false, epoch := q.epoch + 1, oldKey := true, rekeyAt := s.hub.time, newPorts := 0, tx := [],
           rx := tclear q.rx (128 * nat (decide ((p.epoch + 1) % 2 = 1))) 128, oldSec := q.sec, sec := exchangeSec p c }

section ExchangeEnd

variable {s : State} {a : BitVec 16} {p : Pair} {c : PeerCheck}

/-- A peer that fails a check of R347 is refused. -/
theorem endExchange_refused (hbad : (c.chainOk && c.sigOk && decide (s.rgr.runSvn.toNat ≤ c.svn.toNat)) = false) : endExchange s a p c =
    if p.up then updPair s a (fun q => { q with exchange := false }) else failWaiting (dropPair s a) a stEgress :=
  if_pos (by rw [peerOk, hbad]; rfl)

variable (hok : (c.chainOk && c.sigOk && decide (s.rgr.runSvn.toNat ≤ c.svn.toNat)) = true)
include hok

theorem endExchange_up (hdown : p.up = false) : endExchange s a p c =
    bindPair (updPair s a (fun q => { q with up := true, exchange := false, sec := exchangeSec p c })) a :=
  (if_neg (by rw [peerOk, hok]; decide)).trans (if_neg (by simp [hdown]))

theorem endExchange_rekeyed (hpup : p.up = true) :
    endExchange s a p c = { updPair s a (rekeyed s p c) with hub := { s.hub with rekeys := satAdd s.hub.rekeys 1 } } :=
  (if_neg (by rw [peerOk, hok]; decide)).trans (if_pos hpup)

end ExchangeEnd

/-! ### Rekeying (R350) -/

theorem exec_pairRekey {s : State} {a : BitVec 16} {p : Pair} (hup : hubUp s = true) (hpair : pairOf s a = some p) (hpup : p.up = true)
    (hidle : p.exchange = false) (hworn : ∃ t ∈ p.tx, 2 ^ 31 ≤ t.2.toNat) :
    exec (.pairRekey a) s = .next (startExchange s a (p.epoch + 1) true) := by
  have hany : (p.tx.any fun t => 2 ^ 31 ≤ t.2.toNat) = true := List.any_eq_true.mpr (hworn.imp fun t ht => ⟨ht.1, decide_eq_true ht.2⟩)
  show execPairRekey a s = _
  unfold execPairRekey
  rw [hpair]
  exact if_pos (by simp only [hup, hpup, hidle, hany]; decide)

theorem exec_oldKeyDiscard {s : State} {a : BitVec 16} {p : Pair} (hpair : pairOf s a = some p) (hold : p.oldKey = true) :
    exec (.oldKeyDiscard a) s = .next (updPair (if p.newPorts = 0xFFFFFFFF then s else advanceTo s (p.rekeyAt.toNat + 1000000)) a
      (fun q => { q with oldKey := false })) := by
  show execOldKeyDiscard a s = _
  unfold execOldKeyDiscard
  rw [hpair]
  exact if_neg (by simp [hold])

/-! ### What a peer tells (R347, R351, R367) -/

section ControlCells

variable {s u : State} {k : Fin 32} {h : CellHdr} {p : Pair} (hvc : h.vc = 3) (hkind : h.kind = 3)
include hvc hkind

/-- A cell that carries control of a pair goes to its handler. -/
theorem control_handled (v w : State) : (if decide (h.vc ≠ 3) || decide (h.kind ≠ 3) then v else w) = w :=
  if_neg (by simp [hvc, hkind])

theorem exec_jobBinding (ht : CellTaken s k h false u p) (b : Binding) :
    exec (.jobBinding ⟨k, h⟩ b) s = .next (queryDown (updPair u h.src (fun q => { q with bind := some b })) h.src) :=
  congrArg Host.Outcome.next ((takeCell_taken _ ht).trans (control_handled hvc hkind _ _))

theorem exec_portMask (ht : CellTaken s k h false u p) (m : BitVec 32) : exec (.portMask ⟨k, h⟩ m) s = .next
    (queryDown (updPair u h.src (fun q => { q with bind := q.bind.map (fun b => { b with mask := m }) })) h.src) :=
  congrArg Host.Outcome.next ((takeCell_taken _ ht).trans (control_handled hvc hkind _ _))

/-- The exchange of a pair that is up comes under the pair's key. -/
theorem exec_pairUp_rekey (ht : CellTaken s k h false u p) (c : PeerCheck) :
    exec (.pairUp ⟨k, h⟩ c) s = .next (peerExchange u h.src c) := by
  have hkeyed : (pairOf s h.src).any (·.up) = true := by
    obtain ⟨_, _, _, _, _, _, q, hq, hqup, _⟩ := ht
    rw [hq]
    exact hqup
  refine congrArg Host.Outcome.next ((if_pos hkeyed).trans ?_)
  exact (takeCell_taken _ ht).trans (control_handled hvc hkind _ _)

/-- The exchange of a pair that is not up comes under no key. -/
theorem exec_pairUp_first {q : Pair} (hup : hubUp s = true) (hst : (portOf s k.val).st = 3) (hseq : h.lseq = (portOf s k.val).rxNext)
    (hdst : h.dst = s.hub.fabAddr) (hset : s.hub.fabSet = true) (hpair : pairOf s h.src = some q) (hdown : q.up = false) (c : PeerCheck) :
    exec (.pairUp ⟨k, h⟩ c) s = .next (peerExchange (cellIn s k h) h.src c) := by
  refine congrArg Host.Outcome.next ((if_neg (by simp [hpair, hdown])).trans ?_)
  exact (arrive_ours hup hst hseq (by simp) hdst hset).trans (control_handled hvc hkind _ _)

end ControlCells

/-! ### The statement about pairs -/

/-- Settles O48: bring-up by Ranger's state and the table's room, the end of an exchange by the peer's checks and the pair's state, and a peer's
control cells by their handlers. -/
theorem pairResults : Obligations.PairResults := by
  intro s a hup
  refine ⟨fun hnone hmay hdev => ⟨exec_pairBringUp_rangerBusy hup hnone hmay hdev, exec_pairBringUp_room hup hnone hmay hdev,
      exec_pairBringUp_full hup hnone hmay hdev⟩,
    fun p hpair => ⟨?exchange, exec_pairRekey hup hpair, exec_oldKeyDiscard hpair⟩,
    fun k h u p hvc hkind ht => ⟨exec_pairUp_rekey hvc hkind ht, exec_jobBinding hvc hkind ht, exec_portMask hvc hkind ht⟩,
    fun k h p c hst hvc hkind hseq hdst hset hpair hdown => exec_pairUp_first hvc hkind hup hst hseq hdst hset hpair hdown c⟩
  case exchange =>
    rintro c _ rfl
    refine ⟨fun hbad hpup => ?_, fun hbad hdown => ?_, endExchange_up, fun hok hpup => ?_⟩
    · rw [endExchange_refused hbad, if_pos hpup]
    · rw [endExchange_refused hbad, if_neg (by simp [hdown])]
    · exact ⟨_, rekeyed s p c p, endExchange_rekeyed hok hpup, pairOf_updPair (rekeyed s p c) (fun _ => rfl) hpair, rfl, rfl, rfl, rfl, rfl, rfl,
        fun _ => rfl, rfl, rfl⟩

end Sys2Proof.Proofs
end

section
/-! The rings: the doorbell line, acceptance and the accept record, the release of completion records; FENCE and MARK, and a record's fields. -/

namespace Sys2Proof.Proofs

open Sys2Proof.Machine Sys2Proof.Safety Sys2Proof.Laws

/-! ### Fields of a byte string (R6) -/

/-- A number written in as many bytes as it may take reads back from its own place in a structure. -/
theorem fieldLe_bvLe {w k : Nat} (pre rest : Bytes) (v : BitVec w) (hw : w ≤ 8 * k) :
    Machine.fieldLe (pre ++ (bvLe v k ++ rest)) pre.length k = v.toNat := by
  unfold Machine.fieldLe
  rw [List.drop_left, List.take_left' (bvLe_length v k), bvLe, leNat_natLe,
    Nat.mod_eq_of_lt (v.isLt.trans_le (Nat.pow_le_pow_right Nat.two_pos hw))]

theorem fieldLe_bvLe_head {w k : Nat} (rest : Bytes) (v : BitVec w) (hw : w ≤ 8 * k) : Machine.fieldLe (bvLe v k ++ rest) 0 k = v.toNat :=
  fieldLe_bvLe [] rest v hw

theorem fieldBv_bvLe {w k : Nat} (pre rest : Bytes) (v : BitVec w) (hw : w ≤ 8 * k) :
    fieldBv (pre ++ (bvLe v k ++ rest)) pre.length k w = v := by
  rw [fieldBv, fieldLe_bvLe pre rest v hw, BitVec.ofNat_toNat, BitVec.setWidth_eq]

@[simp] theorem padTo_length (b : Bytes) (n : Nat) : (padTo b n).length = n := by
  simp [padTo, zeros]

/-! ### The doorbell (R380, R381) -/

/-- The two words of a doorbell line as the device takes them: a SQ_TAIL out of range is left out. -/
theorem readDoorbell_of_line {s : State} {r : Nat} {g : Ring} {tail head : BitVec 32} (hg : ringOf s r = g)
    (hline : rdBytes s.host (g.db.toNat * 64) 8 = bvLe tail 4 ++ bvLe head 4) :
    readDoorbell s r = setRing s r (if ringN g < (tail - g.accepted).toNat then { g with cqHead := head, dbRange := true }
      else { g with cqHead := head, sqTail := tail }) := by
  have htail : fieldBv (bvLe tail 4 ++ bvLe head 4) 0 4 32 = tail := fieldBv_bvLe [] (bvLe head 4) tail le_rfl
  have hhead : fieldBv (bvLe tail 4 ++ bvLe head 4) 4 4 32 = head := by
    simpa using fieldBv_bvLe (bvLe tail 4) [] head le_rfl
  unfold readDoorbell
  dsimp only
  rw [hg, hline, htail, hhead, apply_ite (setRing s r)]

/-- The host's write of a ring's doorbell line. -/
def doorbellWritten (s : State) (r : Nat) (tail head : BitVec 32) : State :=
  { s with host := wrBytes s.host ((ringOf s r).db.toNat * 64) (bvLe tail 4 ++ bvLe head 4) }

theorem exec_doorbellWrite_disabled {s : State} {r : Fin 256} (hst : (ringOf s r.val).st = .disabled) (tail head : BitVec 32) :
    exec (.doorbellWrite r [] tail head) s = .next (doorbellWritten s r.val tail head) :=
  congrArg _ (if_neg (by simp [hst]))

theorem exec_doorbellWrite_read {s : State} {r : Fin 256} (hst : (ringOf s r.val).st ≠ .disabled) (hup : hubUp s = true)
    (hdev : s.boot.devReady = true) (tail head : BitVec 32) :
    exec (.doorbellWrite r [] tail head) s = .next (readDoorbell (doorbellWritten s r.val tail head) r.val) := by
  have hup' : hubUp (doorbellWritten s r.val tail head) = true := hup
  refine congrArg _ (if_pos ?_)
  rw [Bool.and_eq_true, Bool.and_eq_true]
  exact ⟨⟨decide_eq_true hst, hup'⟩, hdev⟩

/-- The device reads from the line what the host has just written there. -/
theorem rdBytes_doorbellWritten (s : State) (r : Nat) (tail head : BitVec 32) :
    rdBytes (doorbellWritten s r tail head).host ((ringOf s r).db.toNat * 64) 8 = bvLe tail 4 ++ bvLe head 4 :=
  rdBytes_wrBytes_same s.host ((ringOf s r).db.toNat * 64) (bvLe tail 4 ++ bvLe head 4)

/-! ### Acceptance (R393, R394, R396) -/

theorem exec_descriptorAccept_not {s : State} {r : Fin 256} (h : mayAccept s r.val = false) : exec (.descriptorAccept r) s = .next s :=
  if_pos (by simp [h])

theorem exec_descriptorAccept {s : State} {r : Fin 256} (h : mayAccept s r.val = true) {g : Ring} (hg : g = ringOf s r.val) {c : Cmd}
    (hc : c = acceptedCmd s r.val) : exec (.descriptorAccept r) s = .next { s with
      host := wrBytes s.host (jnlAddr g g.accepted) (acceptRecord c.acc g.accepted (opcOf c) (phase (ringN g) g.accepted.toNat)),
      rings := tset {} s.rings r.val { g with accepted := g.accepted + 1 }, hub := { s.hub with accCount := s.hub.accCount + 1 },
      cmds := s.cmds ++ [afterAccept s c] } := by
  subst hg hc
  show execDescriptorAccept r s = _
  unfold execDescriptorAccept
  rw [if_neg (by simp [h])]
  rfl

/-- A command is held, or finished at once: with POLICY for its descriptor, with REVOKED for an ADMIT of a tenant that is not bound. -/
theorem afterAccept_eq (s : State) (c : Cmd) : afterAccept s c =
    if descriptorOk c = false then { c with ph := .done, status := stPolicy, result := endResult s c }
    else if opcOf c = 0x02 ∧ c.ring ≠ 0 ∧ isBound (jobOf s) (opN c 0 2 % 4096) = false then
      { c with ph := .done, status := stRevoked, result := endResult s c } else c := by
  unfold afterAccept
  simp only [Bool.not_eq_true', Bool.and_eq_true, decide_eq_true_eq, and_assoc]

/-! ### Release (R397, R400, R401, R408) -/

theorem mayRelease_of {s : State} {r : Nat} {c : Cmd} (hnext : nextRecord s r = some c) (hdone : c.ph = .done) (hup : hubUp s = true)
    (hdev : s.boot.devReady = true) (hroom : ((ringOf s r).released - (ringOf s r).cqHead).toNat < ringN (ringOf s r))
    (hdrain : (ringOf s r).st = .draining → ringSaved s r = false) : mayRelease s r = some c := by
  unfold mayRelease
  dsimp only
  rw [hnext, if_pos]
  · exact if_pos hdone
  · rw [hup, hdev, decide_eq_true hroom]
    simpa [imp_iff_not_or] using hdrain

theorem exec_completionRelease_none {s : State} {r : Fin 256} (h : mayRelease s r.val = none) : exec (.completionRelease r) s = .next s := by
  show execCompletionRelease r s = _
  unfold execCompletionRelease
  rw [h]

theorem exec_completionRelease_some {s u : State} {r : Fin 256} {g : Ring} (hg : g = ringOf s r.val) {c : Cmd}
    (h : mayRelease s r.val = some c) (hu : u = setRing (countCmd { s with
        host := wrBytes s.host (cqAddr g g.released) (completionRecord c s.hub.time (degraded s) (phase (ringN g) g.released.toNat)),
        cmds := s.cmds.filter (fun d => d.acc ≠ c.acc) } c) r.val
      (drained { g with released := g.released + 1, irqSeen := g.irqSeen || hdrFlag c 1 })) :
    exec (.completionRelease r) s = .next (if hdrFlag c 1 then sendVector u g.vector else u) := by
  subst hg hu
  show execCompletionRelease r s = _
  unfold execCompletionRelease
  rw [h]
  rfl

/-- The exceptions of a control command count for no job. -/
theorem countCmd_control (s : State) {c : Cmd} (h : c.ring = 0) : countCmd s c = s := if_pos h

/-! ### The statement about the rings -/

/-- Settles O25: the doorbell by the line that the device reads back, acceptance by `mayAccept` and the checks of the descriptor, release by
`mayRelease`; a control command that asks for no vector is the case of a release in which nothing counts. -/
theorem ringResults : Obligations.RingResults := by
  intro r s g hg
  refine ⟨fun tail head hst hup hdev => ?doorbell, fun tail head hst => ?disabled, fun _ _ _ => rfl, exec_descriptorAccept_not,
    fun c hmay hc => ?accept, fun c hnext hdone hup hdev hroom hdrain hirq hctl => ?control,
    fun c u hmay hu => exec_completionRelease_some hg hmay hu, exec_completionRelease_none⟩
  case doorbell =>
    subst hg
    rw [exec_doorbellWrite_read hst hup hdev,
      readDoorbell_of_line (s := doorbellWritten s r.val tail head) rfl (rdBytes_doorbellWritten s r.val tail head)]
    rfl
  case disabled =>
    subst hg
    exact exec_doorbellWrite_disabled hst tail head
  case accept =>
    have haccepted : c = acceptedCmd s r.val := by rw [hc, hg]; rfl
    rw [exec_descriptorAccept hmay hg haccepted, afterAccept_eq]
    rfl
  case control =>
    subst hg
    rw [exec_completionRelease_some rfl (mayRelease_of hnext hdone hup hdev hroom hdrain) rfl, countCmd_control _ hctl, hirq, Bool.or_false,
      if_neg Bool.false_ne_true]
    rfl

/-! ### FENCE and MARK (R403, R404) -/

/-- Every earlier command that a scope holds has completed. -/
theorem allBefore_iff {s : State} {c : Cmd} {p : Cmd → Bool} {q : Cmd → Prop} (hp : ∀ d, p d = true ↔ q d) :
    allBefore s c p = true ↔ ∀ d ∈ s.cmds, d.acc.toNat < c.acc.toNat → q d → d.ph = .done := by
  unfold allBefore
  rw [List.all_eq_true]
  refine forall₂_congr fun d _ => ?_
  rw [Bool.or_eq_true, Bool.not_eq_true', ← Bool.not_eq_true, Bool.and_eq_true, hp, decide_eq_true_eq, decide_eq_true_eq]
  tauto

/-- The scope of a FENCE: its own ring, or every data ring of its job. -/
theorem fenceScope_iff (c d : Cmd) :
    (if opN c 0 1 = 0 then decide (d.ring = c.ring) else decide (d.ring ≠ 0) && decide (d.job = c.job)) = true ↔
      if opN c 0 1 = 0 then d.ring = c.ring else d.ring ≠ 0 ∧ d.job = c.job := by
  by_cases hown : opN c 0 1 = 0 <;> simp [hown]

/-! ### What a record holds (R393, R397) -/

theorem nat_lt_two (b : Bool) : nat b < 2 := by cases b <;> decide

theorem decide_nat_eq_one (b : Bool) : decide (nat b = 1) = b := by cases b <;> rfl

section FlagsByte

variable (x : BitVec 5) (throttled deg ph : Bool)

/-- The summary, THROTTLED and DEGRADED fill the bits below the phase. -/
theorem flagsByte_phase : (BitVec.ofNat 8 (x.toNat + 32 * nat throttled + 64 * nat deg + 128 * nat ph)).getLsbD 7 = ph := by
  have hplace : (x.toNat + 32 * nat throttled + 64 * nat deg + 128 * nat ph) / 2 ^ 7 % 2 = nat ph := by
    have := x.isLt
    have := nat_lt_two throttled
    have := nat_lt_two deg
    have := nat_lt_two ph
    omega
  rw [BitVec.getLsbD_ofNat, Nat.testBit_eq_decide_div_mod_eq, hplace, decide_nat_eq_one]
  rfl

theorem flagsByte_degraded : (BitVec.ofNat 8 (x.toNat + 32 * nat throttled + 64 * nat deg + 128 * nat ph)).getLsbD 6 = deg := by
  have hplace : (x.toNat + 32 * nat throttled + 64 * nat deg + 128 * nat ph) / 2 ^ 6 % 2 = nat deg := by
    have := x.isLt
    have := nat_lt_two throttled
    have := nat_lt_two deg
    omega
  rw [BitVec.getLsbD_ofNat, Nat.testBit_eq_decide_div_mod_eq, hplace, decide_nat_eq_one]
  rfl

end FlagsByte

theorem completionRecord_length (c : Cmd) (t : BitVec 64) (deg ph : Bool) : (completionRecord c t deg ph).length = 32 := by
  simp [completionRecord]

theorem completionRecord_acc (c : Cmd) (t : BitVec 64) (deg ph : Bool) : Machine.fieldLe (completionRecord c t deg ph) 0 8 = c.acc.toNat := by
  simpa only [completionRecord, List.append_assoc] using fieldLe_bvLe_head _ c.acc le_rfl

theorem acceptRecord_acc (acc : BitVec 64) (i : BitVec 32) (o : Byte) (ph : Bool) : Machine.fieldLe (acceptRecord acc i o ph) 0 8 = acc.toNat := by
  simpa only [acceptRecord, List.append_assoc] using fieldLe_bvLe_head _ acc le_rfl

theorem acceptRecord_index (acc : BitVec 64) (i : BitVec 32) (o : Byte) (ph : Bool) : Machine.fieldLe (acceptRecord acc i o ph) 8 4 = i.toNat := by
  simpa only [acceptRecord, List.append_assoc, bvLe_length] using fieldLe_bvLe (bvLe acc 8) _ i le_rfl

theorem acceptRecord_phase (acc : BitVec 64) (i : BitVec 32) (o : Byte) (ph : Bool) :
    ((acceptRecord acc i o ph).getD 13 0).getLsbD 7 = ph := by
  show (if ph = true then 0x80#8 else 0).getLsbD 7 = ph
  cases ph <;> decide

/-! ### The statement about FENCE, MARK and records -/

/-- Settles O26: FENCE and MARK by the commands before them in their scope, a record by the places of its fields. -/
theorem fenceMarkRecordResults : Obligations.FenceMarkRecordResults := by
  refine ⟨fun acc s c => ⟨fun hready => ?fence, fun hready => ?mark⟩, fun c t deg ph => ?completion, fun acc i o ph => ?accept,
    fun s acc st => ⟨finish_cmds s acc st, rfl⟩⟩
  case fence => exact (onCmd_eq hready).trans (congrArg _ (if_congr (allBefore_iff (fenceScope_iff c)) rfl rfl))
  case mark => exact (onCmd_eq hready).trans (congrArg _ (if_congr (allBefore_iff fun _ => decide_eq_true_iff) rfl rfl))
  case completion =>
    exact ⟨completionRecord_length c t deg ph, completionRecord_acc c t deg ph, rfl, flagsByte_phase c.summary c.throttled deg ph,
      flagsByte_degraded c.summary c.throttled deg ph⟩
  case accept => exact ⟨by simp [acceptRecord, zeros], acceptRecord_acc acc i o ph, acceptRecord_index acc i o ph, rfl, acceptRecord_phase acc i o ph⟩

end Sys2Proof.Proofs
end

section
/-! Start-up and warm reset: PERST_DEASSERT and WARM_RESET, each to DEV_READY or stopped in the boot ROM. -/

namespace Sys2Proof.Proofs

open Sys2Proof.Machine Sys2Proof.Safety Sys2Proof.Laws

/-! ### The bank that boots (R426, R428) -/

/-- Which bank boots is a matter of the flash and of its checks alone. -/
theorem bootBank_congr {s t : State} (h : t.flash = s.flash) (b : BankChecks) (first : Bool) : bootBank t b first = bootBank s b first := by
  unfold bootBank bankFail bankOf
  rw [h]

theorem bootBank_warmCleared (s : State) (b : BankChecks) : bootBank (warmCleared s) b (firstBank (warmCleared s)) = bootBank s b (firstBank s) :=
  bootBank_congr rfl b _

/-! ### The boot (R417, R459, R460) -/

/-- What a fold that sets power domains one by one gives to a domain, whatever state it has reached at each. -/
theorem pdOf_foldl_of_sets {p : Pd → Prop} {g : State → Nat → State} {i : Nat} (hg : ∀ u j, ∃ v, g u j = setPd u j v ∧ (j = i → p v)) :
    ∀ (l : List Nat) (s : State), i ∈ l ∨ p (pdOf s i) → p (pdOf (l.foldl g s) i)
  | [], _, h => h.resolve_left List.not_mem_nil
  | j :: l, s, h => by
    refine pdOf_foldl_of_sets hg l (g s j) ?_
    obtain ⟨v, hset, hp⟩ := hg s j
    rw [hset]
    by_cases hji : j = i
    · subst hji
      exact .inr ((pdOf_setPd_same s j v).symm ▸ hp rfl)
    · rw [pdOf_setPd_ne s v (Ne.symm hji)]
      exact h.imp_left fun hmem => (List.mem_cons.mp hmem).resolve_left (Ne.symm hji)

/-- With no die failed, every power domain is on once the parts are tested (R460). -/
theorem bootParts_pd_on {t : BootTests} (hdies : t.failDies = 0) (s : State) {i : Nat} (hi : i < 50) : (pdOf (bootParts s t) i).st = 0 := by
  unfold bootParts
  extract_lets down s1 s2 s3
  have hdown : ∀ d, down d = false := fun d => by simp [down, hdies]
  have hon : (pdOf s3 i).st = 0 := by
    refine pdOf_foldl_of_sets (p := fun x => x.st = 0) (fun u j => ⟨_, rfl, fun _ => ?_⟩) (List.range 50) s2 (.inl (List.mem_range.mpr hi))
    simp [hdown]
  -- An opaque `s3` keeps the domains from being computed where only the fences beside them differ.
  clear_value s3
  exact hon

theorem halfOf_setHalf_ne (s : State) {h x : Nat} (v : Half) (hne : x ≠ h) : halfOf (setHalf s h v) x = halfOf s x := tget_tset_ne _ _ _ hne

theorem pdOf_setHalf (s : State) (h : Nat) (v : Half) (i : Nat) : pdOf (setHalf s h v) i = pdOf s i := rfl

/-- A boot tests the parts of `bootBase`, and each half then takes a lease. -/
theorem bootOn_eq (s : State) (t : BootTests) (k fell : Bool) : bootOn s t k fell =
    setHalf (setHalf (bootParts (bootBase s k fell) t) 0 { lease := some s.hub.time }) 1 { lease := some s.hub.time } := by
  obtain ⟨ch, po, pd, fe, hparts⟩ := bootParts_rest (bootBase s k fell) t
  rw [show s.hub.time = (bootParts (bootBase s k fell) t).hub.time by rw [hparts]; rfl]
  rfl

theorem bootOn_pd_on {t : BootTests} (hdies : t.failDies = 0) (s : State) (k fell : Bool) {i : Nat} (hi : i < 50) :
    (pdOf (bootOn s t k fell) i).st = 0 := by
  rw [bootOn_eq, pdOf_setHalf, pdOf_setHalf]
  exact bootParts_pd_on hdies _ hi

section Boot

variable {t : BootTests} {s s1 : State} (hperst : s.pins.perst = true) (hpwr : s.pins.pwrGood = true)
  (hs1 : { s with pins := { s.pins with perst := false } } = s1)
include hperst hpwr hs1

theorem exec_perstDeassert : exec (.perstDeassert t) s = match bootBank s1 t.banks (firstBank s1) with
    | none => .next (bootStops s1 (bankFail s1 t.banks (!firstBank s1)))
    | some x => .next (bootOn s1 t x.1 x.2) := by
  subst hs1
  exact if_neg (by simp [hperst, hpwr])

theorem exec_perstDeassert_boots {k fell : Bool} (hbank : bootBank s1 t.banks (firstBank s1) = some (k, fell)) :
    exec (.perstDeassert t) s = .next (bootOn s1 t k fell) := by
  rw [exec_perstDeassert hperst hpwr hs1, hbank]

theorem exec_perstDeassert_stops (hbank : bootBank s1 t.banks (firstBank s1) = none) :
    ∃ c, exec (.perstDeassert t) s = .next (bootStops s1 c) :=
  ⟨_, by rw [exec_perstDeassert hperst hpwr hs1, hbank]⟩

end Boot

/-! ### The warm reset (R468 to R471, R503) -/

/-- Without a job there is none to save first (R480). -/
theorem savedFirst_of_no_job {s : State} (hjob : s.job = none) : savedFirst s = s := by
  simp only [savedFirst, execPreemptSaveDone, hjob]

/-- Without transfers there is none to cancel (R468). -/
theorem cancelAll_of_no_xfers {s : State} (hx : s.fab.xfers = []) : cancelAll s = s := by
  simp only [cancelAll, hx, List.filter_nil, List.foldl_nil]

theorem reissue_of_no_xfers {s : State} (hx : s.fab.xfers = []) : reissue s = s := by
  simp only [reissue, hx, List.filter_nil, List.foldl_nil, List.map_nil]
  rw [← hx]

/-- Where every glade has reached a step boundary none takes DEVICE_FAULT (R469). -/
theorem missGlades_zero (s : State) : missGlades s 0 = s := by
  simp [missGlades, bitsSet]

/-- Step 8 without a job: DEV_READY, a new epoch, and halves that hold new leases; no glade goes on. -/
theorem warmOn_of_no_job {s : State} (hjob : s.job = none) (fell : Bool) : ∃ halves, warmOn s fell =
    { s with boot := { stage := 9, cfgReady := true, devReady := true, fallback := fell }, halves := halves, epoch := s.epoch + 1 } :=
  ⟨_, if_neg (by simp [jobRuns, jobSt, raiseEpoch_job, setHalf_job, hjob])⟩

section Idle

variable {s : State} (hjob : s.job = none) (hx : s.fab.xfers = [])
include hjob hx

/-- Before the bank is chosen nothing is saved or cancelled (R468, R480). -/
theorem warmCleared_of_idle : warmCleared (cancelAll (savedFirst s)) = warmCleared s := by
  rw [savedFirst_of_no_job hjob, cancelAll_of_no_xfers hx]

/-- After the rings are recovered nothing is sent again and no glade goes on or faults (R469, R471). -/
theorem warmOn_of_idle (fell : Bool) : ∃ halves, missGlades (warmOn (reissue s) fell) 0 =
    { s with boot := { stage := 9, cfgReady := true, devReady := true, fallback := fell }, halves := halves, epoch := s.epoch + 1 } := by
  rw [reissue_of_no_xfers hx, missGlades_zero]
  exact warmOn_of_no_job hjob fell

end Idle

section WarmReset

variable {s : State} (b : BankChecks) (hpwr : s.pins.pwrGood = true) (hperst : s.pins.perst = false) (hcfg : s.boot.cfgReady = true)
include hpwr hperst hcfg

/-- A warm reset from the state in which the bank is chosen. -/
theorem exec_warmReset {s1 : State} (hs1 : warmCleared (cancelAll (savedFirst { s with hub := { s.hub with fault := false } })) = s1) :
    exec (.warmReset b 0) s = match bootBank s1 b (firstBank s1) with
      | none => .next (bootStops (stopGlades s1 (fun _ => true)) (bankFail s1 b (!firstBank s1)))
      | some x => .next (missGlades (warmOn (reissue ((List.range 256).foldl recoverRing (runBank s1 x.1))) x.2) 0) := by
  subst hs1
  exact if_neg (by simp [hpwr, hperst, hcfg])

variable (hjob : s.job = none) (hx : s.fab.xfers = [])
include hjob hx

theorem exec_warmReset_stops (hbank : bootBank s b (firstBank s) = none) :
    ∃ u c, exec (.warmReset b 0) s = .next (bootStops u c) := by
  rw [exec_warmReset (s1 := warmCleared s) b hpwr hperst hcfg (warmCleared_of_idle hjob hx), bootBank_warmCleared, hbank]
  exact ⟨_, _, rfl⟩

/-- A warm reset that finds a bank: that bank runs on what the reset left, with the rings recovered, DEV_READY and a new epoch. -/
theorem exec_warmReset_boots {k fell : Bool} (hbank : bootBank s b (firstBank s) = some (k, fell)) : ∃ rings cmds halves,
    exec (.warmReset b 0) s = .next { runBank (warmCleared s) k with
      rings := rings, cmds := cmds, halves := halves, epoch := s.epoch + 1,
      boot := { stage := 9, cfgReady := true, devReady := true, fallback := fell } } := by
  rw [exec_warmReset (s1 := warmCleared s) b hpwr hperst hcfg (warmCleared_of_idle hjob hx), bootBank_warmCleared, hbank]
  obtain ⟨rings, cmds, hrings⟩ := recoverAll_rest (List.range 256) (runBank (warmCleared s) k)
  obtain ⟨halves, hon⟩ := warmOn_of_idle (s := (List.range 256).foldl recoverRing (runBank (warmCleared s) k)) (by rw [hrings]; exact hjob)
    (by rw [hrings]; exact hx) fell
  refine ⟨rings, cmds, halves, congrArg Host.Outcome.next (hon.trans ?_)⟩
  rw [hrings]
  rfl

end WarmReset

/-! ### The statement about start-up and warm reset -/

/-- Settles O28: a boot and a warm reset by the state each leaves, `bootBase` with its tested parts and `runBank` after `warmCleared`. -/
theorem bootResults : Obligations.BootResults := by
  refine ⟨fun t s hperst hpwr => ⟨fun k fell hbank => ?boots, fun hbank => ?stops⟩,
    fun b s hpwr hperst hcfg hjob hx => ⟨fun k fell hbank => ?warmBoots, fun hbank => ?warmStops⟩⟩
  case boots =>
    refine ⟨_, exec_perstDeassert_boots hperst hpwr rfl hbank, ?_⟩
    have hpds := fun hdies i => bootOn_pd_on (t := t) (i := i) hdies { s with pins := { s.pins with perst := false } } k fell
    obtain ⟨ch, po, pd, fe, hparts⟩ := bootParts_rest (bootBase { s with pins := { s.pins with perst := false } } k fell) t
    rw [bootOn_eq, hparts] at hpds ⊢
    exact ⟨rfl, rfl, rfl, rfl, rfl, rfl, hpds, rfl, rfl, rfl, rfl,
      congrArg Half.lease ((halfOf_setHalf_ne _ _ (by decide)).trans (halfOf_setHalf_same _ _ _)), congrArg Half.lease (halfOf_setHalf_same _ _ _)⟩
  case stops =>
    obtain ⟨c, hexec⟩ := exec_perstDeassert_stops hperst hpwr rfl hbank
    exact ⟨_, hexec⟩
  case warmBoots =>
    obtain ⟨rings, cmds, halves, hexec⟩ := exec_warmReset_boots b hpwr hperst hcfg hjob hx hbank
    exact ⟨_, hexec, rfl, rfl, rfl, rfl, rfl, rfl, rfl, rfl, rfl, rfl⟩
  case warmStops =>
    obtain ⟨u, c, hexec⟩ := exec_warmReset_stops b hpwr hperst hcfg hjob hx hbank
    exact ⟨_, _, hexec, rfl, rfl⟩

end Sys2Proof.Proofs
end

section
/-! Ranger's messages outside a session: report, tables, chain and firmware update, and its own events. -/

namespace Sys2Proof.Proofs

open Sys2Proof.Machine Sys2Proof.Safety Sys2Proof.Laws

/-! ### A message's body (R433) -/

/-- A message with a body of the right length does its work. -/
theorem onMessage_length {s f : State} {code n : Nat} (hmsg : MessageWaits s code) (hlen : mbLen s = n) :
    onMessage s code (if mbLen s ≠ n then mbReply s rsBadFormat [] else f) = .next f :=
  (onMessage_eq hmsg).trans (congrArg _ (if_neg (not_not.mpr hlen)))

/-! ### The report (R436, R439, R441) -/

/-- A report signed while key agreement is refused holds no ephemeral key. -/
theorem makeReport_ephs_of_not_ready {s : State} (hstate : rgrStateNow s ≠ 0) (nonce : Bytes) (mask : Nat) (ten : Option Nat) :
    (makeReport s nonce mask ten).1.rgr.ephs = s.rgr.ephs := by
  simp [makeReport, hstate]

theorem exec_report_badLength {s : State} (hmsg : MessageWaits s 0x01) (hses : mbSession s = 0) (hlen : mbLen s ≠ 64) :
    exec .report s = .next (mbReply s rsBadFormat []) :=
  (onMessage_eq hmsg).trans (congrArg _ ((if_pos hses).trans (if_pos hlen)))

theorem exec_report {s : State} (hmsg : MessageWaits s 0x01) (hses : mbSession s = 0) (hlen : mbLen s = 64) : exec .report s = .next
    (mbReply (makeReport s ((mbBody s).take 32) (fieldLe (mbBody s) 32 32) none).1 rsOk
      (makeReport s ((mbBody s).take 32) (fieldLe (mbBody s) 32 32) none).2) :=
  (onMessage_eq hmsg).trans (congrArg _ ((if_pos hses).trans (if_neg (not_not.mpr hlen))))

/-! ### Firmware update (R426 to R428) -/

theorem setBank_fusedSvn (s : State) (k : Bool) (v : Bank) : (setBank s k v).flash.fusedSvn = s.flash.fusedSvn := by cases k <;> rfl

/-- FW_STAGE of a chunk that the inactive bank holds (R428). -/
theorem fwStage_writes {s : State} {k : Bool} {v : Bank} {off : Nat} {d : Bytes} (hk : k = !s.rgr.bank) (hv : v = bankOf s k) (hmsg : MessageWaits s 0x10)
    (hmin : 8 ≤ (mbBody s).length) (hmax : (mbBody s).length ≤ 16360) (hoff : off = fieldLe (mbBody s) 0 8) (hd : d = (mbBody s).drop 8)
    (hfits : off + d.length ≤ 2 ^ 25) : ∃ t, exec .fwStage s = .next (mbReply t rsOk []) ∧
      bankOf t k = { valid := false, image := wrBytes v.image off d } ∧ bankOf t s.rgr.bank = bankOf s s.rgr.bank ∧
      t.rgr.updating = true ∧ t.flash.marked = false ∧ t.flash.fusedSvn = s.flash.fusedSvn := by
  subst hk hv hoff hd
  rw [List.length_drop] at hfits
  exact ⟨_, (onMessage_eq hmsg).trans (congrArg _ ((if_neg (by simp [hmin, hmax])).trans (if_neg (Nat.not_lt.mpr hfits)))),
    bankOf_setBank _ _ _, bankOf_setBank_ne _ _ _, rfl, rfl, setBank_fusedSvn _ _ _⟩

section Update

variable {s : State} {k : Bool} {v : Bank} (hk : k = !s.rgr.bank) (hv : v = bankOf s k) (hlen : mbLen s = 0)
include hk hv hlen

/-- FW_ACTIVATE outside an update, with a check of R426 that fails, and with none (R428). -/
theorem fwActivate_results (hmsg : MessageWaits s 0x11) (c : Fin 6) :
    (s.rgr.updating = false → exec (.fwActivate c) s = .next (mbReply s rsRefused [])) ∧
    (s.rgr.updating = true → (c.val ≠ 0 ∨ (bankSvn v).toNat < s.flash.fusedSvn.toNat) →
      exec (.fwActivate c) s = .next (mbReply { s with flash := { s.flash with marked := false } } rsAuthFail [])) ∧
    (s.rgr.updating = true → c.val = 0 → s.flash.fusedSvn.toNat ≤ (bankSvn v).toNat → ∃ t, exec (.fwActivate c) s = .next (mbReply t rsOk []) ∧
      bankOf t k = { v with valid := true } ∧ bankOf t s.rgr.bank = bankOf s s.rgr.bank ∧ t.flash.marked = true ∧ t.rgr = s.rgr) := by
  subst hk hv
  refine ⟨fun hupd => ?_, fun hupd hbad => ?_, fun hupd hc hsvn => ?_⟩
  · exact (onMessage_length hmsg hlen).trans (congrArg _ (if_pos (by simp [hupd])))
  · exact (onMessage_length hmsg hlen).trans (congrArg _ ((if_neg (by simp [hupd])).trans (if_pos (by simpa using hbad))))
  · exact ⟨_, (onMessage_length hmsg hlen).trans (congrArg _ ((if_neg (by simp [hupd])).trans (if_neg (by simp [hc, hsvn])))),
      bankOf_setBank _ _ _, bankOf_setBank_ne _ _ _, rfl, rfl⟩

/-- FW_ABANDON outside an update and in one (R428). -/
theorem fwAbandon_results (hmsg : MessageWaits s 0x12) :
    (s.rgr.updating = false → exec .fwAbandon s = .next (mbReply s rsRefused [])) ∧
    (s.rgr.updating = true → ∃ t, exec .fwAbandon s = .next (mbReply t rsOk []) ∧ bankOf t k = { v with valid := false } ∧
      t.rgr = { s.rgr with updating := false } ∧ t.flash.marked = false) := by
  subst hk hv
  refine ⟨fun hupd => ?_, fun hupd => ?_⟩
  · exact (onMessage_length hmsg hlen).trans (congrArg _ (if_pos (by simp [hupd])))
  · exact ⟨_, (onMessage_length hmsg hlen).trans (congrArg _ (if_neg (by simp [hupd]))), bankOf_setBank _ _ _, rfl, rfl⟩

end Update

/-- FW_COMMIT_SVN by the order of the running and the fused SVN (R427). -/
theorem fwCommitSvn_results {s : State} (hmsg : MessageWaits s 0x13) (hlen : mbLen s = 0) :
    (s.rgr.runSvn.toNat ≤ s.flash.fusedSvn.toNat → exec .fwCommitSvn s = .next (mbReply s rsRefused [])) ∧
    (s.flash.fusedSvn.toNat < s.rgr.runSvn.toNat →
      exec .fwCommitSvn s = .next (mbReply { s with flash := { s.flash with fusedSvn := s.rgr.runSvn } } rsOk [])) :=
  ⟨fun hle => (onMessage_length hmsg hlen).trans (congrArg _ (if_pos hle)),
    fun hlt => (onMessage_length hmsg hlen).trans (congrArg _ (if_neg (Nat.not_le.mpr hlt)))⟩

/-! ### Ranger's own events (R441) -/

theorem exec_ephemeralKeyExpiry {s : State} {e : Eph} {r : List Eph} (hephs : s.rgr.ephs = e :: r) (hup : hubUp s = true) :
    exec .ephemeralKeyExpiry s = .next { advanceTo s (e.time.toNat + 10000000000) with rgr := { s.rgr with ephs := r } } := by
  show execEphemeralKeyExpiry s = _
  unfold execEphemeralKeyExpiry
  rw [hephs]
  exact if_pos hup

/-! ### The statement about Ranger's messages -/

/-- Settles O51: each message by its answer and what it leaves, and the two events. -/
theorem rangerMessageResults : Obligations.RangerMessageResults := by
  intro s
  refine ⟨fun hmsg hses => ⟨exec_report_badLength hmsg hses, fun hlen => ⟨_, _, exec_report hmsg hses hlen, rfl, ?notReady⟩⟩,
    onMessage_length, onMessage_length, onMessage_length, fun k v hk hv => ⟨fun off d => fwStage_writes hk hv,
      fun c hmsg hlen => fwActivate_results hk hv hlen hmsg c, fun hmsg hlen => fwAbandon_results hk hv hlen hmsg⟩,
    fwCommitSvn_results, fun hdrbg => if_pos hdrbg, fun e r => exec_ephemeralKeyExpiry⟩
  case notReady => exact fun hstate => makeReport_ephs_of_not_ready hstate _ _ _

end Sys2Proof.Proofs
end

section
/-! SPDM and TDISP inside a session: heartbeat, key updates, the session's end, IDE keys, and the interface from unlocked to run and back. -/

namespace Sys2Proof.Proofs

open Sys2Proof.Machine Sys2Proof.Safety Sys2Proof.Laws

/-! ### Requests inside a session (R453, R454) -/

/-- Outside an established session a request that is handled inside one gets InvalidSession. -/
theorem exec_closedSession {s : State} {m : Bool} {sid : BitVec 32} (hready : SpdmReady s m) (hclosed : spdmOpen s sid = false) {i : Instr}
    (hi : ∃ f, exec i s = inSpdm s m sid f) : exec i s = .next (spdmError s seInvalidSession) := by
  obtain ⟨f, hi⟩ := hi
  exact hi.trans (inSpdm_none hready hclosed)

/-- Without a session of its own an identifier is not open. -/
theorem spdmOpen_of_removed {s : State} {sid : BitVec 32} (h : ∀ x ∈ s.spdm.sessions, x.sid ≠ sid) : spdmOpen s sid = false := by
  refine List.any_eq_false.mpr fun x hx => ?_
  simp [h x hx]

/-- A session that an answer leaves as it was: any but the one that it answers in. -/
theorem mem_answerIn_sessions {s : State} {sid : BitVec 32} {kind code : Byte} {b : Bytes} {x : SpdmSes}
    (hx : x ∈ (answerIn s sid kind code b).spdm.sessions) (hne : x.sid ≠ sid) : x ∈ s.spdm.sessions := by
  obtain ⟨y, hy, rfl⟩ := List.mem_map.mp hx
  by_cases hsid : y.sid = sid
  · rw [if_pos hsid] at hne
    exact absurd hsid hne
  · rwa [if_neg hsid]

/-- END_SESSION answers, and removes its session alone. -/
theorem exec_endSession {s : State} {m : Bool} {sid : BitVec 32} (hready : SpdmReady s m) (hopen : spdmOpen s sid = true) :
    ∃ t o, exec (.endSession m sid) s = .next t ∧ t.out = s.out ++ [.secured sid o] ∧ spdmOpen t sid = false ∧
      ∀ x ∈ t.spdm.sessions, x ∈ s.spdm.sessions ∧ x.sid ≠ sid := by
  refine ⟨_, _, inSpdm_eq hready hopen, rfl, spdmOpen_of_removed fun x hx => ?_, fun x hx => ?_⟩
  · exact of_decide_eq_true (List.mem_filter.mp hx).2
  · obtain ⟨hmem, hne⟩ := List.mem_filter.mp hx
    have hsid := of_decide_eq_true hne
    exact ⟨mem_answerIn_sessions hmem hsid, hsid⟩

/-! ### The statement about SPDM and TDISP inside a session -/

/-- Settles O54: each request by what it does in an established session, and by InvalidSession in any other. -/
theorem tdispResults : Obligations.TdispResults := by
  intro s m sid hready
  refine ⟨fun hclosed i hi => exec_closedSession hready hclosed ?_, fun hopen => ?_⟩
  · rcases hi with rfl | ⟨o, rfl⟩ | rfl | ⟨st, k, rfl⟩ | rfl | rfl | rfl | rfl | rfl | ⟨n, rfl⟩ | rfl <;> exact ⟨_, rfl⟩
  · have hin : ∀ f, inSpdm s m sid f = .next f := fun f => inSpdm_eq hready hopen
    refine ⟨hin _, hin _, hin _, hin _, exec_endSession hready hopen, fun st key => ⟨_, hin _, tget_tset_same _ _ _ _, fun k hk => tget_tset_ne _ _ _ hk⟩,
      hin _, hin _, fun htdi => ?lock, fun htdi => ?locked, ?report, hin _,
      fun n => ⟨fun htdi => ?notLocked, fun htdi hnonce => ?otherNonce, fun htdi hnonce => ?run⟩, hin _⟩
    case lock => exact (hin _).trans (congrArg _ (if_neg (by simp [htdi])))
    case locked => exact (hin _).trans (congrArg _ (if_pos htdi))
    case report => exact (hin _).trans (congrArg _ (if_congr (by simp) rfl rfl))
    case notLocked => exact (hin _).trans (congrArg _ (if_pos htdi))
    case otherNonce => exact (hin _).trans (congrArg _ ((if_neg (by simp [htdi])).trans (if_pos hnonce)))
    case run => exact (hin _).trans (congrArg _ ((if_neg (by simp [htdi])).trans (if_neg (by simp [hnonce]))))

end Sys2Proof.Proofs
end

section
/-! The module's pins: power on, and the four cold resets by MOD_PWR_EN, the input, the thermal trip and PERST_N. -/

namespace Sys2Proof.Proofs

open Sys2Proof.Machine Sys2Proof.Safety Sys2Proof.Laws

/-! ### The cold reset (R459, R466, R467) -/

theorem domainsOff_pins (s : State) : (domainsOff s).pins = s.pins := by
  obtain ⟨p, hp⟩ : ∃ p, domainsOff s = { s with pds := p } := foldPds _ _ s
  rw [hp]

theorem coldReset_pins (s : State) (k : BitVec 3) : (coldReset s k).pins = { s.pins with alert := false } := domainsOff_pins _

/-- A module that is on leaves a cold reset with PWR_GOOD deasserted. -/
theorem powerOff_on {s : State} (hpwr : s.pins.pwrGood = true) (k : BitVec 3) :
    powerOff s k = { coldReset s k with pins := { s.pins with alert := false, pwrGood := false } } := by
  unfold powerOff
  rw [if_pos hpwr]
  dsimp only
  rw [coldReset_pins]

/-- A module that is off has nothing to lose. -/
theorem powerOff_off {s : State} (hpwr : s.pins.pwrGood = false) (k : BitVec 3) :
    powerOff s k = { s with pins := { s.pins with pwrGood := false } } := by
  unfold powerOff
  rw [if_neg (by simp [hpwr])]

/-! ### The pins' commands (R458, R466, R478, R564) -/

section Pins

variable {s : State}

theorem exec_modPwrEnDeassert : exec .modPwrEnDeassert s =
    .next { powerOff s 2 with pins := { (powerOff s 2).pins with pwrEn := false, latched := false, thermTrip := false } } := rfl

theorem exec_inputFault : exec .inputFault s =
    .next { powerOff s 0 with pins := { (powerOff s 0).pins with inputOk := false, latched := true } } := rfl

theorem exec_thermalTrip_on (hpwr : s.pins.pwrGood = true) : exec .thermalTrip s =
    .next { powerOff s 3 with pins := { (powerOff s 3).pins with thermTrip := true, latched := true } } := if_pos hpwr

theorem exec_thermalTrip_off (hpwr : s.pins.pwrGood = false) : exec .thermalTrip s = .next s := if_neg (by simp [hpwr])

theorem exec_perstAssert_reset (hpwr : s.pins.pwrGood = true) (hperst : s.pins.perst = false) : exec .perstAssert s =
    .next { coldReset s 1 with pins := { s.pins with alert := false, perst := true } } := by
  show execPerstAssert s = _
  unfold execPerstAssert
  rw [if_pos (by simp [hpwr, hperst])]
  dsimp only
  rw [coldReset_pins]

/-- Without power, or where PERST_N is asserted already, the pin is all that PERST_ASSERT sets. -/
theorem exec_perstAssert_pin (h : s.pins.pwrGood = false ∨ s.pins.perst = true) : exec .perstAssert s =
    .next { s with pins := { s.pins with perst := true } } := by
  show execPerstAssert s = _
  unfold execPerstAssert
  rw [if_neg (by rcases h with h | h <;> simp [h])]

end Pins

/-- Settles O27: each way to lose power is `powerOff` with its kind, and PERST_N resets a powered module that it does not hold already. -/
theorem pinResults : Obligations.PinResults := by
  intro s cold hcold
  have hreset : ∀ k, coldReset s k = cold k := fun k => (hcold k).symm
  refine ⟨fun hlatch => if_pos hlatch, fun hlatch => if_neg (by simp [hlatch]), fun hpwr => ?on, fun hpwr => ?off⟩
  case on =>
    rw [exec_modPwrEnDeassert, exec_inputFault, exec_thermalTrip_on hpwr, powerOff_on hpwr, powerOff_on hpwr, powerOff_on hpwr, hreset, hreset, hreset]
    refine ⟨rfl, rfl, rfl, fun hperst => hreset 1 ▸ exec_perstAssert_reset hpwr hperst, fun hperst => ?_⟩
    rw [exec_perstAssert_pin (.inr hperst), ← hperst]
  case off =>
    rw [exec_modPwrEnDeassert, exec_inputFault, powerOff_off hpwr, powerOff_off hpwr]
    exact ⟨rfl, rfl, exec_thermalTrip_off hpwr, exec_perstAssert_pin (.inl hpwr)⟩

end Sys2Proof.Proofs
end

section
/-! SPDM outside a session: when a request is answered at all, and what each request answers. -/

namespace Sys2Proof.Proofs

open Sys2Proof.Machine Sys2Proof.Safety Sys2Proof.Laws

/-! ### Requests that are not served (R464) -/

theorem onSpdm_stopped {s : State} (h : s.pins.pwrGood = false ∨ s.pins.perst = true ∨ s.hub.fault = true) (m : Bool) (f : State) :
    onSpdm s m f = .next s :=
  if_pos (by rcases h with h | h | h <;> simp [h])

theorem onSpdm_notReady {s : State} {m : Bool} (hpwr : s.pins.pwrGood = true) (hperst : s.pins.perst = false) (hfault : s.hub.fault = false)
    (hpath : if m then s.boot.stage ≠ 0 else barAnswers s = true) (hdev : s.boot.devReady = false) (f : State) :
    onSpdm s m f = .next (spdmError s seNotReady) := by
  have hreaches : (if m then decide (s.boot.stage ≠ 0) else barAnswers s) = true := by
    cases m with
    | false => exact hpath
    | true => exact decide_eq_true hpath
  unfold onSpdm
  dsimp only
  rw [hreaches, if_neg (by simp [hpwr, hperst, hfault]), if_pos (by simp [hdev])]

/-! ### Requests that are served (R453) -/

section Served

variable {s : State} {m : Bool} (hready : SpdmReady s m)
include hready

theorem exec_getMeasurements_unsupported {b : Byte} (hlow : 6 < b.toNat) (hhigh : b.toNat < 0xF0) (n : Digest) :
    exec (.getMeasurements m b n) s = .next (spdmUnsupported s 0xE0) := by
  have hzero : b ≠ 0 := by rintro rfl; exact absurd hlow (by decide)
  have hall : b ≠ 0xFF := by rintro rfl; exact absurd hhigh (by decide)
  refine (onSpdm_eq hready).trans (congrArg _ ?_)
  rw [if_neg hzero, if_neg hall, if_pos (by grind)]

/-- One of the six component blocks: its digest alone, signed. -/
theorem exec_getMeasurements_component {b : Byte} (hlow : 1 ≤ b.toNat) (hhigh : b.toNat ≤ 6) (n : Digest) {d : Bytes}
    (hd : d = dig (bankDigest (bankOf s s.rgr.bank) (b.toNat - 1))) : exec (.getMeasurements m b n) s =
      .next (emit (drawRandom s) (.spdm 0x60 (d ++ padTo (Config.ecdsaSign s.rgr.aliasKey (Config.sha256 (dig n ++ d)) s.free) 64))) := by
  have hzero : b ≠ 0 := by rintro rfl; exact absurd hlow (by decide)
  have hall : b ≠ 0xFF := by rintro rfl; exact absurd hhigh (by decide)
  have hblock : measurement s b.toNat n = (s, d) := by rw [hd]; exact if_neg (by omega)
  refine (onSpdm_eq hready).trans (congrArg _ ?_)
  rw [if_neg hzero, if_neg hall, if_neg (by grind), List.foldl_cons, List.foldl_nil, hblock]
  rfl

/-- FINISH in a session whose exchange has run and that is not established. -/
theorem exec_finish_pending {x : SpdmSes} (hx : x ∈ s.spdm.sessions) (hest : x.est = false) (ok : Bool) :
    exec (.finish m x.sid ok) s = .next (if ok then
      spdmIn (updSpdm s x.sid (fun x => { x with est := true })) x.sid 0x65 [] else spdmError s seDecrypt) := by
  have hany : s.spdm.sessions.any (fun y => decide (y.sid = x.sid) && !y.est) = true := List.any_eq_true.mpr ⟨x, hx, by simp [hest]⟩
  refine (onSpdm_eq hready).trans (congrArg _ ?_)
  rw [hany, if_neg (by decide)]
  cases ok <;> rfl

end Served

/-- Settles O53: every request passes `onSpdm`, which tells a stopped path and a device that is not ready, and each one's answer follows. -/
theorem spdmResults : Obligations.SpdmResults := by
  intro s m
  refine ⟨fun i hi => ?unserved, fun hready => ?served⟩
  case unserved =>
    obtain ⟨f, hf⟩ : ∃ f, exec i s = onSpdm s m f := by
      rcases hi with rfl | rfl | rfl | ⟨a, b, c, rfl⟩ | ⟨a, n, rfl⟩ | ⟨a, n, rfl⟩ | ⟨a, k, rfl⟩ | ⟨a, b, rfl⟩ | ⟨a, o, rfl | rfl | rfl⟩ | ⟨c, rfl⟩ <;>
        exact ⟨_, rfl⟩
    rw [hf]
    exact ⟨fun hstop => onSpdm_stopped hstop m f, fun hpwr hperst hfault hpath hdev => onSpdm_notReady hpwr hperst hfault hpath hdev f⟩
  case served =>
    have hserved : ∀ f, onSpdm s m f = .next f := fun f => onSpdm_eq hready
    refine ⟨hserved _, hserved _, hserved _,
      fun a o l => ⟨fun ha => (hserved _).trans (congrArg _ (if_neg (not_not.mpr ha))), fun ha => (hserved _).trans (congrArg _ (if_pos ha))⟩,
      fun n g hg => ?challenge, fun a n ha => (hserved _).trans (congrArg _ (if_pos ha)),
      fun b n hlow hhigh => exec_getMeasurements_unsupported hready hlow hhigh n,
      fun b n d hlow hhigh hd => exec_getMeasurements_component hready hlow hhigh n hd,
      fun r n p hstate => (hserved _).trans (congrArg _ (if_pos hstate)), fun r n p sid th z hstate hsid hz hth => ?exchange,
      fun x hx hest => ⟨exec_finish_pending hready hx hest false, exec_finish_pending hready hx hest true⟩, fun c => hserved _⟩
    case challenge =>
      subst hg
      exact (hserved _).trans (congrArg _ (if_neg (not_not.mpr rfl)))
    case exchange =>
      subst hsid hz hth
      exact ⟨_, _, (hserved _).trans (congrArg _ (if_neg (not_not.mpr hstate))), rfl, rfl⟩

end Sys2Proof.Proofs
end

section
/-! The register writes with rows of their own: resets, the restart scan, rings, ports, power domains and the cap. -/

namespace Sys2Proof.Proofs

open Sys2Proof.Machine Sys2Proof.Safety Sys2Proof.Laws

/-! ### Values whose bits a row finds as it would set them -/

theorem or_one_of_set {v : BitVec 64} (h : v.getLsbD 0 = true) : v ||| 1 = v := setBit v 0 h
theorem or_two_of_set {v : BitVec 64} (h : v.getLsbD 1 = true) : v ||| 2 = v := setBit v 1 h
theorem or_four_of_set {v : BitVec 64} (h : v.getLsbD 2 = true) : v ||| 4 = v := setBit v 2 h
theorem and_not_one_of_clear {v : BitVec 64} (h : v.getLsbD 0 = false) : v &&& ~~~1 = v := clrBit v 0 h

/-- The reserved bits of the cap register are those above its 32. -/
theorem and_rsvMask_wvCap {v : BitVec 64} (h : v.toNat < 2 ^ 32) : v &&& rsvMask .wvCap = 0 := by
  have hlow : v = v &&& 0xFFFFFFFF := BitVec.eq_of_toNat_eq <| by
    rw [BitVec.toNat_and, show (0xFFFFFFFF : BitVec 64).toNat = 2 ^ 32 - 1 from rfl, Nat.and_two_pow_sub_one_eq_mod, Nat.mod_eq_of_lt h]
  rw [hlow, BitVec.and_assoc, show (0xFFFFFFFF : BitVec 64) &&& rsvMask .wvCap = 0#64 from rfl, BitVec.and_zero]
  rfl

section Rows

variable {s : State}

/-! ### HUB_RST_CTL (R472, R474, R476, R479) -/

/-- With a die that exists, the write stores DIE and its three bits act. -/
theorem writeRstCtl_eq {v : BitVec 64} {s1 : State} (hd : (v.extractLsb' 8 5).toNat < 24)
    (hs1 : s1 = { s with rst := { s.rst with dieField := v.extractLsb' 8 5 } }) : writeRstCtl s v =
      (let s2 := if v.getLsbD 0 then jobResetNow s1 else s1
       let s3 := if v.getLsbD 2 then startDieReset s2 (v.extractLsb' 8 5).toNat else s2
       if v.getLsbD 1 then shutdownNow s3 else s3) := by
  subst hs1
  exact if_neg (Nat.not_le.mpr hd)

/-! ### The end of a die reset (R473, R498) -/

theorem dieResetDone_fail {d : Fin 24} {s1 : State} (hup : hubUp s = true) (hheld : s.rst.held.getLsbD d.val = true)
    (hs1 : s1 = { s with rst := { s.rst with dieBusy := false, held := s.rst.held &&& ~~~(oneBit d.val) } }) :
    exec (.dieResetDone d false) s = .next (fenceDie (if d.val < 16 then framesLost s1 d.val else s1) d.val) := by
  subst hs1
  show execDieResetDone d false s = _
  unfold execDieResetDone
  dsimp only
  rw [hheld, hup, if_neg (by decide), if_pos (by decide)]

/-- A canopy or horizon die that returns takes its channels or its ports with it, and nothing of the resets or the fences. -/
theorem dieResetDone_pass_rst {d : Fin 24} {s1 : State} (hup : hubUp s = true) (hheld : s.rst.held.getLsbD d.val = true)
    (hs1 : s1 = { s with rst := { s.rst with dieBusy := false, held := s.rst.held &&& ~~~(oneBit d.val) } }) (hd : 16 ≤ d.val) :
    ∃ t, exec (.dieResetDone d true) s = .next t ∧ t.rst = s1.rst ∧ t.fences = s.fences := by
  have hfences : s1.fences = s.fences := by rw [hs1]
  refine ⟨_, dieResetDone_pass hup hheld hs1, ?_⟩
  rw [if_neg (Nat.not_lt.mpr hd), ← hfences]
  split
  · exact chanFold d.val s1
  · exact portFold d.val s1

/-! ### The restart scan (R488) -/

theorem writeRestartCtl_go {v : BitVec 64} {s1 : State} (hgo : v.getLsbD 0 = true) (hdev : s.boot.devReady = true) (hbusy : s.rst.rsBusy = false)
    (hrings : ∀ e ∈ s.rings, e.2.st = .disabled) (hs1 : s1 = { s with rst := { s.rst with
      rsLimit := v.extractLsb' 16 16, rsGen := v.extractLsb' 32 16, rsDone := s.rst.rsDone && !v.getLsbD 2 } }) :
    writeRestartCtl s v = restartScan s1 := by
  subst hs1
  have hall : s.rings.all (fun e => decide (e.2.st = .disabled)) = true := List.all_eq_true.mpr fun e he => decide_eq_true (hrings e he)
  exact if_pos (by simp [hgo, hdev, hbusy, hall])

/-! ### Ports (R371) -/

/-- Where the port's horizon die is not held on by both its modes, enabling wakes no domain. -/
theorem writePortCfg_enable {p : Port} (hp : p = portOf s s.sels.port.toNat) (hmode : (pdOf s (40 + 2 * (s.sels.port.toNat / 8))).mode ≠ 0) :
    writePortCfg s true = setPort s s.sels.port.toNat { p with enable := true, st := if p.st = 5 then 1 else p.st } := by
  subst hp
  unfold writePortCfg
  rw [if_neg (by decide)]
  refine if_neg fun hboth => hmode ?_
  exact of_decide_eq_true (Bool.and_eq_true_iff.mp hboth).1

/-! ### Power domains (R512, R514) -/

theorem modeOk_grove {i m : Nat} (hi : i < 32) (hm : m ≤ 2) : modeOk i m = true := by
  unfold modeOk
  rw [if_pos hi, decide_eq_true hm]

section Grove

variable {p : Pd} (hp : p = pdOf s s.sels.pd.toNat) (hi : s.sels.pd.toNat < 32)
include hp hi

theorem writePdCtl_on : writePdCtl s 0 = setPd s s.sels.pd.toNat
    { p with mode := 0, pending := false, st := if p.st = 3 ∨ p.st = 1 then 4 else p.st } := by
  subst hp
  unfold writePdCtl
  dsimp only
  rw [modeOk_grove hi (by decide), if_neg (by decide), if_neg (by decide)]
  simp [hi]

theorem writePdCtl_off : ∃ b, writePdCtl s 2 = setPd (setPd s s.sels.pd.toNat { p with mode := 2 }) s.sels.pd.toNat { p with mode := 2, pending := b } := by
  subst hp
  unfold writePdCtl
  dsimp only
  rw [modeOk_grove hi (by decide), if_neg (by decide), if_pos rfl, pdOf_setPd_same]
  exact ⟨_, rfl⟩

end Grove

end Rows

/-! ### The statement about the rows of register writes -/

/-- Settles O56: each row is the write that it names, with its bits as the value has them, and the register's action follows. -/
theorem controlRegisterResults : Obligations.ControlRegisterResults := by
  intro s v hb
  have hup := hubUp_of_barAnswers hb
  refine ⟨?resets, fun d hdev => ?hubReset, fun d s1 hheld hs1 => ⟨dieResetDone_fail hup hheld hs1, fun hd => ?grove, dieResetDone_pass_rst hup hheld hs1⟩,
    fun s1 hgo hm hdev hbusy hrings hs1 => ?scan, ?ringReset, fun g hg hm hsize => ⟨fun hen hdev hst => ?ringOn, fun hen hst => ?ringOff⟩,
    ?ports, ?domains, fun hv => ?cap⟩
  case resets =>
    rintro _ s1 rfl hd hs1
    refine ⟨fun hm hjob hstop hdie => ?_, fun hm hjob hstop hdie => ?_, fun hm hjob hstop hdie => ?_⟩
    · rw [exec_jobReset, or_one_of_set hjob, write_rstCtl hb, if_pos hm, writeRstCtl_eq hd hs1]
      simp only [hjob, hstop, hdie, reduceIte, Bool.false_eq_true]
    · rw [exec_shutdown, or_two_of_set hstop, write_rstCtl hb, if_pos hm, writeRstCtl_eq hd hs1]
      simp only [hjob, hstop, hdie, reduceIte, Bool.false_eq_true]
    · rw [exec_dieReset_host, or_four_of_set hdie, write_rstCtl hb, if_pos hm, writeRstCtl_eq hd hs1]
      simp only [hjob, hstop, hdie, reduceIte, Bool.false_eq_true]
  case hubReset => exact congrArg Host.Outcome.next ((hubDieReset_answered hb d.val).trans (if_pos hdev))
  case grove => rw [dieResetDone_pass hup hheld hs1, if_pos hd]
  case scan => rw [exec_restartScan, or_one_of_set hgo, write_restartCtl hb, if_pos hm, writeRestartCtl_go hgo hdev hbusy hrings hs1]
  case ringReset =>
    rintro rfl
    have hkept : { ringOf s s.sels.ring.toNat with resetDone := (ringOf s s.sels.ring.toNat).resetDone && !(1 : BitVec 64).getLsbD 1 } =
        ringOf s s.sels.ring.toNat := by rw [show (1 : BitVec 64).getLsbD 1 = false from rfl, Bool.not_false, Bool.and_true]
    rw [exec_ringReset, or_one_of_set rfl, write_ringReset hb, if_pos (by decide), writeField_ringReset_set rfl, hkept]
  case ringOn =>
    rw [exec_ringEnable, or_one_of_set hen, write_ringCfg hb, if_pos hm, writeRingCfg_enabled hg hsize hen hdev (by simp [hst])]
  case ringOff => rw [exec_ringDisable, and_not_one_of_clear hen, write_ringCfg hb, if_pos hm, writeRingCfg_draining hg hsize hen hst]
  case ports =>
    rintro k p rfl hp
    refine ⟨fun h5 h6 => ?_, fun hmode => ?_⟩
    · rw [exec_portDisable, write_portCfg hb, if_pos (by decide), enable_cleared, writePortCfg_disable hp h5 h6]
    · rw [exec_portEnable, write_portCfg hb, if_pos (by decide), enable_set, writePortCfg_enable hp hmode]
  case domains =>
    rintro i p rfl hp hi
    refine ⟨?_, ?_, ?_⟩
    · rw [exec_pdModeOn, write_pdCtl hb, if_pos (by decide), mode_on]
      exact congrArg _ (writePdCtl_on hp hi)
    · rw [exec_pdModeAuto, write_pdCtl hb, if_pos (by decide), mode_auto]
      refine congrArg _ ((writePdCtl_auto hp (modeOk_grove hi (by decide))).trans ?_)
      simp [hi]
    · obtain ⟨b, hoff⟩ := writePdCtl_off hp hi
      refine ⟨writePdCtl s 2, ?_, ?_⟩
      · rw [exec_pdModeOff, write_pdCtl hb, if_pos (by decide), mode_off]
        rfl
      · rw [hoff, pdOf_setPd_same]
        exact ⟨rfl, rfl, fun x hx => (pdOf_setPd_ne _ _ hx).trans (pdOf_setPd_ne _ _ hx)⟩
  case cap => rw [exec_wvCap, write_wvCap hb, if_pos (and_rsvMask_wvCap hv)]

end Sys2Proof.Proofs
end

section
/-! The block's totality: every command answers a next state, and the memories are canonical at reset. -/

namespace Sys2Proof.Proofs

open Sys2Proof.Machine Sys2Proof.Safety Sys2Proof.Laws

/-- Every command answers, whatever its operands and whether its event can happen (log 1): one arm per command, as in `exec`. -/
theorem exec_answers (c : Instr) (s : State) : answers (exec c s) :=
  match c with
  | .nop _ => execNop_answers _ s
  | .halt _ => execHalt_answers _ s
  | .haltDone _ _ => execHaltDone_answers _ _ s
  | .br _ => execBr_answers _ s
  | .loop _ => execLoop_answers _ s
  | .call _ => execCall_answers _ s
  | .ret _ => execRet_answers _ s
  | .meet _ => execMeet_answers _ s
  | .meetRelease _ _ => execMeetRelease_answers _ _ s
  | .meetTimeout _ _ => execMeetTimeout_answers _ _ s
  | .signal _ => execSignal_answers _ s
  | .tokenEnter _ _ _ => execTokenEnter_answers _ _ _ s
  | .wait _ => execWait_answers _ s
  | .tokenReceive _ _ => execTokenReceive_answers _ _ s
  | .deadlock _ => execDeadlock_answers _ s
  | .mov _ => execMov_answers _ s
  | .alu _ => execAlu_answers _ s
  | .cmp _ => execCmp_answers _ s
  | .tdset _ => execTdset_answers _ s
  | .tdadd _ => execTdadd_answers _ s
  | .tdcpy _ => execTdcpy_answers _ s
  | .lds _ => execLds_answers _ s
  | .sts _ => execSts_answers _ s
  | .ldT _ => execLdT_answers _ s
  | .stT _ => execStT_answers _ s
  | .ldG _ => execLdG_answers _ s
  | .pf _ => execPf_answers _ s
  | .xfer _ => execXfer_answers _ s
  | .wld _ => execWld_answers _ s
  | .mm _ => execMm_answers _ s
  | .mmG _ => execMmG_answers _ s
  | .cvt _ => execCvt_answers _ s
  | .vop _ => execVop_answers _ s
  | .sel _ => execSel_answers _ s
  | .sfu _ => execSfu_answers _ s
  | .statRd _ => execStatRd_answers _ s
  | .route _ => execRoute_answers _ s
  | .routeF _ => execRouteF_answers _ s
  | .red _ => execRed_answers _ s
  | .gladeStop _ => execGladeStop_answers _ s
  | .doorbellWrite _ _ _ _ => execDoorbellWrite_answers _ _ _ _ s
  | .descriptorAccept _ => execDescriptorAccept_answers _ s
  | .completionRelease _ => execCompletionRelease_answers _ s
  | .run _ => execRun_answers _ s
  | .admitSeq _ => execAdmit_answers _ s
  | .retire _ => execRetire_answers _ s
  | .frame _ => execFrame_answers _ s
  | .update _ => execUpdate_answers _ s
  | .install _ => execInstall_answers _ s
  | .hostXfer _ => execHostXfer_answers _ s
  | .adapterPrefetch _ => execAdapterPrefetch_answers _ s
  | .adapterEvict _ => execAdapterEvict_answers _ s
  | .checkpointOut _ => execCheckpointOut_answers _ s
  | .checkpointIn _ => execCheckpointIn_answers _ s
  | .fence _ => execFence_answers _ s
  | .mark _ => execMark_answers _ s
  | .jobOpen _ => execJobOpen_answers _ s
  | .jobClose _ => execJobClose_answers _ s
  | .jobCloseAbort _ => execJobCloseAbort_answers _ s
  | .jobPreempt _ => execJobPreempt_answers _ s
  | .preemptDrainEnd => execPreemptDrainEnd_answers s
  | .preemptSaveDone => execPreemptSaveDone_answers s
  | .jobResume _ => execJobResume_answers _ s
  | .segSet _ => execSegSet_answers _ s
  | .progLoad _ => execProgLoad_answers _ s
  | .baseLoad _ => execBaseLoad_answers _ s
  | .baseRetire _ => execBaseRetire_answers _ s
  | .adapterLoad _ => execAdapterLoad_answers _ s
  | .adapterSwitch _ => execAdapterSwitch_answers _ s
  | .adapterRelease _ => execAdapterRelease_answers _ s
  | .slotReleaseDone _ => execSlotReleaseDone_answers _ s
  | .slotBind _ => execSlotBind_answers _ s
  | .slotRevoke _ => execSlotRevoke_answers _ s
  | .tenantSlotFree _ => execTenantSlotFree_answers _ s
  | .streamSet _ => execStreamSet_answers _ s
  | .domainSet _ => execDomainSet_answers _ s
  | .stepBoundary => execStepBoundary_answers s
  | .stepStart => execStepStart_answers s
  | .parkLimitExpiry _ => execParkLimitExpiry_answers _ s
  | .adapterFetchDone _ => execAdapterFetchDone_answers _ s
  | .frameRelease _ => execFrameRelease_answers _ s
  | .frameDispatch _ => execFrameDispatch_answers _ s
  | .frameProgramEnd _ => execFrameProgramEnd_answers _ s
  | .transferStart _ => execTransferStart_answers _ s
  | .pairBringUp _ => execPairBringUp_answers _ s
  | .pairUp _ _ => execPairUp_answers _ _ s
  | .pairRekey _ => execPairRekey_answers _ s
  | .oldKeyDiscard _ => execOldKeyDiscard_answers _ s
  | .jobBinding _ _ => execJobBinding_answers _ _ s
  | .portMask _ _ => execPortMask_answers _ _ s
  | .headCellReceive _ _ _ => execHeadCellReceive_answers _ _ _ s
  | .readRequestReceive _ _ _ => execReadRequestReceive_answers _ _ _ s
  | .dataCellReceive _ _ _ => execDataCellReceive_answers _ _ _ s
  | .responseCellReceive _ _ _ _ _ => execResponseCellReceive_answers _ _ _ _ _ s
  | .completionResponse _ _ _ _ => execCompletionResponse_answers _ _ _ _ s
  | .refusalReceive _ _ _ _ => execRefusalReceive_answers _ _ _ _ s
  | .targetPreemptedAnswer _ _ _ => execTargetPreemptedAnswer_answers _ _ _ s
  | .preemptedRetryTimer _ => execPreemptedRetryTimer_answers _ s
  | .positionQuery _ _ _ => execPositionQuery_answers _ _ _ s
  | .positionAnswer _ _ _ => execPositionAnswer_answers _ _ _ s
  | .completionTimeout _ => execCompletionTimeout_answers _ s
  | .positionQueryTimeout _ => execPositionQueryTimeout_answers _ s
  | .transferRecordTimeout _ _ => execTransferRecordTimeout_answers _ _ s
  | .linkCellSend _ => execLinkCellSend_answers _ s
  | .linkCellReceive _ _ => execLinkCellReceive_answers _ _ s
  | .slotLost _ => execSlotLost_answers _ s
  | .replayTimeout _ => execReplayTimeout_answers _ s
  | .wavelengthLockLost _ _ => execWavelengthLockLost_answers _ _ s
  | .wavelengthRelock _ => execWavelengthRelock_answers _ s
  | .portDown _ => execPortDown_answers _ s
  | .portUp _ => execPortUp_answers _ s
  | .creditReturn _ _ => execCreditReturn_answers _ _ s
  | .stagingWrite _ _ => execStagingWrite_answers _ _ s
  | .stagingRead _ _ => execStagingRead_answers _ _ s
  | .configRequest => execConfigRequest_answers s
  | .fruRead _ _ => execFruRead_answers _ _ s
  | .mctpTelemetry => execMctpTelemetry_answers s
  | .report => execReport_answers s
  | .sessionOpen => execSessionOpen_answers s
  | .sessionClose => execSessionClose_answers s
  | .setPolicy => execSetPolicy_answers s
  | .setCkptKey => execSetCkptKey_answers s
  | .adapterList => execAdapterList_answers s
  | .progTable => execProgTable_answers s
  | .jobConfig => execJobConfig_answers s
  | .certChain => execCertChain_answers s
  | .fwStage => execFwStage_answers s
  | .fwActivate _ => execFwActivate_answers _ s
  | .fwAbandon => execFwAbandon_answers s
  | .fwCommitSvn => execFwCommitSvn_answers s
  | .getVersion _ => execGetVersion_answers _ s
  | .getCapabilities _ => execGetCapabilities_answers _ s
  | .getDigests _ => execGetDigests_answers _ s
  | .getCertificate _ _ _ _ => execGetCertificate_answers _ _ _ _ s
  | .challenge _ _ _ => execChallenge_answers _ _ _ s
  | .getMeasurements _ _ _ => execGetMeasurements_answers _ _ _ s
  | .keyExchange _ _ _ => execKeyExchange_answers _ _ _ s
  | .finish _ _ _ => execFinish_answers _ _ _ s
  | .heartbeat _ _ => execHeartbeat_answers _ _ s
  | .keyUpdate _ _ => execKeyUpdate_answers _ _ s
  | .endSession _ _ => execEndSession_answers _ _ s
  | .ideKm _ _ _ => execIdeKm_answers _ _ _ s
  | .spdmUnsupportedRequest _ _ => execSpdmUnsupportedRequest_answers _ _ s
  | .getTdispVersion _ => execGetTdispVersion_answers _ s
  | .getTdispCapabilities _ => execGetTdispCapabilities_answers _ s
  | .lockInterfaceRequest _ => execLockInterfaceRequest_answers _ s
  | .getDeviceInterfaceReport _ => execGetDeviceInterfaceReport_answers _ s
  | .getDeviceInterfaceState _ => execGetDeviceInterfaceState_answers _ s
  | .startInterfaceRequest _ _ => execStartInterfaceRequest_answers _ _ s
  | .stopInterfaceRequest _ => execStopInterfaceRequest_answers _ s
  | .registerWrite _ _ _ => execRegisterWrite_answers _ _ _ s
  | .ringEnable _ => execRingEnable_answers _ s
  | .ringDisable _ => execRingDisable_answers _ s
  | .ringReset _ => execRingReset_answers _ s
  | .jobReset _ => execJobReset_answers _ s
  | .shutdown _ => execShutdown_answers _ s
  | .dieReset _ => execDieReset_answers _ s
  | .dieResetDone _ _ => execDieResetDone_answers _ _ s
  | .restartScan _ => execRestartScan_answers _ s
  | .portEnable _ => execPortEnable_answers _ s
  | .portDisable _ => execPortDisable_answers _ s
  | .pdModeOn _ => execPdModeOn_answers _ s
  | .pdModeAuto _ => execPdModeAuto_answers _ s
  | .pdModeOff _ => execPdModeOff_answers _ s
  | .pdPowerOff _ => execPdPowerOff_answers _ s
  | .pdClockStop _ => execPdClockStop_answers _ s
  | .pdWakeReady _ => execPdWakeReady_answers _ s
  | .wvCap _ => execWvCap_answers _ s
  | .clockPointChange _ => execClockPointChange_answers _ s
  | .wvMeasure _ => execWvMeasure_answers _ s
  | .wvPlanSave => execWvPlanSave_answers s
  | .thermalSample _ => execThermalSample_answers _ s
  | .throttleLower => execThrottleLower_answers s
  | .throttleRaise => execThrottleRaise_answers s
  | .alternateIssueInterval _ => execAlternateIssueInterval_answers _ s
  | .thermalTrip => execThermalTrip_answers s
  | .errorReport _ _ _ _ => execErrorReport_answers _ _ _ _ s
  | .errRecordClose _ => execErrRecordClose_answers _ s
  | .errRecordWrite => execErrRecordWrite_answers s
  | .selfTestDone _ _ => execSelfTestDone_answers _ _ s
  | .leaseGrant => execLeaseGrant_answers s
  | .leaseLapse _ => execLeaseLapse_answers _ s
  | .leaseAck _ _ => execLeaseAck_answers _ _ s
  | .halfResync _ => execHalfResync_answers _ s
  | .hubFault => execHubFault_answers s
  | .drbgReseed => execDrbgReseed_answers s
  | .ephemeralKeyExpiry => execEphemeralKeyExpiry_answers s
  | .modPwrEnAssert => execModPwrEnAssert_answers s
  | .modPwrEnDeassert => execModPwrEnDeassert_answers s
  | .perstAssert => execPerstAssert_answers s
  | .perstDeassert _ => execPerstDeassert_answers _ s
  | .inputFault => execInputFault_answers s
  | .warmReset _ _ => execWarmReset_answers _ _ s
  | .restoreDone => execRestoreDone_answers s

/-- Settles O5: each command's meaning answers a next state on every path. -/
theorem everyCommandAnswers : Obligations.EveryCommandAnswers := exec_answers

/-- At reset nothing is written in either memory (log 5). -/
theorem memWf_reset : MemWf State.reset := ⟨wf_nil, wf_nil⟩

/-- Settles O3: both memories are empty at reset, and a byte write keeps the canonical form. -/
theorem resetMemory : Obligations.ResetMemory := by
  obtain ⟨hmem, hhost⟩ := memWf_reset
  exact ⟨⟨hmem, hhost⟩, fun a b => ⟨wf_wr1 a b hmem, wf_wr1 a b hhost⟩⟩

end Sys2Proof.Proofs
end

section
/-! Power domains, clock points, the throttle and the supply plan: what each event of R512 to R533 does. -/

namespace Sys2Proof.Proofs

open Sys2Proof.Machine Sys2Proof.Safety Sys2Proof.Laws

/-- A power domain is read from the table of domains alone. -/
theorem pdOf_eq_of_pds {s t : State} (h : t.pds = s.pds) (i : Nat) : pdOf t i = pdOf s i := congrArg (tget (pdInit i) · i) h

/-! ### A sample's readings (R526, R529) -/

theorem showThrottle_pds (s : State) : (showThrottle s).pds = s.pds := rfl

/-- The state with every domain's temperature read. -/
def tempsRead (t : Tab (BitVec 8)) (s : State) : State := (List.range 50).foldl (fun s i => setPd s i { pdOf s i with temp := tget 0 t i }) s

theorem tempsRead_temp {t : Tab (BitVec 8)} {s : State} {i : Nat} (hi : i < 50) : (pdOf (tempsRead t s) i).temp = tget 0 t i :=
  temp_fold t (List.range 50) s List.nodup_range i (List.mem_range.mpr hi)

/-- The hottest sensor's temperature. -/
def hottest (t : Tab (BitVec 8)) : Nat := (List.range 50).foldl (fun m i => max m (tget 0 t i).toNat) 0

theorem hottest_toNat (t : Tab (BitVec 8)) : (BitVec.ofNat 8 (hottest t)).toNat = hottest t := by
  rw [BitVec.toNat_ofNat]
  exact Nat.mod_eq_of_lt (max_fold_lt t (List.range 50) 0 (by decide))

/-- What a sample in state `s` makes of `u`, where the temperatures stand read and the hottest of them is `top`. -/
def sampleTaken (r : ThermalReading) (s u : State) (top : Nat) : State :=
  showThrottle { u with
    hub := { u.hub with powerW := r.power, maxTemp := BitVec.ofNat 8 top },
    wv := { u.wv with
      condTemp := hotDies r.temps 100, condPower := if capW s < r.power.toNat then 0xFFFF else 0,
      severe := if 11 * capW s ≤ 10 * r.power.toNat then 0xFFFF else hotDies r.temps 103,
      coolSince := if decide (top < 95) && decide (100 * r.power.toNat < 95 * capW s) then some (s.wv.coolSince.getD s.hub.time) else none,
      loweredAt := if s.wv.condTemp = 0 && s.wv.condPower = 0 then s.hub.time else s.wv.loweredAt } }

section Sample

variable (r : ThermalReading) (s u : State) (top : Nat)

theorem sampleTaken_pds : (sampleTaken r s u top).pds = u.pds := showThrottle_pds _
theorem sampleTaken_powerW : (sampleTaken r s u top).hub.powerW = r.power := rfl
theorem sampleTaken_maxTemp : (sampleTaken r s u top).hub.maxTemp = BitVec.ofNat 8 top := rfl
theorem sampleTaken_condTemp : (sampleTaken r s u top).wv.condTemp = hotDies r.temps 100 := by unfold sampleTaken showThrottle; rfl

theorem sampleTaken_condPower : (sampleTaken r s u top).wv.condPower = 0 ↔ r.power.toNat ≤ capW s := by
  show (if capW s < r.power.toNat then (0xFFFF : BitVec 16) else 0) = 0 ↔ _
  split <;> simp <;> omega

theorem sampleTaken_coolSince : (sampleTaken r s u top).wv.coolSince.isSome ↔ top < 95 ∧ 100 * r.power.toNat < 95 * capW s := by
  show (if _ then some (s.wv.coolSince.getD s.hub.time) else none : Option (BitVec 64)).isSome ↔ _
  simp

end Sample

/-! ### The throttle's events (R526, R529) -/

/-- What the end of the 1 ms in state `s` makes of `u`, where the dies stand lowered, at the time `now`. -/
def diesLowered (s u : State) (now : BitVec 64) : State :=
  showThrottle { u with
    hub := { u.hub with thermEvt := u.hub.thermEvt || s.wv.condTemp ≠ 0, pwrEvt := u.hub.pwrEvt || s.wv.condPower ≠ 0 },
    wv := { u.wv with loweredAt := now } }

section Lower

variable (s u : State) (now : BitVec 64)

theorem diesLowered_loweredAt : (diesLowered s u now).wv.loweredAt = now := rfl

theorem diesLowered_thermEvt (h : s.wv.condTemp ≠ 0) : (diesLowered s u now).hub.thermEvt = true := by
  show (u.hub.thermEvt || decide (s.wv.condTemp ≠ 0)) = true
  rw [decide_eq_true h, Bool.or_true]

theorem diesLowered_pwrEvt (h : s.wv.condPower ≠ 0) : (diesLowered s u now).hub.pwrEvt = true := by
  show (u.hub.pwrEvt || decide (s.wv.condPower ≠ 0)) = true
  rw [decide_eq_true h, Bool.or_true]

end Lower

section Power

variable {s : State} (hup : hubUp s = true)
include hup

/-! ### Gating and waking (R512, R515) -/

theorem exec_pdPowerOff_idle {i : Fin 50} (hmode : (pdOf s i.val).mode = 2) (hst : (pdOf s i.val).st = 0 ∨ (pdOf s i.val).st = 1)
    (hidle : pdIdle s i.val = true) :
    exec (.pdPowerOff i) s = .next (setPd (pdContentsLost s i.val) i.val { pdOf s i.val with st := 3, pending := false }) :=
  if_pos (by simpa [hup, hmode, hidle] using hst)

omit hup in
theorem exec_pdPowerOff_kept {i : Fin 50} (h : (pdOf s i.val).mode ≠ 2 ∨ pdIdle s i.val = false) : exec (.pdPowerOff i) s = .next s :=
  if_neg fun hoff => by
    simp only [Bool.and_eq_true, decide_eq_true_eq] at hoff
    obtain ⟨⟨⟨_, hmode⟩, _⟩, hidle⟩ := hoff
    rcases h with h | h
    · exact h hmode
    · exact absurd hidle (by simp [h])

theorem exec_pdClockStop_idle {i : Fin 50} (hmode : (pdOf s i.val).mode = 1) (hst : (pdOf s i.val).st = 0) (hidle : pdIdle s i.val = true) :
    exec (.pdClockStop i) s = .next (setPd s i.val { pdOf s i.val with st := 1 }) :=
  if_pos (by simp [hup, hmode, hst, hidle])

theorem exec_pdWakeReady_waking {i : Fin 50} (hst : (pdOf s i.val).st = 4) :
    exec (.pdWakeReady i) s = .next (setPd s i.val { pdOf s i.val with st := 0 }) :=
  if_pos (by simp [hup, hst])

/-! ### Clock points and alternate issue (R518, R519, R526) -/

theorem exec_clockPointChange (d : Fin 16) : exec (.clockPointChange d) s = .next (setPd s (2 * d.val)
    { pdOf s (2 * d.val) with point := BitVec.ofNat 2 (diePoint s d.val), cause := dieCause s d.val }) :=
  if_pos hup

theorem exec_alternateIssueInterval (d : Fin 16) : exec (.alternateIssueInterval d) s = .next
    (if (pdOf s (2 * d.val)).alt then setPd s (2 * d.val) { pdOf s (2 * d.val) with issueOff := !(pdOf s (2 * d.val)).issueOff } else s) := by
  show execAlternateIssueInterval d s = _
  unfold execAlternateIssueInterval
  cases halt : (pdOf s (2 * d.val)).alt <;> simp [hup, halt]

/-! ### Samples (R526, R529) -/

theorem exec_thermalSample_eq (r : ThermalReading) :
    exec (.thermalSample r) s = .next (sampleTaken r s (tempsRead r.temps s) (hottest r.temps)) :=
  if_neg (by simp [hup])

/-- A sample writes the temperatures, the power and the throttle's conditions. -/
theorem exec_thermalSample (r : ThermalReading) : ∃ t, exec (.thermalSample r) s = .next t ∧ t.hub.powerW = r.power ∧
    t.wv.condTemp = hotDies r.temps 100 ∧ (t.wv.condPower = 0 ↔ r.power.toNat ≤ capW s) ∧ (∀ i, i < 50 → (pdOf t i).temp = tget 0 r.temps i) ∧
    (t.wv.coolSince.isSome ↔ t.hub.maxTemp.toNat < 95 ∧ 100 * r.power.toNat < 95 * capW s) := by
  refine ⟨_, exec_thermalSample_eq hup r, sampleTaken_powerW .., sampleTaken_condTemp .., sampleTaken_condPower .., fun i hi => ?_, ?_⟩
  · rw [pdOf_eq_of_pds (sampleTaken_pds ..), tempsRead_temp hi]
  · rw [sampleTaken_maxTemp, hottest_toNat, sampleTaken_coolSince]

/-! ### The throttle (R526) -/

omit hup in
theorem exec_throttleLower_none (htemp : s.wv.condTemp = 0) (hpower : s.wv.condPower = 0) : exec .throttleLower s = .next s :=
  if_pos (by simp [htemp, hpower])

theorem exec_throttleLower_eq (hcond : s.wv.condTemp ≠ 0 ∨ s.wv.condPower ≠ 0) {s1 : State} (hs1 : s1 = advanceTo s (s.wv.loweredAt.toNat + 1000000)) :
    exec .throttleLower s = .next (diesLowered s ((List.range 16).foldl lowerDie s1) s1.hub.time) := by
  subst hs1
  exact if_neg (by simpa [hup, imp_iff_not_or] using hcond)

/-- Lowering restarts the 1 ms and records which condition it was. -/
theorem exec_throttleLower (hcond : s.wv.condTemp ≠ 0 ∨ s.wv.condPower ≠ 0) : ∃ t, exec .throttleLower s = .next t ∧
    t.wv.loweredAt = (advanceTo s (s.wv.loweredAt.toNat + 1000000)).hub.time ∧ (s.wv.condTemp ≠ 0 → t.hub.thermEvt = true) ∧
    (s.wv.condPower ≠ 0 → t.hub.pwrEvt = true) :=
  ⟨_, exec_throttleLower_eq hup hcond rfl, diesLowered_loweredAt .., diesLowered_thermEvt _ _ _, diesLowered_pwrEvt _ _ _⟩

omit hup in
theorem exec_throttleRaise_none (h : s.wv.coolSince = none) : exec .throttleRaise s = .next s := by
  show execThrottleRaise s = _
  unfold execThrottleRaise
  rw [h]

/-- Raising restarts the 10 ms. -/
theorem exec_throttleRaise {t0 : BitVec 64} (h : s.wv.coolSince = some t0) : ∃ t, exec .throttleRaise s = .next t ∧
    t.wv.coolSince = some (advanceTo s (t0.toNat + 10000000)).hub.time := by
  show ∃ t, execThrottleRaise s = _ ∧ _
  unfold execThrottleRaise
  rw [h]
  dsimp only
  rw [if_neg (by simp [hup])]
  exact ⟨_, rfl, rfl⟩

/-! ### Weathervane (R531 to R533) -/

/-- One measurement of a domain with one supply point alone plans that supply and its margin. -/
theorem exec_wvMeasure_one {r : WvReading} (hph : isPhotonic r.pd.val = false) (hgr : isGroveCompute r.pd.val = false) :
    exec (.wvMeasure [r]) s = .next (setPd s r.pd.val { pdOf s r.pd.val with
      margin := BitVec.ofNat 16 (min 0xFFFF (r.vmax - planned r 0)), endDays := endOf r.hours r.decline (r.vmax - planned r 0),
      volt := BitVec.ofNat 12 (planned r 0) }) := by
  refine (if_pos hup).trans (congrArg _ ?_)
  show measureOne s r = _
  unfold measureOne
  dsimp only
  rw [hph, hgr, if_neg Bool.false_ne_true, if_neg Bool.false_ne_true]

/-- The stored plan has each domain's planned values; the domains and the firmware bank stay. -/
theorem exec_wvPlanSave : ∃ t, exec .wvPlanSave s = .next t ∧ t.pds = s.pds ∧ t.flash.bank0 = s.flash.bank0 ∧ ∀ i, i < 50 → tget {} t.flash.plan i =
    { margin := (pdOf s i).margin, endDays := (pdOf s i).endDays, limit := (pdOf s i).limit, volt := (pdOf s i).volt } :=
  ⟨savePlan s, if_pos hup, rfl, rfl, fun i hi => plan_fold s [] (List.range 50) List.nodup_range i (List.mem_range.mpr hi) []⟩

end Power

/-! ### The statement about power, clocks and supplies -/

/-- Settles O57, event by event: the gating of a domain, a die's point and issue, a sample, the throttle both ways, a measurement and the saved plan. -/
theorem powerResults : Obligations.PowerResults := by
  intro s hup
  refine ⟨?gating, ?dies, exec_thermalSample hup, ⟨exec_throttleLower_none, exec_throttleLower hup, exec_throttleRaise_none, fun _ => exec_throttleRaise hup⟩,
    fun _ => exec_wvMeasure_one hup, exec_wvPlanSave hup⟩
  case gating =>
    rintro i _ rfl
    exact ⟨exec_pdPowerOff_idle hup, exec_pdPowerOff_kept, exec_pdClockStop_idle hup, exec_pdWakeReady_waking hup⟩
  case dies =>
    rintro d _ rfl
    exact ⟨⟨_, exec_clockPointChange hup d, rfl, rfl⟩, exec_alternateIssueInterval hup d⟩

end Sys2Proof.Proofs
end

section
/-! The error collector, the self-tests and the hub fault: what each event of R493 to R507 does. -/

namespace Sys2Proof.Proofs

open Sys2Proof.Machine Sys2Proof.Safety Sys2Proof.Laws

/-! ### Reports (R491, R493, R495) -/

theorem errClass_errClass (c : ErrClass) : errClass (errClass c) = errClass c := by
  cases c with
  | symbols n => by_cases h : n ≤ 2 <;> simp [errClass, h]
  | _ => rfl

theorem hasTest_errClass (k : ErrKey) (c : ErrClass) : hasTest k (errClass c) = hasTest k c := by
  unfold hasTest
  rw [errClass_errClass]

/-- Without a poisoned address, an error outside the array columns, the channels and the ports changes nothing but the collector. -/
theorem errEffect_none {k : ErrKey} (h2 : k.unit.val ≠ 2) (h4 : k.unit.val ≠ 4) (h5 : k.unit.val ≠ 5) (s : State) (c : ErrClass) :
    errEffect s k c none = s := by
  unfold errEffect
  dsimp only
  split
  · next h => exact absurd h h2
  · next h => exact absurd h h4
  · next h => exact absurd h h5
  · rfl

theorem testChan_other {k : ErrKey} (h4 : k.unit.val ≠ 4) (s : State) : testChan s k = s := if_neg (by simp [h4])

theorem collect_open {s : State} {k : ErrKey} (h : ∃ o ∈ s.errs.opened, o.key = k) (c : ErrClass) (acc : BitVec 64) :
    collect s k c acc = { s with errs := { s.errs with opened := s.errs.opened.map (fun o => if o.key = k then
      { o with witness := o.witness + 1, acc := if o.acc = 0 then acc else o.acc } else o) } } :=
  if_pos (by simpa using h)

theorem collect_first {s : State} {k : ErrKey} (hopen : ∀ o ∈ s.errs.opened, o.key ≠ k) (htest : ∀ t ∈ s.errs.tests, t.key ≠ k)
    (hfence : keyFenced s k = false) (c : ErrClass) (acc : BitVec 64) :
    collect s k c acc = { s with errs := { s.errs with
      opened := s.errs.opened ++ [{ key := k, cls := c, time := s.hub.time, witness := 0, acc := acc }],
      tests := if hasTest k c then s.errs.tests ++ [{ key := k, cls := c, time := s.hub.time, acc := acc }] else s.errs.tests } } :=
  ((if_neg (by simpa using hopen)).trans (if_neg (by simpa using htest))).trans (if_neg (by simp [hfence]))

/-! ### Records (R495 to R497) -/

theorem queueRec_room {s : State} (h : s.errs.heldRec.length < 256) (f : Nat → ERec) : queueRec s f =
    ({ s with errs := { s.errs with heldRec := s.errs.heldRec ++ [f s.errs.nextSeq], nextSeq := s.errs.nextSeq + 1 } }, some s.errs.nextSeq) :=
  if_neg (Nat.not_le.mpr h)

theorem queueRec_full {s : State} (h : 256 ≤ s.errs.heldRec.length) (f : Nat → ERec) :
    queueRec s f = ({ s with errs := { s.errs with lost := true } }, none) :=
  if_pos h

/-- Whether it keeps a record or not, the queue leaves the open records, the tests, their passes and the fences. -/
theorem queueRec_keeps (s : State) (f : Nat → ERec) : ((queueRec s f).1.errs.opened = s.errs.opened ∧ (queueRec s f).1.errs.tests = s.errs.tests) ∧
    (queueRec s f).1.errs.passes = s.errs.passes ∧ (queueRec s f).1.fences = s.fences := by
  unfold queueRec
  split <;> exact ⟨⟨rfl, rfl⟩, rfl, rfl⟩

theorem map_tests_other {k : ErrKey} {l : List ETest} (h : ∀ t ∈ l, t.key ≠ k) (f : ETest → ETest) :
    l.map (fun t => if t.key = k then f t else t) = l :=
  (List.map_congr_left fun t ht => if_neg (h t ht)).trans (List.map_id l)

theorem find?_tests_none {k : ErrKey} {l : List ETest} (h : ∀ t ∈ l, t.key ≠ k) : l.find? (fun t => t.key = k) = none :=
  List.find?_eq_none.mpr fun t ht => by simpa using h t ht

/-- FIRST of a key that has no test (R497). -/
def firstRec (k : ErrKey) (o : EOpen) (n : Nat) : ERec :=
  { seq := n, time := o.time, kind := 1, cls := o.cls, outcome := 3, key := k, witness := o.witness, late := 0, acc := o.acc, link := 0 }

/-- The close of a record whose key has no test queues FIRST without an outcome and forgets the open record. -/
theorem exec_errRecordClose_untested {s : State} {k : ErrKey} {o : EOpen} (hup : hubUp s = true)
    (hopen : s.errs.opened.find? (fun o => o.key = k) = some o) (htest : ∀ t ∈ s.errs.tests, t.key ≠ k) {u : State}
    (hu : u = (queueRec (advanceTo s (o.time.toNat + 10000)) (firstRec k o)).1) :
    exec (.errRecordClose k) s = .next { u with errs := { u.errs with opened := s.errs.opened.filter (fun o => o.key ≠ k) } } := by
  obtain ⟨⟨hopened, htests⟩, _⟩ := queueRec_keeps (advanceTo s (o.time.toNat + 10000)) (firstRec k o)
  rw [advanceTo_errs, ← hu] at hopened htests
  have hother : ∀ t ∈ u.errs.tests, t.key ≠ k := htests ▸ htest
  show execErrRecordClose k s = _
  unfold execErrRecordClose
  rw [hopen]
  refine (if_neg (by simp [hup])).trans ?_
  extract_lets s1 t x _ _ s2
  have hx : x.1 = u := by
    have ht : t = none := find?_tests_none htest
    rw [hu]
    show (queueRec s1 _).1 = _
    rw [ht]
    rfl
  have hs2 : s2 = { u with errs := { u.errs with opened := s.errs.opened.filter (fun o => o.key ≠ k) } } := by
    show ({ x.1 with errs := { x.1.errs with opened := _, tests := x.1.errs.tests.map _ } } : State) = _
    rw [hx, map_tests_other hother, hopened]
  rw [hs2, find?_tests_none hother]

section Write

variable {s : State} {r : ERec} {rest : List ERec} (hheld : s.errs.heldRec = r :: rest)
include hheld

theorem exec_errRecordWrite_full (h : 2 ^ s.errs.size.toNat ≤ (s.errs.tail - s.errs.head).toNat) : exec .errRecordWrite s = .next s := by
  show execErrRecordWrite s = _
  unfold execErrRecordWrite
  dsimp only
  rw [hheld]
  exact if_neg (by simp [-BitVec.toNat_sub, Nat.not_lt.mpr h])

theorem exec_errRecordWrite_room (hup : hubUp s = true) (hen : s.errs.enable = true) (hvec : s.errs.vector = 0)
    (h : (s.errs.tail - s.errs.head).toNat < 2 ^ s.errs.size.toNat) :
    exec .errRecordWrite s = .next { hostWrite s (s.errs.base.toNat * 4096 + 64 * (r.seq % 2 ^ s.errs.size.toNat))
      (recBytes r (phase (2 ^ s.errs.size.toNat) r.seq)) with errs := { s.errs with heldRec := rest, tail := s.errs.tail + 1 } } := by
  show execErrRecordWrite s = _
  unfold execErrRecordWrite
  dsimp only
  rw [hheld]
  exact (if_pos (by simp [-BitVec.toNat_sub, hup, hen, h])).trans (congrArg _ (if_pos hvec))

end Write

/-! ### The end of a self-test (R493, R494, R497) -/

/-- The state with a passed test of a key counted, where it has passed. -/
def passCounted (s : State) (k : ErrKey) (pass : Bool) : State :=
  if pass then { s with errs := { s.errs with passes := s.errs.passes ++ [(k, s.hub.time)] } } else s

section Counted

variable (s : State) (k : ErrKey) (pass : Bool)

theorem passCounted_errs : (passCounted s k pass).errs =
    { s.errs with passes := if pass then s.errs.passes ++ [(k, s.hub.time)] else s.errs.passes } := by
  cases pass <;> rfl

theorem passCounted_fences : (passCounted s k pass).fences = s.fences := by
  cases pass <;> rfl

end Counted

/-- The end of a test whose record has closed: OUTCOME is queued, and the structure is fenced or returns. -/
theorem exec_selfTestDone_closed {s : State} {k : ErrKey} {t : ETest} (hup : hubUp s = true) (htest : testFor s k = some t) (hkey : t.key = k)
    (hclosed : ∀ x ∈ s.errs.opened, x.key ≠ k) (pass : Bool) {lasting : Bool} (hl : lasting = (!pass || decide (2 ≤ recentPasses s k))) {u : State}
    (hu : u = queueOutcome (passCounted s k pass) t k (if lasting then 2 else 1)) :
    exec (.selfTestDone k pass) s = .next (if lasting then fenceKey u k else chanReturns u k) := by
  subst hl hu
  show execSelfTestDone k pass s = _
  unfold execSelfTestDone
  rw [htest]
  refine (if_neg (by simp [hup])).trans ?_
  rw [hkey]
  extract_lets lasting _ s1 o _ s2
  have hs2 : s2 = queueOutcome (passCounted s k pass) t k o := if_neg <| by
    show ¬ ((passCounted s k pass).errs.opened.any _ = true)
    rw [passCounted_errs]
    simpa using hclosed
  rw [hs2]

theorem queueOutcome_sets (s : State) (t : ETest) (k : ErrKey) (o : Byte) :
    (queueOutcome s t k o).errs.passes = s.errs.passes ∧ (queueOutcome s t k o).errs.tests = s.errs.tests.filter (fun x => x.key ≠ t.key) ∧
    (queueOutcome s t k o).fences = s.fences ∧
    (s.errs.heldRec.length < 256 → (queueOutcome s t k o).errs.heldRec = s.errs.heldRec ++ [outcomeRec t k o s.errs.nextSeq]) := by
  obtain ⟨⟨_, htests⟩, hpasses, hfences⟩ := queueRec_keeps s (outcomeRec t k o)
  exact ⟨hpasses, congrArg (List.filter _) htests, hfences, fun h => congrArg (·.1.errs.heldRec) (queueRec_room h (outcomeRec t k o))⟩

/-! ### The statement about errors -/

/-- Settles O58: a report by what it finds in the collector, a close and a write by the room in the queue and the ring, and the end of a test by its outcome. -/
theorem errorResults : Obligations.ErrorResults := by
  intro s hup
  refine ⟨fun k c acc h2 h4 h5 => ?report, ?close, ?write, ?test, if_pos hup⟩
  case report =>
    have hexec : exec (.errorReport k c none acc) s = .next (collect s k (errClass c) acc) := by
      refine (if_pos hup).trans ?_
      rw [errEffect_none h2 h4 h5, testChan_other h4]
    refine ⟨fun hopen htest hfence => ?_, fun hopen => ?_⟩
    · rw [hexec, collect_first hopen htest hfence, hasTest_errClass]
    · rw [hexec, collect_open hopen]
  case close =>
    rintro k o _ _ hopen htest rfl rfl
    rw [exec_errRecordClose_untested hup hopen htest rfl]
    have herrs := advanceTo_errs s (o.time.toNat + 10000)
    refine ⟨fun hroom => ?_, fun hfull => ?_⟩
    · rw [queueRec_room (by rwa [herrs]), herrs]; rfl
    · rw [queueRec_full (by rwa [herrs]), herrs]
  case write =>
    rintro r rest _ hheld rfl hen
    exact ⟨exec_errRecordWrite_full hheld, fun hroom hvec => ⟨_, exec_errRecordWrite_room hheld hup hen hvec hroom, rfl⟩⟩
  case test =>
    rintro k pass t lasting _ htest hkey hclosed hl rfl
    refine ⟨_, exec_selfTestDone_closed hup htest hkey hclosed pass hl rfl, ?_⟩
    have hsets := queueOutcome_sets (passCounted s k pass) t k (if lasting then 2 else 1)
    rwa [hkey, passCounted_errs, passCounted_fences] at hsets

end Sys2Proof.Proofs
end

section
/-! The leases of the halves: grants, lapse, acknowledgement and resynchronisation (R503 to R506). -/

namespace Sys2Proof.Proofs

open Sys2Proof.Machine Sys2Proof.Safety Sys2Proof.Laws

section Leases

variable {s : State} {h : Fin 2}

/-! ### Grant and lapse (R504) -/

theorem exec_leaseGrant (hup : hubUp s = true) (hdev : s.boot.devReady = true) :
    exec .leaseGrant s = .next (grantHalf (grantHalf (advanceTo s (lastGrant s + 250000)) 0) 1) :=
  if_pos (by simp [hup, hdev])

theorem exec_leaseLapse_none (hl : (halfOf s h.val).lease = none) : exec (.leaseLapse h) s = .next s := by
  show execLeaseLapse h s = _
  unfold execLeaseLapse
  dsimp only
  rw [hl]

theorem exec_leaseLapse_some {t : BitVec 64} (hl : (halfOf s h.val).lease = some t) : exec (.leaseLapse h) s = .next
    (stopGlades (setHalf (advanceTo s (t.toNat + 1000000)) h.val { halfOf s h.val with lease := none, stopped := true }) (inHalf h.val)) := by
  show execLeaseLapse h s = _
  unfold execLeaseLapse
  dsimp only
  rw [hl]

/-! ### Acknowledgement (R506) -/

section Acknowledged

variable (hup : hubUp s = true) (hdev : s.boot.devReady = true)
include hup hdev

theorem exec_leaseAck_current : exec (.leaseAck h s.epoch) s = .next (setHalf s h.val { halfOf s h.val with epoch := s.epoch, stale := 0 }) :=
  (if_neg (by simp [hup, hdev])).trans (if_pos rfl)

/-- A stale report counts; from the second in a row the lease is withheld, and a record is written where it was not withheld before. -/
theorem exec_leaseAck_stale {ep : BitVec 64} (hep : ep.toNat < s.epoch.toNat) {n : Nat} (hn : n = (halfOf s h.val).stale + 1) {s1 : State}
    (hs1 : s1 = setHalf s h.val { halfOf s h.val with epoch := ep, stale := n, withheld := (halfOf s h.val).withheld || decide (2 ≤ n) }) :
    exec (.leaseAck h ep) s = .next
      (if 2 ≤ n && !(halfOf s h.val).withheld then collect s1 ⟨9, BitVec.ofNat 16 h.val, 0⟩ .staleEpoch 0 else s1) := by
  subst hs1 hn
  have hne : ep ≠ s.epoch := fun heq => absurd hep (heq ▸ Nat.lt_irrefl _)
  exact (if_neg (by simp [hup, hdev, Nat.le_of_lt hep])).trans (if_neg hne)

theorem exec_leaseAck_first_stale {ep : BitVec 64} (hep : ep.toNat < s.epoch.toNat) (hst : (halfOf s h.val).stale = 0) :
    exec (.leaseAck h ep) s = .next (setHalf s h.val { halfOf s h.val with epoch := ep, stale := 1 }) := by
  rw [exec_leaseAck_stale hup hdev hep rfl rfl, hst]
  simp

theorem exec_leaseAck_second_stale {ep : BitVec 64} (hep : ep.toNat < s.epoch.toNat) (hst : (halfOf s h.val).stale = 1)
    (hw : (halfOf s h.val).withheld = false) : exec (.leaseAck h ep) s = .next
      (collect (setHalf s h.val { halfOf s h.val with epoch := ep, stale := 2, withheld := true }) ⟨9, BitVec.ofNat 16 h.val, 0⟩ .staleEpoch 0) := by
  rw [exec_leaseAck_stale hup hdev hep rfl rfl, hst, hw]
  simp

end Acknowledged

/-! ### Resynchronisation (R503, R506) -/

theorem exec_halfResync_kept (hk : (halfOf s h.val).withheld = false ∨ (halfOf s h.val).stopped = false) : exec (.halfResync h) s = .next s :=
  if_pos (by rcases hk with hk | hk <;> simp [hk])

theorem exec_halfResync (hup : hubUp s = true) (hw : (halfOf s h.val).withheld = true) (hstop : (halfOf s h.val).stopped = true) {s3 : State}
    (hs3 : s3 = clearEnded ((halfOf s h.val).lostCmds.foldl (fun s a => failLost s h.val a)
      (setHalf (raiseEpoch s) h.val { epoch := s.epoch + 1, lease := some s.hub.time })) h.val) :
    exec (.halfResync h) s = .next (if jobRuns s3 then restartGlades s3 (inHalf h.val) else s3) := by
  subst hs3
  exact if_neg (by simp [hup, hw, hstop])

end Leases

/-! ### The statement about leases -/

/-- Settles O59: a grant, a lapse by the lease it finds, an acknowledgement by the epoch it reports, and a resynchronisation of a half withheld and stopped. -/
theorem leaseResults : Obligations.LeaseResults := by
  rintro s h _ rfl
  exact ⟨exec_leaseGrant, exec_leaseLapse_none, fun _ => exec_leaseLapse_some, exec_leaseAck_current,
    fun _ hup hdev hep => ⟨exec_leaseAck_first_stale hup hdev hep, exec_leaseAck_second_stale hup hdev hep⟩,
    fun _ => exec_halfResync_kept, fun _ hup hw hstop => exec_halfResync hup hw hstop⟩

end Sys2Proof.Proofs
end
